-- ==== Sys2Proof/Word.lean ====
section
/-! DEFINITION. The word types of the part and their plainest arithmetic (spec 00 R2, R3, R7). -/

namespace Sys2Proof

/-- One byte of memory, scratchpad or a record. -/
abbrev Byte := BitVec 8
/-- A register word: 32 bits (R7, R122). -/
abbrev Word := BitVec 32
/-- A 64-bit value, reference or register of the part. -/
abbrev DWord := BitVec 64
/-- One 96-bit instruction word (R79). -/
abbrev IWord := BitVec 96
/-- A mask of fibre slots: bit i is slot i. -/
abbrev Mask := BitVec 32

end Sys2Proof
end

