-- ==== Sys2Proof/Machine/Bits.lean ====
section
/-! DEFINITION. Bit fields, byte order, sign reading and the two check codes (R2, R16, R28). -/

namespace Sys2Proof.Bits

/-- The value of bytes stored lowest first (R2). -/
def ofBytes (n : Nat) (l : List Byte) : BitVec n := l.foldr (fun b v => (v <<< 8) ||| b.setWidth n) 0

/-- `k` bytes of a value, lowest first (R2). -/
def toBytes {n : Nat} (k : Nat) (v : BitVec n) : List Byte := (List.range k).map fun i => v.extractLsb' (8 * i) 8

/-- Field of `len` bits from bit `lo`, as a number. -/
def field {n : Nat} (v : BitVec n) (lo len : Nat) : Nat := (v.extractLsb' lo len).toNat

/-- One bit of a record. -/
def bit {n : Nat} (v : BitVec n) (i : Nat) : Bool := v.getLsbD i

/-- `x` placed at bit `lo` of an `n`-bit record, `len` bits wide. -/
def at_ (n lo len : Nat) (x : Nat) : BitVec n := BitVec.ofNat n ((x % 2 ^ len) <<< lo)

/-- A field that must be zero. -/
def isZero {n : Nat} (v : BitVec n) (lo len : Nat) : Bool := v.extractLsb' lo len == 0

/-- A reflected CRC over the bits of a message, each byte's lowest first. -/
def crcBits {n : Nat} (poly : BitVec n) : List Bool → BitVec n → BitVec n
  | [], c => c
  | b :: r, c => if c.getLsbD 0 ^^ b then crcBits poly r ((c >>> 1) ^^^ poly) else crcBits poly r (c >>> 1)

/-- A reflected CRC with all-ones initial value and final XOR. -/
def crc {n : Nat} (poly : BitVec n) (l : List Byte) : BitVec n :=
  ~~~ crcBits poly (l.flatMap fun b => (List.range 8).map b.getLsbD) (BitVec.allOnes n)

/-- CRC-32C (Castagnoli), polynomial 0x1EDC6F41 reflected (R28). -/
def crc32c (l : List Byte) : Word := crc 0x82F63B78 l

/-- CRC-64/XZ, polynomial 0x42F0_E1EB_A9EA_3693 reflected (R16). -/
def crc64 (l : List Byte) : DWord := crc 0xC96C5795D7870F42 l

/-- A 64-byte record with its CRC-32C in the last four bytes (R28, R47, R50, R403, R450). -/
def seal64 (v : BitVec 512) : BitVec 512 :=
  (v &&& BitVec.ofNat 512 (2 ^ 480 - 1)) ||| ((crc32c (toBytes 60 v)).setWidth 512 <<< 480)

/-- CHECK of a 64-byte record matches. -/
def sealed64 (v : BitVec 512) : Bool := v.extractLsb' 480 32 == crc32c (toBytes 60 v)

/-- Number of set bits. -/
def popcount {n : Nat} (v : BitVec n) : Nat := (List.range n).countP v.getLsbD

/-- The positions of set bits, lowest first. -/
def ones {n : Nat} (v : BitVec n) : List Nat := (List.range n).filter v.getLsbD

/-- The mask of a list of bit positions. -/
def maskOf (n : Nat) (l : List Nat) : BitVec n := l.foldl (fun m i => m ||| (1#n <<< i)) 0

/-- An exact integer read modulo 2^n. -/
def wrap (n : Nat) (i : Int) : BitVec n := BitVec.ofInt n i

/-- Clamp to a closed range. -/
def clamp (lo hi i : Int) : Int := if i < lo then lo else if hi < i then hi else i

/-- The two halves of a 64-bit value as register words (R7). -/
def loWord (v : DWord) : Word := v.extractLsb' 0 32
def hiWord (v : DWord) : Word := v.extractLsb' 32 32

/-- A range meets another. -/
def overlap (a n b m : Nat) : Bool := a < b + m && b < a + n

end Sys2Proof.Bits
end

