-- ==== Sys2Proof/Syntax.lean ====
section
/-! DEFINITION. The syntax: one constructor for each row of spec/opcode_table.json. The 172 Zuzer instructions carry the
fields of their 96-bit word (R79); the 136 other rows are the part's indivisible events, with what each is about. -/

namespace Sys2Proof

/-- FORM of R85; codes 100 to 111 are refused by the decoder. -/
inductive Form where
  | rr | ri | rri | pair
  deriving DecidableEq, Repr

/-- A guard with GE = 1 (R84): GN and GB. -/
structure Guard where
  neg : Bool
  bit : BitVec 5
  deriving DecidableEq, Repr

/-- The fields of an instruction word (R79). `x` is bits [51:20]: the immediate, or C and the extension. -/
structure Fields where
  guard : Option Guard := none
  form : Form := .rr
  d : BitVec 8 := 0
  a : BitVec 8 := 0
  b : BitVec 8 := 0
  x : Word := 0
  look : BitVec 4 := 0
  ra : Bool := false
  rb : Bool := false
  yld : Bool := false
  md : BitVec 12 := 0
  deriving DecidableEq, Repr

/-- The C register field, X[31:24] of FORMs RR and PAIR (R79). -/
def Fields.c (f : Fields) : BitVec 8 := f.x.extractLsb' 24 8
/-- The 24-bit extension, X[23:0] of FORMs RR and PAIR (R79). -/
def Fields.ext (f : Fields) : BitVec 24 := f.x.extractLsb' 0 24

/-- Path of an incoming request: to IA space over CXL.mem or CXL.io (R478); a borrower's CXL.mem access to the extent of a lease that this part
lends, where the address is an offset in the extent (R433, R434); to a submission page, at an offset in it (R39); or one that needs a feature the
part does not have (R427). -/
inductive MemPath where
  | cxlMem | cxlIo
  | lent (lease : Word)
  | page (i : Nat)
  | other
  deriving DecidableEq, Repr

/-- Where an incoming request comes from (R331): its requester, its path, and whether it has Relaxed Ordering set, which orders writes alone. -/
structure MemFrom where
  src : BitVec 12
  path : MemPath
  relaxed : Bool
  deriving DecidableEq, Repr

/-- The submission page that a DMWr targets, and its requester (R39, R329). -/
structure PageFrom where
  page : Nat
  src : BitVec 12 := 0
  deriving DecidableEq, Repr

/-- What a queue core does: the instruction at its pc (R468), or a push of a request to a service queue (R50). No register of R51 carries the
push, so it is a turn of its own (DESIGN CHOICE, log 77). -/
inductive QcGo where
  | instruction (qcore : Nat)
  | push (qcore queue : Nat) (request : BitVec 512)
  deriving DecidableEq, Repr

/-- The line a check-value error strikes (R472): a line of IA space, of the part's own memory by its physical address (a page-table frame, the
compressed zone, the lendable pool, a frame that no page maps), of a block's scratchpad or accumulator store, or one that comes over a fabric link
from the lender of a lease. -/
inductive LineAt where
  | memory (ia : Nat)
  | frame (phys : Nat)
  | scratch (blk addr : Nat)
  | acc (blk addr : Nat)
  | link (lease : Word) (line : Nat)
  deriving DecidableEq, Repr

/-- A shift through the JTAG port (R473): CINCHADR with its state address, or another instruction, among them those that IEEE 1149.1 requires, with
the bits that are shifted in. -/
inductive JtagScan where
  | address (a : DWord)
  | other (ir : BitVec 8) (bits : List Bool)
  deriving DecidableEq, Repr

/-- Parked work (R405): a strand's fibres at one PC, an engine operation, or the hub's held work (R477). -/
inductive Parked where
  | strand (blk crew pc : Nat)
  | op (id : Nat)
  | record (index : Nat)
  | retiring (task : Nat)
  deriving DecidableEq, Repr

/-- A collective chunk as it arrives from the predecessor (R442, R463). -/
structure Chunk where
  ringId : Word
  epoch : BitVec 16
  seq : Nat            -- which operation of the ring on the sender, counted from 0 (R271)
  kind : Nat
  type : Nat
  count : Nat
  step : Nat
  data : List Word
  deriving DecidableEq, Repr

/-- How an acknowledgement of a peer store ends (R443). -/
inductive UioResult where
  | ok | error | poisoned
  deriving DecidableEq, Repr

/-- What an instruction of a system core does that the model does not compute (R467): arithmetic of floating point and of vectors, and an ECALL of the
supervisor, which its execution environment answers. Its accesses, its results, and the control registers it writes. -/
structure ScEffect where
  loads : List (DWord × Nat) := []
  stores : List (DWord × List Byte) := []
  x : List (BitVec 5 × DWord) := []
  f : List (BitVec 5 × DWord) := []
  v : List (BitVec 5 × BitVec 128) := []
  fcsr : Option (BitVec 8) := none
  vector : List (Nat × DWord) := []
  deriving DecidableEq, Repr

/-- What a system core does (R467, R306): the instruction at its pc, its start by another core, or an access that it makes. -/
inductive ScAct where
  | load (ia : Nat) (bytes : Nat) (acquire : Bool)
  | store (ia : Nat) (data : List Byte) (release : Bool)
  | fence (kind : BitVec 2)
  | registerRead (address : Nat)
  | instruction (other : ScEffect)
  | start (pc a0 a1 : DWord)
  deriving DecidableEq, Repr

/-- Every step of the part: one constructor for each row of the table of operations and events. -/
inductive Instr where
  /-- IADD (R123). -/
  | iadd (f : Fields)
  /-- ISUB (R123). -/
  | isub (f : Fields)
  /-- IADDC (R125). -/
  | iaddc (f : Fields)
  /-- INEG (R123). -/
  | ineg (f : Fields)
  /-- IABS (R123). -/
  | iabs (f : Fields)
  /-- IMIN (R123). -/
  | imin (f : Fields)
  /-- IMAX (R123). -/
  | imax (f : Fields)
  /-- IMUL (R123). -/
  | imul (f : Fields)
  /-- IMULH (R123). -/
  | imulh (f : Fields)
  /-- IMAD (R123). -/
  | imad (f : Fields)
  /-- IMADW (R124). -/
  | imadw (f : Fields)
  /-- IDIV (R126). -/
  | idiv (f : Fields)
  /-- IREM (R126). -/
  | irem (f : Fields)
  /-- AND (R127). -/
  | and (f : Fields)
  /-- OR (R127). -/
  | or (f : Fields)
  /-- XOR (R127). -/
  | xor (f : Fields)
  /-- ANDN (R127). -/
  | andn (f : Fields)
  /-- TERN (R127). -/
  | tern (f : Fields)
  /-- SHL (R128). -/
  | shl (f : Fields)
  /-- SHR (R128). -/
  | shr (f : Fields)
  /-- SHA (R128). -/
  | sha (f : Fields)
  /-- FSH (R128). -/
  | fsh (f : Fields)
  /-- BFX (R129). -/
  | bfx (f : Fields)
  /-- BFI (R129). -/
  | bfi (f : Fields)
  /-- POPC (R129). -/
  | popc (f : Fields)
  /-- CLZ (R129). -/
  | clz (f : Fields)
  /-- CTZ (R129). -/
  | ctz (f : Fields)
  /-- BREV (R129). -/
  | brev (f : Fields)
  /-- PERMB (R129). -/
  | permb (f : Fields)
  /-- BMSK (R129). -/
  | bmsk (f : Fields)
  /-- ICMP (R130). -/
  | icmp (f : Fields)
  /-- FCMP (R131). -/
  | fcmp (f : Fields)
  /-- PSET (R132). -/
  | pset (f : Fields)
  /-- PLOP (R132). -/
  | plop (f : Fields)
  /-- PMOV (R132). -/
  | pmov (f : Fields)
  /-- PTEST (R132). -/
  | ptest (f : Fields)
  /-- LXCH (R134). -/
  | lxch (f : Fields)
  /-- BALLOT (R135). -/
  | ballot (f : Fields)
  /-- VOTE (R136). -/
  | vote (f : Fields)
  /-- MATCH (R137). -/
  | matchLanes (f : Fields)
  /-- LRED (R138). -/
  | lred (f : Fields)
  /-- LSCAN (R138). -/
  | lscan (f : Fields)
  /-- STRANDM (R139). -/
  | strandm (f : Fields)
  /-- MOV (R140). -/
  | mov (f : Fields)
  /-- MOVI (R140). -/
  | movi (f : Fields)
  /-- SEL (R140). -/
  | sel (f : Fields)
  /-- GET (R141). -/
  | get (f : Fields)
  /-- SETMODE (R142). -/
  | setmode (f : Fields)
  /-- GETMODE (R143). -/
  | getmode (f : Fields)
  /-- CLK (R144). -/
  | clk (f : Fields)
  /-- FADD (R168). -/
  | fadd (f : Fields)
  /-- FSUB (R168). -/
  | fsub (f : Fields)
  /-- FMUL (R168). -/
  | fmul (f : Fields)
  /-- FFMA (R168). -/
  | ffma (f : Fields)
  /-- FMIN (R170). -/
  | fmin (f : Fields)
  /-- FMAX (R170). -/
  | fmax (f : Fields)
  /-- FDIV (R171). -/
  | fdiv (f : Fields)
  /-- FSQRT (R171). -/
  | fsqrt (f : Fields)
  /-- FRCP (R171). -/
  | frcp (f : Fields)
  /-- FRSQ (R171). -/
  | frsq (f : Fields)
  /-- FSCALE (R172). -/
  | fscale (f : Fields)
  /-- FRND (R173). -/
  | frnd (f : Fields)
  /-- FCLASS (R174). -/
  | fclass (f : Fields)
  /-- HADD2 (R175). -/
  | hadd2 (f : Fields)
  /-- HMUL2 (R175). -/
  | hmul2 (f : Fields)
  /-- HFMA2 (R175). -/
  | hfma2 (f : Fields)
  /-- HMNX2 (R175). -/
  | hmnx2 (f : Fields)
  /-- DOT4 (R176). -/
  | dot4 (f : Fields)
  /-- IDOT4 (R177). -/
  | idot4 (f : Fields)
  /-- FEXP2 (R178). -/
  | fexp2 (f : Fields)
  /-- FLOG2 (R178). -/
  | flog2 (f : Fields)
  /-- FSIN (R178). -/
  | fsin (f : Fields)
  /-- FCOS (R178). -/
  | fcos (f : Fields)
  /-- FTANH (R178). -/
  | ftanh (f : Fields)
  /-- CVTFF (R181). -/
  | cvtff (f : Fields)
  /-- CVTFI (R182). -/
  | cvtfi (f : Fields)
  /-- CVTIF (R183). -/
  | cvtif (f : Fields)
  /-- CVTII (R184). -/
  | cvtii (f : Fields)
  /-- PACK (R185). -/
  | pack (f : Fields)
  /-- UNPACK (R186). -/
  | unpack (f : Fields)
  /-- MXQ (R187). -/
  | mxq (f : Fields)
  /-- MXDQ (R188). -/
  | mxdq (f : Fields)
  /-- BRA (R146). -/
  | bra (f : Fields)
  /-- BRB (R146). -/
  | brb (f : Fields)
  /-- BRX (R147). -/
  | brx (f : Fields)
  /-- CALL (R148). -/
  | call (f : Fields)
  /-- RET (R148). -/
  | ret (f : Fields)
  /-- LOOP (R146). -/
  | loop (f : Fields)
  /-- NOP (R94). -/
  | nop (f : Fields)
  /-- SPAWN (R114). -/
  | spawn (f : Fields)
  /-- FEND (R115). -/
  | fend (f : Fields)
  /-- CONVERGE (R116). -/
  | converge (f : Fields)
  /-- YIELD (R118). -/
  | yield (f : Fields)
  /-- PRIO (R119). -/
  | prio (f : Fields)
  /-- LD (R207). -/
  | ld (f : Fields)
  /-- ST (R207). -/
  | st (f : Fields)
  /-- LDQ (R208). -/
  | ldq (f : Fields)
  /-- STQ (R208). -/
  | stq (f : Fields)
  /-- PREF (R209). -/
  | pref (f : Fields)
  /-- REFMK (R210). -/
  | refmk (f : Fields)
  /-- REFADD (R211). -/
  | refadd (f : Fields)
  /-- HQRY (R212). -/
  | hqry (f : Fields)
  /-- LDS (R213). -/
  | lds (f : Fields)
  /-- STS (R213). -/
  | sts (f : Fields)
  /-- STASH (R214). -/
  | stash (f : Fields)
  /-- UNSTASH (R215). -/
  | unstash (f : Fields)
  /-- FLUSHS (R216). -/
  | flushs (f : Fields)
  /-- ATOM (R338). -/
  | atom (f : Fields)
  /-- ACAS (R338). -/
  | acas (f : Fields)
  /-- ACAS2 (R338). -/
  | acas2 (f : Fields)
  /-- AFADD (R337). -/
  | afadd (f : Fields)
  /-- ATOMS (R339). -/
  | atoms (f : Fields)
  /-- ACASS (R339). -/
  | acass (f : Fields)
  /-- ROWOPEN (R246). -/
  | rowopen (f : Fields)
  /-- ROWREL (R247). -/
  | rowrel (f : Fields)
  /-- ROWLD (R248). -/
  | rowld (f : Fields)
  /-- ROWST (R248). -/
  | rowst (f : Fields)
  /-- ROWQ (R249). -/
  | rowq (f : Fields)
  /-- FENCE (R340). -/
  | fence (f : Fields)
  /-- BAR (R343). -/
  | bar (f : Fields)
  /-- RBAR (R344). -/
  | rbar (f : Fields)
  /-- ARRIVE (R343). -/
  | arrive (f : Fields)
  /-- BWAIT (R343). -/
  | bwait (f : Fields)
  /-- BARSTAT (R346). -/
  | barstat (f : Fields)
  /-- MONARM (R348). -/
  | monarm (f : Fields)
  /-- MONWAIT (R349). -/
  | monwait (f : Fields)
  /-- SEMWAIT (R347). -/
  | semwait (f : Fields)
  /-- SEMPOST (R347). -/
  | sempost (f : Fields)
  /-- WQPUSH (R352). -/
  | wqpush (f : Fields)
  /-- WQPOP (R354). -/
  | wqpop (f : Fields)
  /-- WQNOTE (R353). -/
  | wqnote (f : Fields)
  /-- TRY (R359). -/
  | tryOpen (f : Fields)
  /-- COMMIT (R370). -/
  | commit (f : Fields)
  /-- ABORT (R373). -/
  | abort (f : Fields)
  /-- TSTAT (R374). -/
  | tstat (f : Fields)
  /-- TCHK (R375). -/
  | tchk (f : Fields)
  /-- ACP (R261). -/
  | acp (f : Fields)
  /-- TCP (R264). -/
  | tcp (f : Fields)
  /-- PUT (R266). -/
  | put (f : Fields)
  /-- GATHER (R265). -/
  | gather (f : Fields)
  /-- PFX (R267). -/
  | pfx (f : Fields)
  /-- WBX (R267). -/
  | wbx (f : Fields)
  /-- WAITC (R268). -/
  | waitc (f : Fields)
  /-- CNTR (R269). -/
  | cntr (f : Fields)
  /-- TENQ (R120). -/
  | tenq (f : Fields)
  /-- TDEP (R121). -/
  | tdep (f : Fields)
  /-- SVC (R355). -/
  | svc (f : Fields)
  /-- SVCQ (R356). -/
  | svcq (f : Fields)
  /-- MMA (R295). -/
  | mma (f : Fields)
  /-- MMAC (R295). -/
  | mmac (f : Fields)
  /-- MMAS (R295). -/
  | mmas (f : Fields)
  /-- RQT (R296). -/
  | rqt (f : Fields)
  /-- ACCZ (R297). -/
  | accz (f : Fields)
  /-- ACCLD (R298). -/
  | accld (f : Fields)
  /-- ACCST (R298). -/
  | accst (f : Fields)
  /-- ACCROW (R299). -/
  | accrow (f : Fields)
  /-- ACCSCL (R300). -/
  | accscl (f : Fields)
  /-- ACCEXP (R300). -/
  | accexp (f : Fields)
  /-- SKBUILD (R301). -/
  | skbuild (f : Fields)
  /-- SKSCORE (R302). -/
  | skscore (f : Fields)
  /-- SKSEL (R303). -/
  | sksel (f : Fields)
  /-- SKMAP (R304). -/
  | skmap (f : Fields)
  /-- COLL (R272). -/
  | coll (f : Fields)
  /-- COLLQ (R275). -/
  | collq (f : Fields)
  /-- COLLX (R276). -/
  | collx (f : Fields)
  /-- TRAP (R418). -/
  | trap (f : Fields)
  /-- DBG (R418). -/
  | dbg (f : Fields)
  /-- TRET (R420). -/
  | tret (f : Fields)
  /-- RQREAD (R421). -/
  | rqread (f : Fields)
  /-- RQDROP (R422). -/
  | rqdrop (f : Fields)
  /-- PROF (R423). -/
  | prof (f : Fields)
  /-- SYSRD (R424). -/
  | sysrd (f : Fields)
  /-- RESULT_WRITEBACK (R87). -/
  | resultWriteback (blk crew entry : Nat)
  /-- CREDIT_RELOAD (R108). -/
  | creditReload (core : Nat)
  /-- WAITER_RETRY (R335). -/
  | waiterRetry (blk crew slot : Nat)
  /-- MONWAIT_TIMEOUT (R349). -/
  | monwaitTimeout (blk crew slot : Nat)
  /-- TRY_LONG_TIMEOUT (R366). -/
  | tryLongTimeout (blk crew : Nat)
  /-- COMMIT_STEP (R370). -/
  | commitStep (blk crew : Nat)
  /-- ENGINE_OPERATION_WORK (R258). -/
  | engineOperationWork (op units : Nat)
  /-- ME_LOCK_PHASE (R290). -/
  | meLockPhase (op : Nat)
  /-- ME_MULTIPLY (R290). -/
  | meMultiply (op : Nat)
  /-- ME_OPERAND_CONSUMED (R291). -/
  | meOperandConsumed (op : Nat)
  /-- ENGINE_OP_RETIRE (R253). -/
  | engineOpRetire (op : Nat)
  /-- ENGINE_FATAL_DELIVERY (R258). -/
  | engineFatalDelivery (blk crew : Nat)
  /-- SUBMIT_NOP (R45). -/
  | submitNop (page : Nat)
  /-- LAUNCH (R44). -/
  | launch (page : Nat)
  /-- DRAIN (R45). -/
  | drain (page : Nat)
  /-- SUBMISSION_COMPLETE (R46). -/
  | submissionComplete (sub : Nat)
  /-- RECORD_CHECK (R20). -/
  | recordCheck
  /-- PRIORITY_AGING (R60). -/
  | priorityAging
  /-- TASK_RESERVATION (R62). -/
  | taskReservation
  /-- TASK_PLACE (R61). -/
  | taskPlace
  /-- POOL_STALL_RESUME (R59). -/
  | poolStallResume
  /-- COMPACTOR_MOVE (R71). -/
  | compactorMove (core : Nat)
  /-- BLOCK_FILL (R25). -/
  | blockFill (blk : Nat)
  /-- CREW_RETIRE (R444). -/
  | crewRetire (blk crew : Nat)
  /-- BLOCK_RETIRE (R445). -/
  | blockRetire (blk : Nat)
  /-- TASK_RETIRE (R446). -/
  | taskRetire (task : Nat)
  /-- EXPANSION (R234). -/
  | expansion (stack page : Nat)
  /-- AGING_TICK (R235). -/
  | agingTick (stack : Nat)
  /-- MST_SET (R232). -/
  | mstSet (stack : Nat)
  /-- MST_COMPRESS (R232). -/
  | mstCompress (stack : Nat)
  /-- MST_EXPAND (R232). -/
  | mstExpand (stack : Nat)
  /-- MST_PROMOTE (R232). -/
  | mstPromote (stack : Nat)
  /-- MST_QUERY (R232). -/
  | mstQuery (stack : Nat)
  /-- MST_BAD_COMMAND (R232). -/
  | mstBadCommand (stack : Nat)
  /-- ROWOPEN_SWAP_DONE (R246). -/
  | rowopenSwapDone (blk crew : Nat)
  /-- ROW_RESTORE_TIMEOUT (R244). -/
  | rowRestoreTimeout (blk entry : Nat)
  /-- TRAP_DELIVERY (R393). -/
  | trapDelivery (blk crew : Nat)
  /-- TRAP_RECORD_WRITE (R402). -/
  | trapRecordWrite (ctx : Nat)
  /-- PARKED_RETRY (R405). -/
  | parkedRetry (who : Parked)
  /-- PREEMPT (R407). -/
  | preempt (ctx : Nat)
  /-- RESTORE (R411). -/
  | restore (ctx : Nat)
  /-- RESUME (R406). -/
  | resume (ctx : Nat)
  /-- DBGSTOP (R406). -/
  | dbgstop (ctx : Nat)
  /-- DBGRUN (R416). -/
  | dbgrun (ctx : Nat)
  /-- KILL (R406). -/
  | kill (ctx : Nat)
  /-- CTX_BAD_COMMAND (R406). -/
  | ctxBadCommand (ctx : Nat)
  /-- INVAL_HANDLES (R413). -/
  | invalHandles
  /-- INVAL_CONTEXT (R413). -/
  | invalContext
  /-- INVAL_BAD_COMMAND (R412). -/
  | invalBadCommand
  /-- INVALIDATION_DONE (R413). -/
  | invalidationDone
  /-- COLL_CHUNK_ARRIVAL (R442). -/
  | collChunkArrival (chunk : Chunk)
  /-- COLL_TIMEOUT (R274). -/
  | collTimeout (op : Nat)
  /-- COLLX_TIMEOUT (R276). -/
  | collxTimeout (op : Nat)
  /-- LEASE_REQUEST (R432). -/
  | leaseRequest
  /-- LEASE_RENEW (R432). -/
  | leaseRenew
  /-- LEASE_RELEASE (R432). -/
  | leaseRelease
  /-- LEASE_RECALL (R433). -/
  | leaseRecall
  /-- LEASE_BAD_COMMAND (R432). -/
  | leaseBadCommand
  /-- REQUEST_NO_ANSWER (R432). -/
  | requestNoAnswer
  /-- QUIESCE (R453). -/
  | quiesce
  /-- QUIESCE_COMPLETE (R453). -/
  | quiesceComplete
  /-- SNAP (R455). -/
  | snap
  /-- CK_RESUME (R457). -/
  | ckResume
  /-- LOAD (R457). -/
  | load
  /-- CLEAR (R452). -/
  | clear
  /-- PART_RESET (R469). -/
  | partReset
  /-- SPDM_REQUEST (R471). -/
  | spdmRequest (data : List Byte)
  /-- GROUP_SWAP (R227). -/
  | groupSwap (stack group member : Nat)
  /-- INSTRUCTION_FETCH (R81). -/
  | instructionFetch (blk crew : Nat)
  /-- CREW_ROTATION (R106). -/
  | crewRotation (blk crew : Nat)
  /-- SUBMIT_DMWR (R40). -/
  | submitDmwr (origin : PageFrom) (offset : Nat) (data : List Byte)
  /-- WIN_PLAIN_WRITE (R39). -/
  | winPlainWrite (page : Nat)
  /-- STATE_ERR_CLEAR (R39). -/
  | stateErrClear (page : Nat)
  /-- BINDING_WRITE (R43). -/
  | bindingWrite (page : Nat) (entry : BitVec 256)
  /-- QSB_WRITE (R48). -/
  | qsbWrite (set : Nat) (value : DWord)
  /-- SVC_POP (R52). -/
  | svcPop (qcore : Nat)
  /-- SVC_CLAIM (R52). -/
  | svcClaim (qcore : Nat)
  /-- SVC_DONE (R52). -/
  | svcDone (qcore : Nat)
  /-- SVC_NOTTAKEN (R52). -/
  | svcNottaken (qcore : Nat)
  /-- SVC_EXIT (R67). -/
  | svcExit (qcore : Nat)
  /-- SVC_FAIL (R67). -/
  | svcFail (qcore : Nat)
  /-- SVC_BAD_COMMAND (R51). -/
  | svcBadCommand (qcore : Nat) (value : Word)
  /-- SERVICE_RESTART (R56). -/
  | serviceRestart (qcore : Nat)
  /-- SERVICE_NODE_EXCEPTION (R67). -/
  | serviceNodeException (qcore : Nat) (mcause mtval : Word)
  /-- L2_EVICTION (R237). -/
  | l2Eviction (line : Nat)
  /-- BLOOM_ROTATE (R239). -/
  | bloomRotate (slice : Nat)
  /-- ROW_FORCED_CLOSE (R242). -/
  | rowForcedClose (slot : Nat)
  /-- NEIGHBOUR_REFRESH (R242). -/
  | neighbourRefresh (slot : Nat)
  /-- LINE_ERROR (R472). -/
  | lineError (at_ : LineAt) (correctable : Bool)
  /-- TRSTAT_CLEAR (R400). -/
  | trstatClear (ctx : Nat)
  /-- CORE_POWER_GATE (R415). -/
  | corePowerGate (core : Nat)
  /-- INCOMING_MEM_READ (R478). -/
  | incomingMemRead (origin : MemFrom) (ia len : Nat)
  /-- INCOMING_MEM_WRITE (R478). -/
  | incomingMemWrite (origin : MemFrom) (posted : Bool) (ia : Nat) (data : List Byte)
  /-- BACK_INVALIDATE_SNOOP (R333). -/
  | backInvalidateSnoop (lease : Word) (line : Nat)
  /-- BISNP_RESPONSE (R434). -/
  | bisnpResponse (lease : Word) (line : Nat) (dirty : List Byte)
  /-- BISNP_TIMEOUT (R434). -/
  | bisnpTimeout (lease : Word) (line : Nat)
  /-- UIO_WRITE_RECEIVED (R334). -/
  | uioWriteReceived (lease : Word) (offset : Nat) (data : List Byte)
  /-- UIO_ACK (R443). -/
  | uioAck (store : Nat) (result : UioResult)
  /-- PEER_STORE_TIMEOUT (R443). -/
  | peerStoreTimeout (store : Nat)
  /-- REQ (R433). -/
  | req (body : BitVec 256)
  /-- OFFER (R433). -/
  | offer (body : BitVec 256)
  /-- ACCEPT (R433). -/
  | accept (body : BitVec 256)
  /-- REFUSE (R432). -/
  | refuse (body : BitVec 256)
  /-- RENEW (R435). -/
  | renew (body : BitVec 256)
  /-- RENEWED (R435). -/
  | renewed (body : BitVec 256)
  /-- NOTICE (R433). -/
  | notice (body : BitVec 256)
  /-- RELEASE (R434). -/
  | release (body : BitVec 256)
  /-- RELEASED (R433). -/
  | released (body : BitVec 256)
  /-- ALIVE (R441). -/
  | alive (body : BitVec 256)
  /-- ANNOUNCE (R440). -/
  | announce (body : BitVec 256)
  /-- CLAIM (R440). -/
  | claim (body : BitVec 256)
  /-- DEPART (R439). -/
  | depart (body : BitVec 256)
  /-- RINGLIST (R276). -/
  | ringlist (source : BitVec 12) (body : BitVec 1024)
  /-- OFFER_TIMEOUT (R433). -/
  | offerTimeout (entry : Nat)
  /-- LEASE_EXPIRY (R433). -/
  | leaseExpiry (entry : Nat)
  /-- GRACE_PERIOD_END (R433). -/
  | gracePeriodEnd (entry : Nat)
  /-- RENEW_TIMER (R435). -/
  | renewTimer (entry : Nat)
  /-- ALIVE_TIMER (R431). -/
  | aliveTimer
  /-- ANNOUNCE_TIMER (R431). -/
  | announceTimer
  /-- ANNOUNCE_ABSENCE (R440). -/
  | announceAbsence
  /-- ELECTION_WIN (R440). -/
  | electionWin
  /-- ALIVE_TIMEOUT (R441). -/
  | aliveTimeout (party : BitVec 12)
  /-- PORT_LINK_DOWN (R433). -/
  | portLinkDown (port half : Nat)
  /-- PORT_LINK_RESET (R12). -/
  | portLinkReset (port half : Nat) (trains : Bool)
  /-- SNAP_COMPLETE (R455). -/
  | snapComplete (failed : Option Word)
  /-- LOAD_COMPLETE (R457). -/
  | loadComplete (error : BitVec 8) (shard : Word)
  /-- CINCH (R473). -/
  | cinch
  /-- CINCHGO (R473). -/
  | cinchgo
  /-- CINCHADR (R474). -/
  | cinchadr (scan : JtagScan)
  /-- CINCHRD (R473). -/
  | cinchrd
  /-- THERMAL_THROTTLE (R476). -/
  | thermalThrottle (die : Nat)
  /-- THERMAL_TRIP (R476). -/
  | thermalTrip (die : Nat)
  /-- REGISTER_WRITE (R6). -/
  | registerWrite (address : Nat) (value : DWord)
  /-- QUEUE_CORE_INSTRUCTION (R468). -/
  | queueCoreInstruction (go : QcGo)
  /-- SYSTEM_CORE_INSTRUCTION (R467). -/
  | systemCoreInstruction (core : Nat) (act : ScAct)
  /-- FM_API_COMMAND (R429). -/
  | fmApiCommand (pbr : BitVec 12) (routes : List (BitVec 12 × Nat))
  deriving DecidableEq, Repr

end Sys2Proof
end

