-- ==== Sys2Proof/Machine/Encoding.lean ====
section
/-! DEFINITION. The encoding rows of the 172 Zuzer instructions: which FORMs an entry accepts, which fields a form uses and
how, and which values of MOD and X it lists (R83 check 2, R85 to R91 and each entry). -/

namespace Sys2Proof

/-- How a form uses a register field (R85, R86). -/
inductive FieldUse where
  /-- The form leaves the field unused: it must be 0. -/
  | zero
  /-- `n` registers from a multiple of `n` (1, 2 or 4): read, written, or both. -/
  | regs (n : Nat) (reads writes : Bool)
  /-- A bit of v0: bits [7:5] must be 0 and no register is named (R130 to R132). -/
  | bit
  deriving DecidableEq, Repr

namespace FieldUse
/-- Registers read. -/
abbrev rd (n : Nat) : FieldUse := .regs n true false
/-- Registers written. -/
abbrev wr (n : Nat) : FieldUse := .regs n false true
/-- The value of the field agrees with its use, but for the window (R83 check 2, R86). -/
def ok (u : FieldUse) (v : BitVec 8) : Bool :=
  match u with
  | .zero => v == 0
  | .regs n _ _ => v.toNat % n == 0
  | .bit => v.toNat < 32
/-- R83 check 3: every register the field names lies below W; `n` divides W, so the first decides. -/
def inWindow (u : FieldUse) (v : BitVec 8) (w : Nat) : Bool :=
  match u with
  | .regs _ _ _ => v.toNat < w
  | _ => true
/-- The registers a field names. -/
def named (u : FieldUse) (v : BitVec 8) : List Nat :=
  match u with
  | .regs n _ _ => (List.range n).map (v.toNat + ·)
  | _ => []
/-- The form reads the field as a register. -/
def isRead : FieldUse → Bool
  | .regs _ r _ => r
  | _ => false
/-- The form writes the field's registers. -/
def isWritten : FieldUse → Bool
  | .regs _ _ w => w
  | _ => false
end FieldUse

/-- The row of one instruction in one FORM. -/
structure Row where
  d : FieldUse := .zero
  a : FieldUse := .zero
  b : FieldUse := .zero
  c : FieldUse := .zero
  /-- The immediate, or the extension, holds a listed value. -/
  x : Bool := true
  /-- MOD holds a listed value. -/
  md : Bool := true
  /-- The form is marked L (R93). -/
  long : Bool := false
  /-- YLD may be set (R88); NOP, FEND, YIELD and FENCE allow no field but the guard. -/
  yld : Bool := true
  /-- The guard fields may be non-zero. -/
  guard : Bool := true
  deriving DecidableEq, Repr

namespace Fields

/-- RND of the common MOD layout (R89). -/
def rnd (f : Fields) : Nat := (f.md.extractLsb' 9 3).toNat
/-- SAT of the common MOD layout (R89). -/
def sat (f : Fields) : Bool := f.md.getLsbD 8
/-- TYPE of the common MOD layout (R89, R91). -/
def ty (f : Fields) : Nat := (f.md.extractLsb' 4 4).toNat
/-- SUB of the common MOD layout (R89). -/
def sub (f : Fields) : Nat := (f.md.extractLsb' 0 4).toNat
/-- MOD as a number. -/
def mdv (f : Fields) : Nat := f.md.toNat
/-- MOD bits [hi:lo] with `n` bits from `lo`. -/
def mb (f : Fields) (lo n : Nat) : Nat := (f.md.extractLsb' lo n).toNat
/-- One MOD bit. -/
def mbit (f : Fields) (i : Nat) : Bool := f.md.getLsbD i
/-- No MOD bit outside `mask` is set. -/
def mdOnly (f : Fields) (mask : BitVec 12) : Bool := (f.md &&& ~~~mask) == 0
/-- The immediate as a number. -/
def xv (f : Fields) : Nat := f.x.toNat
/-- The extension as a number. -/
def extv (f : Fields) : Nat := f.ext.toNat
/-- SIZE of R206 and R336. -/
def size (f : Fields) : Nat := f.mb 4 3

end Fields

/-- Bytes of a SIZE code (R206). -/
def sizeBytes : Nat → Nat
  | 0 => 1 | 1 => 1 | 2 => 2 | 3 => 2 | 4 => 4 | 5 => 8 | 6 => 16 | _ => 0
/-- Registers a SIZE code takes (R206). -/
def sizeRegs : Nat → Nat
  | 5 => 2 | 6 => 4 | _ => 1

namespace Encoding
open FieldUse

/-- A row for one of the listed forms, or none. -/
def forms (f : Fields) (l : List Form) (r : Row) : Option Row := if f.form ∈ l then some r else none

/-! Group 0x00: R122, R123 -/

/-- Whether TYPE suits FORM: 64-bit types in PAIR and only there (R122). -/
def intTypeOk (f : Fields) (types : List Nat) : Bool :=
  f.ty ∈ types && (if f.form = .pair then f.ty == 2 || f.ty == 3 else f.ty == 0 || f.ty == 1)

def intMd (f : Fields) (types : List Nat) (sat : Bool) : Bool :=
  f.rnd == 0 && f.sub == 0 && (sat || !f.sat) && intTypeOk f types

def int2 (f : Fields) (l : List Form) (types : List Nat) (sat long : Bool) : Option Row :=
  forms f l <| match f.form with
    | .rr => { d := wr 1, a := rd 1, b := rd 1, x := f.extv == 0, md := intMd f types sat, long := long }
    | .ri => { d := wr 1, a := rd 1, md := intMd f types sat, long := long }
    | .rri => { d := wr 1, a := rd 1, b := rd 1, md := intMd f types sat, long := long }
    | .pair => { d := wr 2, a := rd 2, b := rd 2, x := f.extv == 0, md := intMd f types sat, long := long }

def int1 (f : Fields) : Option Row :=
  forms f [.rr, .pair] <| match f.form with
    | .pair => { d := wr 2, a := rd 2, x := f.extv == 0, md := intMd f [0, 2] true }
    | _ => { d := wr 1, a := rd 1, x := f.extv == 0, md := intMd f [0, 2] true }

/-- A third operand in C (RR) or the immediate (RRI). -/
def three (f : Fields) (x md : Bool) : Option Row :=
  forms f [.rr, .rri] <| match f.form with
    | .rr => { d := wr 1, a := rd 1, b := rd 1, c := rd 1, x := f.extv == 0, md := md }
    | _ => { d := wr 1, a := rd 1, b := rd 1, x := x, md := md }

/-! Groups 0x01 and 0x02: R127 to R129 -/

def logic2 (f : Fields) : Option Row :=
  forms f [.rr, .ri, .pair] <| match f.form with
    | .pair => { d := wr 2, a := rd 2, b := rd 2, x := f.extv == 0, md := f.mdOnly 0 }
    | .ri => { d := wr 1, a := rd 1, md := f.mdOnly 0 }
    | _ => { d := wr 1, a := rd 1, b := rd 1, x := f.extv == 0, md := f.mdOnly 0 }

def count1 (f : Fields) (dn : Nat) : Option Row :=
  forms f [.rr, .pair] <| match f.form with
    | .pair => { d := wr dn, a := rd 2, x := f.extv == 0, md := f.mdOnly 0 }
    | _ => { d := wr 1, a := rd 1, x := f.extv == 0, md := f.mdOnly 0 }

/-! Plain shapes used by several groups -/

/-- FORM RR with D written, A read, B, C and the extension 0. -/
def unary (f : Fields) (dn an : Nat) (md long : Bool) : Option Row :=
  forms f [.rr] { d := wr dn, a := rd an, x := f.extv == 0, md := md, long := long }

/-- FORM RR or RI with two sources. -/
def binary (f : Fields) (x md long : Bool) : Option Row :=
  forms f [.rr, .ri] <| match f.form with
    | .ri => { d := wr 1, a := rd 1, x := x, md := md, long := long }
    | _ => { d := wr 1, a := rd 1, b := rd 1, x := f.extv == 0, md := md, long := long }

/-- FORM RR with three register sources. -/
def ternary (f : Fields) (md : Bool) : Option Row :=
  forms f [.rr] { d := wr 1, a := rd 1, b := rd 1, c := rd 1, x := f.extv == 0, md := md }

/-! Groups 0x06 to 0x09: R167, R175, R178, R180 -/

/-- MOD of the common layout: types, whether rounding and saturation are allowed, and the listed SUB values. -/
def flMd (f : Fields) (types : List Nat) (rnd sat : Bool) (subs : Nat) : Bool :=
  f.ty ∈ types && (if rnd then f.rnd < 6 else f.rnd == 0) && (sat || !f.sat) && f.sub ≤ subs

/-- A conversion, with the source code in SUB (R180). -/
def cvt (f : Fields) (dst src : Bool) (rnd sat : Bool) : Option Row :=
  -- dst, src: the field accepts float codes (true) or integer codes (false)
  let isFl (c : Nat) : Bool := 8 ≤ c
  let pairIf (c : Nat) : Nat := if c == 2 || c == 3 then 2 else 1
  forms f [.rr]
    { d := wr (pairIf f.ty), a := rd (pairIf f.sub), x := f.extv == 0,
      md := (isFl f.ty == dst) && (isFl f.sub == src) && (if rnd then f.rnd < 6 else f.rnd == 0) && (sat || !f.sat) }

/-- Lanes of a register for a TYPE code, with SUB[3] turning S8 and N8 into 4-bit integers (R153, R185). -/
def packLanes (ty : Nat) (four : Bool) : Nat :=
  if four then 8 else if ty == 9 || ty == 10 || ty == 4 || ty == 5 then 2 else if ty == 15 then 8 else 4

/-- TYPE and SUB of PACK and UNPACK (R185). -/
def packSel (f : Fields) : Bool :=
  let four := 8 ≤ f.sub
  (f.ty ≥ 9 || (4 ≤ f.ty && f.ty ≤ 7)) && (!four || f.ty == 6 || f.ty == 7) && f.sub % 8 < packLanes f.ty four

/-! Groups 0x0C to 0x0F: R206, R336 -/

def loadSize (s : Nat) : Bool := s ≤ 6
def storeSize (s : Nat) : Bool := s == 1 || s == 3 || s == 4 || s == 5 || s == 6

/-- LD, ST, LDS, STS, PREF: FORM RI or RRI; SCL and ISG must be 0 in RI. -/
def memForm (f : Fields) (d : FieldUse) (an : Nat) (md long : Bool) : Option Row :=
  forms f [.ri, .rri] <| match f.form with
    | .ri => { d := d, a := rd an, md := md && f.mb 7 3 == 0, long := long }
    | _ => { d := d, a := rd an, b := rd 1, md := md, long := long }

/-- A D field that holds the stamp pair when MOD[10] is set (R254, R261). -/
def stampD (f : Fields) : FieldUse := if f.mbit 10 then rd 2 else .zero

def lenOk (n : Nat) (hi : Nat) : Bool := n % 64 == 0 && 64 ≤ n && n ≤ hi

/-- SYSRD items of R425. -/
def sysrdItem (x : Nat) : Bool := x ≤ 9 || (16 ≤ x && x ≤ 23)

/-- The row of an instruction with these fields; none when its entry does not list the FORM, or when the constructor is
an event and has no word. -/
def row : Instr → Option Row
  -- group 0x00 (R123 to R126)
  | .iadd f => int2 f [.rr, .ri, .rri, .pair] [0, 1, 2, 3] true false
  | .isub f => int2 f [.rr, .ri, .pair] [0, 1, 2, 3] true false
  | .iaddc f => forms f [.rr] { d := wr 1, a := rd 1, b := rd 1, x := f.extv < 32 && f.d != 0, md := f.rnd == 0 && !f.sat && f.ty == 1 && f.sub ≤ 1 }
  | .ineg f => int1 f
  | .iabs f => int1 f
  | .imin f => int2 f [.rr, .ri, .pair] [0, 1, 2, 3] false false
  | .imax f => int2 f [.rr, .ri, .pair] [0, 1, 2, 3] false false
  | .imul f => int2 f [.rr, .ri, .pair] [0, 1, 2, 3] true false
  | .imulh f => int2 f [.rr, .ri] [0, 1] false false
  | .imad f => three f true (intMd f [0, 1] true)
  | .imadw f => forms f [.rr] { d := wr 2, a := rd 1, b := rd 1, c := rd 2, x := f.extv == 0, md := intMd f [0, 1] false }
  | .idiv f => int2 f [.rr, .ri, .pair] [0, 1, 2, 3] true true
  | .irem f => int2 f [.rr, .ri, .pair] [0, 1, 2, 3] false true
  -- group 0x01 (R127, R128)
  | .and f => logic2 f
  | .or f => logic2 f
  | .xor f => logic2 f
  | .andn f => logic2 f
  | .tern f => three f true (f.mdOnly 0x0FF)
  | .shl f => logic2 f
  | .shr f => logic2 f
  | .sha f => logic2 f
  | .fsh f => three f true (f.mdOnly 1)
  -- group 0x02 (R129)
  | .bfx f => binary f (f.xv < 65536) (f.mdOnly 1) false
  | .bfi f => three f (f.xv < 65536) (f.mdOnly 0)
  | .popc f => count1 f 1
  | .clz f => count1 f 1
  | .ctz f => count1 f 1
  | .brev f => count1 f 2
  | .permb f => three f (f.xv < 65536) (f.mdOnly 0)
  | .bmsk f =>
    forms f [.rr, .ri] <| match f.form with
      | .ri => { d := wr 1, x := f.xv < 65536, md := f.mdOnly 0 }
      | _ => { d := wr 1, a := rd 1, x := f.extv == 0, md := f.mdOnly 0 }
  -- group 0x03 (R130 to R132)
  | .icmp f =>
    let md := f.rnd == 0 && !f.sat && f.sub ≤ 5 && intTypeOk f [0, 1, 2, 3]
    forms f [.rr, .ri, .pair] <| match f.form with
      | .pair => { d := .bit, a := rd 2, b := rd 2, x := f.extv == 0, md := md }
      | .ri => { d := .bit, a := rd 1, md := md }
      | _ => { d := .bit, a := rd 1, b := rd 1, x := f.extv == 0, md := md }
  | .fcmp f =>
    let md := f.rnd == 0 && !f.sat && f.sub ≤ 7 && (f.ty == 8 || f.ty == 9 || f.ty == 10)
    forms f [.rr, .ri] <| match f.form with
      | .ri => { d := .bit, a := rd 1, x := f.ty == 8 || f.xv < 65536, md := md }
      | _ => { d := .bit, a := rd 1, b := rd 1, x := f.extv == 0, md := md }
  | .pset f =>
    forms f [.rr, .ri] <| match f.form with
      | .ri => { a := rd 1, md := f.mdOnly 0 }
      | _ => { a := rd 1, b := rd 1, x := f.extv == 0, md := f.mdOnly 0 }
  | .plop f => forms f [.rr] { d := .bit, a := .bit, b := .bit, c := .bit, x := f.extv < 256, md := f.mdOnly 0 }
  | .pmov f =>
    forms f [.rr, .ri] <| match f.form with
      | .ri => { d := .bit, a := rd 1, x := f.xv < 32, md := f.mdOnly 0 }
      | _ => { d := .bit, a := rd 1, b := rd 1, x := f.extv == 0, md := f.mdOnly 0 }
  | .ptest f =>
    forms f [.rr, .ri] <| match f.form with
      | .ri => { d := wr 1, md := f.mdOnly 0xF && f.sub ≤ 2 }
      | _ => { d := wr 1, a := rd 1, x := f.extv == 0, md := f.mdOnly 0xF && f.sub ≤ 2 }
  -- group 0x04 (R133 to R139)
  | .lxch f => binary f true (f.mdOnly 3) false
  | .ballot f => binary f (f.xv < 32) (f.mdOnly 1) false
  | .vote f => binary f (f.xv < 32) (f.mdv ≤ 2) false
  | .matchLanes f =>
    forms f [.rr, .pair] { d := wr 1, a := rd (if f.form = .pair then 2 else 1), x := f.extv == 0, md := f.mdOnly 0 }
  | .lred f => unary f 1 1 (f.mdOnly 0x3F7 && (f.mbit 9 || f.mb 4 5 == 0)) false
  | .lscan f => unary f 1 1 (f.mdOnly 0x3FF && (f.mbit 9 || f.mb 4 5 == 0)) false
  | .strandm f => forms f [.rr] { d := wr 1, x := f.extv == 0, md := f.mdv ≤ 2 }
  -- group 0x05 (R140 to R144)
  | .mov f =>
    let n := if f.form = .pair then 2 else 1
    forms f [.rr, .pair] { d := wr n, a := rd n, x := f.extv == 0, md := f.mdOnly 0 }
  | .movi f => forms f [.ri] { d := wr (if f.mdv == 0 then 1 else 2), md := f.mdv ≤ 2 }
  | .sel f =>
    forms f [.rr, .ri, .pair] <| match f.form with
      | .pair => { d := wr 2, a := rd 2, b := rd 2, x := f.extv == 0, md := f.mdOnly 0x3F }
      | .ri => { d := wr 1, a := rd 1, md := f.mdOnly 0x3F }
      | _ => { d := wr 1, a := rd 1, b := rd 1, x := f.extv == 0, md := f.mdOnly 0x3F }
  | .get f =>
    forms f [.ri] { d := wr (if 0x20 ≤ f.xv then 2 else 1), x := f.xv ≤ 0x14 || (0x20 ≤ f.xv && f.xv ≤ 0x22), md := f.mdOnly 0 }
  | .setmode f =>
    forms f [.rr, .ri] <| match f.form with
      | .ri => { a := rd 1, md := f.mdOnly 0 }
      | _ => { a := rd 1, b := rd 1, x := f.extv == 0, md := f.mdOnly 0 }
  | .getmode f => forms f [.rr] { d := wr 1, x := f.extv == 0, md := f.mdOnly 0 }
  | .clk f => forms f [.rr] { d := wr 2, x := f.extv == 0, md := f.mdOnly 0 }
  -- group 0x06 (R167, R168)
  | .fadd f => binary f true (flMd f [8] true true 0) false
  | .fsub f => binary f true (flMd f [8] true true 0) false
  | .fmul f => binary f true (flMd f [8] true true 0) false
  | .ffma f => three f true (flMd f [8] true true 0)
  | .fmin f => binary f true (flMd f [8] false false 1) false
  | .fmax f => binary f true (flMd f [8] false false 1) false
  | .fdiv f => binary f true (flMd f [8] true true 0) true
  | .fsqrt f => unary f 1 1 (flMd f [8] true true 0) true
  | .frcp f => unary f 1 1 (flMd f [8] true true 0) true
  | .frsq f => unary f 1 1 (flMd f [8] false true 0) true
  | .fscale f => binary f true (flMd f [8] true true 0) false
  | .frnd f => unary f 1 1 (flMd f [8] true false 1) false
  | .fclass f => unary f 1 1 (flMd f [8] false false 0) false
  -- group 0x07 (R175 to R177)
  | .hadd2 f => binary f true (flMd f [9, 10] true true 1) false
  | .hmul2 f => binary f true (flMd f [9, 10] true true 0) false
  | .hfma2 f => ternary f (flMd f [9, 10] true true 0)
  | .hmnx2 f => binary f true (flMd f [9, 10] false false 3) false
  | .dot4 f => ternary f (flMd f [11, 12] true true 12 && (f.sub == 0 || f.sub == 11 || f.sub == 12))
  | .idot4 f => ternary f (flMd f [6, 7] false true 1)
  -- group 0x08 (R178)
  | .fexp2 f => unary f 1 1 (flMd f [8] false false 0) true
  | .flog2 f => unary f 1 1 (flMd f [8] false false 0) true
  | .fsin f => unary f 1 1 (flMd f [8] false false 0) true
  | .fcos f => unary f 1 1 (flMd f [8] false false 0) true
  | .ftanh f => unary f 1 1 (flMd f [8] false false 0) true
  -- group 0x09 (R180 to R188)
  | .cvtff f => cvt f true true true true
  | .cvtfi f => cvt f false true true false
  | .cvtif f => cvt f true false true true
  | .cvtii f => cvt f false false false true
  | .pack f =>
    forms f [.rr] { d := wr 1, a := rd 1, b := rd 1, x := f.extv == 0, md := packSel f && (if 9 ≤ f.ty then f.rnd < 6 else f.rnd == 0) }
  | .unpack f => unary f 1 1 (packSel f && f.rnd == 0 && !f.sat) false
  | .mxq f => unary f 1 1 (flMd f [11, 12, 13, 14, 15] true false 0) false
  | .mxdq f => unary f 1 1 (flMd f [11, 12, 13, 14, 15] true true 0) false
  -- group 0x0A (R145 to R148, R94)
  | .bra f =>
    forms f [.rr, .ri] <| match f.form with
      | .ri => { md := f.mdOnly 0 }
      | _ => { a := rd 1, x := f.extv == 0, md := f.mdOnly 0 }
  | .brb f => forms f [.ri] { a := rd 1, md := f.mdOnly 0x3F }
  | .brx f => forms f [.ri] { a := rd 1, md := f.mdv != 0 }
  | .call f =>
    forms f [.rr, .ri] <| match f.form with
      | .ri => { md := f.mdOnly 0 }
      | _ => { a := rd 1, x := f.extv == 0, md := f.mdOnly 0 }
  | .ret f => forms f [.rr] { a := rd 1, x := f.extv == 0, md := f.mdOnly 0 }
  | .loop f => forms f [.ri] { d := .regs 1 true true, md := f.mdOnly 0 }
  | .nop f => forms f [.rr] { x := f.extv == 0, md := f.mdOnly 0, yld := false }
  -- group 0x0B (R114 to R119)
  | .spawn f => binary f true (f.mdOnly 0) false
  | .fend f => forms f [.rr] { x := f.extv == 0, md := f.mdOnly 0, yld := false }
  | .converge f => forms f [.ri] { md := f.mdOnly 0, guard := false }
  | .yield f => forms f [.rr] { x := f.extv == 0, md := f.mdOnly 0, yld := false }
  | .prio f => forms f [.ri] { x := f.xv < 4, md := f.mdOnly 0 }
  -- group 0x0C (R206 to R212)
  | .ld f => memForm f (wr (sizeRegs f.size)) 2 (f.mdOnly 0xFF1 && f.mb 10 2 ≤ 1 && loadSize f.size) true
  | .st f => memForm f (rd (sizeRegs f.size)) 2 (f.mdOnly 0xFF1 && (f.mb 10 2 == 0 || f.mb 10 2 == 2) && storeSize f.size) false
  | .ldq f =>
    forms f [.ri] { d := wr (sizeRegs f.size), a := rd 2, md := f.mdOnly 0xC71 && f.mb 10 2 ≤ 1 && 4 ≤ f.size && f.size ≤ 6, long := true }
  | .stq f =>
    forms f [.ri] { d := rd (sizeRegs f.size), a := rd 2, md := f.mdOnly 0xC71 && (f.mb 10 2 == 0 || f.mb 10 2 == 2) && 4 ≤ f.size && f.size ≤ 6 }
  | .pref f => memForm f .zero 2 (f.mdOnly 0x382) false
  | .refmk f =>
    forms f [.rr, .ri] <| match f.form with
      | .ri => { d := wr 2, a := rd 1, md := f.mdOnly 0 }
      | _ => { d := wr 2, a := rd 1, b := rd 1, c := rd 1, x := f.extv == 0, md := f.mdOnly 0 }
  | .refadd f =>
    forms f [.rr, .ri, .pair] <| match f.form with
      | .ri => { d := wr 2, a := rd 2, md := f.mdOnly 1 }
      | .pair => { d := wr 2, a := rd 2, b := rd 2, x := f.extv == 0, md := f.mdOnly 1 }
      | _ => { d := wr 2, a := rd 2, b := rd 1, x := f.extv == 0, md := f.mdOnly 1 }
  | .hqry f => unary f 1 2 (f.mdv ≤ 5) true
  -- group 0x0D (R213 to R216)
  | .lds f => memForm f (wr (sizeRegs f.size)) 1 (f.mdOnly 0x3F0 && loadSize f.size) true
  | .sts f => memForm f (rd (sizeRegs f.size)) 1 (f.mdOnly 0x3F0 && storeSize f.size) false
  | .stash f => forms f [.rri] { d := wr 1, a := rd 2, b := rd 1, x := lenOk f.xv 65536, md := f.mdOnly 1 }
  | .unstash f => forms f [.rr] { a := rd 1, x := f.extv == 0, md := f.mdOnly 1 }
  | .flushs f => forms f [.rr] { a := if f.mbit 0 then .zero else rd 1, x := f.extv == 0, md := f.mdOnly 1 }
  -- group 0x0E (R336 to R339)
  | .atom f =>
    forms f [.rri] { d := wr (sizeRegs f.size), a := rd 2, b := rd (sizeRegs f.size), md := f.mb 7 3 == 0 && (f.size == 4 || f.size == 5) && f.sub ≤ 8, long := true }
  | .acas f =>
    let n := sizeRegs f.size
    forms f [.rr] { d := wr n, a := rd 2, b := rd n, c := rd n, md := f.mb 7 3 == 0 && (f.size == 4 || f.size == 5) && f.sub == 0, long := true }
  | .acas2 f =>
    forms f [.rr] { d := wr 4, a := rd 2, b := rd 4, c := rd 4, md := f.mb 7 3 == 0 && f.size == 6 && f.sub == 0, long := true }
  | .afadd f =>
    forms f [.rri] { d := wr 1, a := rd 2, b := rd 1, md := f.mb 7 3 == 0 && f.size == 4 && f.sub ≤ 2, long := true }
  | .atoms f =>
    forms f [.rri] { d := wr (sizeRegs f.size), a := rd 1, b := rd (sizeRegs f.size), md := f.mb 7 5 == 0 && (f.size == 4 || f.size == 5) && f.sub ≤ 8, long := true }
  | .acass f =>
    let n := sizeRegs f.size
    forms f [.rr] { d := wr n, a := rd 1, b := rd n, c := rd n, md := f.mb 7 5 == 0 && (f.size == 4 || f.size == 5) && f.sub == 0, long := true }
  -- group 0x0F (R246 to R249)
  | .rowopen f => forms f [.ri] { d := wr 1, a := rd 2, md := f.mdOnly 1, long := true }
  | .rowrel f => forms f [.rr] { a := rd 1, x := f.extv == 0, md := f.mdOnly 0 }
  | .rowld f =>
    forms f [.rri] { d := wr (sizeRegs f.size), a := rd 2, b := rd 1, md := f.mdOnly 0x070 && loadSize f.size, long := true }
  | .rowst f => forms f [.rri] { d := rd (sizeRegs f.size), a := rd 2, b := rd 1, md := f.mdOnly 0x070 && storeSize f.size }
  | .rowq f => unary f 1 1 (f.mdOnly 0) true
  -- group 0x10 (R340, R343, R344, R346)
  | .fence f => forms f [.rr] { x := f.extv == 0, md := f.mdOnly 3 && f.mdv != 0, yld := false }
  | .bar f => forms f [.ri] { x := f.xv < 1024, md := f.mdOnly 0, guard := false }
  | .rbar f =>
    forms f [.ri] { x := f.xv < 256 && f.xv / 4 % 8 ≤ 4 && f.xv / 32 % 8 ≤ 4, md := f.mdOnly 1, guard := false }
  | .arrive f => forms f [.ri] { d := wr 1, x := f.xv < 1024, md := f.mdOnly 0, guard := false }
  | .bwait f => forms f [.ri] { a := rd 1, x := f.xv < 16, md := f.mdOnly 0, guard := false }
  | .barstat f =>
    forms f [.ri] { d := wr 1, x := f.xv < 256 && f.xv / 32 ≤ 5 && (f.xv / 16 % 2 == 0 || f.xv % 16 ≤ 3), md := f.mdOnly 0 }
  -- group 0x11 (R347 to R354)
  | .monarm f => forms f [.ri] { d := wr (sizeRegs f.size), a := rd 2, md := f.mdOnly 0x070 && (f.size == 4 || f.size == 5) }
  | .monwait f => unary f 1 1 (f.mdOnly 0) false
  | .semwait f => forms f [.rri] { d := wr 1, a := rd 2, b := rd 1, md := f.mdOnly 1 }
  | .sempost f => forms f [.rri] { d := wr 1, a := rd 2, b := rd 1, md := f.mdOnly 0 }
  | .wqpush f => forms f [.rr] { d := wr 1, a := rd 2, b := rd 1, x := f.extv == 0, md := f.mdOnly 1 }
  | .wqpop f => forms f [.rr] { d := wr 1, a := rd 2, b := rd 1, x := f.extv == 0, md := f.mdOnly 1 }
  | .wqnote f => forms f [.pair] { d := wr 2, a := rd 2, b := rd 2, x := f.extv == 0, md := f.mdOnly 1 }
  -- group 0x12 (R359, R370, R373 to R375)
  | .tryOpen f => forms f [.ri] { d := wr 1, md := f.mdOnly 1 }
  | .commit f => forms f [.rr] { d := wr 1, x := f.extv == 0, md := f.mdOnly 0 }
  | .abort f => forms f [.ri] { x := f.xv < 256, md := f.mdOnly 0 }
  | .tstat f => forms f [.rr] { d := wr 1, x := f.extv == 0, md := f.mdOnly 1 }
  | .tchk f =>
    forms f [.rr, .ri] <| match f.form with
      | .ri => { a := rd 2, md := f.mdOnly 0x071 && f.mbit 0 && storeSize f.size }
      | _ => { a := rd 1, x := f.extv == 0, md := f.mdOnly 0 }
  -- group 0x13 (R261 to R269)
  | .acp f =>
    forms f [.rri] { d := stampD f, a := rd 2, b := rd 1, md := f.mdOnly 0x771 && !(f.mbit 9 && f.mbit 8) && 4 ≤ f.size && f.size ≤ 6 }
  | .tcp f => forms f [.rr] { d := stampD f, a := rd 2, b := rd 1, x := f.extv == 0, md := f.mdOnly 0x400 }
  | .put f =>
    forms f [.rr] { d := stampD f, a := rd 1, b := rd 1, c := rd 1, x := 1 ≤ f.extv && f.extv ≤ 16384, md := f.mdOnly 0x400 }
  | .gather f => forms f [.rr] { d := stampD f, a := rd 2, b := rd 1, c := rd 1, x := f.extv == 0, md := f.mdOnly 0x400 }
  | .pfx f => forms f [.ri] { d := stampD f, a := rd 2, md := f.mdOnly 0x401 }
  | .wbx f => forms f [.ri] { d := stampD f, a := rd 2, md := f.mdOnly 0x401 }
  | .waitc f => forms f [.ri] { x := f.xv ≤ 255, md := f.mdv ≤ 5 }
  | .cntr f => forms f [.ri] { d := wr 1, x := f.xv ≤ 5, md := f.mdOnly 0 }
  -- group 0x14 (R120, R121, R355, R356)
  | .tenq f => forms f [.pair] { d := wr 1, a := rd 2, x := f.extv == 0, md := f.mdOnly 0 }
  | .tdep f => forms f [.pair] { d := wr 1, a := rd 2, x := f.extv == 0, md := f.mdOnly 1 }
  | .svc f => forms f [.rr] { d := wr 1, a := rd 2, b := rd 1, x := f.extv == 0, md := f.mdOnly 0 }
  | .svcq f => forms f [.pair] { d := wr 1, a := rd 2, b := rd 2, c := rd 1, x := f.extv == 0, md := f.mdOnly 1, long := true }
  -- group 0x15 (R295, R296)
  | .mma f => forms f [.pair] { d := stampD f, a := rd 2, x := f.extv == 0, md := f.mdOnly 0x401 }
  | .mmac f => forms f [.pair] { d := stampD f, a := rd 2, x := f.extv == 0, md := f.mdOnly 0x401 }
  | .mmas f => forms f [.pair] { d := stampD f, a := rd 2, c := rd 1, x := f.extv == 0, md := f.mdOnly 0x403 }
  | .rqt f =>
    let s : FieldUse := if 9 ≤ f.mdv then rd 1 else .zero
    forms f [.rr] { d := rd 1, a := rd 1, b := s, c := s, x := f.extv < 16, md := f.mdv ≤ 13 }
  -- group 0x16 (R297 to R300)
  | .accz f => forms f [.ri] { d := stampD f, a := rd 1, x := lenOk f.xv 262144, md := f.mdOnly 0x400 }
  | .accld f =>
    forms f [.rr, .pair]
      { d := stampD f, a := rd (if f.form = .pair then 2 else 1), c := rd 1, x := lenOk f.extv 262144,
        md := f.mdOnly 0x4F0 && (f.ty == 0 || f.ty == 8 || f.ty == 9 || f.ty == 10) }
  | .accst f =>
    forms f [.rr, .pair]
      { d := stampD f, a := rd (if f.form = .pair then 2 else 1), c := rd 1, x := lenOk f.extv 262144,
        md := f.mdOnly 0x5F7 && f.mb 0 3 ≤ 5 &&
          (((f.ty == 0 || f.ty == 8) && f.mb 0 3 == 0 && !f.sat) || f.ty == 9 || f.ty == 10 || f.ty == 11 || f.ty == 12) }
  | .accrow f =>
    let get := f.mb 4 2 == 2
    forms f [.rr]
      { d := wr 1, a := rd 1, b := if get then rd 1 else .zero, x := f.extv == 0, long := true,
        md := f.mdOnly 0x077 && f.mb 4 2 ≤ 2 && f.mb 0 3 ≤ 4 && (!get || (f.mb 0 3 == 0 && !f.mbit 6)) }
  | .accscl f => forms f [.rr] { a := rd 1, b := rd 1, x := f.extv == 0, md := f.mdOnly 0x037 && f.mb 0 3 ≤ 4 && f.mb 4 2 ≤ 1 }
  | .accexp f => forms f [.rr] { a := rd 1, b := rd 1, c := rd 1, x := f.extv == 0, md := f.mdv ≤ 4 }
  -- group 0x17 (R301 to R304)
  | .skbuild f =>
    forms f [.rr]
      { d := stampD f, a := rd 1, b := rd 1, c := rd 1, x := f.extv < 16384,
        md := f.mdOnly 0x4F1 && (f.ty == 8 || (!f.mbit 0 && (f.ty == 9 || f.ty == 10))) }
  | .skscore f =>
    forms f [.rr, .pair] { d := stampD f, a := rd (if f.form = .pair then 2 else 1), c := rd 1, x := f.extv < 65536, md := f.mdOnly 0x400 }
  | .sksel f => forms f [.rr] { d := wr 1, a := rd 1, b := rd 1, c := rd 1, md := f.mdOnly 0, long := true }
  | .skmap f =>
    forms f [.rr]
      { a := rd 1, b := rd 1, c := rd 1, x := f.extv < 8192 && f.extv / 256 ≤ 16 && (!f.mbit 0 || f.extv < 256),
        md := f.mdOnly 0x1FF && (!f.mbit 0 || f.mdv == 1) }
  -- group 0x18 (R272, R275, R276)
  | .coll f =>
    forms f [.pair]
      { d := rd 2, a := rd 2, b := rd 2, c := rd 1, x := f.extv == 0,
        md := f.mdOnly 0x0FF && f.sub ≤ 5 && (f.ty == 0 || f.ty == 1 || f.ty == 8 || f.ty == 9 || f.ty == 10) }
  | .collq f => unary f 1 2 (f.mdOnly 0) true
  | .collx f => forms f [.pair] { d := rd 2, a := rd 2, b := rd 2, x := f.extv == 0, md := f.mdOnly 0 }
  -- group 0x19 (R418 to R424)
  | .trap f => forms f [.ri] { x := f.xv < 256, md := f.mdOnly 0 }
  | .tret f => forms f [.rr] { a := if f.mdv == 2 then rd 1 else .zero, x := f.extv == 0, md := f.mdv ≤ 2, guard := false }
  | .rqread f =>
    unary f 1 1 (f.mdOnly 0xF && f.mb 0 3 ≤ 6 && (!f.mbit 3 || f.mb 0 3 == 5 || f.mb 0 3 == 6)) true
  | .rqdrop f => forms f [.rr] { a := if f.mbit 0 then .zero else rd 1, x := f.extv == 0, md := f.mdOnly 1 }
  | .dbg f => forms f [.ri] { x := f.xv < 256, md := f.mdOnly 0 }
  | .prof f => forms f [.rr] { a := rd 1, x := f.extv == 0, md := f.mdOnly 0 }
  | .sysrd f => forms f [.ri] { d := wr 1, x := sysrdItem f.xv, md := f.mdOnly 0, long := true }
  | _ => none

/-- R83 check 2 for one row, but for the bits the fields cannot hold (FORM 100 to 111, bit [12], GN or GB with GE = 0). -/
def rowOk (f : Fields) (r : Row) : Bool :=
  r.d.ok f.d && r.a.ok f.a && r.b.ok f.b &&
  (match f.form with | .rr => r.c.ok f.c | .pair => r.c.ok f.c | .ri => true | .rri => true) &&
  r.x && r.md &&
  (f.look == 0 || (r.long && r.d.isWritten)) &&
  (!f.ra || r.a.isRead) && (!f.rb || r.b.isRead) &&
  (!f.yld || r.yld) && (f.guard.isNone || r.guard)

/-- Whether the form has a C register field. -/
def hasC (f : Fields) : Bool := f.form == .rr || f.form == .pair

/-- R83 check 3. -/
def rowInWindow (f : Fields) (r : Row) (w : Nat) : Bool :=
  r.d.inWindow f.d w && r.a.inWindow f.a w && r.b.inWindow f.b w && (!hasC f || r.c.inWindow f.c w)

/-- Every register a word's fields name, pairs and quads in full (R111). -/
def namedRegs (f : Fields) (r : Row) : List Nat :=
  r.d.named f.d ++ r.a.named f.a ++ r.b.named f.b ++ (if hasC f then r.c.named f.c else [])

/-- The destination registers of a form (R87). -/
def destRegs (f : Fields) (r : Row) : List Nat := if r.d.isWritten then r.d.named f.d else []

end Encoding
end Sys2Proof
end

