-- ==== Sys2Proof/Config.lean ====
section
/-! DEFINITION. What an implementation or the personality record fixes, and the free values of the manual.
An `opaque` constant has no body: nothing can evaluate it, so every statement holds whatever its value is. -/

namespace Sys2Proof.Config

/-- Least compressed zone in units of 8 GiB: the default personality record (R11, R470). DESIGN CHOICE, log 2. -/
def zc : Nat := 2
/-- Lendable-pool granules of 256 MiB: the default personality record (R11, R470). DESIGN CHOICE, log 2. -/
def poolgr : Nat := 2432
/-- Congruence groups of each stack for a pool of so many granules, G_s of R225. -/
def groupsOf (poolgr : Nat) : Nat := (8192 - poolgr) * 512 / 3
/-- IA pages of each stack that boot maps for such a pool: P of R479, all frames but the T that hold the table. -/
def pagesOf (poolgr : Nat) : Nat := 4 * groupsOf poolgr - 4 * ((groupsOf poolgr + 8191) / 8192)
/-- Congruence groups of each stack for the default division: 983,040. -/
def groupsPerStack : Nat := groupsOf poolgr
/-- IA pages of each stack that boot maps for the default division: 3,931,680. -/
def mappedPages : Nat := pagesOf poolgr
/-- Implementation revision (R410, R456): the implementation fixes it and the manual gives no value. -/
opaque impRev : BitVec 8

/-- What the identity CSRs of a queue or system core hold: a core's number among the part's harts, and the CSR's number. The RISC-V specifications
leave the values to the implementation. -/
opaque rvIdentity : Nat → Nat → Word

/-! ### Free values: the manual states no value, or only a bound -/

/-- Register results that a rule calls not defined, indexed by the step's free counter. -/
opaque freeWord : Nat → Word
/-- Bytes that a rule calls not defined, indexed by the step's free counter. -/
opaque freeByte : Nat → Byte
/-- Yes or no choices the manual leaves to the part, indexed by the step's free counter. -/
opaque freeBool : Nat → Bool
/-- Candidate results of the five transcendental forms and of FRSQ before the bound of R171, R178 is applied. -/
opaque fexp2 : Word → Word
opaque flog2 : Word → Word
opaque fsin : Word → Word
opaque fcos : Word → Word
opaque ftanh : Word → Word
/-- FRSQ: whether the neighbour above the truncated root is returned (R171: within 1 ulp). -/
opaque frsqUp : Word → Bool
/-- Whether ∞ × 0 beside a quiet NaN addend raises invalid: IEEE 754-2019 leaves it to the implementation (R156). Free, log 7. -/
opaque fmaNanInvalid : Bool
/-- The pseudo-channel, 0 to 127 within its stack, that stores a 1 KiB block of a frame (R241). -/
opaque pseudoChannel : Nat → Nat
/-- Whether a page fits in 60 KiB when compressed, from its bytes (R232). -/
opaque compressible : List Byte → Bool
/-- A free zone entry the part takes for a page, from those in use (R232): which one is not stated. -/
opaque zoneEntry : List Nat → Nat
/-- Whether a zone with so many entries in use, but possibly room, lacks it (R232). -/
opaque zoneFull : Nat → Bool
/-- The two hash functions of the Bloom filters over a line address (R239). -/
opaque bloomHash : Nat → Nat → Nat
/-- SHAKE256 with 256-bit output (R455, R456): a function another standard defines. -/
opaque shake256 : List Byte → BitVec 256
/-- The bytes of the state shard of a checkpoint, whose layout is not architectural (R454), for each SNAP. -/
opaque stateImage : Nat → List Byte
/-- SHAKE256 with an output of any number of bytes (R471). -/
opaque shakeBytes : List Byte → Nat → List Byte
/-- Whether an Ed448 signature verifies: a public key, the message, the signature (R469, R470). -/
opaque ed448ok : List Byte → List Byte → List Byte → Bool
/-- The public key of an Ed448 private key, and the signature it makes over a message (R471). -/
opaque ed448public : List Byte → List Byte
opaque ed448sign : List Byte → List Byte → List Byte
/-- What the on-die physically unclonable function of this part gives (R471). -/
opaque puf : List Byte
/-- What the boot flash and the mask ROM hold, which the implementation fixes: 0 the ROM, 1 the boot firmware, 2 the personality record, 3 the device
kernel, 4 the firmware's Ed448 signature, 5 the vendor's public key (R469 to R471). -/
opaque flash : Nat → List Byte
/-- The SHAKE256 digest of the vendor's public key, which the ROM holds (R469). -/
opaque romDigest : BitVec 256
/-- The address at which the device kernel starts on system core 0 (R469). -/
opaque kernelEntry : DWord
/-- What the SPDM standard has a responder answer to a request, in the state its own flow of messages has reached, other than one for its versions
or for its measurements (R471). -/
opaque spdmOther : List Byte → Nat → List Byte
/-- The firmware's own minimum security version (R470). -/
opaque minSvn : BitVec 16
/-- The words of Cinch spaces 4 to 15, whose layout the implementation revision gives (R474). -/
opaque cinchWord : Nat → DWord
/-- The routing that the part programs when it becomes the fabric manager, from its own routes: the manual gives no algorithm (R441). -/
opaque fmRoutes : List (BitVec 12 × Nat) → Nat → List (BitVec 12 × Nat)
/-- What memory holds after a LOAD that failed (R457): bytes at listed physical addresses, the rest as before any write. -/
opaque lostMemory : Nat → List (Nat × Byte)
/-- A task save image beyond its first 64 bytes, whose layout no rule gives (R410), byte by byte: it holds the wait records among the rest. -/
opaque imageByte : List DWord → Nat → Byte

end Sys2Proof.Config
end

