-- ==== Sys2Proof/Machine/Sparse.lean ====
section
/-! DEFINITION. Sparse storage in one canonical form: keys strictly rising, no entry equal to what an unlisted key reads as.
Memory, scratchpad, accumulator words, register files and the part's tables are held this way. -/

namespace Sys2Proof.Sparse

variable {α : Type}

/-- The value at key `k`; an unlisted key reads as `d k`. -/
def get (d : Nat → α) : List (Nat × α) → Nat → α
  | [], k => d k
  | (j, v) :: r, k => if k = j then v else get d r k

/-- Put `v` at `k`, whatever it is. -/
def insert (k : Nat) (v : α) : List (Nat × α) → List (Nat × α)
  | [] => [(k, v)]
  | (j, w) :: r => if k = j then (k, v) :: r else if k < j then (k, v) :: (j, w) :: r else (j, w) :: insert k v r

/-- Remove the entry at `k`. -/
def erase (k : Nat) : List (Nat × α) → List (Nat × α)
  | [] => []
  | (j, w) :: r => if k = j then erase k r else (j, w) :: erase k r

/-- Write `v` at `k`, keeping the canonical form. -/
def put [DecidableEq α] (d : Nat → α) (m : List (Nat × α)) (k : Nat) (v : α) : List (Nat × α) :=
  if v = d k then erase k m else insert k v m

/-- The entry at `k`, when there is one: for tables whose unlisted keys are simply absent. -/
def find? : List (Nat × α) → Nat → Option α
  | [], _ => none
  | (j, v) :: r, k => if k = j then some v else find? r k

/-- Every key of the list is at least `lo`, keys rise strictly, and no entry holds its unlisted value. -/
def wfFrom [DecidableEq α] (d : Nat → α) : Nat → List (Nat × α) → Bool
  | _, [] => true
  | lo, (j, v) :: r => decide (lo ≤ j) && decide (v ≠ d j) && wfFrom d (j + 1) r

/-- The canonical form. -/
def wf [DecidableEq α] (d : Nat → α) (m : List (Nat × α)) : Bool := wfFrom d 0 m

/-- Read `n` consecutive keys. -/
def getN (d : Nat → α) (m : List (Nat × α)) (k : Nat) : Nat → List α
  | 0 => []
  | n + 1 => get d m k :: getN d m (k + 1) n

/-- Write a list of values at consecutive keys. -/
def putN [DecidableEq α] (d : Nat → α) (m : List (Nat × α)) (k : Nat) : List α → List (Nat × α)
  | [] => m
  | v :: r => putN d (put d m k v) (k + 1) r

end Sys2Proof.Sparse
end

