-- ==== Sys2Proof/Machine/State.lean ====
section
/-! DEFINITION. The machine's state as plain data: every register, store, queue and table the manual names, with its reset
value, and the model's own three fields (`turns`, `cur`, `free`). Faults and refusals are named here. -/

namespace Sys2Proof.Machine

/-- What stops a run. Raised by `step` alone; the part has stopped, so a stop is safe. -/
inductive Fault where
  /-- Boot failed: the part is in recovery and answers only MCTP over I3C (R469). Raised by `step`. Safe: nothing runs. -/
  | recovery
  /-- A thermal trip stopped every core and engine; only a part reset leaves it (R476). Raised by `step`. Safe. -/
  | thermalTrip
  deriving DecidableEq, Repr

/-- Why the model gives a step no meaning. -/
inductive Refusal where
  /-- The instruction has no meaning yet. Raised by `exec`'s arms. Safe: no claim about its effect can be proved. -/
  | notModelled (mnemonic : String)
  deriving DecidableEq, Repr

/-! ### Fibres and crews -/

/-- The four states of a fibre slot (R104). -/
inductive FibreState where
  | free | runnable | waiting | parked
  deriving DecidableEq, Repr

/-- What a WAITING fibre waits for (R357, R409, R116, R370). -/
inductive Wait where
  | none
  | barrier (b : Nat) (phase : BitVec 16)
  | rbar (b : Nat) (phase : BitVec 16) (deliver : Bool)
  | sem (ia : Nat)
  | mon (line : Nat) (deadline : Option Nat)
  | queue (q : Nat)
  | svcq (q : Nat)
  | counter (cls n : Nat)
  | conv (mask : Mask)
  | commit
  deriving DecidableEq, Repr

/-- A fibre's monitor (R348): clear, armed on a line, or fired. -/
inductive Monitor where
  | clear
  | armed (line : Nat)
  | fired
  deriving DecidableEq, Repr

/-- One lookahead window of a fibre (R111): the result that its L form owes, instructions left in it, the destinations it promises, the
PC of its L form. -/
structure Window where
  id : Nat
  left : Nat
  dests : List Nat
  pc : Word
  deriving DecidableEq, Repr

/-- One fibre slot (R7, R14, R104). Registers are a sparse list; an unlisted register reads 0 (R24). -/
structure Fibre where
  st : FibreState := .free
  pc : Word := 0
  /-- Sequential flow has left PC 0xFFFF_FFFF: the next fetch raises BOUNDS (R81). -/
  past : Bool := false
  regs : List (Nat × Word) := []
  wait : Wait := .none
  /-- The fields of the waiting or parked instruction, for its retry (R335). -/
  waitF : Fields := {}
  /-- Core clock at which the wait began, for R345. -/
  waitFrom : Nat := 0
  /-- Order in which waits began, for R347. -/
  waitSeq : Nat := 0
  /-- Core clock at which a FENCE of the fibre began to stall, for R345. -/
  fenceFrom : Option Nat := none
  /-- Core clock at which the first read of a parameter block's snapshot failed its CHECK, and the block's reference, while the second read
  is awaited (R263). -/
  tornAt : Option (Nat × DWord) := none
  /-- The fibre has performed its step of the instruction at its PC, of which other fibres stall (R120, R335). -/
  acted : Bool := false
  monitor : Monitor := .clear
  windows : List Window := []
  /-- Page whose fault parked the fibre (R405). -/
  parkPage : Nat := 0
  /-- It was parked by LEASE_LOST (R438). -/
  parkLost : Bool := false
  framePc : Word := 0
  /-- `acted` as it stood at handler entry. -/
  frameActed : Bool := false
  deriving DecidableEq, Repr

/-- A result not yet written (R87, R110, R397). `op` names the engine operation that still owes it. -/
structure Pending where
  id : Nat := 0
  pc : Word := 0
  word : IWord := 0
  replay : Bool := false
  mask : Mask := 0
  /-- The strand that issued it, which a trap at write-back takes (R395). -/
  strand : Mask := 0
  op : Option Nat := none
  writes : List (Nat × List (Nat × Word)) := []
  /-- Exception set of each slot, in the order of the mode register's flags (R164). -/
  excs : List (Nat × BitVec 5) := []
  /-- Trap enables in force at issue (R142, R164). -/
  enables : BitVec 5 := 0
  /-- Flag bits that no later SETMODE has overwritten (R166). -/
  flagMask : BitVec 5 := 0x1F
  /-- Lowest slot that read a poisoned line (R299). -/
  poison : Option Nat := none
  srcA : List (Nat × DWord) := []
  srcB : List (Nat × DWord) := []
  deriving DecidableEq, Repr

/-- One entry of the replay queue (R398); a dropped one keeps its number (R422). -/
structure Replay where
  pc : Word := 0
  word : IWord := 0
  mask : Mask := 0
  srcA : List (Nat × DWord) := []
  srcB : List (Nat × DWord) := []
  dropped : Bool := false
  /-- Issued by the handler itself and captured at a stop: re-injected when the crew goes on, not held until TRET (log 6). -/
  handler : Bool := false
  deriving DecidableEq, Repr

/-- The trap frame of handler mode (R395, R425). -/
structure Frame where
  cause : BitVec 8 := 0
  src : BitVec 4 := 0
  nested : Bool := false
  slot : BitVec 8 := 0
  ref : DWord := 0
  arg0 : DWord := 0
  set : Mask := 0
  faulting : Option Nat := none
  deriving DecidableEq, Repr

/-- What a trap or fault carries to its record (R403, R404). -/
structure Event where
  cause : BitVec 8 := 0
  src : BitVec 4 := 0
  slot : BitVec 8 := 0xFF
  pc : Word := 0
  ref : DWord := 0
  arg0 : DWord := 0
  arg1 : DWord := 0
  /-- Device time of the event, for a record that waits (R403). -/
  time : Option DWord := none
  deriving DecidableEq, Repr

/-- A trap of a strand that waits for its place in the ring, or for a drained result (R396, R397, R402). -/
structure PendTrap where
  ev : Event
  mask : Mask
  /-- Its fibres for which the instruction acts (R368). -/
  act : Mask := 0
  /-- The pending result that faulted, for a trap raised when a result would be written (R397). -/
  faulting : Option Nat := none
  /-- POISON of a drained result: its instruction has completed and never raises it again (R299, R397). -/
  late : Bool := false
  deriving DecidableEq, Repr

/-- One aligned 16-byte block of a try's store buffer (R363): `slot` keys it in `.lane` mode. -/
structure BufEntry where
  block : Nat
  slot : Nat
  /-- Bytes written so far, latest first: offset in the block, slot that wrote it, value. -/
  bytes : List (Nat × Nat × Byte) := []
  deriving DecidableEq, Repr

/-- One line of a try's read set (R362). -/
structure ReadLine where
  line : Nat
  members : Mask
  /-- Handles (context and index) through which it was read. -/
  handles : List Nat
  deriving DecidableEq, Repr

/-- The open try of a crew (R359 to R370). -/
structure Try where
  crewMode : Bool := false
  members : Mask := 0
  code : Nat := 0
  target : Word := 0
  /-- Register shadow: every slot's registers at TRY (R69, R359). -/
  shadow : List (List (Nat × Word)) := []
  reads : List ReadLine := []
  buf : List BufEntry := []
  /-- Handles through which members buffered stores, with the slot. -/
  bufHandles : List (Nat × Nat) := []
  openClk : Nat := 0
  /-- A commit step has begun and waits for a write-back or a held line (R369, R370). -/
  begun : Bool := false
  deriving DecidableEq, Repr

/-- A ROWOPEN that awaits a swap (R246): its strand, where it stands, and its word with the fields. -/
structure RowWait where
  mask : Mask
  pc : Word
  word : IWord
  f : Fields
  deriving DecidableEq, Repr

/-- A WQPUSH or SVC of which some fibres have acted: its strand and where it stands, its word, and the fibres still to act with the queues that
their checks found (R335). -/
structure PartWay where
  mask : Mask
  pc : Word
  word : IWord
  left : List (Nat × Nat)
  deriving DecidableEq, Repr

/-- One crew of a block (R14, R106, R108, R113, R160, R251). -/
structure Crew where
  fibres : List Fibre := []
  live : Bool := true
  filled : Bool := false
  /-- Crew slot of the core, 0-63 (R64). -/
  slot : Nat := 0
  unitBase : Nat := 0
  units : Nat := 0
  shadowBase : Option Nat := none
  mode : Word := 0
  level : Nat := 1
  /-- Credit of R108; a crew is placed with none, so the first issue decision that finds no other credit reloads it (DESIGN CHOICE, log 80). -/
  credit : Nat := 0
  /-- It has issued in the clk that now runs (R113). -/
  issued : Bool := false
  rot : Nat := 0
  /-- PCs of strands still owed an issue by a rotation in progress (R106 rule 3). -/
  rotating : List Word := []
  /-- PC above which the next issue is sought after a YIELD (R118). -/
  yieldAbove : Option Word := none
  counters : List Nat := [0, 0, 0, 0, 0, 0]
  stalls : List Nat := [0, 0, 0, 0, 0, 0, 0, 0]
  /-- Stall class of the last issue that could not go on (R113). -/
  stallClass : Nat := 7
  frame : Option Frame := none
  replay : List Replay := []
  tr : Option Try := none
  pend : List Pending := []
  /-- Traps of its strands that wait to be delivered, the oldest first (R396). -/
  pendTraps : List PendTrap := []
  /-- ENGINE_FATAL events not yet delivered (R258). -/
  fatals : List Event := []
  lastFend : Word := 0
  rowWait : Option RowWait := none
  partway : List PartWay := []
  /-- Stopped by the compactor (R71). -/
  moving : Bool := false
  deriving DecidableEq, Repr

/-! ### Blocks -/

/-- A block barrier (R341). -/
structure Barrier where
  phase : BitVec 16 := 0
  arrived : Nat := 0
  expect : Nat := 0
  mask : Mask := 0
  deriving DecidableEq, Repr

/-- A wait record (R345). -/
structure WaitRec where
  lastCrew : Nat := 0xFF
  lastBlk : Nat := 0
  longCrew : Nat := 0xFF
  longBlk : Nat := 0
  lastPc : Word := 0
  longPc : Word := 0
  longClk : Nat := 0
  /-- Semaphore word's IA, for a semaphore record. -/
  ia : Nat := 0
  deriving DecidableEq, Repr

/-- A stash window (R201): its range, its object, which lines (numbered in the window) are valid and which of its bytes are dirty. -/
structure Stash where
  base : Nat
  len : Nat
  ref : DWord
  writable : Bool
  valid : List Nat := []
  dirty : List Nat := []
  /-- Valid lines whose clean bytes an acquire has made to be read again at the next touch (R204). -/
  again : List Nat := []
  deriving DecidableEq, Repr

/-- A hold-table entry (R241). -/
structure Hold where
  held : Bool := false
  epoch : BitVec 16 := 0
  row : Nat := 0
  slot : Nat := 0
  /-- To be reopened after a restore, and by when (R244). -/
  reopenBy : Option Nat := none
  deriving DecidableEq, Repr

/-- One block (R14, R64, R72). -/
structure Block where
  bid : Nat
  task : Nat
  core : Nat
  bx : Nat := 0
  byy : Nat := 0
  crews : List Crew := []
  scrBase : Nat := 0
  scrLen : Nat := 0
  accBase : Nat := 0
  accLen : Nat := 0
  scratch : List (Nat × Byte) := []
  scratchPoison : List Nat := []
  acc : List (Nat × Word) := []
  accPoison : List Nat := []
  windows : List (Option Stash) := [none, none, none, none, none, none, none, none]
  barriers : List Barrier := List.replicate 16 {}
  barRecs : List WaitRec := List.replicate 16 {}
  rbarRecs : List WaitRec := List.replicate 4 {}
  semRecs : List WaitRec := []
  fenceRec : WaitRec := {}
  holds : List Hold := []
  stopped : Bool := false
  /-- Its crews have stopped to be saved (R407). -/
  saving : Bool := false
  /-- Placed again from a save, and not yet filled (R411). -/
  restoring : Bool := false
  terminated : Bool := false
  retired : Bool := false
  /-- The uniform words of the register image, once they have been read for its fill (R25, R73). -/
  uni : Option (List Word) := none
  /-- A try has been opened since it was placed: until then the granules of its try buffers hold the zeros they came with (R72). -/
  tried : Bool := false
  /-- Fatal write-back faults of a save, by window, delivered to crew 0 at restore (R407). -/
  saveFaults : List (Nat × Event) := []
  deriving DecidableEq, Repr

/-- A subgroup's state of one rectangle barrier (R344). -/
structure RectBar where
  b : Nat
  sx : Nat
  sy : Nat
  phase : BitVec 16 := 0
  arrived : Nat := 0
  /-- Mask of arrived crews of each block, by block identifier. -/
  masks : List (Nat × Mask) := []
  deriving DecidableEq, Repr

/-! ### Tasks -/

/-- The fields of a task node record that the part uses after its checks (R16). -/
structure NodeRec where
  service : Bool := false
  prio : Nat := 0
  wd : Nat := 0
  ht : Nat := 0
  crews : Nat := 0
  wcode : Nat := 0
  rowpolDrop : Bool := false
  tryBit : Bool := false
  persist : Bool := false
  fpol : Nat := 0
  scr : Nat := 0
  acc : Nat := 0
  rows : Nat := 0
  ntile : Nat := 0
  tag : Word := 0
  succn : Nat := 0
  coderef : DWord := 0
  entry : Word := 0
  hpc : Word := 0
  imgref : DWord := 0
  succref : DWord := 0
  stampref : DWord := 0
  imglen : Nat := 0
  wqid : Nat := 0
  tiles : List (BitVec 128) := []
  deriving DecidableEq, Repr

/-- The header of a register image (R23). -/
structure ImgHeader where
  live : Mask := 0
  initv0 : Word := 0
  percrew : Bool := false
  fq : Nat := 0
  fp : Nat := 0
  uq : Nat := 0
  un : Nat := 0
  deriving DecidableEq, Repr

/-- Where a task stands (R14, R15, R446). -/
inductive TaskPhase where
  | placed | saved | retiring | waitPeer | stamping | releasing (index : Nat) | done
  deriving DecidableEq, Repr

/-- A record that is eligible, and what its checks have read and passed so far: each is read once, and only an access that a fault has
stopped is made again (R20, R21, R477). -/
structure Elig where
  ctx : Nat
  ref : DWord
  sub : Option (Nat × Nat) := none
  /-- The CHECK of the record has failed once, and the record is to be read again (R20 check 1). -/
  torn : Bool := false
  /-- The record, once it has been read. -/
  rec_ : Option NodeRec := none
  /-- Steps of check 4 that have passed, and the entry of CODEREF as it was read. -/
  passed : Nat := 0
  code : BitVec 512 := 0
  /-- The cause of its refusal, while its stamp is still to be written. -/
  refused : Option (BitVec 8) := none
  deriving DecidableEq, Repr

/-- A ready-pool entry (R58). A restored task waits in it too (R411). -/
structure PoolEntry where
  seq : Nat
  ctx : Nat
  ref : DWord
  time : Nat
  /-- Effective priority as the hub last computed it (R60). -/
  eff : Nat := 0
  /-- Entry of CODEREF, for a SERVICE node (R66). -/
  code : BitVec 512 := 0
  rec_ : NodeRec := {}
  img : ImgHeader := {}
  sub : Option (Nat × Nat) := none
  restore : Option Nat := none
  deriving DecidableEq, Repr

/-- Hub work held by a retry-class fault (R477). -/
inductive Held where
  | check (e : Elig)
  | launch (sub : Nat)
  | retire (task : Nat)
  deriving DecidableEq, Repr

/-- The reservation of R62: the pool entry and the origin chosen for it. -/
structure Reservation where
  seq : Nat
  x0 : Nat
  y0 : Nat
  deriving DecidableEq, Repr

/-! ### Engine operations -/

/-- What an access asks of its handle (R191): kinds, rights, alignment, and whether checks 5 and 8 apply. -/
structure Req where
  kinds : List Nat := [1, 2, 3, 4]
  r : Bool := false
  w : Bool := false
  x : Bool := false
  atomic : Bool := false
  engine : Bool := false
  stash : Bool := false
  align : Nat := 1
  bounds : Bool := true
  poison : Bool := true
  rowDirect : Bool := false
  /-- A region of many accesses: the token rule of R35 does not bind it as a whole. -/
  span : Bool := false
  deriving DecidableEq, Repr

/-- A memory operand of an engine: its reference, the handle entry it was checked against, and the offset, the size and the request of that
check, which is repeated after an invalidation (R257, R413). -/
structure MemOperand where
  ref : DWord := 0
  ent : BitVec 512 := 0
  o : Int := 0
  n : Nat := 0
  req : Req := {}
  deriving DecidableEq, Repr

/-- Where a move reads from: zeros, an offset of the k-th memory operand, or the issuing block's scratchpad. -/
inductive MoveSrc where
  | zero
  | mem (k o : Nat)
  | scr (addr : Nat)
  deriving DecidableEq, Repr

/-- Where a move writes to; a scratchpad destination names its block (R266). -/
inductive MoveDst where
  | mem (k o : Nat)
  | scr (blk addr : Nat)
  deriving DecidableEq, Repr

/-- One piece of a copy, within one 32-byte destination sector. -/
structure Move where
  src : MoveSrc
  dst : MoveDst
  n : Nat
  deriving DecidableEq, Repr

/-- Where an operand of a product lies; `none` for the scales of an unscaled format. -/
inductive TileAt where
  | none
  | scr (addr : Nat)
  | acc (addr : Nat)
  | mem (m : MemOperand)
  deriving DecidableEq, Repr

/-- The plan of a product from its shape record (R284 to R289), and what the lock phase has read: element codes and scales of each row,
and which rows met poison (R290, R293). -/
structure Product where
  m : Nat := 0
  n : Nat := 0
  kblk : Nat := 0
  fa : Nat := 0
  fb : Nat := 0
  sat : Bool := false
  z : Bool := false
  a : TileAt := .none
  b : TileAt := .none
  sa : TileAt := .none
  sb : TileAt := .none
  lda : Nat := 0
  ldb : Nat := 0
  cadd : Nat := 0
  ldc : Nat := 0
  /-- Blocks along K, and groups of 16 columns, that are not skipped (R294). -/
  keepK : List Bool := []
  keepN : List Bool := []
  rowsA : List (List Nat) := []
  rowsB : List (List Nat) := []
  scalesA : List (List Nat) := []
  scalesB : List (List Nat) := []
  badA : List Bool := []
  badB : Bool := false
  deriving DecidableEq, Repr

/-- What an engine operation does. -/
inductive Work where
  | copy (mems : List MemOperand) (todo done : List Move)
  | pfx (mem : MemOperand) (fast : Bool) (o len : Nat)
  | wbx (mem : MemOperand) (demote : Bool) (o len next : Nat)
  | product (p : Product)
  | rqt (t s sb db rows cols fmt : Nat)
  | accz (addr len : Nat)
  /-- `next`: destination sectors done; `bad`: destination lines that received poison (R293). -/
  | accld (mem : Option MemOperand) (src dst len ty next : Nat) (bad : List Nat)
  | accst (mem : Option MemOperand) (dst src len ty rnd : Nat) (sat : Bool) (next : Nat) (bad : List Nat)
  | accscl (add : Bool) (n : Nat) (rows : List (Nat × Word))
  | accexp (n : Nat) (rows : List (Nat × Word × Word))
  | accrow (kind n : Nat) (s32 : Bool) (d : Nat) (rows : List (Nat × Nat))
  | skbuild (dst src ty : Nat) (fromAcc : Bool) (factor : Word) (n next : Nat)
  /-- `query`: the query row, once it has been read (R259). -/
  | skscore (mem : Option MemOperand) (keys blk n next : Nat) (query : Option (List Byte))
  | sksel (list scores : Nat) (base : Word) (n k : Nat) (slots : Mask) (d : Nat)
  | skmap (dst list : Nat) (base : Word) (k g nb : Nat) (idx : Bool)
  | coll (kind ty count : Nat) (buf stage : MemOperand) (step : Nat) (waitFrom : Option Nat) (part : List Word)
  | collx (newRec : BitVec 1024) (round : Nat) (deadline : Nat)
  deriving DecidableEq, Repr

/-- The phases of an operation (R290, R253); `ended` operations wait for their stamp and their class order. -/
inductive OpPhase where
  | queued | locked | multiplied | working | parked | ended
  deriving DecidableEq, Repr

/-- One engine operation (R251 to R260, R279, R290). -/
structure EngineOp where
  id : Nat
  blk : Nat
  crew : Nat
  core : Nat
  task : Nat
  ctx : Nat
  cls : Nat
  /-- Counted in its class: every operation but ACCROW (R279). -/
  counted : Bool := true
  work : Work
  /-- Its accesses carry `.stream` (R195, R261). -/
  stream : Bool := false
  phase : OpPhase := .queued
  /-- The phase a parked operation takes up again. -/
  back : OpPhase := .queued
  /-- Page whose fault parked it (R405). -/
  parkPage : Nat := 0
  /-- It was parked by LEASE_LOST (R438). -/
  parkLost : Bool := false
  stamp : Option MemOperand := none
  /-- Sector count for the stamp (R255). -/
  count : Nat := 0
  status : Nat := 0
  /-- Scratchpad byte ranges it reads or writes, for STASH and the matrix locks (R257, R291). -/
  ranges : List (Nat × Nat) := []
  locked : List (Nat × Nat) := []
  /-- Memory lines locked by the lock phase (R290). -/
  memLocks : List Nat := []
  /-- Handles are checked again at the next sector boundary (R413). -/
  recheck : Bool := false
  /-- The stamp's handle is checked again before the stamp is updated (R413). -/
  restamp : Bool := false
  /-- A trap record of this operation waits for ring space (R402). -/
  pendRec : Option Event := none
  ring : Nat := 0
  epoch : BitVec 16 := 0
  /-- Device position and members of its ring record. -/
  pos : Nat := 0
  members : List (BitVec 12) := []
  tmo : Nat := 0
  /-- Peer stores not yet acknowledged (R442). -/
  unacked : Nat := 0
  /-- The pc of the instruction that started it. -/
  pc : Word := 0
  deriving DecidableEq, Repr


/-- One queue core (R51, R66, R468). -/
structure QueueCore where
  pc : Word := 0
  x : List Word := List.replicate 32 0
  ranges : List (BitVec 128) := List.replicate 16 0
  mtvec : Word := 0
  mepc : Word := 0
  mcause : Word := 0
  mtval : Word := 0
  mscratch : Word := 0
  /-- Instructions completed (minstret), and what mcycle is ahead of the cycles of the queue-core clock since reset (R10, log 19). -/
  minstret : DWord := 0
  cycleOffset : DWord := 0
  /-- Bits MIE and MPIE of mstatus. -/
  mie : Bool := false
  mpie : Bool := false
  qsel : Nat := 0
  stat : Nat := 0
  recover : Bool := false
  buf : BitVec 512 := 0
  held : Option Nat := none
  /-- The queue of the request it holds (R48). -/
  heldQ : Nat := 0
  node : Option Nat := none
  /-- Physical address of the word that LR.W has reserved. -/
  resv : Option Nat := none
  deriving DecidableEq, Repr

/-- One system core (R467): the registers of RV64 with floating point and vectors of 128 bits, its CSRs by number, of which one that is not listed holds
0, whether it is in user mode and in a guest, the physical address that LR has reserved, and whether it has been started. -/
structure SysCore where
  pc : DWord := 0
  x : List DWord := List.replicate 32 0
  f : List DWord := List.replicate 32 0
  v : List (BitVec 128) := List.replicate 32 0
  csrs : List (Nat × DWord) := []
  user : Bool := false
  virt : Bool := false
  resv : Option Nat := none
  instret : DWord := 0
  running : Bool := false
  deriving DecidableEq, Repr

/-- What a task save image stands for (R407, R408, R410): its IMGCHK, and the blocks and the operations as they were saved, without the
collectives, which run on; of a SERVICE node, its queue core. The image's own bytes hold the same data. -/
structure Save where
  chk : DWord
  blocks : List Block
  ops : List EngineOp
  core : Option QueueCore := none
  deriving DecidableEq, Repr

/-- A task from its placement on (R15). `uid` is the model's own name for it. -/
structure Task where
  uid : Nat
  ctx : Nat
  tid : Word := 0
  nodeRef : DWord := 0
  rec_ : NodeRec := {}
  img : ImgHeader := {}
  x0 : Nat := 0
  y0 : Nat := 0
  phase : TaskPhase := .placed
  /-- Greatest status so far (R446). -/
  status : Nat := 0
  killed : Bool := false
  /-- First shape named by an RBAR at each b (R344). -/
  rbarShape : List (Nat × Nat × Nat) := []
  rbars : List RectBar := []
  /-- Save image address while saved. -/
  image : Nat := 0
  /-- What its save images hold, the one in force first (R407, R410, R411). -/
  saves : List Save := []
  /-- Submission and reference index that launched it (R45). -/
  sub : Option (Nat × Nat) := none
  /-- Queue core of a SERVICE node. -/
  qcore : Nat := 0
  /-- Entry of its CODEREF, as check 4 read it. -/
  code : BitVec 512 := 0
  /-- Saved by the quiesce in force (R453). -/
  quiesced : Bool := false
  deriving DecidableEq, Repr

/-! ### Cores, translation, caches and held rows -/

/-- One unit of a live allocation that the register compactor has still to move (R70, R71): its crew, whether it belongs to the shadow, its
present and its new index, and the new index of its allocation. -/
structure UnitMove where
  blk : Nat
  crew : Nat
  shadow : Bool
  src : Nat
  dst : Nat
  base : Nat
  deriving DecidableEq, Repr

/-- One compute core (R8, R107, R144, R189, R195, R70, R415). -/
structure Core where
  clk : DWord := 0
  pointer : Nat := 0
  /-- Handle cache: context × 2^18 + index, the 64-byte entry, and at most one block-table entry (R36). -/
  handles : List (Nat × BitVec 512 × Option (Nat × Word)) := []
  /-- Instruction words cached by context and IA (R82). -/
  icache : List (Nat × Nat × IWord) := []
  /-- L1 words: word number of IA space, the value as it was read, and the number of the fill that read it (R195, R310, R322). -/
  l1 : List (Nat × Word × Nat) := []
  /-- The model's own: fills of the L1 so far. -/
  fills : Nat := 0
  /-- Parameter-block cache: lines held; home slices keep it coherent (R263). -/
  params : List Nat := []
  gated : Bool := false
  /-- Moves the register compactor has still to make, in ascending order of destination, and the unit in its holding register (R71). -/
  compact : List UnitMove := []
  unitHeld : Option UnitMove := none
  deriving DecidableEq, Repr

/-- A ring described by BASE, LOG, PROD and CONS (R229). -/
structure RingRegs where
  base : Nat := 0
  log : Nat := 0
  prod : DWord := 0
  cons : DWord := 0
  deriving DecidableEq, Repr

/-- One stack's memory-side translation unit (R229, R236). -/
structure Mtu where
  mptb : Nat := 0
  mptlen : Nat := 0
  ageper : Nat := 0
  cmd : RingRegs := {}
  free : RingRegs := {}
  active : RingRegs := {}
  inactive : RingRegs := {}
  /-- SWAPS to FILTER_REJECTS in the order of R236. -/
  counters : List DWord := [0, 0, 0, 0, 0, 0, 0, 0, 0]
  forced : DWord := 0
  refreshes : DWord := 0
  /-- Pages with an expansion in progress; `counted` once EXPAND_WAITS has counted it (R234). -/
  expanding : List (Nat × Bool) := []
  lastTick : Nat := 0
  deriving DecidableEq, Repr

/-- A line held by L2 or the victim cache: its dirty state and how it was filled (R237 to R239). -/
structure CacheLine where
  dirty : Bool := false
  mvca : Bool := false
  sto : Bool := false
  second : Bool := false
  early : Bool := false
  deriving DecidableEq, Repr

/-- The two Bloom filters of an L2 slice (R239). -/
structure Bloom where
  active : List Nat := []
  previous : List Nat := []
  inserted : Nat := 0
  deriving DecidableEq, Repr

/-- A physical held-row slot in use (R241, R242). -/
structure RowSlot where
  blk : Nat
  h : Nat
  row : Nat
  /-- The DRAM row: group × 64 + 1 KiB block of the fast-slot frame. -/
  key : Nat := 0
  opened : Bool := true
  openFrom : Nat := 0
  deriving DecidableEq, Repr

/-- A promotion the part still owes: the member, and the task that declared it or the block that issued it (R228, R267). -/
structure Promotion where
  dfn : Nat
  /-- The compressed page to be expanded, in place of a member to be swapped. -/
  page : Option Nat := none
  task : Option Nat := none
  /-- The block that issued it, for a PFX.fast (R267). -/
  blk : Option Nat := none
  late : Bool := false
  deriving DecidableEq, Repr

/-! ### Hub registers -/

/-- A context's control block (R400, R448), its next task identifier (R15) and its model word (R309). -/
structure Context where
  trbase : Nat := 0
  trlog : Nat := 0
  trprod : DWord := 0
  trcons : DWord := 0
  lost : Bool := false
  stalled : Bool := false
  dbgen : Bool := false
  dumpbase : Nat := 0
  dumpcnt : DWord := 0
  cmdOpc : BitVec 8 := 0
  cmdTask : Word := 0
  cmdarg : Nat := 0
  cmdstat : Nat := 0
  pfbase : Nat := 0
  pflog : Nat := 0
  pfprod : DWord := 0
  pfcons : DWord := 0
  pfdrop : DWord := 0
  cmdlen : DWord := 0
  htbase : Nat := 0
  htcount : Nat := 0
  tenant : BitVec 16 := 0
  nextTid : Word := 0
  compat : Bool := false
  deriving DecidableEq, Repr

/-- A submission page: its binding entry and its own registers (R38, R39). -/
structure Page where
  naddr : DWord := 0
  ndata : Word := 0
  crbase : DWord := 0
  crpages : Nat := 0
  ctx : Nat := 0
  tenant : BitVec 16 := 0
  en : Bool := false
  outn : Nat := 0
  nextseq : Word := 0
  err : Bool := false
  deriving DecidableEq, Repr

/-- How far an accepted submission has come. -/
inductive SubPhase where
  | intake
  /-- LAUNCH: references up to `next` have been taken. -/
  | launching (next : Nat)
  | running
  | finished (status : Nat)
  | written
  deriving DecidableEq, Repr

/-- An accepted submission with the binding latched at acceptance (R40, R42). -/
structure Submission where
  id : Nat
  page : Nat
  /-- The requester of its DMWr, whose earlier writes come before a task that it launches (R329). -/
  src : BitVec 12 := 0
  rec_ : BitVec 1024
  bind : Page
  phase : SubPhase := .intake
  /-- Status of each reference; none while its task is not done (R47). -/
  rs : List (Option Nat) := []
  /-- A completion record is to be written, and a notification posted (R42 check 4, R46). -/
  writeRec : Bool := true
  notify : Bool := false
  /-- Its completion record waits for earlier ones of the page. -/
  holdsOrder : Bool := true
  deriving DecidableEq, Repr

/-- A work-queue descriptor (R350). -/
structure QueueDesc where
  head : DWord := 0
  pub : DWord := 0
  tail : DWord := 0
  ring : Nat := 0
  log : Nat := 0
  closed : Bool := false
  mode : Bool := false
  en : Bool := false
  deriving DecidableEq, Repr

/-- A service-queue descriptor (R49). -/
structure SvcDesc where
  jbase : Nat := 0
  jlog : Nat := 0
  serv : Bool := false
  deriving DecidableEq, Repr

/-- A request in a service queue (R50, R52); `heldBy` is the queue core that holds it. It is CLAIMED by its journal entry, and it counts as
popped while it is held or CLAIMED (R52, R56). -/
structure Request where
  id : Nat
  q : Nat
  bytes : BitVec 512
  /-- Its position in the ring (R352). -/
  pos : DWord := 0
  heldBy : Option Nat := none
  deriving DecidableEq, Repr

/-- The state of a lease-table entry (R430). -/
inductive LeaseState where
  | released | offered | active | recalling
  deriving DecidableEq, Repr

/-- A lease-table entry (R430), with the generation of the lender's entry and its own timers (R432, R433, R435). -/
structure Lease where
  expiry : Nat := 0
  id : Word := 0
  term : Nat := 0
  poolg : Nat := 0
  ngran : Nat := 0
  peer : BitVec 12 := 0
  cause : Nat := 0
  uio : Bool := false
  notice : Bool := false
  borrowed : Bool := false
  st : LeaseState := .released
  gen : Nat := 0
  /-- Time of the OFFER, of each RENEW not yet answered with the oldest first, and of the end of the grace period. -/
  offeredAt : Nat := 0
  renewals : List Nat := []
  graceEnd : Nat := 0
  /-- Cause of the end of the lease, whose transition waits for the event ring, and the dirty lines it has discarded (R436, R438). -/
  due : Option (Nat × Nat) := none
  /-- Lines the borrower may cache, and snoops not yet answered with the time each was sent (R333, R434). -/
  cached : List Nat := []
  snoops : List (Nat × Nat) := []
  /-- Dirty data of answered snoops that waits for a matrix lock on its line (R291, R434). -/
  answers : List (Nat × List Byte) := []
  deriving DecidableEq, Repr

/-- The Latigo register block and the part's fabric state (R429, R432, R440). -/
structure Latigo where
  /-- This part's PBR ID, set at fabric bring-up (log 24). -/
  pbr : BitVec 12 := 0
  maxterm : Nat := 10000
  fmPbr : BitVec 12 := 0
  fmValid : Bool := false
  fmEpoch : BitVec 16 := 0
  fmPri : BitVec 8 := 0
  cmd : RingRegs := {}
  event : RingRegs := {}
  /-- PERMIT as 64 words of 64 bits. -/
  permit : List (Nat × DWord) := []
  /-- Events that wait for space in the event ring, and messages that wait until it no longer stalls the Latigo logic, each with the time of its
  arrival (R436). -/
  events : List (BitVec 256) := []
  inbox : List (Nat × BitVec 256) := []
  /-- The REQUEST outstanding: the lender, the time its REQ was sent, the requested shape. -/
  request : Option (BitVec 12 × Nat × Bool) := none
  /-- The command at the head of the ring is being carried out. -/
  busy : Bool := false
  lastAnnounce : Nat := 0
  lastAlive : Nat := 0
  /-- Own bid: its epoch and the time it was sent. -/
  claim : Option (BitVec 16 × Nat) := none
  isFm : Bool := false
  /-- As fabric manager: when each part was last heard, and which it has declared departed (R441). -/
  heard : List (Nat × Nat) := []
  departed : List Nat := []
  /-- As fabric manager: RINGLISTs of each round, by sender (R276). -/
  lists : List (BitVec 12 × Nat × BitVec 1024) := []
  /-- Parts that routing reaches, each with the port half that leads to it (R441). -/
  routes : List (BitVec 12 × Nat) := []
  deriving DecidableEq, Repr

/-- The state of a collective ring (R271). -/
inductive RingState where
  | idle | running | failed | retired
  deriving DecidableEq, Repr

/-- A live ring or, when `marker`, the marker of a retired one (R271). -/
structure CollRing where
  ring : Word
  epoch : BitVec 16
  ctx : Nat
  st : RingState := .idle
  silent : Nat := 0
  count : Nat := 0
  marker : Bool := false
  deriving DecidableEq, Repr

/-- A peer store not yet acknowledged (R442, R443). -/
structure PeerStore where
  id : Nat
  task : Nat
  ctx : Nat := 0
  tid : Word := 0
  tag : Word := 0
  lease : Word
  ia : Nat
  op : Option Nat := none
  sentAt : Nat := 0
  deriving DecidableEq, Repr

/-- The states of the checkpoint engine (R451). -/
inductive CkState where
  | running | quiescing | quiesced | writing | written | loading | loaded | failed
  deriving DecidableEq, Repr

/-- The checkpoint engine's registers (R451). `afterLoad`: FAILED was reached by a LOAD (R452). -/
structure Checkpoint where
  st : CkState := .running
  err : BitVec 8 := 0
  shard : Word := 0
  step : DWord := 0
  job : Word := 0
  dev : BitVec 8 := 0
  ndev : BitVec 8 := 0
  area : Nat := 0
  arealen : DWord := 0
  target : DWord := 0
  base : DWord := 0
  bytes : DWord := 0
  /-- A command that has been accepted and not yet taken up (R452). -/
  cmd : BitVec 8 := 0
  incr : Bool := false
  afterLoad : Bool := false
  /-- Step 4 of a QUIESCE has been reached: no translation command and no expansion starts (R453). -/
  still : Bool := false
  /-- When a lease over each granule of the pool last ended, and when each step's SNAP ended here: what an incremental SNAP looks at (R455). -/
  lentUntil : List (Nat × Nat) := []
  snapAt : List (DWord × Nat) := []
  deriving DecidableEq, Repr

/-- A trap record of the hub, of the collective engine, or of work that has ended, which waits for ring space (R402). -/
structure LateRecord where
  ctx : Nat
  ev : Event
  tid : Word
  tag : Word
  flags : Nat := 0
  crew : Nat := 0xFF
  bx : Nat := 0
  byy : Nat := 0
  phase : BitVec 16 := 0
  deriving DecidableEq, Repr

/-- What the state shard of a checkpoint holds (R454): the registers of the hub and of the translation units, the ready pool, the lease table,
the queues and the bindings, with the tasks and what waits for them. -/
structure Snap where
  zone : List Nat
  heat : List (Nat × Nat)
  pageBits : List (Nat × Nat)
  mtus : List Mtu
  contexts : List Context
  pages : List (Nat × Page)
  subs : List Submission
  qsb : List Nat
  queues : List (Nat × QueueDesc)
  services : List (Nat × SvcDesc)
  requests : List Request
  inval : RingRegs
  latigo : Latigo
  leases : List (Nat × Lease)
  rings : List CollRing
  eligible : List Elig
  pool : List PoolEntry
  held : List Held
  tasks : List Task
  ops : List EngineOp
  records : List LateRecord
  profQueue : List (Nat × BitVec 512)
  deriving DecidableEq, Repr

/-- A shard on the safe tier (R455): its 64-byte header and its data, with the poison that has moved with the data's lines (R472). The data of a
state shard, whose layout is not architectural, stands for `hub`. -/
structure Shard where
  head : BitVec 512
  data : List Byte
  poison : List Nat := []
  hub : Option Snap := none
  deriving DecidableEq, Repr

/-- What the safe tier holds at an address: a manifest, with its header and its entries, or a shard (R455, R456). -/
inductive Stored where
  | manifest (head : BitVec 512) (entries : List (BitVec 512))
  | shard (x : Shard)
  deriving DecidableEq, Repr

/-- The personality record's settings (R470). -/
structure Personality where
  zc : Nat := Config.zc
  poolgr : Nat := Config.poolgr
  svn : BitVec 16 := 0
  bifurcated : BitVec 12 := 0
  ide : Bool := false
  cand : Bool := false
  candPri : BitVec 8 := 0
  deriving DecidableEq, Repr

/-- The security block: counts of corrected and uncorrectable errors and of requests not served, the identity key pair, and the four measurements
of R471. -/
structure Security where
  corrected : DWord := 0
  poisoned : DWord := 0
  unserved : DWord := 0
  /-- The identity key pair: the private half stays here (R471). -/
  identity : List Byte := []
  publicKey : List Byte := []
  measures : List (BitVec 256) := []
  deriving DecidableEq, Repr

/-- What the part sends out: writes to host memory, answers, messages, UIO stores and signals. -/
inductive Out where
  | accepted (page : Nat)
  /-- Unsupported Request, to a request that needs a feature the part does not have (R427). -/
  | unsupportedRequest
  | retry (page : Nat)
  | unsupported (page : Nat)
  | hostWrite (addr : DWord) (data : List Byte)
  | readData (data : List Byte) (poisoned : Bool)
  | writeDone
  | completerAbort
  | message (body : BitVec 256)
  | ringlist (dst : BitVec 12) (body : BitVec 1024)
  | uio (store : Nat) (lease : Word) (ia : Nat) (data : List Byte)
  | chunk (dst : BitVec 12) (c : Chunk)
  /-- A borrower's write-back of a dirty line of an extent (R434). -/
  | peerWrite (lease : Word) (line : Nat) (data : List Byte)
  /-- A Fabric Manager API command that programs a part's routing: each part, and the port half that leads to it (R441). -/
  | fmApi (dst : BitVec 12) (routes : List (BitVec 12 × Nat))
  | snoop (lease : Word) (line : Nat)
  | snoopAnswer (lease : Word) (line : Nat) (data : List Byte)
  | safeTier (addr : DWord) (what : Nat)
  | spdm (data : List Byte)
  | jtag (word : DWord)
  | jtagBits (bits : List Bool)
  | thermalTrip
  deriving DecidableEq, Repr

/-! ### The machine -/

/-- The boot state of the part (R469, R476). -/
inductive Boot where
  | atReset | recovery | up | tripped
  deriving DecidableEq, Repr

/-- The instruction being executed: its block, crew, strand and PC, and its word. -/
structure Cur where
  blk : Nat := 0
  crew : Nat := 0
  mask : Mask := 0
  pc : Word := 0
  word : IWord := 0
  /-- Re-executed from the replay queue: operands are the captured ones (R398). -/
  replay : Option Replay := none
  /-- A plain load that hits an unowned L1 word may return it (R322). -/
  stale : Bool := false
  deriving DecidableEq, Repr

/-- An incoming memory request that waits: for its page, for a locked or lent line, or for an earlier request of its requester
(R331, R478). `write` holds the bytes of a write. -/
structure Incoming where
  /-- The model's own: its place in the order of arrivals. -/
  id : Nat := 0
  src : BitVec 12
  path : MemPath
  addr : Nat
  len : Nat
  relaxed : Bool := false
  posted : Bool := false
  write : Option (List Byte) := none
  deriving DecidableEq, Repr

/-- What moves next. -/
inductive Go where
  /-- One issue slot of a core (R107, R108). -/
  | slot (core : Nat)
  /-- A request or message from outside that has waited is tried again (R331, R436, R478). -/
  | waiting (i : Nat)
  | event (i : Instr)
  | idle
  deriving DecidableEq, Repr

/-- One turn: time that passes before it, and who moves. Plain data stands for every choice the manual leaves to timing. -/
structure Turn where
  dns : Nat := 5
  dclk : Nat := 12
  stale : Bool := false
  go : Go
  deriving DecidableEq, Repr

/-- The whole part. -/
structure State where
  /-- The model's own: who moves next; empty means the default order of `step`. -/
  turns : List Turn := []
  /-- The model's own: the instruction in execution. -/
  cur : Cur := {}
  /-- The model's own: how many free values have been drawn (log 3). -/
  free : Nat := 0
  boot : Boot := .atReset
  frozen : Bool := false
  cinchAddr : DWord := 0
  /-- The JTAG port's instruction register: BYPASS, all ones, in its reset state (R473; IEEE 1149.1). -/
  jtagIr : BitVec 8 := 0xFF
  devTime : DWord := 0
  /-- The compute clock in MHz, and the part of a clk that has passed, in 2,400ths (R10, R476). -/
  mhz : Nat := 2400
  clkPart : Nat := 0
  pers : Personality := {}
  sec : Security := {}
  /-- Ports, two halves each: up or down (R12). -/
  ports : List Bool := List.replicate 24 false
  mem : List (Nat × Byte) := []
  /-- Poisoned lines of memory, by physical line number (R472). -/
  poison : List Nat := []
  /-- Resident index of each group that is not 0 (R226). -/
  resident : List (Nat × Nat) := []
  heat : List (Nat × Nat) := []
  promotions : List Promotion := []
  /-- REF, DIRTY and ACT of a page-table entry where they differ from its bytes: stack × 2^33 + page (R230). -/
  pageBits : List (Nat × Nat) := []
  /-- Zone entries in use (R230). -/
  zone : List Nat := []
  mtus : List Mtu := List.replicate 8 {}
  /-- Bytes of the code object of a placed task as they were before each store to them, the latest store first: the task, the physical
  address, the byte (R82). -/
  codeOld : List (Nat × Nat × Byte) := []
  /-- Owner core of each registered 4-byte word of IA space (R322). -/
  owners : List (Nat × Nat) := []
  l2 : List (Nat × CacheLine) := []
  mvc : List (Nat × CacheLine) := []
  blooms : List Bloom := List.replicate 128 {}
  rowSlots : List (Nat × RowSlot) := []
  /-- Open time of each DRAM row since its neighbours were last refreshed, in ns: by 1 KiB block of a fast-slot frame (R242). -/
  rowPress : List (Nat × Nat) := []
  cores : List Core := List.replicate 192 {}
  blocks : List Block := []
  tasks : List Task := []
  ops : List EngineOp := []
  /-- The model's own counter of names for blocks, tasks, operations, requests and waits. -/
  nextId : Nat := 1
  eligible : List Elig := []
  pool : List PoolEntry := []
  held : List Held := []
  /-- Parked strands and operations owed a retry, and hub work owed one (R405, R477). -/
  retry : List Parked := []
  heldDue : List Held := []
  reserve : Option Reservation := none
  contexts : List Context := List.replicate 64 {}
  pages : List (Nat × Page) := []
  subs : List Submission := []
  qsb : List Nat := List.range 64
  queues : List (Nat × QueueDesc) := []
  services : List (Nat × SvcDesc) := []
  requests : List Request := []
  qcores : List QueueCore := List.replicate 64 {}
  /-- The system cores (R467). -/
  scores : List SysCore := List.replicate 8 {}
  inval : RingRegs := {}
  /-- Cores that have not yet acknowledged the invalidation in progress (R413). -/
  invalWait : Option (List Nat) := none
  latigo : Latigo := {}
  leases : List (Nat × Lease) := []
  rings : List CollRing := []
  /-- Requests from outside that wait, in order of arrival. -/
  incoming : List Incoming := []
  chunks : List Chunk := []
  peerStores : List PeerStore := []
  ck : Checkpoint := {}
  /-- The safe tier, outside the part, by address: it survives a part reset (R455, R458). -/
  safeTier : List (Nat × Stored) := []
  records : List LateRecord := []
  /-- Profile records that wait for their line of the buffer to be free, the oldest first (R291, R333, R449). -/
  profQueue : List (Nat × BitVec 512) := []
  outbox : List Out := []
  deriving DecidableEq, Repr

/-- The machine right after reset: every field at the value the manual gives, the rest at the values the log names. -/
def State.reset : State := {}

end Sys2Proof.Machine
end

