-- ==== Sys2Proof/Machine/Ops.lean ====
section
/-! DEFINITION. The named operations over registers, memory and references, and beside them the one operation by which a trap
or fault is disposed of (R393 to R404) and the return from handler mode (R420). -/

namespace Sys2Proof.Machine
open Bits

/-- What a step answers. -/
abbrev Result := Host.Outcome State Fault Refusal

/-! ### Parts of the state -/

/-- A block with no crew, for a name that no block has. -/
def noBlock : Block := { bid := 0, task := 0, core := 192 }
/-- A task with nothing in it, for a name that no task has. -/
def noTask : Task := { uid := 0, ctx := 0 }

def State.block (s : State) (bid : Nat) : Block := (s.blocks.find? (·.bid == bid)).getD noBlock
def State.updBlock (s : State) (bid : Nat) (g : Block → Block) : State :=
  { s with blocks := s.blocks.map fun b => if b.bid == bid then g b else b }
def Block.crew (b : Block) (i : Nat) : Crew := (b.crews[i]?).getD {}
def Block.updCrew (b : Block) (i : Nat) (g : Crew → Crew) : Block := { b with crews := b.crews.modify i g }
def State.crew (s : State) (bid i : Nat) : Crew := (s.block bid).crew i
def State.updCrew (s : State) (bid i : Nat) (g : Crew → Crew) : State := s.updBlock bid (·.updCrew i g)
def State.task (s : State) (uid : Nat) : Task := (s.tasks.find? (·.uid == uid)).getD noTask
def State.updTask (s : State) (uid : Nat) (g : Task → Task) : State :=
  { s with tasks := s.tasks.map fun t => if t.uid == uid then g t else t }
def State.op (s : State) (id : Nat) : Option EngineOp := s.ops.find? (·.id == id)
def State.updOp (s : State) (id : Nat) (g : EngineOp → EngineOp) : State :=
  { s with ops := s.ops.map fun o => if o.id == id then g o else o }
def State.ctx (s : State) (c : Nat) : Context := (s.contexts[c]?).getD {}
def State.updCtx (s : State) (c : Nat) (g : Context → Context) : State := { s with contexts := s.contexts.modify c g }
def State.core (s : State) (k : Nat) : Core := (s.cores[k]?).getD {}
def State.updCore (s : State) (k : Nat) (g : Core → Core) : State := { s with cores := s.cores.modify k g }
def State.mtu (s : State) (k : Nat) : Mtu := (s.mtus[k]?).getD {}
def State.updMtu (s : State) (k : Nat) (g : Mtu → Mtu) : State := { s with mtus := s.mtus.modify k g }
def State.qcore (s : State) (k : Nat) : QueueCore := (s.qcores[k]?).getD {}
def State.updQcore (s : State) (k : Nat) (g : QueueCore → QueueCore) : State := { s with qcores := s.qcores.modify k g }
def State.emit (s : State) (o : Out) : State := { s with outbox := s.outbox ++ [o] }
/-- A name no block, task, operation, request or wait has had. -/
def State.fresh (s : State) : Nat × State := (s.nextId, { s with nextId := s.nextId + 1 })
/-- Draw one free word (log 3). -/
def State.freeWord (s : State) : Word × State := (Config.freeWord s.free, { s with free := s.free + 1 })
/-- Draw `n` free bytes (log 3). -/
def State.freeBytes (s : State) (n : Nat) : List Byte × State :=
  ((List.range n).map fun i => Config.freeByte (s.free + i), { s with free := s.free + n })
/-- Draw one free choice (log 3). -/
def State.freeBool (s : State) : Bool × State := (Config.freeBool s.free, { s with free := s.free + 1 })

/-! ### The instruction in execution -/

def State.curBlock (s : State) : Block := s.block s.cur.blk
def State.curCrew (s : State) : Crew := s.crew s.cur.blk s.cur.crew
def State.curTask (s : State) : Task := s.task s.curBlock.task
def State.updCur (s : State) (g : Crew → Crew) : State := s.updCrew s.cur.blk s.cur.crew g
/-- The save of a task that is in force (R411). -/
def Task.kept (t : Task) : Save := t.saves.headD { chk := 0, blocks := [], ops := [] }
/-- Map the blocks of a task's saves. -/
def Task.mapSaved (t : Task) (g : Block → Block) : Task := { t with saves := t.saves.map fun v => { v with blocks := v.blocks.map g } }
def Task.win (t : Task) : Nat := 16 * 2 ^ t.rec_.wcode
def State.curCtx (s : State) : Nat := s.curTask.ctx

/-! ### Fibres and registers -/

def Crew.fibre (c : Crew) (i : Nat) : Fibre := (c.fibres[i]?).getD {}
def Crew.updFibre (c : Crew) (i : Nat) (g : Fibre → Fibre) : Crew := { c with fibres := c.fibres.modify i g }
def zeroReg (_ : Nat) : Word := 0
def Fibre.reg (fb : Fibre) (n : Nat) : Word := Sparse.get zeroReg fb.regs n
def Fibre.setReg (fb : Fibre) (n : Nat) (v : Word) : Fibre := { fb with regs := Sparse.put zeroReg fb.regs n v }
/-- Write a list of registers, in order. -/
def Fibre.setRegs (fb : Fibre) (l : List (Nat × Word)) : Fibre := l.foldl (fun fb p => fb.setReg p.1 p.2) fb
/-- A 64-bit value in an even pair (R7). -/
def Fibre.pair (fb : Fibre) (n : Nat) : DWord := fb.reg (n + 1) ++ fb.reg n
/-- The writes of a 64-bit result (R7). -/
def pairWrites (d : Nat) (v : DWord) : List (Nat × Word) := [(d, loWord v), (d + 1, hiWord v)]
/-- The guard of R84, read from v0. -/
def guardTrue (f : Fields) (fb : Fibre) : Bool :=
  match f.guard with
  | none => true
  | some g => (fb.reg 0).getLsbD g.bit.toNat ^^ g.neg
/-- One instruction of every lookahead window has been executed (R111). -/
def Fibre.tick (fb : Fibre) : Fibre :=
  { fb with windows := (fb.windows.map fun w => { w with left := w.left - 1 }).filter (0 < ·.left) }
/-- Go on to PC + 1 (R80). -/
def Fibre.next (fb : Fibre) : Fibre :=
  { fb.tick with pc := fb.pc + 1, past := fb.pc == 0xFFFFFFFF, acted := false, fenceFrom := none, tornAt := none }
/-- Go to a target (R145). -/
def Fibre.goto (fb : Fibre) (pc : Word) : Fibre := { fb.tick with pc := pc, past := false, acted := false, fenceFrom := none, tornAt := none }
/-- Stop waiting. -/
def Fibre.wake (fb : Fibre) : Fibre := { fb with st := .runnable, wait := .none, waitSeq := 0 }

/-- Slots of the strand in execution that the guard lets act (R84). -/
def State.acting (s : State) (f : Fields) : List Nat :=
  (List.range 32).filter fun i => s.cur.mask.getLsbD i && guardTrue f (s.curCrew.fibre i)
def State.actMask (s : State) (f : Fields) : Mask := maskOf 32 (s.acting f)
/-- Map the fibres of a mask. -/
def Crew.mapMask (c : Crew) (m : Mask) (g : Nat → Fibre → Fibre) : Crew :=
  { c with fibres := c.fibres.mapIdx fun i fb => if m.getLsbD i then g i fb else fb }
/-- Live slots of a crew (R104). -/
def Crew.liveMask (c : Crew) : Mask := maskOf 32 ((List.range 32).filter fun i => (c.fibre i).st != .free)
/-- A converged strand holds every live fibre of its crew (R106). -/
def State.converged (s : State) : Bool := s.cur.mask == s.curCrew.liveMask
/-- The instruction stalls: no fibre moves, and the crew's stall class is recorded (R113). -/
def State.stall (s : State) (cls : Nat) : Result := .next (s.updCur fun c => { c with stallClass := cls })
/-- Every fibre of the strand goes on, and those that act get their writes; `w` sees the fibre as it stood (R84). -/
def State.perFibre (s : State) (f : Fields) (w : Nat → Fibre → List (Nat × Word)) : State :=
  s.updCur fun c => c.mapMask s.cur.mask fun i fb => (if guardTrue f fb then fb.setRegs (w i fb) else fb).next
/-- Every fibre of the strand goes on to PC + 1. -/
def State.goOn (s : State) : State := s.updCur fun c => c.mapMask s.cur.mask fun _ fb => fb.next

/-! ### Results that come later (R87, R111) -/

/-- Issue a long-latency form: its writes wait in the crew, the strand goes on, and LOOK opens a window. -/
def State.issueLong (s : State) (f : Fields) (p : Pending) (dests : List Nat) : State :=
  let act := s.acting f
  { s.updCur fun c =>
      { c.mapMask s.cur.mask fun i fb =>
          let fb := fb.next
          if act.contains i && f.look != 0 then
            { fb with windows := fb.windows ++ [{ id := s.nextId, left := f.look.toNat, dests := dests, pc := s.cur.pc }] } else fb
        with pend := c.pend ++ [{ p with id := s.nextId, pc := s.cur.pc, word := s.cur.word, mask := maskOf 32 act, strand := s.cur.mask }] }
    with nextId := s.nextId + 1 }
/-- A long-latency register form: writes computed from the operands at issue. -/
def State.longForm (s : State) (f : Fields) (dests : List Nat) (w : Nat → Fibre → List (Nat × Word)) : State :=
  s.issueLong f { writes := (s.acting f).map fun i => (i, w i (s.curCrew.fibre i)) } dests
/-- Set sticky flags (R162), bits [14:10] of the mode register from an exception set, bit 0 invalid. -/
def Crew.addFlags (c : Crew) (e : BitVec 5) : Crew := { c with mode := c.mode ||| (e.setWidth 32 <<< 10) }
/-- The trap enables of the mode register, bits [9:5] (R160). -/
def Crew.enables (c : Crew) : BitVec 5 := c.mode.extractLsb' 5 5
/-- Write a pending result and merge its flags (R166); a slot no longer listed was aborted (R361). -/
def Crew.writeBack (c : Crew) (p : Pending) : Crew :=
  let c : Crew := { c with pend := c.pend.filter (·.id != p.id) }
  let c := p.writes.foldl (fun c x => c.updFibre x.1 (·.setRegs x.2)) c
  c.addFlags ((p.excs.foldl (fun m x => m ||| x.2) 0) &&& p.flagMask)
/-- Exceptions of a pending result that meet the enables: the lowest slot and its set (R164). -/
def Pending.fpTrap (p : Pending) : Option (Nat × BitVec 5) :=
  if p.enables == 0 then none else p.excs.find? fun x => x.2 &&& p.enables != 0

/-! ### Memory: frames, translation and bytes (R225 to R231) -/

/-- Physical byte ranges: device frames from 0, the compressed zone, the lendable pool, and bytes borrowed from peers. -/
def zoneBase : Nat := 2 ^ 41
def poolBase : Nat := 2 ^ 44
def remoteBase : Nat := 2 ^ 80

/-- What a byte of memory that nothing has written reads as: the boot page table in its frames (R479), and 0 elsewhere
(DESIGN CHOICE, log 4). -/
def memDefault (a : Nat) : Byte :=
  let stack := a / 2 ^ 38
  let idx := a / 65536 % 2 ^ 22
  let p := ((idx - Config.mappedPages) * 65536 + a % 65536) / 8
  if stack < 8 && Config.mappedPages ≤ idx && idx < 4 * Config.groupsPerStack && p < Config.mappedPages then
    (BitVec.ofNat 64 (2 ^ 61 + stack * 2 ^ 22 + p)).extractLsb' (8 * (a % 8)) 8
  else 0

/-- The canonical form of memory: addresses strictly rise, and no entry equals what an unlisted address reads as. -/
def Memory.wf (m : List (Nat × Byte)) : Bool := Sparse.wf memDefault m
/-- One byte of memory by physical address. -/
def State.byte (s : State) (a : Nat) : Byte := Sparse.get memDefault s.mem a
def State.bytes (s : State) (a n : Nat) : List Byte := Sparse.getN memDefault s.mem a n
def State.setBytes (s : State) (a : Nat) (l : List Byte) : State := { s with mem := Sparse.putN memDefault s.mem a l }

/-- A page's key in the tables that are indexed by page. -/
def pageKey (ia : Nat) : Nat := ia / 65536
def State.pteAddr (s : State) (ia : Nat) : Nat := (s.mtu (ia / 2 ^ 49)).mptb * 65536 + 8 * (ia / 65536 % 2 ^ 33)
/-- The pages of a stack that its table covers: a stack has 2^33 (R229, R230). -/
def Mtu.pages (m : Mtu) : List Nat := List.range (min m.mptlen (2 ^ 33))
/-- The page-table entry of an IA page, with REF, DIRTY and ACT as the part has set them (R230). -/
def State.pte (s : State) (ia : Nat) : DWord :=
  let e := ofBytes 64 (s.bytes (s.pteAddr ia) 8)
  match Sparse.find? s.pageBits (pageKey ia) with
  | none => e
  | some b => (e &&& ~~~(7#64 <<< 58)) ||| ((BitVec.ofNat 64 b) <<< 58)
/-- Replace an entry whole, its three bits included. -/
def State.setPte (s : State) (ia : Nat) (e : DWord) : State :=
  { s.setBytes (s.pteAddr ia) (toBytes 8 e) with pageBits := Sparse.erase (pageKey ia) s.pageBits }
/-- Set bits among REF (4), DIRTY (2) and ACT (1). -/
def State.setPageBits (s : State) (ia : Nat) (b : Nat) : State :=
  { s with pageBits := Sparse.insert (pageKey ia) b s.pageBits }

/-- No cause of R404 and in no record: an access that must be made again a little later, of a fibre that stalls meanwhile. -/
def causeWait : BitVec 8 := 0x00
/-- No cause of R404 either: the CHECK of a parameter block has failed once, and it is to be read again (R263). -/
def causeTornOnce : BitVec 8 := 0x0F
def causeNotPresent : BitVec 8 := 0x01
def causeCompressed : BitVec 8 := 0x02
def causeLeaseLost : BitVec 8 := 0x03
def causeBounds : BitVec 8 := 0x10
def causeRights : BitVec 8 := 0x11
def causeTenant : BitVec 8 := 0x12
def causeGeneration : BitVec 8 := 0x13
def causePoison : BitVec 8 := 0x14
def causeAlign : BitVec 8 := 0x15
def causeParamTorn : BitVec 8 := 0x16
def causeEngineFatal : BitVec 8 := 0x17
def causeIllegalOpcode : BitVec 8 := 0x20
def causeIllegalEncoding : BitVec 8 := 0x21
def causeWindowOverrun : BitVec 8 := 0x22
def causeLookahead : BitVec 8 := 0x23
def causeIllegalConvergence : BitVec 8 := 0x24
def causeJumpRange : BitVec 8 := 0x25
def causeFp : BitVec 8 := 0x26
def causeTryMisuse : BitVec 8 := 0x27
def causeRowSlot : BitVec 8 := 0x28
def causeCollTimeout : BitVec 8 := 0x29
def causeBkpt : BitVec 8 := 0x2A
def causeDebugStop : BitVec 8 := 0x2B

/-- Where a byte lives: its physical address, and the lease when it is a peer-store page (R442). -/
structure Place where
  phys : Nat
  peer : Option Word := none
  deriving DecidableEq, Repr

/-- A lease that may be used: ACTIVE, before its EXPIRY and the end of a NOTICE's grace period, and not lost while its transition waits for the event ring (R433, R436 to R438). -/
def Lease.live (l : Lease) (now : Nat) : Bool :=
  l.st == .active && now < l.expiry && !(l.notice && l.graceEnd ≤ now) && l.due.isNone
/-- The lease-table entry of a lease identifier that is ACTIVE here (R437). -/
def State.activeLease (s : State) (id : Word) : Option Lease :=
  (s.leases.find? fun p => p.2.id == id && p.2.live s.devTime.toNat).map (·.2)

/-- Memory-side translation (R231, R437). -/
def State.place (s : State) (ia : Nat) : Except (BitVec 8) Place :=
  if (s.mtu (ia / 2 ^ 49)).mptlen ≤ ia / 65536 % 2 ^ 33 then .error causeNotPresent
  else
    let e := s.pte ia
    match field e 61 3 with
    | 1 => .ok { phys := field e 0 25 * 65536 + ia % 65536 }
    | 2 => .error causeCompressed
    | 3 =>
      match s.activeLease (BitVec.ofNat 32 (field e 24 32)) with
      | none => .error causeLeaseLost
      | some l =>
        let page := field e 0 24
        if l.ngran * 4096 ≤ page then .error causeNotPresent
        else if l.borrowed then
          .ok { phys := remoteBase + (field e 24 32 * 2 ^ 24 + page) * 65536 + ia % 65536,
                peer := if l.uio then some (BitVec.ofNat 32 (field e 24 32)) else none }
        else .ok { phys := poolBase + l.poolg * 2 ^ 28 + page * 65536 + ia % 65536 }
    | _ => .error causeNotPresent

/-- A line of the range carries poison (R472). -/
def State.poisonedAt (s : State) (phys n : Nat) : Bool :=
  s.poison.any fun l => overlap (l * 64) 64 phys n

/-- What an access does at its place: a read or an atomic; an ST, STQ or engine write, which alone may reach a peer-store page
(R442); or any other write. A write reads no line (check 10). -/
inductive Access where
  | load | store | write
  deriving DecidableEq, Repr

/-- The line of a lease's extent that a physical byte of a borrowed page lies in, with the lease. -/
def borrowedAt (phys : Nat) : Word × Nat := (BitVec.ofNat 32 ((phys - remoteBase) / 2 ^ 40), (phys - remoteBase) % 2 ^ 40 / 64)
/-- The borrower of a lease may cache a line of the range (R333). -/
def State.lentOut (s : State) (phys n : Nat) : Bool :=
  decide (poolBase ≤ phys) && decide (phys < remoteBase) && s.leases.any fun x =>
    x.2.st == .active && !x.2.borrowed && x.2.cached.any fun l => overlap (poolBase + x.2.poolg * 2 ^ 28 + l * 64) 64 phys n
/-- L2 or the victim cache holds a line. -/
def State.lineHere (s : State) (line : Nat) : Bool := (Sparse.find? s.l2 line).isSome || (Sparse.find? s.mvc line).isSome
/-- Why an access that translates cannot be made now: a borrower may cache the line (R333, R437); or the line is borrowed and no cache of
the part holds it, and its lender has not answered yet, or has answered with an error (R434, R438). When, and with which of the two, a
lender answers is a free choice (log 66). -/
def State.reach (s : State) (ia n : Nat) (p : Place) : Option (BitVec 8) :=
  if s.lentOut p.phys n then some causeWait
  else if decide (p.phys < remoteBase) || p.peer.isSome || s.lineHere (ia / 64) then none
  else if Config.freeBool s.free then some causeWait
  else if Config.freeBool (s.free + 1) then some causeLeaseLost
  else none

/-- Checks 9 and 10 of R189 for an access within one page. -/
def State.checkPlace (s : State) (ia n : Nat) (acc : Access) : Except (BitVec 8) Place :=
  match s.place ia with
  | .error c => .error c
  | .ok p =>
    if p.peer.isSome && acc != .store then .error causeRights
    else match s.reach ia n p with
      | some c => .error c
      | none => if acc == .load && s.poisonedAt p.phys n then .error causePoison else .ok p

/-- Where a byte lies for the part's own accesses, which are loads and plain writes and so never reach a peer-store page (R442). -/
def State.ownPlace (s : State) (ia : Nat) : Except (BitVec 8) Place :=
  match s.place ia with
  | .error c => .error c
  | .ok p => if p.peer.isSome then .error causeRights else .ok p
/-- Bytes of IA space, each through its own page; a byte that no page holds reads 0. For the part's own tables. -/
def State.iaBytes (s : State) (ia n : Nat) : List Byte :=
  (List.range n).map fun i => match s.ownPlace (ia + i) with
    | .ok p => s.byte p.phys
    | .error _ => 0

/-! ### Handle-table entries (R28 to R36) -/

namespace Ent
def kind (e : BitVec 512) : Nat := field e 0 3
def gen (e : BitVec 512) : Nat := field e 8 6
def tenant (e : BitVec 512) : BitVec 16 := e.extractLsb' 16 16
def poison (e : BitVec 512) : Bool := bit e 32
def l1 (e : BitVec 512) : Bool := bit e 33
def l2a (e : BitVec 512) : Bool := bit e 35
def mvca (e : BitVec 512) : Bool := bit e 36
def sto (e : BitVec 512) : Bool := bit e 37
def rd (e : BitVec 512) : Bool := bit e 38
def tier (e : BitVec 512) : Nat := field e 39 3
def base (e : BitVec 512) : Nat := field e 64 49
def len (e : BitVec 512) : Nat := field e 128 41
def smask (e : BitVec 512) : BitVec 8 := e.extractLsb' 192 8
def gran (e : BitVec 512) : Nat := field e 200 4
def lease (e : BitVec 512) : Word := e.extractLsb' 208 32
def aux (e : BitVec 512) : Nat := field e 256 52
def pool (e : BitVec 512) : Nat := field e 320 52
def blklog (e : BitVec 512) : Nat := field e 372 4
def toklog (e : BitVec 512) : Nat := field e 376 4
def pooln (e : BitVec 512) : Nat := field e 384 31

/-- Reserved fields of R28 are zero, with the fields that only SEQUENCE and QUEUE use. -/
def reservedZero (e : BitVec 512) : Bool :=
  isZero e 14 2 && isZero e 42 22 && isZero e 116 12 && isZero e 169 23 && isZero e 204 4 && isZero e 240 16 &&
  isZero e 308 12 && isZero e 380 4 && isZero e 415 65 &&
  (if kind e == 4 then 6 ≤ toklog e && toklog e ≤ 14 && blklog e ≤ 10
   else isZero e 320 60 && isZero e 384 31 && (if kind e == 5 then isZero e 268 40 else isZero e 256 52))

/-- The memory port treats the entry as INVALID (R30, R31). -/
def invalid (e : BitVec 512) : Bool :=
  kind e == 0 || 5 < kind e || !reservedZero e || smask e == 0 || 8 < gran e || 3 < tier e || 2 ^ 40 < len e ||
  (rd e && (l1 e || bit e 34 || l2a e || mvca e || sto e))
end Ent

/-- Handle index, generation and offset of a reference (R26). -/
def refIndex (r : DWord) : Nat := field r 46 18
def refGen (r : DWord) : Nat := field r 40 6
def refOff (r : DWord) : Nat := field r 0 40

/-- A fault of the memory port on a reference (R404). -/
def memFault (cause : BitVec 8) (ref : DWord) (o : Int) (ia : Nat := 0) : Event :=
  { cause := cause, ref := ref, arg0 := wrap 64 o, arg1 := BitVec.ofNat 64 ia }

def handleKey (ctx idx : Nat) : Nat := ctx * 2 ^ 18 + idx

/-- The handle-table entry a reference names: from the core's handle cache, else from memory (R29, R34). An index that is
null or beyond HTCOUNT gives the all-zero entry, which is INVALID. -/
def State.entry (s : State) (core ctx : Nat) (ref : DWord) (o : Int) : Except Event (BitVec 512) :=
  let idx := refIndex ref
  if idx == 0 || (s.ctx ctx).htcount ≤ idx then .ok 0
  else
    match (s.core core).handles.find? (·.1 == handleKey ctx idx) with
    | some h => .ok h.2.1
    | none =>
      let ia := (s.ctx ctx).htbase + 64 * idx
      match s.checkPlace ia 64 .load with
      | .error c => .error (memFault c ref o ia)
      | .ok p =>
        let e := ofBytes 512 (s.bytes p.phys 64)
        if sealed64 e then .ok e else .error (memFault causeParamTorn ref (refOff ref))

def Req.load (n : Nat) : Req := { r := true, align := n }
def Req.store (n : Nat) : Req := { w := true, align := n }
def Req.atom (n : Nat) : Req := { kinds := [1, 4], r := true, w := true, atomic := true, align := n }

/-- Check 6 of R189. -/
def Req.allowed (q : Req) (e : BitVec 512) : Bool :=
  q.kinds.contains (Ent.kind e) && (!q.r || bit e 3) && (!q.w || bit e 4) && (!q.x || bit e 5) && (!q.atomic || bit e 6) &&
  (!q.engine || bit e 7) && (!q.stash || bit e 34) && (!q.rowDirect || Ent.rd e)

/-- An access of a SEQUENCE object lies within one token (R35). -/
def seqToken (e : BitVec 512) (o n : Nat) : Bool :=
  Ent.kind e != 4 || n == 0 || o / 2 ^ Ent.toklog e == (o + n - 1) / 2 ^ Ent.toklog e

/-- Checks 1 to 8 of R189 for a reference, an exact effective offset and a size. -/
def State.checkHandle (s : State) (core ctx : Nat) (tenant : BitVec 16) (ref : DWord) (o : Int) (n : Nat) (q : Req) :
    Except Event (BitVec 512) :=
  match s.entry core ctx ref o with
  | .error ev => .error ev
  | .ok e =>
    if Ent.invalid e then .error (memFault causeGeneration ref o)
    else if Ent.tenant e != tenant then .error (memFault causeTenant ref o)
    else if Ent.gen e != refGen ref then .error (memFault causeGeneration ref o)
    else if q.bounds && (o < 0 || (Ent.len e : Int) < o + n || (2 : Int) ^ 40 ≤ o) then .error (memFault causeBounds ref o)
    else if !q.allowed e then .error (memFault causeRights ref o)
    else if o.toNat % q.align != 0 || (q.bounds && !q.span && !seqToken e o.toNat n) then .error (memFault causeAlign ref o)
    else if q.poison && Ent.poison e then .error (memFault causePoison ref o)
    else .ok e

/-- The j-th lowest stack of SMASK (R193). -/
def selStack (m : BitVec 8) (j : Nat) : Nat := ((ones m)[j]?).getD 0

/-- IA formation (R193): none when the stack-local address reaches 2^49. -/
def formIa (e : BitVec 512) (base o : Nat) : Option Nat :=
  let g := 256 * 2 ^ Ent.gran e
  let k := popcount (Ent.smask e)
  let l := base % 2 ^ 49 + (o / g / k * g + o % g)
  if 2 ^ 49 ≤ l then none else some (selStack (Ent.smask e) (o / g % k) * 2 ^ 49 + l)

/-- The IA of an offset; a SEQUENCE object goes through its block table (R35, R36). -/
def State.iaOf (s : State) (core ctx : Nat) (e : BitVec 512) (ref : DWord) (o : Nat) : Except Event Nat :=
  let form (base po : Nat) := match formIa e base po with
    | some ia => Except.ok ia
    | none => .error (memFault causeBounds ref o)
  if Ent.kind e != 4 then form (Ent.base e) o
  else
    let p := o / 2 ^ Ent.toklog e
    let i := p / 2 ^ Ent.blklog e
    let ia := Ent.aux e + 4 * i
    let bt : Except Event Word :=
      match (s.core core).handles.find? (·.1 == handleKey ctx (refIndex ref)) with
      | some (_, _, some (j, w)) => if j == i then .ok w else
          match s.checkPlace ia 4 .load with
          | .ok pl => .ok (ofBytes 32 (s.bytes pl.phys 4))
          | .error c => .error (memFault c ref o ia)
      | _ =>
          match s.checkPlace ia 4 .load with
          | .ok pl => .ok (ofBytes 32 (s.bytes pl.phys 4))
          | .error c => .error (memFault c ref o ia)
    match bt with
    | .error ev => .error ev
    | .ok w =>
      if !w.getLsbD 31 then .error (memFault causeNotPresent ref o ia)
      else
        let k := field w 0 31
        if Ent.pooln e ≤ k then .error (memFault causeBounds ref o)
        else form (Ent.pool e) (k * 2 ^ (Ent.blklog e + Ent.toklog e) + p % 2 ^ Ent.blklog e * 2 ^ Ent.toklog e + o % 2 ^ Ent.toklog e)

/-- The lines of a byte range. -/
def linesOf (ia n : Nat) : List Nat := (List.range ((ia % 64 + n + 63) / 64)).map (ia / 64 + ·)
/-- The IA of the first line of a range for which an access must wait. -/
def State.waitLine (s : State) (ia n : Nat) : Nat :=
  (((linesOf ia n).map (64 * ·)).find? fun a => match s.checkPlace a 64 .store with | .error c => c == causeWait | .ok _ => false).getD ia

/-- A checked access: its entry, its IA and where it lies. -/
structure Acc where
  ent : BitVec 512
  ia : Nat
  place : Place
  deriving DecidableEq, Repr

/-- All ten checks of R189 in order, IA formation included (R193). -/
def State.check (s : State) (core ctx : Nat) (tenant : BitVec 16) (ref : DWord) (o : Int) (n : Nat) (q : Req) (acc : Access) :
    Except Event Acc :=
  match s.checkHandle core ctx tenant ref o n q with
  | .error ev => .error ev
  | .ok e =>
    match s.iaOf core ctx e ref o.toNat with
    | .error ev => .error ev
    | .ok ia =>
      match s.checkPlace ia n acc with
      | .error c => .error (memFault c ref o (if c == causeWait then s.waitLine ia n else ia))
      | .ok p => .ok { ent := e, ia := ia, place := p }

/-! ### Making an access -/

/-- Who makes an access: a fibre, a commit step of a crew, or any other agent (R364). -/
inductive Agent where
  | fibre (blk crew slot core : Nat)
  | commit (blk crew core : Nat)
  | other
  deriving DecidableEq, Repr

def Agent.core : Agent → Option Nat
  | .fibre _ _ _ k => some k
  | .commit _ _ k => some k
  | .other => none

/-- Heat credit of an access (R228). -/
def credit (e : BitVec 512) : Nat := match Ent.tier e with | 1 => 2 | 2 => 0 | 3 => 0 | _ => 1

/-- L2 slice of a line (R194). -/
def sliceOf (ia : Nat) : Nat := 16 * (ia / 2 ^ 49) + ((ia / 64 % 16) ^^^ (ia / 1024 % 16))
/-- The member in the fast slot of a group (R226). -/
def State.residentOf (s : State) (group : Nat) : Nat := Sparse.get (fun _ => 0) s.resident group
/-- A frame lies in its group's fast slot. -/
def State.inFast (s : State) (dfn : Nat) : Bool := s.residentOf (dfn / 4) == dfn % 4
/-- Count an event of a translation unit, by its place in R236. -/
def Mtu.bump (m : Mtu) (i : Nat) : Mtu := { m with counters := m.counters.modify i (· + 1) }
/-- The page of a line is one whose lines the victim cache may hold (R237). -/
def State.slowPage (s : State) (line : Nat) : Bool :=
  let e := s.pte (line * 64)
  match field e 61 3 with
  | 1 => !s.inFast (field e 0 25)
  | 3 => true
  | _ => false
/-- A line is written to its tier: dirty data of a borrowed one goes to its lender (R237, R434). -/
def State.toTier (s : State) (line : Nat) (c : CacheLine) : State :=
  if !c.dirty then s
  else match s.place (64 * line) with
    | .ok p => if p.phys < remoteBase then s else s.emit (.peerWrite (borrowedAt p.phys).1 (borrowedAt p.phys).2 (s.bytes p.phys 64))
    | .error _ => s
/-- One of a list of lines, which one being the part's to choose (log 66). -/
def State.pickLine (s : State) (l : List Nat) : Option Nat × State :=
  match l with
  | [] => (none, s)
  | _ => let r := s.freeWord; (l[r.1.toNat % l.length]?, r.2)
/-- Lines that a stack's victim cache holds: 2 GiB of them (R9). -/
def mvcLines : Nat := 2 ^ 25
/-- Lines that an L2 slice holds: 2 MiB of them (R9). -/
def sliceLines : Nat := 32768
/-- A full victim cache makes room for one more line. -/
def State.mvcRoom (s : State) (stack : Nat) : State :=
  let mine := (s.mvc.filter fun x => x.1 / 2 ^ 43 == stack).map (·.1)
  if mine.length < mvcLines then s
  else match s.pickLine mine with
    | (none, s) => s
    | (some k, s) => { s with mvc := Sparse.erase k s.mvc }.toTier k ((Sparse.find? s.mvc k).getD {})
/-- A line leaves its L2 slice: for the victim cache under R237, or straight for its tier. -/
def State.evictLine (s : State) (line : Nat) : State :=
  match Sparse.find? s.l2 line with
  | none => s
  | some c =>
    let stack := line * 64 / 2 ^ 49
    let s' : State := { s with l2 := Sparse.erase line s.l2 }
    if !s.slowPage line || !c.mvca then s'.toTier line c
    else if c.sto || c.second then
      let s' := s'.mvcRoom stack
      { s' with mvc := Sparse.insert line c s'.mvc }.updMtu stack (·.bump 6)
    else (s'.toTier line c).updMtu stack (·.bump 8)
/-- Lines of a slice, those marked for first eviction alone where there are any (R195). -/
def State.victims (s : State) (slice : Nat) : List Nat :=
  let mine := s.l2.filter fun x => sliceOf (64 * x.1) == slice
  let early := mine.filter (·.2.early)
  (if early.isEmpty then mine else early).map (·.1)
/-- A full slice makes room for one more line. -/
def State.sliceRoom (s : State) (slice : Nat) : State :=
  if (s.l2.countP fun x => sliceOf (64 * x.1) == slice) < sliceLines then s
  else match s.pickLine (s.victims slice) with
    | (none, s) => s
    | (some k, s) => s.evictLine k
/-- After 2^18 insertions the previous filter is cleared and becomes the active one (R239). -/
def Bloom.turn (b : Bloom) : Bloom := if b.inserted < 2 ^ 18 then b else { active := [], previous := b.active, inserted := 0 }
/-- A line's presence after an access: a hit stays, and a miss is filled, from the victim cache where that holds the line, with the policy of
the access and the second-touch mark of R239 (R195, R237 to R239). -/
def State.touchLine (s : State) (e : BitVec 512) (ia : Nat) (store stream : Bool) : State :=
  let line := ia / 64
  if Ent.rd e then s
  else
    let early := stream || !Ent.l2a e || Ent.tier e == 3
    match Sparse.find? s.l2 line with
    | some c => { s with l2 := Sparse.insert line { c with dirty := c.dirty || store, early := c.early || early } s.l2 }
    | none =>
      let sl := sliceOf ia
      let old := Sparse.find? s.mvc line
      let h := [Config.bloomHash 0 line % 65536, Config.bloomHash 1 line % 65536]
      let bl := ((s.blooms[sl]?).getD {}).turn
      let seen := h.all bl.active.contains || h.all bl.previous.contains
      let s : State := { s with
        -- the lender's answer has been used (`State.reach`)
        free := match s.place ia, old with | .ok p, none => if p.phys < remoteBase then s.free else s.free + 2 | _, _ => s.free
        mvc := Sparse.erase line s.mvc
        blooms := if Ent.mvca e then s.blooms.modify sl fun _ => { bl with active := h ++ bl.active, inserted := bl.inserted + 1 } else s.blooms }
      let s := s.sliceRoom sl
      let fill : CacheLine :=
        { dirty := store || old.any (·.dirty), mvca := Ent.mvca e, sto := Ent.sto e, second := Ent.mvca e && seen, early := early }
      let s : State := { s with l2 := Sparse.insert line fill s.l2 }
      if old.isSome then s.updMtu (ia / 2 ^ 49) (·.bump 7) else s

/-- Set REF, and DIRTY for a store, of a page (R230). -/
def State.refPage (s : State) (ia : Nat) (store : Bool) : State := s.setPageBits ia (field (s.pte ia) 58 3 ||| (if store then 6 else 4))
/-- The side effects every access has below the value: REF and DIRTY (R230), heat (R228), and the L2 line, which a store to a peer-store page
does not fill (R442). -/
def State.note (s : State) (a : Acc) (store stream : Bool) : State :=
  let s := s.refPage a.ia store
  let s := if a.place.phys < zoneBase then
      { s with
        heat := Sparse.put (fun _ => 0) s.heat (a.place.phys / 65536)
          (Sparse.get (fun _ => 0) s.heat (a.place.phys / 65536) + credit a.ent) } else s
  if a.place.peer.isSome then s else s.touchLine a.ent a.ia store stream
/-- The policy of the accesses the part makes by address, with no handle: L2A = 1, TIER AUTO (DESIGN CHOICE, log 66). -/
def ownEntry : BitVec 512 := at_ 512 35 1 1
/-- The side effects of the part's own access to a range, line by line. -/
def State.noteOwn (s : State) (ia n : Nat) (store : Bool) : State :=
  (linesOf ia n).foldl (fun s l => match s.ownPlace (64 * l) with
    | .ok p => s.note { ent := ownEntry, ia := 64 * l, place := p } store false
    | .error _ => s) s
/-- The side effects of a checked access of several lines. -/
def State.noteAll (s : State) (a : Acc) (n : Nat) (store : Bool) : State :=
  (linesOf a.ia n).foldl (fun s l =>
    s.note { a with ia := max a.ia (64 * l), place := { a.place with phys := a.place.phys + (max a.ia (64 * l) - a.ia) } } store false) s

/-- Keep an entry in the core's handle cache, which holds 256; an entry not there has been read from its table (R34, R189, R230). Where the cache is
full the entry loaded longest ago makes room, and an access before an invalidation uses the entry that the cache holds, be it an old one (DESIGN
CHOICE, log 84: R34 allows the old entry or the new one, and names no order of replacement). -/
def State.keepEntry (s : State) (core ctx : Nat) (ref : DWord) : State :=
  match s.entry core ctx ref 0 with
  | .error _ => s
  | .ok e =>
    if e == 0 || (s.core core).handles.any (·.1 == handleKey ctx (refIndex ref)) then s
    else (s.noteOwn ((s.ctx ctx).htbase + 64 * refIndex ref) 64 false).updCore core fun k => { k with handles := ((handleKey ctx (refIndex ref), e, none) :: k.handles).take 256 }

/-- Keep the block-table entry just used (R36). -/
def State.keepBlockEntry (s : State) (core ctx : Nat) (e : BitVec 512) (ref : DWord) (o : Nat) : State :=
  if Ent.kind e != 4 then s
  else
    let i := o / 2 ^ Ent.toklog e / 2 ^ Ent.blklog e
    let kept : Bool := ((s.core core).handles.find? (·.1 == handleKey ctx (refIndex ref))).any fun h => h.2.2.any (·.1 == i)
    match s.checkPlace (Ent.aux e + 4 * i) 4 .load with
    | .error _ => s
    | .ok p =>
      let w : Word := ofBytes 32 (s.bytes p.phys 4)
      if kept then s
      else (s.noteOwn (Ent.aux e + 4 * i) 4 false).updCore core fun k =>
        { k with
          handles := k.handles.map fun h =>
            if h.1 == handleKey ctx (refIndex ref) && (match h.2.2 with | some (j, _) => j != i | none => true)
            then (h.1, h.2.1, some (i, w)) else h }

/-- Bring the words of a line into a core's L1 (R195). -/
def State.fillL1 (s : State) (core : Nat) (a : Acc) (n : Nat) : State :=
  let base := a.ia - a.ia % 4
  let words := (List.range ((a.ia % 4 + n + 3) / 4)).map fun i =>
    (base / 4 + i, (ofBytes 32 (s.bytes (a.place.phys - a.ia % 4 + 4 * i) 4) : Word))
  s.updCore core fun k => { k with l1 := words.foldl (fun l w => Sparse.insert w.1 (w.2, k.fills) l) k.l1, fills := k.fills + 1 }
/-- Words that a core owns (R322). -/
def State.owns (s : State) (core word : Nat) : Bool := Sparse.find? s.owners word == some core
/-- A read that its home serves leaves no older copy of the words in the core's L1, since a later read of the same fibre must not go back to it
(R311). -/
def State.dropL1 (s : State) (core ia n : Nat) : State :=
  s.updCore core fun k => { k with l1 := k.l1.filter fun x => s.owns core x.1 || !(ia / 4 ≤ x.1 && x.1 ≤ (ia + n - 1) / 4) }
/-- The L1 can serve a whole read of several words: it holds them all as one fill read them, and owns none (R310). -/
def State.l1Whole (s : State) (core ia n : Nat) : Bool :=
  let ws := (List.range ((ia + n - 1) / 4 - ia / 4 + 1)).map fun i => Sparse.find? (s.core core).l1 (ia / 4 + i)
  match ws with
  | [_] => true
  | w :: r => w.isSome && r.all (fun x => x.map (·.2) == w.map (·.2)) && (List.range ws.length).all fun i => !s.owns core (ia / 4 + i)
  | [] => true
/-- The bytes a plain load returns: the latest, or a stale copy of an L1 word that the core does not own (R315, R322). A load that is whole
takes all of it from one moment (R310). -/
def State.loadBytes (s : State) (core : Nat) (stale whole : Bool) (a : Acc) (n : Nat) : List Byte :=
  if !stale || !Ent.l1 a.ent || (whole && !s.l1Whole core a.ia n) then s.bytes a.place.phys n
  else (List.range n).map fun i =>
    let w := (a.ia + i) / 4
    match Sparse.find? (s.core core).l1 w with
    | some v => if s.owns core w then s.byte (a.place.phys + i) else v.1.extractLsb' (8 * ((a.ia + i) % 4)) 8
    | none => s.byte (a.place.phys + i)

/-- An abort word (R360). -/
def abortWord (code detail : Nat) : Word :=
  let retry := code == 1 || code == 6 || code == 8 || code == 10
  at_ 32 0 8 code ||| at_ 32 8 8 detail ||| at_ 32 16 1 (if retry then 1 else 0)

/-- Fibres leave their strand: a swap that it awaits is not theirs (R246), and its waiting trap is not either. One for which they acted inside
a try is raised again by the others, which take the instruction again (R368). -/
def Crew.quit (c : Crew) (m : Mask) : Crew :=
  { c with
    rowWait := c.rowWait.bind fun w => if w.mask &&& ~~~m == 0 then none else some { w with mask := w.mask &&& ~~~m }
    pendTraps := c.pendTraps.filterMap fun p =>
      if p.mask &&& m == 0 then some p
      else if p.act &&& m != 0 || p.mask &&& ~~~m == 0 then none
      else some { p with mask := p.mask &&& ~~~m } }
/-- Abort members of the crew's try (R361); in `.crew` mode an abort of any member aborts them all. -/
def Crew.abortTry (c : Crew) (m : Mask) (word : Word) : Crew :=
  match c.tr with
  | none => c
  | some t =>
    let out := if m &&& t.members == 0 then 0 else if t.crewMode then t.members else m &&& t.members
    let left := t.members &&& ~~~out
    let leave (i : Nat) (fb : Fibre) : Fibre :=
      let back := Fibre.setReg { fb with regs := (t.shadow[i]?).getD [] } t.code word
      { back.wake with pc := t.target, past := false, windows := [], acted := false, fenceFrom := none, tornAt := none }
    let drop (p : Pending) : Pending :=
      { p with
        mask := p.mask &&& ~~~out
        strand := p.strand &&& ~~~out
        writes := p.writes.filter fun w => !out.getLsbD w.1
        excs := p.excs.filter fun w => !out.getLsbD w.1 }
    let c : Crew := { c.quit out with
      fibres := c.fibres.mapIdx fun i fb => if out.getLsbD i then leave i fb else fb
      pend := c.pend.map drop }
    if left == 0 then { c with tr := none }
    else
      let reads : List ReadLine := (t.reads.map fun r => { r with members := r.members &&& left }).filter fun r => r.members != 0#32
      { c with
        tr := some { t with
          members := left
          reads := reads
          buf := t.buf.filter fun e => t.crewMode || left.getLsbD e.slot
          bufHandles := t.bufHandles.filter fun h => left.getLsbD h.2 } }

/-- Map every crew of every block. -/
def State.mapCrews (s : State) (g : Nat → Nat → Crew → Crew) : State :=
  { s with blocks := s.blocks.map fun b => { b with crews := b.crews.mapIdx fun i c => g b.bid i c } }

/-- A write to a line fires its monitors (R348) and aborts the members that have read it (R364). -/
def Crew.seeWrite (c : Crew) (own : Mask) (lines : List Nat) : Crew :=
  let c : Crew := { c with fibres := c.fibres.map fun fb =>
    match fb.monitor with
    | .armed l => if lines.contains l then { fb with monitor := .fired } else fb
    | _ => fb }
  match c.tr with
  | none => c
  | some t =>
    if own &&& t.members != 0 then c
    else
      let hit := t.reads.foldl (fun m r => if lines.contains r.line then m ||| r.members else m) (0 : Mask)
      c.abortTry hit (abortWord 1 0)

/-- A write ends a system core's reservation of a double word that it meets. -/
def SysCore.seeWrite (c : SysCore) (phys n : Nat) : SysCore := { c with resv := c.resv.filter fun a => !overlap a 8 phys n }
/-- A write ends a queue core's reservation of a word that it meets. -/
def QueueCore.seeWrite (c : QueueCore) (phys n : Nat) : QueueCore := { c with resv := c.resv.filter fun a => !overlap a 4 phys n }

/-- A physical range holds bytes of the code object of a task. -/
def State.codeAt (s : State) (t : Task) (phys n : Nat) : Bool :=
  (List.range ((Ent.len t.code + 63) / 64)).any fun k => match formIa t.code (Ent.base t.code) (64 * k) with
    | some ia => (match s.place ia with | .ok p => overlap p.phys 64 phys n | .error _ => false)
    | none => false
/-- A write to a code object from which a placed task fetches leaves each fetch of the bytes their old values beside the new ones (R82). -/
def State.noteCode (s : State) (phys n : Nat) : State :=
  let by_ := s.tasks.filter fun t => t.phase == .placed && !t.rec_.service && s.codeAt t phys n
  { s with codeOld := (by_.flatMap fun t => (List.range n).map fun i => (t.uid, phys + i, s.byte (phys + i))) ++ s.codeOld }

/-- Perform a write (R315): the bytes, line poison (R472), ownership (R322), L1 copies, the parameter caches (R263), the
monitors and the tries. -/
def State.storeBytes (s : State) (ag : Agent) (ia phys : Nat) (data : List Byte) : State :=
  let n := data.length
  let s := (s.noteCode phys data.length).setBytes phys data
  let s : State := { s with poison := s.poison.filter fun l => !(phys ≤ 64 * l && 64 * l + 64 ≤ phys + n) }
  let words := (List.range ((ia % 4 + n + 3) / 4)).map (ia / 4 + ·)
  let s : State := { s with
    cores := s.cores.mapIdx fun k c =>
      { c with
        params := c.params.filter fun l => !(linesOf ia n).contains l
        l1 := if ag.core == some k then
            words.foldl (fun l w => match Sparse.find? l w with
              | some v => Sparse.insert w (ofBytes 32 (s.bytes (phys - ia % 4 + 4 * (w - ia / 4)) 4), v.2) l
              | none => l) c.l1
          else c.l1.filter fun x => !(words.contains x.1 && Sparse.find? s.owners x.1 == some k) }
    owners := words.foldl (fun l w => match ag.core with | some k => Sparse.insert w k l | none => Sparse.erase w l) s.owners
    qcores := s.qcores.map (·.seeWrite phys n)
    scores := s.scores.map (·.seeWrite phys n) }
  let members (s : State) : Mask := match s.curCrew.tr with | some t => t.members | none => 0
  let s' := s.mapCrews fun b i c => c.seeWrite
    (match ag with
     | .fibre b' i' sl _ => if b == b' && i == i' then (1#32 <<< sl) else 0
     | .commit b' i' _ => if b == b' && i == i' then BitVec.allOnes 32 else 0
     | .other => 0) (linesOf ia n)
  -- fibres that a conflict has just aborted are no longer part of the strand in execution
  { s' with cur := { s'.cur with mask := s'.cur.mask &&& ~~~(members s &&& ~~~members s') } }

/-- A store by an agent to a checked place: on a peer-store page it leaves as a UIO write (R442), elsewhere it is performed. -/
def State.store (s : State) (ag : Agent) (task : Nat) (op : Option Nat) (a : Acc) (stream : Bool) (data : List Byte) : State :=
  match a.place.peer with
  | some lease =>
    let s := s.note a true stream
    let t := s.task task
    { (s.emit (.uio s.nextId lease a.ia data)) with
        peerStores := s.peerStores ++ [{ id := s.nextId, task := task, ctx := t.ctx, tid := t.tid, tag := t.rec_.tag, lease := lease, ia := a.ia, op := op, sentAt := s.devTime.toNat }]
        nextId := s.nextId + 1
        ops := s.ops.map fun o => if some o.id == op then { o with unacked := o.unacked + 1 } else o }
  | none => (s.note a true stream).storeBytes ag a.ia a.place.phys data

/-- A matrix lock holds a line of a range (R291). -/
def State.lineLocked (s : State) (ia n : Nat) : Bool := s.ops.any fun o => o.memLocks.any fun l => (linesOf ia n).contains l
/-- Send the snoops that an access to lines lent out needs (R333). -/
def State.sendSnoops (s : State) (phys n : Nat) : State :=
  s.leases.foldl (fun s x =>
    if x.2.st == .active && !x.2.borrowed then
      let ls := x.2.cached.filter fun l => overlap (poolBase + x.2.poolg * 2 ^ 28 + l * 64) 64 phys n &&
        !(x.2.snoops.any (·.1 == l))
      ls.foldl (fun s l => { (s.emit (.snoop x.2.id l)) with leases := s.leases.map fun y =>
        if y.1 == x.1 then (y.1, { y.2 with snoops := y.2.snoops ++ [(l, s.devTime.toNat)] }) else y }) s
    else s) s
/-- Step 4 of a quiesce has been reached: no translation command and no expansion starts until the part runs again (R453). -/
def State.stilled (s : State) : Bool :=
  match s.ck.st with
  | .quiescing => s.ck.still
  | .quiesced | .writing | .written => true
  | _ => false
/-- What an access that cannot be made sets going: the expansion of a COMPRESSED page when none is in progress (R231, R234, R453), or the snoops of a
line lent out (R333); the answer of a lender has been used. -/
def State.setGoing (s : State) (e : Event) : State :=
  let ia := e.arg1.toNat
  if e.cause == causeCompressed then
    if s.stilled then s else s.updMtu (ia / 2 ^ 49) fun m => if m.expanding.any (·.1 == pageKey ia) then m else { m with expanding := m.expanding ++ [(pageKey ia, false)] }
  else if e.cause == causeWait || e.cause == causeLeaseLost then
    match s.place ia with
    | .ok p => if p.phys < remoteBase then s.sendSnoops (p.phys - p.phys % 64) 64 else { s with free := s.free + 2 }
    | .error _ => s
  else s
/-- The part's own access to a range must wait: a write for a matrix lock (R291), either for a line that is lent out or borrowed (R333). Then the
state with what the wait has set going. -/
def State.ownWait (s : State) (ia n : Nat) (write : Bool) : Option State :=
  (linesOf ia n).findSome? fun l =>
    if write && s.lineLocked (64 * l) 64 then some s
    else match s.checkPlace (64 * l) 64 .write with
      | .error c => if c == causeWait then some (s.setGoing { cause := c, arg1 := BitVec.ofNat 64 (64 * l) }) else none
      | .ok _ => none

/-- An acquire on a core by a block (R319, R204, R36). -/
def State.acquire (s : State) (core bid : Nat) : State :=
  let s := s.updCore core fun k => { k with
    l1 := k.l1.filter fun x => Sparse.find? s.owners x.1 == some core
    handles := k.handles.map fun h => (h.1, h.2.1, none) }
  s.updBlock bid fun b => { b with windows := b.windows.map fun w => w.map fun w =>
    { w with
      valid := w.valid.filter fun l => w.dirty.any fun d => d / 64 == l
      again := w.valid.filter fun l => w.dirty.any fun d => d / 64 == l } }

/-- Write bytes of IA space for the part itself, each through its own page; a byte no page holds is dropped. -/
def State.iaWrite (s : State) (ia : Nat) (data : List Byte) : State :=
  let s := s.noteOwn ia data.length true
  match s.ownPlace ia with
  | .ok p => if ia % 65536 + data.length ≤ 65536 then s.storeBytes .other ia p.phys data else
      (data.zipIdx).foldl (fun s x => match s.ownPlace (ia + x.2) with
        | .ok q => s.storeBytes .other (ia + x.2) q.phys [x.1]
        | .error _ => s) s
  | .error _ => s

/-! ### Records (R400 to R404, R448 to R450) -/

def Context.ringFull (c : Context) : Bool := c.trlog != 0 && (c.trprod - c.trcons).toNat ≥ 2 ^ c.trlog

/-- A trap record (R403), `now` being the time of an event that did not wait. `flags`: PARKED 1, TERMINATED 2, HANDLED 4, NESTED 8. -/
def trapRecord (ctx : Nat) (prod now : DWord) (e : Event) (tid tag : Word) (crew bx byy : Nat) (phase : BitVec 16) (flags : Nat) : BitVec 512 :=
  seal64 (at_ 512 0 8 1 ||| at_ 512 8 8 e.cause.toNat ||| at_ 512 16 4 e.src.toNat ||| at_ 512 20 4 flags |||
    at_ 512 24 8 e.slot.toNat ||| at_ 512 32 32 tid.toNat ||| at_ 512 64 32 tag.toNat ||| at_ 512 96 32 e.pc.toNat |||
    at_ 512 128 8 crew ||| at_ 512 136 8 bx ||| at_ 512 144 8 byy ||| at_ 512 152 6 ctx ||| at_ 512 160 16 phase.toNat |||
    at_ 512 192 64 e.ref.toNat ||| at_ 512 256 64 e.arg0.toNat ||| at_ 512 320 64 e.arg1.toNat |||
    at_ 512 384 64 (e.time.getD now).toNat ||| at_ 512 448 32 prod.toNat)

/-- Core clock of a block's core. -/
def State.clkOf (s : State) (bid : Nat) : Nat := (s.core (s.block bid).core).clk.toNat
/-- Where a context's next trap record goes. -/
def Context.recordAt (c : Context) : Nat := c.trbase + 64 * (c.trprod.toNat % 2 ^ c.trlog)
/-- A record of a context must wait: its ring is full, which sets LOST and STALLED, or its slot cannot be written now (R291, R333, R402). -/
def State.recordWait (s : State) (ctx : Nat) : Option State :=
  let c := s.ctx ctx
  if c.trlog == 0 then none
  else if c.ringFull then some (s.updCtx ctx fun c => { c with lost := true, stalled := true })
  else s.ownWait c.recordAt 64 true
/-- Put a record in a context's trap ring that has room; with TRLOG = 0 it is discarded and LOST is set (R401, R402). -/
def State.putRecord (s : State) (ctx : Nat) (r : BitVec 512) : State :=
  let c := s.ctx ctx
  if c.trlog == 0 then s.updCtx ctx fun c => { c with lost := true }
  else (s.iaWrite c.recordAt (toBytes 64 r)).updCtx ctx fun c => { c with trprod := c.trprod + 1 }

/-- A block on a core, or else as its task's save holds it. -/
def State.blockOrSaved (s : State) (bid : Nat) : Block :=
  match s.blocks.find? (·.bid == bid) with
  | some b => b
  | none => (s.tasks.findSome? fun t => t.kept.blocks.find? (·.bid == bid)).getD noBlock
/-- A record of a strand or an engine operation of a block, which may have been saved since (R408). -/
def State.blockRecord (s : State) (bid ci : Nat) (e : Event) (flags : Nat) : State :=
  let b := s.blockOrSaved bid
  let t := s.task b.task
  s.putRecord t.ctx (trapRecord t.ctx (s.ctx t.ctx).trprod s.devTime e t.tid t.rec_.tag ci b.bx b.byy
    (((b.barriers[0]?).map (·.phase)).getD 0) flags)

/-- Write a record that has waited, or one of no block. -/
def State.putLate (s : State) (r : LateRecord) : State :=
  s.putRecord r.ctx (trapRecord r.ctx (s.ctx r.ctx).trprod s.devTime r.ev r.tid r.tag r.crew r.bx r.byy r.phase r.flags)
/-- The waiting record of work of a block that ends before it could be written: no record is dropped (R402). -/
def State.lateOf (s : State) (b : Block) (ci : Nat) (e : Event) (flags : Nat) : LateRecord :=
  let t := s.task b.task
  { ctx := t.ctx, ev := e, tid := t.tid, tag := t.rec_.tag, flags := flags, crew := ci, bx := b.bx, byy := b.byy
    phase := ((b.barriers[0]?).map (·.phase)).getD 0 }
/-- A record of the hub, a service, the collective engine or a peer store: written now, or held while the ring is full or earlier ones
of the context are held, so that each producer's records keep their order (R401, R402). -/
def State.hubRecord (s : State) (ctx : Nat) (e : Event) (tid tag : Word) (flags : Nat := 0) : State :=
  let r : LateRecord := { ctx := ctx, ev := e, tid := tid, tag := tag, flags := flags }
  if (s.recordWait ctx).isSome || s.records.any (·.ctx == ctx) then
    let s := (s.recordWait ctx).getD s
    { s with records := s.records ++ [{ r with ev := { e with time := some s.devTime } }] }
  else s.putLate r

/-- A context's profile buffer is disabled, or full with the records that wait for it (R449). -/
def State.profileFull (s : State) (ctx : Nat) : Bool :=
  let c := s.ctx ctx
  c.pflog == 0 || (c.pfprod - c.pfcons).toNat + s.profQueue.countP (·.1 == ctx) ≥ 2 ^ c.pflog
/-- Where a context's next profile record goes. -/
def Context.profileAt (c : Context) : Nat := c.pfbase + 64 * (c.pfprod.toNat % 2 ^ c.pflog)
/-- Write a profile record: its bytes, then PFPROD (R401, R448). -/
def State.putProfile (s : State) (ctx : Nat) (r : BitVec 512) : State :=
  (s.iaWrite (s.ctx ctx).profileAt (toBytes 64 r)).updCtx ctx fun c => { c with pfprod := c.pfprod + 1 }
/-- Append a record to a context's profile buffer, or count it as dropped. Neither PROF nor retirement waits: a record whose line is locked, lent
out or out of reach is kept until it can be written (R291, R333, R449). -/
def State.profileRecord (s : State) (ctx : Nat) (r : BitVec 512) : State :=
  if s.profileFull ctx then s.updCtx ctx fun c => { c with pfdrop := c.pfdrop + 1 }
  else if s.profQueue.any (·.1 == ctx) then { s with profQueue := s.profQueue ++ [(ctx, r)] }
  else match s.ownWait (s.ctx ctx).profileAt 64 true with
    | some t => { t with profQueue := t.profQueue ++ [(ctx, r)] }
    | none => s.putProfile ctx r
/-- The oldest profile record that need not wait on is written; one whose buffer software has disabled meanwhile is dropped. -/
def State.serveProfile (s : State) : State :=
  let wait (x : Nat × BitVec 512) : Option State := if (s.ctx x.1).pflog == 0 then none else s.ownWait (s.ctx x.1).profileAt 64 true
  match s.profQueue.find? fun x => (wait x).isNone with
  | some x =>
    let t : State := { s with profQueue := s.profQueue.erase x }
    if (s.ctx x.1).pflog == 0 then t.updCtx x.1 fun c => { c with pfdrop := c.pfdrop + 1 } else t.putProfile x.1 x.2
  | none => (s.profQueue.head?.bind wait).getD s

/-! ### Held rows, draining and termination -/

/-- How long an open row has been open, in ns. -/
def State.openFor (s : State) (r : RowSlot) : Nat := if r.opened then s.devTime.toNat - r.openFrom else 0
/-- A DRAM row's open time since its neighbours were last refreshed (R242). -/
def State.pressOf (s : State) (r : RowSlot) : Nat := Sparse.get (fun _ => 0) s.rowPress r.key + s.openFor r
/-- A row closes: its open time goes into its press budget (R242). -/
def State.pressRow (s : State) (r : RowSlot) : State := { s with rowPress := Sparse.put (fun _ => 0) s.rowPress r.key (s.pressOf r) }
/-- Drop a hold-table entry that is HELD, or that waits to be held again after a restore: the slot is freed and the epoch rises (R243, R244). -/
def State.dropHold (s : State) (bid h : Nat) : State :=
  let e := ((s.block bid).holds[h]?).getD {}
  if !e.held && e.reopenBy.isNone then s
  else
    let s := s.updBlock bid fun b =>
      { b with holds := b.holds.modify h fun x => { x with held := false, epoch := x.epoch + 1, reopenBy := none } }
    if !e.held then s
    else match Sparse.find? s.rowSlots e.slot with
      | some r => { s.pressRow r with rowSlots := Sparse.erase e.slot s.rowSlots }
      | none => s
def State.dropHolds (s : State) (bid : Nat) : State :=
  (List.range (s.block bid).holds.length).foldl (fun s h => s.dropHold bid h) s

/-- A pending result still owed by an engine (ACCROW, SKSEL). -/
def Crew.owed (c : Crew) : Bool := c.pend.any fun p => p.op.isSome && !p.replay
/-- Complete every drained instruction and move the replay-eligible ones to the replay queue (R397), in issue order: entries that
still wait to be re-injected were issued later, and those a handler has not yet left were issued earlier. The window of a captured
instruction ends (R111, R398), and a trap that a captured result raised is raised again when it is re-injected. -/
def Crew.drain (c : Crew) (keep : Bool) : Crew :=
  let elig : List Replay := (c.pend.filter (·.replay)).map fun p =>
    { pc := p.pc, word := p.word, mask := p.mask, srcA := p.srcA, srcB := p.srcB, handler := c.frame.isSome }
  let ids := (c.pend.filter (·.replay)).map (·.id)
  let c := (c.pend.filter fun p => !p.replay && p.op.isNone).foldl Crew.writeBack c
  { c with
    fibres := c.fibres.map fun fb => { fb with windows := fb.windows.filter fun w => !ids.contains w.id }
    pendTraps := c.pendTraps.filter (·.faulting.isNone)
    rowWait := none
    pend := c.pend.filter fun p => !p.replay
    replay := if !keep then [] else if c.frame.isSome then c.replay ++ elig else elig ++ c.replay }

/-- Stop an engine operation whose block ends (R394): one that has not started, or that the transfer unit or the sketch engine
works on, ends ABORTED, with the sectors it has done for its count (R255); a matrix operation in its multiply phase and a collective run on. -/
def EngineOp.cut (o : EngineOp) : EngineOp :=
  if o.phase == .ended || o.cls == 5 || o.phase == .multiplied then o
  else { o with phase := .ended, status := max o.status 3, locked := [], memLocks := [], pendRec := none }

/-- Records of a block that still wait when it ends (R402): of its strands' traps, with TERMINATED, and of the operations that are cut. -/
def State.blockLate (s : State) (b : Block) (ops : List EngineOp) : List LateRecord :=
  (b.crews.zipIdx.flatMap fun c => c.1.pendTraps.map fun p => s.lateOf b c.2 p.ev (2 + if c.1.frame.isSome then 8 else 0)) ++
  ops.filterMap fun o => if o.blk == b.bid && o.pendRec != o.cut.pendRec then o.pendRec.map fun e => s.lateOf b o.crew e 1 else none
/-- Terminate a block (R394): every fibre ends, tries end without a word, holds are dropped. -/
def State.terminate (s : State) (bid status : Nat) : State :=
  let b := s.block bid
  if b.terminated then s
  else
    let s := s.dropHolds bid
    let s : State := { s with records := s.records ++ s.blockLate b s.ops }
    let s := s.updBlock bid fun b => { b with
      terminated := true, stopped := false
      crews := b.crews.map fun c =>
        let c := c.drain false
        { c with replay := [], tr := none, frame := none, pendTraps := [], fatals := [], pend := [], rotating := [], yieldAbove := none, partway := []
                 fibres := c.fibres.map fun fb => { fb with st := .free, wait := .none, windows := [], monitor := .clear, acted := false } } }
    let s : State := { s with ops := s.ops.map fun (o : EngineOp) => if o.blk == bid then o.cut else o }
    s.updTask b.task fun t => { t with status := max t.status status }
def State.terminateTask (s : State) (uid status : Nat) : State :=
  ((s.blocks.filter (·.task == uid)).map (·.bid)).foldl (fun s b => s.terminate b status) s

/-! ### Debug stops (R416, R417) -/

/-- One barrier's entry in a dump record: PHASE, ARRIVED, EXPECT and MASK. -/
def dumpBarrier (b : Barrier) : Nat :=
  b.mask.toNat + b.phase.toNat * 2 ^ 32 + b.arrived * 2 ^ 48 + b.expect * 2 ^ 54
/-- Origin of the subgroup of a shape that holds a block. -/
def subOrigin (bx byy w h : Nat) : Nat × Nat := (bx / w * w, byy / h * h)
/-- This block's instance of rectangle barrier b (R344). -/
def State.rectBar (s : State) (bid b : Nat) : RectBar :=
  let bl := s.block bid
  let t := s.task bl.task
  match t.rbarShape.find? (·.1 == b) with
  | none => ⟨b, 0, 0, 0, 0, []⟩
  | some (_, w, h) =>
    let o := subOrigin bl.bx bl.byy w h
    (t.rbars.find? fun r => r.b == b && r.sx == o.1 && r.sy == o.2).getD ⟨b, o.1, o.2, 0, 0, []⟩
def dumpRect (r : RectBar) (bid : Nat) : Nat :=
  (((r.masks.find? fun x => x.1 == bid).map fun x => x.2).getD 0#32).toNat + r.phase.toNat * 2 ^ 32 + r.arrived * 2 ^ 48

/-- The 256-byte dump record of a block (R417). -/
def State.dumpRecord (s : State) (bid code : Nat) : BitVec 2048 :=
  let b := s.block bid
  let t := s.task b.task
  at_ 2048 0 8 1 ||| at_ 2048 8 8 code ||| at_ 2048 16 8 b.bx ||| at_ 2048 24 8 b.byy ||| at_ 2048 32 32 t.tid.toNat |||
    at_ 2048 64 32 t.rec_.tag.toNat ||| at_ 2048 192 64 s.devTime.toNat |||
    ((List.range 16).foldl (fun v i => v ||| at_ 2048 (256 + 64 * i) 64 (dumpBarrier ((b.barriers[i]?).getD {}))) 0) |||
    ((List.range 4).foldl (fun v i => v ||| at_ 2048 (1280 + 64 * i) 64 (dumpRect (s.rectBar bid i) bid)) 0)

/-- Where a context's next dump record goes (R417). -/
def Context.dumpAt (c : Context) : Nat := c.dumpbase + 256 * (c.dumpcnt.toNat % 16)
/-- Halt a block in place (R416): tries abort with PREEMPT, results drain or are captured, and a dump record is written. -/
def State.debugStop (s : State) (bid code : Nat) : State :=
  let b := s.block bid
  let t := s.task b.task
  let s := s.updBlock bid fun b => { b with stopped := true, crews := b.crews.map fun c =>
    ((c.abortTry 0xFFFFFFFF (abortWord 6 2)).drain true) }
  let c := s.ctx t.ctx
  (s.iaWrite c.dumpAt (toBytes 256 (s.dumpRecord bid code))).updCtx t.ctx
    fun c => { c with dumpcnt := c.dumpcnt + 1 }

/-! ### Taking a trap or fault (R368, R393 to R396) -/

/-- What becomes of a strand's trap or fault (R393). -/
inductive Disposition where
  | park | recordOnly | debugStop | endTask | endBlock (nested : Bool) | handler
  deriving DecidableEq, Repr

def State.disposition (s : State) (bid ci : Nat) (e : Event) : Disposition :=
  let t := s.task (s.block bid).task
  if e.cause.toNat < 0x10 then .park
  else if e.cause == causeCollTimeout then .recordOnly
  else if e.cause == causeDebugStop || (e.cause == causeBkpt && (s.ctx t.ctx).dbgen) then .debugStop
  else if (s.crew bid ci).frame.isSome then .endBlock true
  else match t.rec_.fpol with
    | 0 => .endTask
    | 1 => .endBlock false
    | _ => .handler

/-- Enter the in-core handler (R395): the trap frame is filled and the strand moves to HPC. Members of an open try abort first. A precise trap
of its fibres that still waits is raised again with its instruction (R396). A rotation in progress, and what a YIELD seeks, end (DESIGN
CHOICE, log 80: R106 does not say). `faulting` names the pending result that faulted; the frame holds its number in the replay queue (R397). -/
def Crew.enterHandler (c : Crew) (mask : Mask) (hpc : Word) (e : Event) (faulting : Option Nat) : Crew :=
  let pcs := c.fibres.map (·.pc)
  let c := c.abortTry 0xFFFFFFFF (abortWord 5 e.cause.toNat)
  let number := faulting.bind fun id => (c.pend.filter (·.replay)).findIdx? (·.id == id)
  let c := c.drain true
  let c : Crew := { c with pendTraps := c.pendTraps.filter fun p => p.mask &&& mask == 0 || p.late }
  { c.mapMask mask fun i fb => { fb with
      st := .runnable, wait := .none, windows := [], pc := hpc, past := false, acted := false, fenceFrom := none, tornAt := none
      framePc := (pcs[i]?).getD 0, frameActed := fb.acted }
    with frame := some { cause := e.cause, src := e.src, slot := e.slot, ref := e.ref, arg0 := e.arg0, set := mask, faulting := number }
         rotating := [], yieldAbove := none }

/-- The POISON that a drained ACCROW raises in place of the event that causes the drain (R299, R397). -/
def Crew.poisoned (c : Crew) : Option Pending := c.pend.find? fun p => p.poison.isSome && p.op.isNone
/-- The POISON of a drained result, raised for its strand: SLOT is the lowest slot that read a poisoned line (R199, R299). -/
def Pending.poisonEvent (p : Pending) : Event := { cause := causePoison, pc := p.pc, slot := BitVec.ofNat 8 (p.poison.getD 0xFF) }
/-- NESTED of the record of an event raised in handler mode (R403). -/
def Crew.nested (c : Crew) : Nat := if c.frame.isSome then 8 else 0
/-- Carry out the disposition of a trap whose record has room: the record first, then its effect (R393). A park ends the strand's windows too
(DESIGN CHOICE, log 80: R111's "traps" is taken to include a retry-class fault). -/
def State.disposeOf (s : State) (bid ci : Nat) (mask : Mask) (e : Event) (faulting : Option Nat) : State :=
  let t := s.task (s.block bid).task
  let nested := (s.crew bid ci).nested
  match s.disposition bid ci e with
  | .park =>
    (s.blockRecord bid ci e (1 + nested)).updCrew bid ci fun c =>
      { c with rowWait := c.rowWait.filter fun w => w.mask &&& mask == 0 }.mapMask mask fun _ fb => { fb with st := .parked, windows := [], tornAt := none, parkPage := pageKey e.arg1.toNat, parkLost := e.cause == causeLeaseLost }
  | .recordOnly => s.blockRecord bid ci e 0
  | .debugStop =>
    ((s.blockRecord bid ci { e with cause := causeDebugStop } nested).updCrew bid ci fun c =>
      c.mapMask mask fun _ fb => { fb with windows := [] }).debugStop bid e.arg0.toNat
  | .endTask => (s.blockRecord bid ci e 2).terminateTask t.uid 2
  | .endBlock _ => (s.blockRecord bid ci e (2 + nested)).terminate bid 4
  | .handler =>
    if mask == 0 then (s.blockRecord bid ci e 2).terminate bid 4
    else (s.blockRecord bid ci e 4).updCrew bid ci fun c => c.enterHandler mask t.rec_.hpc e faulting

/-- The drained POISON that is delivered in place of an event: of the trapping crew, or of any crew of a block that a debug stop halts
(R397, R416). -/
def State.displacing (s : State) (bid ci : Nat) (e : Event) : Option (Nat × Pending) :=
  if e.cause.toNat < 0x10 then none
  else match (s.crew bid ci).poisoned with
    | some p => some (ci, p)
    | none =>
      if s.disposition bid ci e == .debugStop then ((s.block bid).crews.zipIdx).findSome? fun c => c.1.poisoned.map fun p => (c.2, p)
      else none
/-- A trap that drains the crew gives way to the POISON of a drained ACCROW; it is raised again with its instruction (R397). -/
def State.dispose (s : State) (bid ci : Nat) (mask : Mask) (e : Event) (faulting : Option Nat) : State :=
  match s.displacing bid ci e with
  | some (k, p) =>
    (s.updCrew bid k fun c => { c with pend := c.pend.filter (·.id != p.id) }).disposeOf bid k p.strand p.poisonEvent none
  | none => s.disposeOf bid ci mask e faulting
/-- A crew that the compactor moves, that is not yet filled, whose commit step has begun or that stands in the middle of an instruction: it
stops when that ends (R335, R369, R407). -/
def Crew.unsettled (c : Crew) : Bool := c.live && (c.moving || !c.filled || c.tr.any (·.begun) || !c.partway.isEmpty)
/-- Some fibre of the mask stands in the middle of an instruction, before whose end its strand takes no trap (R335). -/
def Crew.midway (c : Crew) (m : Mask) : Bool := c.partway.any fun w => w.mask &&& m != 0
/-- A trap must wait for the place of its record (R396, R402), or of the dump record of a debug stop. -/
def State.trapPlace (s : State) (bid ci : Nat) (e : Event) : Option State :=
  let ctx := (s.task (s.block bid).task).ctx
  match s.recordWait ctx with
  | some t => some t
  | none => if s.disposition bid ci e == .debugStop then s.ownWait (s.ctx ctx).dumpAt 256 true else none
/-- Whether a trap must wait: for the place of its records, for the end of its crew's move (R71), or for a drained instruction that an engine still owes, of
any crew of the block for a debug stop (R397, R416). -/
def State.mustWait (s : State) (bid ci : Nat) (e : Event) : Bool :=
  (s.trapPlace bid ci e).isSome || (s.crew bid ci).moving ||
  (0x10 ≤ e.cause.toNat && ((s.crew bid ci).owed ||
    (s.disposition bid ci e == .debugStop && (s.block bid).crews.any fun c => c.owed || c.unsettled)))

/-- A trap of some fibre of the mask waits for its record (R396). -/
def Crew.trapWaits (c : Crew) (m : Mask) : Bool := c.pendTraps.any fun p => p.mask &&& m != 0
/-- A trap is one of an open try: its strand holds a guard-true member, and it is not TRY_MISUSE (R368). -/
def Crew.inTry (c : Crew) (mask act : Mask) (e : Event) : Bool :=
  e.cause != causeTryMisuse && c.tr.any fun t => act &&& mask &&& t.members != 0
/-- A trap cannot take effect yet: inside a try, until its crew's move ends; else as `State.mustWait` says (R71, R396). -/
def State.trapStays (s : State) (bid ci : Nat) (p : PendTrap) : Bool :=
  if (s.crew bid ci).inTry p.mask p.act p.ev then (s.crew bid ci).moving
  else s.mustWait bid ci p.ev || (s.crew bid ci).midway p.mask
/-- A trap that need not wait takes effect: inside an open try the members abort and the instruction is taken again for the rest (R368);
otherwise it is disposed of. -/
def State.takeTrap (s : State) (bid ci : Nat) (p : PendTrap) : State :=
  if (s.crew bid ci).inTry p.mask p.act p.ev then
    s.updCrew bid ci fun c => c.abortTry p.mask (abortWord (if p.ev.cause.toNat < 0x20 then 4 else 5) p.ev.cause.toNat)
  else s.dispose bid ci p.mask p.ev p.faulting
/-- The POISON of a drained result comes in place of the waiting traps that drain the crew; each is raised again with its instruction (R397). -/
def Crew.displace (c : Crew) : Crew := { c with pendTraps := c.pendTraps.filter fun p => p.ev.cause.toNat < 0x10 || p.late }
/-- TAKE a trap or fault of a strand: `mask` is the strand, `act` its guard-true fibres; or let it wait. -/
def State.trap (s : State) (bid ci : Nat) (mask act : Mask) (e : Event) (faulting : Option Nat := none) (late : Bool := false) : State :=
  let p : PendTrap := { ev := e, mask := mask, act := act, faulting := faulting, late := late }
  let inTry := (s.crew bid ci).inTry mask act e
  let s := if late && !inTry then s.updCrew bid ci (·.displace) else s
  -- a strand's records keep the order of its events (R401)
  if s.trapStays bid ci p || (!inTry && (s.crew bid ci).trapWaits mask) then
    let s := if inTry then s else (s.trapPlace bid ci e).getD s
    s.updCrew bid ci fun c => { c with pendTraps := c.pendTraps ++ [{ p with ev := { e with time := some s.devTime } }] }
  else s.takeTrap bid ci p
/-- The waiting trap that is delivered next: in handler mode one of the handler's own strand, since the other strands have stopped
(R395, R396). -/
def Crew.nextTrap (c : Crew) : Option PendTrap :=
  match c.frame with
  | none => c.pendTraps.head?
  | some fr => c.pendTraps.find? fun p => p.mask &&& fr.set != 0 || p.mask == 0

/-- The instruction in execution raises a trap or fault for its strand, precisely (R83, R199): SLOT and PC are filled in; a trap
of the strand as a whole names no slot (log 8). An access that must wait stalls it (class MEMORY). A re-injected entry goes back to the replay queue (R398). -/
def State.raise (s : State) (f : Fields) (slot : Option Nat) (e : Event) : Result :=
  let e := { e with pc := s.cur.pc, slot := match slot with | some i => BitVec.ofNat 8 i | none => 0xFF }
  let s := s.setGoing e
  if e.cause == causeWait then .next (s.updCur fun c => { c with stallClass := 5, replay := s.cur.replay.toList ++ c.replay })
  else if e.cause == causeTornOnce then
    let at_ (fb : Fibre) : Nat × DWord := (fb.tornAt.filter (·.2 == e.ref)).getD (s.clkOf s.cur.blk, e.ref)
    .next (s.updCur fun c => { c.mapMask s.cur.mask fun _ fb => { fb with tornAt := some (at_ fb) } with
      stallClass := 4, replay := s.cur.replay.toList ++ c.replay })
  else match s.cur.replay with
  | none => .next (s.trap s.cur.blk s.cur.crew s.cur.mask (s.actMask f) e)
  | some r =>
    if e.cause.toNat < 0x10 then
      .next ((s.updCur fun c => { c with replay := r :: c.replay }).trap s.cur.blk s.cur.crew r.mask r.mask e)
    else
      -- captured again as the faulting entry; no operation owes it, so nothing writes it back
      let p : Pending := { id := s.nextId, pc := r.pc, word := r.word, replay := true, mask := r.mask, strand := r.mask
                           op := some 0, srcA := r.srcA, srcB := r.srcB }
      let s : State := { s.updCur fun c => { c with pend := c.pend ++ [p] } with nextId := s.nextId + 1 }
      .next (s.trap s.cur.blk s.cur.crew r.mask r.mask e (some p.id))

/-- Every member waits at a COMMIT (R370). -/
def Crew.commitDue (c : Crew) : Bool :=
  match c.tr with
  | none => false
  | some t => (ones t.members).all fun i => (c.fibre i).st == .waiting && (c.fibre i).wait == .commit
/-- ILLEGAL_CONVERGENCE of an instruction that requires a converged strand (R117); with a commit step due it is evaluated only after that
step, so the strand stalls (R371). -/
def State.unconverged (s : State) (f : Fields) : Result :=
  if s.curCrew.commitDue then s.stall 2 else s.raise f none { cause := causeIllegalConvergence }

/-! ### Returning from handler mode (R420) -/

/-- Where a handler-set fibre goes: its frame PC, the next one, or a target of its own. -/
inductive Return where
  | retry | skip | to (reg : Nat)
  deriving DecidableEq, Repr

/-- End handler mode; remaining replay entries are re-injected before any other instruction issues, by `step` (R398). -/
def Crew.leaveHandler (c : Crew) (r : Return) : Crew :=
  match c.frame with
  | none => c
  | some fr => { c.mapMask fr.set fun _ fb =>
      let fb := fb.tick
      match r with
      | .retry => { fb with pc := fb.framePc, past := false, acted := fb.frameActed }
      | .skip => { fb with pc := fb.framePc + 1, past := fb.framePc == 0xFFFFFFFF, acted := false }
      | .to n => { fb with pc := fb.reg n, past := false, acted := false }
    with frame := none, replay := c.replay.filter fun r => !r.dropped }

end Sys2Proof.Machine
end

