-- ==== Sys2Proof/Machine/Flags.lean ====
section
/-! DEFINITION. Floating-point formats, exact values, rounding, and the five exceptions (R151 to R165), shared by every
instruction that computes with floats or sets a flag. -/

namespace Sys2Proof.Machine
open Bits

/-- A float value (R152): a NaN with its mantissa aligned to F32's 23 bits, an infinity, or (-1)^neg × m × 2^e. -/
inductive FVal where
  | nan (neg : Bool) (payload : Nat) (signalling : Bool)
  | inf (neg : Bool)
  | fin (neg : Bool) (m : Nat) (e : Int)
  deriving DecidableEq, Repr

/-- Exponent bits, mantissa bits and bias of a TYPE code (R91, R151). -/
def fmtE : Nat → Nat | 8 => 8 | 9 => 5 | 10 => 8 | 11 => 4 | 12 => 5 | 13 => 2 | 14 => 3 | _ => 2
def fmtM : Nat → Nat | 8 => 23 | 9 => 10 | 10 => 7 | 11 => 3 | 12 => 2 | 13 => 3 | 14 => 2 | _ => 1
def fmtBias : Nat → Nat | 8 => 127 | 9 => 15 | 10 => 127 | 11 => 7 | 12 => 15 | 13 => 1 | 14 => 3 | _ => 1
/-- F32, F16, BF16 and E5M2 have infinities and NaNs as IEEE 754 gives. -/
def fmtIeee (t : Nat) : Bool := t == 8 || t == 9 || t == 10 || t == 12
/-- Width of a format. -/
def fmtW (t : Nat) : Nat := 1 + fmtE t + fmtM t
/-- Mask of the formats that DAZ and FTZ touch (R163). -/
def fmtFlush (t : Nat) : Bool := t == 8 || t == 9 || t == 10

def fSign (t b : Nat) : Bool := b / 2 ^ (fmtE t + fmtM t) % 2 == 1
def fExp (t b : Nat) : Nat := b / 2 ^ fmtM t % 2 ^ fmtE t
def fMan (t b : Nat) : Nat := b % 2 ^ fmtM t

/-- The value of an encoding (R152). -/
def decodeF (t b : Nat) : FVal :=
  let s := fSign t b
  let e := fExp t b
  let m := fMan t b
  if fmtIeee t && e == 2 ^ fmtE t - 1 then
    if m == 0 then .inf s else .nan s (m * 2 ^ (23 - fmtM t)) (m < 2 ^ (fmtM t - 1))
  else if t == 11 && e == 15 && m == 7 then .nan s 0x700000 false
  else if e == 0 then .fin s m (1 - (fmtBias t : Int) - fmtM t)
  else .fin s (2 ^ fmtM t + m) ((e : Int) - fmtBias t - fmtM t)

/-- Assemble sign, exponent field and mantissa field. -/
def packF (t : Nat) (s : Bool) (e m : Nat) : Nat := (if s then 2 ^ (fmtE t + fmtM t) else 0) + e * 2 ^ fmtM t + m
/-- Greatest exponent field of a finite number, and its greatest mantissa. -/
def maxField (t : Nat) : Nat := if fmtIeee t then 2 ^ fmtE t - 2 else 2 ^ fmtE t - 1
def maxMan (t : Nat) : Nat := if t == 11 then 6 else 2 ^ fmtM t - 1
def maxF (t : Nat) (s : Bool) : Nat := packF t s (maxField t) (maxMan t)
def infF (t : Nat) (s : Bool) : Nat := packF t s (2 ^ fmtE t - 1) 0
/-- The canonical quiet NaN (R159). -/
def canonF (t : Nat) : Nat := if t == 11 then 0x7F else packF t false (2 ^ fmtE t - 1) (2 ^ (fmtM t - 1))

def excInvalid : BitVec 5 := 1
def excDivZero : BitVec 5 := 2
def excOverflow : BitVec 5 := 4
def excUnderflow : BitVec 5 := 8
def excInexact : BitVec 5 := 16

/-- How a crew's mode register bears on one instruction (R157, R159, R163). -/
structure FEnv where
  rm : Nat := 1
  daz : Bool := false
  ftz : Bool := false
  nanp : Bool := false
  deriving DecidableEq, Repr

/-- Round to nearest even, nothing flushed, canonical NaNs: engines, atomics and collectives (R287, R273, R337). -/
def FEnv.plain : FEnv := {}

/-- The rounding mode in force (R157), with the other mode bits. -/
def Crew.fenv (c : Crew) (rnd : Nat) : FEnv :=
  let m := field c.mode 0 3
  { rm := if rnd != 0 then rnd else if m == 0 then 1 else m, daz := bit c.mode 3, ftz := bit c.mode 4, nanp := bit c.mode 15 }

/-- An operand as read (R163). -/
def FEnv.read (v : FEnv) (t b : Nat) : FVal :=
  if v.daz && fmtFlush t && fExp t b == 0 then .fin (fSign t b) 0 0 else decodeF t b

/-- A result and its exceptions. -/
structure FRes where
  bits : Nat
  exc : BitVec 5 := 0
  deriving DecidableEq, Repr

/-- The result of an overflow (R158, R165). -/
def overflowF (t rm : Nat) (sat s : Bool) : Nat :=
  let away := rm == 1 || rm == 5 || (rm == 3 && !s) || (rm == 4 && s)
  if sat || !away then maxF t s
  else if fmtIeee t then infF t s
  else if t == 11 then packF t s 15 7
  else maxF t s

/-- Whether rounding moves away from zero, from the kept mantissa's parity and the remainder against a half (R157). -/
def roundUp (rm : Nat) (s odd : Bool) (rem half : Nat) (sticky : Bool) : Bool :=
  let inexact := rem != 0 || sticky
  match rm with
  | 1 => half < rem || (rem == half && (sticky || odd))
  | 5 => half ≤ rem
  | 3 => inexact && !s
  | 4 => inexact && s
  | _ => false

/-- Round an exact magnitude m × 2^e (strictly above it by less than one unit when `sticky`) to a format (R157, R158, R162). -/
def roundF (t rm : Nat) (sat s : Bool) (m : Nat) (e : Int) (sticky : Bool := false) : FRes :=
  if m == 0 && !sticky then ⟨packF t s 0 0, 0⟩
  else
    let p : Int := fmtM t
    let top : Int := (Nat.log2 m : Int) + e
    let q : Int := max top (1 - fmtBias t) - p
    let sh := q - e
    let d := 2 ^ sh.toNat
    let kept := if sh ≤ 0 then m * 2 ^ (-sh).toNat else m / d
    let rem := if sh ≤ 0 then 0 else 2 * (m % d)
    let half := if sh ≤ 0 then 1 else d
    let inexact := rem != 0 || sticky
    let k := kept + (if roundUp rm s (kept % 2 == 1) rem half sticky then 1 else 0)
    let carry := k == 2 ^ (fmtM t + 1)
    let k := if carry then 2 ^ fmtM t else k
    let q := if carry then q + 1 else q
    let fld := if k < 2 ^ fmtM t then 0 else (q + p + fmtBias t).toNat
    let man := if k < 2 ^ fmtM t then k else k - 2 ^ fmtM t
    if maxField t < fld || (fld == maxField t && maxMan t < man) then ⟨overflowF t rm sat s, excOverflow ||| excInexact⟩
    else ⟨packF t s fld man, if inexact then (if fld == 0 then excUnderflow ||| excInexact else excInexact) else 0⟩

/-- Flush a tiny result (R163, R169). -/
def FEnv.flush (v : FEnv) (t : Nat) (r : FRes) : FRes :=
  if v.ftz && fmtFlush t && fExp t r.bits == 0 && fMan t r.bits != 0 then
    ⟨packF t (fSign t r.bits) 0 0, r.exc ||| excUnderflow ||| excInexact⟩ else r

/-- A NaN result taken from its operands in the order A, B, C (R159); `none` for an invalid operation on numbers. -/
def FEnv.nanOf (v : FEnv) (t : Nat) (ops : List FVal) : Nat :=
  if !v.nanp then canonF t
  else match ops.find? fun x => match x with | .nan _ _ _ => true | _ => false with
    | some (.nan s p _) =>
      if t == 11 then packF t s 15 7
      else if t == 12 then packF t s 31 2
      else packF t s (2 ^ fmtE t - 1) (2 ^ (fmtM t - 1) ||| p / 2 ^ (23 - fmtM t) % 2 ^ fmtM t)
    | _ => canonF t

def FVal.isNan : FVal → Bool | .nan _ _ _ => true | _ => false
def FVal.isSig : FVal → Bool | .nan _ _ s => s | _ => false
def FVal.neg? : FVal → Bool | .nan s _ _ => s | .inf s => s | .fin s _ _ => s
def FVal.isZero : FVal → Bool | .fin _ m _ => m == 0 | _ => false
def FVal.negate : FVal → FVal
  | .nan s p g => .nan s p g
  | .inf s => .inf (!s)
  | .fin s m e => .fin (!s) m e

/-- The NaN result of operands of which one is a NaN: invalid when any is signalling (R162). -/
def FEnv.nanRes (v : FEnv) (t : Nat) (ops : List FVal) : FRes :=
  ⟨v.nanOf t ops, if ops.any (·.isSig) then excInvalid else 0⟩
/-- An invalid operation on operands that are not NaNs. -/
def invalidRes (t : Nat) : FRes := ⟨canonF t, excInvalid⟩
/-- An exact infinity, clamped by SAT (R165). -/
def infRes (t : Nat) (sat s : Bool) (exc : BitVec 5 := 0) : FRes := ⟨if sat then maxF t s else infF t s, exc⟩

/-- A signed exact value m × 2^e rounded and flushed. -/
def FEnv.round (v : FEnv) (t : Nat) (sat s : Bool) (m : Nat) (e : Int) (sticky : Bool := false) : FRes :=
  v.flush t (roundF t v.rm sat s m e sticky)

/-- An exact sum of signed terms i × 2^e; an exact zero takes `zs`. -/
def FEnv.roundSum (v : FEnv) (t : Nat) (sat : Bool) (i : Int) (e : Int) (zs : Bool) : FRes :=
  if i == 0 then ⟨packF t zs 0 0, 0⟩ else v.round t sat (i < 0) i.natAbs e

/-- A finite value at a common exponent e0 ≤ e. -/
def FVal.scaled (x : FVal) (e0 : Int) : Int :=
  match x with
  | .fin s m e => (if s then -1 else 1) * ((m * 2 ^ (e - e0).toNat : Nat) : Int)
  | _ => 0
def FVal.exp : FVal → Int | .fin _ _ e => e | _ => 0

/-- A + B (R156). -/
def FEnv.add (v : FEnv) (t : Nat) (sat : Bool) (a b : FVal) : FRes :=
  if a.isNan || b.isNan then v.nanRes t [a, b]
  else match a, b with
    | .inf x, .inf y => if x == y then infRes t sat x else invalidRes t
    | .inf x, _ => infRes t sat x
    | _, .inf y => infRes t sat y
    | x, y =>
      let e := min x.exp y.exp
      let zs := if x.isZero && y.isZero && x.neg? == y.neg? then x.neg? else v.rm == 4
      v.roundSum t sat (x.scaled e + y.scaled e) e zs

/-- The exact product of two values that are not NaN; none for ∞ × 0. -/
def mulF (a b : FVal) : Option FVal :=
  match a, b with
  | .fin s m e, .fin s' m' e' => some (.fin (s ^^ s') (m * m') (e + e'))
  | .inf s, y => if y.isZero then none else some (.inf (s ^^ y.neg?))
  | x, .inf s => if x.isZero then none else some (.inf (s ^^ x.neg?))
  | x, _ => some x

/-- A × B. -/
def FEnv.mul (v : FEnv) (t : Nat) (sat : Bool) (a b : FVal) : FRes :=
  if a.isNan || b.isNan then v.nanRes t [a, b]
  else match mulF a b with
    | none => invalidRes t
    | some (.inf s) => infRes t sat s
    | some (.fin s m e) => v.round t sat s m e
    | some (.nan _ _ _) => invalidRes t

/-- A × B + C, rounded once. Whether ∞ × 0 signals beside a quiet NaN C is left open by IEEE 754 (R156): free, log 7. -/
def FEnv.fma (v : FEnv) (t : Nat) (sat : Bool) (a b c : FVal) : FRes :=
  if a.isNan || b.isNan || c.isNan then
    let r := v.nanRes t [a, b, c]
    if Config.fmaNanInvalid && !a.isNan && !b.isNan && (mulF a b).isNone then { r with exc := r.exc ||| excInvalid } else r
  else match mulF a b with
    | none => invalidRes t
    | some p => v.add t sat p c

/-- A ÷ B (R171). -/
def FEnv.div (v : FEnv) (t : Nat) (sat : Bool) (a b : FVal) : FRes :=
  if a.isNan || b.isNan then v.nanRes t [a, b]
  else match a, b with
    | .inf _, .inf _ => invalidRes t
    | .inf s, y => infRes t sat (s ^^ y.neg?)
    | x, .inf s => ⟨packF t (x.neg? ^^ s) 0 0, 0⟩
    | .fin s m e, .fin s' m' e' =>
      if m' == 0 then if m == 0 then invalidRes t else infRes t sat (s ^^ s') excDivZero
      else v.round t sat (s ^^ s') (m * 2 ^ 80 / m') (e - e' - 80) (m * 2 ^ 80 % m' != 0)
    | _, _ => invalidRes t

/-- Integer square root by bits, from bit `n` down. -/
def isqrt (x : Nat) : Nat → Nat → Nat
  | 0, r => r
  | n + 1, r => let c := r + 2 ^ n; isqrt x n (if c * c ≤ x then c else r)

/-- √A (R171). -/
def FEnv.sqrt (v : FEnv) (t : Nat) (sat : Bool) (a : FVal) : FRes :=
  match a with
  | .nan _ _ _ => v.nanRes t [a]
  | .inf s => if s then invalidRes t else infRes t sat false
  | .fin s m e =>
    if m == 0 then ⟨packF t s 0 0, 0⟩
    else if s then invalidRes t
    else
      let sh : Nat := if e % 2 == 0 then 80 else 81
      let x := m * 2 ^ sh
      let r := isqrt x 64 0
      v.round t sat false r ((e - (sh : Int)) / 2) (r * r != x)

/-- Order of two values that are not NaN: -1, 0 or 1; −0 equals +0. -/
def cmpF (a b : FVal) : Int :=
  match a, b with
  | .inf x, .inf y => if x == y then 0 else if x then -1 else 1
  | .inf x, _ => if x then -1 else 1
  | _, .inf y => if y then 1 else -1
  | x, y => let e := min x.exp y.exp; (x.scaled e - y.scaled e).sign

/-- FMIN or FMAX on values (R170); `nanForm` is `.nan`. The bits of an operand pass through as read. -/
def FEnv.minmax (v : FEnv) (t : Nat) (max nanForm : Bool) (ba bb : Nat) : FRes :=
  let fl (b : Nat) : Nat := if v.daz && fmtFlush t && fExp t b == 0 then packF t (fSign t b) 0 0 else b
  let a := v.read t ba
  let b := v.read t bb
  let exc := if a.isSig || b.isSig then excInvalid else 0
  if a.isNan && b.isNan || (nanForm && (a.isNan || b.isNan)) then ⟨v.nanOf t [a, b], exc⟩
  else if a.isNan then ⟨fl bb, exc⟩
  else if b.isNan then ⟨fl ba, exc⟩
  else
    let c := cmpF a b
    let less := c < 0 || (c == 0 && a.neg? && !b.neg?)
    ⟨if less ^^ max then fl ba else fl bb, exc⟩

/-- Round a value to an integer under rm: the integer and whether it changed (R173, R182). -/
def roundInt (rm : Nat) (s : Bool) (m : Nat) (e : Int) : Nat × Bool :=
  if 0 ≤ e then (m * 2 ^ e.toNat, false)
  else
    let d := 2 ^ (-e).toNat
    let kept := m / d
    let rem := 2 * (m % d)
    (kept + (if roundUp rm s (kept % 2 == 1) rem d false then 1 else 0), rem != 0)

/-- A float converted to another format (R181): the table of specials, then rounding. -/
def FEnv.convert (v : FEnv) (t : Nat) (sat : Bool) (a : FVal) : FRes :=
  let inv : BitVec 5 := if a.isSig then excInvalid else 0
  match a with
  | .nan s _ _ =>
    if fmtIeee t then v.nanRes t [a]
    else if t == 11 then ⟨packF t s 15 7, inv⟩
    else ⟨0, excInvalid⟩
  | .inf s =>
    if fmtIeee t then infRes t sat s
    else if t == 11 then ⟨if sat then maxF t s else packF t s 15 7, excInvalid⟩
    else ⟨maxF t s, excInvalid⟩
  | .fin s m e => v.round t sat s m e

/-! ### Transcendentals: reference values in fixed point, and the bounds of R178 -/

/-- π × 2^320 and ln 2 × 2^128, rounded down. -/
def piFix : Nat := 6710401180212168915155840974220003240804194089427148950727106424351713218671805380099500388914039
def ln2Fix : Nat := 235865763225513294137944142764154484399

/-- Σ x^k / k! for fixed-point x (128 fraction bits), from term k on. -/
def expSeries (x : Nat) : Nat → Nat → Nat → Nat
  | 0, _, _ => 0
  | n + 1, k, term => term + expSeries x n (k + 1) (term * x / 2 ^ 128 / (k + 1))
/-- 2^f for a fraction f of 128 bits, as a number with 128 fraction bits. -/
def exp2Frac (f : Nat) : Nat := expSeries (f * ln2Fix / 2 ^ 128) 40 0 (2 ^ 128)
/-- log2 of x in [1, 2), 64 bits of fraction, from x with 128 fraction bits. -/
def log2Bits (x : Nat) : Nat → Nat → Nat
  | 0, r => r
  | n + 1, r =>
    let y := x * x / 2 ^ 128
    if 2 ^ 129 ≤ y then log2Bits (y / 2) n (2 * r + 1) else log2Bits y n (2 * r)
/-- Alternating series for sine (k = 1) and cosine (k = 0), 128 fraction bits. -/
def trigSeries (x2 : Nat) : Nat → Nat → Nat → Int
  | 0, _, _ => 0
  | n + 1, k, term => (term : Int) - trigSeries x2 n (k + 2) (term * x2 / 2 ^ 128 / ((k + 1) * (k + 2)))

/-- A reference value: sign, m × 2^e. -/
abbrev Approx := Bool × Nat × Int

def approxExp2 (s : Bool) (m : Nat) (e : Int) : Approx :=
  let x : Int := (if s then -1 else 1) * (if 0 ≤ e + 128 then ((m * 2 ^ (e + 128).toNat : Nat) : Int) else ((m / 2 ^ (-(e + 128)).toNat : Nat) : Int))
  (false, exp2Frac (x % (2 ^ 128 : Nat)).toNat, x / (2 ^ 128 : Nat) - 128)
def approxLog2 (m : Nat) (e : Int) : Approx :=
  let l := Nat.log2 m
  let r : Int := ((l : Int) + e) * 2 ^ 100 + (log2Bits (m * 2 ^ 128 / 2 ^ l) 100 0 : Nat)
  (r < 0, r.natAbs, -100)
/-- sin or cos of ±m × 2^e: reduced by quarter turns with 320 bits of π. -/
def approxTrig (cos s : Bool) (m : Nat) (e : Int) : Approx :=
  let x := if 0 ≤ e + 320 then m * 2 ^ (e + 320).toNat else m / 2 ^ (-(e + 320)).toNat
  let quarter := piFix / 2
  let k := x / quarter
  let r := x % quarter / 2 ^ 192
  let x2 := r * r / 2 ^ 128
  let sn := trigSeries x2 40 1 r
  let cs := trigSeries x2 40 0 (2 ^ 128)
  let val : Int := match (k + (if cos then 1 else 0)) % 4 with | 0 => sn | 1 => cs | 2 => -sn | _ => -cs
  let val := if s && !cos then -val else val
  (val < 0, val.natAbs, -128)
def approxTanh (s : Bool) (m : Nat) (e : Int) : Approx :=
  -- tanh x = (E − 1) / (E + 1) with E = e^(2x) = 2^(2x / ln 2), for |x| below 32
  let x := if 0 ≤ e + 128 then m * 2 ^ (e + 128).toNat else m / 2 ^ (-(e + 128)).toNat
  if 2 ^ 133 ≤ x then (s, 2 ^ 128 - 1, -128)
  else
    let y := 2 * x * 2 ^ 128 / ln2Fix
    let big := exp2Frac (y % 2 ^ 128) * 2 ^ (y / 2 ^ 128)
    (s, (big - 2 ^ 128) * 2 ^ 160 / (big + 2 ^ 128), -160)

/-- The distance between an F32 result and a reference value is at most b × 2^be. -/
def within (bits : Nat) (r : Approx) (b : Nat) (be : Int) : Bool :=
  match decodeF 8 bits with
  | .fin s m e =>
    let e0 := min (min e r.2.2) be
    let d := (FVal.fin s m e).scaled e0 - (FVal.fin r.1 r.2.1 r.2.2).scaled e0
    d.natAbs ≤ b * 2 ^ (be - e0).toNat
  | _ => false
/-- One ulp of F32 at a reference value. -/
def ulpExp (r : Approx) : Int := max ((Nat.log2 r.2.1 : Int) + r.2.2) (-126) - 23

/-- The part's own result when it keeps the bound, the rounded reference otherwise: the value is free within the bound (log 5). -/
def FEnv.bounded (v : FEnv) (cand : Word) (r : Approx) (b : Nat) (be : Int) : FRes :=
  let ref := roundF 8 1 false r.1 r.2.1 r.2.2
  let bits := if within cand.toNat r b be then cand.toNat else ref.bits
  let tiny := fExp 8 bits == 0
  v.flush 8 ⟨bits, if tiny then excUnderflow ||| excInexact else excInexact⟩

/-- FEXP2 (R178, R179). -/
def FEnv.exp2 (v : FEnv) (x : Word) : FRes :=
  match v.read 8 x.toNat with
  | .nan s p g => v.nanRes 8 [.nan s p g]
  | .inf s => ⟨if s then 0 else infF 8 false, 0⟩
  | .fin s m e =>
    if m == 0 then ⟨0x3F800000, 0⟩
    else
      let i := roundInt 2 s m e
      if !s && (128 ≤ i.1) then ⟨overflowF 8 v.rm false false, excOverflow ||| excInexact⟩
      else if s && (150 < i.1 || (150 == i.1 && i.2)) then ⟨0, excUnderflow ||| excInexact⟩
      else if !i.2 && (!s || i.1 ≤ 149) then v.flush 8 (roundF 8 1 false false 1 (if s then -(i.1 : Int) else i.1))
      else
        let r := approxExp2 s m e
        if (Nat.log2 r.2.1 : Int) + r.2.2 < -126 then v.bounded (Config.fexp2 x) r 1 (-148) else v.bounded (Config.fexp2 x) r 2 (ulpExp r)
/-- FLOG2. -/
def FEnv.log2 (v : FEnv) (x : Word) : FRes :=
  match v.read 8 x.toNat with
  | .nan s p g => v.nanRes 8 [.nan s p g]
  | .inf s => if s then invalidRes 8 else ⟨infF 8 false, 0⟩
  | .fin s m e =>
    if m == 0 then ⟨infF 8 true, excDivZero⟩
    else if s then invalidRes 8
    else if m == 2 ^ Nat.log2 m then
      let k : Int := (Nat.log2 m : Int) + e
      roundF 8 1 false (k < 0) k.natAbs 0
    else
      let r := approxLog2 m e
      if (FVal.fin false m e |> fun a => cmpF a (.fin false 1 (-1)) ≥ 0 && cmpF a (.fin false 1 1) ≤ 0) then
        v.bounded (Config.flog2 x) r 1 (-22) else v.bounded (Config.flog2 x) r 2 (ulpExp r)
/-- FSIN and FCOS; the result lies in [−1, 1]. -/
def FEnv.trig (v : FEnv) (cos : Bool) (x : Word) : FRes :=
  match v.read 8 x.toNat with
  | .nan s p g => v.nanRes 8 [.nan s p g]
  | .inf _ => invalidRes 8
  | .fin s m e =>
    if m == 0 then ⟨if cos then 0x3F800000 else packF 8 s 0 0, 0⟩
    else
      let cand := if cos then Config.fcos x else Config.fsin x
      let one := cand.toNat % 2 ^ 31 ≤ 0x3F800000
      let r := approxTrig cos s m e
      if one then v.bounded cand r 1 (-21) else v.bounded (BitVec.ofNat 32 (roundF 8 1 false r.1 r.2.1 r.2.2).bits) r 1 (-21)
/-- FTANH. -/
def FEnv.tanh (v : FEnv) (x : Word) : FRes :=
  match v.read 8 x.toNat with
  | .nan s p g => v.nanRes 8 [.nan s p g]
  | .inf s => ⟨packF 8 s 127 0, 0⟩
  | .fin s m e =>
    if m == 0 then ⟨packF 8 s 0 0, 0⟩
    else if (Nat.log2 m : Int) + e < -12 then
      v.flush 8 ⟨x.toNat, if fExp 8 x.toNat == 0 then excUnderflow ||| excInexact else excInexact⟩
    else v.bounded (Config.ftanh x) (approxTanh s m e) 2 (ulpExp (approxTanh s m e))
/-- FRSQ: exact when 1 ÷ √A is an F32 value, and otherwise one of its two neighbours (R171). -/
def FEnv.rsqrt (v : FEnv) (sat : Bool) (x : Word) : FRes :=
  match v.read 8 x.toNat with
  | .nan s p g => v.nanRes 8 [.nan s p g]
  | .inf s => if s then invalidRes 8 else ⟨0, 0⟩
  | .fin s m e =>
    if m == 0 then infRes 8 sat s excDivZero
    else if s then invalidRes 8
    else
      -- 1 / √(m 2^e) = √(2^(2k) / m) × 2^(−k − e/2), with e made even
      let m := if e % 2 == 0 then m else 2 * m
      let e := if e % 2 == 0 then e else e - 1
      let q := 2 ^ 160 / m
      let r := isqrt q 96 0
      let exact := r * r * m == 2 ^ 160
      let lo := roundF 8 2 false false r (-80 - e / 2) (!exact)
      if lo.exc == 0 then lo else v.flush 8 ⟨if Config.frsqUp x then lo.bits + 1 else lo.bits, lo.exc⟩

/-! ### Instructions that may raise FP -/

/-- The exception set of some slot meets the enables (R164): the lowest such slot. -/
def fpTrap (en : BitVec 5) (l : List (Nat × BitVec 5)) : Option (Nat × BitVec 5) :=
  if en == 0 then none else l.find? fun x => x.2 &&& en != 0

/-- The effect of R169: each acting fibre's result and exceptions; an enabled exception traps and nothing is written. -/
def State.floatForm (s : State) (f : Fields) (val : Nat → Fibre → List (Nat × Word) × BitVec 5) : Result :=
  let c := s.curCrew
  let act := s.acting f
  let excs := act.map fun i => (i, (val i (c.fibre i)).2)
  match fpTrap c.enables excs with
  | some x => s.raise f (some x.1) { cause := causeFp, arg0 := x.2.setWidth 64 }
  | none =>
    .next ((s.perFibre f fun i fb => (val i fb).1).updCur fun c => c.addFlags (excs.foldl (fun m x => m ||| x.2) 0))

/-- One register result of a float form. -/
def FRes.to (r : FRes) (d : Nat) : List (Nat × Word) × BitVec 5 := ([(d, BitVec.ofNat 32 r.bits)], r.exc)

end Sys2Proof.Machine
end

