-- ==== Sys2Proof/Machine/Operands.lean ====
section
/-! DEFINITION. Every operand form: integer, bit-pattern, float and packed sources, the results written from them, and the two
shapes of long-latency form (R85, R86, R122 to R124, R153, R154, R397). -/

namespace Sys2Proof.Machine
open Bits

/-! ### What an open try and pending results ask first (R115, R367) -/

/-- An instruction that may not stand in a try: with a guard-true member in the strand, the strand's members abort with MISUSE and
it then acts for the other fibres (R367). -/
def State.noTry (s : State) (f : Fields) (group : Nat) (k : State → Result) : Result :=
  match s.curCrew.tr with
  | none => k s
  | some t =>
    if s.actMask f &&& t.members == 0 then k s
    else
      let left := s.cur.mask &&& ~~~t.members
      let s := s.updCur fun c => c.abortTry s.cur.mask (abortWord 9 group)
      if left == 0 then .next s else k { s with cur := { s.cur with mask := left } }

/-- Stall class of waiting for a pending result: MEMORY for groups 0x0C to 0x0F, COLLECT otherwise (R113). -/
def Pending.stallClass (p : Pending) : Nat :=
  let g := (p.word.extractLsb' 91 5).toNat
  if 12 ≤ g && g ≤ 15 then 5 else 6

/-! ### Waits at CONVERGE (R116, R117) -/

/-- Every live fibre named by the mask waits at the CONVERGE at `pc`. -/
def Crew.convReady (c : Crew) (pc : Word) (m : Mask) : Bool :=
  (List.range 32).all fun j =>
    let fb := c.fibre j
    !m.getLsbD j || fb.st == .free || (fb.st == .waiting && fb.wait == .conv m && fb.pc == pc)
/-- Release every CONVERGE whose condition holds (R116). -/
def Crew.releaseConv (c : Crew) : Crew :=
  let ready := (List.range 32).filter fun i =>
    let fb := c.fibre i
    match fb.wait with
    | .conv m => fb.st == .waiting && c.convReady fb.pc m
    | _ => false
  c.mapMask (maskOf 32 ready) fun _ fb => fb.wake.next
/-- The strand for which R117 raises ILLEGAL_CONVERGENCE: no fibre can run, is parked or waits elsewhere, and some wait at CONVERGE. -/
def Crew.stuckConv (c : Crew) : Option (Word × Mask) :=
  let live := (List.range 32).filter fun i => (c.fibre i).st != .free
  let atConv (fb : Fibre) : Bool := fb.st == .waiting && (match fb.wait with | .conv _ => true | _ => false)
  if live.isEmpty || !(live.all fun i => atConv (c.fibre i)) then none
  else
    let pc := live.foldl (fun m i => if (c.fibre i).pc.toNat < m then (c.fibre i).pc.toNat else m) (2 ^ 32)
    some (BitVec.ofNat 32 pc, maskOf 32 (live.filter fun i => (c.fibre i).pc.toNat == pc))
/-- After a fibre has waited at CONVERGE or ended: releases first, then R117. -/
def State.settle (s : State) (bid ci : Nat) : State :=
  let s := s.updCrew bid ci Crew.releaseConv
  match (s.crew bid ci).stuckConv with
  | none => s
  | some (pc, m) =>
    (s.updCrew bid ci fun c => c.mapMask m fun _ fb => fb.wake).trap bid ci m m
      { cause := causeIllegalConvergence, pc := pc }

/-! ### Integer operands (R91, R122, R124) -/

/-- Width of an integer TYPE code (R91). -/
def intWidth : Nat → Nat | 0 => 32 | 1 => 32 | 2 => 64 | 3 => 64 | 4 => 16 | 5 => 16 | _ => 8
/-- The even codes of R91 are signed. -/
def intSigned (ty : Nat) : Bool := ty % 2 == 0
/-- The number that `w` low bits of a value stand for. -/
def intOf (ty : Nat) (v : DWord) : Int :=
  let w := intWidth ty
  let n := v.toNat % 2 ^ w
  if intSigned ty && 2 ^ (w - 1) ≤ n then (n : Int) - 2 ^ w else n
/-- A source of an integer TYPE: the register, or the pair of a 64-bit one. -/
def Fibre.bits (fb : Fibre) (ty n : Nat) : DWord := if intWidth ty == 64 then fb.pair n else (fb.reg n).setWidth 64
def Fibre.int (fb : Fibre) (ty n : Nat) : Int := intOf ty (fb.bits ty n)
/-- An immediate read as the operand type (R122). -/
def immInt (ty : Nat) (x : Word) : Int := intOf ty (x.setWidth 64)
def intMin (ty : Nat) : Int := if intSigned ty then -(2 ^ (intWidth ty - 1)) else 0
def intMax (ty : Nat) : Int := if intSigned ty then 2 ^ (intWidth ty - 1) - 1 else 2 ^ intWidth ty - 1
/-- An exact result clamped or wrapped to its TYPE (R124). -/
def intFit (ty : Nat) (sat : Bool) (i : Int) : DWord :=
  let w := intWidth ty
  wrap 64 ((if sat then clamp (intMin ty) (intMax ty) i else i) % 2 ^ w)
/-- An integer result: one register, or a pair when 64 bits wide. -/
def intWrites (ty d : Nat) (v : DWord) : List (Nat × Word) := if intWidth ty == 64 then pairWrites d v else [(d, loWord v)]
/-- A narrow integer result extended to 32 bits by its signedness (R154); a wide one as it stands. -/
def intResult (ty d : Nat) (v : DWord) : List (Nat × Word) :=
  if intWidth ty == 64 then pairWrites d v else [(d, wrap 32 (intOf ty v))]

/-- The second operand: the immediate in RI, the register or pair otherwise (R124). -/
def opB (f : Fields) (fb : Fibre) : Int := if f.form = .ri then immInt f.ty f.x else fb.int f.ty f.b.toNat
/-- The third operand of IMAD: the immediate in RRI, C in RR. -/
def opC (f : Fields) (fb : Fibre) : Int := if f.form = .rri then immInt f.ty f.x else fb.int f.ty f.c.toNat
/-- An integer form of group 0x00: exact operation, then SAT or wrap (R124). -/
def State.intForm (s : State) (f : Fields) (g : Fibre → Int) : Result :=
  .next (s.perFibre f fun _ fb => intWrites f.ty f.d.toNat (intFit f.ty f.sat (g fb)))

/-! ### Bit-pattern operands (R127, R129) -/

/-- The second operand as 32 bits: the immediate in RI, the register otherwise. -/
def bitsB (f : Fields) (fb : Fibre) : Word := if f.form = .ri then f.x else fb.reg f.b.toNat
/-- The third operand as 32 bits: the immediate in RRI, C otherwise. -/
def bitsC (f : Fields) (fb : Fibre) : Word := if f.form = .rri then f.x else fb.reg f.c.toNat
/-- A bitwise form over 32 bits, or over 64 in PAIR. -/
def State.bitForm (s : State) (f : Fields) (g32 : Word → Word → Word) (g64 : DWord → DWord → DWord) : Result :=
  .next (s.perFibre f fun _ fb =>
    if f.form = .pair then pairWrites f.d.toNat (g64 (fb.pair f.a.toNat) (fb.pair f.b.toNat))
    else [(f.d.toNat, g32 (fb.reg f.a.toNat) (bitsB f fb))])
/-- One 32-bit result of each acting fibre. -/
def State.wordForm (s : State) (f : Fields) (g : Fibre → Word) : Result :=
  .next (s.perFibre f fun _ fb => [(f.d.toNat, g fb)])
/-- Position and length read from one source; a length above 32 counts as 32 (R129). -/
def posLen (w : Word) : Nat × Nat := (field w 0 8, min 32 (field w 8 8))
/-- Bits p to min(p + l, 32) − 1 (R129). -/
def bitMask (p l : Nat) : Word := maskOf 32 ((List.range 32).filter fun i => p ≤ i && i < p + l)

/-! ### Float operands (R153, R167, R175) -/

/-- The low bits of a register that a float TYPE occupies (R153). -/
def floatBits (ty : Nat) (w : Word) : Nat := w.toNat % 2 ^ fmtW ty
/-- The second operand of a float form. -/
def floatB (f : Fields) (fb : Fibre) : Nat := floatBits f.ty (bitsB f fb)
def floatC (f : Fields) (fb : Fibre) : Nat := floatBits f.ty (bitsC f fb)
def floatA (f : Fields) (fb : Fibre) : Nat := floatBits f.ty (fb.reg f.a.toNat)
/-- Two 16-bit lanes, each computed as a scalar (R175). -/
def lanes2 (d : Nat) (g : Nat → FRes) : List (Nat × Word) × BitVec 5 :=
  let r0 := g 0
  let r1 := g 1
  ([(d, BitVec.ofNat 32 (r0.bits + r1.bits * 65536))], r0.exc ||| r1.exc)
/-- Lane k of 16 bits. -/
def half (w : Word) (k : Nat) : Nat := field w (16 * k) 16

/-! ### Replay-eligible long forms (R87, R397 to R399) -/

/-- Issue, or re-inject, a replay-eligible form. `val` computes one fibre's writes and exceptions from the values of A and B: at
first issue these are read from the registers; a re-injected entry uses the captured ones, keeps the PC and opens no window. With 16 of them in
flight neither issues; captured entries are not in flight (R399; DEDUCED, log 6). -/
def State.replayForm (s : State) (f : Fields) (dests : List Nat) (srcA srcB : Fibre → DWord)
    (val : DWord → DWord → List (Nat × Word) × BitVec 5) : Result :=
  let c := s.curCrew
  let make (m : Mask) (a b : List (Nat × DWord)) : Pending :=
    let at_ (l : List (Nat × DWord)) (i : Nat) : DWord := (Sparse.find? l i).getD 0
    let r := (ones m).map fun i => (i, val (at_ a i) (at_ b i))
    { replay := true, mask := m, srcA := a, srcB := b, enables := c.enables
      writes := r.map fun x => (x.1, x.2.1), excs := (r.map fun x => (x.1, x.2.2)).filter fun x => x.2 != 0#5 }
  match s.cur.replay with
  | some r =>
    if 16 ≤ (c.pend.filter (·.replay)).length then .next (s.updCur fun c => { c with stallClass := 6, replay := r :: c.replay })
    else .next { s.updCur (fun c => { c with pend := c.pend ++ [{ make r.mask r.srcA r.srcB with id := s.nextId, pc := r.pc, word := r.word, strand := r.mask }] })
      with nextId := s.nextId + 1 }
  | none =>
    if 16 ≤ (c.pend.filter (·.replay)).length then s.stall 6
    else
      let act := s.acting f
      .next (s.issueLong f (make (s.actMask f) (act.map fun i => (i, srcA (c.fibre i))) (act.map fun i => (i, srcB (c.fibre i)))) dests)

/-- The A operand as one register. -/
def srcReg (n : BitVec 8) (fb : Fibre) : DWord := (fb.reg n.toNat).setWidth 64
/-- The second operand of a long form: the immediate in RI. -/
def srcB (f : Fields) (fb : Fibre) : DWord := (bitsB f fb).setWidth 64

end Sys2Proof.Machine
end

