-- ==== Sys2Proof/Machine/Float.lean ====
section
/-! DEFINITION. Groups 0x06, 0x07 and 0x08: scalar, packed, dot and transcendental floats (R167 to R179). -/

namespace Sys2Proof.Machine
open Bits

/-- The environment of the instruction in execution (R157, R163). -/
def State.fenv (s : State) (f : Fields) : FEnv := s.curCrew.fenv f.rnd

/-- A two-operand F32 form (R169). -/
def State.float2 (s : State) (f : Fields) (g : FVal → FVal → FRes) : Result :=
  let v := s.fenv f
  s.floatForm f fun _ fb => (g (v.read 8 (floatA f fb)) (v.read 8 (floatB f fb))).to f.d.toNat
/-- A one-operand F32 form. -/
def State.float1 (s : State) (f : Fields) (g : FVal → FRes) : Result :=
  let v := s.fenv f
  s.floatForm f fun _ fb => (g (v.read 8 (floatA f fb))).to f.d.toNat
/-- A replay-eligible F32 form: traps when its result would be written (R164). -/
def State.floatLong (s : State) (f : Fields) (g : Word → Word → FRes) : Result :=
  s.replayForm f [f.d.toNat] (srcReg f.a) (srcB f) fun a b => (g (loWord a) (loWord b)).to f.d.toNat

/-- FADD (R168). -/
def execFadd (f : Fields) (s : State) : Result := s.float2 f ((s.fenv f).add 8 f.sat)
/-- FSUB: A − B (R168); a NaN keeps its own sign. -/
def execFsub (f : Fields) (s : State) : Result := s.float2 f fun a b => (s.fenv f).add 8 f.sat a b.negate
/-- FMUL (R168). -/
def execFmul (f : Fields) (s : State) : Result := s.float2 f ((s.fenv f).mul 8 f.sat)
/-- FFMA: rounded once; the immediate is the addend in RRI (R168). -/
def execFfma (f : Fields) (s : State) : Result :=
  let v := s.fenv f
  s.floatForm f fun _ fb =>
    (v.fma 8 f.sat (v.read 8 (floatA f fb)) (v.read 8 (fb.reg f.b.toNat).toNat) (v.read 8 (floatC f fb))).to f.d.toNat
/-- FMIN (R170). -/
def execFmin (f : Fields) (s : State) : Result :=
  s.floatForm f fun _ fb => ((s.fenv f).minmax 8 false (f.sub == 1) (floatA f fb) (floatB f fb)).to f.d.toNat
/-- FMAX (R170). -/
def execFmax (f : Fields) (s : State) : Result :=
  s.floatForm f fun _ fb => ((s.fenv f).minmax 8 true (f.sub == 1) (floatA f fb) (floatB f fb)).to f.d.toNat
/-- FDIV (R171). -/
def execFdiv (f : Fields) (s : State) : Result :=
  let v := s.fenv f
  s.floatLong f fun a b => v.div 8 f.sat (v.read 8 a.toNat) (v.read 8 b.toNat)
/-- FSQRT (R171). -/
def execFsqrt (f : Fields) (s : State) : Result :=
  let v := s.fenv f
  s.floatLong f fun a _ => v.sqrt 8 f.sat (v.read 8 a.toNat)
/-- FRCP: 1 ÷ A (R171). -/
def execFrcp (f : Fields) (s : State) : Result :=
  let v := s.fenv f
  s.floatLong f fun a _ => v.div 8 f.sat (.fin false 1 0) (v.read 8 a.toNat)
/-- FRSQ: within one ulp, exact where it can be (R171). -/
def execFrsq (f : Fields) (s : State) : Result := s.floatLong f fun a _ => (s.fenv f).rsqrt f.sat a
/-- A scaled exactly by 2^B, then rounded; far exponents are cut to where the result no longer changes. A NaN of A passes with every bit
as it was, whatever NANP says: its entry governs (R156, R172). -/
def FEnv.scale (v : FEnv) (sat : Bool) (a : FVal) (b : Int) : FRes :=
  match a with
  | .nan s p g => ⟨packF 8 s 255 p, if g then excInvalid else 0⟩
  | .inf s => infRes 8 sat s
  | .fin s m e => if m == 0 then ⟨packF 8 s 0 0, 0⟩ else v.round 8 sat s m (e + clamp (-1000) 1000 b)
/-- FSCALE: B or the immediate read as S32 (R172). -/
def execFscale (f : Fields) (s : State) : Result :=
  let v := s.fenv f
  s.floatForm f fun _ fb => (v.scale f.sat (v.read 8 (floatA f fb)) (bitsB f fb).toInt).to f.d.toNat
/-- FRND on a value: the integral value under rm (R173). -/
def FEnv.integral (v : FEnv) (exact : Bool) (a : FVal) : FRes :=
  match a with
  | .nan _ _ _ => v.nanRes 8 [a]
  | .inf s => ⟨infF 8 s, 0⟩
  | .fin s m e =>
    let r := roundInt v.rm s m e
    ⟨(roundF 8 1 false s r.1 0).bits, if exact && r.2 then excInexact else 0⟩
/-- FRND (R173). -/
def execFrnd (f : Fields) (s : State) : Result := s.float1 f ((s.fenv f).integral (f.sub == 1))
/-- The class mask of R174. -/
def classOf (b : Nat) : Word :=
  match decodeF 8 b with
  | .nan _ _ sg => if sg then 0x100 else 0x200
  | .inf s => if s then 0x001 else 0x080
  | .fin s m _ =>
    if m == 0 then if s then 0x008 else 0x010
    else if fExp 8 b == 0 then if s then 0x004 else 0x020
    else if s then 0x002 else 0x040
/-- FCLASS: A as it stands, no exception (R174). -/
def execFclass (f : Fields) (s : State) : Result := s.wordForm f fun fb => classOf (fb.reg f.a.toNat).toNat

/-- A packed form: each 16-bit lane as its scalar operation (R175). -/
def State.packed (s : State) (f : Fields) (g : Nat → Nat → Nat → FRes) : Result :=
  s.floatForm f fun _ fb =>
    lanes2 f.d.toNat fun k => g (half (fb.reg f.a.toNat) k) (half (bitsB f fb) k) (half (bitsC f fb) k)
/-- HADD2, and its subtract form (R175). -/
def execHadd2 (f : Fields) (s : State) : Result :=
  let v := s.fenv f
  s.packed f fun a b _ =>
    let y := v.read f.ty b
    v.add f.ty f.sat (v.read f.ty a) (if f.sub == 1 then y.negate else y)
/-- HMUL2 (R175). -/
def execHmul2 (f : Fields) (s : State) : Result :=
  let v := s.fenv f
  s.packed f fun a b _ => v.mul f.ty f.sat (v.read f.ty a) (v.read f.ty b)
/-- HFMA2 (R175). -/
def execHfma2 (f : Fields) (s : State) : Result :=
  let v := s.fenv f
  s.packed f fun a b c => v.fma f.ty f.sat (v.read f.ty a) (v.read f.ty b) (v.read f.ty c)
/-- HMNX2: SUB[0] max, SUB[1] nan (R175). -/
def execHmnx2 (f : Fields) (s : State) : Result :=
  s.packed f fun a b _ => (s.fenv f).minmax f.ty (f.sub % 2 == 1) (f.sub / 2 % 2 == 1) a b

/-- The infinities among some values disagree in sign. -/
def oppositeInfs (ts : List FVal) : Bool := ts.contains (.inf false) && ts.contains (.inf true)
/-- Four products and an addend, summed exactly and rounded once. ∞ × 0 and opposite infinities raise invalid beside a NaN lane too
(R176). A sum that is exactly zero has the sign of its terms where they agree, and otherwise is -0 under RDN alone (DESIGN CHOICE, log 81:
R176 gives no sign). -/
def FEnv.dot (v : FEnv) (sat : Bool) (ps : List (FVal × FVal)) (c : FVal) : FRes :=
  let all := ps.map (·.1) ++ ps.map (·.2) ++ [c]
  let nums := ps.filter fun p => !p.1.isNan && !p.2.isNan
  let ts := (nums.filterMap fun p => mulF p.1 p.2) ++ [c]
  let inv := nums.any (fun p => (mulF p.1 p.2).isNone) || oppositeInfs ts
  if all.any (·.isNan) then
    let r := v.nanRes 8 all
    if inv then { r with exc := r.exc ||| excInvalid } else r
  else if inv then invalidRes 8
  else
    match ts.find? fun t => t == .inf false || t == .inf true with
    | some t => infRes 8 sat t.neg?
    | none =>
      let e := ts.foldl (fun e t => min e t.exp) 0
      let zs := if ts.all fun t => t.isZero && t.neg? then true else if ts.all fun t => t.isZero && !t.neg? then false else v.rm == 4
      v.roundSum 8 sat (ts.foldl (fun a t => a + t.scaled e) 0) e zs
/-- DOT4: TYPE gives A's lanes, SUB gives B's; DAZ applies to C alone (R176). -/
def execDot4 (f : Fields) (s : State) : Result :=
  let v := s.fenv f
  let tb := if f.sub == 0 then f.ty else f.sub
  s.floatForm f fun _ fb =>
    let lane (n : BitVec 8) (t k : Nat) : FVal := decodeF t (field (fb.reg n.toNat) (8 * k) 8)
    (v.dot f.sat ((List.range 4).map fun k => (lane f.a f.ty k, lane f.b tb k)) (v.read 8 (fb.reg f.c.toNat).toNat)).to f.d.toNat
/-- IDOT4: B's lanes have the same or the other signedness; C and the result are N32 only when both are N8 (R177). -/
def execIdot4 (f : Fields) (s : State) : Result :=
  .next (s.perFibre f fun _ fb =>
    let tb := if f.sub % 2 == 0 then f.ty else 13 - f.ty
    let lane (n : BitVec 8) (t k : Nat) : Int := intOf t (((fb.reg n.toNat).extractLsb' (8 * k) 8).setWidth 64)
    let tr := if f.ty == 7 && tb == 7 then 1 else 0
    let sum := (List.range 4).foldl (fun a k => a + lane f.a f.ty k * lane f.b tb k) (fb.int tr f.c.toNat)
    [(f.d.toNat, loWord (intFit tr f.sat sum))])

/-- FEXP2 (R178, R179). -/
def execFexp2 (f : Fields) (s : State) : Result := s.floatLong f fun a _ => (s.fenv f).exp2 a
/-- FLOG2 (R178, R179). -/
def execFlog2 (f : Fields) (s : State) : Result := s.floatLong f fun a _ => (s.fenv f).log2 a
/-- FSIN (R178, R179). -/
def execFsin (f : Fields) (s : State) : Result := s.floatLong f fun a _ => (s.fenv f).trig false a
/-- FCOS (R178, R179). -/
def execFcos (f : Fields) (s : State) : Result := s.floatLong f fun a _ => (s.fenv f).trig true a
/-- FTANH (R178, R179). -/
def execFtanh (f : Fields) (s : State) : Result := s.floatLong f fun a _ => (s.fenv f).tanh a

end Sys2Proof.Machine
end

