-- ==== Sys2Proof/Machine/Convert.lean ====
section
/-! DEFINITION. Group 0x09: conversion and quantisation (R180 to R188). -/

namespace Sys2Proof.Machine
open Bits

/-- CVTFF (R181). -/
def execCvtff (f : Fields) (s : State) : Result :=
  let v := s.fenv f
  s.floatForm f fun _ fb => (v.convert f.ty f.sat (v.read f.sub (floatBits f.sub (fb.reg f.a.toNat)))).to f.d.toNat

/-- A float to an integer of a TYPE: rounded under rm, clamped with invalid when out of range (R182). -/
def FEnv.toInt (v : FEnv) (ty : Nat) (a : FVal) : Int × BitVec 5 :=
  match a with
  | .nan _ _ _ => (0, excInvalid)
  | .inf s => (if s then intMin ty else intMax ty, excInvalid)
  | .fin s m e =>
    let r := roundInt v.rm s m e
    let i : Int := if s then -(r.1 : Int) else r.1
    if i < intMin ty then (intMin ty, excInvalid)
    else if intMax ty < i then (intMax ty, excInvalid)
    else (i, if r.2 then excInexact else 0)
/-- CVTFI (R182). -/
def execCvtfi (f : Fields) (s : State) : Result :=
  let v := s.fenv f
  s.floatForm f fun _ fb =>
    let r := v.toInt f.ty (v.read f.sub (floatBits f.sub (fb.reg f.a.toNat)))
    (intResult f.ty f.d.toNat (intFit f.ty false r.1), r.2)

/-- An integer to a float: FTZ has nothing to do (R183). -/
def FEnv.fromInt (v : FEnv) (t : Nat) (sat : Bool) (i : Int) : FRes :=
  if i == 0 then ⟨0, 0⟩ else roundF t v.rm sat (i < 0) i.natAbs 0
/-- CVTIF (R183). -/
def execCvtif (f : Fields) (s : State) : Result :=
  let v := s.fenv f
  s.floatForm f fun _ fb => (v.fromInt f.ty f.sat (fb.int f.sub f.a.toNat)).to f.d.toNat
/-- CVTII: no exception (R184). -/
def execCvtii (f : Fields) (s : State) : Result :=
  .next (s.perFibre f fun _ fb => intResult f.ty f.d.toNat (intFit f.ty f.sat (fb.int f.sub f.a.toNat)))

/-- Width of one lane, and of the element in it, for TYPE and SUB[3] of PACK and UNPACK (R153, R185). -/
def laneWidth (ty : Nat) (four : Bool) : Nat := if four || ty == 15 then 4 else if ty == 9 || ty == 10 || ty == 4 || ty == 5 then 16 else 8
def elemWidth (ty : Nat) (four : Bool) : Nat := if ty == 13 || ty == 14 then 6 else laneWidth ty four
/-- The element of an integer TYPE of `w` bits from an exact value (R185). -/
def elemInt (signed sat : Bool) (w : Nat) (i : Int) : Nat :=
  let lo : Int := if signed then -(2 ^ (w - 1)) else 0
  let hi : Int := if signed then 2 ^ (w - 1) - 1 else 2 ^ w - 1
  ((if sat then clamp lo hi i else i) % 2 ^ w).toNat
/-- B with lane k replaced by an element (R185). -/
def packLane (b : Word) (lw k elem : Nat) : Word :=
  (b &&& ~~~(at_ 32 (lw * k) lw (2 ^ lw - 1))) ||| at_ 32 (lw * k) lw elem
/-- PACK (R185). -/
def execPack (f : Fields) (s : State) : Result :=
  let v := s.fenv f
  let four := 8 ≤ f.sub
  let lw := laneWidth f.ty four
  s.floatForm f fun _ fb =>
    let r : FRes := if 8 ≤ f.ty then v.convert f.ty f.sat (v.read 8 (fb.reg f.a.toNat).toNat)
      else ⟨elemInt (intSigned f.ty) f.sat lw (fb.int (f.ty % 2) f.a.toNat), 0⟩
    ([(f.d.toNat, packLane (fb.reg f.b.toNat) lw (f.sub % 8) r.bits)], r.exc)
/-- UNPACK: a float element converted exactly to F32, an integer element extended by its signedness (R186). -/
def execUnpack (f : Fields) (s : State) : Result :=
  let v : FEnv := { s.fenv f with ftz := false }
  let four := 8 ≤ f.sub
  let lw := laneWidth f.ty four
  let ew := elemWidth f.ty four
  s.floatForm f fun _ fb =>
    let b := field (fb.reg f.a.toNat) (lw * (f.sub % 8)) ew
    if 8 ≤ f.ty then (v.convert 8 false (v.read f.ty b)).to f.d.toNat
    else
      let i : Int := if intSigned f.ty && 2 ^ (ew - 1) ≤ b then (b : Int) - 2 ^ ew else b
      ([(f.d.toNat, wrap 32 i)], 0)

/-- EMAX of R187. -/
def mxEmax : Nat → Int | 14 => 4 | 11 => 8 | 12 => 15 | _ => 2
/-- The largest magnitude of a list of finite values, as m × 2^e. -/
def maxMagnitude (l : List FVal) : Nat × Int :=
  l.foldl (fun a x => match x with
    | .fin _ m e => if cmpF (.fin false a.1 a.2) (.fin false m e) < 0 then (m, e) else a
    | _ => a) (0, 0)
/-- The shared scale of an MX block (R187). -/
def mxScale (ty : Nat) (l : List FVal) : Nat :=
  if l.any fun x => match x with | .fin _ _ _ => false | _ => true then 255
  else
    let g := maxMagnitude l
    if g.1 == 0 then 0 else (clamp 0 254 ((Nat.log2 g.1 : Int) + g.2 - mxEmax ty + 127)).toNat
/-- One element scaled and rounded, clamped to max finite; inexact when it changed (R187). -/
def FEnv.mxElement (v : FEnv) (ty scale : Nat) (a : FVal) : FRes :=
  match a with
  | .fin s m e =>
    if scale == 255 then ⟨0, if m == 0 then 0 else excInexact⟩
    else
      let r := roundF ty v.rm true s m (e + 127 - scale)
      ⟨r.bits, if r.exc == 0 then 0 else excInexact⟩
  | _ => ⟨0, excInvalid⟩
/-- MXQ over the participants (R187, R133). -/
def execMxq (f : Fields) (s : State) : Result :=
  let v := s.fenv f
  let c := s.curCrew
  let scale := mxScale f.ty ((s.acting f).map fun i => v.read 8 ((c.fibre i).reg f.a.toNat).toNat)
  s.floatForm f fun _ fb =>
    let r := v.mxElement f.ty scale (v.read 8 (fb.reg f.a.toNat).toNat)
    ([(f.d.toNat, BitVec.ofNat 32 (scale * 256 + r.bits))], r.exc)
/-- MXDQ: element × 2^(scale − 127) as F32 (R188). -/
def FEnv.mxValue (v : FEnv) (ty : Nat) (sat : Bool) (w : Word) : FRes :=
  let scale := field w 8 8
  if scale == 255 then ⟨canonF 8, 0⟩
  else match decodeF ty (field w 0 (fmtW ty)) with
    | .fin s m e => v.round 8 sat s m (e + scale - 127)
    | x => v.convert 8 sat x
/-- MXDQ (R188). -/
def execMxdq (f : Fields) (s : State) : Result :=
  s.floatForm f fun _ fb => ((s.fenv f).mxValue f.ty f.sat (fb.reg f.a.toNat)).to f.d.toNat

end Sys2Proof.Machine
end

