-- ==== Sys2Proof/Machine/Strands.lean ====
section
/-! DEFINITION. Strands and the strand a crew issues from next (R104 to R106, R118, R395). -/

namespace Sys2Proof.Machine
open Bits

/-- Where a fibre stands in PC order; one past the last PC stands above all. -/
def Fibre.key (fb : Fibre) : Nat := fb.pc.toNat + (if fb.past then 2 ^ 32 else 0)
/-- In handler mode the fibres outside the handler set have stopped (R395). -/
def Crew.goes (c : Crew) (i : Nat) : Bool := match c.frame with | some fr => fr.set.getLsbD i | none => true
/-- A fibre may issue: it is RUNNABLE and not stopped by handler mode (R395). -/
def Crew.mayIssue (c : Crew) (i : Nat) : Bool := (c.fibre i).st == .runnable && c.goes i
/-- Slots that may issue. -/
def Crew.ready (c : Crew) : List Nat := (List.range 32).filter c.mayIssue
/-- The least of a list. -/
def least : List Nat → Option Nat
  | [] => none
  | x :: r => match least r with | none => some x | some y => some (min x y)
/-- A list in ascending order. -/
def ascending : List Nat → List Nat
  | [] => []
  | x :: r => let t := ascending r; t.filter (· < x) ++ x :: t.filter (x ≤ ·)
/-- The strand at a place in PC order. -/
def Crew.strandAt (c : Crew) (k : Nat) : Mask := maskOf 32 (c.ready.filter fun i => (c.fibre i).key == k)
/-- The places of the crew's runnable strands. -/
def Crew.places (c : Crew) : List Nat := c.ready.map fun i => (c.fibre i).key
/-- Two or more runnable strands. -/
def Crew.parted (c : Crew) : Bool := c.places.any fun k => some k != c.places.head?
/-- The place of the strand that issues next: one still owed by a rotation, else the one a YIELD seeks, else the lowest (R106, R118). -/
def Crew.nextPlace (c : Crew) : Option Nat :=
  match (c.rotating.map (·.toNat)).find? fun k => c.places.contains k with
  | some k => some k
  | none =>
    match c.yieldAbove with
    | some p => match least (c.places.filter (p.toNat < ·)) with
      | some k => some k
      | none => least c.places
    | none => least c.places
/-- The crew is on a core, filled, and not stopped (R71, R104, R416). -/
def State.crewMoves (s : State) (bid ci : Nat) : Bool :=
  let b := s.block bid
  let c := b.crew ci
  s.blocks.any (·.bid == bid) && ci < b.crews.length && !b.stopped && !b.saving && !b.terminated && !b.retired && c.live && c.filled && !c.moving
/-- The entry to be re-injected before anything else issues (R398). -/
def Crew.nextEntry (c : Crew) : Option Replay := c.replay.find? fun r => r.handler || c.frame.isNone
/-- The order and the credit of a crew once the strand at a PC has issued: the count rises under rule 1 while strands have parted, a strand
that a rotation owes an issue has had it with those below it, and what a YIELD seeks is found (R106, R108, R109, R118). An entry that is
re-injected is no issue of a strand. -/
def Crew.issuing (c : Crew) (pc : Word) (replay yld : Bool) : Crew :=
  let c := { c with credit := if yld then 0 else c.credit - 1, stallClass := 8, issued := true }
  if replay then c
  else if c.rotating.contains pc then { c with rotating := c.rotating.filter fun p => pc.toNat < p.toNat }
  else { c with
    rotating := []
    rot := if c.yieldAbove.isSome then c.rot else if c.parted then c.rot + 1 else 0
    yieldAbove := none }
/-- The crew in execution is taken and issues: its order, its credit, and the core's pointer, which moves past it (R106, R108). -/
def State.takeIssue (s : State) (yld : Bool) : State :=
  let slot := s.curCrew.slot
  (s.updCur fun c => c.issuing s.cur.pc s.cur.replay.isSome yld).updCore s.curBlock.core fun k => { k with pointer := (slot + 1) % 64 }
/-- The waiting or parked strand with the lowest PC (R113, R258). -/
def Crew.lowestIdle (c : Crew) : Mask :=
  let idle := (List.range 32).filter fun i => (c.fibre i).st == .waiting || (c.fibre i).st == .parked
  match least (idle.map fun i => (c.fibre i).key) with
  | none => 0
  | some k =>
    -- waiting fibres and parked fibres at one PC are two strands; the waiting one is taken
    let w := idle.filter fun i => (c.fibre i).key == k && (c.fibre i).st == .waiting
    maskOf 32 (if w.isEmpty then idle.filter fun i => (c.fibre i).key == k else w)

end Sys2Proof.Machine
end

