-- ==== Sys2Proof/Machine/Windows.lean ====
section
/-! DEFINITION. References of the instruction in execution, the scratchpad with its stash windows (R200 to R204), and what a
release asks of them (R318). -/

namespace Sys2Proof.Machine
open Bits

/-! ### Checked references of a strand -/

def State.curCore (s : State) : Nat := s.curBlock.core
def State.curTenant (s : State) : BitVec 16 := (s.ctx s.curCtx).tenant
/-- One reference checked for the task in execution. -/
def State.checkRef (s : State) (ref : DWord) (o : Int) (n : Nat) (q : Req) (acc : Access) : Except Event Acc :=
  s.check s.curCore s.curCtx s.curTenant ref o n q acc

/-- A fibre's access: its slot, its reference and its exact effective offset. -/
structure Want where
  slot : Nat
  ref : DWord
  o : Int
  deriving DecidableEq, Repr

/-- The index of R206, scaled; 0 in RI. -/
def indexOf (f : Fields) (fb : Fibre) : Int :=
  if f.form = .rri then
    (if f.mbit 7 then (fb.reg f.b.toNat).toInt else ((fb.reg f.b.toNat).toNat : Int)) * 2 ^ f.mb 8 2
  else 0
/-- The accesses of LD, ST and PREF (R207). -/
def State.wants (s : State) (f : Fields) : List Want :=
  (s.acting f).map fun i =>
    let fb := s.curCrew.fibre i
    let ref := fb.pair f.a.toNat
    ⟨i, ref, refOff ref + indexOf f fb + f.x.toInt⟩
/-- Check every access in ascending slot order: the accesses granted, or the lowest faulting slot and its fault (R199). -/
def State.checkWants (s : State) (l : List Want) (n : Nat) (q : Req) (acc : Access) : Except (Nat × Event) (List (Want × Acc)) :=
  match l with
  | [] => .ok []
  | w :: r =>
    match s.checkRef w.ref w.o n q acc with
    | .error ev => .error (w.slot, ev)
    | .ok a =>
      match s.checkWants r n q acc with
      | .error x => .error x
      | .ok t => .ok ((w, a) :: t)
/-- Keep what a successful access leaves in the handle cache (R34, R36). -/
def State.keepRef (s : State) (w : Want) (a : Acc) : State :=
  (s.keepEntry s.curCore s.curCtx w.ref).keepBlockEntry s.curCore s.curCtx a.ent w.ref w.o.toNat

/-- Why an instruction cannot be performed now: a fault of a slot, or a wait of a stall class with what it sets going. -/
inductive Stop where
  | fault (slot : Option Nat) (e : Event)
  | wait (cls : Nat) (s : State)
  deriving DecidableEq, Repr

/-- End an instruction that stopped: raise its fault, or stall. -/
def State.stopWith (s : State) (f : Fields) : Stop → Result
  | .fault sl e => s.raise f sl e
  | .wait cls s' => s'.stall cls

/-- A matrix lock makes one of a list of writes wait (R291), stall class ENGINE. -/
def State.mustHold (s : State) (l : List (Acc × Nat)) : Bool := l.any fun x => s.lineLocked x.1.ia x.2

/-! ### Scratchpad bytes (R200) -/

def zeroByte (_ : Nat) : Byte := 0
def Block.scr (b : Block) (a : Nat) : Byte := Sparse.get zeroByte b.scratch a
def Block.scrN (b : Block) (a n : Nat) : List Byte := Sparse.getN zeroByte b.scratch a n
/-- Write scratchpad bytes that come from a poisoned source: no line loses its poison (R293). -/
def Block.putScr (b : Block) (a : Nat) (l : List Byte) : Block := { b with scratch := Sparse.putN zeroByte b.scratch a l }
/-- Write scratchpad bytes; a whole line clears its poison (R472). -/
def Block.setScr (b : Block) (a : Nat) (l : List Byte) : Block :=
  { b.putScr a l with
    scratchPoison := b.scratchPoison.filter fun p => !(a ≤ 64 * p && 64 * p + 64 ≤ a + l.length) }
/-- Bytes of scratchpad the block's task declares (R72). -/
def State.scrBytes (s : State) : Nat := 1024 * s.curTask.rec_.scr
/-- A scratchpad range reads a poisoned line. -/
def Block.scrPoisoned (b : Block) (a n : Nat) : Bool := b.scratchPoison.any fun p => overlap (64 * p) 64 a n
/-- A range meets bytes that the matrix engine holds locked (R291). -/
def State.scrLocked (s : State) (bid a n : Nat) : Bool :=
  s.ops.any fun o => o.blk == bid && o.locked.any fun r => overlap r.1 r.2 a n

/-! ### Stash windows (R201 to R204) -/

/-- The mapped window that holds an address: its number and itself. -/
def Block.windowAt (b : Block) (a : Nat) : Option (Nat × Stash) :=
  (b.windows.zipIdx).findSome? fun x => match x.1 with
    | some w => if w.base ≤ a && a < w.base + w.len then some (x.2, w) else none
    | none => none
/-- A range meets a mapped window. -/
def Block.meetsWindow (b : Block) (a n : Nat) : Bool :=
  b.windows.any fun x => match x with | some w => overlap w.base w.len a n | none => false
def Block.setWindow (b : Block) (i : Nat) (w : Option Stash) : Block := { b with windows := b.windows.set i w }

def Req.writeBack : Req := { kinds := [1, 2, 3, 4], w := true, align := 1 }

/-- Fill one line of a window from the object, keeping its dirty bytes (R201, R204); none when it needs no fill. -/
def State.fillLine (s : State) (wi : Nat) (w : Stash) (line : Nat) : Except Event State :=
  if w.valid.contains line && !w.again.contains line then .ok s
  else
    let o := refOff w.ref + 64 * line
    match s.checkRef w.ref o 64 { kinds := [1, 2, 3, 4], r := true, align := 1 } .load with
    | .error ev => .error ev
    | .ok a =>
      let data := s.bytes a.place.phys 64
      let s := ((s.keepRef ⟨0, w.ref, o⟩ a).note a false false).dropL1 s.curCore a.ia 64
      .ok (s.updBlock s.cur.blk fun b =>
        let keep := b.scrN (w.base + 64 * line) 64
        let merged := (data.zip keep).zipIdx.map fun x => if w.dirty.contains (64 * line + x.2) then x.1.2 else x.1.1
        let b' := b.setScr (w.base + 64 * line) merged
        { b' with scratchPoison := if w.dirty.any (fun d => d / 64 == line) then b.scratchPoison else b'.scratchPoison }.setWindow wi
          (some { w with valid := if w.valid.contains line then w.valid else line :: w.valid, again := w.again.filter (· != line) }))

/-- The dirty lines of a window and its dirty bytes in each, lowest first. -/
def Stash.dirtyLines (w : Stash) : List Nat := (List.range (w.len / 64)).filter fun l => w.dirty.any fun d => d / 64 == l
/-- Check the write-backs of a window as stores (R202), from a block's core. -/
def State.checkBack (s : State) (bid : Nat) (w : Stash) : List Nat → Except Event (List (Nat × Acc))
  | [] => .ok []
  | l :: r =>
    let b := s.block bid
    let ctx := (s.task b.task).ctx
    match s.check b.core ctx (s.ctx ctx).tenant w.ref (refOff w.ref + 64 * l) 64 Req.writeBack .write with
    | .error ev => .error ev
    | .ok a => match s.checkBack bid w r with
      | .error ev => .error ev
      | .ok t => .ok ((l, a) :: t)
/-- Write a window's dirty bytes to its object, each run under the byte mask; they are clean afterwards (R202). -/
def State.backWindow (s : State) (ag : Agent) (bid wi : Nat) (w : Stash) (l : List (Nat × Acc)) : State :=
  let s := l.foldl (fun s x =>
    let b := s.block bid
    let s := s.note x.2 true false
    let ks := (List.range 64).filter fun k => w.dirty.contains (64 * x.1 + k)
    if ks.length == 64 then s.storeBytes ag x.2.ia x.2.place.phys (b.scrN (w.base + 64 * x.1) 64)
    else ks.foldl (fun s k => s.storeBytes ag (x.2.ia + k) (x.2.place.phys + k) [b.scr (w.base + 64 * x.1 + k)]) s) s
  s.updBlock bid (·.setWindow wi (some { w with dirty := [] }))
/-- Write back every dirty byte of the listed windows: all checks are made before any byte is written (R202, R203). What waits for it, a locked line
among the rest, waits with class MEMORY (R113, R340). -/
def State.writeBacks (s : State) (ag : Agent) (bid : Nat) (which : List Nat) : Except Stop State :=
  let ws := which.filterMap fun i => (((s.block bid).windows[i]?).getD none).map fun w => (i, w)
  let rec checks : List (Nat × Stash) → Except Event (List (Nat × Stash × List (Nat × Acc)))
    | [] => .ok []
    | (i, w) :: r => match s.checkBack bid w w.dirtyLines with
      | .error ev => .error ev
      | .ok l => match checks r with
        | .error ev => .error ev
        | .ok t => .ok ((i, w, l) :: t)
  match checks ws with
  | .error ev => .error (if ev.cause == causeWait then .wait 5 (s.setGoing ev) else .fault none ev)
  | .ok plan =>
    if s.mustHold (plan.flatMap fun x => x.2.2.map fun y => (y.2, 64)) then .error (.wait 5 s)
    else .ok (plan.foldl (fun s x => s.backWindow ag bid x.1 x.2.1 x.2.2) s)
/-- The agent of a slot of the strand in execution. -/
def State.agent (s : State) (slot : Nat) : Agent := .fibre s.cur.blk s.cur.crew slot s.curCore
/-- What a release does before it is performed: the window write-backs of its block (R318, R202). Earlier accesses have been
performed when this model's instructions end. -/
def State.release (s : State) (slot : Nat) : Except Stop State :=
  match s.writeBacks (s.agent slot) s.cur.blk (List.range 8) with
  | .error (.fault _ ev) => .error (.fault (some slot) ev)
  | r => r
/-- An acquire by the strand in execution (R319). -/
def State.acquires (s : State) : State := s.acquire s.curCore s.cur.blk

end Sys2Proof.Machine
end

