-- ==== Sys2Proof/Machine/LoadStore.lean ====
section
/-! DEFINITION. Group 0x0C: loads, stores, prefetch, reference arithmetic and handle queries (R206 to R212), inside a try and out
(R362 to R365). -/

namespace Sys2Proof.Machine
open Bits

/-- The registers of a loaded value, extended by SIZE (R206). -/
def loadWrites (size d : Nat) (l : List Byte) : List (Nat × Word) :=
  match size with
  | 0 => [(d, ((ofBytes 8 l : BitVec 8)).signExtend 32)]
  | 2 => [(d, ((ofBytes 16 l : BitVec 16)).signExtend 32)]
  | 5 => pairWrites d (ofBytes 64 l)
  | 6 => (List.range 4).map fun j => (d + j, ofBytes 32 ((l.drop (4 * j)).take 4))
  | _ => [(d, ofBytes 32 l)]
/-- The bytes a store takes from its registers (R206). -/
def storeData (size d : Nat) (fb : Fibre) : List Byte :=
  match size with
  | 5 => toBytes 8 (fb.pair d)
  | 6 => (List.range 4).flatMap fun j => toBytes 4 (fb.reg (d + j))
  | n => toBytes (sizeBytes n) (fb.reg d)

/-! ### A try's read set and store buffer (R362 to R365) -/

/-- A fibre is a member of its crew's open try. -/
def Crew.isMember (c : Crew) (i : Nat) : Bool := match c.tr with | some t => t.members.getLsbD i | none => false
/-- The buffered byte a member sees. -/
def Try.seen (t : Try) (slot ia : Nat) : Option Byte :=
  t.buf.findSome? fun e =>
    if e.block == ia / 16 && (t.crewMode || e.slot == slot) then (e.bytes.find? (·.1 == ia % 16)).map (·.2.2) else none
/-- Add a line to the read set; none when it is full (R365). -/
def Try.addRead (t : Try) (slot line handle : Nat) : Option Try :=
  if t.reads.any (·.line == line) then
    some { t with reads := t.reads.map fun r => if r.line == line then
      { r with members := r.members ||| (1#32 <<< slot), handles := if r.handles.contains handle then r.handles else handle :: r.handles } else r }
  else if 128 ≤ t.reads.length then none
  else some { t with reads := t.reads ++ [⟨line, 1#32 <<< slot, [handle]⟩] }
/-- Put bytes that lie in one 16-byte block into the store buffer; none when it is full (R363, R365). -/
def Try.addStore (t : Try) (slot ia handle : Nat) (data : List Byte) : Option Try :=
  let key := if t.crewMode then 0 else slot
  let new := data.zipIdx.map fun x => (ia % 16 + x.2, slot, x.1)
  let merge (old : List (Nat × Nat × Byte)) := new ++ old.filter fun o => !(new.any fun n => n.1 == o.1)
  let t : Try := { t with bufHandles := if t.bufHandles.contains (handle, slot) then t.bufHandles else (handle, slot) :: t.bufHandles }
  if t.buf.any fun e => e.block == ia / 16 && e.slot == key then
    some { t with buf := t.buf.map fun e => if e.block == ia / 16 && e.slot == key then { e with bytes := merge e.bytes } else e }
  else if 256 ≤ t.buf.length then none
  else some { t with buf := t.buf ++ [{ block := ia / 16, slot := key, bytes := new }] }
def Crew.updTry (c : Crew) (g : Try → Try) : Crew := { c with tr := c.tr.map g }

/-- A guard-true member reaches an object with RD = 1 (R367). -/
def State.tryRowDirect (s : State) (l : List Want) : Bool :=
  l.any fun w => s.curCrew.isMember w.slot &&
    match s.entry s.curCore s.curCtx w.ref w.o with | .ok e => Ent.rd e && !Ent.invalid e | .error _ => false

/-- LDQ's and STQ's accesses: one reference, a span by slot (R208). -/
def State.wantsSpan (s : State) (f : Fields) : List Want :=
  match s.acting f with
  | [] => []
  | l :: _ =>
    let ref := (s.curCrew.fibre l).pair f.a.toNat
    (s.acting f).map fun i => ⟨i, ref, refOff ref + f.x.toInt + (i * sizeBytes f.size : Nat)⟩

/-! ### LD and LDQ -/

/-- Members of the strand in execution abort: they are no longer part of it (R361, R365). -/
def State.abortIn (s : State) (m : Mask) (word : Word) : State :=
  let members (s : State) : Mask := match s.curCrew.tr with | some t => t.members | none => 0
  let t := s.updCur fun c => c.abortTry m word
  { t with cur := { t.cur with mask := t.cur.mask &&& ~~~(members s &&& ~~~members t) } }
/-- A load by a member: each byte from its store buffer, else the latest; it aborts when the read set is full (R362, R365). -/
def State.loadMember (s : State) (f : Fields) (t : Try) (w : Want) (a : Acc) : State × Option (List Byte) :=
  let n := sizeBytes f.size
  match t.addRead w.slot (a.ia / 64) (handleKey s.curCtx (refIndex w.ref)) with
  | none => (s.abortIn (1#32 <<< w.slot) (abortWord 3 0), none)
  | some t' =>
    let data := (s.bytes a.place.phys n).zipIdx.map fun x => (t.seen w.slot (a.ia + x.2)).getD x.1
    ((((s.keepRef w a).note a false (f.mbit 0)).dropL1 s.curCore a.ia n).updCur fun c => c.updTry fun _ => t', some data)
/-- A plain load may take a stale copy from the core's L1; one that must be whole only where the L1 holds all of it (R310, R322). -/
def State.mayBeStale (s : State) (f : Fields) (acq : Bool) (a : Acc) : Bool :=
  s.cur.stale && !acq && Ent.l1 a.ent && !f.mbit 0 && !Ent.rd a.ent &&
  (!(s.ctx s.curCtx).compat || s.l1Whole s.curCore a.ia (sizeBytes f.size))
/-- A load that its home serves fills the L1, or leaves nothing older there (R195, R311). -/
def State.loadPlain (s : State) (f : Fields) (acq : Bool) (w : Want) (a : Acc) : State × List Byte :=
  let n := sizeBytes f.size
  let stale := s.mayBeStale f acq a
  let data := s.loadBytes s.curCore stale (s.ctx s.curCtx).compat a n
  let t := (s.keepRef w a).note a false (f.mbit 0)
  (if stale then t
   else if Ent.l1 a.ent && !f.mbit 0 && !Ent.rd a.ent && s.curCrew.tr.isNone then t.fillL1 s.curCore a n
   else t.dropL1 s.curCore a.ia n, data)
/-- One fibre's load: as a member of the open try or plain; a fibre that has just left the try loads nothing. While a try is open, the crew's
other loads go to their homes (R362, R365). -/
def State.loadOne (s : State) (f : Fields) (acq member : Bool) (w : Want) (a : Acc) : State × Option (List Byte) :=
  if !member then
    let s := if s.curCrew.tr.isNone then s else { s with cur := { s.cur with stale := false } }
    let r := s.loadPlain f acq w a
    (r.1, some r.2)
  else match s.curCrew.tr with
    | none => (s, none)
    | some t => if t.members.getLsbD w.slot then s.loadMember f t w a else (s, none)

/-- Load for every acting fibre: checks, then the reads in slot order, of which a member that could not be served has aborted; the results come
later (R199, R207, R365). -/
def State.loadAll (s : State) (f : Fields) (l : List Want) (acq : Bool) : Result :=
  let n := sizeBytes f.size
  match s.checkWants l n (Req.load n) .load with
  | .error (i, ev) => s.raise f (some i) ev
  | .ok as =>
    let c := s.curCrew
    let s := if acq && !as.isEmpty then s.acquires else s
    let r := as.foldl (fun (x : State × List (Nat × List (Nat × Word))) p =>
      let y := x.1.loadOne f acq (c.isMember p.1.slot) p.1 p.2
      (y.1, x.2 ++ (y.2.map fun data => (p.1.slot, loadWrites f.size f.d.toNat data)).toList)) (s, [])
    if r.1.cur.mask == 0 && !as.isEmpty then .next r.1
    else .next (r.1.issueLong f { writes := r.2.filter fun x => r.1.cur.mask.getLsbD x.1 } ((List.range (sizeRegs f.size)).map (f.d.toNat + ·)))

/-- What may not stand in a try: `.acq` and `.rel` forms, and accesses to row-direct objects (R367). -/
def State.tryMemory (s : State) (f : Fields) (ordered : Bool) (l : State → List Want) (k : State → Result) : Result :=
  if ordered || s.tryRowDirect (l s) then s.noTry f 0x0C k else k s

/-- LD (R207). -/
def execLd (f : Fields) (s : State) : Result :=
  let acq := f.mb 10 2 == 1
  s.tryMemory f acq (·.wants f) fun s => s.loadAll f (s.wants f) acq
/-- LDQ (R208). -/
def execLdq (f : Fields) (s : State) : Result :=
  let acq := f.mb 10 2 == 1
  s.tryMemory f acq (·.wantsSpan f) fun s => s.loadAll f (s.wantsSpan f) acq

/-! ### ST and STQ -/

/-- One fibre's store after the strand has gone on: into the try's buffer for a member, to memory otherwise (R363, R365). -/
def State.storeOne (s : State) (f : Fields) (w : Want) (a : Acc) (data : List Byte) (member : Bool) : State :=
  let stream := f.mbit 0
  let s := s.keepRef w a
  if !member then s.store (s.agent w.slot) s.curBlock.task none a stream data
  else
    match s.curCrew.tr with
    | none => s
    | some t =>
      if !t.members.getLsbD w.slot then s
      else match t.addStore w.slot a.ia (handleKey s.curCtx (refIndex w.ref)) data with
        | some t' => (s.note a false stream).updCur fun c => c.updTry fun _ => t'
        | none => s.updCur fun c => c.abortTry (1#32 <<< w.slot) (abortWord 2 0)

/-- Store for every acting fibre: every check first, then in ascending slot order (R199, R207). -/
def State.storeAll (s : State) (f : Fields) (l : List Want) (rel : Bool) : Result :=
  let n := sizeBytes f.size
  match s.checkWants l n (Req.store n) .store with
  | .error (i, ev) => s.raise f (some i) ev
  | .ok as =>
    let c := s.curCrew
    let go (s : State) : Result :=
      if s.mustHold ((as.filter fun p => !c.isMember p.1.slot).map fun p => (p.2, n)) then s.stall 4
      else .next (as.foldl (fun s p =>
          s.storeOne f p.1 p.2 (storeData f.size f.d.toNat (c.fibre p.1.slot)) (c.isMember p.1.slot)) s.goOn)
    match as with
    | [] => go s
    | p :: _ =>
      if !rel then go s
      else match s.release p.1.slot with
        | .error e => s.stopWith f e
        | .ok s => go s

/-- ST (R207). -/
def execSt (f : Fields) (s : State) : Result :=
  let rel := f.mb 10 2 == 2
  s.tryMemory f rel (·.wants f) fun s => s.storeAll f (s.wants f) rel
/-- STQ (R208). -/
def execStq (f : Fields) (s : State) : Result :=
  let rel := f.mb 10 2 == 2
  s.tryMemory f rel (·.wantsSpan f) fun s => s.storeAll f (s.wantsSpan f) rel

/-! ### PREF, REFMK, REFADD, HQRY -/

/-- One fibre's prefetch: with its checks passed and the page there, the line may be brought in, a free choice (R209). -/
def State.prefetch (s : State) (f : Fields) (w : Want) : State :=
  match s.checkRef w.ref w.o 1 (Req.load 1) .load with
  | .error _ => s
  | .ok a =>
    if Ent.rd a.ent then s
    else
      let r := s.freeBool
      let s := r.2
      if !r.1 then s
      else
        let s := s.touchLine a.ent a.ia false false
        if !f.mbit 1 && Ent.l1 a.ent then
          s.fillL1 s.curCore { a with ia := a.ia - a.ia % 64, place := { a.place with phys := a.place.phys - a.ia % 64 } } 64
        else s
/-- PREF: no fault, no register, no memory event (R209). -/
def execPref (f : Fields) (s : State) : Result := .next ((s.wants f).foldl (fun s w => s.prefetch f w) s).goOn

/-- REFMK: a reference from a handle word and an offset (R210). -/
def execRefmk (f : Fields) (s : State) : Result :=
  .next (s.perFibre f fun _ fb =>
    let off : BitVec 40 := if f.form = .ri then f.x.setWidth 40 else (fb.reg f.c.toNat).extractLsb' 0 8 ++ fb.reg f.b.toNat
    pairWrites f.d.toNat ((fb.reg f.a.toNat).extractLsb' 0 24 ++ off))

/-- The sum of REFADD over the offset alone (R211). -/
def refAdd (chk : Bool) (ref : DWord) (add : Int) : DWord :=
  let sum : Int := refOff ref + add
  if chk && (sum < 0 || (2 : Int) ^ 40 ≤ sum) then 0 else ref.extractLsb' 40 24 ++ wrap 40 sum
/-- REFADD (R211). -/
def execRefadd (f : Fields) (s : State) : Result :=
  .next (s.perFibre f fun _ fb =>
    let add : Int := if f.form = .pair then (fb.pair f.b.toNat).toInt else (bitsB f fb).toInt
    pairWrites f.d.toNat (refAdd (f.mbit 0) (fb.pair f.a.toNat) add))

/-- A field of HQRY for an entry that passed checks 2 to 4 (R212). -/
def hqryField (which : Nat) (e : BitVec 512) (ref : DWord) : Word :=
  match which with
  | 0 => BitVec.ofNat 32 (Ent.len e)
  | 1 => BitVec.ofNat 32 (Ent.len e / 2 ^ 32)
  | 2 => at_ 32 31 1 1 ||| at_ 32 23 1 (Ent.poison e).toNat ||| at_ 32 20 3 (Ent.tier e) ||| at_ 32 14 6 (field e 33 6) |||
      at_ 32 8 5 (field e 3 5) ||| at_ 32 0 3 (Ent.kind e)
  | 3 => BitVec.ofNat 32 (min (Ent.len e - refOff ref) 0xFFFFFFFF)
  | 4 => Ent.lease e
  | _ => at_ 32 8 4 (Ent.gran e) ||| at_ 32 0 8 (Ent.smask e).toNat
/-- HQRY of one reference: checks 1 to 4; only a torn entry faults, and any other failure reads 0 (R212). -/
def State.hqry (s : State) (which : Nat) (ref : DWord) : Except Event Word :=
  match s.entry s.curCore s.curCtx ref (refOff ref) with
  | .error ev => if ev.cause == causeParamTorn || ev.cause == causeWait then .error ev else .ok 0
  | .ok e =>
    if Ent.invalid e || Ent.tenant e != s.curTenant || Ent.gen e != refGen ref then .ok 0 else .ok (hqryField which e ref)
/-- HQRY, replay-eligible (R212). -/
def execHqry (f : Fields) (s : State) : Result :=
  let refs : List (Nat × DWord) := match s.cur.replay with
    | some r => (ones r.mask).map fun i => (i, (Sparse.find? r.srcA i).getD 0)
    | none => (s.acting f).map fun i => (i, (s.curCrew.fibre i).pair f.a.toNat)
  match refs.findSome? fun x => match s.hqry (f.mb 0 3) x.2 with | .error ev => some (x.1, ev) | .ok _ => none with
  | some (i, ev) => s.raise f (some i) ev
  | none =>
    (refs.foldl (fun s x => s.keepEntry s.curCore s.curCtx x.2) s).replayForm f [f.d.toNat] (fun fb => fb.pair f.a.toNat) (fun _ => 0)
      fun a _ => ([(f.d.toNat, match s.hqry (f.mb 0 3) a with | .ok w => w | .error _ => 0)], 0)

end Sys2Proof.Machine
end

