-- ==== Sys2Proof/Machine/Scratch.lean ====
section
/-! DEFINITION. Group 0x0D: scratchpad loads and stores and stash windows (R213 to R216). -/

namespace Sys2Proof.Machine
open Bits

/-- A fault at a scratchpad address (R404). -/
def scrFault (cause : BitVec 8) (a : Int) : Event := { cause := cause, arg0 := wrap 64 a }
/-- Scratchpad addresses of the acting fibres (R213). -/
def State.scrWants (s : State) (f : Fields) : List (Nat × Int) :=
  (s.acting f).map fun i =>
    let fb := s.curCrew.fibre i
    (i, ((fb.reg f.a.toNat).toNat : Int) + indexOf f fb + f.x.toInt)
/-- BOUNDS, then ALIGN, of one scratchpad access (R200, R198). -/
def State.scrCheck (s : State) (a : Int) (n : Nat) : Option Event :=
  if a < 0 || (s.scrBytes : Int) < a + n then some (scrFault causeBounds a)
  else if a.toNat % n != 0 then some (scrFault causeAlign a)
  else none
/-- Check each access, filling the window line it touches (R201): the state with the lines filled, or the lowest fault. -/
def State.scrTouch (s : State) (n : Nat) (load : Bool) : List (Nat × Int) → Except (Nat × Event) State
  | [] => .ok s
  | (i, a) :: r =>
    match s.scrCheck a n with
    | some ev => .error (i, ev)
    | none =>
      let filled : Except Event State := match s.curBlock.windowAt a.toNat with
        | some (wi, w) => s.fillLine wi w ((a.toNat - w.base) / 64)
        | none => .ok s
      match filled with
      | .error ev => .error (i, ev)
      | .ok s' =>
        if load && s'.curBlock.scrPoisoned a.toNat n then .error (i, scrFault causePoison a)
        else s'.scrTouch n load r

/-- LDS (R213); a member that reaches a stash window aborts with MISUSE (R367). -/
def execLds (f : Fields) (s : State) : Result :=
  let reaches := (s.scrWants f).any fun x => s.curCrew.isMember x.1 && 0 ≤ x.2 && (s.curBlock.windowAt x.2.toNat).isSome
  let go (s : State) : Result :=
    let n := sizeBytes f.size
    match s.scrTouch n true (s.scrWants f) with
    | .error (i, ev) => s.raise f (some i) ev
    | .ok s' =>
      .next (s'.issueLong f
        { writes := (s.scrWants f).map fun x => (x.1, loadWrites f.size f.d.toNat (s'.curBlock.scrN x.2.toNat n)) }
        ((List.range (sizeRegs f.size)).map (f.d.toNat + ·)))
  if reaches then s.noTry f 0x0D go else go s

/-- One fibre's STS: the bytes, dirty where a window holds them (R201, R213). -/
def Block.storeScr (b : Block) (a : Nat) (data : List Byte) : Block :=
  let b' := b.setScr a data
  match b.windowAt a with
  | none => b'
  | some (wi, w) =>
    let ds := (List.range data.length).map (a - w.base + ·)
    b'.setWindow wi (some { w with dirty := ds ++ w.dirty.filter fun d => !ds.contains d })
/-- STS: stalls on bytes the matrix engine holds locked (R291); a byte stored by two fibres keeps the higher slot's value. -/
def execSts (f : Fields) (s : State) : Result := s.noTry f 0x0D fun s =>
  let n := sizeBytes f.size
  let c := s.curCrew
  match s.scrTouch n false (s.scrWants f) with
  | .error (i, ev) => s.raise f (some i) ev
  | .ok s' =>
    if (s.scrWants f).any fun x => s.scrLocked s.cur.blk x.2.toNat n then s.stall 4
    else
      .next ((s.scrWants f).foldl (fun t x =>
        t.updBlock t.cur.blk (·.storeScr x.2.toNat (storeData f.size f.d.toNat (c.fibre x.1)))) s'.goOn)

/-- STASH: one window for the block, from the lowest acting slot's operands (R214). -/
def execStash (f : Fields) (s : State) : Result := s.noTry f 0x0D fun s =>
  match s.acting f with
  | [] => .next s.goOn
  | l :: _ =>
    let fb := s.curCrew.fibre l
    let b := (fb.reg f.b.toNat).toNat
    let ref := fb.pair f.a.toNat
    let len := f.xv
    let o0 := refOff ref
    let blk := s.curBlock
    let rw := f.mbit 0
    if b % 64 != 0 || o0 % 64 != 0 then s.raise f (some l) (memFault causeAlign ref o0)
    else if s.scrBytes < b + len || blk.meetsWindow b len then s.raise f (some l) (memFault causeBounds ref o0)
    else
      match s.checkHandle s.curCore s.curCtx s.curTenant ref o0 len { kinds := [1, 3, 4], r := true, w := rw, stash := true, align := 64 } with
      | .error ev => s.raise f (some l) ev
      | .ok _ =>
        if s.ops.any fun o => o.blk == s.cur.blk && o.ranges.any fun r => overlap r.1 r.2 b len then s.stall 4
        else
          let s := s.keepEntry s.curCore s.curCtx ref
          match (List.range 8).find? fun i => ((blk.windows[i]?).getD none).isNone with
          | none => .next (s.perFibre f fun _ _ => [(f.d.toNat, 0xFFFFFFFF)])
          | some w =>
            .next ((s.perFibre f fun _ _ => [(f.d.toNat, BitVec.ofNat 32 w)]).updBlock s.cur.blk fun k =>
              k.setWindow w (some { base := b, len := len, ref := ref, writable := rw }))

/-- The window that UNSTASH or FLUSHS names through its lowest acting slot; none when unmapped (R215, R216). -/
def State.namedWindow (s : State) (f : Fields) (l : Nat) : Option Nat :=
  let w := ((s.curCrew.fibre l).reg f.a.toNat).toNat
  if w < 8 && ((s.curBlock.windows[w]?).getD none).isSome then some w else none
/-- Unmap a window: bytes of its valid lines keep their last value, the others become 0 (R215). -/
def Block.unmap (b : Block) (wi : Nat) : Block :=
  match (b.windows[wi]?).getD none with
  | none => b
  | some w =>
    let stale := (List.range (w.len / 64)).filter fun l => !w.valid.contains l
    (stale.foldl (fun b l => { b with scratch := Sparse.putN zeroByte b.scratch (w.base + 64 * l) (List.replicate 64 0) }) b).setWindow wi none
/-- UNSTASH (R215). -/
def execUnstash (f : Fields) (s : State) : Result := s.noTry f 0x0D fun s =>
  match s.acting f with
  | [] => .next s.goOn
  | l :: _ =>
    match s.namedWindow f l with
    | none => s.raise f (some l) { cause := causeBounds }
    | some w =>
      let back := if f.mbit 0 then .ok s else s.writeBacks (s.agent l) s.cur.blk [w]
      match back with
      | .error (.fault _ ev) => s.raise f (some l) ev
      | .error e => s.stopWith f e
      | .ok s' => .next (s'.goOn.updBlock s.cur.blk (·.unmap w))
/-- FLUSHS: one window, or every mapped one; the mappings stay (R216). -/
def execFlushs (f : Fields) (s : State) : Result := s.noTry f 0x0D fun s =>
  match s.acting f with
  | [] => .next s.goOn
  | l :: _ =>
    let which : Option (List Nat) := if f.mbit 0 then some (List.range 8) else (s.namedWindow f l).map fun w => [w]
    match which with
    | none => s.raise f (some l) { cause := causeBounds }
    | some ws =>
      match s.writeBacks (s.agent l) s.cur.blk ws with
      | .error (.fault _ ev) => s.raise f (some l) ev
      | .error e => s.stopWith f e
      | .ok s' => .next s'.goOn

end Sys2Proof.Machine
end

