-- ==== Sys2Proof/Machine/Atomics.lean ====
section
/-! DEFINITION. Group 0x0E: memory and scratchpad atomics (R336 to R339). -/

namespace Sys2Proof.Machine
open Bits

/-- The operand of an atomic: W32, W64 or W128 registers as one number of `8n` bits, kept as bytes. -/
def Fibre.atomBytes (fb : Fibre) (size r : Nat) : List Byte := storeData size r fb

/-- ATOM's new value over `w` bits (R337). -/
def atomOp (opc : Nat) {w : Nat} (old b : BitVec w) : BitVec w :=
  match opc with
  | 0 => old + b
  | 1 => if b.slt old then b else old
  | 2 => if b.ult old then b else old
  | 3 => if old.slt b then b else old
  | 4 => if old.ult b then b else old
  | 5 => old &&& b
  | 6 => old ||| b
  | 7 => old ^^^ b
  | _ => b
/-- ATOM on bytes of a SIZE. -/
def atomBytes (opc size : Nat) (old b : List Byte) : List Byte :=
  if size == 5 then toBytes 8 (atomOp opc (ofBytes 64 old) (ofBytes 64 b)) else toBytes 4 (atomOp opc (ofBytes 32 old) (ofBytes 32 b))
/-- AFADD: each lane added with RNE, subnormals kept, NaNs canonical (R337). -/
def afaddBytes (opc : Nat) (old b : List Byte) : List Byte :=
  let t := match opc with | 0 => 8 | 1 => 9 | _ => 10
  let x : Word := ofBytes 32 old
  let y : Word := ofBytes 32 b
  let add (p q : Nat) : Nat := (FEnv.plain.add t false (decodeF t p) (decodeF t q)).bits
  toBytes 4 (BitVec.ofNat 32 (if opc == 0 then add x.toNat y.toNat else add (half x 0) (half y 0) + 65536 * add (half x 1) (half y 1)))

/-- One memory atomic of each acting fibre: every check first, then indivisible steps in slot order (R338). `g` gives the new bytes
from the fibre and the old ones; none makes no write. -/
def State.atomic (s : State) (f : Fields) (off : Int) (g : Fibre → List Byte → Option (List Byte)) : Result := s.noTry f 0x0E fun s =>
  let n := sizeBytes f.size
  let c := s.curCrew
  let l : List Want := (s.acting f).map fun i => let ref := (c.fibre i).pair f.a.toNat; ⟨i, ref, refOff ref + off⟩
  match s.checkWants l n (Req.atom n) .load with
  | .error (i, ev) => s.raise f (some i) ev
  | .ok as =>
    if s.mustHold (as.map fun p => (p.2, n)) then s.stall 4
    else
      let rel := f.mb 10 2 == 2 || f.mb 10 2 == 3
      let acq := f.mb 10 2 == 1 || f.mb 10 2 == 3
      let released := match as with | p :: _ => if rel then s.release p.1.slot else .ok s | [] => .ok s
      match released with
      | .error e => s.stopWith f e
      | .ok s =>
        let s := if acq && !as.isEmpty then s.acquires else s
        let r := as.foldl (fun (x : State × List (Nat × List (Nat × Word))) p =>
          let old := x.1.bytes p.2.place.phys n
          let t := (x.1.keepRef p.1 p.2).dropL1 x.1.curCore p.2.ia n
          let t := match g (c.fibre p.1.slot) old with
            | some new => t.store (t.agent p.1.slot) t.curBlock.task none p.2 false new
            | none => t.note p.2 false false
          (t, x.2 ++ [(p.1.slot, loadWrites f.size f.d.toNat old)])) (s, [])
        .next (r.1.issueLong f { writes := r.2 } ((List.range (sizeRegs f.size)).map (f.d.toNat + ·)))

/-- ATOM (R337, R338). -/
def execAtom (f : Fields) (s : State) : Result :=
  s.atomic f f.x.toInt fun fb old => some (atomBytes f.sub f.size old (fb.atomBytes f.size f.b.toNat))
/-- A compare: the new bytes when the old ones are as expected, bit for bit. -/
def casBytes (f : Fields) (fb : Fibre) (old : List Byte) : Option (List Byte) :=
  if old == fb.atomBytes f.size f.b.toNat then some (fb.atomBytes f.size f.c.toNat) else none
/-- ACAS: the offset is the signed extension; a failed compare makes no write (R337, R338). -/
def execAcas (f : Fields) (s : State) : Result := s.atomic f f.ext.toInt (casBytes f)
/-- ACAS2: 16 bytes (R337, R338). -/
def execAcas2 (f : Fields) (s : State) : Result := s.atomic f f.ext.toInt fun fb old => casBytes f fb old
/-- AFADD (R337, R338). -/
def execAfadd (f : Fields) (s : State) : Result :=
  s.atomic f f.x.toInt fun fb old => some (afaddBytes f.sub old (fb.atomBytes 4 f.b.toNat))

/-- Checks of one scratchpad atomic: R200, a mapped window, R198, then line poison (R339). -/
def State.scrAtomCheck (s : State) (a : Int) (n : Nat) : Option Event :=
  if a < 0 || (s.scrBytes : Int) < a + n || s.curBlock.meetsWindow a.toNat n then some (scrFault causeBounds a)
  else if a.toNat % n != 0 then some (scrFault causeAlign a)
  else if s.curBlock.scrPoisoned a.toNat n then some (scrFault causePoison a)
  else none
/-- One scratchpad atomic of each acting fibre (R339). -/
def State.scrAtomic (s : State) (f : Fields) (off : Int) (g : Fibre → List Byte → Option (List Byte)) : Result := s.noTry f 0x0E fun s =>
  let n := sizeBytes f.size
  let c := s.curCrew
  let l : List (Nat × Int) := (s.acting f).map fun i => (i, (((c.fibre i).reg f.a.toNat).toNat : Int) + off)
  match l.findSome? fun x => (s.scrAtomCheck x.2 n).map fun ev => (x.1, ev) with
  | some (i, ev) => s.raise f (some i) ev
  | none =>
    if l.any fun x => s.scrLocked s.cur.blk x.2.toNat n then s.stall 4
    else
      let r := l.foldl (fun (x : State × List (Nat × List (Nat × Word))) p =>
        let old := x.1.curBlock.scrN p.2.toNat n
        let t := match g (c.fibre p.1) old with
          | some new => x.1.updBlock x.1.cur.blk (·.setScr p.2.toNat new)
          | none => x.1
        (t, x.2 ++ [(p.1, loadWrites f.size f.d.toNat old)])) (s, [])
      .next (r.1.issueLong f { writes := r.2 } ((List.range (sizeRegs f.size)).map (f.d.toNat + ·)))
/-- ATOMS (R339). -/
def execAtoms (f : Fields) (s : State) : Result :=
  s.scrAtomic f f.x.toInt fun fb old => some (atomBytes f.sub f.size old (fb.atomBytes f.size f.b.toNat))
/-- ACASS (R339). -/
def execAcass (f : Fields) (s : State) : Result := s.scrAtomic f f.ext.toInt (casBytes f)

end Sys2Proof.Machine
end

