-- ==== Sys2Proof/Machine/Move.lean ====
section
/-! DEFINITION. Group 0x05: moves, selects, system values and the mode register (R140 to R144, R161). -/

namespace Sys2Proof.Machine
open Bits

/-- MOV (R140). -/
def execMov (f : Fields) (s : State) : Result := s.bitForm f (fun a _ => a) (fun a _ => a)
/-- MOVI: 32 bits, or a sign- or zero-extended pair (R140). -/
def execMovi (f : Fields) (s : State) : Result :=
  .next (s.perFibre f fun _ _ => match f.mb 0 2 with
    | 0 => [(f.d.toNat, f.x)]
    | 1 => pairWrites f.d.toNat (f.x.signExtend 64)
    | _ => pairWrites f.d.toNat (f.x.setWidth 64))
/-- SEL: the predicate is read before any write (R140). -/
def execSel (f : Fields) (s : State) : Result :=
  .next (s.perFibre f fun _ fb =>
    let t := (fb.reg 0).getLsbD (f.mb 0 5) ^^ f.mbit 5
    if f.form = .pair then pairWrites f.d.toNat (if t then fb.pair f.a.toNat else fb.pair f.b.toNat)
    else [(f.d.toNat, if t then fb.reg f.a.toNat else bitsB f fb)])

/-- Width and height of a task's rectangle from WDCODE and HCODE (R17). -/
def NodeRec.width (r : NodeRec) : Nat := 2 ^ r.wd
def NodeRec.height (r : NodeRec) : Nat := if r.ht == 4 then 12 else 2 ^ r.ht

/-- The values of GET, 32 or 64 bits wide (R141, R65). -/
def State.systemValue (s : State) (name slot : Nat) : DWord :=
  let b := s.curBlock
  let t := s.curTask
  let n (x : Nat) : DWord := BitVec.ofNat 64 x
  match name with
  | 0x00 => n slot
  | 0x01 => n s.cur.crew
  | 0x02 => n (t.rec_.crews + 1)
  | 0x03 => n b.bx
  | 0x04 => n b.byy
  | 0x05 => n t.rec_.width
  | 0x06 => n t.rec_.height
  | 0x07 => n t.x0
  | 0x08 => n t.y0
  | 0x09 => n (t.x0 + b.bx)
  | 0x0A => n (t.y0 + b.byy)
  | 0x0B => t.tid.setWidth 64
  | 0x0C => t.rec_.tag.setWidth 64
  | 0x0D => n t.ctx
  | 0x0E => (s.ctx t.ctx).tenant.setWidth 64
  | 0x0F => n t.win
  | 0x10 => s.curCrew.liveMask.setWidth 64
  | 0x11 => if t.rec_.persist then n t.rec_.wqid else 0xFFFFFFFF
  | 0x12 => n (1024 * t.rec_.scr)
  | 0x13 => n (4096 * t.rec_.acc)
  | 0x14 => n t.rec_.rows
  | 0x20 => s.devTime
  | 0x21 => t.rec_.coderef
  | _ => t.rec_.stampref
/-- GET (R141). -/
def execGet (f : Fields) (s : State) : Result :=
  .next (s.perFibre f fun i _ =>
    let v := s.systemValue f.xv i
    if 0x20 ≤ f.xv then pairWrites f.d.toNat v else [(f.d.toNat, loWord v)])

/-- A mode register as software may leave it: reserved bits 0, and RM 110 or 111 written as 000 (R142, R161). -/
def modeFix (w : Word) : Word :=
  let w := w &&& 0xFFFF
  if 6 ≤ field w 0 3 then w &&& ~~~7#32 else w
/-- SETMODE: once for each acting fibre, in ascending slot order, and R161 on what that leaves; flags of earlier instructions still owed
are merged before it (R142, R161, R166). -/
def execSetmode (f : Fields) (s : State) : Result := s.noTry f 0x05 fun s =>
  let c := s.curCrew
  let one (m : Word × Word) (i : Nat) : Word × Word :=
    let k := bitsB f (c.fibre i)
    ((m.1 &&& ~~~k) ||| ((c.fibre i).reg f.a.toNat &&& k), m.2 ||| k)
  let r := (s.acting f).foldl one (c.mode, 0)
  .next (s.goOn.updCur fun c =>
    { c with mode := if (s.acting f).isEmpty then c.mode else modeFix r.1, pend := c.pend.map fun p => { p with flagMask := p.flagMask &&& ~~~(r.2.extractLsb' 10 5) } })

/-- GETMODE: waits until earlier instructions of the crew have set their flags (R143). -/
def execGetmode (f : Fields) (s : State) : Result :=
  if s.curCrew.pend.any (·.replay) then s.stall 6
  else s.wordForm f fun _ => s.curCrew.mode
/-- CLK: the core's cycle counter (R144). -/
def execClk (f : Fields) (s : State) : Result :=
  .next (s.perFibre f fun _ _ => pairWrites f.d.toNat (s.core s.curBlock.core).clk)

end Sys2Proof.Machine
end

