-- ==== Sys2Proof/Machine/Barriers.lean ====
section
/-! DEFINITION. Group 0x10: fences, block barriers and rectangle barriers (R340 to R346). -/

namespace Sys2Proof.Machine
open Bits

/-! ### Waiting and wait records (R335, R345, R357) -/

/-- Fibres of a mask begin to wait at the instruction's PC (R335). -/
def State.beginWait (s : State) (f : Fields) (m : Mask) (w : Nat → Wait) : State :=
  { s.updCur fun c => c.mapMask m fun i fb =>
      { fb with st := .waiting, wait := w i, waitF := { f with guard := none }, waitFrom := s.clkOf s.cur.blk, waitSeq := s.nextId + i }
    with nextId := s.nextId + 32 }

def Block.index (b : Block) (t : Task) : Nat := b.byy * t.rec_.width + b.bx
/-- The last arriver of a record (R345). -/
def WaitRec.last (r : WaitRec) (crew blk : Nat) (pc : Word) : WaitRec := { r with lastCrew := crew, lastBlk := blk, lastPc := pc }
/-- The longest waiter, when this wait is longer than any before (R345). -/
def WaitRec.long (r : WaitRec) (crew blk : Nat) (pc : Word) (len : Nat) : WaitRec :=
  let len := min len 0xFFFFFFFF
  if r.longClk < len || (r.longCrew == 0xFF && 0 < len) then { r with longCrew := crew, longBlk := blk, longPc := pc, longClk := len } else r
/-- A list of ended waits: crew, PC and length. -/
def WaitRec.longAll (r : WaitRec) (blk : Nat) (ws : List (Nat × Word × Nat)) : WaitRec :=
  ws.foldl (fun r w => r.long w.1 blk w.2.1 w.2.2) r
/-- A record as its four words (R345). -/
def WaitRec.word (r : WaitRec) (k : Nat) : Word :=
  match k with
  | 0 => at_ 32 24 8 r.longBlk ||| at_ 32 16 8 r.longCrew ||| at_ 32 8 8 r.lastBlk ||| at_ 32 0 8 r.lastCrew
  | 1 => r.lastPc
  | 2 => r.longPc
  | _ => BitVec.ofNat 32 r.longClk
/-- The waits of a block that a test selects, as crew, fibre PC and length. -/
def State.waitsOf (s : State) (bid : Nat) (p : Fibre → Bool) : List (Nat × Word × Nat) :=
  ((s.block bid).crews.zipIdx).flatMap fun c =>
    (c.1.fibres.filter p).map fun fb => (c.2, fb.pc, s.clkOf bid - fb.waitFrom)
/-- Wake the fibres of a block that a test selects, at PC + 1. -/
def Block.wakeAll (b : Block) (p : Fibre → Bool) : Block :=
  { b with crews := b.crews.map fun c => { c with fibres := c.fibres.map fun fb => if p fb then fb.wake.next else fb } }

/-- A test for fibres that wait on one phase of a block barrier. -/
def waitsBar (b : Nat) (ph : BitVec 16) (fb : Fibre) : Bool := fb.st == .waiting && fb.wait == .barrier b ph

/-! ### Fences (R340) -/

/-- FENCE: window write-backs for a release, invalidation for an acquire; the block's fence record is kept (R320, R345). -/
def execFence (f : Fields) (s : State) : Result := s.noTry f 0x10 fun s =>
  match s.acting f with
  | [] => .next s.goOn
  | l :: _ =>
    let rel := f.mb 0 2 == 2 || f.mb 0 2 == 3
    let acq := f.mb 0 2 == 1 || f.mb 0 2 == 3
    let fb := s.curCrew.fibre l
    match if rel then s.release l else .ok s with
    | .error (.wait cls s') =>
      (s'.updCur fun c => c.mapMask s.cur.mask fun _ fb =>
        if fb.fenceFrom.isNone then { fb with fenceFrom := some (s.clkOf s.cur.blk) } else fb).stall cls
    | .error e => s.stopWith f e
    | .ok s =>
      let s := if acq then s.acquires else s
      let len := match fb.fenceFrom with | none => 0 | some c => s.clkOf s.cur.blk - c
      let s := s.updBlock s.cur.blk fun b => { b with
        fenceRec := (b.fenceRec.last s.cur.crew (b.index s.curTask) s.cur.pc).long s.cur.crew 0 s.cur.pc len }
      .next s.goOn

/-! ### Block barriers (R341 to R343) -/

def Block.barrier (b : Block) (i : Nat) : Barrier := (b.barriers[i]?).getD {}
def Block.updBar (b : Block) (i : Nat) (g : Barrier → Barrier) : Block := { b with barriers := b.barriers.modify i g }
def Block.liveCrews (b : Block) : Nat := b.crews.countP (·.live)
/-- The phase in progress is complete (R342). -/
def Block.barDone (b : Block) (i : Nat) : Bool :=
  let x := b.barrier i
  0 < x.arrived && (if x.expect == 0 then b.liveCrews else x.expect) ≤ x.arrived
/-- One arrival of a crew (R342). -/
def Barrier.arrive (x : Barrier) (crew n : Nat) : Barrier :=
  { x with arrived := x.arrived + 1, expect := if x.arrived == 0 then n else x.expect, mask := x.mask ||| (1#32 <<< crew) }
/-- Complete a phase when it is due: the barrier starts its next phase, every strand waiting on it goes on, and their departure is
an acquire (R342, R317). -/
def State.completeBar (s : State) (bid i : Nat) : State :=
  let b := s.block bid
  if !b.barDone i then s
  else
    let ph := (b.barrier i).phase
    let ws := s.waitsOf bid (waitsBar i ph)
    let s := s.updBlock bid fun b =>
      ({ b.updBar i fun x => { phase := x.phase + 1 } with
        barRecs := b.barRecs.modify i (·.longAll 0 ws) }).wakeAll (waitsBar i ph)
    if ws.isEmpty then s else s.acquire (s.block bid).core bid
/-- A crew arrives at barrier b with count n; the arrival that completes a phase is its last arriver (R342, R345). -/
def State.arriveBar (s : State) (i n : Nat) : State :=
  let bid := s.cur.blk
  let s := s.updBlock bid (·.updBar i fun x => x.arrive s.cur.crew n)
  let s := if (s.block bid).barDone i then s.updBlock bid fun b =>
      { b with barRecs := b.barRecs.modify i fun r => r.last s.cur.crew (b.index s.curTask) s.cur.pc } else s
  s.completeBar bid i

/-- A barrier instruction: convergence, then its bounds, then its release (R343, R344, R317). -/
def State.barForm (s : State) (f : Fields) (bad : State → Bool) (k : State → Result) : Result := s.noTry f 0x10 fun s =>
  if !s.converged then s.unconverged f
  else if bad s then s.raise f none { cause := causeBounds }
  else
    match s.release (((ones s.cur.mask).head?).getD 0) with
    | .error e => s.stopWith f e
    | .ok s => k s
/-- `n` is above the block's NCREWS (R343). -/
def manyCrews (f : Fields) (s : State) : Bool := s.curTask.rec_.crews + 1 < field f.x 4 6
/-- BAR: arrives, and waits on the phase it arrived in (R343). -/
def execBar (f : Fields) (s : State) : Result := s.barForm f (manyCrews f) fun s =>
  let i := field f.x 0 4
  let ph := (s.curBlock.barrier i).phase
  .next ((s.beginWait f s.cur.mask fun _ => .barrier i ph).arriveBar i (field f.x 4 6))
/-- ARRIVE: every fibre receives the arrival phase (R343). -/
def execArrive (f : Fields) (s : State) : Result := s.barForm f (manyCrews f) fun s =>
  let i := field f.x 0 4
  let ph := (s.curBlock.barrier i).phase
  .next ((s.perFibre f fun _ _ => [(f.d.toNat, ph.setWidth 32)]).arriveBar i (field f.x 4 6))
/-- BWAIT: waits only on the phase in progress; any other token goes on at once, as an acquire (R343, R317). -/
def execBwait (f : Fields) (s : State) : Result := s.noTry f 0x10 fun s =>
  let i := field f.x 0 4
  let low := ((ones s.cur.mask).head?).getD 0
  let ph : BitVec 16 := ((s.curCrew.fibre low).reg f.a.toNat).extractLsb' 0 16
  if ph == (s.curBlock.barrier i).phase then .next (s.beginWait f s.cur.mask fun _ => .barrier i ph)
  else .next s.acquires.goOn

/-! ### Rectangle barriers (R344) -/

/-- The blocks of a task that lie in a subgroup, by its origin and size. -/
def State.subBlocks (s : State) (task : Nat) (o : Nat × Nat) (w h : Nat) : List Block :=
  s.blocks.filter fun b => b.task == task && o.1 ≤ b.bx && b.bx < o.1 + w && o.2 ≤ b.byy && b.byy < o.2 + h
/-- Width of a subgroup code, coded as WDCODE and HCODE (R17). -/
def subWidth (code : Nat) : Nat := 2 ^ code
def subHeight (code : Nat) : Nat := if code == 4 then 12 else 2 ^ code

/-- Replace one subgroup's state in a task. -/
def Task.setRect (t : Task) (r : RectBar) : Task :=
  { t with rbars := r :: t.rbars.filter fun x => !(x.b == r.b && x.sx == r.sx && x.sy == r.sy) }
/-- Whether a crew of a block has arrived. -/
def RectBar.has (r : RectBar) (bid crew : Nat) : Bool := r.masks.any fun m => m.1 == bid && m.2.getLsbD crew
/-- A rectangle barrier waits until every live crew of the subgroup's blocks has arrived (R344). -/
def RectBar.done (r : RectBar) (bs : List Block) : Bool :=
  0 < r.arrived && bs.all fun b => (b.crews.zipIdx).all fun c => !c.1.live || r.has b.bid c.2
def waitsRect (b : Nat) (ph : BitVec 16) (deliver : Bool) (fb : Fibre) : Bool := fb.st == .waiting && fb.wait == .rbar b ph deliver
/-- A PUT of one of these blocks, issued before name `n`, is still outstanding (R344, R253). -/
def State.putOutstanding (s : State) (bs : List Block) (n : Nat) : Bool :=
  s.ops.any fun o => o.cls == 1 && o.id < n && bs.any (·.bid == o.blk)
/-- Let the `.deliver` waiters of a completed phase go whose PUTs have all retired (R344). Their wait's name bound is the
model's name counter at the phase's completion. -/
def State.deliverRects (s : State) (task : Nat) : State :=
  (s.task task).rbarShape.foldl (fun s sh =>
    (s.task task).rbars.foldl (fun s r =>
      if r.b != sh.1 then s
      else
        let bs := s.subBlocks task (r.sx, r.sy) sh.2.1 sh.2.2
        let old := r.phase - 1
        let freed (fb : Fibre) : Bool := waitsRect r.b old true fb && !s.putOutstanding bs fb.waitSeq
        bs.foldl (fun s b =>
          if b.crews.any fun c => c.fibres.any freed then
            let ws := s.waitsOf b.bid freed
            let s := bs.foldl (fun s x => s.updBlock x.bid fun k =>
              { k with rbarRecs := k.rbarRecs.modify r.b (·.longAll (b.index (s.task task)) ws) }) s
            (s.updBlock b.bid (·.wakeAll freed)).acquire b.core b.bid
          else s) s) s) s
/-- Complete a subgroup's phase when it is due (R344). -/
def State.completeRect (s : State) (task b sx sy : Nat) : State :=
  match (s.task task).rbarShape.find? (·.1 == b), (s.task task).rbars.find? fun r => r.b == b && r.sx == sx && r.sy == sy with
  | some (_, w, h), some r =>
    let bs := s.subBlocks task (sx, sy) w h
    if !r.done bs then s
    else
      let s := s.updTask task (·.setRect { r with phase := r.phase + 1, arrived := 0, masks := [] })
      let s := bs.foldl (fun s k =>
        let ws := s.waitsOf k.bid (waitsRect b r.phase false)
        let s := bs.foldl (fun s x => s.updBlock x.bid fun y =>
          { y with rbarRecs := y.rbarRecs.modify b (·.longAll (k.index (s.task task)) ws) }) s
        let mark (fb : Fibre) : Fibre := if waitsRect b r.phase true fb then { fb with waitSeq := s.nextId } else fb
        let s := s.updBlock k.bid fun y =>
          let y := y.wakeAll (waitsRect b r.phase false)
          { y with crews := y.crews.map fun c => { c with fibres := c.fibres.map mark } }
        if ws.isEmpty then s else s.acquire k.core k.bid) s
      s.deliverRects task
  | _, _ => s
/-- Size and origin of the subgroup that an RBAR of the block in execution names. -/
def rectSize (f : Fields) : Nat × Nat := (subWidth (field f.x 2 3), subHeight (field f.x 5 3))
def State.rectOrigin (s : State) (f : Fields) : Nat × Nat := subOrigin s.curBlock.bx s.curBlock.byy (rectSize f).1 (rectSize f).2
/-- The subgroup does not fit the task, or an earlier RBAR of the task at b names another shape (R344). -/
def rectBad (f : Fields) (s : State) : Bool :=
  let o := s.rectOrigin f
  let sz := rectSize f
  s.curTask.rec_.width < o.1 + sz.1 || s.curTask.rec_.height < o.2 + sz.2 ||
    !(match s.curTask.rbarShape.find? (·.1 == field f.x 0 2) with | some x => x.2 == sz | none => true)
/-- RBAR: the crew arrives and waits (R344). -/
def execRbar (f : Fields) (s : State) : Result := s.barForm f (rectBad f) fun s =>
  let b := field f.x 0 2
  let sz := rectSize f
  let blk := s.curBlock
  let t := s.curTask
  let o := s.rectOrigin f
  let s := s.updTask t.uid fun t => { t with rbarShape := if t.rbarShape.any (·.1 == b) then t.rbarShape else (b, sz.1, sz.2) :: t.rbarShape }
  let r := s.rectBar s.cur.blk b
  let mine : Mask := ((r.masks.find? (·.1 == s.cur.blk)).map (·.2)).getD 0
  let r' : RectBar := { r with
    arrived := r.arrived + 1
    masks := (s.cur.blk, mine ||| (1#32 <<< s.cur.crew)) :: r.masks.filter (·.1 != s.cur.blk) }
  let s := (s.beginWait f s.cur.mask fun _ => .rbar b r.phase (f.mbit 0)).updTask t.uid (·.setRect r')
  let bs := s.subBlocks t.uid o sz.1 sz.2
  let s := if r'.done bs then bs.foldl (fun s k => s.updBlock k.bid fun y => { y with
      rbarRecs := y.rbarRecs.modify b fun q => q.last s.cur.crew (blk.index t) s.cur.pc }) s else s
  .next (s.completeRect t.uid b o.1 o.2)

/-- BARSTAT: an item of a barrier as it stands (R346). -/
def execBarstat (f : Fields) (s : State) : Result := s.noTry f 0x10 fun s =>
  let i := field f.x 0 4
  let rect := f.x.getLsbD 4
  let item := field f.x 5 3
  let b := s.curBlock
  let v : Word :=
    if rect then
      let r := s.rectBar s.cur.blk i
      match item with
      | 0 => at_ 32 16 16 r.phase.toNat ||| at_ 32 8 8 (min r.arrived 255)
      | 1 => ((r.masks.find? (·.1 == s.cur.blk)).map (·.2)).getD 0
      | k => ((b.rbarRecs[i]?).getD {}).word (k - 2)
    else
      let x := b.barrier i
      match item with
      | 0 => at_ 32 16 16 x.phase.toNat ||| at_ 32 8 8 x.arrived ||| at_ 32 0 8 x.expect
      | 1 => x.mask
      | k => ((b.barRecs[i]?).getD {}).word (k - 2)
  s.wordForm f fun _ => v

end Sys2Proof.Machine
end

