-- ==== Sys2Proof/Machine/Sync.lean ====
section
/-! DEFINITION. Group 0x11: monitors, semaphores and work queues (R347 to R354), and the hub's queue operations they use. -/

namespace Sys2Proof.Machine
open Bits

/-- Complete an instruction for some of its fibres and make others wait: the first get their writes and go on, with every
guard-false fibre; the strand parts (R335). -/
def State.partWait (s : State) (f : Fields) (waiters : Mask) (wr : List (Nat × List (Nat × Word))) (w : Nat → Wait) : State :=
  let look (i : Nat) : List (Nat × Word) := ((wr.find? (·.1 == i)).map (·.2)).getD []
  let s := s.updCur fun c => c.mapMask s.cur.mask fun i fb =>
    let fb := if guardTrue f fb then fb.setRegs (look i) else fb
    if waiters.getLsbD i then fb else fb.next
  if waiters == 0 then s else s.beginWait f waiters w

/-! ### Monitors (R348, R349) -/

/-- MONARM: a plain load, and the monitor armed on its line at the same moment (R348). -/
def execMonarm (f : Fields) (s : State) : Result := s.noTry f 0x11 fun s =>
  let n := sizeBytes f.size
  match s.checkWants (s.wants f) n (Req.load n) .load with
  | .error (i, ev) => s.raise f (some i) ev
  | .ok as =>
    let r := as.foldl (fun (x : State × List (Nat × List (Nat × Word) × Nat)) p =>
      let y := x.1.loadPlain f false p.1 p.2
      (y.1, x.2 ++ [(p.1.slot, loadWrites f.size f.d.toNat y.2, p.2.ia / 64)])) (s, [])
    let arm (c : Crew) : Crew := r.2.foldl (fun c x => c.updFibre x.1 fun fb => { fb.setRegs x.2.1 with monitor := .armed x.2.2 }) c
    .next ((r.1.updCur arm).goOn)

/-- MONWAIT: WRITTEN, LOST, or a wait that firing or the time-out ends (R349). -/
def execMonwait (f : Fields) (s : State) : Result := s.noTry f 0x11 fun s =>
  let c := s.curCrew
  let act := s.acting f
  let waiting := act.filter fun i => match (c.fibre i).monitor with | .armed _ => true | _ => false
  let fired := act.any fun i => (c.fibre i).monitor == .fired
  let val (i : Nat) : Word := if (c.fibre i).monitor == .fired then 0 else 2
  let wr := (act.filter fun i => !waiting.contains i).map fun i => (i, [(f.d.toNat, val i)])
  let deadline (i : Nat) : Option Nat :=
    let t := (c.fibre i).reg f.a.toNat
    if t == 0 then none else some (s.devTime.toNat + t.toNat)
  let s := if fired then s.acquires else s
  let line (i : Nat) : Nat := match (c.fibre i).monitor with | .armed l => l | _ => 0
  let s := s.partWait f (maskOf 32 waiting) wr fun i => .mon (line i) (deadline i)
  .next (s.updCur fun c => wr.foldl (fun c x => c.updFibre x.1 fun fb => { fb with monitor := .clear }) c)

/-! ### Semaphores (R347) -/

/-- Accesses of SEMWAIT and SEMPOST: a signed offset, no index. -/
def State.semWants (s : State) (f : Fields) : List Want :=
  (s.acting f).map fun i => let ref := (s.curCrew.fibre i).pair f.a.toNat; ⟨i, ref, refOff ref + f.x.toInt⟩
/-- Keep the record of one of the 8 semaphore words the block most recently waited on, the latest first (R345). -/
def Block.semRec (b : Block) (ia : Nat) (g : WaitRec → WaitRec) : Block :=
  let others := b.semRecs.filter (·.ia != ia)
  { b with semRecs := g ((b.semRecs.find? (·.ia == ia)).getD { ia := ia }) :: others.take 7 }
/-- SEMWAIT: one indivisible step for each acting fibre in slot order; those whose count is not met wait, unless `.nb` (R347). -/
def execSemwait (f : Fields) (s : State) : Result := s.noTry f 0x11 fun s =>
  let c := s.curCrew
  match s.checkWants (s.semWants f) 4 (Req.atom 4) .load with
  | .error (i, ev) => s.raise f (some i) ev
  | .ok as =>
    if s.mustHold (as.map fun p => (p.2, 4)) then s.stall 4
    else
      let r := as.foldl (fun (x : State × List (Nat × List (Nat × Word)) × List (Nat × Nat) × Bool) p =>
        let old : Word := ofBytes 32 (x.1.bytes p.2.place.phys 4)
        let n := (c.fibre p.1.slot).reg f.b.toNat
        let t := (x.1.keepRef p.1 p.2).dropL1 x.1.curCore p.2.ia 4
        let wr := x.2.1 ++ [(p.1.slot, [(f.d.toNat, old)])]
        if n.toNat ≤ old.toNat then
          let t := t.store (t.agent p.1.slot) t.curBlock.task none p.2 false (toBytes 4 (old - n))
          let t := t.updBlock t.cur.blk fun b => b.semRec p.2.ia (·.last t.cur.crew (b.index t.curTask) t.cur.pc)
          (t, wr, x.2.2.1, true)
        else
          let t := t.note p.2 false false
          if f.mbit 0 then (t, wr, x.2.2.1, x.2.2.2)
          else (t.updBlock t.cur.blk fun b => b.semRec p.2.ia id, wr, x.2.2.1 ++ [(p.1.slot, p.2.ia)], x.2.2.2)) (s, [], [], false)
      let s := if r.2.2.2 then r.1.acquires else r.1
      let ia (i : Nat) : Nat := ((r.2.2.1.find? (·.1 == i)).map (·.2)).getD 0
      .next (s.partWait f (maskOf 32 (r.2.2.1.map (·.1))) r.2.1 fun i => .sem (ia i))
/-- SEMPOST: a saturating add, a release (R347). -/
def execSempost (f : Fields) (s : State) : Result := s.noTry f 0x11 fun s =>
  let c := s.curCrew
  match s.checkWants (s.semWants f) 4 (Req.atom 4) .load with
  | .error (i, ev) => s.raise f (some i) ev
  | .ok as =>
    if s.mustHold (as.map fun p => (p.2, 4)) then s.stall 4
    else
      match (match as with | p :: _ => s.release p.1.slot | [] => .ok s) with
      | .error e => s.stopWith f e
      | .ok s =>
        let r := as.foldl (fun (x : State × List (Nat × List (Nat × Word))) p =>
          let old : Word := ofBytes 32 (x.1.bytes p.2.place.phys 4)
          let new := BitVec.ofNat 32 (min (old.toNat + ((c.fibre p.1.slot).reg f.b.toNat).toNat) 0xFFFFFFFF)
          let t := (x.1.keepRef p.1 p.2).store (x.1.agent p.1.slot) x.1.curBlock.task none p.2 false (toBytes 4 new)
          (t, x.2 ++ [(p.1.slot, [(f.d.toNat, old)])])) (s, [])
        .next (r.1.partWait f 0 r.2 fun _ => .none)

/-! ### Work queues (R350 to R354) -/

def State.queue (s : State) (q : Nat) : QueueDesc := (Sparse.find? s.queues q).getD {}
def State.updQueue (s : State) (q : Nat) (g : QueueDesc → QueueDesc) : State :=
  { s with queues := Sparse.insert q (g (s.queue q)) s.queues }
def State.service (s : State) (q : Nat) : SvcDesc := (Sparse.find? s.services q).getD {}
/-- IA of the slot of a position. -/
def QueueDesc.slot (d : QueueDesc) (p : DWord) : Nat := d.ring + 64 * (p.toNat % 2 ^ d.log)
def QueueDesc.full (d : QueueDesc) : Bool := (d.tail - d.head).toNat == 2 ^ d.log
/-- Push one entry of 56 bytes: the slot, its SEQ last, and PUB behind it (R352). -/
def State.push (s : State) (q : Nat) (data : List Byte) : State :=
  let d := s.queue q
  let s := (s.iaWrite (d.slot d.tail) (data.take 56)).iaWrite (d.slot d.tail + 56) (toBytes 8 d.tail)
  s.updQueue q fun d => { d with tail := d.tail + 1, pub := d.tail + 1 }

/-- Checks 1 to 6 of R189 on a QUEUE handle and the queue it names (R350). An offset other than 0 fails check 5. -/
def State.queueOf (s : State) (ref : DWord) (w : Bool) : Except Event Nat :=
  match s.entry s.curCore s.curCtx ref (refOff ref) with
  | .error ev => .error ev
  | .ok e =>
    if Ent.invalid e then .error (memFault causeGeneration ref (refOff ref))
    else if Ent.tenant e != s.curTenant then .error (memFault causeTenant ref (refOff ref))
    else if Ent.gen e != refGen ref then .error (memFault causeGeneration ref (refOff ref))
    else if refOff ref != 0 then .error (memFault causeBounds ref (refOff ref))
    else if Ent.kind e != 5 || !(if w then bit e 4 else bit e 3) then .error (memFault causeRights ref (refOff ref))
    else .ok (Ent.aux e % 4096)
/-- A queue instruction's queue: right, then whether it must be, or must not be, a service queue (R350, R355). -/
def State.queueFor (s : State) (ref : DWord) (w serv : Bool) : Except Event Nat :=
  match s.queueOf ref w with
  | .error ev => .error ev
  | .ok q => if (s.service q).serv == serv then .ok q else .error (memFault causeRights ref (refOff ref))
/-- The entry address of R351: ALIGN, then BOUNDS. -/
def State.entryAddr (s : State) (a : Word) : Option Event :=
  if a.toNat % 64 != 0 then some (scrFault causeAlign a.toNat)
  else if s.scrBytes < a.toNat + 64 || s.curBlock.meetsWindow a.toNat 64 then some (scrFault causeBounds a.toNat)
  else none

/-- The queue of each acting fibre with its checks made, in slot order; one that has already acted is not checked again. -/
def State.queueWants {α : Type} (s : State) (f : Fields) (chk : Fibre → Except Event α) : Except (Nat × Event) (List (Nat × α)) :=
  let rec go : List Nat → Except (Nat × Event) (List (Nat × α))
    | [] => .ok []
    | i :: r => match chk (s.curCrew.fibre i) with
      | .error ev => .error (i, ev)
      | .ok q => match go r with | .error x => .error x | .ok t => .ok ((i, q) :: t)
  go ((s.acting f).filter fun i => !(s.curCrew.fibre i).acted)
/-- A fibre of a partly performed instruction has acted: its result stands, and it never acts again (R120, R335, R352). -/
def State.actedFor (s : State) (i : Nat) (wr : List (Nat × Word)) : State :=
  s.updCur fun c => c.updFibre i fun fb => { fb.setRegs wr with acted := true }
/-- Perform a per-fibre step in slot order, skipping the fibres that have acted, until one stalls; for a stall `step` answers the error of
the state in which the strand waits (R120, R121, R352, R355). -/
def State.inOrder {α : Type} (s : State) (cls : Nat) (step : State → Nat × α → Except State (State × List (Nat × Word))) :
    List (Nat × α) → Result
  | [] => .next s.goOn
  | x :: r =>
    if (s.curCrew.fibre x.1).acted then s.inOrder cls step r
    else match step s x with
      | .error s' => s'.stall cls
      | .ok (s', wr) => (s'.actedFor x.1 wr).inOrder cls step r

/-- The fibres still to act of an instruction of which some of the strand in execution have acted (R335). -/
def Crew.partWork (c : Crew) (m : Mask) : Option (List (Nat × Nat)) := (c.partway.find? (·.mask == m)).map (·.left)
/-- The strand in execution no longer stands in the middle of an instruction. -/
def State.partDone (s : State) : State := s.updCur fun c => { c with partway := c.partway.filter fun w => w.mask &&& s.cur.mask == 0 }
/-- Perform the steps of a WQPUSH or SVC as `State.inOrder` does. Once one fibre has acted, no trap and no save comes before the others have: what
their checks have found is kept (R335). -/
def State.pushSteps (s : State) (step : State → Nat × Nat → Except State (State × List (Nat × Word))) : List (Nat × Nat) → Result
  | [] => .next s.partDone.goOn
  | x :: r =>
    if (s.curCrew.fibre x.1).acted then s.pushSteps step r
    else match step s x with
      | .error t =>
        let kept (t : State) : State := t.partDone.updCur fun c => { c with partway := c.partway ++ [⟨t.cur.mask, t.cur.pc, t.cur.word, x :: r⟩] }
        if (ones s.cur.mask).any fun i => (s.curCrew.fibre i).acted then (kept t).stall 4 else t.stall 4
      | .ok (t, wr) => (t.actedFor x.1 wr).pushSteps step r
/-- The frame of WQPUSH and SVC: every check and the release first, then the steps; one that stands part-way goes on with its steps alone
(R335, R352, R355). -/
def State.pushForm (s : State) (f : Fields) (chk : Fibre → Except Event Nat)
    (step : State → Nat × Nat → Except State (State × List (Nat × Word))) : Result :=
  match s.curCrew.partWork s.cur.mask with
  | some l => s.pushSteps step l
  | none => match s.queueWants f chk with
    | .error (i, ev) => s.raise f (some i) ev
    | .ok l =>
      match (match l with | x :: _ => s.release x.1 | [] => .ok s) with
      | .error e => s.stopWith f e
      | .ok s => s.pushSteps step l

/-- The checks of one fibre of WQPUSH, in order (R350 to R352). -/
def State.pushCheck (s : State) (f : Fields) (fb : Fibre) : Except Event Nat :=
  match s.queueFor (fb.pair f.a.toNat) true false with
  | .error ev => .error ev
  | .ok q =>
    if (s.queue q).mode then .error (memFault causeRights (fb.pair f.a.toNat) 0)
    else match s.entryAddr (fb.reg f.b.toNat) with | some ev => .error ev | none => .ok q
/-- One fibre's step of WQPUSH (R352). -/
def pushStep (f : Fields) (c : Crew) (s : State) (x : Nat × Nat) : Except State (State × List (Nat × Word)) :=
  let d := s.queue x.2
  if !d.en || d.closed then .ok (s, [(f.d.toNat, 2)])
  else if d.full then if f.mbit 0 then .ok (s, [(f.d.toNat, 1)]) else .error s
  else match s.ownWait (d.slot d.tail) 64 true with
    | some t => .error t
    | none => .ok (s.push x.2 (s.curBlock.scrN ((c.fibre x.1).reg f.b.toNat).toNat 56), [(f.d.toNat, 0)])
/-- WQPUSH (R352). -/
def execWqpush (f : Fields) (s : State) : Result :=
  s.noTry f 0x11 fun s => s.pushForm f (s.pushCheck f) (pushStep f s.curCrew)

/-- One WQNOTE at the hub: HEAD as returned and the descriptor after it, or BOUNDS (R353). -/
def QueueDesc.noteTo (d : QueueDesc) (v : DWord) (close : Bool) : Option QueueDesc :=
  let d' : QueueDesc := if close then { d with closed := true } else d
  if d.en && d.mode && d.pub.ult v then
    if 2 ^ d.log < (v - d.head).toNat then none else some { d' with pub := v }
  else some d'
/-- WQNOTE: the hub decides every fibre's step before any takes effect (R353, R335). -/
def execWqnote (f : Fields) (s : State) : Result := s.noTry f 0x11 fun s =>
  let close := f.mbit 0
  let chk (fb : Fibre) : Except Event Nat :=
    match s.queueFor (fb.pair f.a.toNat) true false with
    | .error ev => .error ev
    | .ok q => if !close && !(s.queue q).mode then .error (memFault causeRights (fb.pair f.a.toNat) 0) else .ok q
  let c := s.curCrew
  match s.queueWants f chk with
  | .error (i, ev) => s.raise f (some i) ev
  | .ok l =>
    let rec go (s : State) (wr : List (Nat × List (Nat × Word))) :
        List (Nat × Nat) → Except (Nat × Event) (State × List (Nat × List (Nat × Word)))
      | [] => .ok (s, wr)
      | (i, q) :: r =>
        let d := s.queue q
        match d.noteTo ((c.fibre i).pair f.b.toNat) close with
        | none => .error (i, memFault causeBounds ((c.fibre i).pair f.a.toNat) 0)
        | some d' => go (s.updQueue q fun _ => d') (wr ++ [(i, pairWrites f.d.toNat d.head)]) r
    match (match l with | x :: _ => s.release x.1 | [] => .ok s) with
    | .error e => s.stopWith f e
    | .ok s =>
      match go s [] l with
      | .error (i, ev) => s.raise f (some i) ev
      | .ok (s', wr) => .next (s'.partWait f 0 wr fun _ => .none)

/-- WQPOP: one step at the hub for each fibre; an empty queue makes it wait unless `.nb` (R354). -/
def execWqpop (f : Fields) (s : State) : Result := s.noTry f 0x11 fun s =>
  let chk (fb : Fibre) : Except Event Nat :=
    match s.queueFor (fb.pair f.a.toNat) false false with
    | .error ev => .error ev
    | .ok q => match s.entryAddr (fb.reg f.b.toNat) with | some ev => .error ev | none => .ok q
  let c := s.curCrew
  match s.queueWants f chk with
  | .error (i, ev) => s.raise f (some i) ev
  | .ok l =>
    if l.any fun p => s.scrLocked s.cur.blk ((c.fibre p.1).reg f.b.toNat).toNat 64 then s.stall 4 else
    match l.findSome? fun p => let d := s.queue p.2; s.ownWait (d.slot d.head) (64 * min l.length (d.tail - d.head).toNat) false with
    | some t => t.stall 4
    | none =>
    let r := l.foldl (fun (x : State × List (Nat × List (Nat × Word)) × List (Nat × Nat)) p =>
      let d := x.1.queue p.2
      let ans (v : Word) := x.2.1 ++ [(p.1, [(f.d.toNat, v)])]
      if !d.en || (d.closed && d.head == d.pub) then (x.1.acquires, ans 2, x.2.2)
      else
        let slot := x.1.iaBytes (d.slot d.head) 64
        if d.head == d.pub || (ofBytes 64 (slot.drop 56) : DWord) != d.head then
          if f.mbit 0 then (x.1.acquires, ans 1, x.2.2) else (x.1.acquires, x.2.1, x.2.2 ++ [p])
        else
          let s := (x.1.noteOwn (d.slot d.head) 64 false).acquires.updBlock x.1.cur.blk (·.setScr ((c.fibre p.1).reg f.b.toNat).toNat slot)
          (s.updQueue p.2 fun d => { d with head := d.head + 1 }, ans 0, x.2.2)) (s, [], [])
    let q (i : Nat) : Nat := ((r.2.2.find? (·.1 == i)).map (·.2)).getD 0
    .next (r.1.partWait f (maskOf 32 (r.2.2.map (·.1))) r.2.1 fun i => .queue (q i))

end Sys2Proof.Machine
end

