-- ==== Sys2Proof/Machine/Engines.lean ====
section
/-! DEFINITION. What every engine instruction shares: issue rules, operand checks and descriptor snapshots (R251 to R263), faults met
while an engine works (R258), regions for tier actions (R228), and retirement in class order with its stamp (R253 to R255). -/

namespace Sys2Proof.Machine
open Bits

/-! ### Issue (R252, R256, R280) -/

/-- An engine instruction of group `g` and class `cls`: tries first, NOP without a guard-true fibre, and a full counter stalls; `k`
gets the lowest acting slot (R252, R256, R367). -/
def State.engineForm (s : State) (f : Fields) (g cls : Nat) (k : State → Nat → Result) : Result := s.noTry f g fun s =>
  match s.acting f with
  | [] => .next s.goOn
  | l :: _ => if 255 ≤ (s.curCrew.counters[cls]?).getD 0 then s.stall 4 else k s l
/-- The same for a form that needs a converged strand, whatever the guards hold (R280). -/
def State.wholeForm (s : State) (f : Fields) (g cls : Nat) (k : State → Nat → Result) : Result := s.noTry f g fun s =>
  if !s.converged then s.unconverged f
  else match s.acting f with
    | [] => .next s.goOn
    | l :: _ => if 255 ≤ (s.curCrew.counters[cls]?).getD 0 then s.stall 4 else k s l
/-- Finish an engine instruction: raise the fault of slot `l`, or go on with what the checks gave. -/
def State.checked {α : Type} (s : State) (f : Fields) (l : Nat) (x : Except Event α) (k : α → Result) : Result :=
  match x with
  | .error ev => s.raise f (some l) ev
  | .ok a => k a

/-- Start an operation: it is queued, its class's counter rises, and the strand goes on (R251). -/
def State.startOp (s : State) (cls : Nat) (o : EngineOp) : State :=
  let b := s.curBlock
  let s' := s.goOn.updCur fun c => if o.counted then { c with counters := c.counters.modify cls (· + 1) } else c
  { s' with
    ops := s'.ops ++ [{ o with id := s.nextId, blk := s.cur.blk, crew := s.cur.crew, core := b.core, task := b.task, ctx := s.curCtx
                               cls := cls, pc := s.cur.pc }]
    nextId := s.nextId + 1 }
/-- An operation before `startOp` names it. -/
def newOp (work : Work) (stamp : Option MemOperand) (ranges locked : List (Nat × Nat)) : EngineOp :=
  { id := 0, blk := 0, crew := 0, core := 0, task := 0, ctx := 0, cls := 0, work := work, stamp := stamp, ranges := ranges, locked := locked }

/-! ### Operand checks (R254, R257, R263) -/

/-- A checked condition. -/
def need (b : Bool) (ev : Event) : Except Event Unit := if b then .ok () else .error ev
/-- A scratchpad range of an engine: within the block's scratchpad and clear of its windows (R200, R257). -/
def State.xuRange (s : State) (a n : Nat) : Except Event Unit :=
  need (decide (a + n ≤ s.scrBytes) && !s.curBlock.meetsWindow a n) (scrFault causeBounds a)
/-- A memory operand: checks 1 to 8 with right ENGINE (R257), made at offset `o` for `n` bytes. -/
def State.xuMem (s : State) (ref : DWord) (o : Int) (n : Nat) (q : Req) : Except Event MemOperand :=
  match s.checkHandle s.curCore s.curCtx s.curTenant ref o n { q with engine := true } with
  | .error ev => .error ev
  | .ok e => .ok { ref := ref, ent := e, o := o, n := n, req := { q with engine := true } }
/-- Rights of an engine operand. -/
def engineReq (w : Bool) : Req := { kinds := [1, 2, 3, 4], r := !w, w := w }
/-- The stamp of a form: a DATA object with W and ENGINE, at a multiple of 8 (R254). -/
def State.stampOf (s : State) (ref : DWord) : Except Event (Option MemOperand) :=
  (s.xuMem ref (refOff ref) 8 { kinds := [1], w := true, align := 8 }).map some
/-- The stamp named by D of the lowest slot when MOD[10] is set. -/
def State.stampFor (s : State) (f : Fields) (l : Nat) : Except Event (Option MemOperand) :=
  if f.mbit 10 then s.stampOf ((s.curCrew.fibre l).pair f.d.toNat) else .ok none
/-- Keep the handle entries that an instruction's checks used. -/
def State.keepEntries (s : State) (l : List MemOperand) : State := l.foldl (fun s m => s.keepEntry s.curCore s.curCtx m.ref) s

/-- Core clock of the first read of a block whose CHECK failed, while its second read is awaited (R263). -/
def State.tornFrom (s : State) (ref : DWord) : Option Nat :=
  (ones s.cur.mask).findSome? fun i => ((s.curCrew.fibre i).tornAt.filter (·.2 == ref)).map (·.1)
/-- What a snapshot read with a right or a wrong CHECK gives: after the first wrong one the block is read once more, no sooner than 256 clk
later, and a second wrong one is PARAM_TORN (R263). -/
def State.snapRead {α : Type} (s : State) (ref : DWord) (whole : Bool) (v : α) : Except Event α :=
  let torn (c : BitVec 8) : Except Event α := .error { cause := c, ref := ref, arg0 := BitVec.ofNat 64 (refOff ref) }
  match s.tornFrom ref with
  | none => if whole then .ok v else torn causeTornOnce
  | some t =>
    if s.clkOf s.cur.blk < t + 256 then torn causeTornOnce
    else if whole then .ok v else torn causeParamTorn
/-- What a snapshot asks of its handle (R263). -/
def snapReq : Req := { kinds := [3], r := true, align := 64 }
/-- The snapshot of a 64-byte parameter block: PARAM, right R, a multiple of 64, one read (R263). -/
def State.snapshot (s : State) (ref : DWord) : Except Event (BitVec 512) :=
  match s.checkRef ref (refOff ref) 64 snapReq .load with
  | .error ev => .error ev
  | .ok a => let v : BitVec 512 := ofBytes 512 (s.bytes a.place.phys 64); s.snapRead ref (sealed64 v) v
/-- The snapshot leaves its line in the core's parameter-block cache of 64 lines (R263). -/
def State.keepParam (s : State) (ref : DWord) : State :=
  let s := s.keepEntry s.curCore s.curCtx ref
  match s.checkRef ref (refOff ref) 64 snapReq .load with
  | .error _ => s
  | .ok a => (s.note a false false).updCore s.curCore fun k =>
      if k.params.contains (a.ia / 64) then k else { k with params := (a.ia / 64 :: k.params).take 64 }
def illegalEncoding : Event := { cause := causeIllegalEncoding }

/-! ### Saved and resident crews -/

/-- Update a crew wherever its block is: on a core, or in a save image (R408). -/
def State.updCrewAll (s : State) (bid ci : Nat) (g : Crew → Crew) : State :=
  let s := s.updCrew bid ci g
  { s with tasks := s.tasks.map fun t => t.mapSaved fun b => if b.bid == bid then b.updCrew ci g else b }
/-- The block is on a core. -/
def State.resident_ (s : State) (bid : Nat) : Bool := s.blocks.any (·.bid == bid)

/-! ### Faults met while an engine works (R258, R402) -/

/-- Write an operation's trap record, or hold it while it must wait (R402). -/
def State.opRecord (s : State) (o : EngineOp) (e : Event) : State :=
  match s.recordWait o.ctx with
  | some t => t.updOp o.id fun o => { o with pendRec := some { e with time := some s.devTime } }
  | none => (s.blockRecord o.blk o.crew e 1).updOp o.id fun o => { o with pendRec := none }
/-- A fault of a working operation: a retry-class one parks it with a record, any other ends it FAULT and leaves ENGINE_FATAL for
its crew (R258). For an access that must wait it only sets going what the wait needs. -/
def State.opFault (s : State) (id : Nat) (e : Event) : State :=
  match s.op id with
  | none => s
  | some o =>
    let e := { e with src := 1, pc := o.pc }
    if e.cause == causeWait then s.setGoing e
    else if e.cause.toNat < 0x10 then
      ((s.setGoing e).updOp id fun o =>
        { o with
          phase := .parked
          back := if o.phase == .parked then o.back else o.phase
          memLocks := []
          parkPage := pageKey e.arg1.toNat
          parkLost := e.cause == causeLeaseLost }).opRecord o e
    else
      (s.updOp id fun o => { o with phase := .ended, status := max o.status 2, memLocks := [], locked := [] }).updCrewAll o.blk o.crew
        fun c => { c with fatals := c.fatals ++
          [{ e with cause := causeEngineFatal, arg1 := e.arg1 ||| at_ 64 56 8 e.cause.toNat }] }

/-- A crew's ENGINE_FATAL can be delivered (R258). -/
def State.fatalDue (s : State) (blk crew : Nat) : Bool :=
  let b := s.block blk
  let c := s.crew blk crew
  !c.fatals.isEmpty && s.resident_ blk && !b.stopped && !b.saving && !c.moving && c.filled && c.pendTraps.isEmpty && c.partway.isEmpty
/-- ENGINE_FATAL is raised at once when every live fibre waits or is parked: no retirement ends their wait before it (R258). -/
def State.fatalFirst (s : State) (blk crew : Nat) : Bool :=
  let c := s.crew blk crew
  s.fatalDue blk crew && c.nextPlace.isNone && c.lowestIdle != 0

/-- One access of a working operation: IA formation, then checks 9 and 10; `at_` is the first destination sector not done (R404). -/
def State.opAccess (s : State) (o : EngineOp) (m : MemOperand) (off n : Nat) (acc : Access) (at_ : Nat) : Except Event Acc :=
  let mark (ev : Event) : Event := { ev with ref := m.ref, arg0 := BitVec.ofNat 64 at_ }
  match s.iaOf o.core o.ctx m.ent m.ref off with
  | .error ev => .error (mark ev)
  | .ok ia => match s.checkPlace ia n acc with
    | .error c => .error (mark (memFault c m.ref off (if c == causeWait then s.waitLine ia n else ia)))
    | .ok p => .ok { ent := m.ent, ia := ia, place := p }

/-- Repeat an operand's checks 1 to 8 with the current entry after an invalidation (R413): the operand with its entry, or the fault, which
names the first destination sector not done (R404). -/
def State.recheckOperand (s : State) (o : EngineOp) (at_ : Nat) (m : MemOperand) : Except Event MemOperand :=
  match s.checkHandle o.core o.ctx (s.ctx o.ctx).tenant m.ref m.o m.n m.req with
  | .error ev => .error { ev with arg0 := BitVec.ofNat 64 at_ }
  | .ok e => .ok { m with ent := e }

/-! ### Copies: one move at a time (R255, R259, R260) -/

/-- Where a move's destination sector begins (R404). -/
def MoveDst.sector : MoveDst → Nat
  | .mem _ o => o / 32 * 32
  | .scr _ a => a / 32 * 32
/-- The move reads something from within range. -/
def Move.inRange (m : Move) : Bool := match m.src with | .zero => false | _ => true
/-- Bytes a move reads: none of the source's values changes under it; a poisoned source line is fatal (R258). -/
def State.moveRead (s : State) (o : EngineOp) (mems : List MemOperand) (m : Move) : Except Event (State × List Byte) :=
  match m.src with
  | .zero => .ok (s, List.replicate m.n 0)
  | .scr a =>
    let b := s.block o.blk
    if b.scrPoisoned a m.n then .error { cause := causePoison, arg0 := BitVec.ofNat 64 m.dst.sector }
    else .ok (s, b.scrN a m.n)
  | .mem k off =>
    match s.opAccess o ((mems[k]?).getD {}) off m.n .load m.dst.sector with
    | .error ev => .error ev
    | .ok a => .ok (s.note a false o.stream, s.bytes a.place.phys m.n)
/-- Perform one move; false when it must wait for locked bytes (R259, R291). -/
def State.moveOnce (s : State) (o : EngineOp) (mems : List MemOperand) (m : Move) : Except Event (Bool × State) :=
  match s.moveRead o mems m with
  | .error ev => .error ev
  | .ok (s, data) =>
    match m.dst with
    | .scr blk a =>
      if s.scrLocked blk a m.n then .ok (false, s) else .ok (true, s.updBlock blk (·.setScr a data))
    | .mem k off =>
      match s.opAccess o ((mems[k]?).getD {}) off m.n .store m.dst.sector with
      | .error ev => .error ev
      | .ok a =>
        if s.lineLocked a.ia m.n then .ok (false, s)
        else .ok (true, s.store .other o.task (some o.id) a o.stream data)
/-- Bytes that an operation's moves wrote, keyed by their destination object. -/
def Move.bytesAt (m : Move) : List (Nat × Nat) :=
  (List.range m.n).map fun i => match m.dst with
    | .mem k o => (k + 1, o + i)
    | .scr b a => (0, b * 2 ^ 32 + a + i)
/-- A finished copy clears the poison of each line it wrote whole (R472): its sources carried none. -/
def State.clearWhole (s : State) (o : EngineOp) (mems : List MemOperand) (done : List Move) : State :=
  let written := done.flatMap Move.bytesAt
  let lines := (written.map fun x => (x.1, x.2 / 64)).eraseDups
  let whole := lines.filter fun l => (List.range 64).all fun i => written.contains (l.1, l.2 * 64 + i)
  whole.foldl (fun s l =>
    if l.1 == 0 then s.updBlock (l.2 / 2 ^ 26) fun b => { b with scratchPoison := b.scratchPoison.filter (· != l.2 % 2 ^ 26) }
    else match s.opAccess o ((mems[l.1 - 1]?).getD {}) (64 * l.2) 64 .write 0 with
      | .ok a => { s with poison := s.poison.filter (· != a.place.phys / 64) }
      | .error _ => s) s
/-- Distinct destination sectors that received a byte from within range (R255). -/
def sectorsOf (mems : List MemOperand) (done : List Move) : Nat :=
  ((done.filter Move.inRange).map fun m => match m.dst with
    | .mem k o => (refIndex ((mems[k]?).getD {}).ref + 1, o / 32)
    | .scr b a => (0, b * 2 ^ 27 + a / 32)).eraseDups.length

/-! ### Chunks of a collective (R272, R273) -/

/-- Bytes of an element. -/
def collBytes (ty : Nat) : Nat := if ty == 9 || ty == 10 then 2 else 4
/-- First element and length of chunk c. -/
def chunkAt (n count c : Nat) : Nat × Nat :=
  let q := count / n
  let t := count % n
  (c * q + min c t, if c < t then q + 1 else q)
/-- Chunk numbers, taken modulo N. -/
def chunkNo (n : Nat) (i : Int) : Nat := (i % n).toNat
/-- The chunk of the buffer that a collective writes next when it stands at a step. -/
def nextChunk (n pos kind step : Nat) : Nat :=
  if kind == 3 then chunkNo n ((pos : Int) - 1 - step)
  else if step < n - 1 then chunkNo n pos
  else chunkNo n ((pos : Int) - 1 - (step - (n - 1) : Nat))
/-- A collective's first destination sector not done, as an offset in its buffer (R404). -/
def EngineOp.collSector (o : EngineOp) (kind ty count step : Nat) (buf : MemOperand) : Nat :=
  (refOff buf.ref + (chunkAt o.members.length count (nextChunk o.members.length o.pos kind step)).1 * collBytes ty) / 32 * 32

/-! ### Regions of an object, for PFX, WBX and the tier actions (R228, R267, R19) -/

/-- IA line numbers of a region of an object clipped to it; offsets whose block-table entry cannot be had are skipped. -/
def State.regionLines (s : State) (core ctx : Nat) (m : MemOperand) (o len : Nat) : List Nat :=
  let hi := min (o + len) (Ent.len m.ent)
  let first := o / 64
  ((List.range ((hi + 63) / 64 - first)).filterMap fun i =>
    match s.iaOf core ctx m.ent m.ref (max o (64 * (first + i))) with
    | .ok ia => some (ia / 64)
    | .error _ => none).eraseDups
/-- IA pages of a region. -/
def State.regionPages (s : State) (core ctx : Nat) (m : MemOperand) (o len : Nat) : List Nat :=
  ((s.regionLines core ctx m o len).map (· / 1024)).eraseDups
/-- PROMOTE on one page, for a task's declaration or for a block's PFX: a swap request for a LOCAL page in a slow slot, expansion for a
COMPRESSED one (R228, R267). -/
def State.promotePage (s : State) (page : Nat) (task blk : Option Nat) : State :=
  let e := s.pte (page * 65536)
  if (s.mtu (page / 2 ^ 33)).mptlen ≤ page % 2 ^ 33 then s
  else match field e 61 3 with
    | 1 => if s.inFast (field e 0 25) then s else { s with promotions := s.promotions ++ [{ dfn := field e 0 25, task := task, blk := blk }] }
    | 2 => { s.setGoing { cause := causeCompressed, arg1 := BitVec.ofNat 64 (page * 65536) } with
        promotions := s.promotions ++ [{ dfn := 0, page := some page, task := task, blk := blk }] }
    | _ => s
/-- Bring a line of a region to its home slice, when its page is there (R228). -/
def State.prefetchLine (s : State) (e : BitVec 512) (line : Nat) : State :=
  match s.checkPlace (64 * line) 64 .load with
  | .ok _ => s.touchLine e (64 * line) false false
  | .error _ => s
/-- Set the heat of a LOCAL page's member to zero (R228, R267). -/
def State.demotePage (s : State) (page : Nat) : State :=
  match s.place (page * 65536) with
  | .ok p => if p.phys < zoneBase && field (s.pte (page * 65536)) 61 3 == 1 then { s with heat := Sparse.erase (p.phys / 65536) s.heat } else s
  | .error _ => s
/-- Write a dirty line that L2 or the victim cache holds to its tier; it stays valid and clean (R267). -/
def State.cleanLine (s : State) (line : Nat) : State :=
  let clean (s : State) (x : Option CacheLine) : State := match x with | some c => s.toTier line c | none => s
  { clean (clean s (Sparse.find? s.l2 line)) (Sparse.find? s.mvc line) with
    l2 := match Sparse.find? s.l2 line with | some c => Sparse.insert line { c with dirty := false } s.l2 | none => s.l2
    mvc := match Sparse.find? s.mvc line with | some c => Sparse.insert line { c with dirty := false } s.mvc | none => s.mvc }
/-- Sectors of a clipped region (R267). -/
def regionSectors (m : MemOperand) (o len : Nat) : Nat :=
  let hi := min (o + len) (Ent.len m.ent)
  if hi ≤ o then 0 else (hi - 1) / 32 - o / 32 + 1

/-! ### Retirement (R253, R254) -/

/-- Whether every earlier operation of the crew's class has retired. -/
def State.inClassOrder (s : State) (o : EngineOp) : Bool :=
  !o.counted || s.ops.all fun p => !(p.blk == o.blk && p.crew == o.crew && p.cls == o.cls && p.counted && p.id < o.id)
/-- The stamp update: SEQ rises by the count and STATUS becomes the greater, one atomic step at its home (R254); false when the line
is locked. -/
def State.stampUpdate (s : State) (o : EngineOp) (m : MemOperand) (count status : Nat) : Except Event (Bool × State) :=
  let off := refOff m.ref
  match s.opAccess o m off 8 .load off with
  | .error ev => .error ev
  | .ok a =>
    if s.lineLocked a.ia 8 then .ok (false, s)
    else
      let old : DWord := ofBytes 64 (s.bytes a.place.phys 8)
      let new : DWord := at_ 64 56 8 (max (field old 56 8) status) ||| at_ 64 0 56 (field old 0 56 + count)
      .ok (true, s.store .other o.task none a false (toBytes 8 new))
/-- Fibres of a crew whose WAITC has ended go on; its end is an acquire (R268, R317). -/
def State.wakeCounter (s : State) (bid ci cls : Nat) : State :=
  let n := ((s.crew bid ci).counters[cls]?).getD 0
  let due (fb : Fibre) : Bool := fb.st == .waiting && (match fb.wait with | .counter k m => k == cls && n ≤ m | _ => false)
  if (s.crew bid ci).fibres.any due then
    let s := s.updCrew bid ci fun c => { c with fibres := c.fibres.map fun fb => if due fb then fb.wake.next else fb }
    s.acquire (s.block bid).core bid
  else s
/-- Remove a retired operation and lower its class's counter (R251). -/
def State.dropOp (s : State) (o : EngineOp) : State :=
  let s : State := { s with ops := s.ops.filter (·.id != o.id) }
  if o.counted then
    (s.updCrewAll o.blk o.crew fun c => { c with counters := c.counters.modify o.cls (· - 1) }).wakeCounter o.blk o.crew o.cls
  else s

end Sys2Proof.Machine
end

