-- ==== Sys2Proof/Machine/Transfer.lean ====
section
/-! DEFINITION. Group 0x13: copies, gathers, prefetch and write-back, and the crew's counters (R261 to R269). -/

namespace Sys2Proof.Machine
open Bits

/-! ### ACP (R261) -/

/-- One lane of an ACP after its checks: its scratchpad address, and its operand with its offset, or none out of range. -/
structure Lane where
  b : Nat
  o : Nat
  m : Option MemOperand
  deriving DecidableEq, Repr

/-- A failure of check 5 alone, which `.zfill` turns into an out-of-range lane (R261). -/
def State.outOfRange (s : State) (ref : DWord) (o : Int) (n : Nat) : Bool :=
  match s.checkHandle s.curCore s.curCtx s.curTenant ref o n { kinds := [], r := true, engine := true } with
  | .error ev => ev.cause == causeBounds
  | .ok _ => false
/-- The checks of one lane, in order. -/
def State.acpLane (s : State) (f : Fields) (i : Nat) : Except Event Lane :=
  let fb := s.curCrew.fibre i
  let n := sizeBytes f.size
  let ref := fb.pair f.a.toNat
  let o : Int := refOff ref + f.x.toInt
  let b := (fb.reg f.b.toNat).toNat
  let oor := f.mbit 9 && s.outOfRange ref o n
  do
    need (decide (b + n ≤ s.scrBytes)) (scrFault causeBounds b)
    need (b % n == 0) (scrFault causeAlign b)
    need (!s.curBlock.meetsWindow b n) (scrFault causeBounds b)
    if oor then pure { b := b, o := o.toNat, m := none }
    else
      let m ← s.xuMem ref o n { engineReq (f.mbit 8) with align := n }
      pure { b := b, o := o.toNat, m := some m }
/-- Every lane in slot order, or the lowest slot's fault (R199). -/
def State.acpLanes (s : State) (f : Fields) : List Nat → Except (Nat × Event) (List Lane)
  | [] => .ok []
  | i :: r => match s.acpLane f i with
    | .error ev => .error (i, ev)
    | .ok x => match s.acpLanes f r with | .error e => .error e | .ok t => .ok (x :: t)
/-- The move of a lane, which owns operand `k`. -/
def Lane.move (blk : Nat) (store : Bool) (n k : Nat) (x : Lane) : Move :=
  match x.m with
  | none => ⟨.zero, .scr blk x.b, n⟩
  | some _ => if store then ⟨.scr x.b, .mem k x.o, n⟩ else ⟨.mem k x.o, .scr blk x.b, n⟩
/-- ACP (R261). -/
def execAcp (f : Fields) (s : State) : Result := s.engineForm f 0x13 0 fun s l =>
  let n := sizeBytes f.size
  match s.acpLanes f (s.acting f) with
  | .error (i, ev) => s.raise f (some i) ev
  | .ok lanes => s.checked f l (s.stampFor f l) fun st =>
    -- a lane that lies out of range has no operand
    let mems := lanes.filterMap (·.m)
    let moves := lanes.zipIdx.map fun x => x.1.move s.cur.blk (f.mbit 8) n ((lanes.take x.2).countP (·.m.isSome))
    .next ((s.keepEntries mems).startOp 0 { newOp (.copy mems moves []) st (lanes.map fun x => (x.b, n)) [] with stream := f.mbit 0 })

/-! ### Transfer descriptors (R262) -/

namespace Td
def ext (v : BitVec 512) (i : Nat) : Nat := field v (96 + 24 * i) 24
def org (v : BitVec 512) (i : Nat) : Int := (v.extractLsb' (192 + 24 * i) 24).toInt
def box (v : BitVec 512) (i : Nat) : Nat := field v (288 + 12 * i) 12
/-- Stride of dimension 1 to 3. -/
def str (v : BitVec 512) (i : Nat) : Nat := field v (336 + 40 * (i - 1)) 40
def mref (v : BitVec 512) : DWord := v.extractLsb' 32 64
def pack (v : BitVec 512) : Bool := bit v 21
def wlog (v : BitVec 512) : Nat := field v 16 5
def dims (v : BitVec 512) : Nat := field v 14 2 + 1
def esz (v : BitVec 512) : Nat := 2 ^ field v 12 2
def dir (v : BitVec 512) : Nat := field v 10 2
def opk (v : BitVec 512) : Nat := field v 8 2
/-- Reserved fields and values, and the fields of dimensions the tensor does not have. -/
def ok (v : BitVec 512) : Bool :=
  field v 0 8 == 1 && isZero v 456 24 && isZero v 22 10 && opk v ≤ 2 && dir v ≤ 1 && (wlog v == 0 || (10 ≤ wlog v && wlog v ≤ 19)) &&
  (List.range 4).all fun i => i < dims v || (ext v i == 0 && org v i == 0 && box v i == 0 && (i == 0 || str v i == 0))
/-- The scratchpad ring: its size and its base RB, or 0 (R264). -/
def ring (v : BitVec 512) : Nat := if wlog v == 0 then 0 else 2 ^ wlog v
/-- Scratchpad address of a byte offset from b under the ring rule (R264). -/
def scrAt (v : BitVec 512) (b k : Nat) : Nat :=
  if ring v == 0 then b + k else b - b % ring v + (b + k) % ring v
end Td

/-- Whether `bytes` from b fit under the rules of R264: the ring, the block's scratchpad and its windows. -/
def State.boxFits (s : State) (v : BitVec 512) (b bytes : Nat) : Bool :=
  let w := Td.ring v
  if w == 0 then b + bytes ≤ s.scrBytes && !s.curBlock.meetsWindow b bytes
  else
    let rb := b - b % w
    bytes ≤ w && rb + w ≤ s.scrBytes &&
      (if b % w + bytes ≤ w then !s.curBlock.meetsWindow b bytes
       else !s.curBlock.meetsWindow b (w - b % w) && !s.curBlock.meetsWindow rb (b % w + bytes - w))
/-- Scratchpad ranges that the box touches, for STASH (R257). -/
def boxRanges (v : BitVec 512) (b bytes : Nat) : List (Nat × Nat) :=
  let w := Td.ring v
  if w == 0 || b % w + bytes ≤ w then [(b, bytes)] else [(b, w - b % w), (b - b % w, b % w + bytes - w)]
/-- ALIGN of a descriptor copy (R264 check 2). -/
def tdAligned (v : BitVec 512) (b : Nat) : Bool :=
  let e := Td.esz v
  b % e == 0 && refOff (Td.mref v) % e == 0 && Td.str v 1 % e == 0 && Td.str v 2 % e == 0 && Td.str v 3 % e == 0

/-! ### TCP (R264) -/

/-- Offset of an element by its box coordinates. -/
def tdOffset (v : BitVec 512) (c : Nat → Int) : Int :=
  refOff (Td.mref v) + (Td.org v 0 + c 0) * Td.esz v + (Td.org v 1 + c 1) * Td.str v 1 + (Td.org v 2 + c 2) * Td.str v 2 +
    (Td.org v 3 + c 3) * Td.str v 3
/-- An element lies within the tensor. -/
def tdInside (v : BitVec 512) (c : Nat → Int) : Bool :=
  (List.range (Td.dims v)).all fun i => 0 ≤ Td.org v i + c i && Td.org v i + c i < Td.ext v i
/-- Elements of the box, c3 outermost. -/
def tdBox (v : BitVec 512) : List (Nat × Nat × Nat × Nat) :=
  (List.range (Td.box v 3 + 1)).flatMap fun c3 => (List.range (Td.box v 2 + 1)).flatMap fun c2 =>
    (List.range (Td.box v 1 + 1)).flatMap fun c1 => (List.range (Td.box v 0 + 1)).map fun c0 => (c0, c1, c2, c3)
/-- Coordinate i of an element. -/
def coord (c : Nat × Nat × Nat × Nat) : Nat → Int
  | 0 => c.1 | 1 => c.2.1 | 2 => c.2.2.1 | _ => c.2.2.2
/-- The highest coordinate of the clipped box in dimension i, or none when the clip is empty there. -/
def tdHigh (v : BitVec 512) (i : Nat) : Option Int :=
  if Td.dims v ≤ i then some 0
  else
    let hi : Int := min (Td.box v i : Int) ((Td.ext v i : Int) - 1 - Td.org v i)
    let lo : Int := max 0 (-Td.org v i)
    if hi < lo then none else some hi
/-- The offset of the highest byte of the clipped box; none when the clip is empty (R264 check 4). -/
def tdTop (v : BitVec 512) : Option Int :=
  match tdHigh v 0, tdHigh v 1, tdHigh v 2, tdHigh v 3 with
  | some a, some b, some c, some d =>
    some (tdOffset v (fun i => match i with | 0 => a | 1 => b | 2 => c | _ => d) + Td.esz v - 1)
  | _, _, _, _ => none
/-- The moves of a tensor copy in box order. -/
def tdMoves (v : BitVec 512) (blk b : Nat) : List Move :=
  ((tdBox v).zipIdx).filterMap fun x =>
    let c := coord x.1
    let a := Td.scrAt v b (x.2 * Td.esz v)
    if Td.dir v == 0 then
      some ⟨if tdInside v c then .mem 0 (tdOffset v c).toNat else .zero, .scr blk a, Td.esz v⟩
    else if tdInside v c then some ⟨.scr a, .mem 0 (tdOffset v c).toNat, Td.esz v⟩ else none
/-- The memory operand of a descriptor copy, checked at its highest byte. -/
def State.tdOperand (s : State) (v : BitVec 512) (w : Bool) (top : Option Int) : Except Event MemOperand :=
  match top with
  | some o => s.xuMem (Td.mref v) o 1 (engineReq w)
  | none => s.xuMem (Td.mref v) (refOff (Td.mref v)) 1 { engineReq w with bounds := false }
/-- TCP's checks, in the order of R264. -/
def State.tcpPlan (s : State) (f : Fields) (l : Nat) : Except Event (BitVec 512 × Nat × MemOperand × Option MemOperand) :=
  let fb := s.curCrew.fibre l
  let b := (fb.reg f.b.toNat).toNat
  do
    let v ← s.snapshot (fb.pair f.a.toNat)
    need (Td.ok v && Td.opk v == 0 && !Td.pack v) illegalEncoding
    need (tdAligned v b) (memFault causeAlign (Td.mref v) (refOff (Td.mref v)))
    let bytes := Td.esz v * ((Td.box v 0 + 1) * (Td.box v 1 + 1) * (Td.box v 2 + 1) * (Td.box v 3 + 1))
    need (s.boxFits v b bytes) (scrFault causeBounds b)
    let m ← s.tdOperand v (Td.dir v == 1) (tdTop v)
    let st ← s.stampFor f l
    pure (v, bytes, m, st)
/-- TCP (R264). -/
def execTcp (f : Fields) (s : State) : Result := s.engineForm f 0x13 0 fun s l =>
  let fb := s.curCrew.fibre l
  let b := (fb.reg f.b.toNat).toNat
  s.checked f l (s.tcpPlan f l) fun p =>
    .next (((s.keepParam (fb.pair f.a.toNat)).keepEntries [p.2.2.1]).startOp 0
      (newOp (.copy [p.2.2.1] (tdMoves p.1 s.cur.blk b) []) p.2.2.2 (boxRanges p.1 b p.2.1) []))

/-! ### GATHER (R265) -/

/-- Rows of a gather with the slot each goes to: row numbers by list, or the set bits of a mask, packed or in place. -/
def gatherRows (v : BitVec 512) (list : List Byte) : List (Nat × Nat) :=
  let k := Td.box v 1 + 1
  if Td.opk v == 1 then (List.range k).map fun i => ((ofBytes 32 ((list.drop (4 * i)).take 4) : Word).toNat, i)
  else
    let rows := (List.range k).filter fun i => ((list[i / 8]?).getD 0).getLsbD (i % 8)
    if Td.pack v then rows.zipIdx else rows.map fun r => (r, r)
/-- The moves of a gather. -/
def gatherMoves (v : BitVec 512) (list : List Byte) (blk b : Nat) : List Move :=
  (gatherRows v list).flatMap fun x => (List.range (Td.box v 0 + 1)).map fun c0 =>
    let a := Td.scrAt v b ((x.2 * (Td.box v 0 + 1) + c0) * Td.esz v)
    let src : MoveSrc := if c0 < Td.ext v 0 && x.1 < Td.ext v 1 then
      .mem 0 (refOff (Td.mref v) + c0 * Td.esz v + x.1 * Td.str v 1) else .zero
    ⟨src, .scr blk a, Td.esz v⟩
/-- Bytes of the list or mask. -/
def gatherList (v : BitVec 512) : Nat := if Td.opk v == 1 then 4 * (Td.box v 1 + 1) else (Td.box v 1 + 8) / 8
/-- GATHER's checks, in the order of R265. -/
def State.gatherPlan (s : State) (f : Fields) (l : Nat) : Except Event (BitVec 512 × Nat × MemOperand × Option MemOperand) :=
  let fb := s.curCrew.fibre l
  let b := (fb.reg f.b.toNat).toNat
  let c := (fb.reg f.c.toNat).toNat
  do
    let v ← s.snapshot (fb.pair f.a.toNat)
    need (Td.ok v && (Td.opk v == 1 || Td.opk v == 2) && Td.dims v == 2 && Td.dir v == 0 &&
      Td.org v 0 == 0 && Td.org v 1 == 0 && (!Td.pack v || Td.opk v == 2)) illegalEncoding
    need (tdAligned v b && (Td.opk v == 2 || c % 4 == 0)) (memFault causeAlign (Td.mref v) (refOff (Td.mref v)))
    s.xuRange c (gatherList v)
    let bytes := Td.esz v * ((Td.box v 0 + 1) * (Td.box v 1 + 1))
    need (s.boxFits v b bytes) (scrFault causeBounds b)
    let top : Option Int := if Td.ext v 1 == 0 then none else
      some (refOff (Td.mref v) + ((Td.ext v 1 : Int) - 1) * Td.str v 1 + (min (Td.ext v 0) (Td.box v 0 + 1) * Td.esz v : Nat) - 1)
    let m ← s.tdOperand v false top
    let st ← s.stampFor f l
    pure (v, bytes, m, st)
/-- GATHER: the list or mask is read once, at issue; a poisoned list is a poisoned source line (R265, R258). -/
def execGather (f : Fields) (s : State) : Result := s.engineForm f 0x13 2 fun s l =>
  let fb := s.curCrew.fibre l
  let b := (fb.reg f.b.toNat).toNat
  let c := (fb.reg f.c.toNat).toNat
  s.checked f l (s.gatherPlan f l) fun p =>
    let list := s.curBlock.scrN c (gatherList p.1)
    let bad := s.curBlock.scrPoisoned c (gatherList p.1)
    let id := s.nextId
    let s' := ((s.keepParam (fb.pair f.a.toNat)).keepEntries [p.2.2.1]).startOp 2
      (newOp (.copy [p.2.2.1] (gatherMoves p.1 list s.cur.blk b) []) p.2.2.2 (boxRanges p.1 b p.2.1) [])
    .next (if bad then s'.opFault id { cause := causePoison, arg0 := BitVec.ofNat 64 (b / 32 * 32) } else s')

/-! ### PUT (R266) -/

/-- The block of the issuing task at a place of its rectangle. -/
def State.blockAt (s : State) (task bx byy : Nat) : Option Block := s.blocks.find? fun b => b.task == task && b.bx == bx && b.byy == byy
/-- PUT (R266). -/
def execPut (f : Fields) (s : State) : Result := s.engineForm f 0x13 1 fun s l =>
  let fb := s.curCrew.fibre l
  let a := (fb.reg f.a.toNat).toNat
  let q := (fb.reg f.b.toNat).toNat
  let bx := field (fb.reg f.c.toNat) 0 8
  let byy := field (fb.reg f.c.toNat) 8 8
  let m := f.extv
  let t := s.curTask
  let target := (s.blockAt t.uid bx byy).getD noBlock
  let plan : Except Event (Option MemOperand) := do
    need (a % 32 == 0) (scrFault causeAlign a)
    need (q % 32 == 0) (scrFault causeAlign q)
    need (decide (bx < t.rec_.width) && decide (byy < t.rec_.height)) (scrFault causeBounds q)
    need (decide (a + 32 * m ≤ s.scrBytes) && !s.curBlock.meetsWindow a (32 * m)) (scrFault causeBounds a)
    need (decide (q + 32 * m ≤ s.scrBytes) && !target.meetsWindow q (32 * m)) (scrFault causeBounds q)
    s.stampFor f l
  s.checked f l plan fun st =>
    let moves := (List.range m).map fun i => (⟨.scr (a + 32 * i), .scr target.bid (q + 32 * i), 32⟩ : Move)
    let ranges := (a, 32 * m) :: (if target.bid == s.cur.blk then [(q, 32 * m)] else [])
    .next (s.startOp 1 (newOp (.copy [] moves []) st ranges []))

/-! ### PFX and WBX (R267) -/

def regionReq : Req := { kinds := [1, 2, 3, 4], r := true, bounds := false, poison := false }
/-- The operand of PFX and WBX: checks 1 to 4 and 6 with right R. -/
def State.regionOperand (s : State) (f : Fields) (l : Nat) : Except Event (MemOperand × Option MemOperand) :=
  let ref := (s.curCrew.fibre l).pair f.a.toNat
  match s.checkHandle s.curCore s.curCtx s.curTenant ref (refOff ref) 1 regionReq with
  | .error ev => .error ev
  | .ok e => (s.stampFor f l).map fun st => ({ ref := ref, ent := e, o := refOff ref, n := 1, req := regionReq }, st)
/-- PFX (R267). -/
def execPfx (f : Fields) (s : State) : Result := s.engineForm f 0x13 0 fun s l =>
  s.checked f l (s.regionOperand f l) fun p =>
    .next ((s.keepEntries [p.1]).startOp 0 { newOp (.pfx p.1 (f.mbit 0) (refOff p.1.ref) f.xv) p.2 [] [] with
      count := regionSectors p.1 (refOff p.1.ref) f.xv })
/-- WBX (R267). -/
def execWbx (f : Fields) (s : State) : Result := s.engineForm f 0x13 0 fun s l =>
  s.checked f l (s.regionOperand f l) fun p =>
    .next ((s.keepEntries [p.1]).startOp 0 { newOp (.wbx p.1 (f.mbit 0) (refOff p.1.ref) f.xv 0) p.2 [] [] with
      count := regionSectors p.1 (refOff p.1.ref) f.xv })

/-! ### WAITC and CNTR (R268, R269) -/

/-- WAITC: every fibre of the strand waits until the counter is at most n; a counter already there ends the wait at once (R268). -/
def execWaitc (f : Fields) (s : State) : Result := s.noTry f 0x13 fun s =>
  if s.actMask f == 0 then .next s.goOn
  else if (s.curCrew.counters[f.mdv]?).getD 0 ≤ f.xv then .next s.acquires.goOn
  else .next (s.beginWait f s.cur.mask fun _ => .counter f.mdv f.xv)
/-- CNTR (R269). -/
def execCntr (f : Fields) (s : State) : Result :=
  let c := s.curCrew
  s.wordForm f fun _ => BitVec.ofNat 32 ((c.counters[f.xv]?).getD 0)

/-! ### Working through a copy, a prefetch or a write-back (R258, R266, R267) -/

/-- End an operation's work with a status and a count. -/
def State.endOp (s : State) (id : Nat) (status count : Nat) : State :=
  s.updOp id fun o => { o with phase := .ended, status := max o.status status, count := count, locked := [], memLocks := [] }
/-- A PUT whose target block has retired (R266). -/
def State.putLost (s : State) (o : EngineOp) : Bool :=
  match o.work with
  | .copy _ todo done => o.cls == 1 && (todo ++ done).any fun m => match m.dst with
      | .scr b _ => (s.block b).retired || !s.resident_ b
      | .mem _ _ => false
  | _ => false
/-- The aligned 16-byte part of IA space that a move reads or writes, and which of the two it does. -/
def State.movePart (s : State) (o : EngineOp) (mems : List MemOperand) (m : Move) : Option (Bool × Nat) :=
  let part (k off : Nat) : Option Nat :=
    let x := (mems[k]?).getD {}
    match s.iaOf o.core o.ctx x.ent x.ref off with | .ok ia => some (ia / 16) | .error _ => none
  match m.src, m.dst with
  | .mem k off, _ => (part k off).map fun p => (false, p)
  | _, .mem k off => (part k off).map fun p => (true, p)
  | _, _ => none
/-- The moves made at one moment, and those left: one move, or in PK-7 mode all of the operation that lie in its aligned 16-byte part of
memory (R310). -/
def State.moveGroup (s : State) (o : EngineOp) (mems : List MemOperand) (m : Move) (r : List Move) : List Move × List Move :=
  let p := s.movePart o mems m
  if !(s.ctx o.ctx).compat || p.isNone then ([m], r)
  else (m :: r.filter fun x => s.movePart o mems x == p, r.filter fun x => s.movePart o mems x != p)
/-- Perform a group of moves; false when one of them must wait. -/
def State.moveAll (s : State) (o : EngineOp) (mems : List MemOperand) : List Move → Except Event (Bool × State)
  | [] => .ok (true, s)
  | m :: r => match s.moveOnce o mems m with
    | .error ev => .error ev
    | .ok (false, s) => .ok (false, s)
    | .ok (true, s) => s.moveAll o mems r
/-- One unit of a copy. -/
def State.copyUnit (s : State) (o : EngineOp) (mems : List MemOperand) (todo done : List Move) : State :=
  if s.putLost o then s.endOp o.id 3 0
  else match todo with
    | [] => (s.clearWhole o mems done).endOp o.id 0 (sectorsOf mems done)
    | m :: r =>
      let g := s.moveGroup o mems m r
      match s.moveAll o mems g.1 with
      | .error ev => (s.updOp o.id fun o => { o with count := sectorsOf mems done }).opFault o.id ev
      | .ok (false, _) => s
      | .ok (true, s) => s.updOp o.id fun o =>
          { o with work := .copy mems g.2 (done ++ g.1), phase := .working, count := sectorsOf mems (done ++ g.1) }
/-- PFX's work: every request of the region is queued (R267). -/
def State.pfxUnit (s : State) (o : EngineOp) (m : MemOperand) (fast : Bool) (off len : Nat) : State :=
  let s := if fast then (s.regionPages o.core o.ctx m off len).foldl (fun s p => s.promotePage p none (some o.blk)) s
    else (s.regionLines o.core o.ctx m off len).foldl (fun s ln => s.prefetchLine m.ent ln) s
  s.endOp o.id 0 (regionSectors m off len)
/-- One line of a WBX; after the last, `.demote` clears heat (R267). -/
def State.wbxUnit (s : State) (o : EngineOp) (m : MemOperand) (demote : Bool) (off len next : Nat) : State :=
  let lines := s.regionLines o.core o.ctx m off len
  match lines[next]? with
  | none =>
    let s := if demote then (s.regionPages o.core o.ctx m off len).foldl (fun s p => s.demotePage p) s else s
    s.endOp o.id 0 (regionSectors m off len)
  | some ln =>
    let dirty (l : List (Nat × CacheLine)) : Bool := match Sparse.find? l ln with | some c => c.dirty | none => false
    if !(dirty s.l2 || dirty s.mvc) then s.updOp o.id fun o => { o with work := .wbx m demote off len (next + 1), phase := .working }
    else match s.checkPlace (64 * ln) 64 .write with
      | .error c => s.opFault o.id { memFault c m.ref off (64 * ln) with arg0 := BitVec.ofNat 64 (off + 64 * next) }
      | .ok _ => (s.cleanLine ln).updOp o.id fun o => { o with work := .wbx m demote off len (next + 1), phase := .working }

end Sys2Proof.Machine
end

