-- ==== Sys2Proof/Machine/Matrix.lean ====
section
/-! DEFINITION. The matrix engine: operand formats, products and requantising transposes, and the phases of its operations
(R278 to R296). -/

namespace Sys2Proof.Machine
open Bits

/-! ### The accumulator store (R278) -/

def Block.accWord (b : Block) (a : Nat) : Word := Sparse.get zeroReg b.acc (a / 4)
def Block.setAcc (b : Block) (a : Nat) (w : Word) : Block := { b with acc := Sparse.put zeroReg b.acc (a / 4) w }
def Block.accBad (b : Block) (a n : Nat) : Bool := b.accPoison.any fun l => overlap (64 * l) 64 a n
/-- Bytes of accumulator store a task's blocks hold (R72). -/
def State.accBytes (s : State) : Nat := 4096 * s.curTask.rec_.acc
/-- Write words at their addresses. -/
def Block.setAccs (b : Block) (l : List (Nat × Word)) : Block := l.foldl (fun b x => b.setAcc x.1 x.2) b
/-- After an operation has written the elements at `l`, each with whether its sources carried poison: lines that received a poisoned
one are poisoned, and with `whole` a line written whole from unpoisoned sources is cleared (R293). -/
def Block.accPoisoned (b : Block) (l : List (Nat × Bool)) (whole : Bool) : Block :=
  let bad := ((l.filter (·.2)).map (·.1 / 64)).eraseDups
  let lines := (l.map (·.1 / 64)).eraseDups
  let clean := lines.filter fun ln => whole && (List.range 16).all fun i => l.contains (64 * ln + 4 * i, false)
  { b with accPoison := bad ++ b.accPoison.filter fun ln => !bad.contains ln && !clean.contains ln }

/-! ### Operand formats (R281 to R283) -/

/-- The float TYPE of a format's elements; 0 for the integer formats. -/
def mtType : Nat → Nat
  | 0 => 9 | 1 => 10 | 2 => 11 | 3 => 12 | 4 => 13 | 5 => 14 | 6 => 15 | 9 => 11 | 10 => 12 | 11 => 13 | 12 => 14 | 13 => 15 | _ => 0
def mtBits : Nat → Nat | 0 => 16 | 1 => 16 | 4 => 6 | 5 => 6 | 6 => 4 | 8 => 4 | 11 => 6 | 12 => 6 | 13 => 4 | _ => 8
/-- Rate class: 0, 1 or 2 for 16,384, 32,768 or 65,536 MAC per clk. -/
def mtClass : Nat → Nat | 0 => 0 | 1 => 0 | 6 => 2 | 8 => 2 | 13 => 2 | _ => 1
def mtInt (c : Nat) : Bool := c == 7 || c == 8
def mtMx (c : Nat) : Bool := 9 ≤ c && c ≤ 13
/-- Kind: unscaled float, integer or MX (R282). -/
def mtKind (c : Nat) : Nat := if mtInt c then 1 else if mtMx c then 2 else 0
def mtKb (c : Nat) : Nat := if mtClass c == 0 then 16 else 32
def mtLimit (c : Nat) : Nat := if mtClass c == 2 then 128 else 64
/-- Element k of a packed row (R153, R283). -/
def elemAt (row : List Byte) (bits k : Nat) : Nat :=
  let p := k * bits
  ((((row[p / 8]?).getD 0).toNat + 256 * ((row[p / 8 + 1]?).getD 0).toNat) / 2 ^ (p % 8)) % 2 ^ bits
/-- The elements of a row. -/
def rowElems (row : List Byte) (bits n : Nat) : List Nat := (List.range n).map fun k => elemAt row bits k
/-- Pack element codes into bytes. -/
def packElems (bits : Nat) (l : List Nat) : List Byte :=
  let v := (l.zipIdx).foldl (fun v x => v + x.1 % 2 ^ bits * 2 ^ (bits * x.2)) 0
  (List.range (l.length * bits / 8)).map fun i => BitVec.ofNat 8 (v / 2 ^ (8 * i))

/-! ### The shape record (R284, R285) -/

namespace Ms
def ldc (v : BitVec 512) : Nat := field v 416 32
def cadd (v : BitVec 512) : Nat := field v 384 32
def sbref (v : BitVec 512) : DWord := v.extractLsb' 320 64
def saref (v : BitVec 512) : DWord := v.extractLsb' 256 64
def ldb (v : BitVec 512) : Nat := field v 224 32
def lda (v : BitVec 512) : Nat := field v 192 32
def bref (v : BitVec 512) : DWord := v.extractLsb' 128 64
def aref (v : BitVec 512) : DWord := v.extractLsb' 64 64
def kblk (v : BitVec 512) : Nat := field v 25 7 + 1
def n (v : BitVec 512) : Nat := 16 * 2 ^ field v 22 3
def m (v : BitVec 512) : Nat := 16 * 2 ^ field v 20 2
def sat (v : BitVec 512) : Bool := bit v 19
def bmem (v : BitVec 512) : Bool := bit v 18
def asrc (v : BitVec 512) : Nat := field v 16 2
def fb (v : BitVec 512) : Nat := field v 12 4
def fa (v : BitVec 512) : Nat := field v 8 4
def high (r : DWord) : Bool := isZero r 32 32
/-- Check 3 of R285. -/
def ok (v : BitVec 512) (conv : Bool) : Bool :=
  field v 0 8 == 1 && isZero v 448 32 && isZero v 32 32 && field v 22 3 ≤ 4 && asrc v ≤ 2 && fa v ≤ 13 && fb v ≤ 13 &&
  mtClass (fa v) == mtClass (fb v) && mtKind (fa v) == mtKind (fb v) && kblk v ≤ mtLimit (fa v) && (!sat v || mtInt (fa v)) &&
  (if conv then asrc v == 2 && !mtInt (fa v) else asrc v ≤ 1) && 4 * n v ≤ ldc v &&
  (asrc v == 1 || high (aref v)) && (bmem v || high (bref v)) &&
  (if mtMx (fa v) then (if asrc v == 2 then saref v == 0 else asrc v == 1 || high (saref v)) && (bmem v || high (sbref v))
   else saref v == 0 && sbref v == 0)
/-- Bytes of a row of A or B. -/
def rowA (v : BitVec 512) : Nat := mtKb (fa v) * kblk v * mtBits (fa v) / 8
def rowB (v : BitVec 512) : Nat := mtKb (fb v) * kblk v * mtBits (fb v) / 8
def spanA (v : BitVec 512) : Nat := lda v * (m v - 1) + rowA v
def spanB (v : BitVec 512) : Nat := ldb v * (n v - 1) + rowB v
/-- Check 4 of R285. -/
def aligned (v : BitVec 512) : Bool :=
  cadd v % 4 == 0 && ldc v % 4 == 0 && ldb v % 8 == 0 && (if asrc v == 2 then lda v % 4 == 0 && field (aref v) 0 32 % 4 == 0 else lda v % 8 == 0) &&
  (asrc v != 0 || (field (aref v) 0 32 % 8 == 0 && (!mtMx (fa v) || field (saref v) 0 32 % 8 == 0))) &&
  (bmem v || (field (bref v) 0 32 % 8 == 0 && (!mtMx (fa v) || field (sbref v) 0 32 % 8 == 0)))
end Ms

/-- A memory operand of a product, checked on its highest byte (R285 check 6). -/
def State.tileOperand (s : State) (ref : DWord) (span : Nat) : Except Event TileAt :=
  (s.xuMem ref (refOff ref + span - 1 : Nat) 1 (engineReq false)).map TileAt.mem
/-- MMAS's bitmap: bits in its range (R294). -/
def bitmapBits (f : Fields) (v : BitVec 512) : Nat := if f.mbit 1 then Ms.n v / 16 else Ms.kblk v
/-- The scratchpad ranges a product reads. -/
def tileRanges (v : BitVec 512) (conv : Bool) : List (Nat × Nat) :=
  (if Ms.asrc v == 0 && !conv then (field (Ms.aref v) 0 32, Ms.spanA v) ::
      (if mtMx (Ms.fa v) then [(field (Ms.saref v) 0 32, Ms.m v * Ms.kblk v)] else []) else []) ++
  (if Ms.bmem v then [] else (field (Ms.bref v) 0 32, Ms.spanB v) ::
      (if mtMx (Ms.fa v) then [(field (Ms.sbref v) 0 32, Ms.n v * Ms.kblk v)] else []))
/-- Every scratchpad range of a list, checked in order. -/
def State.xuRanges (s : State) : List (Nat × Nat) → Except Event Unit
  | [] => .ok ()
  | r :: t => match s.xuRange r.1 r.2 with | .error ev => .error ev | .ok _ => s.xuRanges t

/-- Checks 2 to 7 of R285 for MMA, MMAC (`conv`) and MMAS (`masked`): the record, the operands and the stamp. -/
def State.productPlan (s : State) (f : Fields) (l : Nat) (conv masked : Bool) :
    Except Event (BitVec 512 × TileAt × TileAt × TileAt × TileAt × Option MemOperand) :=
  let fb := s.curCrew.fibre l
  let map := (fb.reg f.c.toNat).toNat
  do
    let v ← s.snapshot (fb.pair f.a.toNat)
    need (Ms.ok v conv) illegalEncoding
    need (Ms.aligned v) { cause := causeAlign, ref := fb.pair f.a.toNat, arg0 := BitVec.ofNat 64 (refOff (fb.pair f.a.toNat)) }
    let cEnd := Ms.cadd v + Ms.ldc v * (Ms.m v - 1) + 4 * Ms.n v
    need (decide (cEnd ≤ s.accBytes)) (scrFault causeBounds (Ms.cadd v))
    let a0 := field (Ms.aref v) 0 32
    let aLen := Ms.lda v * (Ms.m v - 1) + 4 * (mtKb (Ms.fa v) * Ms.kblk v)
    need (!conv || (decide (a0 + aLen ≤ s.accBytes) && !overlap a0 aLen (Ms.cadd v) (cEnd - Ms.cadd v))) (scrFault causeBounds a0)
    s.xuRanges (tileRanges v conv ++ (if masked then [(map, (bitmapBits f v + 7) / 8)] else []))
    let mx := mtMx (Ms.fa v)
    let ta ← if conv then pure (TileAt.acc a0) else if Ms.asrc v == 1 then s.tileOperand (Ms.aref v) (Ms.spanA v) else pure (.scr a0)
    let tb ← if Ms.bmem v then s.tileOperand (Ms.bref v) (Ms.spanB v) else pure (.scr (field (Ms.bref v) 0 32))
    let sa ← if !mx || conv then pure TileAt.none else if Ms.asrc v == 1 then s.tileOperand (Ms.saref v) (Ms.m v * Ms.kblk v)
      else pure (.scr (field (Ms.saref v) 0 32))
    let sb ← if !mx then pure TileAt.none else if Ms.bmem v then s.tileOperand (Ms.sbref v) (Ms.n v * Ms.kblk v)
      else pure (.scr (field (Ms.sbref v) 0 32))
    let st ← s.stampFor f l
    pure (v, ta, tb, sa, sb, st)

def TileAt.operand : TileAt → Option MemOperand
  | .mem m => some m
  | _ => Option.none
/-- Whether an unfinished matrix-engine operation of the block uses bytes of a range (R279, log 14). -/
def State.meUses (s : State) (a n : Nat) : Bool :=
  s.ops.any fun o => o.blk == s.cur.blk && o.cls == 3 && o.phase != .ended && o.ranges.any fun r => overlap r.1 r.2 a n
/-- Start a product (R295). Its scratchpad ranges are locked from issue (R290). -/
def State.startProduct (s : State) (f : Fields) (conv masked : Bool) : Result := s.wholeForm f 0x15 3 fun s l =>
  let fb := s.curCrew.fibre l
  s.checked f l (s.productPlan f l conv masked) fun p =>
    let v := p.1
    let map := (fb.reg f.c.toNat).toNat
    if masked && s.meUses map ((bitmapBits f v + 7) / 8) then s.stall 4
    else
      let bits := fun i => ((s.curBlock.scr (map + i / 8))).getLsbD (i % 8)
      let keepK := (List.range (Ms.kblk v)).map fun j => !masked || f.mbit 1 || bits j
      let keepN := (List.range (Ms.n v / 16)).map fun g => !masked || !f.mbit 1 || bits g
      let pr : Product :=
        { m := Ms.m v, n := Ms.n v, kblk := Ms.kblk v, fa := Ms.fa v, fb := Ms.fb v, sat := Ms.sat v, z := f.mbit 0
          a := p.2.1, b := p.2.2.1, sa := p.2.2.2.1, sb := p.2.2.2.2.1
          lda := Ms.lda v, ldb := Ms.ldb v, cadd := Ms.cadd v, ldc := Ms.ldc v, keepK := keepK, keepN := keepN }
      let ranges := tileRanges v conv
      let ops := [pr.a, pr.b, pr.sa, pr.sb].filterMap TileAt.operand
      .next (((s.keepParam (fb.pair f.a.toNat)).keepEntries ops).startOp 3 (newOp (.product pr) p.2.2.2.2.2 ranges ranges))
/-- MMA (R295). -/
def execMma (f : Fields) (s : State) : Result := s.startProduct f false false
/-- MMAC: A through the down-converter (R289, R295). -/
def execMmac (f : Fields) (s : State) : Result := s.startProduct f true false
/-- MMAS: with a survivor bitmap, read at issue (R294, R295). -/
def execMmas (f : Fields) (s : State) : Result := s.startProduct f false true

/-! ### RQT (R296) -/

/-- Rows and columns of an RQT source. -/
def rqtRows (f : Fields) : Nat := 32 * 2 ^ field f.ext 0 2
def rqtCols (f : Fields) : Nat := 32 * 2 ^ field f.ext 2 2
/-- RQT (R296). -/
def execRqt (f : Fields) (s : State) : Result := s.wholeForm f 0x15 3 fun s l =>
  let fb := s.curCrew.fibre l
  let t := (fb.reg f.d.toNat).toNat
  let src := (fb.reg f.a.toNat).toNat
  let mx := mtMx f.mdv
  let sb := (fb.reg f.b.toNat).toNat
  let db := (fb.reg f.c.toNat).toNat
  let bytes := rqtRows f * rqtCols f * mtBits f.mdv / 8
  let scl := rqtRows f * rqtCols f / 32
  let srcs := (src, bytes) :: (if mx then [(sb, scl)] else [])
  let dsts := (t, bytes) :: (if mx then [(db, scl)] else [])
  let plan : Except Event Unit := do
    need (t % 8 == 0 && src % 8 == 0 && (!mx || (sb % 8 == 0 && db % 8 == 0))) (scrFault causeAlign t)
    s.xuRanges (srcs ++ dsts)
    need (!(dsts.any fun d => srcs.any fun r => overlap d.1 d.2 r.1 r.2)) (scrFault causeBounds t)
  s.checked f l plan fun _ =>
    .next (s.startOp 3 (newOp (.rqt t src sb db (rqtRows f) (rqtCols f) f.mdv) none (srcs ++ dsts) srcs))

/-! ### Reading operands in the lock phase (R290, R291, R293) -/

/-- Cut a byte range at line boundaries. -/
def pieces (o n : Nat) : List (Nat × Nat) :=
  if n == 0 then []
  else (List.range ((o + n - 1) / 64 - o / 64 + 1)).map fun i =>
    let lo := max o (64 * (o / 64 + i))
    (lo, min (o + n) (64 * (o / 64 + i) + 64) - lo)
/-- What a read of an operand gives: its bytes, whether a line it read carried poison, and the memory accesses made. -/
abbrev TileRead := List Byte × Bool × List Acc
/-- Bytes at an offset of an operand; no poison fault is raised (R293). -/
def State.tileBytes (s : State) (o : EngineOp) (t : TileAt) (off n at_ : Nat) : Except Event TileRead :=
  let b := s.block o.blk
  match t with
  | .none => .ok (List.replicate n 0, false, [])
  | .scr a => .ok (b.scrN (a + off) n, b.scrPoisoned (a + off) n, [])
  | .acc a => .ok ((List.range (n / 4)).flatMap (fun i => toBytes 4 (b.accWord (a + off + 4 * i))), b.accBad (a + off) n, [])
  | .mem m =>
    let rec go : List (Nat × Nat) → Except Event TileRead
      | [] => .ok ([], false, [])
      | x :: r => match s.opAccess o m x.1 x.2 .write at_ with
        | .error ev => .error ev
        | .ok a => match go r with
          | .error ev => .error ev
          | .ok t => .ok (s.bytes a.place.phys x.2 ++ t.1, s.poisonedAt a.place.phys x.2 || t.2.1, a :: t.2.2)
    go (pieces (refOff m.ref + off) n)
/-- One row's used blocks of `w` bytes each; skipped ones are never read (R294). -/
def State.tileRow (s : State) (o : EngineOp) (t : TileAt) (w at_ : Nat) : List Bool → Nat → Except Event TileRead
  | [], _ => .ok ([], false, [])
  | k :: r, off =>
    match if k then s.tileBytes o t off w at_ else .ok (List.replicate w 0, false, []) with
    | .error ev => .error ev
    | .ok x => match s.tileRow o t w at_ r (off + w) with
      | .error ev => .error ev
      | .ok y => .ok (x.1 ++ y.1, x.2.1 || y.2.1, x.2.2 ++ y.2.2)
/-- The rows of an operand: those that `used` selects are read. -/
def State.tileRows (s : State) (o : EngineOp) (t : TileAt) (w stride at_ : Nat) (keep : List Bool) (used : Nat → Bool) :
    List Nat → Except Event (List TileRead)
  | [] => .ok []
  | r :: rest =>
    match if used r then s.tileRow o t w at_ keep (r * stride) else .ok (List.replicate (w * keep.length) 0, false, []) with
    | .error ev => .error ev
    | .ok x => match s.tileRows o t w stride at_ keep used rest with | .error ev => .error ev | .ok y => .ok (x :: y)
/-- A NaN of a format in its canonical form (R159). -/
def canonBits (t b : Nat) : Nat := if (decodeF t b).isNan then canonF t else b
/-- The down-converter on one row of accumulator words (R289): element codes, and the scales of an MX format. -/
def downConvert (fa : Nat) (row : List Byte) : List Nat × List Nat :=
  let t := mtType fa
  let words := (List.range (row.length / 4)).map fun i => (ofBytes 32 ((row.drop (4 * i)).take 4) : Word).toNat
  if mtMx fa then
    let blocks := (List.range (words.length / 32)).map fun j => ((words.drop (32 * j)).take 32).map (decodeF 8)
    let scales := blocks.map (mxScale t)
    ((blocks.zip scales).flatMap fun x => x.1.map fun v => (FEnv.plain.mxElement t x.2 v).bits, scales)
  else (words.map fun w => canonBits t (FEnv.plain.convert t true (decodeF 8 w)).bits, [])
/-- Read all of a product's operands (R290). -/
def State.readProduct (s : State) (o : EngineOp) (p : Product) : Except Event (Product × List Acc) :=
  let at_ := p.cadd / 32 * 32
  let live := p.keepK.any id && p.keepN.any id
  let conv := match p.a with | .acc _ => true | _ => false
  let bits := mtBits p.fa
  let bitsB := mtBits p.fb
  let kb := mtKb p.fa
  let usedB (r : Nat) : Bool := live && (p.keepN[r / 16]?).getD false
  match s.tileRows o p.a (if conv then 4 * kb else kb * bits / 8) p.lda at_ p.keepK (fun _ => live) (List.range p.m) with
  | .error ev => .error ev
  | .ok ra => match s.tileRows o p.b (kb * bitsB / 8) p.ldb at_ p.keepK usedB (List.range p.n) with
    | .error ev => .error ev
    | .ok rb => match s.tileRows o p.sa 1 p.kblk at_ p.keepK (fun _ => live) (List.range p.m) with
      | .error ev => .error ev
      | .ok sa => match s.tileRows o p.sb 1 p.kblk at_ p.keepK usedB (List.range p.n) with
        | .error ev => .error ev
        | .ok sb =>
          let dc := ra.map fun x => downConvert p.fa x.1
          .ok ({ p with
              rowsA := if conv then dc.map (·.1) else ra.map fun x => rowElems x.1 bits (kb * p.kblk)
              scalesA := if conv then dc.map (·.2) else sa.map fun x => x.1.map (·.toNat)
              rowsB := rb.map fun x => rowElems x.1 bitsB (kb * p.kblk)
              scalesB := sb.map fun x => x.1.map (·.toNat)
              badA := (ra.zip sa).map fun x => x.1.2.1 || x.2.2.1
              badB := rb.any (·.2.1) || sb.any (·.2.1) },
            (ra ++ rb ++ sa ++ sb).flatMap (·.2.2))

/-! ### The product (R286 to R288) -/

/-- One block's contribution t: exact, scaled exactly, rounded once to F32 (R286, R287). -/
def blockSum (ps : List (FVal × FVal)) (shift : Int) (nanScale : Bool) : Nat :=
  if nanScale || ps.any (fun p => p.1.isNan || p.2.isNan) || ps.any (fun p => (mulF p.1 p.2).isNone) then canonF 8
  else
    let ts := ps.filterMap fun p => mulF p.1 p.2
    match ts.filterMap fun t => match t with | .inf s => some s | _ => none with
    | x :: r => if r.all (· == x) then infF 8 x else canonF 8
    | [] =>
      let e := ts.foldl (fun e t => min e t.exp) 0
      let sum := ts.foldl (fun a t => a + t.scaled e) 0
      (FEnv.plain.roundSum 8 false sum (e + shift) (ts.all fun t => t.isZero && t.neg?)).bits
/-- The k-th run of `n` elements. -/
def chunk (l : List Nat) (n k : Nat) : List Nat := (l.drop (n * k)).take n
/-- A signed element of an integer format. -/
def mtElemInt (fmt x : Nat) : Int := if 2 ^ (mtBits fmt - 1) ≤ x then (x : Int) - 2 ^ mtBits fmt else x
/-- Block j added into c (R286, R288). -/
def Product.step (p : Product) (ra rb sa sb : List Nat) (c : Word) (j : Nat) : Word :=
  let kb := mtKb p.fa
  let ps := (chunk ra kb j).zip (chunk rb kb j)
  if mtInt p.fa then
    let t : Int := c.toInt + ps.foldl (fun a x => a + mtElemInt p.fa x.1 * mtElemInt p.fb x.2) 0
    wrap 32 (if p.sat then clamp (-(2 ^ 31)) (2 ^ 31 - 1) t else t)
  else
    let ka := (sa[j]?).getD 127
    let kbs := (sb[j]?).getD 127
    let mx := mtMx p.fa
    let t := blockSum (ps.map fun x => (decodeF (mtType p.fa) x.1, decodeF (mtType p.fb) x.2))
      (if mx then (ka : Int) + kbs - 254 else 0) (mx && (ka == 255 || kbs == 255))
    BitVec.ofNat 32 (FEnv.plain.add 8 false (decodeF 8 c.toNat) (decodeF 8 t)).bits
/-- One element of C from its old word; none when the operation does not write it (R286, R294). -/
def Product.element (p : Product) (old : Word) (m n : Nat) : Option Word :=
  if (p.keepN[n / 16]?).getD false then
    let l (x : List (List Nat)) (i : Nat) : List Nat := (x[i]?).getD []
    some (((List.range p.kblk).filter fun j => (p.keepK[j]?).getD false).foldl
      (fun c j => p.step (l p.rowsA m) (l p.rowsB n) (l p.scalesA m) (l p.scalesB n) c j) (if p.z then 0 else old))
  else if p.z then some 0 else none
/-- Address of an element of C. -/
def Product.addr (p : Product) (m n : Nat) : Nat := p.cadd + m * p.ldc + 4 * n
/-- The elements that a product writes: address, word, and whether its row met poison. -/
def Product.writes (p : Product) (b : Block) : List (Nat × Word × Bool) :=
  (List.range p.m).flatMap fun m => (List.range p.n).filterMap fun n =>
    (p.element (b.accWord (p.addr m n)) m n).map fun w => (p.addr m n, w, p.badB || (p.badA[m]?).getD false)
/-- Distinct 32-byte sectors of a list of addresses. -/
def sectorCount (l : List Nat) : Nat := ((l.map (· / 32)).eraseDups).length
/-- Replace each word that met poison by a free one: such values are not defined (R293). -/
def State.freeWrites (s : State) (l : List (Nat × Word × Bool)) : List (Nat × Word) × State :=
  l.foldl (fun x w => if w.2.2 then (x.1 ++ [(w.1, x.2.freeWord.1)], x.2.freeWord.2) else (x.1 ++ [(w.1, w.2.1)], x.2)) ([], s)
/-- Perform a product at its operand-consumed point. -/
def State.finishProduct (s : State) (o : EngineOp) (p : Product) : State :=
  let ws := p.writes (s.block o.blk)
  let r := s.freeWrites ws
  (r.2.updBlock o.blk fun b => (b.setAccs r.1).accPoisoned (ws.map fun w => (w.1, w.2.2)) p.z).endOp o.id 0 (sectorCount (ws.map (·.1)))

/-- RQT's result: element codes of each destination row, its scales, and which destination blocks met poison (R296). -/
def Block.rqt (b : Block) (src sb rows cols fmt : Nat) : List (List Nat) × List (List Nat) × (Nat → Nat → Bool) :=
  let bits := mtBits fmt
  let t := mtType fmt
  let el (i j : Nat) : Nat := elemAt (b.scrN (src + i * (cols * bits / 8)) (cols * bits / 8)) bits j
  let scl (i j : Nat) : Nat := (b.scr (sb + i * (cols / 32) + j / 32)).toNat
  let bad (i j : Nat) : Bool := b.scrPoisoned (src + i * (cols * bits / 8) + j * bits / 8) ((j * bits % 8 + bits + 7) / 8) ||
    (mtMx fmt && b.scrPoisoned (sb + i * (cols / 32) + j / 32) 1)
  if !mtMx fmt then
    ((List.range cols).map fun j => (List.range rows).map fun i => el i j, [], fun j i => bad i j)
  else
    let val (i j : Nat) : FVal := if scl i j == 255 then .nan false 0 false else match decodeF t (el i j) with
      | .fin s m e => .fin s m (e + (scl i j : Int) - 127)
      | x => x
    let blk (j h : Nat) : List FVal := (List.range 32).map fun i => val (32 * h + i) j
    ((List.range cols).map fun j => (List.range (rows / 32)).flatMap fun h =>
        (blk j h).map fun v => (FEnv.plain.mxElement t (mxScale t (blk j h)) v).bits,
     (List.range cols).map fun j => (List.range (rows / 32)).map fun h => mxScale t (blk j h),
     fun j i => (List.range 32).any fun k => bad (i / 32 * 32 + k) j)
/-- Poison of scratchpad lines after an engine has written bytes, each with whether its source carried poison (R293, R472). -/
def Block.scrMark (b : Block) (l : List (Nat × Bool)) : Block :=
  let bad := ((l.filter (·.2)).map (·.1 / 64)).eraseDups
  let lines := (l.map (·.1 / 64)).eraseDups
  let clean := lines.filter fun ln => (List.range 64).all fun i => l.contains (64 * ln + i, false)
  { b with scratchPoison := bad ++ b.scratchPoison.filter fun ln => !bad.contains ln && !clean.contains ln }
/-- Perform RQT at its operand-consumed point. -/
def State.finishRqt (s : State) (o : EngineOp) (t src sb db rows cols fmt : Nat) : State :=
  (s.updBlock o.blk fun b =>
    let r := b.rqt src sb rows cols fmt
    let bits := mtBits fmt
    let rowBytes := rows * bits / 8
    let data := r.1.flatMap (packElems bits)
    let scl := r.2.1.flatMap fun l => l.map (BitVec.ofNat 8)
    let badByte (k : Nat) : Bool := r.2.2 (k / rowBytes) (k % rowBytes * 8 / bits) || r.2.2 (k / rowBytes) ((k % rowBytes * 8 + 7) / bits)
    let badScale (k : Nat) : Bool := r.2.2 (k / (rows / 32)) (k % (rows / 32) * 32)
    let marks := ((List.range data.length).map fun k => (t + k, badByte k)) ++ ((List.range scl.length).map fun k => (db + k, badScale k))
    let old := b.scratchPoison
    ({ (b.setScr t data).setScr db scl with scratchPoison := old }).scrMark marks).endOp o.id 0 0

end Sys2Proof.Machine
end

