-- ==== Sys2Proof/Machine/Accumulator.lean ====
section
/-! DEFINITION. Group 0x16 and what the matrix engine does with its queued operations: ACCZ to ACCEXP (R297 to R300), and the phases
of R290. -/

namespace Sys2Proof.Machine
open Bits

/-- Bytes of one element of a TYPE beside the accumulator store. -/
def accElem (ty : Nat) : Nat := if ty == 0 || ty == 8 then 4 else if ty == 9 || ty == 10 then 2 else 1
/-- A range of the accumulator store (R278). -/
def State.accRange (s : State) (a n : Nat) : Except Event Unit := need (decide (a + n ≤ s.accBytes)) (scrFault causeBounds a)

/-- ACCZ (R297). -/
def execAccz (f : Fields) (s : State) : Result := s.wholeForm f 0x16 3 fun s l =>
  let a := ((s.curCrew.fibre l).reg f.a.toNat).toNat
  let plan : Except Event (Option MemOperand) := do
    need (a % 64 == 0) (scrFault causeAlign a)
    s.accRange a f.xv
    s.stampFor f l
  s.checked f l plan fun st => .next (s.startOp 3 (newOp (.accz a f.xv) st [] []))

/-- The checks of ACCLD and ACCST (R298): the memory operand, if any, the other side's address, and the stamp. -/
def State.accPlan (s : State) (f : Fields) (l : Nat) (w : Bool) : Except Event (Option MemOperand × Nat × Option MemOperand) :=
  let fb := s.curCrew.fibre l
  let a := (fb.reg f.c.toNat).toNat
  let ref := fb.pair f.a.toNat
  let mem := f.form = .pair
  let other := if mem then refOff ref else (fb.reg f.a.toNat).toNat
  let bytes := f.extv / 4 * accElem f.ty
  do
    need (a % 64 == 0) (scrFault causeAlign a)
    need (other % accElem f.ty == 0) (if mem then memFault causeAlign ref other else scrFault causeAlign other)
    s.accRange a f.extv
    if mem then
      let m ← s.xuMem ref (other + bytes - 1 : Nat) 1 (engineReq w)
      let st ← s.stampFor f l
      pure (some m, other, st)
    else
      s.xuRange other bytes
      let st ← s.stampFor f l
      pure (none, other, st)
/-- Scratchpad ranges of ACCLD and ACCST. -/
def accRanges (f : Fields) (p : Option MemOperand × Nat × Option MemOperand) : List (Nat × Nat) :=
  match p.1 with | some _ => [] | none => [(p.2.1, f.extv / 4 * accElem f.ty)]
/-- ACCLD; a scratchpad source is locked from issue (R290, R298). -/
def execAccld (f : Fields) (s : State) : Result := s.wholeForm f 0x16 3 fun s l =>
  let a := ((s.curCrew.fibre l).reg f.c.toNat).toNat
  s.checked f l (s.accPlan f l false) fun p =>
    .next ((s.keepEntries p.1.toList).startOp 3 (newOp (.accld p.1 p.2.1 a f.extv f.ty 0 []) p.2.2 (accRanges f p) (accRanges f p)))
/-- ACCST (R298). -/
def execAccst (f : Fields) (s : State) : Result := s.wholeForm f 0x16 3 fun s l =>
  let a := ((s.curCrew.fibre l).reg f.c.toNat).toNat
  s.checked f l (s.accPlan f l true) fun p =>
    .next ((s.keepEntries p.1.toList).startOp 3
      (newOp (.accst p.1 p.2.1 a f.extv f.ty (f.mb 0 3) f.sat 0 []) p.2.2 (accRanges f p) []))

/-- Words of a row by its length code (R299). -/
def rowWords (f : Fields) : Nat := 16 * 2 ^ f.mb 0 3
/-- The row address of each acting fibre, checked ALIGN then BOUNDS in slot order (R299, R199). -/
def State.accRows (s : State) (f : Fields) (addr : Fibre → Nat) (bytes : Nat) : List Nat → Except (Nat × Event) (List (Nat × Nat))
  | [] => .ok []
  | i :: r =>
    let a := addr (s.curCrew.fibre i)
    if a % 4 != 0 then .error (i, scrFault causeAlign a)
    else if s.accBytes < a + bytes then .error (i, scrFault causeBounds a)
    else match s.accRows f addr bytes r with | .error e => .error e | .ok t => .ok ((i, a) :: t)
/-- ACCROW: an L form whose result the matrix engine owes, in engine order and counted in no class (R279, R299). -/
def execAccrow (f : Fields) (s : State) : Result := s.noTry f 0x16 fun s =>
  let get := f.mb 4 2 == 2
  let n := if get then 1 else rowWords f
  let addr (fb : Fibre) : Nat := (fb.reg f.a.toNat).toNat + (if get then 4 * (fb.reg f.b.toNat).toNat else 0)
  match s.accRows f addr (4 * n) (s.acting f) with
  | .error (i, ev) => s.raise f (some i) ev
  | .ok rows =>
    if rows.isEmpty then .next s.goOn
    else
      let b := s.curBlock
      let op : EngineOp := { newOp (.accrow (f.mb 4 2) n (f.mbit 6) f.d.toNat rows) none [] [] with
        id := s.nextId, blk := s.cur.blk, crew := s.cur.crew, core := b.core, task := b.task, ctx := s.curCtx, cls := 3, counted := false, pc := s.cur.pc }
      .next ({ s with ops := s.ops ++ [op], nextId := s.nextId + 1 }.issueLong f { op := some s.nextId } [f.d.toNat])
/-- A per-fibre operation in place: ACCSCL and ACCEXP (R300). -/
def State.accInPlace (s : State) (f : Fields) (work : Crew → List (Nat × Nat) → Work) : Result := s.noTry f 0x16 fun s =>
  match s.acting f with
  | [] => .next s.goOn
  | act =>
    if 255 ≤ (s.curCrew.counters[3]?).getD 0 then s.stall 4
    else match s.accRows f (fun fb => (fb.reg f.a.toNat).toNat) (4 * rowWords f) act with
      | .error (i, ev) => s.raise f (some i) ev
      | .ok rows => .next (s.startOp 3 (newOp (work s.curCrew rows) none [] []))
/-- ACCSCL (R300). -/
def execAccscl (f : Fields) (s : State) : Result :=
  s.accInPlace f fun c rows => .accscl (f.mb 4 2 == 1) (rowWords f) (rows.map fun r => (r.2, (c.fibre r.1).reg f.b.toNat))
/-- ACCEXP (R300). -/
def execAccexp (f : Fields) (s : State) : Result :=
  s.accInPlace f fun c rows =>
    .accexp (rowWords f) (rows.map fun r => (r.2, (c.fibre r.1).reg f.b.toNat, (c.fibre r.1).reg f.c.toNat))

/-! ### The work of accumulator operations -/

/-- An F32 operation with RNE, nothing flushed, NaNs canonical. -/
def f32Add (x y : Word) : Word := BitVec.ofNat 32 (FEnv.plain.add 8 false (decodeF 8 x.toNat) (decodeF 8 y.toNat)).bits
def f32Mul (x y : Word) : Word := BitVec.ofNat 32 (FEnv.plain.mul 8 false (decodeF 8 x.toNat) (decodeF 8 y.toNat)).bits
/-- ACCEXP's new word: 2^y with y = x × C − B rounded once (R300). -/
def accExp (x b c : Word) : Word :=
  let y := (FEnv.plain.fma 8 false (decodeF 8 x.toNat) (decodeF 8 c.toNat) (decodeF 8 b.toNat).negate).bits
  BitVec.ofNat 32 (FEnv.plain.exp2 (BitVec.ofNat 32 y)).bits
/-- Update the words of one row in place; words of a poisoned line become free (R300). -/
def State.accUpdate (s : State) (bid a n : Nat) (g : Word → Word) : State :=
  let b := s.block bid
  let ws := (List.range n).map fun i => (a + 4 * i, g (b.accWord (a + 4 * i)), b.accBad (a + 4 * i) 4)
  let r := s.freeWrites ws
  r.2.updBlock bid fun b => b.setAccs r.1
/-- ACCROW's value of a row (R299). -/
def accRowValue (kind : Nat) (s32 : Bool) (xs : List Word) : Word :=
  match xs with
  | [] => 0
  | x :: r =>
    match kind, s32 with
    | 0, false => r.foldl (fun a y => BitVec.ofNat 32 (FEnv.plain.minmax 8 true false a.toNat y.toNat).bits) x
    | 0, true => r.foldl (fun a y => if a.slt y then y else a) x
    | 1, false => r.foldl f32Add x
    | 1, true => r.foldl (· + ·) x
    | _, _ => x
/-- Perform ACCROW: its results, or POISON for the strand when a fibre read a poisoned line (R299). -/
def State.finishAccrow (s : State) (o : EngineOp) (kind n : Nat) (s32 : Bool) (d : Nat) (rows : List (Nat × Nat)) : State :=
  let b := s.block o.blk
  let bad : Option Nat := (rows.find? fun r => b.accBad r.2 (4 * n)).map (·.1)
  let ws := rows.map fun r => (r.1, [(d, accRowValue kind s32 ((List.range n).map fun i => b.accWord (r.2 + 4 * i)))])
  let fill (p : Pending) : Pending := if p.op == some o.id then { p with writes := if bad.isSome then [] else ws, poison := bad } else p
  (s.updCrew o.blk o.crew fun c => { c with pend := c.pend.map fill }).endOp o.id 0 0
/-- One element widened to a word (R298). -/
def accWiden (ty : Nat) (l : List Byte) : Word :=
  if accElem ty == 4 then ofBytes 32 l
  else BitVec.ofNat 32 ({ nanp := true : FEnv }.convert 8 false (decodeF ty (ofBytes 32 l : Word).toNat)).bits
/-- One word narrowed to an element (R298). -/
def accNarrow (ty rnd : Nat) (sat : Bool) (w : Word) : List Byte :=
  if accElem ty == 4 then toBytes 4 w
  else toBytes (accElem ty)
    (BitVec.ofNat 32 (canonBits ty ({ rm := if rnd == 0 then 1 else rnd : FEnv }.convert ty sat (decodeF 8 w.toNat)).bits))
/-- Bytes of an operand side of ACCLD: scratchpad or memory. -/
def sideOf (mem : Option MemOperand) (a : Nat) : TileAt := match mem with | some m => .mem m | none => .scr a
/-- ACCLD from sector `next` on: eight words a sector; it parks at the first sector not done. Fuel is the sectors left. -/
def State.accldFrom (s : State) (o : EngineOp) (mem : Option MemOperand) (src dst len ty : Nat) : Nat → Nat → List Nat → State
  | 0, _, bad =>
    (s.updBlock o.blk fun b => { b with accPoison := b.accPoison.filter fun ln => bad.contains ln || !overlap (64 * ln) 64 dst len }).endOp
      o.id 0 (len / 32)
  | fuel + 1, k, bad =>
    let at_ := dst + 32 * k
    match s.tileBytes o (sideOf mem src) (8 * accElem ty * k) (8 * accElem ty) at_ with
    | .error ev => (s.updOp o.id fun o => { o with work := .accld mem src dst len ty k bad, count := k }).opFault o.id ev
    | .ok (data, poisoned, as) =>
      let s := as.foldl (fun s a => s.note a false false) s
      let ws := (List.range 8).map fun i => (at_ + 4 * i, accWiden ty ((data.drop (accElem ty * i)).take (accElem ty)))
      let ln := at_ / 64
      let s := s.updBlock o.blk fun b =>
        { b.setAccs ws with accPoison := if poisoned && !b.accPoison.contains ln then ln :: b.accPoison else b.accPoison }
      s.accldFrom o mem src dst len ty fuel (k + 1) (if poisoned then ln :: bad else bad)
/-- Destination pieces of ACCST, one a sector: address and bytes. -/
def sectorPieces (a n : Nat) : List (Nat × Nat) :=
  if n == 0 then []
  else (List.range ((a + n - 1) / 32 - a / 32 + 1)).map fun i =>
    let lo := max a (32 * (a / 32 + i))
    (lo, min (a + n) (32 * (a / 32 + i) + 32) - lo)
/-- Whole destination lines of ACCST whose sources carried no poison lose theirs (R293, R472). -/
def State.accstClear (s : State) (o : EngineOp) (mem : Option MemOperand) (dst n : Nat) (bad : List Nat) : State :=
  let whole := (List.range ((dst + n) / 64 + 1)).filter fun ln => dst ≤ 64 * ln && 64 * ln + 64 ≤ dst + n && !bad.contains ln
  match mem with
  | none => s.updBlock o.blk fun b => { b with scratchPoison := b.scratchPoison.filter fun ln => !whole.contains ln }
  | some m => whole.foldl (fun s ln => match s.opAccess o m (64 * ln) 64 .write 0 with
    | .ok a => { s with poison := s.poison.filter (· != a.place.phys / 64) }
    | .error _ => s) s
/-- ACCST over the pieces left (R298). -/
def State.accstFrom (s : State) (o : EngineOp) (mem : Option MemOperand) (dst src len ty rnd : Nat) (sat : Bool) :
    List (Nat × Nat) → Nat → List Nat → State
  | [], k, bad => (s.accstClear o mem dst (len / 4 * accElem ty) bad).endOp o.id 0 k
  | x :: r, k, bad =>
    let e := accElem ty
    let b := s.block o.blk
    let a := src + 4 * ((x.1 - dst) / e)
    let data := (List.range (x.2 / e)).flatMap fun i => accNarrow ty rnd sat (b.accWord (a + 4 * i))
    let poisoned := b.accBad a (4 * (x.2 / e))
    let bad' := if poisoned then x.1 / 64 :: bad else bad
    match mem with
    | none =>
      let mark (b : Block) : Block :=
        if poisoned && !b.scratchPoison.contains (x.1 / 64) then { b with scratchPoison := x.1 / 64 :: b.scratchPoison } else b
      (s.updBlock o.blk fun b => mark (b.setScr x.1 data)).accstFrom o mem dst src len ty rnd sat r (k + 1) bad'
    | some m =>
      let s' := s.updOp o.id fun o => { o with work := .accst mem dst src len ty rnd sat k bad, count := k }
      match s.opAccess o m x.1 x.2 .store (x.1 / 32 * 32) with
      | .error ev => s'.opFault o.id ev
      | .ok acc =>
        if s.lineLocked acc.ia x.2 then s'
        else
          let s := s.store .other o.task (some o.id) acc false data
          let ln := acc.place.phys / 64
          let s : State := { s with poison := if poisoned && !s.poison.contains ln then ln :: s.poison else s.poison }
          s.accstFrom o mem dst src len ty rnd sat r (k + 1) bad'

/-! ### Phases of a matrix-engine operation (R279, R290, R413) -/

/-- An SKSEL, whose list is written only when it retires (R303). -/
def EngineOp.sksel (o : EngineOp) : Bool := match o.work with | .sksel _ _ _ _ _ _ _ => true | _ => false
/-- An operation is the one its engine is to carry out next, or is carrying out: no earlier one of its core is unfinished (R279). A saved
operation is in no engine (R292, R408). -/
def State.engineFirst (s : State) (o : EngineOp) : Bool :=
  s.ops.all fun p => !(p.core == o.core && p.cls == o.cls && (p.phase != .ended || p.sksel) && p.id < o.id && s.resident_ p.blk)
/-- The memory operands of an operation. -/
def Work.operands : Work → List MemOperand
  | .copy mems _ _ => mems
  | .pfx m _ _ _ => [m]
  | .wbx m _ _ _ _ => [m]
  | .product p => [p.a, p.b, p.sa, p.sb].filterMap TileAt.operand
  | .accld m _ _ _ _ _ _ => m.toList
  | .accst m _ _ _ _ _ _ _ _ => m.toList
  | .skscore m _ _ _ _ _ => m.toList
  | .coll _ _ _ m st _ _ _ => [m, st]
  | _ => []
/-- The first destination sector not done (R404). -/
def EngineOp.sector (o : EngineOp) : Nat := match o.work with
  | .copy _ todo _ => ((todo.head?).map fun m => m.dst.sector).getD 0
  | .pfx _ _ o _ => o
  | .wbx _ _ o _ next => o + 64 * next
  | .product p => p.cadd / 32 * 32
  | .accld _ _ dst _ _ next _ => dst + 32 * next
  | .accst _ dst _ _ _ _ _ next _ => (dst / 32 + next) * 32
  | .skscore _ _ c _ next _ => (c + 32 + 2 * next) / 32 * 32
  | .coll kind ty count m _ step _ _ => o.collSector kind ty count step m
  | _ => 0
/-- Replace an operand's entry in place. -/
def TileAt.refresh (g : MemOperand → MemOperand) : TileAt → TileAt
  | .mem m => .mem (g m)
  | t => t
def Work.refresh (g : MemOperand → MemOperand) : Work → Work
  | .copy mems todo done => .copy (mems.map g) todo done
  | .pfx m a b c => .pfx (g m) a b c
  | .wbx m a b c d => .wbx (g m) a b c d
  | .product p => .product { p with a := p.a.refresh g, b := p.b.refresh g, sa := p.sa.refresh g, sb := p.sb.refresh g }
  | .accld m a b c d e h => .accld (m.map g) a b c d e h
  | .accst m a b c d e h i j => .accst (m.map g) a b c d e h i j
  | .skscore m a b c d e => .skscore (m.map g) a b c d e
  | .coll a b c m d e h i => .coll a b c (g m) (g d) e h i
  | w => w
/-- At a sector boundary after an invalidation, checks 1 to 8 are repeated with the current entries (R413). -/
def State.recheckOp (s : State) (o : EngineOp) : Except Event State :=
  if !o.recheck then .ok s
  else
    let bad := o.work.operands.findSome? fun m => match s.recheckOperand o o.sector m with
      | .error ev => some ev
      | .ok _ => none
    match bad with
    | some ev => .error ev
    | none =>
      let g (m : MemOperand) : MemOperand := match s.entry o.core o.ctx m.ref 0 with
        | .ok e => { m with ent := e }
        | .error _ => m
      .ok (s.updOp o.id fun o => { o with recheck := false, work := o.work.refresh g })

/-- ME_LOCK_PHASE: the engine takes the operation in order; a product's memory lines are translated, read and locked (R290). -/
def execMeLockPhase (op : Nat) (s : State) : Result :=
  match s.op op with
  | none => .next s
  | some o =>
    if o.cls != 3 || o.phase != .queued || !s.resident_ o.blk || !s.engineFirst o then .next s
    else match s.recheckOp o with
      | .error ev => .next (s.opFault op ev)
      | .ok s => match ((s.op op).getD o).work with
        | .product p => match s.readProduct o p with
          | .error ev => .next (s.opFault op ev)
          | .ok (p', as) =>
            let lines := (as.map fun a => a.ia / 64).eraseDups
            .next ((as.foldl (fun s a => s.note a false false) s).updOp op fun o =>
              { o with work := .product p', phase := .locked, memLocks := lines })
        | _ => .next (s.updOp op fun o => { o with phase := .locked })
/-- ME_MULTIPLY (R290). -/
def execMeMultiply (op : Nat) (s : State) : Result :=
  match s.op op with
  | some o => if o.cls == 3 && o.phase == .locked && s.resident_ o.blk then .next (s.updOp op fun o => { o with phase := .multiplied }) else .next s
  | none => .next s
/-- What an operation does by its operand-consumed point. -/
def State.finishMe (s : State) (o : EngineOp) : State :=
  match o.work with
  | .product p => s.finishProduct o p
  | .rqt t src sb db rows cols fmt => s.finishRqt o t src sb db rows cols fmt
  | .accz a len =>
    (s.updBlock o.blk fun b =>
      { b.setAccs ((List.range (len / 4)).map fun i => (a + 4 * i, 0)) with
        accPoison := b.accPoison.filter fun ln => !overlap (64 * ln) 64 a len }).endOp o.id 0 (len / 32)
  | .accld mem src dst len ty k bad => s.accldFrom o mem src dst len ty (len / 32 - k) k bad
  | .accst mem dst src len ty rnd sat k bad =>
    s.accstFrom o mem dst src len ty rnd sat ((sectorPieces dst (len / 4 * accElem ty)).drop k) k bad
  | .accscl add n rows =>
    (rows.foldl (fun s r => s.accUpdate o.blk r.1 n fun x => if add then f32Add x r.2 else f32Mul x r.2) s).endOp o.id 0 0
  | .accexp n rows => (rows.foldl (fun s r => s.accUpdate o.blk r.1 n fun x => accExp x r.2.1 r.2.2) s).endOp o.id 0 0
  | .accrow kind n s32 d rows => s.finishAccrow o kind n s32 d rows
  | _ => s
/-- ME_OPERAND_CONSUMED: the last operand byte has been read, the results are written and every lock is released (R290, R291). -/
def execMeOperandConsumed (op : Nat) (s : State) : Result :=
  match s.op op with
  | some o =>
    if o.cls != 3 || o.phase != .multiplied || !s.resident_ o.blk then .next s
    else
      -- no fault can occur in a product's multiply phase: its operands have been read
      let checked : Except Event State := match o.work with
        | .product _ => .ok (s.updOp op fun o => { o with recheck := false })
        | _ => s.recheckOp o
      match checked with
      | .error ev => .next (s.opFault op ev)
      | .ok s => .next (s.finishMe ((s.op op).getD o))
  | none => .next s

end Sys2Proof.Machine
end

