-- ==== Sys2Proof/Machine/Collective.lean ====
section
/-! DEFINITION. Group 0x18: collectives over a ring of devices (R270 to R276, R442, R463, R464), with the chunk, time-out and
RINGLIST events that they meet. -/

namespace Sys2Proof.Machine
open Bits

/-! ### The ring record (R270) -/

namespace Rr
def members (v : BitVec 1024) : List (BitVec 12) := (List.range (field v 8 4 + 1)).map fun j => v.extractLsb' (256 + 16 * j) 12
def pos (v : BitVec 1024) : Nat := field v 12 4
def epoch (v : BitVec 1024) : BitVec 16 := v.extractLsb' 16 16
def ring (v : BitVec 1024) : Word := v.extractLsb' 32 32
def stage (v : BitVec 1024) : DWord := v.extractLsb' 64 64
def tmo (v : BitVec 1024) : Nat := field v 128 32
/-- CHECK, over bytes 0x00 to 0x7B. -/
def sealed (v : BitVec 1024) : Bool := v.extractLsb' 992 32 == crc32c (toBytes 124 v)
/-- Reserved fields and values, and this device's own place. -/
def ok (own : BitVec 12) (v : BitVec 1024) : Bool :=
  field v 0 8 == 1 && isZero v 160 96 && isZero v 512 480 && field v 8 4 != 0 && pos v ≤ field v 8 4 && tmo v != 0 &&
  v.extractLsb' (256 + 16 * pos v) 12 == own &&
  (List.range 16).all fun j => isZero v (268 + 16 * j) 4 && (j ≤ field v 8 4 || isZero v (256 + 16 * j) 12)
/-- Two records are identical in every field but POS and CHECK (R276). -/
def same (a b : BitVec 1024) : Bool :=
  a.extractLsb' 0 12 == b.extractLsb' 0 12 && a.extractLsb' 16 976 == b.extractLsb' 16 976
end Rr

/-- The snapshot of a ring record: its two lines under the rules of R263, then its fields (R270). -/
def State.ringRecord (s : State) (ref : DWord) : Except Event (BitVec 1024) :=
  match s.checkRef ref (refOff ref) 64 snapReq .load, s.checkRef ref (refOff ref + 64 : Nat) 64 snapReq .load with
  | .error ev, _ => .error ev
  | _, .error ev => .error ev
  | .ok a, .ok b =>
    let v : BitVec 1024 := ofBytes 1024 (s.bytes a.place.phys 64 ++ s.bytes b.place.phys 64)
    match s.snapRead ref (Rr.sealed v) v with
    | .error ev => .error ev
    | .ok v => if Rr.ok s.latigo.pbr v then .ok v else .error illegalEncoding
/-- Both lines stay in the parameter-block cache. -/
def State.keepRing (s : State) (ref : DWord) : State := (s.keepParam ref).keepParam (ref + 64)

/-! ### Rings and markers (R271) -/

def CollRing.is (r : CollRing) (ring : Word) (epoch : BitVec 16) : Bool := r.ring == ring && r.epoch == epoch
def State.ringOf (s : State) (ring : Word) (epoch : BitVec 16) : Option CollRing := s.rings.find? (·.is ring epoch)
def State.updRing (s : State) (ring : Word) (epoch : BitVec 16) (g : CollRing → CollRing) : State :=
  { s with rings := s.rings.map fun r => if r.is ring epoch then g r else r }
/-- A ring is held live. -/
def State.ringLive (s : State) (ring : Word) (epoch : BitVec 16) : Bool := s.rings.any fun r => !r.marker && r.is ring epoch
/-- Rings that an outstanding COLLX is still to install: each has a live entry set aside (R276). -/
def State.dueRings (s : State) : List (Word × BitVec 16) :=
  ((s.ops.filterMap fun o => if o.phase == .ended then none else match o.work with
    | .collx v 0 _ => some (Rr.ring v, Rr.epoch v)
    | _ => none).filter fun r => !s.ringLive r.1 r.2).eraseDups
/-- An instruction that names a ring may have it: it is held or set aside already, or there is a live entry for it (R271). -/
def State.ringRoom (s : State) (ring : Word) (epoch : BitVec 16) : Bool :=
  s.ringLive ring epoch || s.dueRings.contains (ring, epoch) || decide (s.rings.countP (!·.marker) + s.dueRings.length < 256)
/-- Install a ring as IDLE; it takes the place of a marker of its name. -/
def State.addRing (s : State) (ring : Word) (epoch : BitVec 16) (ctx : Nat) : State :=
  match s.ringOf ring epoch with
  | some r => if r.marker then { s with rings := (s.rings.filter fun x => !x.is ring epoch) ++ [{ ring := ring, epoch := epoch, ctx := ctx }] } else s
  | none => { s with rings := s.rings ++ [{ ring := ring, epoch := epoch, ctx := ctx }] }
/-- Keep a marker; beyond 1,024 the oldest goes. -/
def State.addMarker (s : State) (ring : Word) (epoch : BitVec 16) (ctx count : Nat) : State :=
  let rest := s.rings.filter fun x => !x.is ring epoch
  let oldest := (rest.find? (·.marker)).map fun x => (x.ring, x.epoch)
  let rest := if rest.countP (·.marker) < 1024 then rest else rest.filter fun x => some (x.ring, x.epoch) != oldest
  { s with rings := rest ++ [{ ring := ring, epoch := epoch, ctx := ctx, st := .retired, count := count, marker := true }] }
/-- The operation is a collective of a ring that has not ended. -/
def EngineOp.onRing (o : EngineOp) (ring : Word) (epoch : BitVec 16) : Bool :=
  o.phase != .ended && o.ring == ring.toNat && o.epoch == epoch && (match o.work with | .coll _ _ _ _ _ _ _ _ => true | _ => false)
/-- Chunks of an epoch that are no longer wanted. -/
def State.dropChunks (s : State) (ring : Word) (epoch : BitVec 16) : State :=
  { s with chunks := s.chunks.filter fun c => !(c.ringId == ring && c.epoch == epoch) }
/-- End an operation and forget the chunk stores it still awaits. -/
def State.endColl (s : State) (id status count : Nat) : State :=
  let s := s.endOp id status count
  { s.updOp id fun o => { o with unacked := 0 } with peerStores := s.peerStores.filter fun p => !(p.op == some id && p.lease == 0) }
/-- A ring becomes RETIRED: its operations end ABORTED and a marker stays (R271, R276). -/
def State.retireRing (s : State) (ring : Word) (epoch : BitVec 16) (ctx : Nat) : State :=
  let out := s.ops.filter (·.onRing ring epoch)
  let s := out.foldl (fun s o => s.endColl o.id 3 0) s
  match s.ringOf ring epoch with
  | some r => if r.marker then s else (s.addMarker ring epoch r.ctx (r.count + out.length)).dropChunks ring epoch
  | none => (s.addMarker ring epoch ctx 0).dropChunks ring epoch
/-- A ring becomes FAILED, and its operation ends with a status (R274). -/
def State.failRing (s : State) (o : EngineOp) (status silent : Nat) : State :=
  let ring := BitVec.ofNat 32 o.ring
  ((s.endColl o.id status 0).updRing ring o.epoch fun r => { r with st := .failed, silent := silent, count := r.count + 1 }).dropChunks ring o.epoch

/-! ### COLL (R272) -/

/-- COLL's checks in the order of R272. -/
def State.collPlan (s : State) (f : Fields) (l : Nat) : Except Event (BitVec 1024 × MemOperand × MemOperand × Option MemOperand) :=
  let fb := s.curCrew.fibre l
  let ref := fb.pair f.b.toNat
  let n := (fb.reg f.c.toNat).toNat
  let es := collBytes f.ty
  let top (r : DWord) (bytes : Nat) : Int := refOff r + (bytes : Int) - 1
  let q : Req := { r := true, w := true }
  do
    let v ← s.ringRecord (fb.pair f.a.toNat)
    need (decide (1 ≤ n) && decide (n ≤ 2 ^ 28)) { cause := causeBounds }
    let _ ← s.xuMem ref (top ref (n * es)) 1 { q with poison := false }
    need (refOff ref % es == 0) (memFault causeAlign ref (refOff ref))
    let m ← s.xuMem ref (top ref (n * es)) 1 q
    let big := (chunkAt (Rr.members v).length n 0).2 * es
    let stage ← s.xuMem (Rr.stage v) (top (Rr.stage v) (2 * big)) 1 q
    let st ← s.stampOf (fb.pair f.d.toNat)
    need ((s.ringOf (Rr.ring v) (Rr.epoch v)).isSome || s.ringRoom (Rr.ring v) (Rr.epoch v)) { cause := causeBounds }
    pure (v, m, stage, st)
/-- An operation of a ring, before `startOp` names it. -/
def ringOp (v : BitVec 1024) (work : Work) (stamp : Option MemOperand) : EngineOp :=
  { newOp work stamp [] [] with
    ring := (Rr.ring v).toNat, epoch := Rr.epoch v, pos := Rr.pos v, members := Rr.members v, tmo := Rr.tmo v }
/-- COLL: a marker ends it ABORTED at once and a FAILED ring ends it TIMEOUT; otherwise the ring is held from its first COLL on
(R271, R272). -/
def execColl (f : Fields) (s : State) : Result := s.engineForm f 0x18 5 fun s l =>
  let fb := s.curCrew.fibre l
  s.checked f l (s.collPlan f l) fun p =>
    let v := p.1
    let id := s.nextId
    let s := ((s.keepRing (fb.pair f.a.toNat)).keepEntries [p.2.1, p.2.2.1]).startOp 5
      (ringOp v (.coll (f.mb 0 4) f.ty (fb.reg f.c.toNat).toNat p.2.1 p.2.2.1 0 none []) p.2.2.2)
    match s.ringOf (Rr.ring v) (Rr.epoch v) with
    | none => .next (s.addRing (Rr.ring v) (Rr.epoch v) s.curCtx)
    | some r =>
      if r.marker then .next (s.endColl id 3 0)
      else if r.st == .failed then
        .next ((s.endColl id 1 0).updRing r.ring r.epoch fun r => { r with count := r.count + 1 })
      else .next s

/-! ### The steps of a collective (R273, R463) -/

/-- Combine the running result with this member's element, rounding once (R273). -/
def collCombine (kind ty : Nat) (a b : Word) : Word :=
  if ty == 0 || ty == 1 then
    let less := if ty == 0 then decide (a.toInt ≤ b.toInt) else decide (a.toNat ≤ b.toNat)
    match kind with
    | 1 => if less then a else b
    | 2 => if less then b else a
    | _ => a + b
  else
    let x := floatBits ty a
    let y := floatBits ty b
    let r := match kind with
      | 1 => FEnv.plain.minmax ty false false x y
      | 2 => FEnv.plain.minmax ty true false x y
      | _ => FEnv.plain.add ty false (FEnv.plain.read ty x) (FEnv.plain.read ty y)
    BitVec.ofNat 32 r.bits
/-- The accesses of the elements of a chunk of the buffer, or the first fault, which names the destination sector `at_` (R404). -/
def State.chunkAccess (s : State) (o : EngineOp) (m : MemOperand) (es first at_ : Nat) (acc : Access) : List Nat → Except Event (List Acc)
  | [] => .ok []
  | i :: r =>
    match s.opAccess o m (refOff m.ref + (first + i) * es) es acc at_ with
    | .error ev => .error ev
    | .ok a => match s.chunkAccess o m es first at_ acc r with
      | .error ev => .error ev
      | .ok t => .ok (a :: t)
/-- This member's own chunk. -/
def State.ownChunk (s : State) (o : EngineOp) (m : MemOperand) (ty count at_ c : Nat) : Except Event (State × List Word) :=
  let es := collBytes ty
  let x := chunkAt o.members.length count c
  match s.chunkAccess o m es x.1 at_ .load (List.range x.2) with
  | .error ev => .error ev
  | .ok l => .ok (l.foldl (fun s a => s.note a false false) s, l.map fun a => ofBytes 32 (s.bytes a.place.phys es))
/-- Write a chunk of the buffer; none while a line of it is locked. -/
def State.writeChunk (s : State) (o : EngineOp) (m : MemOperand) (ty count at_ c : Nat) (data : List Word) : Except Event (Option State) :=
  let es := collBytes ty
  let x := chunkAt o.members.length count c
  match s.chunkAccess o m es x.1 at_ .store (List.range (min x.2 data.length)) with
  | .error ev => .error ev
  | .ok l =>
    if l.any fun a => s.lineLocked a.ia es then .ok none
    else
      let s := (l.zip data).foldl (fun s x => s.store .other o.task (some o.id) x.1 false (toBytes es x.2)) s
      .ok (some s)
/-- Sectors of the buffer that a completed operation counts (R273). -/
def collSectors (o : EngineOp) (kind ty count : Nat) (m : MemOperand) : Nat :=
  let es := collBytes ty
  let x := if kind == 4 then chunkAt o.members.length count o.pos else (0, count)
  let lo := refOff m.ref + x.1 * es
  if x.2 == 0 then 0 else (lo + x.2 * es - 1) / 32 - lo / 32 + 1
/-- What the staging object holds during and after an operation is not architectural: its bytes become free ones, for twice the largest chunk
(R272, log 3). Its pages are checked as those of any operand, a fault naming the destination sector `at_` (R257, R258, R404). A line that is
locked keeps its bytes. -/
def State.freeStage (s : State) (o : EngineOp) (stage : MemOperand) (ty count at_ : Nat) : Except Event State :=
  let n := 2 * (chunkAt o.members.length count 0).2 * collBytes ty
  (pieces (refOff stage.ref) n).foldl (fun r x => match r with
    | .error ev => .error ev
    | .ok s => match s.opAccess o stage x.1 x.2 .load at_ with
      | .error ev => .error ev
      | .ok a => if s.lineLocked a.ia x.2 then .ok s else let f := s.freeBytes x.2; .ok (f.2.store .other o.task none a false f.1)) (.ok s)
/-- A fault of a collective: a fatal one also leaves its ring FAILED (R274). -/
def State.collFault (s : State) (o : EngineOp) (e : Event) : State :=
  let s := s.opFault o.id e
  if e.cause.toNat < 0x10 then s else s.failRing o 2 0
/-- Send this step's chunk to the successor; the step then awaits its predecessor's (R274, R463). A chunk store names no lease. -/
def State.sendChunk (s : State) (o : EngineOp) (work : Option Nat → List Word → Work) (kind ty count step seq : Nat)
    (data : List Word) : State :=
  let dst := (o.members[(o.pos + 1) % o.members.length]?).getD 0
  let c : Chunk := { ringId := BitVec.ofNat 32 o.ring, epoch := o.epoch, seq := seq, kind := kind, type := ty, count := count, step := step, data := data }
  let s := (s.emit (.chunk dst c)).updOp o.id fun o =>
    { o with work := work (some s.devTime.toNat) data, phase := .working, unacked := o.unacked + 1 }
  { s with
    peerStores := s.peerStores ++ [{ id := s.nextId, task := o.task, lease := 0, ia := 0, op := some o.id, sentAt := s.devTime.toNat }]
    nextId := s.nextId + 1 }
/-- One unit of a collective: send this step's chunk, or take the one that has arrived. Operations on one ring run one at a time. -/
def State.collUnit (s : State) (o : EngineOp) (kind ty count : Nat) (buf stage : MemOperand) (step : Nat)
    (waitFrom : Option Nat) (part : List Word) : State :=
  let ring := BitVec.ofNat 32 o.ring
  let n := o.members.length
  match s.ringOf ring o.epoch with
  | none => s.endColl o.id 3 0
  | some r =>
    if r.marker then s.endColl o.id 3 0
    else if s.ops.any fun p => p.onRing ring o.epoch && p.id < o.id then s
    else if r.st == .failed then (s.endColl o.id 1 0).updRing ring o.epoch fun r => { r with count := r.count + 1 }
    else
      let s := s.updRing ring o.epoch fun r => { r with st := .running }
      let at_ (k : Nat) (w : Option Nat) (d : List Word) : Work := .coll kind ty count buf stage k w d
      let total := if kind == 3 || kind == 4 then n - 1 else 2 * (n - 1)
      let p : Int := o.pos
      let dest := o.collSector kind ty count step buf
      match waitFrom with
      | none => match s.freeStage o stage ty count dest with
        | .error ev => s.collFault o ev
        | .ok s =>
        if step != 0 then s.sendChunk o (at_ step) kind ty count step r.count part
        else if kind == 5 && o.pos != 0 then
          -- before its chunk leaves position 0, a broadcast partial carries no defined elements
          let len := (chunkAt n count (chunkNo n (p - 1))).2
          let d := (List.range len).map fun i => Config.freeWord (s.free + i)
          { s.sendChunk o (at_ 0) kind ty count 0 r.count d with free := s.free + len }
        else match s.ownChunk o buf ty count dest (chunkNo n (if kind == 3 then p else p - 1)) with
          | .error ev => s.collFault o ev
          | .ok (s, d) => s.sendChunk o (at_ 0) kind ty count 0 r.count d
      | some _ =>
        if 0 < o.unacked then s
        else match s.chunks.find? fun c => c.ringId == ring && c.epoch == o.epoch && c.seq == r.count &&
            (c.step == step || c.kind != kind || c.type != ty || c.count != count) with
        | none => s
        | some c =>
          if c.kind != kind || c.type != ty || c.count != count then s.failRing o 2 0
          else match s.freeStage o stage ty count dest with
            | .error ev => s.collFault o ev
            | .ok s =>
            let reducing := kind != 3 && step < n - 1
            let no := if kind == 3 then chunkNo n (p - 1 - step)
              else if step < n - 1 then chunkNo n (p - 2 - step) else chunkNo n (p - 1 - (step - (n - 1) : Nat))
            let combined : Except Event (State × List Word) :=
              if !reducing then .ok (s, c.data)
              else if kind == 5 && o.pos != 0 then .ok (s, c.data)
              else match s.ownChunk o buf ty count dest no with
                | .error ev => .error ev
                | .ok (s, own) => .ok (s, if kind == 5 then own else (c.data.zip own).map fun x => collCombine kind ty x.1 x.2)
            match combined with
            | .error ev => s.collFault o ev
            | .ok (s, d) =>
              let go (s : State) : State :=
                let s : State := { s with chunks := s.chunks.erase c }
                if step + 1 == total then
                  (s.endColl o.id 0 (collSectors o kind ty count buf)).updRing ring o.epoch fun r => { r with st := .idle, count := r.count + 1 }
                else s.updOp o.id fun o => { o with work := at_ (step + 1) none d, phase := .working }
              if reducing && step + 1 != n - 1 then go s
              else match s.writeChunk o buf ty count dest no d with
                | .error ev => s.collFault o ev
                | .ok (some s) => go s
                | .ok none => s

/-- COLL_CHUNK_ARRIVAL: a chunk of a FAILED, RETIRED or discarded epoch is dropped; any other is kept until its step takes it. One for
a ring not yet held goes into the buffer of 64, and is not acknowledged while that is full (R442). -/
def execCollChunkArrival (c : Chunk) (s : State) : Result :=
  match s.ringOf c.ringId c.epoch with
  | some r =>
    if r.marker || r.st == .failed then .next (s.emit .writeDone)
    else .next ({ s with chunks := s.chunks ++ [c] }.emit .writeDone)
  | none =>
    if 64 ≤ s.chunks.countP (fun x => (s.ringOf x.ringId x.epoch).isNone) then .next s
    else .next ({ s with chunks := s.chunks ++ [c] }.emit .writeDone)

/-- COLL_TIMEOUT: the wait of a step outlasts TMO: status TIMEOUT, a FAILED ring, and a record (R274, R404). -/
def execCollTimeout (op : Nat) (s : State) : Result :=
  match s.op op with
  | none => .next s
  | some o =>
    match o.work with
    | .coll _ _ _ _ _ step (some t) _ =>
      let ring := BitVec.ofNat 32 o.ring
      let seq := ((s.ringOf ring o.epoch).map (·.count)).getD 0
      let here := s.chunks.any fun c => c.ringId == ring && c.epoch == o.epoch && c.seq == seq && c.step == step
      if o.phase != .working || (here && o.unacked == 0) || s.devTime.toNat < t + 1000 * o.tmo then .next s
      else
        let silent := (o.pos + o.members.length - 1) % o.members.length
        let task := s.task o.task
        .next ((s.failRing o 1 silent).hubRecord o.ctx
          { cause := causeCollTimeout, src := 4, ref := at_ 64 0 32 o.ring ||| at_ 64 32 16 o.epoch.toNat
            arg0 := BitVec.ofNat 64 step, arg1 := BitVec.ofNat 64 silent } task.tid task.rec_.tag)
    | _ => .next s

/-! ### COLLQ (R275) -/

/-- The word COLLQ returns. -/
def State.collWord (s : State) (v : BitVec 1024) : Word :=
  match s.ringOf (Rr.ring v) (Rr.epoch v) with
  | none => 0
  | some r =>
    let st := match r.st with | .idle => 0 | .running => 1 | .failed => 2 | .retired => 3
    at_ 32 30 2 st ||| at_ 32 20 4 r.silent ||| at_ 32 0 16 r.count
/-- COLLQ, replay-eligible: the record of the lowest guard-true slot is checked, and every guard-true fibre gets its word (R256, R275). -/
def execCollq (f : Fields) (s : State) : Result := s.noTry f 0x18 fun s =>
  let low : Option (Nat × DWord) := match s.cur.replay with
    | some r => (ones r.mask).head?.map fun i => (i, (Sparse.find? r.srcA i).getD 0)
    | none => (s.acting f).head?.map fun i => (i, (s.curCrew.fibre i).pair f.a.toNat)
  match low with
  | none => .next s.goOn
  | some (l, ref) => s.checked f l (s.ringRecord ref) fun v =>
      (s.keepRing ref).replayForm f [f.d.toNat] (fun fb => fb.pair f.a.toNat) (fun _ => 0) fun _ _ => ([(f.d.toNat, s.collWord v)], 0)

/-! ### COLLX and RINGLIST (R276, R441, R464) -/

/-- The outstanding COLLX of a new record, in a given round. -/
def State.collxOf (s : State) (v : BitVec 1024) (round : Nat) : Option EngineOp :=
  s.ops.find? fun o => o.phase != .ended && (match o.work with | .collx w r _ => r == round && Rr.same v w | _ => false)
/-- The fabric manager's answer reaches a member: the new ring is installed as IDLE, and the second RINGLIST is due. -/
def State.ringAnswered (s : State) (v : BitVec 1024) : State × Option (BitVec 1024) :=
  match s.collxOf v 0 with
  | none => (s, none)
  | some o => match o.work with
    | .collx w _ t => ((s.addRing (Rr.ring w) (Rr.epoch w) o.ctx).updOp o.id fun o => { o with work := .collx w 1 t, phase := .working }, some w)
    | _ => (s, none)
/-- The final RINGLIST reaches a member: its COLLX ends with count 1. -/
def State.ringFinal (s : State) (v : BitVec 1024) : State :=
  match s.collxOf v 1 with
  | none => s
  | some o => s.endOp o.id 0 1
/-- What the fabric manager keeps of a record's senders. -/
def State.listsOf (s : State) (v : BitVec 1024) (round : Nat) : List (BitVec 12) :=
  (s.latigo.lists.filter fun x => x.2.1 == round && Rr.same x.2.2 v).map (·.1)
/-- Every member of a record has sent it and been answered: the final RINGLIST goes to each (R441). -/
def State.fmFinal (s : State) (v : BitVec 1024) : State :=
  if (Rr.members v).all (s.listsOf v 2).contains then
    let s := (Rr.members v).foldl (fun s m => if m == s.latigo.pbr then s.ringFinal v else s.emit (.ringlist m v)) s
    { s with latigo := { s.latigo with lists := s.latigo.lists.filter fun x => !Rr.same x.2.2 v } }
  else s
/-- Note that a member has returned its installed record. -/
def State.fmReturned (s : State) (from_ : BitVec 12) (v : BitVec 1024) : State :=
  { s with latigo := { s.latigo with lists := s.latigo.lists.map fun x =>
    if x.1 == from_ && x.2.1 == 1 && Rr.same x.2.2 v then (x.1, 2, x.2.2) else x } }
/-- The fabric manager takes a member's RINGLIST: the new record, or in round 2 its installed record (R441). When it is itself a
member, its own part of the exchange takes no message. -/
def State.fmTake (s : State) (from_ : BitVec 12) (v : BitVec 1024) : State :=
  if (s.listsOf v 1).contains from_ then (s.fmReturned from_ v).fmFinal v
  else if (s.listsOf v 2).contains from_ then s
  else
    let lists := (s.latigo.lists.filter fun x => !(x.1 == from_ && Rr.ring x.2.2 == Rr.ring v)) ++ [(from_, 0, v)]
    let s : State := { s with latigo := { s.latigo with lists := lists } }
    if (Rr.members v).all (s.listsOf v 0).contains then
      let s : State := { s with latigo := { s.latigo with lists := s.latigo.lists.map fun x => if Rr.same x.2.2 v then (x.1, 1, x.2.2) else x } }
      let s := (Rr.members v).foldl (fun s m =>
        if m == s.latigo.pbr then
          let a := s.ringAnswered v
          match a.2 with | some w => a.1.fmReturned m w | none => a.1
        else s.emit (.ringlist m v)) s
      s.fmFinal v
    else s
/-- Send a RINGLIST to the fabric manager, if there is one. -/
def State.sendRinglist (s : State) (v : BitVec 1024) : State :=
  if !s.latigo.fmValid then s
  else if s.latigo.isFm then s.fmTake s.latigo.pbr v
  else s.emit (.ringlist s.latigo.fmPbr v)
/-- RINGLIST: one with a wrong CHECK is discarded (R431); the fabric manager takes members' records, a member its answers. -/
def execRinglist (source : BitVec 12) (body : BitVec 1024) (s : State) : Result :=
  if !Rr.sealed body || source == s.latigo.pbr then .next s
  else if s.latigo.isFm then .next (if (Rr.members body).contains source then s.fmTake source body else s)
  else if s.latigo.fmValid && source == s.latigo.fmPbr then
    match s.collxOf body 0 with
    | some _ =>
      let a := s.ringAnswered body
      match a.2 with | some w => .next (a.1.sendRinglist w) | none => .next a.1
    | none => .next (s.ringFinal body)
  else .next s

/-- COLLX's checks. -/
def State.collxPlan (s : State) (f : Fields) (l : Nat) : Except Event (BitVec 1024 × BitVec 1024 × Option MemOperand) :=
  let fb := s.curCrew.fibre l
  do
    let a ← s.ringRecord (fb.pair f.a.toNat)
    let b ← s.ringRecord (fb.pair f.b.toNat)
    need (Rr.ring a == Rr.ring b && Rr.epoch b == Rr.epoch a + 1) illegalEncoding
    let st ← s.stampOf (fb.pair f.d.toNat)
    -- a live old ring leaves its entry to the new one
    need (s.ringLive (Rr.ring a) (Rr.epoch a) || s.ringRoom (Rr.ring b) (Rr.epoch b)) { cause := causeBounds }
    pure (a, b, st)
/-- COLLX: the old ring is retired at issue and the new record goes to the fabric manager (R276). -/
def execCollx (f : Fields) (s : State) : Result := s.engineForm f 0x18 5 fun s l =>
  let fb := s.curCrew.fibre l
  s.checked f l (s.collxPlan f l) fun p =>
    let old := p.1
    let new := p.2.1
    let s := (s.keepRing (fb.pair f.a.toNat)).keepRing (fb.pair f.b.toNat)
    let s := s.retireRing (Rr.ring old) (Rr.epoch old) s.curCtx
    let s := s.startOp 5 { ringOp new (.collx new 0 (s.devTime.toNat + 1000 * Rr.tmo new)) p.2.2 with phase := .working }
    .next (s.sendRinglist new)
/-- COLLX_TIMEOUT: no final RINGLIST within TMO of issue: TIMEOUT with count 0, and the new epoch is kept as a marker (R276). -/
def execCollxTimeout (op : Nat) (s : State) : Result :=
  match s.op op with
  | none => .next s
  | some o =>
    match o.work with
    | .collx v _ t =>
      if o.phase == .ended || s.devTime.toNat < t then .next s
      else .next ((s.retireRing (Rr.ring v) (Rr.epoch v) o.ctx).endOp op 1 0)
    | _ => .next s

end Sys2Proof.Machine
end

