-- ==== Sys2Proof/Machine/Sketch.lean ====
section
/-! DEFINITION. Group 0x17: the sketch engine (R301 to R304). -/

namespace Sys2Proof.Machine
open Bits

/-- SKBUILD (R301). -/
def execSkbuild (f : Fields) (s : State) : Result := s.wholeForm f 0x17 4 fun s l =>
  let fb := s.curCrew.fibre l
  let dst := (fb.reg f.a.toNat).toNat
  let src := (fb.reg f.b.toNat).toNat
  let n := field f.ext 0 16 + 1
  let bytes := n * 64 * accElem f.ty
  let plan : Except Event (Option MemOperand) := do
    need (dst % 32 == 0) (scrFault causeAlign dst)
    need (src % accElem f.ty == 0) (scrFault causeAlign src)
    s.xuRange dst (32 * n)
    if f.mbit 0 then s.accRange src bytes else s.xuRange src bytes
    s.stampFor f l
  s.checked f l plan fun st =>
    .next (s.startOp 4 (newOp (.skbuild dst src f.ty (f.mbit 0) (fb.reg f.c.toNat) n 0) st
      ((dst, 32 * n) :: (if f.mbit 0 then [] else [(src, bytes)])) []))

/-- SKSCORE (R302). -/
def execSkscore (f : Fields) (s : State) : Result := s.wholeForm f 0x17 4 fun s l =>
  let fb := s.curCrew.fibre l
  let c := (fb.reg f.c.toNat).toNat
  let n := field f.ext 0 16 + 1
  let mem := f.form = .pair
  let ref := fb.pair f.a.toNat
  let keys := if mem then refOff ref else (fb.reg f.a.toNat).toNat
  let plan : Except Event (Option MemOperand × Option MemOperand) := do
    need (keys % 32 == 0) (if mem then memFault causeAlign ref keys else scrFault causeAlign keys)
    need (c % 32 == 0) (scrFault causeAlign c)
    s.xuRange c (32 + 2 * n)
    if mem then
      let m ← s.xuMem ref (keys + 32 * n - 1 : Nat) 1 (engineReq false)
      let st ← s.stampFor f l
      pure (some m, st)
    else
      s.xuRange keys (32 * n)
      need (!overlap keys (32 * n) (c + 32) (2 * n)) (scrFault causeBounds c)
      let st ← s.stampFor f l
      pure (none, st)
  s.checked f l plan fun p =>
    .next ((s.keepEntries p.1.toList).startOp 4 (newOp (.skscore p.1 keys c n 0 none) p.2
      ((c, 32 + 2 * n) :: (if mem then [] else [(keys, 32 * n)])) []))

/-- SKSEL: an L form whose result comes at retirement (R303). -/
def execSksel (f : Fields) (s : State) : Result := s.wholeForm f 0x17 4 fun s l =>
  let fb := s.curCrew.fibre l
  let list := (fb.reg f.a.toNat).toNat
  let scores := (fb.reg f.b.toNat).toNat
  let n := field f.ext 0 16 + 1
  let k := field f.ext 16 8 + 1
  let plan : Except Event Unit := do
    need (list % 8 == 0) (scrFault causeAlign list)
    need (scores % 2 == 0) (scrFault causeAlign scores)
    s.xuRange list (8 * k)
    s.xuRange scores (2 * n)
  s.checked f l plan fun _ =>
    let b := s.curBlock
    let op : EngineOp := { newOp (.sksel list scores (fb.reg f.c.toNat) n k (s.actMask f) f.d.toNat) none [(list, 8 * k), (scores, 2 * n)] [] with
      id := s.nextId, blk := s.cur.blk, crew := s.cur.crew, core := b.core, task := b.task, ctx := s.curCtx, cls := 4, pc := s.cur.pc }
    let s' := s.updCur fun c => { c with counters := c.counters.modify 4 (· + 1) }
    .next ({ s' with ops := s'.ops ++ [op], nextId := s.nextId + 1 }.issueLong f { op := some s.nextId } [f.d.toNat])

/-- SKMAP (R304). -/
def execSkmap (f : Fields) (s : State) : Result := s.wholeForm f 0x17 4 fun s l =>
  let fb := s.curCrew.fibre l
  let dst := (fb.reg f.a.toNat).toNat
  let list := (fb.reg f.b.toNat).toNat
  let k := field f.ext 0 8 + 1
  let g := field f.ext 8 5
  let idx := f.mbit 0
  let nb := 64 * (f.mb 1 8 + 1)
  let bytes := if idx then 4 * k else nb / 8
  let plan : Except Event Unit := do
    need (list % 8 == 0) (scrFault causeAlign list)
    need (dst % (if idx then 4 else 8) == 0) (scrFault causeAlign dst)
    s.xuRange list (8 * k)
    s.xuRange dst bytes
  s.checked f l plan fun _ =>
    .next (s.startOp 4 (newOp (.skmap dst list (fb.reg f.c.toNat) k g nb idx) none [(dst, bytes), (list, 8 * k)] []))

/-! ### The work of the sketch engine -/

/-- One element of a sketch: x × f exactly, rounded RNE, clamped to −8 to 7; a NaN gives 0 (R301). -/
def sketchElem (ty : Nat) (x : Nat) (f : Word) : Int :=
  let a := decodeF ty x
  let b := decodeF 8 f.toNat
  if a.isNan || b.isNan then 0
  else match mulF a b with
  | some (.fin s m e) =>
    let r := (roundInt 1 s m e).1
    clamp (-8) 7 (if s then -(r : Int) else r)
  | some (.inf s) => if s then -8 else 7
  | _ => 0
/-- Sketch bytes of 64 elements, element k in nibble k (R153). -/
def sketchBytes (l : List Int) : List Byte :=
  (List.range 32).map fun i =>
    let q (k : Nat) : Nat := (((l[k]?).getD 0) % 16).toNat
    BitVec.ofNat 8 (q (2 * i) + 16 * q (2 * i + 1))
/-- The signed element k of a sketch. -/
def sketchAt (l : List Byte) (k : Nat) : Int := (BitVec.ofNat 4 (elemAt l 4 k)).toInt
/-- The score of a key (R302). -/
def sketchScore (q key : List Byte) : Int := (List.range 64).foldl (fun a k => a + sketchAt q k * sketchAt key k) 0

/-- A write of the sketch engine must wait for locked bytes (R259). -/
def State.skWrite (s : State) (o : EngineOp) (a : Nat) (data : List Byte) (next : Work) (count : Nat) : State :=
  if s.scrLocked o.blk a data.length then s
  else (s.updBlock o.blk (·.setScr a data)).updOp o.id fun o => { o with work := next, phase := .working, count := count }
/-- One sketch of a SKBUILD; a poisoned source line is fatal (R301, R258). -/
def State.skbuildUnit (s : State) (o : EngineOp) (dst src ty : Nat) (acc : Bool) (f : Word) (n next : Nat) : State :=
  if n ≤ next then (s.clearWhole o [] [⟨.scr dst, .scr o.blk dst, 32 * n⟩]).endOp o.id 0 n
  else
    let b := s.block o.blk
    let sz := accElem ty
    let at_ := src + next * 64 * sz
    let bad := if acc then b.accBad at_ 256 else b.scrPoisoned at_ (64 * sz)
    if bad then s.opFault o.id { cause := causePoison, arg0 := BitVec.ofNat 64 (dst + 32 * next) }
    else
      let x (i : Nat) : Nat := if acc then (b.accWord (at_ + 4 * i)).toNat else ((ofBytes 32 (b.scrN (at_ + sz * i) sz) : Word)).toNat
      let data := sketchBytes ((List.range 64).map fun i => sketchElem ty (x i) f)
      s.skWrite o (dst + 32 * next) data (.skbuild dst src ty acc f n (next + 1)) (next + 1)
/-- One key of a SKSCORE; the query is read once, with the first key (R259, R302). -/
def State.skscoreUnit (s : State) (o : EngineOp) (mem : Option MemOperand) (keys c n next : Nat) (query : Option (List Byte)) : State :=
  if n ≤ next then (s.clearWhole o [] [⟨.scr c, .scr o.blk (c + 32), 2 * n⟩]).endOp o.id 0 ((c + 32 + 2 * n - 1) / 32 - (c + 32) / 32 + 1)
  else
    let b := s.block o.blk
    let at_ := (c + 32 + 2 * next) / 32 * 32
    let poison : Event := { cause := causePoison, arg0 := BitVec.ofNat 64 at_ }
    if query.isNone && b.scrPoisoned c 32 then s.opFault o.id poison
    else
      let q := query.getD (b.scrN c 32)
      let s := s.updOp o.id fun o => { o with work := .skscore mem keys c n next (some q), phase := .working }
      let read : Except Event (State × List Byte) := match mem with
        | some m => match s.opAccess o m (keys + 32 * next) 32 .load at_ with
          | .error ev => .error ev
          | .ok a => .ok (s.note a false false, s.bytes a.place.phys 32)
        | none => if b.scrPoisoned (keys + 32 * next) 32 then .error poison else .ok (s, b.scrN (keys + 32 * next) 32)
      match read with
      | .error ev => s.opFault o.id ev
      | .ok (s, key) =>
        s.skWrite o (c + 32 + 2 * next) (toBytes 2 (wrap 16 (sketchScore q key))) (.skscore mem keys c n (next + 1) (some q))
          ((c + 32 + 2 * next) / 32 - (c + 32) / 32 + 1)
/-- A candidate of a top-k list: score and index. -/
abbrev Cand := Int × Word
/-- A candidate ranks before another: higher score, then lower index (R303). -/
def Cand.before (x y : Cand) : Bool := y.1 < x.1 || (x.1 == y.1 && x.2.ult y.2)
/-- Insert by rank, after equals. -/
def rankIn (x : Cand) : List Cand → List Cand
  | [] => [x]
  | y :: r => if Cand.before x y then x :: y :: r else y :: rankIn x r
/-- The entry j of a list in scratchpad (R303). -/
def Block.listEntry (b : Block) (list j : Nat) : Option Cand :=
  let e : DWord := ofBytes 64 (b.scrN (list + 8 * j) 8)
  if e.getLsbD 63 then some ((e.extractLsb' 32 16).toInt, e.extractLsb' 0 32) else none
/-- The k entries SKSEL leaves, in rank order (R303). -/
def Block.sksel (b : Block) (list scores : Nat) (base : Word) (n k : Nat) : List Cand :=
  let old := (List.range k).filterMap (b.listEntry list)
  let new := (List.range n).map fun i =>
    (((ofBytes 16 (b.scrN (scores + 2 * i) 2) : BitVec 16).toInt, base + BitVec.ofNat 32 i) : Cand)
  ((old ++ new).foldl (fun l x => rankIn x l) []).take k
/-- An entry's eight bytes. -/
def entryBytes : Option Cand → List Byte
  | none => List.replicate 8 0
  | some x => toBytes 8 ((at_ 64 63 1 1 ||| at_ 64 32 16 (wrap 16 x.1 : BitVec 16).toNat ||| at_ 64 0 32 x.2.toNat : DWord))
/-- The SCORE of the last entry of a list, sign-extended, or the value of an empty one (R303). -/
def lastScore (list : List Byte) (k : Nat) : Word :=
  let e : DWord := ofBytes 64 (list.drop (8 * (k - 1)))
  if e.getLsbD 63 then (e.extractLsb' 32 16).signExtend 32 else 0xFFFF8000
/-- SKSEL at its retirement: the list and the results (R303); false while the list is locked. A poisoned source line raises nothing (R305),
and what the list then holds is free (log 67); its lines keep
their poison (R293). -/
def State.finishSksel (s : State) (o : EngineOp) (list scores : Nat) (base : Word) (n k : Nat) (slots : Mask) (d : Nat) : Bool × State :=
  let b := s.block o.blk
  if s.scrLocked o.blk list (8 * k) then (false, s)
  else
    let r := b.sksel list scores base n k
    let free := s.freeBytes (8 * k)
    let bad := b.scrPoisoned list (8 * k) || b.scrPoisoned scores (2 * n)
    let data := if bad then free.1 else (List.range k).flatMap fun j => entryBytes r[j]?
    let s := if bad then free.2 else s
    let fill (p : Pending) : Pending :=
      if p.op == some o.id then { p with writes := (ones slots).map fun i => (i, [(d, lastScore data k)]) } else p
    (true, (s.updBlock o.blk fun b => if bad then b.putScr list data else b.setScr list data).updCrew o.blk o.crew fun c => { c with pend := c.pend.map fill })
/-- SKMAP's output bytes (R304). -/
def Block.skmap (b : Block) (list : Nat) (base : Word) (k g nb : Nat) (idx : Bool) : List Byte :=
  let es := (List.range k).map (b.listEntry list)
  if idx then es.flatMap fun e => match e with | some x => toBytes 4 (x.2 - base) | none => toBytes 4 (0xFFFFFFFF : Word)
  else
    let bits := es.filterMap fun e => e.map fun x => (x.2 - base).toNat / 2 ^ g
    (List.range (nb / 8)).map fun i => maskOf 8 ((List.range 8).filter fun j => bits.contains (8 * i + j))
/-- SKMAP in one unit. A poisoned list line raises nothing (R305), and the output is then free (log 67). -/
def State.skmapUnit (s : State) (o : EngineOp) (dst list : Nat) (base : Word) (k g nb : Nat) (idx : Bool) : State :=
  let b := s.block o.blk
  let data := b.skmap list base k g nb idx
  if s.scrLocked o.blk dst data.length then s
  else
    let bad := b.scrPoisoned list (8 * k)
    let r := if bad then s.freeBytes data.length else (data, s)
    (r.2.updBlock o.blk fun b => if bad then b.putScr dst r.1 else b.setScr dst r.1).endOp o.id 0 0
/-- SKSEL's work is over when it may retire (R303, R305). -/
def State.skselUnit (s : State) (o : EngineOp) : State := s.endOp o.id 0 0

end Sys2Proof.Machine
end

