-- ==== Sys2Proof/Machine/HeldRows.lean ====
section
/-! DEFINITION. Held rows: group 0x0F, the rule for swaps, and the events of R242, R244 and R246 that instructions await. -/

namespace Sys2Proof.Machine
open Bits

/-! ### Swaps (R227) -/

/-- Some page of a stack maps a member of a group with PIN = 1. -/
def State.groupPinned (s : State) (group : Nat) : Bool :=
  let stack := group / 2 ^ 20
  (s.mtu stack).pages.any fun p =>
    let e := s.pte ((stack * 2 ^ 33 + p) * 65536)
    field e 61 3 == 1 && field e 0 25 / 4 == group && bit e 57
/-- The frame of a held row's page. -/
def State.rowFrame (s : State) (row : Nat) : Nat := match s.place (row * 1024) with | .ok p => p.phys / 65536 | .error _ => 0
/-- The group's fast member has a held row. -/
def State.groupHeld (s : State) (group : Nat) : Bool :=
  s.rowSlots.any fun x => s.rowFrame x.2.row == group * 4 + s.residentOf group
/-- A checkpoint quiesce is in force: no swap starts (R227, R453). -/
def State.quiescing (s : State) : Bool := match s.ck.st with | .quiescing => true | .quiesced => true | .writing => true | .written => true | _ => false
/-- Placing has stopped: from QUIESCE to RESUME, and after a failed SNAP or LOAD; a QUIESCE that fails for its area changes nothing
else (R452, R453, R457). -/
def State.halted (s : State) : Bool := match s.ck.st with | .running => false | .failed => s.ck.err != 7 | _ => true
/-- The group may be swapped (R227). -/
def State.maySwap (s : State) (group : Nat) : Bool := !s.quiescing && !s.groupHeld group && !s.groupPinned group

/-! ### Tokens (R241) -/

def Block.hold (b : Block) (h : Nat) : Hold := (b.holds[h]?).getD {}
/-- The hold-table entry that a token names with its epoch. -/
def Block.named (b : Block) (t : Word) : Option Nat :=
  let h := field t 5 3
  if t.getLsbD 15 && field t 0 4 == 0 && h < b.holds.length && (b.hold h).epoch == t.extractLsb' 16 16 then some h else none
/-- The hold-table entry of a valid token. -/
def Block.token (b : Block) (t : Word) : Option Nat := (b.named t).filter fun h => (b.hold h).held
/-- The token granted for an entry. -/
def Block.grant (b : Block) (h : Nat) : Word := at_ 32 16 16 (b.hold h).epoch.toNat ||| at_ 32 15 1 1 ||| at_ 32 5 3 h

/-! ### ROWOPEN (R246) -/

/-- What ROWOPEN finds for a row whose page is translated. -/
inductive RowAnswer where
  | slotTrap
  | refused (status : Nat)
  | swap (dfn : Nat)
  | held (h : Nat)
  | opens (h slot : Nat)
  deriving DecidableEq, Repr
/-- The lowest free physical slot of a row's pseudo-channel (R241). -/
def State.freeSlot (s : State) (phys : Nat) : Option Nat :=
  let c := 128 * (phys / 2 ^ 38) + Config.pseudoChannel (phys / 1024) % 128
  ((List.range 8).map (8 * c + ·)).find? fun k => (Sparse.find? s.rowSlots k).isNone
/-- ROWOPEN's choice, in the order of R246. -/
def State.rowAnswer (s : State) (b : Block) (row : Nat) (p : Place) (nowait : Bool) : RowAnswer :=
  match (List.range b.holds.length).find? fun h => (b.hold h).held && (b.hold h).row == row with
  | some h => .held h
  | none =>
    -- the entry that waits to hold this row again, else a free one, else one that waits for another row, which is dropped for it
    let pick (g : Hold → Bool) : Option Nat := (List.range b.holds.length).find? fun h => !(b.hold h).held && g (b.hold h)
    match (pick fun e => e.reopenBy.isSome && e.row == row) <|> (pick (·.reopenBy.isNone)) <|> pick fun _ => true with
    | none => .slotTrap
    | some h =>
      let dfn := p.phys / 65536
      if zoneBase ≤ p.phys then .refused 5
      else if s.blocks.any fun x => x.bid != b.bid && x.holds.any fun e => e.held && e.row == row then .refused 1
      else if !s.inFast dfn then
        if !s.maySwap (dfn / 4) then .refused 3 else if nowait then .refused 4 else .swap dfn
      else match s.freeSlot p.phys with
        | none => .refused 2
        | some k => .opens h k
/-- Hold a row at a physical address: the entry becomes HELD with its epoch, and the row is opened (R241, R246). -/
def State.holdRow (s : State) (bid h row slot phys : Nat) : State :=
  { s.updBlock bid fun b => { b with holds := b.holds.modify h fun e => { e with held := true, row := row, slot := slot, reopenBy := none } }
    with rowSlots := Sparse.insert slot { blk := bid, h := h, row := row, key := phys / 2 ^ 18 * 64 + phys / 1024 % 64, openFrom := s.devTime.toNat } s.rowSlots }
/-- ROWOPEN's reference, offset, and whether its row may be held at all. -/
def State.rowCheck (s : State) (ref : DWord) (o : Int) : Except Event Acc :=
  match s.checkHandle s.curCore s.curCtx s.curTenant ref o 1024 { kinds := [1], r := true, rowDirect := true, align := 1024 } with
  | .error ev => .error ev
  | .ok e =>
    if Ent.gran e < 2 then .error (memFault causeAlign ref o)
    else match s.iaOf s.curCore s.curCtx e ref o.toNat with
      | .error ev => .error ev
      | .ok ia => match s.place ia with
        | .error c => .error (memFault c ref o ia)
        | .ok p => .ok { ent := e, ia := ia, place := p }
/-- ROWOPEN: once for the block, from the lowest acting slot; a swap is awaited, and the instruction is then executed again (R246). -/
def execRowopen (f : Fields) (s : State) : Result := s.noTry f 0x0F fun s =>
  match s.acting f with
  | [] => .next s.goOn
  | l :: _ =>
    let ref := (s.curCrew.fibre l).pair f.a.toNat
    let o : Int := refOff ref + f.x.toInt
    let b := s.curBlock
    if b.holds.isEmpty then s.raise f (some l) { cause := causeRowSlot }
    else match s.rowCheck ref o with
      | .error ev => s.raise f (some l) ev
      | .ok a =>
        let row := a.ia / 1024
        let s := s.keepEntry s.curCore s.curCtx ref
        let give (s : State) (tok : Word) : Result :=
          .next (s.updCur (fun c => { c with rowWait := none }) |>.issueLong f { writes := (s.acting f).map fun i => (i, [(f.d.toNat, tok)]) } [f.d.toNat])
        match s.rowAnswer b row a.place (f.mbit 0) with
        | .slotTrap => s.raise f (some l) { cause := causeRowSlot }
        | .refused st => give s (BitVec.ofNat 32 st)
        | .held h => give s (b.grant h)
        | .opens h k =>
          let s := if (b.hold h).row == row then s else if (b.hold h).reopenBy.isSome then s.dropHold s.cur.blk h else s
          give (s.holdRow s.cur.blk h row k a.place.phys) (s.curBlock.grant h)
        | .swap dfn =>
          let s : State := { s with promotions := if s.promotions.any (·.dfn == dfn) then s.promotions
            else s.promotions ++ [{ dfn := dfn, task := some s.curBlock.task }] }
          (s.updCur fun c => { c with rowWait := some ⟨s.cur.mask, s.cur.pc, s.cur.word, f⟩ }).stall 5
/-- ROWOPEN_SWAP_DONE: the awaited swap is complete, and the strand that stands at the ROWOPEN executes it again in full when it is the one
to issue next (R106, R246). A wait whose fibres have left its PC is over. -/
def execRowopenSwapDone (blk crew : Nat) (s : State) : Result :=
  let c := s.crew blk crew
  match c.rowWait with
  | none => .next s
  | some w =>
    let m := c.strandAt w.pc.toNat
    if !s.crewMoves blk crew || s.fatalDue blk crew || c.nextEntry.isSome || c.trapWaits m then .next s
    else if m &&& w.mask == 0 then .next (s.updCrew blk crew fun c => { c with rowWait := none })
    else if c.nextPlace != some w.pc.toNat then .next s
    else execRowopen w.f { s with cur := { blk := blk, crew := crew, mask := m, pc := w.pc, word := w.word } }

/-! ### ROWREL, ROWLD, ROWST, ROWQ (R247 to R249) -/

/-- ROWREL; an entry that waits to be held again after a restore is dropped too (R247, R384). -/
def execRowrel (f : Fields) (s : State) : Result := s.noTry f 0x0F fun s =>
  match s.acting f with
  | [] => .next s.goOn
  | l :: _ =>
    match s.curBlock.named ((s.curCrew.fibre l).reg f.a.toNat) with
    | none => .next s.goOn
    | some h => .next (s.goOn.dropHold s.cur.blk h)
/-- Accesses through a valid token to its row reopen a row the controller has closed (R242). -/
def State.reopenRows (s : State) (f : Fields) (q : Req) (l : List Want) : State :=
  let b := s.curBlock
  l.foldl (fun s w =>
    match b.token ((s.curCrew.fibre w.slot).reg f.b.toNat), s.checkRef w.ref w.o (sizeBytes f.size) q .write with
    | some h, .ok a =>
      let e := b.hold h
      if a.ia / 1024 != e.row then s
      else match Sparse.find? s.rowSlots e.slot with
        | some r => if r.opened then s else
            { s with rowSlots := Sparse.insert e.slot { r with opened := true, openFrom := s.devTime.toNat } s.rowSlots }
        | none => s
    | _, _ => s) s
/-- ROWLD: through the held row or as an ordinary access, with one value either way (R245, R248). -/
def execRowld (f : Fields) (s : State) : Result := s.noTry f 0x0F fun s =>
  let l := s.semWants f
  match s.checkWants l (sizeBytes f.size) (Req.load (sizeBytes f.size)) .load with
  | .error (i, ev) => s.raise f (some i) ev
  | .ok _ => (s.reopenRows f (Req.load (sizeBytes f.size)) l).loadAll f l false
/-- ROWST (R248). -/
def execRowst (f : Fields) (s : State) : Result := s.noTry f 0x0F fun s =>
  let l := s.semWants f
  match s.checkWants l (sizeBytes f.size) (Req.store (sizeBytes f.size)) .store with
  | .error (i, ev) => s.raise f (some i) ev
  | .ok _ => (s.reopenRows f (Req.store (sizeBytes f.size)) l).storeAll f l false
/-- ROWQ's word for a token (R249). -/
def State.rowWord (s : State) (b : Block) (t : Word) : Word :=
  match b.token t with
  | none => 0
  | some h =>
    let e := b.hold h
    let isOpen := match Sparse.find? s.rowSlots e.slot with | some r => r.opened | none => false
    at_ 32 31 1 1 ||| at_ 32 30 1 isOpen.toNat ||| at_ 32 16 13 e.slot ||| at_ 32 0 3 h
/-- ROWQ, replay-eligible (R249, R397). -/
def execRowq (f : Fields) (s : State) : Result := s.noTry f 0x0F fun s =>
  s.replayForm f [f.d.toNat] (srcReg f.a) (fun _ => 0) fun a _ => ([(f.d.toNat, s.rowWord s.curBlock (loWord a))], 0)

end Sys2Proof.Machine
end

