-- ==== Sys2Proof/Machine/EngineWork.lean ====
section
/-! DEFINITION. The engines at work, retirement of their operations, and the delivery of ENGINE_FATAL (R253, R254, R258, R408). -/

namespace Sys2Proof.Machine
open Bits

/-- One unit of work: a sector, a key or a chunk. Handles are checked again at the boundary after an invalidation (R413). A transfer or
sketch operation works only while its block is on a core; a collective always (R408). -/
def State.workUnit (s : State) (id : Nat) : State :=
  match s.op id with
  | none => s
  | some o =>
    if (o.phase != .queued && o.phase != .working) || o.cls == 3 || (o.cls != 5 && !s.resident_ o.blk) || (o.cls == 4 && !s.engineFirst o) then s
    else match s.recheckOp o with
      | .error ev => if o.cls == 5 then s.collFault o ev else s.opFault id ev
      | .ok s =>
        let o := (s.op id).getD o
        match o.work with
        | .copy mems todo done => s.copyUnit o mems todo done
        | .pfx m fast off len => s.pfxUnit o m fast off len
        | .wbx m demote off len next => s.wbxUnit o m demote off len next
        | .skbuild dst src ty acc f n next => s.skbuildUnit o dst src ty acc f n next
        | .skscore mem keys blk n next q => s.skscoreUnit o mem keys blk n next q
        | .sksel _ _ _ _ _ _ _ => s.skselUnit o
        | .skmap dst list base k g nb idx => s.skmapUnit o dst list base k g nb idx
        | .coll kind ty count buf stage step w part => s.collUnit o kind ty count buf stage step w part
        | _ => s
/-- Several units. -/
def State.workUnits (id : Nat) : Nat → State → State
  | 0, s => s
  | n + 1, s => State.workUnits id n (s.workUnit id)
/-- ENGINE_OPERATION_WORK. -/
def execEngineOperationWork (op units : Nat) (s : State) : Result := .next (State.workUnits op units s)

/-- The registers an operation owes get their values when it retires; a SKSEL that faulted leaves its results undefined. False while its
list is locked. -/
def State.finishResult (s : State) (o : EngineOp) : Bool × State :=
  match o.work with
  | .sksel list scores base n k slots d =>
    let r : Bool × State :=
      if o.status == 0 then s.finishSksel o list scores base n k slots d
      else
        let l := ones slots
        let fill (p : Pending) : Pending := if p.op == some o.id then
          { p with writes := l.zipIdx.map fun x => (x.1, [(d, Config.freeWord (s.free + x.2))]) } else p
        (true, { s.updCrew o.blk o.crew fun c => { c with pend := c.pend.map fill } with free := s.free + l.length })
    (r.1, r.2)
  | _ => (true, s)
/-- No pending result waits for an operation any more. -/
def State.releaseResult (s : State) (o : EngineOp) : State :=
  s.updCrew o.blk o.crew fun c => { c with pend := c.pend.map fun p => if p.op == some o.id then { p with op := none } else p }
/-- The status and count an operation retires with: a PUT whose target block has retired meanwhile ends ABORTED with count 0 (R266). -/
def State.endedAs (s : State) (o : EngineOp) : Nat × Nat := if s.putLost o then (max o.status 3, 0) else (o.status, o.count)
/-- A fault of a stamp's own access: a fatal one leaves the stamp unwritten (R254, R258). -/
def State.stampFault (s : State) (id : Nat) (ev : Event) : State :=
  (s.opFault id ev).updOp id fun o => if o.phase == .ended then { o with stamp := none } else o
/-- Repeat the checks 1 to 8 of an operation that an invalidation has named, its stamp's among them; a failure is disposed of under R258.
True while a read of an entry must wait (R413). A parked or saved operation repeats them when it is taken up again, and a product past its
lock phase has read its operands. -/
def State.recheckNow (s : State) (id : Nat) : Bool × State :=
  match s.op id with
  | none => (false, s)
  | some o =>
    if o.phase == .parked || (o.cls != 5 && !s.resident_ o.blk) then (false, s)
    else
      let past : Bool := o.phase == .ended || (match o.work with | .product _ => o.phase != .queued | _ => false)
      match (if past then .ok (s.updOp id fun o => { o with recheck := false }) else s.recheckOp o) with
      | .error ev => if ev.cause == causeWait then (true, s.setGoing ev) else (false, if o.cls == 5 then s.collFault o ev else s.opFault id ev)
      | .ok s => match o.stamp.filter fun _ => o.restamp with
        | none => (false, s)
        | some m => match s.recheckOperand o (refOff m.ref) m with
          | .ok m => (false, s.updOp id fun o => { o with restamp := false, stamp := some m })
          | .error ev => if ev.cause == causeWait then (true, s.setGoing ev) else (false, s.stampFault id ev)
/-- Every operation, in order: true while one must wait. -/
def State.recheckAll (s : State) : Bool × State :=
  ((s.ops.filter fun o => o.recheck || o.restamp).map (·.id)).foldl (fun x id => let r := x.2.recheckNow id; (x.1 || r.1, r.2)) (false, s)
/-- ENGINE_OP_RETIRE: work done, stores acknowledged, class order kept; then the stamp, the result and the counter (R253, R254). -/
def execEngineOpRetire (op : Nat) (s : State) : Result :=
  match s.op op with
  | none => .next s
  | some o =>
    if o.phase != .ended || 0 < o.unacked || o.pendRec.isSome || !s.inClassOrder o || s.fatalFirst o.blk o.crew ||
      (o.cls != 5 && !s.resident_ o.blk && (s.task o.task).phase == .saved) then .next s
    else
      let stamp : Except Event (Option MemOperand) := match o.stamp with
        | none => .ok none
        | some m => if o.restamp then (s.recheckOperand o (refOff m.ref) m).map some else .ok (some m)
      let done : Except Event (Bool × State) := match stamp with
        | .error ev => .error ev
        | .ok none => .ok (true, s)
        | .ok (some m) => s.stampUpdate o m (s.endedAs o).2 (s.endedAs o).1
      match done with
      | .error ev =>
        if ev.cause == causeWait then .next (s.setGoing ev)
        else .next (s.stampFault op ev)
      | .ok (false, s) => .next s
      | .ok (true, t) =>
        let r := t.finishResult o
        if !r.1 then .next s
        else
          let s := (r.2.releaseResult o).dropOp o
          .next (if o.cls == 1 then s.deliverRects o.task else s)

/-- ENGINE_FATAL_DELIVERY: the strand that issues next carries it; with none, the waiting or parked strand with the lowest PC leaves its
wait; with no live fibre it is a fault of the block. The record's PC is that
strand's (log 32), or the engine instruction's when none carries it. Inside an open try the members abort first and it is delivered again (R258, R368). -/
def execEngineFatalDelivery (blk crew : Nat) (s : State) : Result :=
  let c := s.crew blk crew
  match c.fatals with
  | [] => .next s
  | e :: rest =>
    if !s.fatalDue blk crew then .next s
    else
      let mask : Mask := match c.nextPlace with
        | some k => c.strandAt k
        | none => c.lowestIdle
      let inTry := match c.tr with | some t => t.members &&& mask != 0 | none => false
      let s := s.updCrew blk crew fun c => { c.mapMask mask fun _ fb => fb.wake with fatals := if inTry then c.fatals else rest }
      let e := match ones mask with | i :: _ => { e with pc := ((s.crew blk crew).fibre i).pc } | [] => e
      .next (s.trap blk crew mask mask { e with src := 1 })

end Sys2Proof.Machine
end

