-- ==== Sys2Proof/Machine/TaskService.lean ====
section
/-! DEFINITION. Group 0x14: tasks put into the graph by running tasks (R120, R121), and calls to services with the journal that
answers them (R49 to R57, R355, R356). -/

namespace Sys2Proof.Machine
open Bits

/-! ### TENQ and TDEP (R120, R121) -/

/-- Records on their way into the pool: those to be checked. One that a retry-class fault holds, and one that is refused, take no entry (R58, R477). -/
def State.arriving (s : State) : Nat := s.eligible.countP (·.refused.isNone)
/-- The ready pool has no room for one more eligible record: each on its way into it has an entry set aside (R58, R59; log 43). -/
def State.poolFull (s : State) : Bool := 16384 ≤ s.pool.length + s.arriving
/-- A record becomes eligible (R20). -/
def State.makeEligible (s : State) (ctx : Nat) (ref : DWord) : State :=
  { s with eligible := s.eligible ++ [{ ctx := ctx, ref := ref }] }
/-- PREDREM of the record a reference names: a load of its two bytes, or also a store; the offset must be a multiple of 256 (R120). -/
def State.predrem (s : State) (ref : DWord) (w : Bool) : Except Event Acc :=
  let o : Int := refOff ref + 0xF0
  match s.checkHandle s.curCore s.curCtx s.curTenant ref o 2 { r := true, w := w, poison := false } with
  | .error ev => .error ev
  | .ok _ =>
    if refOff ref % 256 != 0 then .error (memFault causeAlign ref o) else s.checkRef ref o 2 { r := true, w := w } .load
/-- The frame of TENQ and TDEP: every check first, a release, then each fibre in slot order; a full pool stalls (R120). -/
def State.predForm (s : State) (f : Fields) (w : Bool) (step : State → Nat → DWord → Acc → Option (State × Nat)) : Result :=
  s.noTry f 0x14 fun s =>
    let c := s.curCrew
    let ref (i : Nat) : DWord := (c.fibre i).pair f.a.toNat
    match s.queueWants f fun fb => s.predrem (fb.pair f.a.toNat) w with
    | .error (i, ev) => s.raise f (some i) ev
    | .ok l =>
      if w && s.mustHold (l.map fun x => (x.2, 2)) then s.stall 4
      else
        match (match l with | x :: _ => s.release x.1 | [] => .ok s) with
        | .error e => s.stopWith f e
        | .ok s => s.inOrder 4 (fun s x =>
            let t := (s.keepRef ⟨x.1, ref x.1, refOff (ref x.1) + 0xF0⟩ x.2).dropL1 s.curCore x.2.ia 2
            match step t x.1 (ref x.1) x.2 with
            | some r => .ok (r.1, [(f.d.toNat, BitVec.ofNat 32 r.2)])
            | none => .error t) l
/-- PREDREM at a checked place. -/
def State.predAt (s : State) (a : Acc) : BitVec 16 := ofBytes 16 (s.bytes a.place.phys 2)
/-- TENQ (R120). -/
def execTenq (f : Fields) (s : State) : Result := s.predForm f false fun s _ ref a =>
  if s.predAt a != 0 then some (s.note a false false, 1)
  else if s.poolFull then none
  else some ((s.note a false false).makeEligible s.curCtx ref, 0)
/-- TDEP (R121). -/
def execTdep (f : Fields) (s : State) : Result := s.predForm f true fun s i ref a =>
  let p := s.predAt a
  let put (v : BitVec 16) : State := s.store (s.agent i) s.curBlock.task none a false (toBytes 2 v)
  if f.mbit 0 then some (if p == 0 || p == 0xFFFF then s.note a false false else put (p + 1), p.toNat)
  else if p == 0 then some (s.note a false false, 0)
  else if p == 1 then if s.poolFull then none else some ((put 0).makeEligible s.curCtx ref, 1)
  else some (put (p - 1), p.toNat)

/-! ### Requests and the journal (R50, R52, R53) -/

namespace Rq
def callid (v : BitVec 512) : DWord := v.extractLsb' 64 64
def ctx (v : BitVec 512) : Nat := field v 48 6
def tenant (v : BitVec 512) : BitVec 16 := v.extractLsb' 32 16
def replyref (v : BitVec 512) : DWord := v.extractLsb' 160 64
/-- CTX and TENANT read as 0. -/
def bare (v : BitVec 512) : BitVec 512 := v &&& ~~~(at_ 512 32 22 (2 ^ 22 - 1))
/-- VER and the reserved fields of a request. -/
def ok (v : BitVec 512) : Bool :=
  field v 0 8 == 1 && isZero v 8 24 && isZero v 54 10 && isZero v 128 1 && isZero v 130 14
/-- CHECK of a request, with CTX and TENANT read as 0. -/
def sealed (v : BitVec 512) : Bool := v.extractLsb' 480 32 == crc32c (toBytes 60 (bare v))
/-- The request with its caller and a CHECK of its own. -/
def stamped (v : BitVec 512) (ctx : Nat) (tenant : BitVec 16) : BitVec 512 :=
  seal64 (bare v ||| at_ 512 48 6 ctx ||| at_ 512 32 16 tenant.toNat)
/-- Two requests or journal entries are of one call. -/
def sameCall (v : BitVec 512) (c : Nat) (t : BitVec 16) (id : DWord) : Bool := ctx v == c && tenant v == t && callid v == id
end Rq

/-- A journal entry (R53). -/
def journalEntry (state ctx : Nat) (tenant : BitVec 16) (callid : DWord) (rstat : Nat) (result : BitVec 320) : BitVec 512 :=
  seal64 (at_ 512 0 8 1 ||| at_ 512 8 2 state ||| at_ 512 32 16 tenant.toNat ||| at_ 512 48 6 ctx ||| at_ 512 64 64 callid.toNat |||
    at_ 512 128 8 rstat ||| at_ 512 160 320 result.toNat)
def SvcDesc.entryAt (d : SvcDesc) (i : Nat) : Nat := d.jbase + 64 * i
def State.journal (s : State) (q i : Nat) : BitVec 512 := ofBytes 512 (s.iaBytes ((s.service q).entryAt i) 64)
/-- A journal entry has been read (R230). -/
def State.noteJournal (s : State) (q i : Nat) : State := s.noteOwn ((s.service q).entryAt i) 64 false
def State.setJournal (s : State) (q i : Nat) (v : BitVec 512) : State := (s.noteJournal q i).iaWrite ((s.service q).entryAt i) (toBytes 64 v)
/-- Entries of a queue's journal. -/
def SvcDesc.entries (d : SvcDesc) : List Nat := List.range (2 ^ (d.jlog + 8))
/-- A queue's journal cannot be read, or written, now (R291, R333). -/
def State.journalWait (s : State) (q : Nat) (write : Bool) : Option State :=
  let d := s.service q
  s.ownWait d.jbase (64 * 2 ^ (d.jlog + 8)) write
/-- The entry of a call that is not FREE. -/
def State.journalOf (s : State) (q ctx : Nat) (tenant : BitVec 16) (callid : DWord) : Option Nat :=
  (s.service q).entries.find? fun i => let v := s.journal q i; field v 8 2 != 0 && Rq.sameCall v ctx tenant callid
/-- The lowest FREE entry (DESIGN CHOICE, log 15: the spec does not say which FREE entry a new call takes). -/
def State.journalFree (s : State) (q : Nat) : Option Nat := (s.service q).entries.find? fun i => field (s.journal q i) 8 2 == 0
/-- HEAD of a service queue is the position of its oldest request. -/
def State.fixHead (s : State) (q : Nat) : State :=
  s.updQueue q fun d => { d with head := ((s.requests.find? (·.q == q)).map (·.pos)).getD d.tail }
/-- Remove a request from its queue. -/
def State.dropRequest (s : State) (q id : Nat) : State :=
  { s with requests := s.requests.filter fun r => !(r.q == q && r.id == id) }.fixHead q
/-- Push a request as R352 pushes; the hub keeps its 64 bytes with its position (log 15). -/
def State.pushRequest (s : State) (q : Nat) (v : BitVec 512) : State :=
  let pos := (s.queue q).tail
  let s := s.push q (toBytes 64 v)
  { s with requests := s.requests ++ [{ id := s.nextId, q := q, bytes := v, pos := pos }], nextId := s.nextId + 1 }

/-! ### SVC and SVCQ (R355, R356) -/

/-- The checks of one fibre of SVC, in order. -/
def State.svcCheck (s : State) (f : Fields) (fb : Fibre) : Except Event Nat :=
  let a := fb.reg f.b.toNat
  match s.queueFor (fb.pair f.a.toNat) true true with
  | .error ev => .error ev
  | .ok q => match s.entryAddr a with
    | some ev => .error ev
    | none =>
      let v : BitVec 512 := ofBytes 512 (s.curBlock.scrN a.toNat 64)
      if !Rq.sealed v then .error { cause := causeParamTorn, arg0 := a.setWidth 64 }
      else if Rq.ok v then .ok q else .error { cause := causeIllegalEncoding, arg0 := a.setWidth 64 }
/-- One fibre's step of SVC (R355). -/
def svcStep (f : Fields) (c : Crew) (s : State) (x : Nat × Nat) : Except State (State × List (Nat × Word)) :=
  let d := s.queue x.2
  let v := Rq.stamped (ofBytes 512 (s.curBlock.scrN ((c.fibre x.1).reg f.b.toNat).toNat 64)) s.curCtx s.curTenant
  if !d.en || d.closed then .ok (s, [(f.d.toNat, 2)])
  else match s.journalWait x.2 false with
    | some t => .error t
    | none => match s.journalOf x.2 s.curCtx s.curTenant (Rq.callid v) with
      | some i => .ok (s.noteJournal x.2 i, [(f.d.toNat, 1)])
      | none =>
        if d.full then .error s
        else match s.ownWait (d.slot d.tail) 64 true with
          | some t => .error t
          | none => .ok (s.pushRequest x.2 v, [(f.d.toNat, 0)])
/-- SVC (R355). -/
def execSvc (f : Fields) (s : State) : Result := s.noTry f 0x14 fun s => s.pushForm f (s.svcCheck f) (svcStep f s.curCrew)

/-- What SVCQ answers for one call: its word and 40 bytes, or none while the call is CLAIMED (R55). -/
def State.answerCall (s : State) (q ctx : Nat) (tenant : BitVec 16) (callid : DWord) (free : Bool) : Option (State × Word × List Byte) :=
  match s.journalOf q ctx tenant callid with
  | some i =>
    let v := s.journal q i
    let s' := if free then s.setJournal q i (seal64 (v &&& ~~~(at_ 512 8 2 3))) else s.noteJournal q i
    match field v 8 2 with
    | 1 => none
    | 2 => some (s', at_ 32 0 8 1 ||| at_ 32 8 8 (field v 128 8), toBytes 40 (v.extractLsb' 160 320))
    | _ => some (s', 2, List.replicate 40 0)
  | none =>
    match s.requests.find? fun r => r.q == q && Rq.sameCall r.bytes ctx tenant callid with
    | some r => some (s.dropRequest q r.id, 2, List.replicate 40 0)
    | none => some (s, 2, List.replicate 40 0)
/-- Complete a long form for the fibres that have their answer, and let the others wait at the same PC (R335). -/
def State.partLong (s : State) (f : Fields) (waiters : Mask) (wr : List (Nat × List (Nat × Word))) (w : Nat → Wait) : State :=
  let all := s.cur.mask
  let s : State := { s with cur := { s.cur with mask := all &&& ~~~waiters } }
  let s := if s.cur.mask == 0 then s else s.issueLong f { writes := wr } [f.d.toNat]
  let s : State := { s with cur := { s.cur with mask := all } }
  if waiters == 0 then s else s.beginWait f waiters w
/-- SVCQ: the hub answers each fibre in slot order; an answer is an acquire (R356). -/
def execSvcq (f : Fields) (s : State) : Result := s.noTry f 0x14 fun s =>
  let c := s.curCrew
  let at_ (i : Nat) : Nat := ((c.fibre i).reg f.c.toNat).toNat
  let chk (fb : Fibre) : Except Event Nat :=
    let a := (fb.reg f.c.toNat).toNat
    match s.queueFor (fb.pair f.a.toNat) false true with
    | .error ev => .error ev
    | .ok q =>
      if a % 8 != 0 then .error (scrFault causeAlign a)
      else if s.scrBytes < a + 40 then .error (scrFault causeBounds a) else .ok q
  match s.queueWants f chk with
  | .error (i, ev) => s.raise f (some i) ev
  | .ok l =>
    if l.any fun p => s.scrLocked s.cur.blk (at_ p.1) 40 then s.stall 4
    else match l.findSome? fun p => s.journalWait p.2 (f.mbit 0) with
    | some t => t.stall 4
    | none =>
      let r := l.foldl (fun (x : State × List (Nat × List (Nat × Word)) × List (Nat × Nat)) p =>
        match x.1.answerCall p.2 s.curCtx s.curTenant ((c.fibre p.1).pair f.b.toNat) (f.mbit 0) with
        | none => (x.1, x.2.1, x.2.2 ++ [p])
        | some (t, w, res) => (t.acquires.updBlock t.cur.blk (·.setScr (at_ p.1) res), x.2.1 ++ [(p.1, [(f.d.toNat, w)])], x.2.2)) (s, [], [])
      let q (i : Nat) : Nat := ((r.2.2.find? (·.1 == i)).map (·.2)).getD 0
      .next (r.1.partLong f (maskOf 32 (r.2.2.map (·.1))) r.2.1 fun i => .svcq (q i))

end Sys2Proof.Machine
end

