-- ==== Sys2Proof/WellFormed.lean ====
section
/-! DEFINITION. Well-formed instructions: those whose word passes check 2 of R83. An event has no word and is not well formed. -/

namespace Sys2Proof

/-- The fields of a Zuzer instruction's word; an event has none and gives the zero fields. -/
def fieldsOf : Instr → Fields
  | .iadd f => f
  | .isub f => f
  | .iaddc f => f
  | .ineg f => f
  | .iabs f => f
  | .imin f => f
  | .imax f => f
  | .imul f => f
  | .imulh f => f
  | .imad f => f
  | .imadw f => f
  | .idiv f => f
  | .irem f => f
  | .and f => f
  | .or f => f
  | .xor f => f
  | .andn f => f
  | .tern f => f
  | .shl f => f
  | .shr f => f
  | .sha f => f
  | .fsh f => f
  | .bfx f => f
  | .bfi f => f
  | .popc f => f
  | .clz f => f
  | .ctz f => f
  | .brev f => f
  | .permb f => f
  | .bmsk f => f
  | .icmp f => f
  | .fcmp f => f
  | .pset f => f
  | .plop f => f
  | .pmov f => f
  | .ptest f => f
  | .lxch f => f
  | .ballot f => f
  | .vote f => f
  | .matchLanes f => f
  | .lred f => f
  | .lscan f => f
  | .strandm f => f
  | .mov f => f
  | .movi f => f
  | .sel f => f
  | .get f => f
  | .setmode f => f
  | .getmode f => f
  | .clk f => f
  | .fadd f => f
  | .fsub f => f
  | .fmul f => f
  | .ffma f => f
  | .fmin f => f
  | .fmax f => f
  | .fdiv f => f
  | .fsqrt f => f
  | .frcp f => f
  | .frsq f => f
  | .fscale f => f
  | .frnd f => f
  | .fclass f => f
  | .hadd2 f => f
  | .hmul2 f => f
  | .hfma2 f => f
  | .hmnx2 f => f
  | .dot4 f => f
  | .idot4 f => f
  | .fexp2 f => f
  | .flog2 f => f
  | .fsin f => f
  | .fcos f => f
  | .ftanh f => f
  | .cvtff f => f
  | .cvtfi f => f
  | .cvtif f => f
  | .cvtii f => f
  | .pack f => f
  | .unpack f => f
  | .mxq f => f
  | .mxdq f => f
  | .bra f => f
  | .brb f => f
  | .brx f => f
  | .call f => f
  | .ret f => f
  | .loop f => f
  | .nop f => f
  | .spawn f => f
  | .fend f => f
  | .converge f => f
  | .yield f => f
  | .prio f => f
  | .ld f => f
  | .st f => f
  | .ldq f => f
  | .stq f => f
  | .pref f => f
  | .refmk f => f
  | .refadd f => f
  | .hqry f => f
  | .lds f => f
  | .sts f => f
  | .stash f => f
  | .unstash f => f
  | .flushs f => f
  | .atom f => f
  | .acas f => f
  | .acas2 f => f
  | .afadd f => f
  | .atoms f => f
  | .acass f => f
  | .rowopen f => f
  | .rowrel f => f
  | .rowld f => f
  | .rowst f => f
  | .rowq f => f
  | .fence f => f
  | .bar f => f
  | .rbar f => f
  | .arrive f => f
  | .bwait f => f
  | .barstat f => f
  | .monarm f => f
  | .monwait f => f
  | .semwait f => f
  | .sempost f => f
  | .wqpush f => f
  | .wqpop f => f
  | .wqnote f => f
  | .tryOpen f => f
  | .commit f => f
  | .abort f => f
  | .tstat f => f
  | .tchk f => f
  | .acp f => f
  | .tcp f => f
  | .put f => f
  | .gather f => f
  | .pfx f => f
  | .wbx f => f
  | .waitc f => f
  | .cntr f => f
  | .tenq f => f
  | .tdep f => f
  | .svc f => f
  | .svcq f => f
  | .mma f => f
  | .mmac f => f
  | .mmas f => f
  | .rqt f => f
  | .accz f => f
  | .accld f => f
  | .accst f => f
  | .accrow f => f
  | .accscl f => f
  | .accexp f => f
  | .skbuild f => f
  | .skscore f => f
  | .sksel f => f
  | .skmap f => f
  | .coll f => f
  | .collq f => f
  | .collx f => f
  | .trap f => f
  | .tret f => f
  | .rqread f => f
  | .rqdrop f => f
  | .dbg f => f
  | .prof f => f
  | .sysrd f => f
  | _ => {}

/-- The entry lists the FORM, and every field holds what the entry allows (R83 check 2). -/
def WellFormed (i : Instr) : Bool :=
  match Encoding.row i with
  | some r => Encoding.rowOk (fieldsOf i) r
  | none => false

end Sys2Proof
end

