-- ==== Sys2Proof/Decode.lean ====
section
/-! DEFINITION. The decoder: total on every 96-bit word, rejecting by name (R79 to R93); after it the encoder, and the reading
of the opcode table's word numbers. -/

namespace Sys2Proof

/-- Why a word is no instruction: the trap it raises (R83 checks 1 and 2). -/
inductive DecodeRefusal where
  | illegalOpcode
  | illegalEncoding
  deriving DecidableEq, Repr

namespace Word

/-- OP, bits [95:86] (R79). -/
def op (w : IWord) : Nat := (w.extractLsb' 86 10).toNat
/-- FORM as a number, bits [78:76]. -/
def formCode (w : IWord) : Nat := (w.extractLsb' 76 3).toNat
/-- FORM of R85, for the codes it lists. -/
def form (w : IWord) : Form :=
  match w.extractLsb' 76 2 with
  | 0#2 => .rr
  | 1#2 => .ri
  | 2#2 => .rri
  | 3#2 => .pair
/-- GE, GN and GB, bits [85:79] (R84). -/
def guard (w : IWord) : Option Guard :=
  if w.getLsbD 85 then some { neg := w.getLsbD 84, bit := w.extractLsb' 79 5 } else none
/-- The fields of a word (R79). -/
def fields (w : IWord) : Fields :=
  { guard := guard w, form := form w, d := w.extractLsb' 68 8, a := w.extractLsb' 60 8, b := w.extractLsb' 52 8,
    x := w.extractLsb' 20 32, look := w.extractLsb' 16 4, ra := w.getLsbD 15, rb := w.getLsbD 14, yld := w.getLsbD 13,
    md := w.extractLsb' 0 12 }
/-- What check 2 asks of the bits that `Fields` does not hold: FORM below 100, bit [12] clear, and GN and GB zero when GE = 0. -/
def plainOk (w : IWord) : Bool :=
  formCode w < 4 && !w.getLsbD 12 && (w.getLsbD 85 || w.extractLsb' 79 6 == 0)

end Word

/-- The instruction of an OP of the opcode map (R93). -/
def instrOfOp (op : Nat) (f : Fields) : Option Instr :=
  match op with
  | 0x000 => some (.iadd f)
  | 0x001 => some (.isub f)
  | 0x002 => some (.iaddc f)
  | 0x003 => some (.ineg f)
  | 0x004 => some (.iabs f)
  | 0x005 => some (.imin f)
  | 0x006 => some (.imax f)
  | 0x007 => some (.imul f)
  | 0x008 => some (.imulh f)
  | 0x009 => some (.imad f)
  | 0x00A => some (.imadw f)
  | 0x00B => some (.idiv f)
  | 0x00C => some (.irem f)
  | 0x020 => some (.and f)
  | 0x021 => some (.or f)
  | 0x022 => some (.xor f)
  | 0x023 => some (.andn f)
  | 0x024 => some (.tern f)
  | 0x025 => some (.shl f)
  | 0x026 => some (.shr f)
  | 0x027 => some (.sha f)
  | 0x028 => some (.fsh f)
  | 0x040 => some (.bfx f)
  | 0x041 => some (.bfi f)
  | 0x042 => some (.popc f)
  | 0x043 => some (.clz f)
  | 0x044 => some (.ctz f)
  | 0x045 => some (.brev f)
  | 0x046 => some (.permb f)
  | 0x047 => some (.bmsk f)
  | 0x060 => some (.icmp f)
  | 0x061 => some (.fcmp f)
  | 0x062 => some (.pset f)
  | 0x063 => some (.plop f)
  | 0x064 => some (.pmov f)
  | 0x065 => some (.ptest f)
  | 0x080 => some (.lxch f)
  | 0x081 => some (.ballot f)
  | 0x082 => some (.vote f)
  | 0x083 => some (.matchLanes f)
  | 0x084 => some (.lred f)
  | 0x085 => some (.lscan f)
  | 0x086 => some (.strandm f)
  | 0x0A0 => some (.mov f)
  | 0x0A1 => some (.movi f)
  | 0x0A2 => some (.sel f)
  | 0x0A3 => some (.get f)
  | 0x0A4 => some (.setmode f)
  | 0x0A5 => some (.getmode f)
  | 0x0A6 => some (.clk f)
  | 0x0C0 => some (.fadd f)
  | 0x0C1 => some (.fsub f)
  | 0x0C2 => some (.fmul f)
  | 0x0C3 => some (.ffma f)
  | 0x0C4 => some (.fmin f)
  | 0x0C5 => some (.fmax f)
  | 0x0C6 => some (.fdiv f)
  | 0x0C7 => some (.fsqrt f)
  | 0x0C8 => some (.frcp f)
  | 0x0C9 => some (.frsq f)
  | 0x0CA => some (.fscale f)
  | 0x0CB => some (.frnd f)
  | 0x0CC => some (.fclass f)
  | 0x0E0 => some (.hadd2 f)
  | 0x0E1 => some (.hmul2 f)
  | 0x0E2 => some (.hfma2 f)
  | 0x0E3 => some (.hmnx2 f)
  | 0x0E4 => some (.dot4 f)
  | 0x0E5 => some (.idot4 f)
  | 0x100 => some (.fexp2 f)
  | 0x101 => some (.flog2 f)
  | 0x102 => some (.fsin f)
  | 0x103 => some (.fcos f)
  | 0x104 => some (.ftanh f)
  | 0x120 => some (.cvtff f)
  | 0x121 => some (.cvtfi f)
  | 0x122 => some (.cvtif f)
  | 0x123 => some (.cvtii f)
  | 0x124 => some (.pack f)
  | 0x125 => some (.unpack f)
  | 0x126 => some (.mxq f)
  | 0x127 => some (.mxdq f)
  | 0x140 => some (.bra f)
  | 0x141 => some (.brb f)
  | 0x142 => some (.brx f)
  | 0x143 => some (.call f)
  | 0x144 => some (.ret f)
  | 0x145 => some (.loop f)
  | 0x146 => some (.nop f)
  | 0x160 => some (.spawn f)
  | 0x161 => some (.fend f)
  | 0x162 => some (.converge f)
  | 0x163 => some (.yield f)
  | 0x164 => some (.prio f)
  | 0x180 => some (.ld f)
  | 0x181 => some (.st f)
  | 0x182 => some (.ldq f)
  | 0x183 => some (.stq f)
  | 0x184 => some (.pref f)
  | 0x185 => some (.refmk f)
  | 0x186 => some (.refadd f)
  | 0x187 => some (.hqry f)
  | 0x1A0 => some (.lds f)
  | 0x1A1 => some (.sts f)
  | 0x1A2 => some (.stash f)
  | 0x1A3 => some (.unstash f)
  | 0x1A4 => some (.flushs f)
  | 0x1C0 => some (.atom f)
  | 0x1C1 => some (.acas f)
  | 0x1C2 => some (.acas2 f)
  | 0x1C3 => some (.afadd f)
  | 0x1C4 => some (.atoms f)
  | 0x1C5 => some (.acass f)
  | 0x1E0 => some (.rowopen f)
  | 0x1E1 => some (.rowrel f)
  | 0x1E2 => some (.rowld f)
  | 0x1E3 => some (.rowst f)
  | 0x1E4 => some (.rowq f)
  | 0x200 => some (.fence f)
  | 0x201 => some (.bar f)
  | 0x202 => some (.rbar f)
  | 0x203 => some (.arrive f)
  | 0x204 => some (.bwait f)
  | 0x205 => some (.barstat f)
  | 0x220 => some (.monarm f)
  | 0x221 => some (.monwait f)
  | 0x222 => some (.semwait f)
  | 0x223 => some (.sempost f)
  | 0x224 => some (.wqpush f)
  | 0x225 => some (.wqpop f)
  | 0x226 => some (.wqnote f)
  | 0x240 => some (.tryOpen f)
  | 0x241 => some (.commit f)
  | 0x242 => some (.abort f)
  | 0x243 => some (.tstat f)
  | 0x244 => some (.tchk f)
  | 0x260 => some (.acp f)
  | 0x261 => some (.tcp f)
  | 0x262 => some (.put f)
  | 0x263 => some (.gather f)
  | 0x264 => some (.pfx f)
  | 0x265 => some (.wbx f)
  | 0x266 => some (.waitc f)
  | 0x267 => some (.cntr f)
  | 0x280 => some (.tenq f)
  | 0x281 => some (.tdep f)
  | 0x282 => some (.svc f)
  | 0x283 => some (.svcq f)
  | 0x2A0 => some (.mma f)
  | 0x2A1 => some (.mmac f)
  | 0x2A2 => some (.mmas f)
  | 0x2A3 => some (.rqt f)
  | 0x2C0 => some (.accz f)
  | 0x2C1 => some (.accld f)
  | 0x2C2 => some (.accst f)
  | 0x2C3 => some (.accrow f)
  | 0x2C4 => some (.accscl f)
  | 0x2C5 => some (.accexp f)
  | 0x2E0 => some (.skbuild f)
  | 0x2E1 => some (.skscore f)
  | 0x2E2 => some (.sksel f)
  | 0x2E3 => some (.skmap f)
  | 0x300 => some (.coll f)
  | 0x301 => some (.collq f)
  | 0x302 => some (.collx f)
  | 0x320 => some (.trap f)
  | 0x321 => some (.tret f)
  | 0x322 => some (.rqread f)
  | 0x323 => some (.rqdrop f)
  | 0x324 => some (.dbg f)
  | 0x325 => some (.prof f)
  | 0x326 => some (.sysrd f)
  | _ => none

/-- Decode one word: checks 1 and 2 of R83, in that order. Check 3 needs the crew's window and is made at issue. -/
def decode (w : IWord) : Except DecodeRefusal Instr :=
  match instrOfOp (Word.op w) (Word.fields w) with
  | none => .error .illegalOpcode
  | some i => if Word.plainOk w && WellFormed i then .ok i else .error .illegalEncoding

/-! ### The encoder -/

/-- OP of a Zuzer instruction (R93); none for an event. -/
def opOf : Instr → Option Nat
  | .iadd _ => some 0x000
  | .isub _ => some 0x001
  | .iaddc _ => some 0x002
  | .ineg _ => some 0x003
  | .iabs _ => some 0x004
  | .imin _ => some 0x005
  | .imax _ => some 0x006
  | .imul _ => some 0x007
  | .imulh _ => some 0x008
  | .imad _ => some 0x009
  | .imadw _ => some 0x00A
  | .idiv _ => some 0x00B
  | .irem _ => some 0x00C
  | .and _ => some 0x020
  | .or _ => some 0x021
  | .xor _ => some 0x022
  | .andn _ => some 0x023
  | .tern _ => some 0x024
  | .shl _ => some 0x025
  | .shr _ => some 0x026
  | .sha _ => some 0x027
  | .fsh _ => some 0x028
  | .bfx _ => some 0x040
  | .bfi _ => some 0x041
  | .popc _ => some 0x042
  | .clz _ => some 0x043
  | .ctz _ => some 0x044
  | .brev _ => some 0x045
  | .permb _ => some 0x046
  | .bmsk _ => some 0x047
  | .icmp _ => some 0x060
  | .fcmp _ => some 0x061
  | .pset _ => some 0x062
  | .plop _ => some 0x063
  | .pmov _ => some 0x064
  | .ptest _ => some 0x065
  | .lxch _ => some 0x080
  | .ballot _ => some 0x081
  | .vote _ => some 0x082
  | .matchLanes _ => some 0x083
  | .lred _ => some 0x084
  | .lscan _ => some 0x085
  | .strandm _ => some 0x086
  | .mov _ => some 0x0A0
  | .movi _ => some 0x0A1
  | .sel _ => some 0x0A2
  | .get _ => some 0x0A3
  | .setmode _ => some 0x0A4
  | .getmode _ => some 0x0A5
  | .clk _ => some 0x0A6
  | .fadd _ => some 0x0C0
  | .fsub _ => some 0x0C1
  | .fmul _ => some 0x0C2
  | .ffma _ => some 0x0C3
  | .fmin _ => some 0x0C4
  | .fmax _ => some 0x0C5
  | .fdiv _ => some 0x0C6
  | .fsqrt _ => some 0x0C7
  | .frcp _ => some 0x0C8
  | .frsq _ => some 0x0C9
  | .fscale _ => some 0x0CA
  | .frnd _ => some 0x0CB
  | .fclass _ => some 0x0CC
  | .hadd2 _ => some 0x0E0
  | .hmul2 _ => some 0x0E1
  | .hfma2 _ => some 0x0E2
  | .hmnx2 _ => some 0x0E3
  | .dot4 _ => some 0x0E4
  | .idot4 _ => some 0x0E5
  | .fexp2 _ => some 0x100
  | .flog2 _ => some 0x101
  | .fsin _ => some 0x102
  | .fcos _ => some 0x103
  | .ftanh _ => some 0x104
  | .cvtff _ => some 0x120
  | .cvtfi _ => some 0x121
  | .cvtif _ => some 0x122
  | .cvtii _ => some 0x123
  | .pack _ => some 0x124
  | .unpack _ => some 0x125
  | .mxq _ => some 0x126
  | .mxdq _ => some 0x127
  | .bra _ => some 0x140
  | .brb _ => some 0x141
  | .brx _ => some 0x142
  | .call _ => some 0x143
  | .ret _ => some 0x144
  | .loop _ => some 0x145
  | .nop _ => some 0x146
  | .spawn _ => some 0x160
  | .fend _ => some 0x161
  | .converge _ => some 0x162
  | .yield _ => some 0x163
  | .prio _ => some 0x164
  | .ld _ => some 0x180
  | .st _ => some 0x181
  | .ldq _ => some 0x182
  | .stq _ => some 0x183
  | .pref _ => some 0x184
  | .refmk _ => some 0x185
  | .refadd _ => some 0x186
  | .hqry _ => some 0x187
  | .lds _ => some 0x1A0
  | .sts _ => some 0x1A1
  | .stash _ => some 0x1A2
  | .unstash _ => some 0x1A3
  | .flushs _ => some 0x1A4
  | .atom _ => some 0x1C0
  | .acas _ => some 0x1C1
  | .acas2 _ => some 0x1C2
  | .afadd _ => some 0x1C3
  | .atoms _ => some 0x1C4
  | .acass _ => some 0x1C5
  | .rowopen _ => some 0x1E0
  | .rowrel _ => some 0x1E1
  | .rowld _ => some 0x1E2
  | .rowst _ => some 0x1E3
  | .rowq _ => some 0x1E4
  | .fence _ => some 0x200
  | .bar _ => some 0x201
  | .rbar _ => some 0x202
  | .arrive _ => some 0x203
  | .bwait _ => some 0x204
  | .barstat _ => some 0x205
  | .monarm _ => some 0x220
  | .monwait _ => some 0x221
  | .semwait _ => some 0x222
  | .sempost _ => some 0x223
  | .wqpush _ => some 0x224
  | .wqpop _ => some 0x225
  | .wqnote _ => some 0x226
  | .tryOpen _ => some 0x240
  | .commit _ => some 0x241
  | .abort _ => some 0x242
  | .tstat _ => some 0x243
  | .tchk _ => some 0x244
  | .acp _ => some 0x260
  | .tcp _ => some 0x261
  | .put _ => some 0x262
  | .gather _ => some 0x263
  | .pfx _ => some 0x264
  | .wbx _ => some 0x265
  | .waitc _ => some 0x266
  | .cntr _ => some 0x267
  | .tenq _ => some 0x280
  | .tdep _ => some 0x281
  | .svc _ => some 0x282
  | .svcq _ => some 0x283
  | .mma _ => some 0x2A0
  | .mmac _ => some 0x2A1
  | .mmas _ => some 0x2A2
  | .rqt _ => some 0x2A3
  | .accz _ => some 0x2C0
  | .accld _ => some 0x2C1
  | .accst _ => some 0x2C2
  | .accrow _ => some 0x2C3
  | .accscl _ => some 0x2C4
  | .accexp _ => some 0x2C5
  | .skbuild _ => some 0x2E0
  | .skscore _ => some 0x2E1
  | .sksel _ => some 0x2E2
  | .skmap _ => some 0x2E3
  | .coll _ => some 0x300
  | .collq _ => some 0x301
  | .collx _ => some 0x302
  | .trap _ => some 0x320
  | .tret _ => some 0x321
  | .rqread _ => some 0x322
  | .rqdrop _ => some 0x323
  | .dbg _ => some 0x324
  | .prof _ => some 0x325
  | .sysrd _ => some 0x326
  | _ => none

/-- FORM's code (R85). -/
def Form.code : Form → BitVec 3
  | .rr => 0
  | .ri => 1
  | .rri => 2
  | .pair => 3

/-- GE, GN and GB as the seven bits [85:79]. -/
def guardBits : Option Guard → BitVec 7
  | none => 0
  | some g => 1#1 ++ BitVec.ofBool g.neg ++ g.bit

/-- The word of an OP and its fields (R79). -/
def assemble (op : Nat) (f : Fields) : IWord :=
  BitVec.ofNat 10 op ++ guardBits f.guard ++ f.form.code ++ f.d ++ f.a ++ f.b ++ f.x ++ f.look ++
    BitVec.ofBool f.ra ++ BitVec.ofBool f.rb ++ BitVec.ofBool f.yld ++ 0#1 ++ f.md

/-- The word of an instruction; an event has none and gives 0. -/
def encode (i : Instr) : IWord :=
  match opOf i with
  | some op => assemble op (fieldsOf i)
  | none => 0

/-! ### The opcode table's numbering -/

/-- The bytes of a word as they are stored: little-endian, byte 0 first (R80). -/
def wordBytes (w : IWord) : List Byte := (List.range 12).map fun k => w.extractLsb' (8 * k) 8

/-- The word stored in 12 bytes (R80). -/
def wordOfBytes (l : List Byte) : IWord := l.foldr (fun b w => (w <<< 8) ||| b.setWidth 96) 0

/-- The instruction the decoder reads from an instruction whose bits are `w`, the bits above `nbits` being zero. -/
def decodeTableWord (nbits w : Nat) : Option Instr :=
  match decode (wordOfBytes (wordBytes (BitVec.ofNat 96 (w % 2 ^ nbits)))) with
  | .ok i => some i
  | .error _ => none

end Sys2Proof
end

