-- ==== Sys2Proof/Machine/TrapDebug.lean ====
section
/-! DEFINITION. Group 0x19: traps and debug stops by instruction, the return from handler mode, the replay queue, profile marks and
the trap frame (R418 to R426, R448 to R450). -/

namespace Sys2Proof.Machine
open Bits

/-- TRAP: raises BKPT for the strand, precisely; the code stands in ARG0 (R404, R418). -/
def execTrap (f : Fields) (s : State) : Result :=
  if s.actMask f == 0 then .next s.goOn
  else s.raise f none { cause := causeBkpt, arg0 := BitVec.ofNat 64 (f.xv % 256) }
/-- DBG: raises DEBUG_STOP, or is a NOP while DBGEN = 0 (R418). -/
def execDbg (f : Fields) (s : State) : Result :=
  if s.actMask f == 0 || !(s.ctx s.curCtx).dbgen then .next s.goOn
  else s.raise f none { cause := causeDebugStop, arg0 := BitVec.ofNat 64 (f.xv % 256) }

/-- TRET: the return from handler mode (R420). -/
def execTret (f : Fields) (s : State) : Result := s.noTry f 0x19 fun s =>
  match s.curCrew.frame with
  | none => s.raise f none { cause := causeIllegalOpcode }
  | some fr =>
    if s.cur.mask != fr.set then s.raise f none { cause := causeIllegalConvergence }
    else
      let r : Return := match f.mb 0 2 with | 0 => .retry | 1 => .skip | _ => .to f.a.toNat
      .next (s.updCur fun c => c.leaveHandler r)

/-- The replay entries that a handler sees (R398, log 6). -/
def Crew.entries (c : Crew) : List Replay := c.replay.filter (!·.handler)
/-- The form of an entry reads a B register or pair (R421). -/
def Replay.hasB (r : Replay) : Bool :=
  match decode r.word with
  | .ok (.idiv f) | .ok (.irem f) | .ok (.fdiv f) => f.form != .ri
  | _ => false
/-- An item of a replay entry, read by a slot (R421). -/
def Replay.item (r : Replay) (which slot : Nat) (hi : Bool) : Word :=
  let opd (l : List (Nat × DWord)) : Word :=
    let v := (Sparse.find? l slot).getD 0
    if !r.mask.getLsbD slot then 0 else if hi then hiWord v else loWord v
  if r.dropped then 0
  else match which with
    | 0 => r.word.extractLsb' 0 32
    | 1 => r.word.extractLsb' 32 32
    | 2 => r.word.extractLsb' 64 32
    | 3 => r.pc
    | 4 => r.mask
    | 5 => opd r.srcA
    | _ => if r.hasB then opd r.srcB else 0
/-- RQREAD (R421). -/
def execRqread (f : Fields) (s : State) : Result := s.noTry f 0x19 fun s =>
  let c := s.curCrew
  match c.frame with
  | none => s.raise f none { cause := causeIllegalOpcode }
  | some _ => .next (s.longForm f [f.d.toNat] fun i fb =>
      [(f.d.toNat, match c.entries[(fb.reg f.a.toNat).toNat]? with
        | some r => if 16 ≤ (fb.reg f.a.toNat).toNat then 0 else r.item (f.mb 0 3) i (f.mbit 3)
        | none => 0)])
/-- RQDROP: dropped entries keep their numbers (R422). -/
def execRqdrop (f : Fields) (s : State) : Result := s.noTry f 0x19 fun s =>
  let c := s.curCrew
  match c.frame with
  | none => s.raise f none { cause := causeIllegalOpcode }
  | some _ => match s.acting f with
    | [] => .next s.goOn
    | l :: _ =>
      let k := ((c.fibre l).reg f.a.toNat).toNat
      let all := f.mbit 0
      let rest := c.replay.filter (·.handler)
      let drop (x : Replay × Nat) : Replay := if all || x.2 == k then { x.1 with dropped := true } else x.1
      .next (s.goOn.updCur fun c => { c with replay := c.entries.zipIdx.map drop ++ rest })

/-- A profile record but for what its kind adds (R450). -/
def profRecord (kind item crew bx byy : Nat) (tid tag : Word) (time : DWord) (pc : Word) (body : Nat) : BitVec 512 :=
  seal64 (at_ 512 0 8 1 ||| at_ 512 8 8 kind ||| at_ 512 32 8 item ||| at_ 512 40 8 crew ||| at_ 512 48 8 bx ||| at_ 512 56 8 byy |||
    at_ 512 64 32 tid.toNat ||| at_ 512 96 32 tag.toNat ||| at_ 512 128 64 time.toNat ||| at_ 512 192 32 pc.toNat ||| at_ 512 224 256 body)
/-- PROF: one mark, which never waits and is allowed in a try (R423). -/
def execProf (f : Fields) (s : State) : Result :=
  match s.acting f with
  | [] => .next s.goOn
  | l :: _ =>
    let b := s.curBlock
    let t := s.curTask
    .next (s.profileRecord t.ctx (profRecord 3 0 s.cur.crew b.bx b.byy t.tid t.rec_.tag s.devTime s.cur.pc
      ((s.curCrew.fibre l).reg f.a.toNat).toNat)).goOn

/-- The items of R425 as slot i reads them; frame items read 0 outside handler mode (R424). -/
def Crew.sysItem (c : Crew) (x i : Nat) : Word :=
  if 0x10 ≤ x then BitVec.ofNat 32 ((c.stalls[x - 0x10]?).getD 0)
  else match c.frame with
    | none => 0
    | some fr => match x with
      | 0 => at_ 32 0 8 fr.cause.toNat ||| at_ 32 8 4 fr.src.toNat ||| at_ 32 12 1 (if fr.nested then 1 else 0)
      | 1 => if fr.set.getLsbD i then (c.fibre i).framePc else 0
      | 2 => fr.slot.setWidth 32
      | 3 => loWord fr.ref
      | 4 => hiWord fr.ref
      | 5 => loWord fr.arg0
      | 6 => hiWord fr.arg0
      | 7 => fr.set
      | 8 => BitVec.ofNat 32 c.entries.length
      | _ => match fr.faulting with | some k => BitVec.ofNat 32 k | none => 0xFFFFFFFF
/-- SYSRD (R424, R425). -/
def execSysrd (f : Fields) (s : State) : Result :=
  let c := s.curCrew
  .next (s.longForm f [f.d.toNat] fun i _ => [(f.d.toNat, c.sysItem f.xv i)])

end Sys2Proof.Machine
end

