-- ==== Sys2Proof/Machine/Retire.lean ====
section
/-! DEFINITION. Retirement of crews, blocks and tasks, the hub's own accesses, and the release of successors (R22, R444 to R447, R477). -/

namespace Sys2Proof.Machine
open Bits

/-! ### Crews and blocks (R444, R445) -/

/-- A crew with no live fibre, no outstanding operation and no pending write (R444). -/
def State.crewDone (s : State) (blk crew : Nat) : Bool :=
  let b := s.block blk
  let c := s.crew blk crew
  s.resident_ blk && crew < b.crews.length && c.live && (c.filled || b.terminated) && !c.moving && !b.stopped && c.liveMask == 0 && c.pend.isEmpty &&
  c.fatals.isEmpty && c.pendTraps.isEmpty && (c.frame.isSome || c.replay.isEmpty) && s.ops.all fun o => !(o.blk == blk && o.crew == crew)
/-- A record of R450 for a block. -/
def State.blockProf (s : State) (blk kind item crew : Nat) (pc : Word) (body : Nat) : State :=
  let b := s.block blk
  let t := s.task b.task
  s.profileRecord t.ctx (profRecord kind item crew b.bx b.byy t.tid t.rec_.tag s.devTime pc body)
/-- The retirement of a crew lets barrier phases complete (R342, R344). -/
def State.recountBars (s : State) (blk : Nat) : State :=
  let s := (List.range 16).foldl (fun s i => s.completeBar blk i) s
  let t := (s.block blk).task
  (s.task t).rbars.foldl (fun s r => s.completeRect t r.b r.sx r.sy) s
/-- CREW_RETIRE (R444). It never waits on the profile buffer (R449). -/
def execCrewRetire (blk crew : Nat) (s : State) : Result :=
  if !s.crewDone blk crew then .next s
  else
    let c := s.crew blk crew
    let body := (c.stalls.zipIdx).foldl (fun v x => v + x.1 * 2 ^ (32 * x.2)) 0
    .next (((s.blockProf blk 1 0 crew c.lastFend body).updCrew blk crew fun c =>
      { c with live := false, units := 0, shadowBase := none, replay := [], frame := none }).recountBars blk)

/-- The wait records of a block with their ITEM numbers (R345, R450). -/
def Block.waitRecs (b : Block) : List (Nat × WaitRec) :=
  ((b.barRecs.zipIdx).map fun x => (x.2, x.1)) ++ ((b.rbarRecs.zipIdx).map fun x => (16 + x.2, x.1)) ++
    ((b.semRecs.zipIdx).map fun x => (32 + x.2, x.1)) ++ [(48, b.fenceRec)]
/-- A wait record has something to report (R445). -/
def WaitRec.told (w : WaitRec) : Bool := !(w.lastCrew == 0xFF && w.longCrew == 0xFF)
/-- Steps 2 to 5 of R445. A promotion that the block asked for is late from now on (R267). -/
def State.retireBlock (s : State) (blk : Nat) : State :=
  let s := s.dropHolds blk
  let one (s : State) (x : Nat × WaitRec) : State :=
    if !x.2.told then s
    else
      let rec_ := (x.2.word 0).toNat + (x.2.word 1).toNat * 2 ^ 32 + (x.2.word 2).toNat * 2 ^ 64 + (x.2.word 3).toNat * 2 ^ 96
      s.blockProf blk 2 x.1 0xFF 0 (rec_ + (if 32 ≤ x.1 && x.1 < 40 then x.2.ia else 0) * 2 ^ 128)
  let s := (s.block blk).waitRecs.foldl one s
  let s : State := { s with promotions := s.promotions.map fun p => if p.blk == some blk then { p with late := true } else p }
  s.updBlock blk fun b => { b with
    retired := true, scratch := [], scratchPoison := [], acc := [], accPoison := [], windows := List.replicate 8 none }
/-- BLOCK_RETIRE: window write-backs first; a retry-class fault is waited out, and a fatal one is a fault of the block whose remaining
dirty bytes are discarded (R203, R445). -/
def execBlockRetire (blk : Nat) (s : State) : Result :=
  let b := s.block blk
  let t := s.task b.task
  if !s.resident_ blk || b.retired || b.crews.any (·.live) then .next s
  else match s.writeBacks .other blk (List.range 8) with
    | .ok s => .next (s.retireBlock blk)
    | .error (.wait _ s) => .next s
    | .error (.fault _ ev) =>
      if ev.cause.toNat < 0x10 then .next (s.setGoing ev)
      else match s.recordWait t.ctx with
      | some t => .next t
      | none =>
        let s := s.blockRecord blk 0xFF ev 2
        let s := if t.rec_.fpol == 0 then s.terminateTask t.uid 2 else s.updTask t.uid fun t => { t with status := max t.status 4 }
        .next (s.retireBlock blk)

/-! ### The hub's accesses (R477) -/

/-- The hub reads the handle table itself: a core number that no core has. -/
def hubCore : Nat := 192
/-- A reference checked for the dispatch hub against a context. -/
def State.hubCheck (s : State) (ctx : Nat) (tenant : BitVec 16) (ref : DWord) (o : Int) (n : Nat) (q : Req) (acc : Access) : Except Event Acc :=
  s.check hubCore ctx tenant ref o n q acc
/-- The record of a hub access fault: REF the reference, ARG1 the IA (R404). -/
def hubFault (ev : Event) (ref : DWord) : Event := { cause := ev.cause, src := 2, ref := ref, arg1 := ev.arg1 }
/-- The side effects of a hub access, on its object and on the handle table. -/
def State.hubNote (s : State) (ctx : Nat) (ref : DWord) (a : Acc) (n : Nat) (store : Bool) : State :=
  (s.keepEntry hubCore ctx ref).noteAll a n store
/-- The side effects of the hub's read of a range of an object, line by line. -/
def State.hubNoteRange (s : State) (ctx : Nat) (ref : DWord) (o n : Nat) : State :=
  (linesOf o n).foldl (fun s l => match s.hubCheck ctx (s.ctx ctx).tenant ref (max o (64 * l) : Nat) 1 { r := true } .load with
    | .ok a => s.note a false false
    | .error _ => s) (s.keepEntry hubCore ctx ref)
/-- What a fault does to a hub access: it is made again a little later, it holds the access's work until an event of R405, or it is fatal. -/
inductive HubStop where
  | wait | hold | fatal
def Event.hubStop (ev : Event) : HubStop := if ev.cause == causeWait then .wait else if ev.cause.toNat < 0x10 then .hold else .fatal
/-- TID of a record about a node that has no task yet (log 43). -/
def noTid : Word := 0xFFFFFFFF
/-- A retry-class fault holds hub work at its access, with a record (R477). -/
def State.holdWork (s : State) (ctx : Nat) (tid tag : Word) (ev : Event) (ref : DWord) (work : Held) : State :=
  let s := (s.setGoing ev).hubRecord ctx (hubFault ev ref) tid tag 1
  { s with held := s.held ++ [work] }

/-! ### Tile operands (R19) -/

/-- Rows of a declaration: offset and length in bytes. -/
def declRows (d : BitVec 128) : List (Nat × Nat) :=
  let len := 32 * (field d 80 16 + 1)
  (List.range (field d 64 16 + 1)).map fun r => (refOff (d.extractLsb' 0 64) + r * (32 * field d 96 24), len)
/-- The declared region as an operand, when its entry can be read. -/
def State.declared (s : State) (ctx : Nat) (d : BitVec 128) : Option MemOperand :=
  let ref : DWord := d.extractLsb' 0 64
  match s.entry hubCore ctx ref 0 with
  | .ok e => if Ent.invalid e then none else some { ref := ref, ent := e }
  | .error _ => none
/-- Carry out a tier action over a declared region; each is a hint that changes no value (R19, R228). -/
def State.tierAction (s : State) (ctx : Nat) (task : Option Nat) (d : BitVec 128) : State :=
  match s.declared ctx d with
  | none => s
  | some m => (declRows d).foldl (fun s r => match field d 122 3 with
    | 1 => (s.regionPages hubCore ctx m r.1 r.2).foldl (fun s p => s.promotePage p task none) s
    | 2 => (s.regionLines hubCore ctx m r.1 r.2).foldl (fun s ln => s.prefetchLine m.ent ln) s
    | 3 => (s.regionPages hubCore ctx m r.1 r.2).foldl (fun s p => s.demotePage p) s
    | _ => s) s

/-! ### Tasks (R446, R447) -/

/-- The status a task's stamp gets (R446). -/
def Task.final (t : Task) : Nat := if t.killed then 3 else t.status
/-- The status of a submission's reference is known (R45, R47). -/
def State.refDone (s : State) (sub : Option (Nat × Nat)) (status : Nat) : State :=
  match sub with
  | none => s
  | some (id, j) => { s with subs := s.subs.map fun x => if x.id == id then { x with rs := x.rs.set j (some status) } else x }
/-- Update a completion stamp as the hub: SEQ rises by 1 and STATUS becomes the greater (R254, R446). A matrix lock on its line makes the
update wait (R291). -/
def State.hubStamp (s : State) (ctx : Nat) (tenant : BitVec 16) (ref : DWord) (status : Nat) : Except Event State :=
  match s.hubCheck ctx tenant ref (refOff ref) 8 { w := true, align := 8 } .load with
  | .error ev => .error ev
  | .ok a =>
    if s.lineLocked a.ia 8 then .error (memFault causeWait ref (refOff ref) a.ia)
    else
      let old : DWord := ofBytes 64 (s.bytes a.place.phys 8)
      let new : DWord := at_ 64 56 8 (max (field old 56 8) status) ||| at_ 64 0 56 (field old 0 56 + 1)
      .ok ((s.keepEntry hubCore ctx ref).store .other 0 none a false (toBytes 8 new))
/-- One entry of a successor list: the decrement, made at the record's home (R22). -/
inductive Release where
  /-- The entry is dealt with. -/
  | done (s : State)
  /-- The decrement waits: the pool is full (R59), or its line cannot be reached or written yet. -/
  | wait (s : State)
  /-- A retry-class fault holds the release here (R477). -/
  | held (ev : Event) (ref : DWord)
  /-- A fatal fault skips the entry. -/
  | skip (ev : Event) (ref : DWord)
def State.releaseOne (s : State) (t : Task) (i : Nat) : Release :=
  let tenant := (s.ctx t.ctx).tenant
  let stop (ev : Event) (ref : DWord) : Release := match ev.hubStop with
    | .wait => .wait (s.setGoing ev)
    | .hold => .held ev ref
    | .fatal => .skip ev ref
  match s.hubCheck t.ctx tenant t.rec_.succref (refOff t.rec_.succref + 8 * i : Nat) 8 { r := true } .load with
  | .error ev => stop ev t.rec_.succref
  | .ok a =>
    let ref : DWord := ofBytes 64 (s.bytes a.place.phys 8)
    match s.checkHandle hubCore t.ctx tenant ref (refOff ref) 256 { r := true, w := true, align := 256 } with
    | .error ev => stop ev ref
    | .ok _ => match s.hubCheck t.ctx tenant ref (refOff ref + 0xF0 : Nat) 2 { r := true, w := true } .load with
      | .error ev => stop ev ref
      | .ok p =>
        let n : BitVec 16 := ofBytes 16 (s.bytes p.place.phys 2)
        let read : State := (s.hubNote t.ctx t.rec_.succref a 8 false).keepEntry hubCore t.ctx ref
        if n == 0 then .done (read.note p false false)
        else if s.lineLocked p.ia 2 || (n == 1 && s.poolFull) then .wait s
        else
          let s := read.store .other t.uid none p false (toBytes 2 (n - 1))
          .done (if n == 1 then s.makeEligible t.ctx ref else s)
/-- The task is over: its reference's status is known and its identifier is free (R446 steps 5 and 6). -/
def State.endTask (s : State) (t : Task) : State :=
  { s.refDone t.sub t.final with tasks := s.tasks.filter (·.uid != t.uid), codeOld := s.codeOld.filter (·.1 != t.uid) }
/-- Release one more successor. -/
def State.releaseStep (s : State) (t : Task) (i : Nat) : State :=
  if t.rec_.succn ≤ i then s.endTask t
  else
    let on (s : State) : State := s.updTask t.uid fun t => { t with phase := .releasing (i + 1) }
    match s.releaseOne t i with
    | .done s => on s
    | .wait s => s
    | .held ev ref => s.holdWork t.ctx t.tid t.rec_.tag ev ref (.retire t.uid)
    | .skip ev ref => on (s.hubRecord t.ctx (hubFault ev ref) t.tid t.rec_.tag)
/-- Step 1 of a task's retirement, on cores or killed while saved: the tier actions after it, and what it still owes is late; its blocks'
names go (R19, R228, R446). -/
def State.endBlocks (s : State) (t : Task) : State :=
  let s := (t.rec_.tiles.take t.rec_.ntile).foldl (fun s d => if field d 122 3 == 3 then s.tierAction t.ctx none d else s) s
  let mine (p : Promotion) : Bool := p.task == some t.uid || p.blk.any fun b => (s.blockOrSaved b).task == t.uid
  { s with
    blocks := s.blocks.filter (·.task != t.uid)
    promotions := s.promotions.map fun p => if mine p then { p with late := true } else p
    tasks := s.tasks.map fun x => if x.uid == t.uid then { x with phase := .waitPeer, saves := [] } else x }
/-- One step of a task's retirement, from its phase. -/
def State.retireTask (s : State) (t : Task) : State :=
  let into (s : State) (p : TaskPhase) : State := s.updTask t.uid fun t => { t with phase := p }
  match t.phase with
  | .placed =>
    let mine := s.blocks.filter (·.task == t.uid)
    if t.rec_.service || mine.isEmpty || !mine.all (·.retired) then s
    else s.endBlocks t
  | .saved => s
  | .retiring => into s .waitPeer
  | .waitPeer =>
    if s.ops.any (·.task == t.uid) || s.peerStores.any fun p => p.task == t.uid && p.lease != 0 then s else into s .stamping
  | .stamping =>
    match s.hubStamp t.ctx (s.ctx t.ctx).tenant t.rec_.stampref t.final with
    | .ok s => if t.final == 0 || t.final == 4 then into s (.releasing 0) else into s .done
    | .error ev => match ev.hubStop with
      | .wait => s.setGoing ev
      | .hold => s.holdWork t.ctx t.tid t.rec_.tag ev t.rec_.stampref (.retire t.uid)
      | .fatal =>
        -- the stamp stays unwritten and the status is taken to be FAULT
        (s.hubRecord t.ctx (hubFault ev t.rec_.stampref) t.tid t.rec_.tag).updTask t.uid fun t =>
          { t with phase := .done, status := 2, killed := false }
  | .releasing i => s.releaseStep t i
  | .done => s.endTask t
/-- TASK_RETIRE: the next step of a task's retirement, unless a fault holds it (R446, R477). -/
def execTaskRetire (task : Nat) (s : State) : Result :=
  match s.tasks.find? (·.uid == task) with
  | none => .next s
  | some t => if s.held.contains (.retire task) then .next s else .next (s.retireTask t)
/-- POOL_STALL_RESUME: with room in the pool, a successor decrement that the hub holds goes on (R59). TENQ, TDEP and LAUNCH take up
their own places when they are next tried. -/
def execPoolStallResume (s : State) : Result :=
  let waits (t : Task) : Bool := match t.phase with | .releasing _ => !s.held.contains (.retire t.uid) | _ => false
  if s.poolFull then .next s
  else match s.tasks.find? waits with
    | some t => .next (s.retireTask t)
    | none => .next s

end Sys2Proof.Machine
end

