-- ==== Sys2Proof/Machine/Services.lean ====
section
/-! DEFINITION. Queue sets and the service port of the queue cores: POP to FAIL, restarts and exceptions (R48 to R57, R67). -/

namespace Sys2Proof.Machine
open Bits

/-- The queue core bound to a queue's set (R48). -/
def State.coreOfQueue (s : State) (q : Nat) : Nat := (s.qsb[q / 64]?).getD 64
/-- STAT values of R51. A POP sets RECOVER, and every later command clears it again (DESIGN CHOICE, log 73). -/
def State.svcStat (s : State) (k v : Nat) (recover : Bool := false) : State := s.updQcore k fun c => { c with stat := v, recover := recover }
/-- The core's held request, while it is still in its queue. -/
def State.heldRequest (s : State) (k : Nat) : Option Request :=
  (s.qcore k).held.bind fun id => s.requests.find? (·.id == id)
def State.updRequest (s : State) (id : Nat) (g : Request → Request) : State :=
  { s with requests := s.requests.map fun r => if r.id == id then g r else r }
/-- The journal entry of a request's call is CLAIMED (R52, R53). -/
def State.claimed (s : State) (r : Request) : Bool :=
  match s.journalOf r.q (Rq.ctx r.bytes) (Rq.tenant r.bytes) (Rq.callid r.bytes) with
  | some i => field (s.journal r.q i) 8 2 == 1
  | none => false
/-- A held request goes back to its place, unpopped unless it is CLAIMED (R56). -/
def State.releaseHeld (s : State) (k : Nat) : State :=
  let s := match (s.qcore k).held with
    | some id => s.updRequest id fun r => { r with heldBy := none }
    | none => s
  s.updQcore k fun c => { c with held := none }

/-- POP: a claimed request that no core holds, with RECOVER; else the oldest unpopped one, unless a claimed one remains (R52, R56). -/
def State.svcPop (s : State) (k : Nat) : State :=
  let c := s.qcore k
  let q := c.qsel
  if s.coreOfQueue q != k then s.svcStat k 4
  else if c.held.isSome then s.svcStat k 5
  else
    let mine := s.requests.filter (·.q == q)
    let pick := match mine.find? fun r => s.claimed r && r.heldBy.isNone with
      | some r => some (r, true)
      | none => if mine.any s.claimed then none else (mine.find? fun (r : Request) => r.heldBy.isNone).map fun r => (r, false)
    match pick with
    | none => s.svcStat k 1
    | some (r, rec_) =>
      ((s.updRequest r.id fun r => { r with heldBy := some k }).updQcore k fun c =>
        { c with held := some r.id, heldQ := r.q, buf := r.bytes }).svcStat k 0 rec_
/-- A command must wait for the journal, or for the line of the reply that it would write (R291, R333); then the state with what that sets
going. POP reads the journal of a queue that holds a request. -/
def State.svcWait (s : State) (k v : Nat) : Option State :=
  match s.heldRequest k with
  | none =>
    let q := (s.qcore k).qsel
    if v == 1 && s.coreOfQueue q == k && s.requests.any (·.q == q) then s.journalWait q false else none
  | some r =>
    if s.coreOfQueue (s.qcore k).qsel != k || v < 2 || 4 < v then none
    else match s.journalWait r.q true with
      | some t => some t
      | none =>
        let ref := Rq.replyref r.bytes
        if v == 2 then none
        else match s.hubCheck (Rq.ctx r.bytes) (Rq.tenant r.bytes) ref (refOff ref) 64 { w := true, align := 64 } .write with
          | .error ev => if ev.cause == causeWait then some (s.setGoing ev) else none
          | .ok a => if s.lineLocked a.ia 64 then some s else none
/-- CLAIM (R52). R52 names no STAT for a call whose entry exists already, as that of a request presented with RECOVER does: the claim answers OK and
leaves the entry as it is (DESIGN CHOICE, log 82). -/
def State.svcClaim (s : State) (k : Nat) : State :=
  let c := s.qcore k
  if s.coreOfQueue c.qsel != k || c.held.isNone then s.svcStat k 4
  else match s.heldRequest k with
    | none => (s.updQcore k fun c => { c with held := none }).svcStat k 3
    | some r =>
      let v := r.bytes
      match s.journalOf r.q (Rq.ctx v) (Rq.tenant v) (Rq.callid v) with
      | some _ => s.svcStat k 0
      | none => match s.journalFree r.q with
        | none => s.svcStat k 2
        | some i => (s.setJournal r.q i (journalEntry 1 (Rq.ctx v) (Rq.tenant v) (Rq.callid v) 0 0)).svcStat k 0
/-- The reply line (R50). -/
def replyLine (outcome : Nat) (callid : DWord) (rstat : Nat) (result : BitVec 320) : BitVec 512 :=
  seal64 (at_ 512 0 8 1 ||| at_ 512 8 8 outcome ||| at_ 512 64 64 callid.toNat ||| at_ 512 128 8 rstat ||| at_ 512 160 320 result.toNat)
/-- Write a reply through REPLYREF; one that faults is discarded with a record (R57). -/
def State.sendReply (s : State) (v : BitVec 512) (line : BitVec 512) : State :=
  let ref := Rq.replyref v
  match s.hubCheck (Rq.ctx v) (Rq.tenant v) ref (refOff ref) 64 { w := true, align := 64 } .write with
  | .ok a => (s.keepEntry hubCore (Rq.ctx v) ref).store .other 0 none a false (toBytes 64 line)
  | .error ev => s.hubRecord (Rq.ctx v) { cause := ev.cause, src := 3, ref := Rq.callid v, arg0 := ref } 0 0
/-- DONE and NOTTAKEN: the entry, created if absent, the removal and the reply (R52). A cancelled call is only released (R55). -/
def State.svcEnd (s : State) (k : Nat) (done : Bool) : State :=
  let c := s.qcore k
  if s.coreOfQueue c.qsel != k || c.held.isNone then s.svcStat k 4
  else match s.heldRequest k with
    | none => (s.updQcore k fun c => { c with held := none }).svcStat k 3
    | some r =>
      let v := r.bytes
      let slot := match s.journalOf r.q (Rq.ctx v) (Rq.tenant v) (Rq.callid v) with
        | some i => some i
        | none => s.journalFree r.q
      match slot with
      | none => s.svcStat k 2
      | some i =>
        let rstat := if done then field c.buf 128 8 else 0
        let result : BitVec 320 := if done then c.buf.extractLsb' 160 320 else 0
        let s := s.setJournal r.q i (journalEntry (if done then 2 else 3) (Rq.ctx v) (Rq.tenant v) (Rq.callid v) rstat result)
        let s := (s.dropRequest r.q r.id).updQcore k fun c => { c with held := none }
        (s.sendReply v (replyLine (if done then 1 else 2) (Rq.callid v) rstat result)).svcStat k 0
/-- A SERVICE node ends: its request is released, range register 0 is cleared, and it retires from step 2 of R446 (R67). -/
def State.endNode (s : State) (k status : Nat) : State :=
  match (s.qcore k).node with
  | none => s
  | some uid =>
    ((s.releaseHeld k).updQcore k fun c => { c with node := none, ranges := c.ranges.set 0 0 }).updTask uid fun t =>
      { t with phase := .waitPeer, status := max t.status status }
/-- A store to CMD (R51). -/
def State.svcCommand (s : State) (k : Nat) (v : Nat) : State :=
  match v with
  | 1 => s.svcPop k
  | 2 => s.svcClaim k
  | 3 => s.svcEnd k true
  | 4 => s.svcEnd k false
  | 5 => s.endNode k 0
  | 6 => s.endNode k 2
  | _ => s.svcStat k 4

/-- A command, once it need not wait. -/
def State.svcGo (s : State) (k v : Nat) : Result := .next ((s.svcWait k v).getD (s.svcCommand k v))
/-- SVC_POP (R52). -/
def execSvcPop (qcore : Nat) (s : State) : Result := s.svcGo qcore 1
/-- SVC_CLAIM (R52). -/
def execSvcClaim (qcore : Nat) (s : State) : Result := s.svcGo qcore 2
/-- SVC_DONE (R52). -/
def execSvcDone (qcore : Nat) (s : State) : Result := s.svcGo qcore 3
/-- SVC_NOTTAKEN (R52). -/
def execSvcNottaken (qcore : Nat) (s : State) : Result := s.svcGo qcore 4
/-- SVC_EXIT (R67). -/
def execSvcExit (qcore : Nat) (s : State) : Result := s.svcGo qcore 5
/-- SVC_FAIL (R67). -/
def execSvcFail (qcore : Nat) (s : State) : Result := s.svcGo qcore 6
/-- SVC_BAD_COMMAND: a value R51 does not list. -/
def execSvcBadCommand (qcore : Nat) (value : Word) (s : State) : Result :=
  if 1 ≤ value.toNat && value.toNat ≤ 6 then .next s else .next (s.svcCommand qcore value.toNat)
/-- A push of a request by a queue core, stamped with the context of its node (R50). What it does else is as SVC does: a request that SVC would
not take, a queue that is not a service queue or takes no push, and a call that has a journal entry leave nothing behind; a full queue, and a
journal or a slot that cannot be reached, make it wait (DESIGN CHOICE, log 77). -/
def State.nodePush (s : State) (k q : Nat) (v : BitVec 512) : State :=
  match (s.qcore k).node with
  | none => s
  | some uid =>
    let c := (s.task uid).ctx
    let d := s.queue q
    if !(s.service q).serv || !d.en || d.closed || !Rq.sealed v || !Rq.ok v then s
    else match s.journalWait q false with
      | some t => t
      | none => match s.journalOf q c (s.ctx c).tenant (Rq.callid v) with
        | some i => s.noteJournal q i
        | none => if d.full then s else (s.ownWait (d.slot d.tail) 64 true).getD (s.pushRequest q (Rq.stamped v c (s.ctx c).tenant))
/-- Where a SERVICE node starts: byte ENTRY of its code object, with the default mtvec (R66). The registers x1 to x31, mepc, mcause, mtval,
mscratch, MIE and MPIE are zero then (DESIGN CHOICE, log 74). -/
def QueueCore.start (c : QueueCore) (entry : Word) : QueueCore :=
  { c with pc := entry, x := List.replicate 32 0, mtvec := 0xFFFF0000, mepc := 0, mcause := 0, mtval := 0, mscratch := 0, mie := false, mpie := false }
/-- SERVICE_RESTART: the held request is released and the core starts over (R56): at its node's ENTRY, as it first started. Its range registers,
BUF and a reservation of LR.W stay (DESIGN CHOICE, log 74). -/
def execServiceRestart (qcore : Nat) (s : State) : Result :=
  let entry := match (s.qcore qcore).node with | some uid => (s.task uid).rec_.entry | none => 0
  .next ((s.releaseHeld qcore).updQcore qcore fun c => { c.start entry with qsel := 0, stat := 0, recover := false })
/-- A RISC-V exception of a queue core: with the default mtvec it ends the core's node FAULT with a record; a node's own handler is
entered as the RISC-V privileged specification says (R67). -/
def State.nodeException (s : State) (k : Nat) (mcause mtval : Word) : State :=
  let c := s.qcore k
  match c.node, c.mtvec == 0xFFFF0000 with
  | some uid, true =>
    let t := s.task uid
    let cause := match mcause.toNat with
      | 1 => causeRights | 5 => causeRights | 7 => causeRights
      | 0 => causeAlign | 4 => causeAlign | 6 => causeAlign
      | _ => causeIllegalOpcode
    (s.hubRecord t.ctx { cause := cause, src := 3, arg0 := mcause.setWidth 64, arg1 := mtval.setWidth 64 } t.tid t.rec_.tag 2).endNode k 2
  | _, _ => s.updQcore k fun c => { c with
      mepc := c.pc, mcause := mcause, mtval := mtval, pc := c.mtvec &&& ~~~3#32, mpie := c.mie, mie := false }
/-- SERVICE_NODE_EXCEPTION (R67). -/
def execServiceNodeException (qcore : Nat) (mcause mtval : Word) (s : State) : Result := .next (s.nodeException qcore mcause mtval)

/-- A core holds a popped request of a set; a cancelled one is held until it is released (R52). -/
def State.setBusy (s : State) (set_ : Nat) : Bool := s.qcores.any fun c => c.held.isSome && c.heldQ / 64 == set_
/-- A write to QSB that names another set's core exchanges the two bindings; it is ignored while a popped request of either set is held (R48). -/
def State.writeQsb (s : State) (set_ : Nat) (value : DWord) : State :=
  let k := field value 0 6
  match s.qsb.findIdx? (· == k), s.qsb[set_]? with
  | some t, some old => if s.setBusy set_ || s.setBusy t then s else { s with qsb := (s.qsb.set t old).set set_ k }
  | _, _ => s
/-- QSB_WRITE. -/
def execQsbWrite (set_ : Nat) (value : DWord) (s : State) : Result := .next (s.writeQsb set_ value)

end Sys2Proof.Machine
end

