-- ==== Sys2Proof/Machine/Tiers.lean ====
section
/-! DEFINITION. The tiers below L2: swaps, translation commands and their ring, expansion, aging, the victim cache, the bounds on held
rows, and line errors (R225 to R239, R242, R244, R472). With them, when parked work is owed a retry (R405). -/

namespace Sys2Proof.Machine
open Bits

/-! ### Work owed a retry (R405, R477) -/

/-- Owe a retry to every parked strand and parked operation that a test picks, and to all work the hub holds. -/
def State.owe (s : State) (strand : Block → Fibre → Bool) (op : EngineOp → Bool) : State :=
  let strands := s.blocks.flatMap fun b => (b.crews.zipIdx).flatMap fun c =>
    (c.1.fibres.filter fun fb => fb.st == .parked && strand b fb).map fun fb => Parked.strand b.bid c.2 fb.pc.toNat
  let ops := (s.ops.filter fun o => o.phase == .parked && op o).map fun o => Parked.op o.id
  { s with retry := (s.retry ++ strands ++ ops).eraseDups, heldDue := s.held }
/-- A translation of a page has changed, or its expansion is complete. -/
def State.owePage (s : State) (page : Nat) : State := s.owe (fun _ fb => fb.parkPage == page) fun o => o.parkPage == page
/-- An event that concerns every page. -/
def State.oweAll (s : State) : State := s.owe (fun _ _ => true) fun _ => true
/-- A SET has changed a page: its own parked work, and the work that LEASE_LOST parked (R405, R438). -/
def State.oweSet (s : State) (page : Nat) : State :=
  s.owe (fun _ fb => fb.parkPage == page || fb.parkLost) fun o => o.parkPage == page || o.parkLost
/-- A RESUME names a task. -/
def State.oweTask (s : State) (uid : Nat) : State := s.owe (fun b _ => b.task == uid) fun o => o.task == uid

/-! ### Swaps (R226 to R228) -/

/-- Congruence groups of each stack (R11, R225). -/
def State.groups (s : State) : Nat := Config.groupsOf s.pers.poolgr
/-- Promotions that are over leave the list: each counts in PROMOTIONS, or only in LATE_PROMOTIONS when it was dropped; a late one
counts in both (R228, R236). -/
def State.endPromotions (s : State) (stack : Nat) (which : Promotion → Bool) (dropped : Bool) : State :=
  (s.promotions.filter which).foldl (fun s p =>
    let s := if dropped then s else s.updMtu stack (·.bump 1)
    if dropped || p.late then s.updMtu stack (·.bump 2) else s) { s with promotions := s.promotions.filter fun p => !which p }
/-- GROUP_SWAP: another member comes to the fast slot, when R227 allows it; a promotion that it forbids is dropped. -/
def execGroupSwap (stack group member : Nat) (s : State) : Result :=
  let g := stack * 2 ^ 20 + group
  let dfn := 4 * g + member
  let mine (p : Promotion) : Bool := p.page.isNone && p.dfn == dfn
  if 8 ≤ stack || s.groups ≤ group || 4 ≤ member then .next s
  else if s.residentOf g == member then .next (s.endPromotions stack mine false)
  else if !s.maySwap g then .next (s.endPromotions stack mine true)
  else .next (({ s with resident := Sparse.put (fun _ => 0) s.resident g member }.updMtu stack (·.bump 0)).endPromotions stack mine false)

/-! ### Translation (R229 to R234) -/

/-- A ring is in use: LOG is 4 to 16 (R229). -/
def RingRegs.on (r : RingRegs) : Bool := 4 ≤ r.log && r.log ≤ 16
def RingRegs.pending (r : RingRegs) : Bool := r.on && r.prod != r.cons
def RingRegs.roomy (r : RingRegs) : Bool := r.on && (r.prod - r.cons).toNat < 2 ^ r.log
/-- The address of the entry that a count names, with entries of `n` bytes. -/
def RingRegs.entry (r : RingRegs) (count : DWord) (n : Nat) : Nat := r.base + n * (count.toNat % 2 ^ r.log)

/-- Copy bytes and poison between physical ranges of whole lines. -/
def State.copyFrame (s : State) (src dst n : Nat) : State :=
  let moved := (s.poison.filter fun l => src / 64 ≤ l && l < (src + n) / 64).map fun l => l - src / 64 + dst / 64
  { s.setBytes dst (s.bytes src n) with
    poison := (s.poison.filter fun l => !(dst / 64 ≤ l && l < (dst + n) / 64)) ++ moved }
/-- Where a compressed page's bytes lie. -/
def zonePhys (stack entry : Nat) : Nat := zoneBase + (stack * 2 ^ 24 + entry) * 65536
/-- Drop every held row of a page (R233). -/
def State.dropPageRows (s : State) (page : Nat) : State :=
  (s.rowSlots.filter fun x => x.2.row / 64 == page).foldl (fun s x => s.dropHold x.2.blk x.2.h) s
/-- Tries whose members read a line that a test picks abort with CONFLICT (R364). -/
def State.conflict (s : State) (hit : ReadLine → Bool) : State :=
  s.mapCrews fun _ _ c => match c.tr with
    | none => c
    | some t => c.abortTry (t.reads.foldl (fun m r => if hit r then m ||| r.members else m) 0) (abortWord 1 0)
/-- No cache below the cores keeps a line of a page; dirty ones go to their tier. -/
def State.dropPageLines (s : State) (page : Nat) : State :=
  let here (l : List (Nat × CacheLine)) : List (Nat × CacheLine) := l.filter fun x => x.1 / 1024 == page
  { (here s.l2 ++ here s.mvc).foldl (fun s x => s.toTier x.1 x.2) s with
    l2 := s.l2.filter fun x => x.1 / 1024 != page
    mvc := s.mvc.filter fun x => x.1 / 1024 != page }
/-- Change a translation: held rows and tries first, and the lines cached under the old one; then the entry; work parked on the page is owed a
retry (R233, R364, R405). -/
def State.changePte (s : State) (page : Nat) (e : DWord) : State :=
  ((((s.dropPageRows page).conflict fun r => r.line / 1024 == page).dropPageLines page).setPte (page * 65536) e).owePage page
/-- The page lies within its table. -/
def State.inTable (s : State) (page : Nat) : Bool := page % 2 ^ 33 < (s.mtu (page / 2 ^ 33)).mptlen

/-- Put a page into the zone (R232): STATUS and RESULT. Bits of the new entry that no rule gives are free. -/
def State.compressPage (s : State) (page : Nat) : Nat × DWord × State :=
  let stack := page / 2 ^ 33
  let e := s.pte (page * 65536)
  let src := field e 0 25 * 65536
  let used := (s.zone.filter fun z => z / 2 ^ 24 == stack).map (· % 2 ^ 24)
  -- bytes of a stack's share of the zone: (496 - F) GiB over eight stacks, with F = (8,192 - POOLGR) / 12 (R11)
  let room := (496 * 12 - (8192 - s.pers.poolgr)) * 2 ^ 30 / 96
  let lacks := 2 ^ 24 ≤ used.length || room == 0 || (room < (used.length + 1) * 61440 && Config.zoneFull used.length)
  if field e 61 3 != 1 || bit e 57 then (2, 0, s)
  else if !Config.compressible (s.bytes src 65536) then (3, 0, s)
  else if lacks then (4, 0, s)
  else
    let pick := Config.zoneEntry used
    let z := if pick < 2 ^ 24 && !used.contains pick then pick else ((List.range (used.length + 1)).find? fun i => !used.contains i).getD 0
    let r := s.freeWord
    let s := r.2.copyFrame src (zonePhys stack z) 65536
    let s : State := { s with zone := (stack * 2 ^ 24 + z) :: s.zone }
    (1, BitVec.ofNat 64 (field e 0 25), s.changePte page (at_ 64 61 3 2 ||| at_ 64 58 3 (field r.1 0 3) ||| at_ 64 0 24 z))
/-- Expand a page into the next DFN of its stack's FREE ring (R234); none while the ring is empty. -/
def State.expandPage (s : State) (page : Nat) : Option State :=
  let stack := page / 2 ^ 33
  let m := s.mtu stack
  if !m.free.pending then none
  else
    let e := s.pte (page * 65536)
    let dfn := field (ofBytes 64 (s.iaBytes (m.free.entry m.free.cons 8) 8) : DWord) 0 25
    let z := field e 0 24
    let known := s.zone.contains (stack * 2 ^ 24 + z)
    let r := s.freeWord
    let s := if known then r.2.copyFrame (zonePhys stack z) (dfn * 65536) 65536
      else let f := r.2.freeBytes 65536; f.2.setBytes (dfn * 65536) f.1
    let s : State := { s with zone := s.zone.filter (· != stack * 2 ^ 24 + z) }
    let s := (s.noteOwn (m.free.entry m.free.cons 8) 8 false).changePte page (at_ 64 61 3 1 ||| at_ 64 60 1 1 ||| at_ 64 58 1 (field r.1 0 1) ||| at_ 64 0 25 dfn)
    let s := s.updMtu stack fun m =>
      { m.bump 3 with
        free := { m.free with cons := m.free.cons + 1 }
        expanding := m.expanding.filter (·.1 != page) }
    some (s.endPromotions stack (fun p => p.page == some page) false)
/-- The next entry of the FREE ring cannot be read now (R333). -/
def State.freeWait (s : State) (stack : Nat) : Option State :=
  let m := s.mtu stack
  if m.free.pending then s.ownWait (m.free.entry m.free.cons 8) 8 false else none
/-- An expansion waits for a DFN: it is counted once (R234). -/
def State.waitExpansion (s : State) (page : Nat) : State :=
  s.updMtu (page / 2 ^ 33) fun m =>
    if m.expanding.any fun x => x.1 == page && x.2 then m
    else { m.bump 4 with expanding := (m.expanding.filter (·.1 != page)) ++ [(page, true)] }

/-! ### The command ring (R232) -/

/-- The page a command names. -/
def mstPage (c : BitVec 256) : Nat := field c 64 36
/-- The command at the head of a unit's ring; from step 4 of a quiesce on none starts, and an EXPAND that is in progress completes (R453). -/
def State.mstHead (s : State) (stack : Nat) : Option (BitVec 256) :=
  let m := s.mtu stack
  let c : BitVec 256 := ofBytes 256 (s.iaBytes (m.cmd.entry m.cmd.cons 32) 32)
  let begun := field c 0 8 == 3 && m.expanding.any (·.1 == mstPage c)
  if m.cmd.pending && (!s.stilled || begun) then some c else none
/-- RESULT, then STATUS, then CONS. -/
def State.endMst (s : State) (stack status : Nat) (result : DWord) : State :=
  let r := (s.mtu stack).cmd
  let a := r.entry r.cons 32
  (((s.noteOwn a 32 false).iaWrite (a + 24) (toBytes 8 result)).iaWrite (a + 1) [BitVec.ofNat 8 status]).updMtu stack fun m =>
    { m with cmd := { m.cmd with cons := m.cmd.cons + 1 } }
/-- The head command's record cannot be read and answered now (R291, R333). -/
def State.mstWait (s : State) (stack : Nat) : Option State :=
  let r := (s.mtu stack).cmd
  if (s.mstHead stack).isSome then s.ownWait (r.entry r.cons 32) 32 true else none
/-- Carry out the head command when its OPC is the given one and its page is this unit's. -/
def State.mstCommand (s : State) (stack opc : Nat) (act : Nat → BitVec 256 → State) : Result :=
  match s.mstWait stack, s.mstHead stack with
  | some t, _ => .next t
  | none, none => .next s
  | none, some c =>
    if field c 0 8 != opc then .next s
    else if mstPage c / 2 ^ 33 != stack then .next (s.endMst stack 5 0)
    else .next (act (mstPage c) c)
/-- An entry that SET may write (R230, R232). -/
def State.pteLegal (s : State) (e : DWord) : Bool :=
  isZero e 56 1 && (match field e 61 3 with
    | 0 => true
    | 1 => isZero e 25 31 && decide (field e 2 20 < s.groups)
    | 2 => isZero e 24 32
    | 3 => true
    | _ => false)
/-- MST_SET. A page beyond the table has no entry to replace. -/
def execMstSet (stack : Nat) (s : State) : Result := s.mstCommand stack 1 fun page c =>
  let e : DWord := c.extractLsb' 128 64
  if !s.inTable page || !s.pteLegal e then s.endMst stack 2 0
  else ((s.changePte page e).oweSet page).endMst stack 1 (s.pte (page * 65536))
/-- MST_COMPRESS. -/
def execMstCompress (stack : Nat) (s : State) : Result := s.mstCommand stack 2 fun page _ =>
  if !s.inTable page then s.endMst stack 2 0
  else
    let r := s.compressPage page
    r.2.2.endMst stack r.1 r.2.1
/-- MST_EXPAND: started at once; the command ends when the entry is LOCAL. -/
def execMstExpand (stack : Nat) (s : State) : Result := s.mstCommand stack 3 fun page _ =>
  if !s.inTable page || field (s.pte (page * 65536)) 61 3 != 2 then s.endMst stack 2 0
  else match s.freeWait stack, s.expandPage page with
    | some t, _ => t
    | none, some s => s.endMst stack 1 0
    | none, none => s.waitExpansion page
/-- MST_PROMOTE. -/
def execMstPromote (stack : Nat) (s : State) : Result := s.mstCommand stack 4 fun page _ => (s.promotePage page none none).endMst stack 1 0
/-- MST_QUERY: RESULT[57] of a LOCAL entry says that its group may not be swapped now. -/
def execMstQuery (stack : Nat) (s : State) : Result := s.mstCommand stack 5 fun page _ =>
  let e := if s.inTable page then s.pte (page * 65536) else 0
  let e := if field e 61 3 == 1 then (e &&& ~~~(1#64 <<< 57)) ||| at_ 64 57 1 (!s.maySwap (field e 0 25 / 4)).toNat else e
  s.endMst stack 1 e
/-- MST_BAD_COMMAND. -/
def execMstBadCommand (stack : Nat) (s : State) : Result :=
  match s.mstWait stack, s.mstHead stack with
  | some t, _ => .next t
  | none, none => .next s
  | none, some c => if 1 ≤ field c 0 8 && field c 0 8 ≤ 5 then .next s else .next (s.endMst stack 2 0)
/-- EXPANSION of a page that a fault, EXPAND or PROMOTE has asked for; an EXPAND command that waits for it ends (R234). -/
def execExpansion (stack page : Nat) (s : State) : Result :=
  let p := stack * 2 ^ 33 + page
  if !(s.mtu stack).expanding.any (·.1 == p) then .next s
  else if !s.inTable p || field (s.pte (p * 65536)) 61 3 != 2 then
    .next (s.updMtu stack fun m => { m with expanding := m.expanding.filter (·.1 != p) })
  else match s.freeWait stack, s.mstWait stack with
    | some t, _ => .next t
    | none, some t => .next t
    | none, none => match s.expandPage p with
      | none => .next (s.waitExpansion p)
      | some t => match s.mstHead stack with
        | some c => if field c 0 8 == 3 && mstPage c == p then .next (t.endMst stack 1 0) else .next t
        | none => .next t

/-! ### Aging (R235) -/

/-- Append a page number to the ACTIVE or INACTIVE ring, or drop it. -/
def State.ringPage (s : State) (stack page : Nat) (active : Bool) : State :=
  let m := s.mtu stack
  let r := if active then m.active else m.inactive
  if !r.roomy then s.updMtu stack (·.bump 5)
  else (s.iaWrite (r.entry r.prod 8) (toBytes 8 (BitVec.ofNat 64 page))).updMtu stack fun m =>
    if active then { m with active := { m.active with prod := m.active.prod + 1 } }
    else { m with inactive := { m.inactive with prod := m.inactive.prod + 1 } }
/-- Visit one entry. -/
def State.agePage (s : State) (stack p : Nat) : State :=
  let page := stack * 2 ^ 33 + p
  let e := s.pte (page * 65536)
  if field e 61 3 != 1 then s
  else match bit e 60, bit e 58 with
    | true, false => (s.setPageBits (page * 65536) (2 * field e 59 1 + 1)).ringPage stack page true
    | true, true => s.setPageBits (page * 65536) (2 * field e 59 1 + 1)
    | false, true => (s.setPageBits (page * 65536) (2 * field e 59 1)).ringPage stack page false
    | false, false => s
/-- The entries of an aging ring that a tick may write cannot be written now (R291, R333). -/
def State.agingWait (s : State) (stack : Nat) : Option State :=
  let m := s.mtu stack
  let busy (r : RingRegs) : Option State := if r.roomy then s.ownWait r.base (8 * 2 ^ r.log) true else none
  (busy m.active) <|> (busy m.inactive)
/-- AGING_TICK. -/
def execAgingTick (stack : Nat) (s : State) : Result :=
  let m := s.mtu stack
  if m.ageper == 0 || s.devTime.toNat < m.lastTick + 1000 * m.ageper then .next s
  else match s.agingWait stack with
  | some t => .next t
  | none => .next ((m.pages.foldl (fun s p => s.agePage stack p) s).updMtu stack fun m => { m with lastTick := s.devTime.toNat })

/-! ### The victim cache and its filters (R237 to R239) -/

/-- L2_EVICTION: a line leaves its slice; one marked for first eviction leaves it before any other (R195, R237). -/
def execL2Eviction (line : Nat) (s : State) : Result :=
  .next (if (s.victims (sliceOf (64 * line))).contains line then s.evictLine line else s)
/-- BLOOM_ROTATE. -/
def execBloomRotate (slice : Nat) (s : State) : Result := .next { s with blooms := s.blooms.modify slice Bloom.turn }

/-! ### Held rows in time (R242, R244) -/

/-- Close a held row; its hold and its token stay. -/
def State.shutRow (s : State) (slot : Nat) (r : RowSlot) : State :=
  { s.pressRow r with rowSlots := Sparse.insert slot { r with opened := false } s.rowSlots }
/-- ROW_FORCED_CLOSE. -/
def execRowForcedClose (slot : Nat) (s : State) : Result :=
  match Sparse.find? s.rowSlots slot with
  | none => .next s
  | some r =>
    if s.openFor r < 2000 then .next s else .next ((s.shutRow slot r).updMtu (slot / 1024) fun m => { m with forced := m.forced + 1 })
/-- NEIGHBOUR_REFRESH. -/
def execNeighbourRefresh (slot : Nat) (s : State) : Result :=
  match Sparse.find? s.rowSlots slot with
  | none => .next s
  | some r =>
    if s.pressOf r < 64000 then .next s
    else .next ({ s.shutRow slot r with rowPress := Sparse.put (fun _ => 0) s.rowPress r.key 0 }.updMtu
      (slot / 1024) fun m => { m with refreshes := m.refreshes + 1 })
/-- Try to reopen a saved row as ROWOPEN would, swapping its member to the fast slot if need be; the epoch stays (R244). -/
def State.reopenRow (s : State) (blk h : Nat) : State :=
  let e := (s.block blk).hold h
  match s.place (e.row * 1024) with
  | .error _ => s
  | .ok p =>
    if zoneBase ≤ p.phys || s.blocks.any (fun x => x.holds.any fun y => y.held && y.row == e.row) then s
    else
      let dfn := p.phys / 65536
      if !s.inFast dfn && !s.maySwap (dfn / 4) then s
      else
        let s := if s.inFast dfn then s else
          { s with resident := Sparse.put (fun _ => 0) s.resident (dfn / 4) (dfn % 4) }.updMtu (dfn / 2 ^ 22) (·.bump 0)
        match s.freeSlot p.phys with
        | none => s
        | some k => s.holdRow blk h e.row k p.phys
/-- ROW_RESTORE_TIMEOUT: a row that is still to be reopened is tried again, and dropped once its 100 µs are over (R244). -/
def execRowRestoreTimeout (blk entry : Nat) (s : State) : Result :=
  let e := (s.block blk).hold entry
  match e.reopenBy with
  | none => .next s
  | some t =>
    -- before its crews are filled the block is not restored yet
    if t == 0 || (s.block blk).retired then .next s
    else
      let s := s.reopenRow blk entry
      if ((s.block blk).hold entry).held || s.devTime.toNat < t then .next s else .next (s.dropHold blk entry)

/-! ### Line errors (R472) -/

/-- Set the poison bit of the line at a physical address. -/
def State.poisonLine (s : State) (phys : Nat) : State :=
  if s.poison.contains (phys / 64) then s else { s with poison := phys / 64 :: s.poison }
/-- LINE_ERROR: a corrected one is counted; another sets the line's poison bit. A line that comes over a link is poisoned as the part receives it. -/
def execLineError (at_ : LineAt) (correctable : Bool) (s : State) : Result :=
  let add (l : List Nat) (x : Nat) : List Nat := if l.contains x then l else x :: l
  if correctable then .next { s with sec := { s.sec with corrected := s.sec.corrected + 1 } }
  else .next (match at_ with
    | .memory ia => match s.place ia with
      | .ok p => s.poisonLine p.phys
      | .error _ => s
    | .frame phys => if phys < remoteBase then s.poisonLine phys else s
    | .scratch blk addr => s.updBlock blk fun b => { b with scratchPoison := add b.scratchPoison (addr / 64) }
    | .acc blk addr => s.updBlock blk fun b => { b with accPoison := add b.accPoison (addr / 64) }
    | .link lease line => s.poisonLine (remoteBase + lease.toNat * 2 ^ 40 + 64 * line))

end Sys2Proof.Machine
end

