-- ==== Sys2Proof/Machine/Placement.lean ====
section
/-! DEFINITION. From an eligible record to a running block: the checks of R20, the ready pool with its aging and its reservation,
placement with buddy allocation and compaction, and the fill of registers (R20 to R25, R58 to R73, R244, R411). -/

namespace Sys2Proof.Machine
open Bits

/-! ### The node record and the image header (R16, R23) -/

/-- The fields of a task node record. -/
def NodeRec.ofBits (v : BitVec 2048) : NodeRec where
  service := bit v 8
  prio := field v 9 3
  wd := field v 12 3
  ht := field v 15 3
  crews := field v 18 5
  wcode := field v 24 3
  rowpolDrop := bit v 27
  tryBit := bit v 28
  persist := bit v 29
  fpol := field v 30 2
  scr := field v 32 10
  acc := field v 42 7
  rows := field v 49 4
  ntile := field v 53 4
  tag := v.extractLsb' 64 32
  succn := field v 112 16
  coderef := v.extractLsb' 128 64
  entry := v.extractLsb' 192 32
  hpc := v.extractLsb' 224 32
  imgref := v.extractLsb' 256 64
  succref := v.extractLsb' 320 64
  stampref := v.extractLsb' 384 64
  imglen := field v 448 24
  wqid := field v 480 12
  tiles := (List.range 8).map fun j => v.extractLsb' (512 + 128 * j) 128
/-- CHECK of a record. -/
def recSealed (v : BitVec 2048) : Bool := v.extractLsb' 1984 64 == crc64 (toBytes 240 v)
/-- Check 2 of R20, with R18 for SERVICE nodes. -/
def recLegal (v : BitVec 2048) : Bool :=
  let r := NodeRec.ofBits v
  let tileOk (d : BitVec 128) : Bool := isZero d 125 3 && decide (field d 122 3 ≤ 3) && decide (field d 120 2 ≤ 2)
  field v 0 8 == 1 && isZero v 23 1 && isZero v 57 7 && isZero v 96 16 && isZero v 472 8 && isZero v 492 20 && isZero v 1536 384 &&
  isZero v 1936 48 && decide (r.wd ≤ 4) && decide (r.ht ≤ 4) && decide (r.wcode ≤ 4) && decide (r.fpol ≤ 2) &&
  (r.tiles.take r.ntile).all tileOk && (r.persist || r.wqid == 0) &&
  (!r.service || (r.wd == 0 && r.ht == 0 && r.crews == 0 && r.wcode == 0 && r.scr == 0 && r.acc == 0 && r.rows == 0 && !r.tryBit &&
    r.ntile == 0 && r.imgref == 0 && r.imglen == 0 && r.hpc == 0 && decide (r.fpol ≤ 1) && !r.entry.getLsbD 0))
/-- Register units of one crew, and demands of a block (R64). -/
def NodeRec.units (r : NodeRec) : Nat := 2 ^ r.wcode
def NodeRec.regDemand (r : NodeRec) : Nat := (r.crews + 1) * r.units * (if r.tryBit then 2 else 1)
def NodeRec.scrDemand (r : NodeRec) : Nat := r.scr + (if r.tryBit then 4 * (r.crews + 1) else 0)
/-- Check 3 of R20. -/
def NodeRec.fits (r : NodeRec) : Bool :=
  r.ntile ≤ 8 && r.rows ≤ 8 && (r.service || (r.regDemand ≤ 256 && r.scrDemand ≤ 512 && r.acc ≤ 64))

/-- Read a range for the hub, byte by byte, each with the checks of R189. -/
def State.hubRead (s : State) (ctx : Nat) (tenant : BitVec 16) (ref : DWord) (o : Nat) : Nat → Except Event (List Byte)
  | 0 => .ok []
  | n + 1 => match s.hubCheck ctx tenant ref o 1 { r := true } .load with
    | .error ev => .error ev
    | .ok a => match s.hubRead ctx tenant ref (o + 1) n with
      | .error ev => .error ev
      | .ok r => .ok (s.byte a.place.phys :: r)
/-- The image header (R23). -/
def ImgHeader.ofBits (v : BitVec 128) : ImgHeader where
  live := v.extractLsb' 96 32
  initv0 := v.extractLsb' 64 32
  percrew := bit v 56
  fq := field v 48 8
  fp := field v 40 8
  uq := field v 24 8
  un := field v 0 16
def imgReserved (v : BitVec 128) : Bool := isZero v 57 7 && isZero v 32 8 && isZero v 16 8
/-- Check 6 of R20; a range of no register overlaps nothing. -/
def ImgHeader.fits (h : ImgHeader) (r : NodeRec) : Bool :=
  let w := 16 * r.units
  r.imglen == 16 + 4 * h.un + 128 * h.fp * (if h.percrew then r.crews + 1 else 1) && 1 ≤ h.uq && 1 ≤ h.fq && h.uq + h.un ≤ w &&
  h.fq + h.fp ≤ w && (h.un == 0 || h.fp == 0 || !overlap h.uq h.un h.fq h.fp)
/-- One tile declaration of check 4: its whole region, then its stride. -/
def State.tileCheck (s : State) (ctx : Nat) (tenant : BitVec 16) (d : BitVec 128) : Except Event Unit :=
  let ref : DWord := d.extractLsb' 0 64
  let len := 32 * (field d 80 16 + 1)
  let rows := field d 64 16
  let q : Req := { r := field d 120 2 != 1, w := field d 120 2 != 0, span := true }
  match s.checkHandle hubCore ctx tenant ref (refOff ref) (rows * 32 * field d 96 24 + len) q with
  | .error ev => .error ev
  | .ok _ => need (rows == 0 || decide (field d 80 16 + 1 ≤ field d 96 24)) { cause := causeBounds, ref := ref }
/-- Steps of check 4 of R20. -/
def NodeRec.refSteps (r : NodeRec) : Nat := 4 + r.ntile + (if r.service then 0 else 2)
/-- The declarations that check 4 looks at. -/
def NodeRec.decls (r : NodeRec) : List (BitVec 128) := r.tiles.take r.ntile
/-- The reference a step of check 4 reads the handle table for; 0 where it reads none. -/
def NodeRec.refAt (r : NodeRec) : Nat → DWord
  | 0 => r.coderef
  | 1 => 0
  | 2 => r.stampref
  | 3 => if r.succn == 0 then 0 else r.succref
  | k + 4 => match r.decls[k]? with
    | some d => d.extractLsb' 0 64
    | none => if k == r.ntile then 0 else r.imgref
/-- One step of check 4, in its order: the entry of CODEREF, as it was read or as `code` keeps it, or the fault. -/
def State.refStep (s : State) (ctx : Nat) (r : NodeRec) (code : BitVec 512) (k : Nat) : Except Event (BitVec 512) :=
  let tenant := (s.ctx ctx).tenant
  let chk (ref : DWord) (n : Nat) (q : Req) : Except Event (BitVec 512) := (s.checkHandle hubCore ctx tenant ref (refOff ref) n q).map fun _ => code
  let ask (b : Bool) (ref : DWord) : Except Event (BitVec 512) := (need b { cause := causeBounds, ref := ref }).map fun _ => code
  match k with
  | 0 => s.checkHandle hubCore ctx tenant r.coderef (refOff r.coderef) 0 { kinds := [2], x := true }
  | 1 => ask (decide ((if r.service then r.entry.toNat else 12 * r.entry.toNat) < Ent.len code)) r.coderef
  | 2 => chk r.stampref 8 { w := true, align := 8 }
  | 3 => if r.succn == 0 then .ok code else chk r.succref (8 * r.succn) { r := true, align := 8, span := true }
  | k + 4 => match r.decls[k]? with
    | some d => (s.tileCheck ctx tenant d).map fun _ => code
    | none => if k == r.ntile then ask (decide (16 ≤ r.imglen)) r.imgref else chk r.imgref r.imglen { r := true, span := true }
/-- Check 4 from the step it has come to, for `n` steps: the record with what has passed, and the fault that stopped it. -/
def State.refsFrom (s : State) (r : NodeRec) : Nat → Elig → State × Elig × Option Event
  | 0, e => (s, e, none)
  | n + 1, e => match s.refStep e.ctx r e.code e.passed with
    | .error ev => (s, e, some ev)
    | .ok code => (s.keepEntry hubCore e.ctx (r.refAt e.passed)).refsFrom r n { e with code := code, passed := e.passed + 1 }

/-! ### RECORD_CHECK (R20, R477) -/

/-- The record is to be looked at again, before the others. -/
def State.putBack (s : State) (e : Elig) : State := { s with eligible := e :: s.eligible }
/-- An access of the checks that has stopped: it waits, or holds the record, with the TAG of a record already read and else 0 (DESIGN CHOICE,
log 69); for a fatal fault, `k`. -/
def State.stopCheck (s : State) (e : Elig) (ev : Event) (ref : DWord) (k : State) : State :=
  match ev.hubStop with
  | .wait => (s.setGoing ev).putBack e
  | .hold => s.holdWork e.ctx noTid ((e.rec_.map (·.tag)).getD 0) ev ref (.check e)
  | .fatal => k
/-- Refuse a task: its stamp when STAMPREF passes the handle checks, its record, and its submission's status. -/
def State.refuse (s : State) (e : Elig) (cause : BitVec 8) : State :=
  let r := e.rec_.getD {}
  let e := { e with refused := some cause }
  let tenant := (s.ctx e.ctx).tenant
  let done (s : State) : State := (s.hubRecord e.ctx { cause := cause, src := 2, ref := e.ref } noTid r.tag).refDone e.sub 5
  match s.checkHandle hubCore e.ctx tenant r.stampref (refOff r.stampref) 8 { w := true, align := 8 } with
  | .error ev => s.stopCheck e ev r.stampref (done s)
  | .ok _ => match s.hubStamp e.ctx tenant r.stampref 2 with
    | .ok t => done t
    | .error ev => s.stopCheck e ev r.stampref (done (s.hubRecord e.ctx (hubFault ev r.stampref) noTid r.tag))
/-- A record that has passed every check enters the pool, and its tier actions before it runs are issued (R19, R58). -/
def State.enterPool (s : State) (e : Elig) (r : NodeRec) (img : ImgHeader) : State :=
  let n := s.fresh
  let s := r.decls.foldl (fun s d => if field d 122 3 == 3 then s else s.tierAction e.ctx (some n.1) d) n.2
  { s with pool := s.pool ++
    [{ seq := n.1, ctx := e.ctx, ref := e.ref, time := s.devTime.toNat, eff := r.prio, code := e.code, rec_ := r, img := img, sub := e.sub }] }
/-- Checks 4 to 6 of a record that has been read and has passed 1 to 3. -/
def State.checkRest (s : State) (e : Elig) (r : NodeRec) : State :=
  match s.refsFrom r (r.refSteps - e.passed) e with
  | (s, e, some ev) => s.stopCheck e ev ev.ref (s.refuse e ev.cause)
  | (s, e, none) =>
    if r.service then s.enterPool e r {}
    else match s.hubRead e.ctx (s.ctx e.ctx).tenant r.imgref (refOff r.imgref) 16 with
      | .error ev => s.stopCheck e ev r.imgref (s.refuse e ev.cause)
      | .ok l =>
        let s := s.hubNoteRange e.ctx r.imgref (refOff r.imgref) 16
        let h : BitVec 128 := ofBytes 128 l
        let img := ImgHeader.ofBits h
        if img.live == 0 || !imgReserved h then s.refuse e causeIllegalEncoding
        else if !img.fits r then s.refuse e causeBounds else s.enterPool e r img
/-- Read a record, once or a second time where its CHECK fails, and go on to the checks of what it holds (R20, R21). -/
def State.readRecord (s : State) (e : Elig) : State :=
  match s.hubCheck e.ctx (s.ctx e.ctx).tenant e.ref (refOff e.ref) 256 { r := true, align := 256 } .load with
  | .error ev => s.stopCheck e ev e.ref (s.refuse e ev.cause)
  | .ok a =>
    let s := s.hubNote e.ctx e.ref a 256 false
    let v : BitVec 2048 := ofBytes 2048 (s.bytes a.place.phys 256)
    let r := NodeRec.ofBits v
    let e' := { e with rec_ := some r }
    if !recSealed v then if e.torn then s.refuse e' causeParamTorn else s.putBack { e with torn := true }
    else if !recLegal v then s.refuse e' causeIllegalEncoding
    else if !r.fits then s.refuse e' causeBounds
    else s.checkRest e' r
/-- RECORD_CHECK: the first eligible record is read and checked; it enters the pool, is refused, or is held. What has been read and has passed
is not looked at again: a retry makes the access that stopped (R20, R21, R477). While the pool is full no record is checked (R58, R59). -/
def execRecordCheck (s : State) : Result :=
  match s.eligible with
  | [] => .next s
  | e :: rest =>
    let t : State := { s with eligible := rest }
    .next (match e.refused, e.rec_ with
      | some c, _ => t.refuse e c
      | none, some r => if 16384 ≤ s.pool.length then s else t.checkRest e r
      | none, none => if 16384 ≤ s.pool.length then s else t.readRecord e)

/-! ### Order in the pool (R60 to R62) -/

/-- Effective priority at a time (R60). -/
def PoolEntry.level (p : PoolEntry) (now : Nat) : Nat := min 7 (p.rec_.prio + (now - p.time) / 100000)
/-- PRIORITY_AGING: the hub recomputes every entry's effective priority. -/
def execPriorityAging (s : State) : Result :=
  .next { s with pool := s.pool.map fun p => { p with eff := p.level s.devTime.toNat } }
/-- One entry is considered before another (R61); entries of equal time keep the order of their creation. -/
def PoolEntry.before (now : Nat) (p q : PoolEntry) : Bool :=
  let a := p.level now
  let b := q.level now
  b < a || (a == b && (p.time < q.time || (p.time == q.time && p.seq < q.seq)))
/-- Insert into a list that is in the order of consideration. -/
def PoolEntry.insert (now : Nat) (p : PoolEntry) : List PoolEntry → List PoolEntry
  | [] => [p]
  | q :: r => if p.before now q then p :: q :: r else q :: PoolEntry.insert now p r
/-- The pool in the order of consideration. -/
def State.poolOrder (s : State) : List PoolEntry := s.pool.foldl (fun l p => p.insert s.devTime.toNat l) []

/-! ### Free resources of a core (R64, R68, R70, R72) -/

/-- Blocks that hold resources of a core. -/
def State.blocksOn (s : State) (k : Nat) : List Block := s.blocks.filter fun b => b.core == k && !b.retired
/-- Live crews of a core with their blocks' names and numbers. -/
def State.liveOn (s : State) (k : Nat) : List (Nat × Nat × Crew) :=
  (s.blocksOn k).flatMap fun b => (b.crews.zipIdx.filter (·.1.live)).map fun c => (b.bid, c.2, c.1)
/-- A register allocation: its first unit, its size, its crew, and whether it is the crew's shadow. -/
structure Alloc where
  base : Nat
  units : Nat
  blk : Nat
  crew : Nat
  shadow : Bool
  deriving DecidableEq, Repr
/-- Register allocations of a core. -/
def State.allocs (s : State) (k : Nat) : List Alloc :=
  (s.liveOn k).flatMap fun c =>
    let own : Alloc := { base := c.2.2.unitBase, units := c.2.2.units, blk := c.1, crew := c.2.1, shadow := false }
    own :: (c.2.2.shadowBase.toList.map fun b => { own with base := b, shadow := true })
/-- A range is free of used ranges. -/
def clear_ (used : List (Nat × Nat)) (base n : Nat) : Bool := used.all fun u => !overlap u.1 u.2 base n
/-- The buddy block that R68 gives for `n` units: the lowest free block of that size, else of the smallest larger size; a free block is
one whose buddy is not free with it. -/
def buddy (used : List (Nat × Nat)) (n : Nat) : Option Nat :=
  ([1, 2, 4, 8, 16, 32, 64, 128, 256].filter (n ≤ ·)).findSome? fun z =>
    ((List.range (256 / z)).map (z * ·)).find? fun b =>
      clear_ used b z && (z == 256 || !clear_ used (b / (2 * z) * (2 * z)) (2 * z))
/-- Allocate a list of equal requests in order: their bases. -/
def buddies (used : List (Nat × Nat)) (n : Nat) : Nat → Option (List Nat)
  | 0 => some []
  | m + 1 => match buddy used n with
    | none => none
    | some b => (buddies ((b, n) :: used) n m).map (b :: ·)
/-- The lowest free run of `n` granules among `total` (R72). -/
def freeRun (used : List (Nat × Nat)) (total n : Nat) : Option Nat :=
  if n == 0 then some 0
  else (0 :: (used.map fun u => u.1 + u.2)).foldl (fun best b =>
    if b + n ≤ total && clear_ used b n then match best with | some x => some (min x b) | none => some b else best) none
/-- The longest free run. -/
def longestRun (used : List (Nat × Nat)) (total : Nat) : Nat :=
  (0 :: (used.map fun u => u.1 + u.2)).foldl (fun best b =>
    let stop := ((used.map (·.1)).filter (b ≤ ·)).foldl min total
    if b ≤ total && used.all (fun u => !(u.1 ≤ b && b < u.1 + u.2)) then max best (stop - b) else best) 0
def State.usedUnits (s : State) (k : Nat) : List (Nat × Nat) := (s.allocs k).map fun a => (a.base, a.units)
def State.usedScr (s : State) (k : Nat) : List (Nat × Nat) := ((s.blocksOn k).filter (0 < ·.scrLen)).map fun b => (b.scrBase, b.scrLen)
def State.usedAcc (s : State) (k : Nat) : List (Nat × Nat) := ((s.blocksOn k).filter (0 < ·.accLen)).map fun b => (b.accBase, b.accLen)
def State.freeSlots (s : State) (k : Nat) : List Nat :=
  let used := (s.liveOn k).map (·.2.2.slot)
  (List.range 64).filter fun i => !used.contains i
def State.freeUnits (s : State) (k : Nat) : Nat := 256 - (s.usedUnits k).foldl (fun n u => n + u.2) 0
/-- The compactor of a core runs (R70, R71). -/
def Core.compacting (k : Core) : Bool := !k.compact.isEmpty || k.unitHeld.isSome
/-- Whether a core can hold a block (R64): as it stands, or once its compactor has run (R65, R70). While it runs the hub places no block
there (R71), and the core counts as one that cannot hold a block when R62 compares origins (DESIGN CHOICE, log 65). -/
inductive Room where
  | yes | compact | no
  deriving DecidableEq, Repr
def State.room (s : State) (k : Nat) (r : NodeRec) : Room :=
  if (s.core k).compacting || (s.freeSlots k).length < r.crews + 1 || (freeRun (s.usedScr k) 512 r.scrDemand).isNone ||
    (freeRun (s.usedAcc k) 64 r.acc).isNone then .no
  else if (buddies (s.usedUnits k) r.units ((r.crews + 1) * (if r.tryBit then 2 else 1))).isSome then .yes
  else if r.regDemand ≤ s.freeUnits k then .compact else .no

/-! ### Rectangles (R63, R65) -/

/-- Legal origins in ascending y0, then x0. -/
def NodeRec.origins (r : NodeRec) : List (Nat × Nat) :=
  let w := r.width
  let h := r.height
  (((List.range 12).filter fun y => y % h == 0 && y + h ≤ 12).flatMap fun y =>
    ((List.range 16).filter fun x => x % w == 0 && x + w ≤ 16).map fun x => (x, y))
/-- Cores of a rectangle, with their places in it. -/
def NodeRec.coresAt (r : NodeRec) (o : Nat × Nat) : List (Nat × Nat × Nat) :=
  (List.range r.height).flatMap fun y => (List.range r.width).map fun x => (16 * (o.2 + y) + (o.1 + x), x, y)
def dieOf (core : Nat) : Nat := core % 16 / 8 + 2 * (core / 16 / 6)
def NodeRec.dies (r : NodeRec) (o : Nat × Nat) : Nat := (((r.coresAt o).map fun c => dieOf c.1).eraseDups).length
/-- The element of a list with the least key; the first of equals. -/
def leastBy {α : Type} (key : α → Nat) : List α → Option α
  | [] => none
  | x :: r => match leastBy key r with
    | none => some x
    | some y => if key y < key x then some y else some x
/-- Cores set aside for the reserving task (R62). -/
def State.reserved (s : State) : List Nat :=
  match s.reserve with
  | none => []
  | some v => match s.pool.find? (·.seq == v.seq) with
    | none => []
    | some p => (p.rec_.coresAt (v.x0, v.y0)).map (·.1)
/-- The origin where a task can be placed: every core can hold a block; fewest dies, then lowest (R65). -/
def State.originFor (s : State) (p : PoolEntry) (excluded : List Nat) : Option (Nat × Nat) :=
  leastBy p.rec_.dies (p.rec_.origins.filter fun o => (p.rec_.coresAt o).all fun c => !excluded.contains c.1 && s.room c.1 p.rec_ != .no)
/-- Lacks of a core in the four resources (R62). -/
def State.lack (s : State) (k : Nat) (r : NodeRec) : Nat :=
  (r.crews + 1 - (s.freeSlots k).length) + (r.regDemand - s.freeUnits k) + (r.scrDemand - longestRun (s.usedScr k) 512) +
    (r.acc - longestRun (s.usedAcc k) 64)
/-- TASK_RESERVATION: the oldest compute task that has waited 1 ms reserves the legal origin with the least shortfall (R62). A SERVICE node has
no origin and never reserves (DESIGN CHOICE, log 70). -/
def execTaskReservation (s : State) : Result :=
  if (s.reserve.any fun v => s.pool.any (·.seq == v.seq)) then .next s
  else
    let old := s.pool.filter fun p => !p.rec_.service && p.time + 1000000 ≤ s.devTime.toNat
    match leastBy (fun p => p.time * 2 ^ 64 + p.seq) old with
    | none => .next { s with reserve := none }
    | some p =>
      let cost (o : Nat × Nat) : Nat :=
        let cs := p.rec_.coresAt o
        (cs.countP fun c => s.room c.1 p.rec_ == .no) * 2 ^ 32 + cs.foldl (fun n c => n + s.lack c.1 p.rec_) 0
      match leastBy (fun o => cost o * 16 + p.rec_.dies o) p.rec_.origins with
      | none => .next s
      | some o => .next { s with reserve := some ⟨p.seq, o.1, o.2⟩ }

/-! ### The compactor (R70, R71) -/

/-- Whether the new layout places one allocation before another: in descending size, ties in ascending index. -/
def Alloc.before (a b : Alloc) : Bool := b.units < a.units || (a.units == b.units && a.base < b.base)
/-- An allocation among those already in order. -/
def Alloc.insert (a : Alloc) : List Alloc → List Alloc
  | [] => [a]
  | b :: r => if a.before b then a :: b :: r else b :: a.insert r
/-- The new layout from a unit on: each allocation with its new base. -/
def newLayout : Nat → List Alloc → List (Alloc × Nat)
  | _, [] => []
  | at_, a :: r => (a, at_) :: newLayout (at_ + a.units) r
/-- Start a core's compactor: the units that move, in ascending order of destination. -/
def State.startCompactor (s : State) (k : Nat) : State :=
  let moved := (newLayout 0 ((s.allocs k).foldl (fun l a => a.insert l) [])).filter fun x => x.1.base != x.2
  s.updCore k fun c => { c with
    compact := moved.flatMap fun x => (List.range x.1.units).map fun i => ⟨x.1.blk, x.1.crew, x.1.shadow, x.1.base + i, x.2 + i, x.2⟩ }
/-- A crew that moves has stopped, and each of its results has been written or waits as a trap (R71). -/
def Crew.drained (c : Crew) : Bool := c.moving && c.pend.all fun p => c.pendTraps.any (·.faulting == some p.id)
/-- What the compactor does next for a unit: move one, or hold one to break a cycle; none where it must wait for a crew. -/
inductive UnitStep where
  | move (u : UnitMove)
  | hold (u : UnitMove)
/-- Follow the chain of moves from a unit to one whose destination is free; a chain that comes back to its start is a cycle, whose first
unit goes to the holding register. -/
def unitChain (l : List UnitMove) (ok : UnitMove → Bool) (start : UnitMove) : Nat → UnitMove → Option UnitStep
  | 0, _ => none
  | fuel + 1, u =>
    if !ok u then none
    else match l.find? (·.src == u.dst) with
      | none => some (.move u)
      | some v => if v == start then some (.hold start) else unitChain l ok start fuel v
/-- The first step that the chains, the cycles and the crews allow, in ascending order of destination. -/
def Core.unitStep (k : Core) (ok : UnitMove → Bool) : Option UnitStep :=
  match k.unitHeld with
  | some u => if k.compact.any (·.src == u.dst) then
      k.compact.findSome? fun x => match unitChain k.compact ok x 256 x with | some (.move v) => some (.move v) | _ => none
    else some (.move u)
  | none => k.compact.findSome? fun x => unitChain k.compact ok x 256 x
/-- A unit's move ends: its allocation has its new index, and the crew goes on once none of its units is left. -/
def State.unitMoved (s : State) (core : Nat) (u : UnitMove) : State :=
  let s := s.updCore core fun k => { k with compact := k.compact.erase u, unitHeld := k.unitHeld.filter (· != u) }
  let k := s.core core
  let left := k.compact.any (fun v => v.blk == u.blk && v.crew == u.crew) || k.unitHeld.any fun v => v.blk == u.blk && v.crew == u.crew
  s.updCrew u.blk u.crew fun c =>
    { c with
      unitBase := if u.shadow then c.unitBase else u.base
      shadowBase := if u.shadow then some u.base else c.shadowBase
      moving := left }
/-- Give every live crew of a core that has no units yet its units, and its shadow under TRY, in ascending order of crews (R68 to R70). -/
def State.giveUnits (s : State) (core : Nat) : State :=
  ((s.liveOn core).filter (·.2.2.units == 0)).foldl (fun s c =>
    let r := (s.task (s.block c.1).task).rec_
    let bases := (buddies ((s.usedUnits core).filter (0 < ·.2)) r.units (if r.tryBit then 2 else 1)).getD []
    s.updCrew c.1 c.2.1 fun x => { x with units := r.units, unitBase := bases.headD 0, shadowBase := bases[1]? }) s
/-- COMPACTOR_MOVE: one unit moves; where no stopped and drained crew's unit can, the next crew that is to move stops. After the last move
the block that started the compactor gets its units (R70, R71). -/
def execCompactorMove (core : Nat) (s : State) : Result :=
  if !(s.core core).compacting then .next s
  else
    let gone (u : UnitMove) : Bool := !s.resident_ u.blk || !(s.crew u.blk u.crew).live
    let s := s.updCore core fun k => { k with compact := k.compact.filter fun u => !gone u, unitHeld := k.unitHeld.filter fun u => !gone u }
    let s := match (s.core core).unitStep fun u => (s.crew u.blk u.crew).drained with
      | some (.move u) => s.unitMoved core u
      | some (.hold u) => s.updCore core fun k => { k with compact := k.compact.erase u, unitHeld := some u }
      | none => match (s.core core).compact.find? fun u => !(s.crew u.blk u.crew).moving with
        | some u => s.updCrew u.blk u.crew fun c => { c with moving := true }
        | none => s
    .next (if (s.core core).compacting then s else s.giveUnits core)

/-! ### TASK_PLACE (R61, R65, R66, R72, R73, R411) -/

/-- The identifier a task gets: the context's next one, passing over those of live tasks (R15). -/
def State.pickTid (s : State) (ctx : Nat) : Word :=
  let live := (s.tasks.filter fun t => t.ctx == ctx && !t.killed && (match t.phase with | .releasing _ => false | .done => false | _ => true)).map (·.tid)
  let n := (s.ctx ctx).nextTid
  (((List.range (live.length + 1)).map fun i => n + BitVec.ofNat 32 i).find? fun t => !live.contains t).getD n
/-- A crew as placement makes it. -/
def newCrew (slot base units : Nat) (shadow : Option Nat) : Crew :=
  { fibres := List.replicate 32 {}, slot := slot, unitBase := base, units := units, shadowBase := shadow }
/-- Put one block on a core: slots, units, scratchpad and accumulator granules. Where a compactor must run first it is started, and the
units are given when it has finished (R70). `old` is the saved block of a restored task. -/
def State.placeBlock (s : State) (p : PoolEntry) (uid k x y : Nat) (old : Option Block) : State :=
  let r := p.rec_
  let s := if s.room k r == .compact then s.startCompactor k else s
  let slots := s.freeSlots k
  let put (i : Nat) (c : Crew) : Crew :=
    { c with slot := (slots[i]?).getD 0, unitBase := 0, units := 0, shadowBase := none, filled := false }
  let n := s.fresh
  let fresh : Block := { bid := n.1, task := uid, core := k, bx := x, byy := y, crews := List.replicate (r.crews + 1) (newCrew 0 0 0 none)
                         holds := List.replicate r.rows {} }
  let b := old.getD fresh
  let b : Block := { b with
    core := k
    saving := false
    restoring := old.isSome
    tried := false
    crews := b.crews.zipIdx.map fun c => put c.2 c.1
    scrBase := (freeRun (s.usedScr k) 512 r.scrDemand).getD 0
    scrLen := r.scrDemand
    accBase := (freeRun (s.usedAcc k) 64 r.acc).getD 0
    accLen := r.acc }
  let s : State := { n.2.updCore k (fun c => { c with gated := false, icache := c.icache.filter fun x => x.1 != p.ctx }) with
    blocks := n.2.blocks ++ [b] }
  if (s.core k).compacting then s else s.giveUnits k
/-- Place a compute task at an origin. -/
def State.placeTask (s : State) (p : PoolEntry) (o : Nat × Nat) : State :=
  let s : State := { s with
    pool := s.pool.filter (·.seq != p.seq)
    reserve := if s.reserve.any (·.seq == p.seq) then none else s.reserve }
  match p.restore with
  | some uid =>
    let t := s.task uid
    let s := (p.rec_.coresAt o).foldl (fun s c => s.placeBlock p uid c.1 c.2.1 c.2.2
      (t.kept.blocks.find? fun b => b.bx == c.2.1 && b.byy == c.2.2)) s
    let s : State := { s with
      blocks := s.blocks.filter fun b => !(b.task == uid && b.retired)
      ops := (s.ops ++ t.kept.ops).map fun op =>
        if op.task == uid then { op with core := ((s.blocks.find? (·.bid == op.blk)).map (·.core)).getD op.core } else op }
    s.updTask uid fun t => { t with phase := .placed, x0 := o.1, y0 := o.2 }
  | none =>
    let tid := s.pickTid p.ctx
    let t : Task :=
      { uid := p.seq, ctx := p.ctx, tid := tid, nodeRef := p.ref, rec_ := p.rec_, img := p.img, x0 := o.1, y0 := o.2, sub := p.sub
        code := p.code }
    let s := { s with tasks := s.tasks ++ [t] }.updCtx p.ctx fun c => { c with nextTid := tid + 1 }
    (p.rec_.coresAt o).foldl (fun s c => s.placeBlock p p.seq c.1 c.2.1 c.2.2 none) s
/-- The queue core a SERVICE node can run on now (R66). -/
def State.serviceCore (s : State) (r : NodeRec) : Option Nat :=
  if r.persist then
    let k := s.coreOfQueue r.wqid
    if (s.qcore k).node.isNone then some k else none
  else (List.range 64).find? fun k => (s.qcore k).node.isNone && (s.qcore k).held.isNone
/-- CMDSTAT of a RESTORE becomes DONE when every block is resident (R411). -/
def State.restoreDone (s : State) (t : Task) : State :=
  let c := s.ctx t.ctx
  if c.cmdstat == 1 && c.cmdOpc == 2 && c.cmdTask == t.tid && (s.blocks.filter (·.task == t.uid)).all fun b => b.crews.all fun c => c.filled || !c.live then
    s.updCtx t.ctx fun c => { c with cmdstat := 2 }
  else s
/-- A SERVICE node that is restored goes on from where its save left it; its range registers are the core's own, and it holds no request
(DESIGN CHOICE, log 85). -/
def QueueCore.restore (c v : QueueCore) : QueueCore :=
  { v with ranges := c.ranges, held := none, resv := none, minstret := c.minstret, cycleOffset := c.cycleOffset }
/-- Start a SERVICE node: range register 0 holds its code object, and the core starts at byte ENTRY, or goes on from a save (R66, R411, R468). Of a
length that does not fit LEN the register keeps the low 32 bits (DESIGN CHOICE, log 71). -/
def State.placeService (s : State) (p : PoolEntry) (k : Nat) : State :=
  let base := (formIa p.code (Ent.base p.code) 0).getD 0
  let range : BitVec 128 := at_ 128 44 52 base ||| at_ 128 12 32 (Ent.len p.code % 2 ^ 32) ||| at_ 128 0 3 5
  let s : State := { s with pool := s.pool.filter (·.seq != p.seq) }
  let run (s : State) (uid : Nat) (g : QueueCore → QueueCore) : State :=
    s.updQcore k fun c => let c := g c; { c with node := some uid, ranges := c.ranges.set 0 range }
  match p.restore with
  | some uid =>
    let t := s.task uid
    (run (s.updTask uid fun t => { t with phase := .placed, qcore := k }) uid fun c => (t.kept.core.map c.restore).getD (c.start p.rec_.entry)).restoreDone t
  | none =>
    let tid := s.pickTid p.ctx
    let t : Task := { uid := p.seq, ctx := p.ctx, tid := tid, nodeRef := p.ref, rec_ := p.rec_, sub := p.sub, qcore := k, code := p.code }
    run ({ s with tasks := s.tasks ++ [t] }.updCtx p.ctx fun c => { c with nextTid := tid + 1 }) p.seq fun c => c.start p.rec_.entry
/-- TASK_PLACE: the reserving task when its cores can hold it, else the first task considered for which a placement exists. -/
def execTaskPlace (s : State) : Result :=
  let place (p : PoolEntry) : Option State :=
    if p.rec_.service then (s.serviceCore p.rec_).map fun k => s.placeService p k
    else (s.originFor p s.reserved).map fun o => s.placeTask p o
  let first : Option State := match s.reserve with
    | none => none
    | some v => match s.pool.find? (·.seq == v.seq) with
      | none => none
      | some p => if (p.rec_.coresAt (v.x0, v.y0)).all (fun c => s.room c.1 p.rec_ != .no) then some (s.placeTask p (v.x0, v.y0)) else none
  if s.halted then .next s
  else match first with
  | some s => .next s
  | none => match (s.poolOrder.filter fun p => !s.reserve.any (·.seq == p.seq)).findSome? place with
    | some s => .next s
    | none => .next s

/-! ### BLOCK_FILL (R24, R25, R73, R244, R411) -/

/-- A word of the register image; a line that meets a fatal fault gives a free word, of which no rule states the value. -/
def State.imageWord (s : State) (t : Task) (j free : Nat) : Except Event Word :=
  match s.hubRead t.ctx (s.ctx t.ctx).tenant t.rec_.imgref (refOff t.rec_.imgref + 16 + 4 * j) 4 with
  | .ok l => .ok (ofBytes 32 l)
  | .error ev => if ev.cause.toNat < 0x10 then .error ev else .ok (Config.freeWord free)
/-- A run of image words. -/
def State.imageWords (s : State) (t : Task) (j free : Nat) : Nat → Except Event (List Word)
  | 0 => .ok []
  | n + 1 => match s.imageWord t j free with
    | .error ev => .error ev
    | .ok w => (s.imageWords t (j + 1) (free + 1) n).map (w :: ·)
/-- The registers of one fibre slot, from the uniform words and its crew's own. -/
def ImgHeader.fill (h : ImgHeader) (uni per : List Word) (slot : Nat) (entry : Word) : Fibre :=
  let u := (List.range h.un).map fun j => (h.uq + j, (uni[j]?).getD 0)
  let p := (List.range h.fp).map fun j => (h.fq + j, (per[j * 32 + slot]?).getD 0)
  let fb : Fibre := Fibre.setRegs {} ((0, h.initv0) :: u ++ p)
  if h.live.getLsbD slot then { fb with st := .runnable, pc := entry } else fb
/-- Fill the crews of a list that are not filled yet, each from the uniform words and its own; one whose words meet a retry-class fault is
left for the next BLOCK_FILL, and the others do not wait for it (R73). -/
def State.fillCrews (s : State) (blk : Nat) (t : Task) (uni : List Word) : List Nat → State
  | [] => s
  | i :: r =>
    let c := s.crew blk i
    let h := t.img
    let n := 32 * h.fp
    if c.filled || !c.live then s.fillCrews blk t uni r
    else match s.imageWords t (h.un + (if h.percrew then i * n else 0)) s.free n with
      | .error ev => (s.setGoing ev).fillCrews blk t uni r
      | .ok per =>
        let s := s.hubNoteRange t.ctx t.rec_.imgref (refOff t.rec_.imgref + 16 + 4 * (h.un + (if h.percrew then i * n else 0))) (4 * n)
        ({ s.updCrew blk i fun c => { c with
          filled := true, mode := 0, fibres := (List.range 32).map fun f => h.fill uni per f t.rec_.entry } with free := s.free + n }).fillCrews blk t uni r
/-- A restored crew: a monitor wait returns LOST, and parked fibres are retried (R405, R409). -/
def Crew.restored (c : Crew) : Crew :=
  { c with
    filled := true
    fibres := c.fibres.map fun fb => match fb.st, fb.wait with
      | .waiting, .mon _ _ => ({ fb.setReg fb.waitF.d.toNat 2 with monitor := .clear }).wake.next
      | .parked, _ => { fb with st := .runnable }
      | _, _ => fb }
/-- A restored block goes on: rows are reopened, parked operations are retried, the class-5 counters count the collectives that have not
retired since, and the fatal faults of the save are delivered to crew 0 (R244, R405, R407, R408, R411). -/
def State.fillRestored (s : State) (blk : Nat) : State :=
  let outstanding (i : Nat) : Nat := s.ops.countP fun o => o.blk == blk && o.crew == i && o.cls == 5 && o.counted
  let b := s.block blk
  let s := s.updBlock blk fun b => { b with
    restoring := false
    saveFaults := []
    crews := (b.crews.map Crew.restored).mapIdx fun i c => { c with counters := c.counters.modify 5 fun _ => outstanding i }
    holds := b.holds.map fun h => if h.reopenBy.isSome then { h with reopenBy := some (s.devTime.toNat + 100000) } else h }
  let s := (List.range b.holds.length).foldl (fun s h => if ((s.block blk).hold h).reopenBy.isSome then s.reopenRow blk h else s) s
  -- a parked operation is retried; one whose record still waits is owed the retry (R402, R405)
  let parked := s.ops.filter fun o => o.blk == blk && o.phase == .parked
  let s : State := { s with
    ops := s.ops.map fun o => if o.blk == blk && o.phase == .parked && o.pendRec.isNone then { o with phase := o.back } else o
    retry := s.retry ++ (parked.filter (·.pendRec.isSome)).map fun o => .op o.id }
  b.saveFaults.foldl (fun s x =>
    let c := s.crew blk 0
    let m := match c.nextPlace with | some k => c.strandAt k | none => c.lowestIdle
    s.trap blk 0 m m x.2) s
/-- BLOCK_FILL: once its core's compactor has finished, a block's registers are filled, from the image or from what was saved; a
retry-class fault is waited out. The uniform area is read once for the block, whichever crews are filled with it later (R25, R73). Its start is an
acquire (R314, R317, R329). -/
def execBlockFill (blk : Nat) (s : State) : Result :=
  let b := s.block blk
  let t := s.task b.task
  if !s.resident_ blk || b.terminated || (s.core b.core).compacting || b.crews.all fun c => c.filled || !c.live then .next s
  else
    let s := s.acquire b.core blk
    if b.restoring then .next ((s.fillRestored blk).restoreDone t)
    else match b.uni with
      | some uni => .next (s.fillCrews blk t uni (List.range b.crews.length))
      | none => match s.imageWords t 0 s.free t.img.un with
        | .error ev => .next (s.setGoing ev)
        | .ok uni =>
          let s := (s.hubNoteRange t.ctx t.rec_.imgref (refOff t.rec_.imgref + 16) (4 * t.img.un)).updBlock blk fun b => { b with uni := some uni }
          .next ({ s with free := s.free + t.img.un }.fillCrews blk t uni (List.range b.crews.length))

end Sys2Proof.Machine
end

