-- ==== Sys2Proof/Machine/Context.lean ====
section
/-! DEFINITION. Traps that waited for their record, parked work, the commands of a context, and the save of a task with its image
(R393 to R411, R416, R447). -/

namespace Sys2Proof.Machine
open Bits

/-! ### Records and traps that waited (R396, R402) -/

/-- A producer of a context still waits for a place in the ring. -/
def State.producerWaits (s : State) (ctx : Nat) : Bool :=
  s.records.any (·.ctx == ctx) || s.ops.any (fun o => o.ctx == ctx && o.pendRec.isSome) ||
  s.blocks.any fun b => (s.task b.task).ctx == ctx && b.crews.any (!·.pendTraps.isEmpty)
/-- STALLED holds while a producer waits at a full ring. -/
def State.restall (s : State) (ctx : Nat) : State :=
  s.updCtx ctx fun c => { c with stalled := c.ringFull && s.producerWaits ctx }
/-- A record that has waited still waits: for a full ring nothing changes, and for its line what the wait sets going is kept. -/
def State.afterWait (s : State) (ctx : Nat) (t : Option State) : State := if (s.ctx ctx).ringFull then s else t.getD s
/-- TRAP_DELIVERY: the crew's next waiting trap is delivered once its record has room and nothing it drains is still owed. -/
def execTrapDelivery (blk crew : Nat) (s : State) : Result :=
  let c := s.crew blk crew
  match c.nextTrap with
  | none => .next s
  | some p =>
    let ctx := (s.task (s.block blk).task).ctx
    if !s.resident_ blk || !c.filled then .next s
    else if s.trapStays blk crew p then .next (if c.inTry p.mask p.act p.ev then s else s.afterWait ctx (s.trapPlace blk crew p.ev))
    else .next (((s.updCrew blk crew fun c => { c with pendTraps := c.pendTraps.erase p }).takeTrap blk crew p).restall ctx)
/-- TRAP_RECORD_WRITE: a held record of the hub or the collective engine, else one of an engine operation, is written (R402). -/
def execTrapRecordWrite (ctx : Nat) (s : State) : Result :=
  match s.recordWait ctx with
  | some t => .next (s.afterWait ctx (some t))
  | none => match s.records.find? (·.ctx == ctx) with
    | some r =>
      let s' : State := { s with records := s.records.erase r }
      .next ((s'.putLate r).restall ctx)
    | none => match s.ops.find? fun o => o.ctx == ctx && o.pendRec.isSome with
      | some o => .next ((s.opRecord o (o.pendRec.getD {})).restall ctx)
      | none => .next (s.restall ctx)
/-- TRSTAT_CLEAR: LOST is cleared by writing 1 (R400). -/
def execTrstatClear (ctx : Nat) (s : State) : Result := .next (s.updCtx ctx fun c => { c with lost := false })

/-! ### Parked work (R405, R477) -/

/-- PARKED_RETRY: work that is owed a retry takes it. -/
def execParkedRetry (who : Parked) (s : State) : Result :=
  match who with
  | .strand b c pc =>
    if !s.retry.contains who then .next s
    else .next ({ s with retry := s.retry.erase who }.updCrew b c fun x => { x with
      fibres := x.fibres.map fun (fb : Fibre) => if fb.st == FibreState.parked && fb.pc.toNat == pc then { fb with st := FibreState.runnable } else fb })
  | .op id =>
    if !s.retry.contains who || s.ops.any (fun o => o.id == id && o.pendRec.isSome) then .next s
    else .next ({ s with retry := s.retry.erase who }.updOp id fun (o : EngineOp) => if o.phase == OpPhase.parked then { o with phase := o.back } else o)
  | .record i => match s.held[i]? with
    | some h =>
      if !s.heldDue.contains h then .next s
      else
        let s : State := { s with held := s.held.erase h, heldDue := s.heldDue.erase h }
        match h with
        | .check e => .next { s with eligible := e :: s.eligible }
        | _ => .next s
    | none => .next s
  | .retiring t =>
    if s.heldDue.contains (.retire t) then .next { s with held := s.held.erase (.retire t), heldDue := s.heldDue.erase (.retire t) }
    else .next s

/-! ### Saving a task (R407 to R410) -/

/-- Bytes of a task's save image (R410). -/
def NodeRec.blockImage (r : NodeRec) : Nat :=
  (16384 + 2048 * (r.crews + 1) * r.units + 1024 * r.scr + 4096 * r.acc + 4095) / 4096 * 4096
def NodeRec.imageSize (r : NodeRec) : Nat := 4096 + r.width * r.height * r.blockImage
/-- Blocks of a task that have not retired. -/
def State.liveBlocks (s : State) (uid : Nat) : List Block := s.blocks.filter fun b => b.task == uid && !b.retired
/-- A crew of a task with a drained POISON, which is delivered first (R397). -/
def poisonedCrew (bs : List Block) : Option (Nat × Nat × Pending) :=
  bs.findSome? fun b => (b.crews.zipIdx).findSome? fun c => c.1.poisoned.map fun p => (b.bid, c.2, p)
/-- What a save or a stop of a block must wait for: a crew that has not settled, a register that an engine still owes, or a POISON that
waits for its record (R369, R397, R407). -/
def Block.unready (b : Block) : Bool :=
  b.crews.any fun c => c.unsettled || c.owed || c.pendTraps.any (·.late)
/-- Deliver a drained POISON. -/
def State.deliverPoison (s : State) (x : Nat × Nat × Pending) : State :=
  (s.updCrew x.1 x.2.1 fun c => { c with pend := c.pend.filter (·.id != x.2.2.id) }).trap x.1 x.2.1 x.2.2.strand x.2.2.mask x.2.2.poisonEvent none true
/-- A crew as it is saved: tries abort, results are drained or captured, monitors are clear. A trap that waited for its record is kept,
unless its captured entry raises it again. -/
def Crew.saved (c : Crew) (detail : Nat) : Crew :=
  let c := (c.abortTry 0xFFFFFFFF (abortWord 6 detail)).drain true
  { c with fibres := c.fibres.map fun fb => { fb with monitor := .clear } }
/-- A matrix operation that has not begun to multiply is queued again at restore, with its scratchpad locks; one that has ended, and whose stamp
alone is parked, stays so (R258, R292). -/
def EngineOp.requeue (o : EngineOp) : EngineOp :=
  if o.cls == 3 && o.phase != .ended && !(o.phase == .parked && o.back == .ended) then
    { o with phase := if o.phase == .parked then .parked else .queued, back := .queued, memLocks := [] } else o
/-- Window write-backs at a save, one window at a time: false when one must be waited out. The fatal fault of a window writes one record with
SRC 6, keeps the window's dirty bytes, and is delivered to crew 0 at restore (R407 step 6). -/
def State.saveWindows (s : State) (bid : Nat) : List Nat → Bool × State
  | [] => (true, s)
  | i :: r =>
    if (s.block bid).saveFaults.any (·.1 == i) then s.saveWindows bid r
    else match s.writeBacks .other bid [i] with
    | .ok s => s.saveWindows bid r
    | .error (.wait _ s) => (false, s)
    | .error (.fault _ ev) =>
      if ev.cause.toNat < 0x10 then (false, s.setGoing ev)
      else match s.recordWait (s.task (s.block bid).task).ctx with
        | some t => (false, t)
        | none => ((s.blockRecord bid 0xFF { ev with src := 6 } 0).updBlock bid fun b =>
          { b with saveFaults := b.saveFaults ++ [(i, ev)] }).saveWindows bid r
/-- Held rows at a save: SAVE keeps the row and the epoch and frees the slot; DROP drops the entry (R244). -/
def State.saveRows (s : State) (b : Block) (drop : Bool) : State :=
  if drop then s.dropHolds b.bid
  else
    { s.updBlock b.bid fun x => { x with holds := x.holds.map fun h => if h.held then { h with held := false, reopenBy := some 0 } else h }
      with rowSlots := s.rowSlots.filter fun x => x.2.blk != b.bid }
/-- The wait record of a fibre slot (R409). -/
def Fibre.record (fb : Fibre) : DWord :=
  let rec_ (kind object : Nat) : DWord := at_ 64 60 4 kind ||| at_ 64 0 52 object
  if fb.st != .waiting then rec_ 0 0
  else match fb.wait with
    | .none | .commit => rec_ 0 0
    | .barrier b ph => rec_ 1 (b + ph.toNat * 16)
    | .rbar b ph _ => rec_ 2 (b + ph.toNat * 4)
    | .sem ia => rec_ 3 ia
    | .mon line _ => rec_ 4 (64 * line)
    | .queue q => rec_ 5 q
    | .svcq q => rec_ 6 q
    | .counter cls n => rec_ 7 (cls + n * 8)
    | .conv m => rec_ 8 m.toNat
/-- The wait records of a task's blocks, in the order of their slots. -/
def waitRecords (bs : List Block) : List DWord := bs.flatMap fun b => b.crews.flatMap fun c => c.fibres.map (·.record)
/-- The 64-byte header of an image, and the bytes beyond it, whose layout no rule gives and which hold the wait records among the rest; with
the image's IMGCHK. -/
def State.writeImage (s : State) (t : Task) (at_ : Nat) (bs : List Block) : DWord × State :=
  let size := t.rec_.imageSize
  let body := (List.range (size - 64)).map fun i => Config.imageByte (waitRecords bs) (s.free + i)
  let parked := bs.any (fun b => b.crews.any fun c => c.fibres.any (·.st == .parked)) || s.ops.any fun o => o.task == t.uid && o.cls != 5 && o.phase == .parked
  let rows := bs.foldl (fun n b => n + b.holds.countP (·.reopenBy.isSome)) 0
  let h := seal64 (Bits.at_ 512 0 8 1 ||| Bits.at_ 512 16 8 (t.rec_.width * t.rec_.height) ||| Bits.at_ 512 24 8 rows |||
    Bits.at_ 512 32 1 parked.toNat ||| Bits.at_ 512 34 6 t.ctx ||| Bits.at_ 512 64 32 t.tid.toNat ||| Bits.at_ 512 96 32 t.rec_.tag.toNat |||
    Bits.at_ 512 128 64 t.nodeRef.toNat ||| Bits.at_ 512 192 64 size ||| Bits.at_ 512 256 64 (crc64 body).toNat)
  (crc64 body, { s.iaWrite at_ (toBytes 64 h ++ body) with free := s.free + (size - 64) })
/-- An operation that a save keeps; a collective runs on (R408). -/
def EngineOp.savedWith (o : EngineOp) (uid : Nat) : Bool := o.task == uid && o.cls != 5
/-- Save a SERVICE node: its queue core as it stands between two instructions. The request that the core holds goes back, as when a node ends, and
the core counts as running no node (DESIGN CHOICE, log 85: R407 speaks of blocks, and a SERVICE node has none). -/
def State.saveService (s : State) (t : Task) (at_ : Nat) : State :=
  let core := s.qcore t.qcore
  let w := (s.releaseHeld t.qcore).writeImage t at_ []
  (w.2.updQcore t.qcore fun c => { c with node := none, ranges := c.ranges.set 0 0 }).updTask t.uid fun t =>
    { t with phase := .saved, image := at_, saves := { chk := w.1, blocks := [], ops := [], core := some core } :: t.saves }
/-- Save the blocks of a task (R407, R408): every block stops; false while something must be waited for. -/
def State.saveBlocks (s : State) (uid detail at_ : Nat) : Bool × State :=
  let s : State := { s with blocks := s.blocks.map fun b => if b.task == uid && !b.retired && !b.terminated then { b with saving := true } else b }
  let bs := s.liveBlocks uid
  let busyOp (o : EngineOp) : Bool := o.task == uid && (o.cls == 1 || (o.cls == 3 && (o.phase == .multiplied || o.phase == .ended)))
  match poisonedCrew (bs.filter fun b => !b.crews.any (·.unsettled)) with
  | some x => (false, s.deliverPoison x)
  | none =>
    if s.ops.any busyOp || bs.any fun b => b.terminated || b.unready then (false, s)
    else match s.ownWait at_ (s.task uid).rec_.imageSize true with
    | some t => (false, t)
    | none =>
      let s := bs.foldl (fun s b => s.updBlock b.bid fun b => { b with crews := b.crews.map (·.saved detail) }) s
      let r := bs.foldl (fun (x : Bool × State) b => if x.1 then x.2.saveWindows b.bid (List.range 8) else x) (true, s)
      if !r.1 then r
      else
        let s := bs.foldl (fun s b => s.saveRows b (s.task uid).rec_.rowpolDrop) r.2
        let mine := s.blocks.filter (·.task == uid)
        let w := s.writeImage (s.task uid) at_ mine
        let v : Save := { chk := w.1, blocks := mine, ops := (s.ops.filter (·.savedWith uid)).map (·.requeue) }
        let s : State := { w.2 with blocks := w.2.blocks.filter (·.task != uid), ops := w.2.ops.filter fun o => !o.savedWith uid }
        (true, s.updTask uid fun t => { t with phase := .saved, image := at_, saves := v :: t.saves })
/-- Save a task whole (R407); false while something must be waited for. -/
def State.saveTask (s : State) (uid detail at_ : Nat) : Bool × State :=
  let t := s.task uid
  if t.rec_.service then match s.ownWait at_ t.rec_.imageSize true with
    | some u => (false, u)
    | none => (true, s.saveService t at_)
  else s.saveBlocks uid detail at_

/-! ### Context commands (R406) -/

/-- CMDSTAT: 2 DONE, 3 REFUSED. -/
def State.endCmd (s : State) (ctx v : Nat) : State := s.updCtx ctx fun c => { c with cmdstat := v }
/-- A task that is live for commands: not killed (R15), and on cores with a block that has not retired, or saved; or a SERVICE node (R406,
R447). -/
def State.liveFor (s : State) (t : Task) : Bool :=
  !t.killed && match t.phase with
  | .placed => t.rec_.service || (s.blocks.any fun b => b.task == t.uid && !b.retired)
  | .saved => true
  | _ => false
/-- Carry out a context's command when it is the given one; one that names no task it can act on is REFUSED. -/
def State.ctxCommand (s : State) (ctx : Nat) (opc : Nat) (ok : Task → Bool) (act : Task → State) : Result :=
  let c := s.ctx ctx
  if c.cmdstat != 1 || c.cmdOpc.toNat != opc then .next s
  else match s.tasks.find? fun t => t.ctx == ctx && t.tid == c.cmdTask && ok t with
    | none => .next (s.endCmd ctx 3)
    | some t => .next (act t)
/-- PREEMPT (R407). -/
def execPreempt (ctx : Nat) (s : State) : Result :=
  s.ctxCommand ctx 1 (fun t => s.liveFor t && t.phase == .placed) fun t =>
    let c := s.ctx ctx
    if c.cmdlen.toNat < t.rec_.imageSize then s.endCmd ctx 3
    else
      let r := s.saveTask t.uid 0 c.cmdarg
      if r.1 then r.2.endCmd ctx 2 else r.2
/-- IMGCHK of the image at an IA (R410). -/
def State.imageChk (s : State) (at_ : Nat) : DWord := ofBytes 64 (s.iaBytes (at_ + 32) 8)
/-- The save that an image stands for becomes the one in force; an image of no save that the part knows leaves the newest (R411). -/
def Task.choose (t : Task) (chk : DWord) : Task :=
  match t.saves.find? (·.chk == chk) with
  | none => t
  | some v => { t with saves := v :: t.saves.erase v }
/-- An image names a task: CHECK, VER, CTX and IMGCHK hold (R411). -/
def State.imageOk (s : State) (at_ : Nat) (t : Task) (len : Nat) : Bool :=
  let h : BitVec 512 := ofBytes 512 (s.iaBytes at_ 64)
  let size := field h 192 64
  sealed64 h && field h 0 8 == 1 && field h 34 6 == t.ctx && h.extractLsb' 64 32 == t.tid && decide (size ≤ len) && decide (64 ≤ size) &&
    h.extractLsb' 256 64 == crc64 (s.iaBytes (at_ + 64) (size - 64))
/-- A saved task re-enters the pool at its PRIO (R411). -/
def State.repool (s : State) (t : Task) : State :=
  { s with
    pool := s.pool ++ [{ seq := s.nextId, ctx := t.ctx, ref := t.nodeRef, time := s.devTime.toNat, eff := t.rec_.prio, rec_ := t.rec_
                         code := t.code, img := t.img, sub := t.sub, restore := some t.uid }]
    nextId := s.nextId + 1 }
/-- RESTORE (R411): CMDSTAT stays BUSY until BLOCK_FILL has made every block resident. -/
def execRestore (ctx : Nat) (s : State) : Result :=
  -- once its image has been taken the command waits for the blocks, whatever becomes of the image
  let waits (t : Task) : Bool := s.pool.any (·.restore == some t.uid) || s.blocks.any fun b => b.task == t.uid && b.restoring
  s.ctxCommand ctx 2 (fun t => !t.killed && (t.phase == .saved || waits t)) fun t =>
    if waits t then s
    else match s.ownWait (s.ctx ctx).cmdarg t.rec_.imageSize false with
    | some s => s
    | none =>
    if !s.imageOk (s.ctx ctx).cmdarg t (s.ctx ctx).cmdlen.toNat then s.endCmd ctx 3
    else if s.poolFull then s
    else ((s.noteOwn (s.ctx ctx).cmdarg t.rec_.imageSize false).updTask t.uid fun t => t.choose (s.imageChk (s.ctx ctx).cmdarg)).repool t
/-- RESUME: every parked strand and operation of the task is retried (R405). -/
def execResume (ctx : Nat) (s : State) : Result := s.ctxCommand ctx 3 s.liveFor fun t => (s.oweTask t.uid).endCmd ctx 2
/-- Stop the first block of a list that can be stopped now. -/
def State.stopBlocks (s : State) : List Block → State
  | [] => s
  | b :: r =>
    let ctx := (s.task b.task).ctx
    match (if b.crews.any (·.unsettled) then none else poisonedCrew [b]) with
    | some x => s.deliverPoison x
    | none =>
        if b.unready then s.stopBlocks r
        else match s.recordWait ctx with
        | some t => t
        | none => match s.ownWait (s.ctx ctx).dumpAt 256 true with
        | some t => t
        | none => (s.blockRecord b.bid 0xFF { cause := causeDebugStop, src := 2 } 0).debugStop b.bid 0
/-- DBGSTOP: block by block, until every block of the task has stopped (R416). -/
def execDbgstop (ctx : Nat) (s : State) : Result :=
  s.ctxCommand ctx 4 (fun t => s.liveFor t && t.phase == .placed) fun t =>
    let left (s : State) : List Block := (s.liveBlocks t.uid).filter fun b => !b.stopped && !b.terminated
    let s := s.stopBlocks (left s)
    if (left s).isEmpty then s.endCmd ctx 2 else s
/-- End the debug stop of a task's blocks, saved ones included (R416). -/
def State.runTask (s : State) (uid : Nat) : State :=
  { s with
    blocks := s.blocks.map fun b => if b.task == uid then { b with stopped := false } else b
    tasks := s.tasks.map fun t => if t.uid == uid then t.mapSaved fun b => { b with stopped := false } else t }
/-- DBGRUN (R416). -/
def execDbgrun (ctx : Nat) (s : State) : Result := s.ctxCommand ctx 5 s.liveFor fun t => (s.runTask t.uid).endCmd ctx 2
/-- End a task with stamp status ABORTED (R394, R406, R447); false while a crew is being moved. The operations of a saved one end as those
of its blocks would, and its retirement begins. -/
def State.killTask (s : State) (t : Task) : Bool × State :=
  let mark (s : State) : State := s.updTask t.uid fun t => { t with killed := true, status := max t.status 3 }
  if t.rec_.service && t.phase == .placed then (true, (mark s).endNode t.qcore 3)
  else match t.phase with
    | .placed =>
      if (s.liveBlocks t.uid).isEmpty then
        -- every block has retired: the stamp is written at once
        (true, ((mark s).endBlocks t).updTask t.uid fun t => { t with phase := .stamping })
      else if (s.liveBlocks t.uid).any fun b => b.crews.any (·.moving) then (false, s) else (true, (mark s).terminateTask t.uid 3)
    | .saved =>
      let s : State := { s with
        pool := s.pool.filter (·.restore != some t.uid)
        records := s.records ++ t.kept.blocks.flatMap fun b => s.blockLate b t.kept.ops
        ops := s.ops ++ t.kept.ops.map EngineOp.cut }
      (true, (mark s).endBlocks t)
    | .waitPeer => (true, (mark s).updTask t.uid fun t => { t with phase := .stamping })
    | _ => (true, mark s)
/-- KILL. -/
def execKill (ctx : Nat) (s : State) : Result :=
  let live (t : Task) : Bool := !t.killed && match t.phase with | .releasing _ => false | .done => false | _ => true
  s.ctxCommand ctx 6 live fun t =>
    let r := s.killTask t
    if r.1 then r.2.endCmd ctx 2 else r.2
/-- CTX_BAD_COMMAND. -/
def execCtxBadCommand (ctx : Nat) (s : State) : Result :=
  let c := s.ctx ctx
  if c.cmdstat == 1 && !(1 ≤ c.cmdOpc.toNat && c.cmdOpc.toNat ≤ 6) then .next (s.endCmd ctx 3) else .next s

end Sys2Proof.Machine
end

