-- ==== Sys2Proof/Machine/Submission.lean ====
section
/-! DEFINITION. Submission pages: acceptance, processing and completion of submissions, and the binding table (R38 to R47). -/

namespace Sys2Proof.Machine
open Bits

def State.page (s : State) (i : Nat) : Page := (Sparse.find? s.pages i).getD {}
def State.updPage (s : State) (i : Nat) (g : Page → Page) : State := { s with pages := Sparse.insert i (g (s.page i)) s.pages }

namespace Sm
def ver (v : BitVec 1024) : Nat := field v 0 8
def opc (v : BitVec 1024) : Nat := field v 8 4
def nref (v : BitVec 1024) : Nat := field v 12 4
def notify (v : BitVec 1024) : Bool := bit v 16
def crec (v : BitVec 1024) : Bool := bit v 17
def seq (v : BitVec 1024) : Word := v.extractLsb' 32 32
def cookie (v : BitVec 1024) : DWord := v.extractLsb' 64 64
def ref (v : BitVec 1024) (j : Nat) : DWord := v.extractLsb' (128 + 64 * j) 64
def craddr (v : BitVec 1024) : DWord := v.extractLsb' 896 64
def sealed (v : BitVec 1024) : Bool := v.extractLsb' 992 32 == crc32c (toBytes 124 v)
/-- Check 2 of R42 but for CHECK. -/
def ok (v : BitVec 1024) : Bool :=
  ver v == 1 && isZero v 18 14 && isZero v 960 32 && opc v ≤ 2 && (!notify v || crec v) &&
  (if opc v == 1 then 1 ≤ nref v && nref v ≤ 12 else nref v == 0)
end Sm

/-- Submissions that fill the hub's intake (R40). -/
def State.intake (s : State) : Nat := s.subs.countP fun x => match x.phase with | .intake => true | .launching _ => true | _ => false
/-- The context is being pre-empted, restored or checkpointed (R40). -/
def State.ctxBusy (s : State) (c : Nat) : Bool :=
  let x := s.ctx c
  (x.cmdstat == 1 && (x.cmdOpc == 1 || x.cmdOpc == 2)) || s.halted
/-- SUBMIT_DMWR (R39, R40). -/
def execSubmitDmwr (origin : PageFrom) (offset : Nat) (data : List Byte) (s : State) : Result :=
  let page := origin.page
  let p := s.page page
  if !p.en || offset != 0 || data.length != 128 then .next (s.emit (.unsupported page))
  else if p.outn == 64 || 1024 ≤ s.intake || s.ctxBusy p.ctx then .next (s.emit (.retry page))
  else
    let sub : Submission := { id := s.nextId, page := page, src := origin.src, rec_ := ofBytes 1024 data, bind := p }
    .next ({ s.updPage page fun p => { p with outn := p.outn + 1 } with subs := s.subs ++ [sub], nextId := s.nextId + 1 }.emit (.accepted page))
/-- WIN_PLAIN_WRITE (R39). -/
def execWinPlainWrite (page : Nat) (s : State) : Result :=
  if (s.page page).en then .next (s.updPage page fun p => { p with err := true }) else .next (s.emit (.unsupported page))
/-- STATE_ERR_CLEAR (R39). -/
def execStateErrClear (page : Nat) (s : State) : Result :=
  if (s.page page).en then .next (s.updPage page fun p => { p with err := false }) else .next (s.emit (.unsupported page))
/-- The 32-bit registers of a page: NEXTSEQ and STATE; any other offset reads 0 (R39). -/
def Page.reg (p : Page) (off : Nat) : Word :=
  if off == 0x80 then p.nextseq
  else if off == 0x84 then at_ 32 0 1 p.err.toNat ||| at_ 32 1 1 p.en.toNat ||| at_ 32 8 8 p.outn
  else 0
/-- A read of a page: a register whole, else 0; Unsupported Request while the page is not enabled (R39). -/
def State.pageRead (s : State) (page off n : Nat) : State :=
  let p := s.page page
  if !p.en then s.emit (.unsupported page)
  else s.emit (.readData (if n == 4 then toBytes 4 (p.reg off) else List.replicate n 0) false)
/-- An ordinary write to a page: one that meets WIN sets ERR, and a 1 written to bit 0 of STATE clears it (R39). -/
def State.pageWrite (s : State) (page off : Nat) (data : List Byte) : State :=
  let p := s.page page
  if !p.en then s.emit (.unsupported page)
  else if off < 0x80 then s.updPage page fun p => { p with err := true }
  else if off == 0x84 && data.length == 4 && (data.headD 0).getLsbD 0 then s.updPage page fun p => { p with err := false }
  else s

/-! ### Processing (R42, R44, R45) -/

def State.updSub (s : State) (id : Nat) (g : Submission → Submission) : State :=
  { s with subs := s.subs.map fun x => if x.id == id then g x else x }
/-- The submission is finished with: OUT falls (R42). -/
def State.dropSub (s : State) (x : Submission) : State :=
  { s.updPage x.page fun p => { p with outn := p.outn - 1 } with subs := s.subs.filter (·.id != x.id) }
/-- CRADDR lies in the completion window latched at acceptance (R42 check 4). -/
def Submission.addrOk (x : Submission) : Bool :=
  let a := (Sm.craddr x.rec_).toNat
  a % 64 == 0 && x.bind.crbase.toNat ≤ a && a + 64 ≤ x.bind.crbase.toNat + 4096 * x.bind.crpages
/-- Which of the completion record and the notification will be written: check 4. ERR is set when the address fails. A record that is
MALFORMED for NOTIFY = 1 with CREC = 0 has its notification posted, with no completion record before it (DESIGN CHOICE, log 72). -/
def State.applyAddr (s : State) (x : Submission) : State :=
  let good := x.addrOk
  let w := Sm.crec x.rec_ && good
  let s := if Sm.crec x.rec_ && !good then s.updPage x.page fun p => { p with err := true } else s
  s.updSub x.id fun y => { y with writeRec := w, notify := Sm.notify x.rec_, holdsOrder := w }
/-- The checks of R42 on the oldest unprocessed submission of a page. -/
def State.processSub (s : State) (x : Submission) : State :=
  let v := x.rec_
  let next := (s.page x.page).nextseq
  let fail (s : State) (st : Nat) : State := (s.applyAddr x).updSub x.id fun y => { y with phase := .finished st }
  if Sm.seq v == next - 1 then s.dropSub x
  else if !Sm.sealed v then
    -- nothing of it is trusted: ERR, no record, no notification
    (s.updPage x.page fun p => { p with err := true }).updSub x.id fun y =>
      { y with phase := .finished 2, writeRec := false, notify := false, holdsOrder := false }
  else if !Sm.ok v then fail s 2
  else if Sm.seq v != next then fail s 3
  else
    let s := (s.updPage x.page fun p => { p with nextseq := p.nextseq + 1 }).applyAddr x
    s.updSub x.id fun y => match Sm.opc v with
      | 0 => { y with phase := .finished 0 }
      | 1 => { y with phase := .launching 0, rs := List.replicate (Sm.nref v) none }
      | _ => { y with phase := .running }
/-- The submission a page works on next: its oldest in the intake. -/
def State.headSub (s : State) (page : Nat) : Option Submission :=
  s.subs.find? fun x => x.page == page && (match x.phase with | .intake => true | .launching _ => true | _ => false)
/-- Take one reference of a LAUNCH, with the checks of R189 over its 256 bytes; false when it must wait (R44, R59, R477). Poison on the record
refuses the task, as RECORD_CHECK then reports it; any other fatal fault is the memory port's refusal of the reference (R47, R477). -/
def State.launchRef (s : State) (x : Submission) (j : Nat) : Bool × State :=
  let ref := Sm.ref x.rec_ j
  let q : Req := { r := true, align := 256 }
  match s.hubCheck x.bind.ctx x.bind.tenant ref (refOff ref) 256 q .load with
  | .error ev => match ev.hubStop with
    | .wait => (false, s.setGoing ev)
    | .hold => (false, s.holdWork x.bind.ctx noTid 0 ev ref (.launch x.id))
    | .fatal =>
      if ev.cause == causePoison && (s.checkHandle hubCore x.bind.ctx x.bind.tenant ref (refOff ref) 256 q).isOk then
        (true, { s with eligible := s.eligible ++ [{ ctx := x.bind.ctx, ref := ref, sub := some (x.id, j), refused := some causePoison }] })
      else (true, s.refDone (some (x.id, j)) 7)
  | .ok a =>
    let n : BitVec 16 := ofBytes 16 (s.bytes (a.place.phys + 0xF0) 2)
    if n == 0 && s.poolFull then (false, s)
    else
      let s := s.hubNote x.bind.ctx ref a 256 false
      if n != 0 then (true, s.refDone (some (x.id, j)) 6)
      else (true, { s with eligible := s.eligible ++ [{ ctx := x.bind.ctx, ref := ref, sub := some (x.id, j) }] })
/-- Take references from j on until one must wait; `n` are left. -/
def State.launchRefs (x : Submission) : Nat → Nat → State → State
  | 0, _, s => s.updSub x.id fun y => { y with phase := .running }
  | n + 1, j, s =>
    let s := s.updSub x.id fun y => { y with phase := .launching j }
    match s.launchRef x j with
    | (true, s) => State.launchRefs x n (j + 1) s
    | (false, s) => s
/-- SUBMIT_NOP: the oldest unprocessed record of the page, unless it is a LAUNCH or a DRAIN, is checked and completes (R42, R45). -/
def execSubmitNop (page : Nat) (s : State) : Result :=
  match s.headSub page with
  | some x => if x.phase == .intake && Sm.opc x.rec_ != 1 && Sm.opc x.rec_ != 2 then .next (s.processSub x) else .next s
  | none => .next s
/-- A write of the submitting requester that arrived before the submission still waits: no task of it may be placed before it (R329). -/
def State.writesBefore (s : State) (x : Submission) : Bool := s.incoming.any fun r => r.src == x.src && r.write.isSome && r.id < x.id
/-- LAUNCH: the record is checked, and its references are taken in order (R42, R44), after the earlier writes of its requester (R329). -/
def execLaunch (page : Nat) (s : State) : Result :=
  match s.headSub page with
  | none => .next s
  | some x =>
    if Sm.opc x.rec_ != 1 || s.held.contains (.launch x.id) || s.writesBefore x then .next s
    else
      let s := if x.phase == .intake then s.processSub x else s
      match s.subs.find? (·.id == x.id) with
      | none => .next s
      | some y => match y.phase with
        | .launching j => .next (State.launchRefs y (Sm.nref y.rec_ - j) j s)
        | _ => .next s
/-- DRAIN: the record is checked; it completes after every earlier submission of its page (R42, R45). -/
def execDrain (page : Nat) (s : State) : Result :=
  match s.headSub page with
  | some x => if x.phase == .intake && Sm.opc x.rec_ == 2 then .next (s.processSub x) else .next s
  | none => .next s

/-! ### Completion (R46, R47) -/

/-- A running submission has completed: LAUNCH when each reference's status is known, DRAIN when every earlier one has. -/
def State.subComplete (s : State) (x : Submission) : Option Nat :=
  match x.phase with
  | .finished st => some st
  | .running =>
    if Sm.opc x.rec_ == 1 then
      if x.rs.all (·.isSome) then some (if x.rs.all (· == some 0) then 0 else 1) else none
    else if s.subs.any fun y => y.page == x.page && y.id < x.id && (match y.phase with | .finished _ => false | _ => true) then none else some 0
  | _ => none
/-- The completion record (R47). -/
def State.completion (s : State) (x : Submission) (status : Nat) : BitVec 512 :=
  let rs := (List.range 12).foldl (fun v j =>
    v ||| at_ 512 (192 + 4 * j) 4 (if 2 ≤ status then 15 else match x.rs[j]? with | some (some k) => k | _ => 15)) 0
  seal64 (at_ 512 0 8 1 ||| at_ 512 8 8 status ||| at_ 512 32 32 (Sm.seq x.rec_).toNat ||| at_ 512 64 64 (Sm.cookie x.rec_).toNat |||
    at_ 512 128 64 s.devTime.toNat ||| rs)
/-- SUBMISSION_COMPLETE: the record in page order, then the notification; OUT falls (R46). -/
def execSubmissionComplete (sub : Nat) (s : State) : Result :=
  match s.subs.find? (·.id == sub) with
  | none => .next s
  | some x => match s.subComplete x with
    | none => .next s
    | some st =>
      let s := s.updSub sub fun y => { y with phase := .finished st }
      if x.writeRec && s.subs.any fun y => y.page == x.page && y.id < x.id && y.holdsOrder then .next s
      else
        let s := if x.writeRec then s.emit (.hostWrite (Sm.craddr x.rec_) (toBytes 64 (s.completion x st))) else s
        let s := if x.notify then s.emit (.hostWrite x.bind.naddr (toBytes 4 x.bind.ndata)) else s
        .next (s.dropSub x)

/-! ### Bindings (R38, R43) -/

/-- A write to a page's binding entry: fields with bits that must be 0 keep their values, and EN rises only when OUT is 0. There are 4,096
pages. -/
def State.writeBinding (s : State) (i : Nat) (e : BitVec 256) : State :=
  if 4096 ≤ i then s
  else s.updPage i fun p =>
    let rise := bit e 0 && !p.en && p.outn == 0
    { p with
      naddr := if isZero e 192 2 then e.extractLsb' 192 64 else p.naddr
      ndata := e.extractLsb' 160 32
      crbase := if isZero e 64 12 then e.extractLsb' 64 64 else p.crbase
      crpages := field e 48 16
      ctx := field e 32 6
      tenant := e.extractLsb' 16 16
      en := if p.en then bit e 0 else rise
      nextseq := if rise then 0 else p.nextseq
      err := if rise then false else p.err }
/-- BINDING_WRITE. -/
def execBindingWrite (page : Nat) (entry : BitVec 256) (s : State) : Result := .next (s.writeBinding page entry)

end Sys2Proof.Machine
end

