-- ==== Sys2Proof/Machine/Hub.lean ====
section
/-! DEFINITION. The invalidation ring and power gating (R412 to R415), requests that arrive from outside (R333, R334, R478), and the
acknowledgement of peer stores (R443). -/

namespace Sys2Proof.Machine
open Bits

/-! ### Invalidation (R412 to R414) -/

/-- The command at the head of the invalidation ring, while none is in progress. -/
def State.invalHead (s : State) : Option (BitVec 256) :=
  if s.inval.pending && s.invalWait.isNone then some (ofBytes 256 (s.iaBytes (s.inval.entry s.inval.cons 32) 32)) else none
/-- The head command's place in memory cannot be read or written yet (R291, R333). -/
def RingRegs.wait (r : RingRegs) (s : State) : Option State := if r.pending then s.ownWait (r.entry r.cons 32) 32 true else none
/-- STATUS, then CONS; a ring that has been disabled meanwhile takes neither (R6). -/
def State.endInval (s : State) (status : Nat) : State :=
  if !s.inval.on then { s with invalWait := none }
  else
    { s.iaWrite (s.inval.entry s.inval.cons 32 + 1) [BitVec.ofNat 8 status] with
      inval := { s.inval with cons := s.inval.cons + 1 }, invalWait := none }
def invalCtx (c : BitVec 256) : Nat := field c 16 6
/-- Reserved bits are zero. -/
def invalReserved (c : BitVec 256) : Bool := isZero c 22 42 && isZero c 128 128
/-- A legal HANDLES command, and a legal CONTEXT command. -/
def invalHandlesOk (c : BitVec 256) : Bool :=
  invalReserved c && isZero c 82 14 && decide (1 ≤ field c 96 32) && decide (field c 64 18 + field c 96 32 ≤ 2 ^ 18)
def invalContextOk (c : BitVec 256) : Bool := invalReserved c && isZero c 64 64
/-- Invalidate handles of a context on every core: handle caches with their block-table entries, the instruction caches for the context,
tries that used one; operations repeat their checks, and parked work is owed a retry (R364, R405, R413). -/
def State.invalidate (s : State) (ctx : Nat) (hit : Nat → Bool) : State :=
  let key (k : Nat) : Bool := k / 2 ^ 18 == ctx && hit (k % 2 ^ 18)
  let again (o : EngineOp) : EngineOp :=
    if o.ctx != ctx then o
    else { o with
      recheck := o.recheck || o.work.operands.any fun m => hit (refIndex m.ref)
      restamp := o.restamp || o.stamp.any fun m => hit (refIndex m.ref) }
  let s : State := { s with
    cores := s.cores.map fun c => { c with
      handles := c.handles.filter fun h => !key h.1
      icache := c.icache.filter fun x => x.1 != ctx }
    ops := s.ops.map again
    tasks := s.tasks.map fun t => { t with saves := t.saves.map fun v => { v with ops := v.ops.map again } } }
  let s := s.mapCrews fun _ _ c => match c.tr with
    | none => c
    | some t =>
      let readers := t.reads.foldl (fun m r => if r.handles.any key then m ||| r.members else m) 0#32
      let writers := maskOf 32 ((t.bufHandles.filter fun h => key h.1).map (·.2))
      c.abortTry (readers ||| writers) (abortWord 1 0)
  { s.oweAll.noteOwn (s.inval.entry s.inval.cons 32) 32 false with invalWait := some [] }
/-- The context has a task that is eligible, placed or saved (R309). -/
def State.inUse (s : State) (ctx : Nat) : Bool :=
  s.eligible.any (·.ctx == ctx) || s.pool.any (·.ctx == ctx) || (s.held.any fun h => match h with | .check e => e.ctx == ctx | _ => false) ||
  s.tasks.any fun t => t.ctx == ctx && (match t.phase with | .placed => true | .saved => true | _ => false)
/-- A context is torn down: its rings and markers go, and its journal entries become FREE (R53, R271). -/
def State.tearDown (s : State) (ctx : Nat) : State :=
  let s : State := { s with rings := s.rings.filter (·.ctx != ctx) }
  (s.services.filter (·.2.serv)).foldl (fun s d => d.2.entries.foldl (fun s i =>
    let v := s.journal d.1 i
    if field v 8 2 != 0 && Rq.ctx v == ctx then s.setJournal d.1 i (seal64 (v &&& ~~~(at_ 512 8 2 3))) else s) s) s
/-- Carry out the head command, once its place can be reached. -/
def State.invalCommand (s : State) (k : BitVec 256 → State) : Result :=
  match s.inval.wait s, s.invalHead with
  | some t, _ => .next t
  | none, none => .next s
  | none, some c => .next (k c)
/-- INVAL_HANDLES. -/
def execInvalHandles (s : State) : Result := s.invalCommand fun c =>
  if field c 0 8 != 1 then s
  else if !invalHandlesOk c then s.endInval 2
  else s.invalidate (invalCtx c) fun i => field c 64 18 ≤ i && i < field c 64 18 + field c 96 32
/-- INVAL_CONTEXT: every index; a context that is not in use and has no handle table is torn down with it, once its journals can be written. -/
def execInvalContext (s : State) : Result := s.invalCommand fun c =>
  if field c 0 8 != 2 then s
  else if !invalContextOk c then s.endInval 2
  else
    let x := invalCtx c
    if s.inUse x || (s.ctx x).htcount != 0 then s.invalidate x fun _ => true
    else match (s.services.filter (·.2.serv)).findSome? fun d => s.journalWait d.1 true with
      | some t => t
      | none => (s.invalidate x fun _ => true).tearDown x
/-- INVAL_BAD_COMMAND. -/
def execInvalBadCommand (s : State) : Result := s.invalCommand fun c => if field c 0 8 == 1 || field c 0 8 == 2 then s else s.endInval 2
/-- INVALIDATION_DONE: every core has acknowledged. A command whose ring has been disabled since it began runs on to this end, and only its STATUS
and CONS are withheld (DESIGN CHOICE, log 83). Accesses are performed when their instructions end; operations stand at a sector
boundary between steps, where those named repeat their checks (R413). -/
def execInvalidationDone (s : State) : Result :=
  match s.inval.wait s, s.invalWait with
  | some t, _ => .next t
  | none, some [] => let r := s.recheckAll; .next (if r.1 then r.2 else r.2.endInval 1)
  | none, _ => .next s
/-- CORE_POWER_GATE: a core that holds no block is flushed and gated (R415). -/
def execCorePowerGate (core : Nat) (s : State) : Result :=
  if s.blocks.any fun b => b.core == core && !b.retired then .next s
  else .next { s.updCore core fun c => { c with l1 := [], icache := [], handles := [], params := [], gated := true } with
    owners := s.owners.filter fun o => o.2 != core }

/-! ### Writes that come by physical address -/

/-- Lines of IA space that a monitor or a try watches. -/
def State.watched (s : State) : List Nat :=
  s.blocks.flatMap fun b => b.crews.flatMap fun c =>
    (c.fibres.filterMap fun fb => match fb.monitor with | .armed l => some l | _ => none) ++
      (match c.tr with | some t => t.reads.map (·.line) | none => [])
/-- Watched lines that lie at a physical range now. -/
def State.watchedAt (s : State) (phys n : Nat) : List Nat :=
  s.watched.filter fun l => match s.place (64 * l) with | .ok p => overlap p.phys 64 phys n | .error _ => false
/-- A line of IA space lies at a physical range now. -/
def State.lineAt (s : State) (phys n line : Nat) : Bool := match s.place (64 * line) with | .ok p => overlap p.phys 64 phys n | .error _ => false
/-- A matrix lock holds a line of a physical range (R291). -/
def State.physLocked (s : State) (phys n : Nat) : Bool := s.ops.any fun o => o.memLocks.any fun l => s.lineAt phys n l
/-- A write by another part to memory of this one, named by its physical place: owned words go, monitors fire and tries conflict as for any
write (R322, R348, R364). -/
def State.physWrite (s : State) (phys : Nat) (data : List Byte) : State :=
  let n := data.length
  let lines := s.watchedAt phys n
  let owned := (s.owners.map (·.1)).filter fun w => s.lineAt phys n (w / 16)
  let held := (s.cores.flatMap (·.params)).filter (s.lineAt phys n)
  let s := (s.noteCode phys n).setBytes phys data
  let s : State := { s with
    poison := s.poison.filter fun l => !(phys ≤ 64 * l && 64 * l + 64 ≤ phys + n)
    owners := s.owners.filter fun o => !owned.contains o.1
    cores := s.cores.map fun c => { c with
      l1 := c.l1.filter fun w => !owned.contains w.1
      params := c.params.filter fun l => !held.contains l }
    qcores := s.qcores.map (·.seeWrite phys n)
    scores := s.scores.map (·.seeWrite phys n) }
  s.mapCrews fun _ _ c => c.seeWrite 0 lines

/-! ### Leases by name -/

/-- The table entry of a lease identifier that is not RELEASED. -/
def State.leaseAt (s : State) (id : Word) : Option (Nat × Lease) := s.leases.find? fun x => x.2.id == id && x.2.st != .released
def State.updLease (s : State) (i : Nat) (g : Lease → Lease) : State :=
  { s with leases := s.leases.map fun x => if x.1 == i then (x.1, g x.2) else x }
def Lease.phys (l : Lease) (off : Nat) : Nat := poolBase + l.poolg * 2 ^ 28 + off
def Lease.bytes (l : Lease) : Nat := l.ngran * 2 ^ 28

/-! ### The event ring (R436) -/

def causeGranted : Nat := 1
def causeAcceptTimeout : Nat := 2
def causeRenewed : Nat := 3
def causeNotice : Nat := 4
def causeRelease : Nat := 5
def causeExpired : Nat := 6
def causeDeparted : Nat := 7
def causeLinkDown : Nat := 8
def causeBiDone : Nat := 9
def LeaseState.code : LeaseState → Nat
  | .released => 0 | .offered => 1 | .active => 2 | .recalling => 3
/-- Write the event records that wait, as far as the ring has room and its place can be written; a ring that is not in use takes none, and loses
them. -/
def State.flushEvents (s : State) : State :=
  s.latigo.events.foldl (fun s e =>
    let r := s.latigo.event
    if !r.on then { s with latigo := { s.latigo with events := s.latigo.events.drop 1 } }
    else if r.roomy then match s.ownWait (r.entry r.prod 32) 32 true with
      | some t => t
      | none => { s.iaWrite (r.entry r.prod 32) (toBytes 32 e) with
          latigo := { s.latigo with events := s.latigo.events.drop 1, event := { r with prod := r.prod + 1 } } }
    else s) s
/-- Record a transition; parked work is owed a retry (R405, R436, R438). -/
def State.leaseEvent (s : State) (id : Word) (old new : LeaseState) (cause arg : Nat) : State :=
  let e : BitVec 256 := at_ 256 192 64 s.devTime.toNat ||| at_ 256 160 32 id.toNat ||| at_ 256 128 32 arg ||| at_ 256 8 8 cause |||
    at_ 256 2 2 old.code ||| at_ 256 0 2 new.code
  ({ s with latigo := { s.latigo with events := s.latigo.events ++ [e] } }.flushEvents).oweAll
/-- The Latigo logic can go no further now: its event ring is full, an event still waits for the ring, or the place of the next event or of the
head command cannot be written yet; then the state with what that sets going (R291, R333, R436). -/
def State.latigoWait (s : State) : Option State :=
  let ev := s.latigo.event
  if !s.latigo.events.isEmpty || (ev.on && !ev.roomy) then some s
  else match (if ev.on then s.ownWait (ev.entry ev.prod 32) 32 true else none) with
    | some t => some t
    | none => s.latigo.cmd.wait s
/-- Move a table entry to a state, with its cause and its record. -/
def State.toState (s : State) (i : Nat) (st : LeaseState) (cause : Nat) (arg : Nat := 0) : State :=
  match Sparse.find? s.leases i with
  | none => s
  | some l => (s.updLease i fun l => { l with st := st, cause := cause }).leaseEvent l.id l.st st cause arg

/-! ### Peer stores (R442, R443) -/

/-- Stores of a task that an event has ended: one record for the task, and a stamp status of at least FAULT. -/
def State.endStores (s : State) (cause : BitVec 8) (gone : List PeerStore) : State :=
  let s : State := { s with
    peerStores := s.peerStores.filter fun p => !gone.any (·.id == p.id)
    ops := s.ops.map fun o =>
      let n := gone.countP fun p => p.op == some o.id
      if n == 0 then o else { o with unacked := o.unacked - n, status := max o.status 2 } }
  ((gone.map (·.task)).eraseDups).foldl (fun s uid =>
    let mine := gone.filter (·.task == uid)
    match mine with
    | [] => s
    | p :: _ =>
      (s.hubRecord p.ctx { cause := cause, src := 5, ref := p.lease.setWidth 64, arg0 := BitVec.ofNat 64 p.ia
                           arg1 := BitVec.ofNat 64 mine.length } p.tid p.tag).updTask uid fun t => { t with status := max t.status 2 }) s
/-- UIO_ACK. A chunk store names no lease: its failure is left to the collective's time-out. -/
def execUioAck (store : Nat) (result : UioResult) (s : State) : Result :=
  match s.peerStores.find? (·.id == store) with
  | none => .next s
  | some p => match result with
    | .ok => .next { s with
        peerStores := s.peerStores.filter (·.id != store)
        ops := s.ops.map fun o => if some o.id == p.op then { o with unacked := o.unacked - 1 } else o }
    | .error => if p.lease == 0 then .next s else .next (s.endStores causeLeaseLost [p])
    | .poisoned => if p.lease == 0 then .next s else .next (s.endStores causePoison [p])
/-- PEER_STORE_TIMEOUT: no completion within 50 ms. -/
def execPeerStoreTimeout (store : Nat) (s : State) : Result :=
  match s.peerStores.find? (·.id == store) with
  | none => .next s
  | some p => if p.lease == 0 || s.devTime.toNat < p.sentAt + 50000000 then .next s else .next (s.endStores causeLeaseLost [p])

/-! ### Requests that arrive (R331, R333, R334, R434, R478) -/

/-- Count a request that is not served. -/
def State.unserved (s : State) : State := { s with sec := { s.sec with unserved := s.sec.unserved + 1 } }
/-- A borrower's access to an extent that this part lends. -/
inductive Lent where
  | serve (entry : Nat) (l : Lease) (s : State)
  | wait (s : State)
  | refuse
/-- It is in error once the lease is RECALLING or RELEASED or its time has passed, and for any part but the borrower; the first one makes an
OFFERED lease ACTIVE, a transition that waits for the event ring (R433, R434, R436). -/
def State.lentAccess (s : State) (src : BitVec 12) (id : Word) (off n : Nat) : Lent :=
  match s.leaseAt id with
  | none => .refuse
  | some (i, l) =>
    let now := s.devTime.toNat
    if l.borrowed || l.peer != src || l.bytes < off + n then .refuse
    else match l.st with
      | .active => if l.live now then .serve i l s else .refuse
      | .offered =>
        if l.offeredAt + 100000 ≤ now then .refuse
        else match s.flushEvents.latigoWait with
          | some t => .wait t
          | none => .serve i l (s.flushEvents.toState i .active causeGranted)
      | _ => .refuse
/-- A request that is not served: zeros with poison, an error, or nothing, by its path (R478). -/
def State.refuseIncoming (s : State) (r : Incoming) : State :=
  let s := s.unserved
  match r.write with
  | none => if r.path == .cxlMem then s.emit (.readData (List.replicate r.len 0) true) else s.emit .completerAbort
  | some _ => if r.path == .cxlMem then s.emit .writeDone else if r.posted then s else s.emit .completerAbort
/-- What an attempt to serve a request comes to. -/
inductive Served where
  | done (s : State)
  | wait (s : State)
/-- The completion of a write that is not posted, once it has been performed (R331). -/
def State.written (s : State) (r : Incoming) : State := if r.posted && r.path == .cxlIo then s else s.emit .writeDone
/-- A request to IA space: translated, checked for line poison and performed, or waiting for its page, for a matrix lock, or for another part
(R291, R331, R333, R478). -/
def State.serveIa (s : State) (r : Incoming) : Served :=
  match s.place r.addr with
  | .error c =>
    if c == causeCompressed then .wait (s.setGoing { cause := c, arg1 := BitVec.ofNat 64 r.addr }) else .done (s.refuseIncoming r)
  | .ok p =>
    if p.peer.isSome then .done (s.refuseIncoming r)
    else match s.ownWait r.addr r.len r.write.isSome with
      | some t => .wait t
      | none =>
        if (s.reach r.addr r.len p).isSome then .done (s.refuseIncoming r)
        else match r.write with
          | some data => .done ((s.iaWrite r.addr data).written r)
          | none => .done ((s.noteOwn r.addr r.len false).emit (.readData (s.bytes p.phys r.len) (s.poisonedAt p.phys r.len)))
/-- A borrower's request to the extent of a lease. -/
def State.serveLent (s : State) (r : Incoming) (id : Word) : Served :=
  match s.lentAccess r.src id r.addr r.len with
  | .refuse => .done (s.refuseIncoming r)
  | .wait t => .wait t
  | .serve i l t =>
    let a := l.phys r.addr
    match r.write with
    | none =>
      .done ((t.updLease i fun l => { l with cached := (l.cached ++ linesOf r.addr r.len).eraseDups }).emit
        (.readData (t.bytes a r.len) (t.poisonedAt a r.len)))
    | some data => if s.physLocked a r.len then .wait s else .done ((t.physWrite a data).written r)
/-- Serve a request by its path; one that needs a feature the part does not have is completed with Unsupported Request (R39, R427, R478). -/
def State.serve (s : State) (r : Incoming) : Served :=
  match r.path with
  | .lent id => s.serveLent r id
  | .page i => match r.write with
    | some data => .done (let t := s.pageWrite i r.addr data; if (s.page i).en then t.written { r with path := .cxlIo } else t)
    | none => .done (s.pageRead i r.addr r.len)
  | .other => .done (if r.posted then s else s.emit .unsupportedRequest)
  | _ => s.serveIa r
/-- It is a write with Relaxed Ordering set, which has no order. -/
def Incoming.loose (r : Incoming) : Bool := r.write.isSome && r.relaxed
/-- A request waits behind an earlier one of its requester that waits, unless one of the two is a write with Relaxed Ordering set: reads come in
arrival order, a read is an acquire before the writes behind it, and a write is a release of what came before it (R319, R331). -/
def Incoming.behind (r e : Incoming) : Bool := r.src == e.src && !r.loose && !e.loose
/-- A request is kept until it can be served. -/
def State.keepRequest (s : State) (r : Incoming) : State :=
  { s with incoming := s.incoming ++ [{ r with id := s.nextId }], nextId := s.nextId + 1 }
/-- A request arrives: served, or kept. -/
def State.request (s : State) (r : Incoming) : State :=
  let keep (s : State) : State := s.keepRequest r
  if s.incoming.any r.behind then keep s
  else match s.serve r with
    | .done s => s
    | .wait s => keep s
/-- A request that waits is tried again. -/
def State.serveIncoming (s : State) (i : Nat) : State :=
  match s.incoming[i]? with
  | none => s
  | some r =>
    if (s.incoming.take i).any r.behind then s
    else match s.serve r with
      | .done t => { t with incoming := t.incoming.eraseIdx i }
      | .wait t => t
/-- INCOMING_MEM_READ. -/
def execIncomingMemRead (origin : MemFrom) (ia len : Nat) (s : State) : Result :=
  .next (s.request { src := origin.src, path := origin.path, addr := ia, len := len })
/-- INCOMING_MEM_WRITE: performed, then completed unless it is posted. -/
def execIncomingMemWrite (origin : MemFrom) (posted : Bool) (ia : Nat) (data : List Byte) (s : State) : Result :=
  .next (s.request { src := origin.src, path := origin.path, addr := ia, len := data.length, relaxed := origin.relaxed, posted := posted, write := some data })
/-- UIO_WRITE_RECEIVED: a plain write by the borrower to a lent extent, in no order with others, acknowledged once it is performed (R334). -/
def execUioWriteReceived (lease : Word) (offset : Nat) (data : List Byte) (s : State) : Result :=
  let src := ((s.leaseAt lease).map (·.2.peer)).getD 0
  .next (s.request { src := src, path := .lent lease, addr := offset, len := data.length, relaxed := true, write := some data })
/-- Cached lines of IA space whose page is REMOTE under a lease, of one line of its extent or of all. -/
def State.borrowedLine (s : State) (id : Word) (line : Option Nat) (x : Nat) : Bool :=
  let e := s.pte (64 * x)
  s.inTable (x / 1024) && field e 61 3 == 3 && field e 24 32 == id.toNat && (match line with | some k => field e 0 24 * 1024 + x % 1024 == k | none => true)
/-- Remove borrowed lines from every L1, L2 slice and victim cache. -/
def State.dropBorrowed (s : State) (id : Word) (line : Option Nat) : State :=
  let hit (x : Nat) : Bool := s.borrowedLine id line x
  { s with
    l2 := s.l2.filter fun x => !hit x.1
    mvc := s.mvc.filter fun x => !hit x.1
    cores := s.cores.map fun c => { c with l1 := c.l1.filter fun w => !hit (w.1 / 16), params := c.params.filter fun x => !hit x }
    owners := s.owners.filter fun o => !hit (o.1 / 16) }
/-- Dirty lines of a lease that L2 or the victim cache holds. -/
def State.dirtyBorrowed (s : State) (id : Word) (line : Option Nat) : Nat :=
  (s.l2 ++ s.mvc).countP fun x => x.2.dirty && s.borrowedLine id line x.1
/-- BACK_INVALIDATE_SNOOP: the line leaves every cache and its dirty data is returned; what it holds afterwards is the lender's, and free
here. Monitors on it fire and tries that read it conflict, for the write that the snoop announces, whatever the state of the lease (R333, R364). -/
def execBackInvalidateSnoop (lease : Word) (line : Nat) (s : State) : Result :=
  match s.leases.find? fun x => x.2.id == lease && x.2.borrowed with
  | none => .next (s.emit (.snoopAnswer lease line []))
  | some _ =>
    let phys := remoteBase + lease.toNat * 2 ^ 40 + 64 * line
    let data := if s.dirtyBorrowed lease (some line) == 0 then [] else s.bytes phys 64
    let lines := s.watched.filter fun x => s.borrowedLine lease (some line) x
    let r := s.freeBytes 64
    .next ((((((r.2.dropBorrowed lease (some line)).noteCode phys 64).setBytes phys r.1).mapCrews fun _ _ c => c.seeWrite 0 lines)).emit (.snoopAnswer lease line data))

end Sys2Proof.Machine
end

