-- ==== Sys2Proof/Machine/Latigo.lean ====
section
/-! DEFINITION. Latigo: leases granted, renewed, recalled and lost between parts, the fabric manager and its election, and the ports
(R12, R428 to R441). -/

namespace Sys2Proof.Machine
open Bits

/-! ### Messages (R431) -/

namespace Lm
def kind (v : BitVec 256) : Nat := field v 0 8
def uio (v : BitVec 256) : Bool := bit v 8
def epoch (v : BitVec 256) : BitVec 16 := v.extractLsb' 40 16
def dst (v : BitVec 256) : BitVec 12 := v.extractLsb' 56 12
def src (v : BitVec 256) : BitVec 12 := v.extractLsb' 68 12
def ngran (v : BitVec 256) : Nat := field v 80 16
def term (v : BitVec 256) : Nat := field v 96 32
def lease (v : BitVec 256) : Word := v.extractLsb' 128 32
def arg (v : BitVec 256) : Nat := field v 160 64
def sealed (v : BitVec 256) : Bool := v.extractLsb' 224 32 == crc32c (toBytes 28 v)
end Lm

/-- What a message carries besides its parties. -/
structure Body where
  kind : Nat
  lease : Word := 0
  term : Nat := 0
  ngran : Nat := 0
  uio : Bool := false
  arg : Nat := 0
  /-- The epoch, when it is not the current one (a CLAIM). -/
  epoch : Option (BitVec 16) := none
/-- Send a message. -/
def State.send (s : State) (dst : BitVec 12) (b : Body) : State :=
  let v : BitVec 256 := at_ 256 0 8 b.kind ||| at_ 256 8 1 b.uio.toNat ||| at_ 256 40 16 (b.epoch.getD s.latigo.fmEpoch).toNat |||
    at_ 256 56 12 dst.toNat ||| at_ 256 68 12 s.latigo.pbr.toNat ||| at_ 256 80 16 b.ngran ||| at_ 256 96 32 b.term |||
    at_ 256 128 32 b.lease.toNat ||| at_ 256 160 64 b.arg
  s.emit (.message (v ||| at_ 256 224 32 (crc32c (toBytes 28 v)).toNat))
/-- Send to every part that routing reaches. -/
def State.sendAll (s : State) (b : Body) : State := ((s.latigo.routes.map (·.1)).eraseDups).foldl (fun s d => s.send d b) s
/-! ### Commands (R432) -/

def State.updLatigo (s : State) (g : Latigo → Latigo) : State := { s with latigo := g s.latigo }
/-- The command at the head of the ring. -/
def State.latigoHead (s : State) : Option (BitVec 256) :=
  let r := s.latigo.cmd
  if r.pending then some (ofBytes 256 (s.iaBytes (r.entry r.cons 32) 32)) else none
/-- RESULT, then STATUS, then CONS; a ring that has been disabled meanwhile takes none of them (R6). What the command has begun goes on all the same,
and only its end is withheld (DESIGN CHOICE, log 83). -/
def State.endLatigo (s : State) (status result : Nat) : State :=
  let r := s.latigo.cmd
  let a := r.entry r.cons 32
  if !r.on then s.updLatigo fun l => { l with busy := false, request := none }
  else (((s.noteOwn a 32 false).iaWrite (a + 24) (toBytes 8 (BitVec.ofNat 64 result))).iaWrite (a + 1) [BitVec.ofNat 8 status]).updLatigo fun l =>
    { l with cmd := { l.cmd with cons := l.cmd.cons + 1 }, busy := false, request := none }
def cmdLease (c : BitVec 256) : Word := c.extractLsb' 160 32
/-- The head command when it has an OPC. -/
def State.headIs (s : State) (opc : Nat) : Option (BitVec 256) := s.latigoHead.filter fun c => field c 0 8 == opc
/-- End the head command when it is in progress and names a lease. Of a command whose ring is disabled when its end comes nothing is ended: `busy` stays,
and the ring waits once it is enabled again (DESIGN CHOICE, log 83). -/
def State.endFor (s : State) (opcs : List Nat) (id : Word) (status : Nat) : State :=
  match s.latigoHead with
  | some c => if s.latigo.busy && opcs.contains (field c 0 8) && cmdLease c == id then s.endLatigo status 0 else s
  | none => s
/-! ### Entries and granules (R428, R430, R433) -/

def State.lease (s : State) (i : Nat) : Lease := (Sparse.find? s.leases i).getD {}
/-- The lowest entry that is RELEASED. -/
def State.freeLease (s : State) : Option Nat := (List.range 4096).find? fun i => (s.lease i).st == .released
/-- Put a lease in an entry; the entry's generation stays with it. -/
def State.setLease (s : State) (i : Nat) (l : Lease) : State := { s with leases := Sparse.insert i { l with gen := (s.lease i).gen } s.leases }
/-- The next generation of an entry: 1 to 255 (R428). -/
def nextGen (g : Nat) : Nat := if g == 0 || 255 ≤ g then 1 else g + 1
/-- Granules of the pool that leases hold. -/
def State.granules (s : State) : List (Nat × Nat) :=
  (s.leases.filter fun x => x.2.st != .released && !x.2.borrowed).map fun x => (x.2.poolg, x.2.ngran)
/-- The lowest run of free granules. -/
def State.poolRun (s : State) (n : Nat) : Option Nat :=
  (List.range (s.pers.poolgr + 1)).find? fun g => 0 < n && g + n ≤ s.pers.poolgr && s.granules.all fun u => !overlap u.1 u.2 g n
/-- Expiry at a borrower, in ns, from the time of the request that a reply answers (R435). -/
def borrowerExpiry (sent term : Nat) : Nat := sent + (term - term / 1024) * 1000

/-! ### The end of a lease (R433 to R439) -/

/-- RECALLING is over at the lender: the extent is zeroed, its poison with it, and the entry is RELEASED (R434). -/
def State.zeroExtent (s : State) (l : Lease) : State :=
  let a := l.phys 0
  let lines := s.watchedAt a l.bytes
  { s with
    ck := { s.ck with lentUntil := (List.range l.ngran).foldl (fun m g => Sparse.insert (l.poolg + g) s.devTime.toNat m) s.ck.lentUntil }
    mem := s.mem.filter fun x => !(a ≤ x.1 && x.1 < a + l.bytes)
    poison := s.poison.filter fun x => !overlap (64 * x) 64 a l.bytes }.mapCrews fun _ _ c => c.seeWrite 0 lines
def State.finishRecall (s : State) (i : Nat) : State :=
  let l := s.lease i
  if l.st != .recalling || l.borrowed || !l.cached.isEmpty || !l.snoops.isEmpty || s.latigoWait.isSome then s
  else ((((s.zeroExtent l).toState i .released causeBiDone).send l.peer { kind := 9, lease := l.id, uio := l.uio }).updLease i fun l =>
    { l with notice := false }).endFor [4] l.id 1
/-- A lender's entry becomes RECALLING: snoops for every line that the borrower may cache, or none when it is gone (R434). -/
def State.recallLease (s : State) (i cause : Nat) (gone : Bool) : State :=
  let l := s.lease i
  let s := s.toState i .recalling cause
  let s := if gone then s.updLease i fun l => { l with cached := [], snoops := [], answers := [] }
    else
      let s := l.cached.foldl (fun s k => if l.snoops.any (·.1 == k) then s else s.emit (.snoop l.id k)) s
      s.updLease i fun l => { l with snoops := l.cached.map fun k =>
        (k, ((l.snoops.find? (·.1 == k)).map (·.2)).getD s.devTime.toNat) }
  s.finishRecall i
/-- Peer stores of a lease that leaves ACTIVE are ended (R443). -/
def State.endLeaseStores (s : State) (id : Word) : State := s.endStores causeLeaseLost (s.peerStores.filter fun p => p.lease == id && id != 0)
/-- An ACTIVE lease ends: at the borrower every cached line goes at once, dirty ones discarded and counted, and no access is made through it
any more; the transition, with its record, follows when the event ring does not stall it (R436, R438). -/
def State.loseLease (s : State) (i cause : Nat) : State :=
  let l := s.lease i
  if l.st != .active || l.due.isSome then s
  else if !l.borrowed then s.updLease i fun l => { l with due := some (cause, 0) }
  else (s.dropBorrowed l.id none).updLease i fun l => { l with due := some (cause, s.dirtyBorrowed l.id none) }
/-- A borrower hands a lease back: dirty lines are written back, every line is removed, and RELEASE is sent (R434). -/
def State.giveBack (s : State) (i cause : Nat) : State :=
  let l := s.lease i
  let s := ((s.l2 ++ s.mvc).filter fun x => s.borrowedLine l.id none x.1).foldl (fun s x => s.toTier x.1 x.2) s
  (((s.dropBorrowed l.id none).toState i .recalling cause).endLeaseStores l.id).send l.peer { kind := 8, lease := l.id, uio := l.uio }
/-- A message that arrived before a time still waits. -/
def Latigo.waiting (l : Latigo) (limit : Nat) (hit : BitVec 256 → Bool) : Bool := l.inbox.any fun m => m.1 < limit && hit m.2
/-- An OFFER that no ACCEPT has answered within 100 µs (R433). -/
def State.offerOver (s : State) (l : Lease) : Bool :=
  let limit := l.offeredAt + 100000
  !l.borrowed && l.st == .offered && decide (limit ≤ s.devTime.toNat) && !s.latigo.waiting limit fun v => Lm.kind v == 3 && Lm.lease v == l.id
/-- The grace period of a NOTICE is over, on an entry that is ACTIVE still (R433). -/
def State.graceOver (s : State) (l : Lease) : Bool := l.st == .active && l.due.isNone && l.notice && l.graceEnd ≤ s.devTime.toNat
/-- An entry leaves ACTIVE for RECALLING: at the lender by snoops, at the borrower by handing the extent back. -/
def State.endGrace (s : State) (i : Nat) : State :=
  if (s.lease i).borrowed then s.giveBack i causeRelease else s.recallLease i causeRelease false
/-- What an entry owes: its EXPIRY has passed, a transition that waited for the ring, an OFFER not taken up, the end of a grace period, or the end of
a recall (R433, R436). -/
def State.settleLease (s : State) (i : Nat) : State :=
  let s := if (s.lease i).expiry ≤ s.devTime.toNat then s.loseLease i causeExpired else s
  let l := s.lease i
  match l.due with
  | none =>
    if s.latigoWait.isSome then s
    else if s.offerOver l then s.toState i .released causeAcceptTimeout
    else if s.graceOver l then s.endGrace i
    else s.finishRecall i
  | some (cause, n) =>
    if s.latigoWait.isSome then s
    else
      let s := s.updLease i fun l => { l with due := none }
      if l.borrowed then ((s.toState i .released cause n).endLeaseStores l.id).endFor [2, 3] l.id 2
      else s.recallLease i cause (cause != causeExpired)
/-- The REQUEST outstanding has had no answer within 100 µs: it ends REFUSED with reason 5 (R432). -/
def State.requestTimer (s : State) : State :=
  match s.latigo.request with
  | none => s
  | some (peer, sent, _) =>
    let limit := sent + 100000
    if s.devTime.toNat < limit || s.latigoWait.isSome || s.latigo.waiting limit (fun v => (Lm.kind v == 2 || Lm.kind v == 4) && Lm.src v == peer) then s
    else s.endLatigo 2 5
/-- Every event that waits, every entry's transition, and the time limit of a REQUEST, as far as the ring allows. -/
def State.latigoSettle (s : State) : State := ((s.leases.map (·.1)).foldl State.settleLease s.flushEvents).requestTimer
/-- A step of the Latigo logic, unless its event ring stalls it (R436). -/
def State.latigoDo (s : State) (act : State → State) : State := let s := s.latigoSettle; (s.latigoWait).getD (act s)
/-- Leases that a test picks lose their other party, or the path to it (R433). -/
def State.partLeases (s : State) (hit : Lease → Bool) (cause : Nat) : State :=
  (((s.leases.filter fun x => hit x.2).map (·.1)).foldl (fun s i => s.loseLease i cause) s).latigoSettle
/-- Carry out the head command of an OPC, unless what the entries owe has ended it; a non-zero reserved bit is a reserved value. -/
def State.latigoCommand (s : State) (opc : Nat) (act : State → BitVec 256 → State) : Result :=
  if (s.headIs opc).isNone then .next s
  else .next (s.latigoDo fun s => match s.headIs opc with
    | none => s
    | some c => if !(isZero c 17 83) then s.endLatigo 2 0 else act s c)
/-- Take a message: discarded without reply unless its CHECK, its destination and its epoch are right (R431). -/
def State.takeMessage (s : State) (v : BitVec 256) (act : State → State) : State :=
  let free := Lm.kind v == 0x10 || Lm.kind v == 0x11 || Lm.kind v == 0x12
  if !Lm.sealed v || Lm.dst v != s.latigo.pbr || (!free && Lm.epoch v != s.latigo.fmEpoch) then s else act s
/-- Receive a message of a kind; it waits while the event ring stalls the Latigo logic, or behind one that waits (R436). -/
def State.receive (s : State) (kind : Nat) (v : BitVec 256) (act : State → State) : Result :=
  if Lm.kind v != kind then .next s
  else
    let s := s.latigoSettle
    if s.latigo.inbox.isEmpty && s.latigoWait.isNone then .next (s.takeMessage v act)
    else .next (s.updLatigo fun l => { l with inbox := l.inbox ++ [(s.devTime.toNat, v)] })

/-! ### Commands -/

/-- LEASE_REQUEST: REQ is sent; the command ends with the lender's answer, or after 100 µs (R432). -/
def execLeaseRequest (s : State) : Result := s.latigoCommand 1 fun s c =>
  if s.latigo.busy then s
  else if field c 112 16 == 0 then s.endLatigo 2 0
  else
    let peer : BitVec 12 := c.extractLsb' 100 12
    (s.send peer { kind := 1, term := field c 128 32, ngran := field c 112 16, uio := bit c 16 }).updLatigo fun l =>
      { l with busy := true, request := some (peer, s.devTime.toNat, bit c 16) }
/-- The entry that a command names, of a role and ACTIVE. -/
def State.named (s : State) (c : BitVec 256) (borrowed : Bool) : Option (Nat × Lease) :=
  (s.leaseAt (cmdLease c)).filter fun x => x.2.borrowed == borrowed && x.2.live s.devTime.toNat
/-- Send RENEW for a lease (R435). -/
def State.sendRenew (s : State) (i : Nat) : State :=
  let l := s.lease i
  (s.send l.peer { kind := 5, lease := l.id, term := l.term, ngran := l.ngran, uio := l.uio }).updLease i fun l =>
    { l with renewals := l.renewals ++ [s.devTime.toNat] }
/-- LEASE_RENEW. -/
def execLeaseRenew (s : State) : Result := s.latigoCommand 2 fun s c =>
  match s.named c true with
  | none => s.endLatigo 2 0
  | some (i, _) => if s.latigo.busy then s else (s.sendRenew i).updLatigo fun l => { l with busy := true }
/-- LEASE_RELEASE. -/
def execLeaseRelease (s : State) : Result := s.latigoCommand 3 fun s c =>
  if s.latigo.busy then s
  else match s.named c true with
    | none => s.endLatigo 2 0
    | some (i, _) => (s.updLatigo fun l => { l with busy := true }).giveBack i causeRelease
/-- LEASE_RECALL: NOTICE with its grace period (R433). -/
def execLeaseRecall (s : State) : Result := s.latigoCommand 4 fun s c =>
  if s.latigo.busy then s
  else match s.named c false with
    | none => s.endLatigo 2 0
    | some (i, l) =>
      let grace := field c 128 32
      if s.latigo.maxterm < grace then s.endLatigo 2 0
      else
        let s := (s.updLatigo fun l => { l with busy := true }).updLease i fun l =>
          { l with notice := true, graceEnd := s.devTime.toNat + 1000 * grace }
        (s.toState i .active causeNotice).send l.peer { kind := 7, lease := l.id, term := grace, uio := l.uio }
/-- LEASE_BAD_COMMAND. -/
def execLeaseBadCommand (s : State) : Result :=
  match s.latigoHead with
  | none => .next s
  | some c =>
    if 1 ≤ field c 0 8 && field c 0 8 ≤ 4 then .next s
    else .next (s.latigoDo fun s => if s.latigoHead == some c then s.endLatigo 2 0 else s)

/-! ### Messages of a lease (R433 to R435) -/

/-- REQ: the lender's answer. -/
def State.onReq (body : BitVec 256) (s : State) : State :=
  let src := Lm.src body
  let no (r : Nat) : State := s.send src { kind := 4, arg := r, uio := Lm.uio body }
  let permitted := bit ((Sparse.find? s.latigo.permit (src.toNat / 64)).getD 0) (src.toNat % 64)
  if !permitted then no 1
  else match s.poolRun (Lm.ngran body), s.freeLease with
    | none, _ => no 2
    | _, none => no 3
    | some g, some i =>
      let gen := nextGen (s.lease i).gen
      let term := min (Lm.term body) s.latigo.maxterm
      let id : Word := at_ 32 20 12 s.latigo.pbr.toNat ||| at_ 32 12 8 gen ||| at_ 32 0 12 i
      let l : Lease := { expiry := s.devTime.toNat + 1000 * term, id := id, term := term, poolg := g, ngran := Lm.ngran body, peer := src
                         uio := Lm.uio body, offeredAt := s.devTime.toNat, cause := causeGranted }
      let s := ((s.setLease i l).updLease i fun l => { l with gen := gen }).toState i .offered causeGranted
      s.send src { kind := 2, lease := id, term := term, ngran := Lm.ngran body, uio := Lm.uio body, arg := g }
/-- OFFER: taken up when it answers the REQ outstanding, else answered with RELEASE. Bytes of the extent are zero, as the lender has left
them (R434). -/
def State.onOffer (body : BitVec 256) (s : State) : State :=
  let src := Lm.src body
  let id := Lm.lease body
  let back : State := s.send src { kind := 8, lease := id, uio := Lm.uio body }
  -- the entry that has held the identifier before is taken again, so that no two hold it
  let held := s.leases.find? fun x => x.2.id == id && x.2.borrowed
  let entry := match held with | some x => if x.2.st == .released then some x.1 else none | none => s.freeLease
  match s.latigo.request, entry with
  | some (peer, sent, _), some i =>
    if peer != src then back
    else
      let l : Lease := { expiry := borrowerExpiry sent (Lm.term body), id := id, term := Lm.term body, poolg := Lm.arg body % 4096
                         ngran := Lm.ngran body, peer := src, uio := Lm.uio body, borrowed := true }
      let a := remoteBase + id.toNat * 2 ^ 40
      let s : State := { s.setLease i l with mem := s.mem.filter fun x => !(a ≤ x.1 && x.1 < a + 2 ^ 40) }
      ((s.toState i .active causeGranted).send src { kind := 3, lease := id, uio := Lm.uio body }).endLatigo 1 id.toNat
  | _, _ => back
/-- ACCEPT. -/
def State.onAccept (body : BitVec 256) (s : State) : State :=
  match s.leaseAt (Lm.lease body) with
  | some (i, l) => if !l.borrowed && l.st == .offered && l.peer == Lm.src body then s.toState i .active causeGranted else s
  | none => s
/-- REFUSE ends the REQUEST with its reason. -/
def State.onRefuse (body : BitVec 256) (s : State) : State :=
  match s.latigo.request with
  | some (peer, _, _) => if peer == Lm.src body then s.endLatigo 2 (Lm.arg body % 256) else s
  | none => s
/-- RENEW: a fresh term, cut to the grace deadline while a notice is out (R435). -/
def State.onRenew (body : BitVec 256) (s : State) : State :=
  match s.leaseAt (Lm.lease body) with
  | some (i, l) =>
    if l.borrowed || !l.live s.devTime.toNat || l.peer != Lm.src body then s
    else
      let term := min (Lm.term body) s.latigo.maxterm
      let term := if l.notice then min term ((l.graceEnd - s.devTime.toNat) / 1000) else term
      let s := s.updLease i fun l => { l with term := term, expiry := s.devTime.toNat + 1000 * term }
      (s.toState i .active causeRenewed).send l.peer { kind := 6, lease := l.id, term := term, uio := l.uio }
  | none => s
/-- RENEWED: it answers the oldest RENEW; after the entry has left ACTIVE it is discarded. -/
def State.onRenewed (body : BitVec 256) (s : State) : State :=
  match s.leaseAt (Lm.lease body) with
  | some (i, l) =>
    match l.renewals with
    | [] => s
    | t :: r =>
      if !l.borrowed || !l.live s.devTime.toNat || l.peer != Lm.src body then s
      else
        let s := s.updLease i fun l => { l with term := Lm.term body, expiry := borrowerExpiry t (Lm.term body), renewals := r }
        (s.toState i .active causeRenewed).endFor [2] l.id 1
  | none => s
/-- NOTICE. -/
def State.onNotice (body : BitVec 256) (s : State) : State :=
  match s.leaseAt (Lm.lease body) with
  | some (i, l) =>
    if !l.borrowed || !l.live s.devTime.toNat || l.peer != Lm.src body then s
    else (s.updLease i fun l => { l with notice := true, graceEnd := s.devTime.toNat + 1000 * Lm.term body }).toState i .active causeNotice
  | none => s
/-- RELEASE, at the lender (R433). -/
def State.onRelease (body : BitVec 256) (s : State) : State :=
  match s.leaseAt (Lm.lease body) with
  | some (i, l) => if l.borrowed || !l.live s.devTime.toNat || l.peer != Lm.src body then s else s.recallLease i causeRelease false
  | none => s
/-- RELEASED, at the borrower. -/
def State.onReleased (body : BitVec 256) (s : State) : State :=
  match s.leaseAt (Lm.lease body) with
  | some (i, l) =>
    if !l.borrowed || l.st != .recalling || l.peer != Lm.src body then s
    else ((s.toState i .released causeBiDone).updLease i fun l => { l with notice := false }).endFor [3] l.id 1
  | none => s
/-- A snoop has been answered, or counts as answered, and any dirty data has been written. -/
def State.snoopDone (s : State) (i line : Nat) : State :=
  (s.updLease i fun l => { l with
    snoops := l.snoops.filter (·.1 != line), cached := l.cached.filter (· != line), answers := l.answers.filter (·.1 != line) }).finishRecall i
/-- The data of an answer is written, or waits while a matrix lock holds its line (R291). -/
def State.landAnswer (s : State) (i : Nat) (x : Nat × List Byte) : State :=
  let l := s.lease i
  let a := l.phys (64 * x.1)
  if x.2.isEmpty then s.snoopDone i x.1
  else if s.physLocked a 64 then (if l.answers.contains x then s else s.updLease i fun l => { l with answers := l.answers ++ [x] })
  else (s.physWrite a x.2).snoopDone i x.1
/-- Answers that have waited. -/
def State.serveAnswers (s : State) : State :=
  s.leases.foldl (fun s e => e.2.answers.foldl (fun s x => s.landAnswer e.1 x) s) s
/-- BISNP_RESPONSE: dirty data is written, and the recall goes on when every answer is in (R434). -/
def execBisnpResponse (lease : Word) (line : Nat) (dirty : List Byte) (s : State) : Result :=
  match s.leaseAt lease with
  | none => .next s
  | some (i, l) =>
    if l.borrowed || !l.snoops.any (·.1 == line) || l.answers.any (·.1 == line) then .next s else .next (s.landAnswer i (line, dirty.take 64))
/-- BISNP_TIMEOUT: no answer within 1 ms counts as an answer with no data. -/
def execBisnpTimeout (lease : Word) (line : Nat) (s : State) : Result :=
  match s.leaseAt lease with
  | none => .next s
  | some (i, l) =>
    if l.answers.any (·.1 == line) || !l.snoops.any fun x => x.1 == line && x.2 + 1000000 ≤ s.devTime.toNat then .next s
    else .next (s.snoopDone i line)

/-! ### Timers of leases (R432, R433, R435) -/

/-- A timer of an entry, once its time has come; it waits while the event ring stalls the Latigo logic (R436). -/
def State.leaseTimer (s : State) (i : Nat) (due : Lease → Nat → Bool) (act : State → Lease → State) : State :=
  if due (s.lease i) s.devTime.toNat then
    s.latigoDo fun s => if due (s.lease i) s.devTime.toNat then act s (s.lease i) else s
  else s
/-- REQUEST_NO_ANSWER: reason 5. -/
def execRequestNoAnswer (s : State) : Result :=
  match s.latigo.request with
  | some (_, sent, _) => .next (if sent + 100000 ≤ s.devTime.toNat then s.latigoSettle else s)
  | none => .next s
/-- LEASE_EXPIRY: the loss takes effect at once, and the transition when the event ring takes its record. -/
def execLeaseExpiry (entry : Nat) (s : State) : Result := .next (s.flushEvents.settleLease entry)
/-- A renewal, when less than a quarter of the term remains, and again every sixteenth without a reply. -/
def State.renewTimer (s : State) (entry : Nat) : State :=
  s.leaseTimer entry (fun l t => l.borrowed && l.live t && l.expiry < t + 250 * l.term &&
    (match l.renewals.getLast? with | some x => x + 1000 * l.term / 16 ≤ t | none => true)) fun s _ => s.sendRenew entry

/-- OFFER_TIMEOUT. -/
def execOfferTimeout (entry : Nat) (s : State) : Result := .next (if s.offerOver (s.lease entry) then s.latigoSettle else s)
/-- GRACE_PERIOD_END. -/
def execGracePeriodEnd (entry : Nat) (s : State) : Result := .next (if s.graceOver (s.lease entry) then s.latigoSettle else s)
/-- RENEW_TIMER. -/
def execRenewTimer (entry : Nat) (s : State) : Result := .next (s.renewTimer entry)
/-- Every renewal that is due. -/
def State.leaseTimers (s : State) : State := (s.leases.map (·.1)).foldl State.renewTimer s

/-! ### The fabric manager (R439 to R441) -/

/-- Parts that routing reaches. -/
def Latigo.reach (l : Latigo) : List (BitVec 12) := (l.routes.map (·.1)).eraseDups
/-- One bid ranks above another: higher priority first, then lower PBR ID. -/
def outranks (p : Nat) (a : BitVec 12) (q : Nat) (b : BitVec 12) : Bool := q < p || (p == q && a.toNat < b.toNat)
/-- A DEPART about a part (R433, R439): a loss is not held up by the event ring (R436). -/
def State.departed (s : State) (p : BitVec 12) : State := s.partLeases (fun l => p == s.latigo.pbr || l.peer == p) causeDeparted
/-- ALIVE, at the fabric manager: a part it has declared departed is told so, and counts as alive (R441). -/
def State.onAlive (body : BitVec 256) (s : State) : State :=
  if !s.latigo.isFm then s
  else
    let p := Lm.src body
    let s := if s.latigo.departed.contains p.toNat then s.send p { kind := 0x13, arg := p.toNat } else s
    s.updLatigo fun l => { l with departed := l.departed.filter (· != p.toNat), heard := Sparse.insert p.toNat s.devTime.toNat l.heard }
/-- ANNOUNCE: accepted when it ranks above the current fabric manager, by epoch and then by bid (R440). -/
def State.onAnnounce (body : BitVec 256) (s : State) : State :=
  let l := s.latigo
  let e := Lm.epoch body
  let p := Lm.arg body % 256
  let above := !l.fmValid || l.fmEpoch.toNat < e.toNat || (e == l.fmEpoch && outranks p (Lm.src body) l.fmPri.toNat l.fmPbr)
  s.updLatigo fun l =>
    if above then
      { l with
        fmPbr := Lm.src body, fmValid := true, fmEpoch := e, fmPri := BitVec.ofNat 8 p, isFm := false, claim := none
        lastAnnounce := s.devTime.toNat }
    else if e == l.fmEpoch && !l.isFm then { l with lastAnnounce := s.devTime.toNat } else l
/-- CLAIM: a candidate that hears a higher bid withdraws (R440). -/
def State.onClaim (body : BitVec 256) (s : State) : State :=
  match s.latigo.claim with
  | some (e, _) =>
    if e.toNat ≤ (Lm.epoch body).toNat && outranks (Lm.arg body % 256) (Lm.src body) s.pers.candPri.toNat s.latigo.pbr then
      s.updLatigo fun l => { l with claim := none, lastAnnounce := s.devTime.toNat }
    else s
  | none => s
/-- DEPART. -/
def State.onDepart (body : BitVec 256) (s : State) : State := s.departed (BitVec.ofNat 12 (Lm.arg body))
/-- A message by its kind; one of another kind is discarded (R431). -/
def State.onMessage (body : BitVec 256) (s : State) : State :=
  match Lm.kind body with
  | 1 => s.onReq body | 2 => s.onOffer body | 3 => s.onAccept body | 4 => s.onRefuse body | 5 => s.onRenew body | 6 => s.onRenewed body
  | 7 => s.onNotice body | 8 => s.onRelease body | 9 => s.onReleased body | 0x10 => s.onAlive body | 0x11 => s.onAnnounce body
  | 0x12 => s.onClaim body | 0x13 => s.onDepart body
  | _ => s
/-- The Latigo logic goes on: what its entries owe, their timers, and then a message that has waited. -/
def State.serveInbox (s : State) : State :=
  let s := s.latigoSettle.leaseTimers
  match s.latigo.inbox, s.latigoWait with
  | [], _ => s
  | _, some t => t
  | v :: r, none => (s.updLatigo fun l => { l with inbox := r }).takeMessage v.2 (State.onMessage v.2)
/-- REQ. -/
def execReq (body : BitVec 256) (s : State) : Result := s.receive 1 body (State.onReq body)
/-- OFFER. -/
def execOffer (body : BitVec 256) (s : State) : Result := s.receive 2 body (State.onOffer body)
/-- ACCEPT. -/
def execAccept (body : BitVec 256) (s : State) : Result := s.receive 3 body (State.onAccept body)
/-- REFUSE. -/
def execRefuse (body : BitVec 256) (s : State) : Result := s.receive 4 body (State.onRefuse body)
/-- RENEW. -/
def execRenew (body : BitVec 256) (s : State) : Result := s.receive 5 body (State.onRenew body)
/-- RENEWED. -/
def execRenewed (body : BitVec 256) (s : State) : Result := s.receive 6 body (State.onRenewed body)
/-- NOTICE. -/
def execNotice (body : BitVec 256) (s : State) : Result := s.receive 7 body (State.onNotice body)
/-- RELEASE. -/
def execRelease (body : BitVec 256) (s : State) : Result := s.receive 8 body (State.onRelease body)
/-- RELEASED. -/
def execReleased (body : BitVec 256) (s : State) : Result := s.receive 9 body (State.onReleased body)
/-- ALIVE. -/
def execAlive (body : BitVec 256) (s : State) : Result := s.receive 0x10 body (State.onAlive body)
/-- ANNOUNCE. -/
def execAnnounce (body : BitVec 256) (s : State) : Result := s.receive 0x11 body (State.onAnnounce body)
/-- CLAIM. -/
def execClaim (body : BitVec 256) (s : State) : Result := s.receive 0x12 body (State.onClaim body)
/-- DEPART. The loss does not wait for the event ring. -/
def execDepart (body : BitVec 256) (s : State) : Result :=
  if Lm.kind body != 0x13 then .next s else .next (s.takeMessage body (State.onDepart body))
/-- ALIVE_TIMER: every 100 µs, to the fabric manager. -/
def execAliveTimer (s : State) : Result :=
  let l := s.latigo
  if !l.fmValid || l.isFm || s.devTime.toNat < l.lastAlive + 100000 then .next s
  else .next (s.latigoDo fun s => (s.send s.latigo.fmPbr { kind := 0x10 }).updLatigo fun l => { l with lastAlive := s.devTime.toNat })
/-- ANNOUNCE_TIMER: the fabric manager's, every 100 µs. -/
def execAnnounceTimer (s : State) : Result :=
  let l := s.latigo
  if !l.isFm || s.devTime.toNat < l.lastAnnounce + 100000 then .next s
  else .next (s.latigoDo fun s =>
    (s.sendAll { kind := 0x11, arg := s.latigo.fmPri.toNat }).updLatigo fun l => { l with lastAnnounce := s.devTime.toNat })
/-- ANNOUNCE_ABSENCE: 1 ms without an ANNOUNCE, and a candidate bids for the next epoch. -/
def execAnnounceAbsence (s : State) : Result :=
  let l := s.latigo
  if !s.pers.cand || l.isFm || l.claim.isSome || s.devTime.toNat < l.lastAnnounce + 1000000 then .next s
  else .next (s.latigoDo fun s =>
    (s.sendAll { kind := 0x12, arg := s.pers.candPri.toNat, epoch := some (s.latigo.fmEpoch + 1) }).updLatigo fun l =>
      { l with claim := some (l.fmEpoch + 1, s.devTime.toNat) })
/-- The fabric manager programs routing: one Fabric Manager API command to each part that its own routing reaches. When it does so, and with
which routes, is the part's to choose (DESIGN CHOICE, log 24). -/
def State.programRoutes (s : State) : State :=
  s.latigo.reach.foldl (fun s p => s.emit (.fmApi p (Config.fmRoutes s.latigo.routes p.toNat))) s
/-- ELECTION_WIN: 200 µs without a higher bid; the manager starts with no departures, its counts begin now, and it programs routing. -/
def execElectionWin (s : State) : Result :=
  match s.latigo.claim with
  | some (e, t) =>
    if s.devTime.toNat < t + 200000 then .next s
    else .next (s.latigoDo fun s =>
      let s := s.updLatigo fun l => { l with
        isFm := true, fmPbr := l.pbr, fmValid := true, fmEpoch := e, fmPri := s.pers.candPri, claim := none, departed := [], lists := []
        lastAnnounce := s.devTime.toNat
        heard := l.reach.foldl (fun h p => if p == l.pbr then h else Sparse.insert p.toNat s.devTime.toNat h) [] }
      s.programRoutes.sendAll { kind := 0x11, arg := s.latigo.fmPri.toNat })
  | none => .next s
/-- ALIVE_TIMEOUT: 1 ms without an ALIVE, and the manager sends DEPART to every part, the departed one included (R441). -/
def execAliveTimeout (party : BitVec 12) (s : State) : Result :=
  match Sparse.find? s.latigo.heard party.toNat with
  | some t =>
    if !s.latigo.isFm || s.latigo.departed.contains party.toNat || s.devTime.toNat < t + 1000000 then .next s
    else .next (s.latigoDo fun s =>
      ((s.sendAll { kind := 0x13, arg := party.toNat }).updLatigo fun l => { l with departed := party.toNat :: l.departed }).departed party)
  | none => .next s

/-! ### Ports and routing (R12, R433, R441) -/

/-- Set a link of a port: a half when the port is bifurcated, else both halves. -/
def State.setPort (s : State) (port half : Nat) (up : Bool) : State :=
  if s.pers.bifurcated.getLsbD port then { s with ports := s.ports.set (2 * port + half) up }
  else { s with ports := (s.ports.set (2 * port) up).set (2 * port + 1) up }
/-- A part has lost its last path. -/
def State.cutOff (s : State) (p : BitVec 12) : Bool :=
  s.latigo.routes.any (·.1 == p) && s.latigo.routes.all fun r => r.1 != p || !((s.ports[r.2]?).getD false)
/-- PORT_LINK_DOWN: leases with the parts that it cuts off end (R433). -/
def execPortLinkDown (port half : Nat) (s : State) : Result :=
  if 12 ≤ port || 2 ≤ half || !((s.ports[2 * port + half]?).getD false) then .next s
  else
    let s := s.setPort port half false
    .next (s.flushEvents.partLeases (fun l => s.cutOff l.peer) causeLinkDown)
/-- PORT_LINK_RESET: the link trains, or stays down until the next reset (R12). -/
def execPortLinkReset (port half : Nat) (trains : Bool) (s : State) : Result :=
  if 12 ≤ port || 2 ≤ half || s.boot != .up then .next s
  else
    let s := s.setPort port half trains
    .next (if trains then s else s.flushEvents.partLeases (fun l => s.cutOff l.peer) causeLinkDown)
/-- FM_API_COMMAND: the fabric manager programs this part's PBR ID and its routing (R427, R429, R441). -/
def execFmApiCommand (pbr : BitVec 12) (routes : List (BitVec 12 × Nat)) (s : State) : Result :=
  .next (s.updLatigo fun l => { l with pbr := pbr, routes := routes })

end Sys2Proof.Machine
end

