-- ==== Sys2Proof/Machine/Checkpoint.lean ====
section
/-! DEFINITION. The checkpoint engine: quiesce, the writing and reading of a step on the safe tier, and resuming (R451 to R459). -/

namespace Sys2Proof.Machine
open Bits

def State.updCk (s : State) (g : Checkpoint → Checkpoint) : State := { s with ck := g s.ck }
/-- A command is accepted in the states that R452 gives it, when CKCMD is written; CLEAR only after a failed QUIESCE or SNAP. -/
def State.ckAccepts (s : State) (opc : Nat) : Bool :=
  let st := s.ck.st
  match opc with
  | 1 => st == .running
  | 2 => st == .quiesced || st == .written
  | 3 => st == .quiesced || st == .written || st == .loaded
  | 4 => st == .running && (List.range 64).all fun c => !s.inUse c
  | 5 => st == .failed && !s.ck.afterLoad
  | _ => false
/-- A write to CKCMD: the command is accepted, or ignored, and so is one while another has been accepted and not yet taken up (R452). INCR is that of
a SNAP. -/
def State.ckWrite (s : State) (v : DWord) : State :=
  if s.ck.cmd != 0 || !s.ckAccepts (field v 0 8) then s
  else s.updCk fun c => { c with cmd := v.extractLsb' 0 8, incr := if field v 0 8 == 2 then bit v 8 else c.incr }
/-- The engine takes up the command that has been accepted. -/
def State.ckCommand (s : State) (opc : BitVec 8) (act : State → State) : Result :=
  .next (if s.ck.cmd == opc then act (s.updCk fun c => { c with cmd := 0 }) else s)
/-- The engine ends a command FAILED. -/
def State.ckFail (s : State) (err : BitVec 8) (shard : Word) (afterLoad : Bool) : State :=
  s.updCk fun c => { c with st := .failed, err := err, shard := shard, afterLoad := afterLoad, still := false }

/-! ### QUIESCE (R453) -/

/-- Tasks that are placed or saved: each has an image of R410. -/
def State.imaged (s : State) : List Task := s.tasks.filter s.liveFor
/-- Bytes of the images of tasks. -/
def imageBytes (l : List Task) : Nat := l.foldl (fun n t => n + t.rec_.imageSize) 0
/-- QUIESCE. -/
def execQuiesce (s : State) : Result := s.ckCommand 1 fun s =>
  if s.ck.arealen.toNat < imageBytes s.imaged then s.ckFail 7 0 false
  else s.updCk fun c => { c with st := .quiescing, err := 0, shard := 0, still := false }
/-- Save the placed tasks of a list, one image after another; false when one must be waited for. -/
def State.quiesceTasks : List Task → Nat → State → Bool × State
  | [], _, s => (true, s)
  | t :: r, at_, s => match s.saveTask t.uid 1 at_ with
    | (false, s) => (false, s)
    | (true, s) => State.quiesceTasks r (at_ + t.rec_.imageSize) (s.updTask t.uid fun t => { t with quiesced := true })
/-- Where the next image of the quiesce goes. -/
def State.nextImage (s : State) : Nat := s.ck.area + imageBytes (s.tasks.filter (·.quiesced))
/-- Work of step 3: running rings, PUTs, and tasks that wait for peer stores (R447, R453). -/
def State.ckBusy (s : State) : Bool :=
  s.rings.any (fun r => r.st == .running) ||
  s.ops.any (fun o => o.cls == 1) ||
  s.tasks.any fun t => t.phase == .waitPeer || (t.phase == .placed && !s.liveFor t)
/-- Every line of L2 and the victim cache is written to its tier, those of borrowed leases to their lenders. -/
def State.cleanLines (s : State) : State :=
  let clean (l : List (Nat × CacheLine)) : List (Nat × CacheLine) := l.map fun x => (x.1, { x.2 with dirty := false })
  { (s.l2 ++ s.mvc).foldl (fun s x => s.toTier x.1 x.2) s with
    l2 := clean s.l2
    mvc := clean s.mvc }
/-- QUIESCE_COMPLETE: compaction ends, tasks are saved, rings and PUTs drain, translation commands and expansions in progress complete, and dirty
lines reach their tiers; each must be over before the next. Swaps are performed at one moment, so none is in progress. -/
def execQuiesceComplete (s : State) : Result :=
  if s.ck.st != .quiescing || s.cores.any (·.compacting) then .next s
  else
    let r := State.quiesceTasks (s.imaged.filter fun t => t.phase == .placed) s.nextImage s
    if !r.1 || r.2.ckBusy then .next r.2
    else
      let s := r.2.updCk fun c => { c with still := true }
      if s.mtus.any (!·.expanding.isEmpty) then .next s else .next (s.cleanLines.updCk fun c => { c with st := .quiesced })

/-! ### The checkpoint space (R454) -/

/-- The regions of the checkpoint space. -/
inductive Region where
  | state | member | pool | zone
  deriving DecidableEq, Repr
/-- SKIND of a region's shards. -/
def Region.code : Region → Nat
  | .state => 0 | .member => 1 | .pool => 2 | .zone => 3
/-- The physical addresses of a region's 64 KiB frames, in the order of the checkpoint space: members by DFN, pool granules in order, and the zone
entries in use in ascending order (DESIGN CHOICE, log 23: R454 gives the zone's used part no order). -/
def State.frames (s : State) : Region → List Nat
  | .state => []
  | .member => (List.range 8).flatMap fun k => (List.range (4 * Config.groupsOf s.pers.poolgr)).map fun f => (k * 2 ^ 22 + f) * 65536
  | .pool => (List.range (s.pers.poolgr * 4096)).map fun p => poolBase + p * 65536
  | .zone => (s.zone.mergeSort).map fun z => zoneBase + z * 65536
/-- One shard: its region and the frames it holds, none for the state. -/
structure ShardPlan where
  kind : Region
  frames : List Nat
  deriving DecidableEq, Repr
/-- Frames of a region cut into shards of 64 MiB; the last may be shorter. -/
def cutShards (kind : Region) (l : List Nat) : List ShardPlan :=
  (List.range ((l.length + 1023) / 1024)).map fun j => { kind := kind, frames := (l.drop (1024 * j)).take 1024 }
/-- The shards of the checkpoint space; shard 0 is the state. -/
def State.shards (s : State) : List ShardPlan :=
  { kind := .state, frames := [] } :: (cutShards .member (s.frames .member) ++ cutShards .pool (s.frames .pool) ++ cutShards .zone (s.frames .zone))
/-- The data of a shard; `image` is that of the state, of at most 64 MiB. -/
def State.shardData (s : State) (image : List Byte) (p : ShardPlan) : List Byte :=
  match p.kind with
  | .state => image.take (2 ^ 26)
  | _ => p.frames.flatMap fun a => s.bytes a 65536
/-- The poisoned lines of a shard, numbered in it. -/
def State.shardPoison (s : State) (p : ShardPlan) : List Nat :=
  p.frames.zipIdx.flatMap fun a => (s.poison.filter fun l => a.1 ≤ 64 * l && 64 * l < a.1 + 65536).map fun l => l - a.1 / 64 + 1024 * a.2
/-- Where shard k stands in a region of the safe tier (R455). -/
def shardAt (target : DWord) (k : Nat) : Nat := target.toNat + 2 ^ 22 + k * (2 ^ 26 + 4096)
/-- The fields that a shard header and a manifest entry share (R455, R456). -/
def ckCommon (digest : BitVec 256) (step : DWord) (length k kind : Nat) : BitVec 512 :=
  at_ 512 256 256 digest.toNat ||| at_ 512 192 64 step.toNat ||| at_ 512 96 32 length ||| at_ 512 64 32 k ||| at_ 512 8 8 kind ||| at_ 512 0 8 1
/-- A shard header (R455). -/
def Checkpoint.shardHead (c : Checkpoint) (digest : BitVec 256) (length k kind : Nat) : BitVec 512 :=
  ckCommon digest c.step length k kind ||| at_ 512 160 32 c.job.toNat ||| at_ 512 152 8 c.dev.toNat
/-- A manifest entry of a shard that this SNAP writes (R456). -/
def Checkpoint.entry (c : Checkpoint) (digest : BitVec 256) (offset length k kind : Nat) : BitVec 512 :=
  ckCommon digest c.step length k kind ||| at_ 512 128 64 offset
/-- DIGEST of a manifest: over header bytes 0x00 to 0x1F and every entry. -/
def manifestDigest (head : BitVec 512) (entries : List (BitVec 512)) : BitVec 256 :=
  Config.shake256 (toBytes 32 head ++ entries.flatMap (toBytes 64))
/-- A manifest header (R456). -/
def State.manifestHead (s : State) (entries : List (BitVec 512)) : BitVec 512 :=
  let c := s.ck
  let h : BitVec 512 := at_ 512 192 64 c.step.toNat ||| at_ 512 160 32 c.job.toNat ||| at_ 512 128 32 entries.length ||| at_ 512 120 8 c.dev.toNat |||
    at_ 512 112 8 c.ndev.toNat ||| at_ 512 104 8 s.pers.zc ||| at_ 512 92 12 s.pers.poolgr ||| at_ 512 80 8 Config.impRev.toNat |||
    at_ 512 8 1 c.incr.toNat ||| at_ 512 0 8 1
  h ||| at_ 512 256 256 (manifestDigest h entries).toNat
/-- The manifest at an address of the safe tier. -/
def State.manifestAt (s : State) (a : Nat) : Option (BitVec 512 × List (BitVec 512)) :=
  match Sparse.find? s.safeTier a with
  | some (.manifest h l) => some (h, l)
  | _ => none
/-- The shard at an address of the safe tier. -/
def State.storedShard (s : State) (a : Nat) : Option Shard :=
  match Sparse.find? s.safeTier a with
  | some (.shard x) => some x
  | _ => none

/-! ### SNAP (R454 to R456) -/

/-- SNAP. -/
def execSnap (s : State) : Result := s.ckCommand 2 fun s => s.updCk fun c => { c with st := .writing, err := 0, shard := 0 }
/-- What the state shard holds (R454). -/
def State.saveStep (s : State) : Snap :=
  { zone := s.zone, heat := s.heat, pageBits := s.pageBits, mtus := s.mtus, contexts := s.contexts, pages := s.pages, subs := s.subs
    qsb := s.qsb, queues := s.queues, services := s.services, requests := s.requests, inval := s.inval, latigo := s.latigo
    leases := s.leases, rings := s.rings, eligible := s.eligible, pool := s.pool, held := s.held, tasks := s.tasks, ops := s.ops
    records := s.records, profQueue := s.profQueue }
/-- Frames that a LOCAL entry with DIRTY = 1 maps. -/
def State.dirtyFrames (s : State) : List Nat :=
  (List.range 8).flatMap fun k => (s.mtu k).pages.filterMap fun p =>
    let e := s.pte ((k * 2 ^ 33 + p) * 65536)
    if field e 61 3 == 1 && bit e 59 then some (field e 0 25 * 65536) else none
/-- A granule of the pool has been lent since a step: it is lent now, or a lease over it has ended since; so has each when the part has not taken
or loaded that step itself. -/
def State.lentSince (s : State) (step : DWord) (g : Nat) : Bool :=
  match s.ck.snapAt.find? (·.1 == step) with
  | none => true
  | some x => (s.leases.any fun l => l.2.st != .released && !l.2.borrowed && l.2.poolg ≤ g && g < l.2.poolg + l.2.ngran) ||
      (Sparse.find? s.ck.lentUntil g).any fun t => decide (x.2 ≤ t)
/-- The manifest of the base step, for INCR. -/
def State.baseStep (s : State) : Option (BitVec 512 × List (BitVec 512)) := if s.ck.incr then s.manifestAt s.ck.base.toNat else none
/-- The entry of shard k in a manifest. -/
def entryOf (l : List (BitVec 512)) (k : Nat) : Option (BitVec 512) := l.find? fun e => field e 64 32 == k
/-- The entry that stands for a shard which this SNAP does not write: with INCR = 1, that of the base step for a memory shard that holds nothing
changed since. Without a base manifest, or its entry, the shard is written (DESIGN CHOICE, log 23). -/
def State.oldEntry (s : State) (k : Nat) (p : ShardPlan) : Option (BitVec 512) :=
  match s.baseStep with
  | none => none
  | some m =>
    let changed : Bool := match p.kind with
      | .state | .zone => true
      | .member => p.frames.any s.dirtyFrames.contains
      | .pool => p.frames.any fun a => s.lentSince (m.1.extractLsb' 192 64) ((a - poolBase) / 2 ^ 28)
    if changed then none else entryOf m.2 k
/-- The bytes of each shard before shard k. -/
def State.spaceBefore (s : State) (image : List Byte) (k : Nat) : Nat :=
  (s.shards.take k).foldl (fun n p => n + (match p.kind with | .state => (image.take (2 ^ 26)).length | _ => 65536 * p.frames.length)) 0
/-- Write the shards of a list, in their order: the entries, and the bytes written. -/
def State.writeShards (image : List Byte) : List (ShardPlan × Nat) → State → State × List (BitVec 512) × Nat
  | [], s => (s, [], 0)
  | (p, k) :: r, s =>
    match s.oldEntry k p with
    | some e => let x := State.writeShards image r s; (x.1, e :: x.2.1, x.2.2)
    | none =>
      let data := s.shardData image p
      let digest := Config.shake256 data
      let head := s.ck.shardHead digest data.length k p.kind.code
      let shard : Shard := { head := head, data := data, poison := s.shardPoison p, hub := if p.kind == .state then some s.saveStep else none }
      let e := s.ck.entry digest (s.spaceBefore image k) data.length k p.kind.code
      let x := State.writeShards image r { s with safeTier := Sparse.insert (shardAt s.ck.target k) (.shard shard) s.safeTier }
      (x.1, e :: x.2.1, x.2.2 + 4096 + data.length)
/-- Clear DIRTY of a page whose shard was written: LOCAL, COMPRESSED, or of the pool lent to this part itself. -/
def State.cleanPage (s : State) (written : Nat → Bool) (page : Nat) : State :=
  let ia := page * 65536
  let e := s.pte ia
  let at_ : Option Nat := match field e 61 3 with
    | 1 => some (field e 0 25 * 65536)
    | 2 => some (zonePhys (page / 2 ^ 33) (field e 0 24))
    | 3 => (match s.place ia with | .ok p => if p.phys < remoteBase then some (p.phys - p.phys % 65536) else none | .error _ => none)
    | _ => none
  if at_.any written then s.setPageBits ia (field e 58 3 &&& 5) else s
def State.cleanPages (s : State) (written : Nat → Bool) : State :=
  (List.range 8).foldl (fun s k => (s.mtu k).pages.foldl (fun s p => s.cleanPage written (k * 2 ^ 33 + p)) s) s
/-- SNAP_COMPLETE: the shards are written in their order, and the manifest last. `failed` is the index of the shard whose write the safe tier has
refused, or any index beyond them for the manifest: the shards before it have been written, and DIRTY stays as it is (DESIGN CHOICE, log 23). -/
def execSnapComplete (failed : Option Word) (s : State) : Result :=
  if s.ck.st != .writing then .next s
  else
    let image := Config.stateImage s.free
    let plan := s.shards.zipIdx
    let kept := fun (k : Nat) => failed.all fun f => decide (k < f.toNat)
    let r := State.writeShards image (plan.filter fun x => kept x.2) { s with free := s.free + 1 }
    match failed with
    | some f => .next ((r.1.ckFail 6 f false).updCk fun c => { c with bytes := BitVec.ofNat 64 r.2.2 })
    | none =>
      let written (a : Nat) : Bool := plan.any fun x => (s.oldEntry x.2 x.1).isNone && x.1.frames.contains a
      let t : State := { r.1 with safeTier := Sparse.insert s.ck.target.toNat (.manifest (s.manifestHead r.2.1) r.2.1) r.1.safeTier }
      .next (((t.cleanPages written).emit (.safeTier s.ck.target 1)).updCk fun c => { c with
        st := .written, bytes := BitVec.ofNat 64 (r.2.2 + 2 ^ 22), snapAt := (c.step, s.devTime.toNat) :: c.snapAt.filter (·.1 != c.step) })

/-! ### LOAD and RESUME (R457, R459) -/

/-- LOAD. -/
def execLoad (s : State) : Result := s.ckCommand 4 fun s => s.updCk fun c => { c with st := .loading, err := 0, shard := 0 }
/-- The hub's state as it was saved: members with every resident index 0, caches empty, pages disabled, held rows to be opened anew. No queue core
holds a request. -/
def State.loaded (s : State) (k : Snap) : State :=
  { s with
    zone := k.zone, heat := k.heat, pageBits := k.pageBits, mtus := k.mtus
    contexts := k.contexts
    pages := k.pages.map fun p => (p.1, { p.2 with en := false })
    subs := k.subs, qsb := k.qsb, queues := k.queues, services := k.services, inval := k.inval
    requests := k.requests.map fun r => { r with heldBy := none }
    qcores := s.qcores.map fun c => { c with held := none, node := none }
    invalWait := none
    latigo := { k.latigo with pbr := s.latigo.pbr, routes := s.latigo.routes, inbox := s.latigo.inbox }
    leases := k.leases, rings := k.rings, eligible := k.eligible, pool := k.pool, held := k.held
    tasks := k.tasks.map fun t => t.mapSaved fun b => { b with
      holds := b.holds.map fun h => if h.held || h.reopenBy.isSome then { h with held := false, reopenBy := none, epoch := h.epoch + 1 } else h }
    ops := k.ops, records := k.records, profQueue := k.profQueue
    resident := [], promotions := [], l2 := [], mvc := [], blooms := List.replicate 128 {}, rowSlots := [], owners := []
    cores := s.cores.map fun c => { c with l1 := [], icache := [], handles := [], params := [] }
    chunks := [], peerStores := [], retry := [], heldDue := [], codeOld := [] }
/-- The data of a shard goes to its frames, with its poison. -/
def State.placeShard (s : State) (p : ShardPlan) (x : Shard) : State :=
  { s with
    mem := p.frames.zipIdx.foldl (fun m a => Sparse.putN memDefault m a.1 ((x.data.drop (65536 * a.2)).take 65536)) s.mem
    poison := s.poison ++ p.frames.zipIdx.flatMap fun a =>
      (x.poison.filter fun l => l / 1024 == a.2).map fun l => a.1 / 64 + l % 1024 }
/-- A lease after a LOAD: ACTIVE from now when both parties belong to the job, which no register tells and so is a free choice;
otherwise RELEASED with its granules zeroed. -/
def State.reloadLease (s : State) (x : Nat × Lease) : State :=
  let l := x.2
  if l.st == .released then s
  else
    let r := s.freeBool
    let now := s.devTime.toNat
    let l' : Lease := { l with renewals := [], snoops := [], cached := [], answers := [], notice := false, due := none }
    if r.1 then r.2.setLease x.1 { l' with st := .active, expiry := if l.borrowed then borrowerExpiry now l.term else now + 1000 * l.term }
    else (if l.borrowed then r.2 else r.2.zeroExtent l).setLease x.1 { l' with st := .released }
/-- A LOAD has failed: memory is not defined, and no task is placed. -/
def State.loadFailed (s : State) (err : BitVec 8) (shard : Nat) (read : Nat) : State :=
  let m := Config.lostMemory s.free
  ({ s with free := s.free + 1, mem := if Sparse.wf memDefault m then m else [] }.ckFail err (BitVec.ofNat 32 shard) true).updCk fun c =>
    { c with bytes := BitVec.ofNat 64 read }
/-- Where the shard of an entry stands: in the region of this step, or in that of the step whose SNAP wrote it. Cantle records the region of each
step; the safe tier's manifest of that step and device tells it here (DESIGN CHOICE, log 23). -/
def State.shardPlace (s : State) (head e : BitVec 512) : Option Nat :=
  let k := field e 64 32
  if e.extractLsb' 192 64 == head.extractLsb' 192 64 then some (shardAt s.ck.target k)
  else (s.safeTier.findSome? fun x => match x.2 with
    | .manifest h _ => if h.extractLsb' 192 64 == e.extractLsb' 192 64 && h.extractLsb' 160 32 == head.extractLsb' 160 32 &&
        h.extractLsb' 120 8 == head.extractLsb' 120 8 then some x.1 else none
    | .shard _ => none).map fun a => shardAt (BitVec.ofNat 64 a) k
/-- The shard of an entry, unless the safe tier does not answer for it. -/
def State.shardOf (s : State) (head e : BitVec 512) (gone : Option Nat) : Option Shard :=
  if gone == some (field e 64 32) then none else (s.shardPlace head e).bind s.storedShard
/-- Checks 1 and 2 of R457 on a manifest: ERR of the first that fails. -/
def State.manifestErr (s : State) (h : BitVec 512) (l : List (BitVec 512)) : Option (BitVec 8) :=
  let c := s.ck
  if h.extractLsb' 256 256 != manifestDigest h l || h.extractLsb' 192 64 != c.step then some 2
  else if h.extractLsb' 160 32 == c.job && h.extractLsb' 120 8 == c.dev && h.extractLsb' 112 8 == c.ndev && field h 104 8 == s.pers.zc &&
    field h 92 12 == s.pers.poolgr && h.extractLsb' 80 8 == Config.impRev then none
  else some 1
/-- Check 3 on an entry: its shard's header can be read and has its LENGTH. -/
def State.missing (s : State) (h : BitVec 512) (gone : Option Nat) (e : BitVec 512) : Bool :=
  (s.shardOf h e gone).all fun x => field x.head 96 32 != field e 96 32
/-- Check 4 on an entry: its shard is of the entry's step and index, and of this job and device. -/
def State.mixed (s : State) (h : BitVec 512) (gone : Option Nat) (e : BitVec 512) : Bool :=
  (s.shardOf h e gone).all fun x => !(x.head.extractLsb' 192 64 == e.extractLsb' 192 64 && field x.head 64 32 == field e 64 32 &&
    x.head.extractLsb' 160 32 == s.ck.job && x.head.extractLsb' 152 8 == s.ck.dev)
/-- Check 5 on an entry: the digest of the data is that of the header and of the entry. A state shard stands for a state. -/
def State.digestOff (s : State) (h : BitVec 512) (gone : Option Nat) (e : BitVec 512) : Bool :=
  (s.shardOf h e gone).all fun x =>
    let d := Config.shake256 x.data
    !(d == x.head.extractLsb' 256 256 && d == e.extractLsb' 256 256 && (field e 8 8 != 0 || x.hub.isSome))
/-- The checks of R457 on a manifest's entries, each over all of them before the next: ERR, the index of the shard that fails it, and the bytes read
until then. -/
def State.entriesErr (s : State) (h : BitVec 512) (l : List (BitVec 512)) (gone : Option Nat) : Option (BitVec 8 × Nat × Nat) :=
  let heads (n : Nat) : Nat := 2 ^ 22 + 4096 * n
  let data (n : Nat) : Nat := (l.take n).foldl (fun n e => n + field e 96 32) 0
  let first (bad : BitVec 512 → Bool) : Option (BitVec 512 × Nat) := l.zipIdx.find? fun x => bad x.1
  match first (s.missing h gone) with
  | some x => some (3, field x.1 64 32, heads x.2)
  | none => match first (s.mixed h gone) with
    | some x => some (4, field x.1 64 32, heads l.length)
    | none => (first (s.digestOff h gone)).map fun x => (5, field x.1 64 32, heads l.length + data (x.2 + 1))
/-- Put everything that the shards hold into the part. -/
def State.loadShards (s : State) (h : BitVec 512) (l : List (BitVec 512)) (k : Snap) : State :=
  let z : State := { s.loaded k with mem := [], poison := [] }
  l.foldl (fun t e => match z.shards[field e 64 32]?, s.shardOf h e none with
    | some p, some x => t.placeShard p x
    | _, _ => t) z
/-- LOAD_COMPLETE: the manifest at CKTARGET and its shards are checked in the order of R457, and the first failure ends the command. The safe tier may
fail to answer: for the manifest with an `error` of 2, for the header of shard `shard` with 3. -/
def execLoadComplete (error : BitVec 8) (shard : Word) (s : State) : Result :=
  if s.ck.st != .loading then .next s
  else
    let gone := if error == 3 then some shard.toNat else none
    match (if error == 2 then none else s.manifestAt s.ck.target.toNat) with
    | none => .next (s.loadFailed 2 0 0)
    | some (h, l) => match s.manifestErr h l with
      | some e => .next (s.loadFailed e 0 (2 ^ 22))
      | none => match s.entriesErr h l gone with
        | some x => .next (s.loadFailed x.1 x.2.1 x.2.2)
        | none => match (l.filterMap fun e => (s.shardOf h e gone).bind (·.hub)).head? with
          | none => .next (s.loadFailed 2 0 (2 ^ 22))
          | some k =>
            let t := k.leases.foldl (fun s x => s.reloadLease x) (s.loadShards h l k)
            let read := 2 ^ 22 + l.foldl (fun n e => n + 4096 + field e 96 32) 0
            .next (t.updCk fun c => { c with st := .loaded, bytes := BitVec.ofNat 64 read, snapAt := [(c.step, s.devTime.toNat)], lentUntil := [] })
/-- Images still to be restored go back to the pool, as far as it has room. -/
def State.resumeSome (s : State) : State :=
  let back := (s.tasks.filter fun t => t.quiesced && t.phase == .saved).take (16384 - (s.pool.length + s.arriving))
  back.foldl (fun s t => ((if s.pool.any (·.restore == some t.uid) then s else s.repool t).updTask t.uid fun t => { t with quiesced := false })) s
/-- CK_RESUME: images are restored, those of the quiesce itself or, from LOADED, every one; pool entries become eligible anew (R457). What
the pool has no room for follows later (R58). -/
def execCkResume (s : State) : Result :=
  let fresh := s.ck.st == .loaded
  if s.ck.cmd != 3 then .next (if s.ck.st == .running then s.resumeSome else s)
  else s.ckCommand 3 fun s =>
    let s : State := if !fresh then s else { s with
      pool := s.pool.map fun p => { p with time := s.devTime.toNat }
      tasks := s.tasks.map fun t => { t with quiesced := t.phase == .saved } }
    s.resumeSome.updCk fun c => { c with st := .running, still := false }
/-- CLEAR. -/
def execClear (s : State) : Result := s.ckCommand 5 fun s => s.updCk fun c => { c with st := .running }

end Sys2Proof.Machine
end

