-- ==== Sys2Proof/Machine/Control.lean ====
section
/-! DEFINITION. Group 0x0A: control transfer (R145 to R148, R94). -/

namespace Sys2Proof.Machine
open Bits

/-- A control form: acting fibres get their writes and go to their target, or to PC + 1; the others go to PC + 1 (R145). `g` sees the
fibre as it stood. -/
def State.controlForm (s : State) (f : Fields) (g : Fibre → List (Nat × Word) × Option Word) : Result :=
  .next (s.updCur fun c => c.mapMask s.cur.mask fun _ fb =>
    if guardTrue f fb then
      let r := g fb
      match r.2 with
      | some t => (fb.setRegs r.1).goto t
      | none => (fb.setRegs r.1).next
    else fb.next)
/-- The PC-relative target (R145). -/
def State.relTarget (s : State) (f : Fields) : Word := s.cur.pc + f.x
/-- The target of a form with a relative RI and an absolute RR. -/
def State.target (s : State) (f : Fields) (fb : Fibre) : Word := if f.form = .ri then s.relTarget f else fb.reg f.a.toNat

/-- BRA (R146). -/
def execBra (f : Fields) (s : State) : Result := s.controlForm f fun fb => ([], some (s.target f fb))
/-- BRB: bit n of A is 1 for .set, 0 for .clr (R146). -/
def execBrb (f : Fields) (s : State) : Result :=
  s.controlForm f fun fb =>
    ([], if (fb.reg f.a.toNat).getLsbD (f.mb 0 5) ^^ f.mbit 5 then some (s.relTarget f) else none)
/-- BRX: every acting fibre's index is checked before any moves (R147). -/
def execBrx (f : Fields) (s : State) : Result :=
  let c := s.curCrew
  match (s.acting f).find? fun i => f.mdv ≤ ((c.fibre i).reg f.a.toNat).toNat with
  | some i => s.raise f (some i) { cause := causeJumpRange, arg0 := ((c.fibre i).reg f.a.toNat).setWidth 64 }
  | none => s.controlForm f fun fb => ([], some (s.relTarget f + fb.reg f.a.toNat))
/-- CALL: v1 := PC + 1, written after A is read (R148). -/
def execCall (f : Fields) (s : State) : Result := s.controlForm f fun fb => ([(1, s.cur.pc + 1)], some (s.target f fb))
/-- RET (R148). -/
def execRet (f : Fields) (s : State) : Result := s.controlForm f fun fb => ([], some (fb.reg f.a.toNat))
/-- LOOP: the counter falls by one, and the fibre branches while it is not 0 (R146). -/
def execLoop (f : Fields) (s : State) : Result :=
  s.controlForm f fun fb =>
    let v := fb.reg f.d.toNat - 1
    ([(f.d.toNat, v)], if v != 0 then some (s.relTarget f) else none)
/-- NOP (R94). -/
def execNop (_f : Fields) (s : State) : Result := .next s.goOn

end Sys2Proof.Machine
end

