-- ==== Sys2Proof/Machine/FibreOps.lean ====
section
/-! DEFINITION. Group 0x0B: starting, ending and gathering fibres, and issue order (R114 to R119). -/

namespace Sys2Proof.Machine
open Bits

/-- Start the free slots of a mask for one spawning fibre, in ascending order (R114): the crew and the slots it got. -/
def Crew.spawn (c : Crew) (i : Nat) (want : Mask) (target : Word) : Crew × Mask :=
  let got : Mask := maskOf 32 ((List.range 32).filter fun j => want.getLsbD j && (c.fibre j).st == .free)
  (c.mapMask got fun _ fb =>
    { (fb.setReg 0 ((c.fibre i).reg 0)).setReg 1 (BitVec.ofNat 32 i) with
      st := .runnable, pc := target, past := false, wait := .none, windows := [], monitor := .clear, acted := false }, got)
/-- SPAWN: strand fibres in ascending slot order, each starting what is still free (R114). -/
def execSpawn (f : Fields) (s : State) : Result := s.noTry f 0x0B fun s =>
  let one (c : Crew) (i : Nat) : Crew :=
    let r := c.spawn i ((c.fibre i).reg f.a.toNat) (if f.form = .ri then s.relTarget f else (c.fibre i).reg f.b.toNat)
    r.1.updFibre i (·.setReg f.d.toNat r.2)
  let act := s.acting f
  .next (s.updCur fun c => (act.foldl one c).mapMask s.cur.mask fun _ fb => fb.next)

/-- FEND: waits for the acting fibres' pending writes, then frees them; a crew with no live fibre retires later (R115). -/
def execFend (f : Fields) (s : State) : Result := s.noTry f 0x0B fun s =>
  let act := s.actMask f
  match s.curCrew.pend.find? fun p => p.mask &&& act != 0 with
  | some p => s.stall p.stallClass
  | none =>
    let s := s.updCur fun c => { c.mapMask s.cur.mask fun i fb =>
      if act.getLsbD i then { fb with st := .free, wait := .none, windows := [], monitor := .clear } else fb.next
      with lastFend := if act == 0 then c.lastFend else s.cur.pc }
    .next (s.settle s.cur.blk s.cur.crew)

/-- CONVERGE: slots of the mask wait, the others go on; a complete set is released at once (R116), and R117 applies. -/
def execConverge (f : Fields) (s : State) : Result := s.noTry f 0x0B fun s =>
  let s := s.updCur fun c => c.mapMask s.cur.mask fun i fb =>
    if f.x.getLsbD i then { fb with st := .waiting, wait := .conv f.x, waitF := f } else fb.next
  .next (s.settle s.cur.blk s.cur.crew)

/-- YIELD: credit and rotation count become 0, a rotation in progress ends, and the next issue is sought above PC + 1 (R118). -/
def execYield (f : Fields) (s : State) : Result :=
  if s.actMask f == 0 then .next s.goOn
  else .next (s.goOn.updCur fun c => { c with credit := 0, rot := 0, rotating := [], yieldAbove := some (s.cur.pc + 1) })
/-- PRIO: the crew's issue level (R119). -/
def execPrio (f : Fields) (s : State) : Result :=
  if s.actMask f == 0 then .next s.goOn else .next (s.goOn.updCur fun c => { c with level := field f.x 0 2 })

end Sys2Proof.Machine
end

