-- ==== Sys2Proof/Machine/Integer.lean ====
section
/-! DEFINITION. Group 0x00, integer arithmetic (R122 to R126). -/

namespace Sys2Proof.Machine
open Bits

/-- IADD: A + B, and A + B + imm in RRI (R123). -/
def execIadd (f : Fields) (s : State) : Result :=
  s.intForm f fun fb =>
    if f.form = .rri then fb.int f.ty f.a.toNat + fb.int f.ty f.b.toNat + immInt f.ty f.x
    else fb.int f.ty f.a.toNat + opB f fb

/-- ISUB: A − B (R123). -/
def execIsub (f : Fields) (s : State) : Result := s.intForm f fun fb => fb.int f.ty f.a.toNat - opB f fb

/-- IADDC and IADDC.sbb: carry in and out through v0 bit N; D is not v0 (R125). -/
def execIaddc (f : Fields) (s : State) : Result :=
  .next (s.perFibre f fun _ fb =>
    let n := f.extv % 32
    let a : Int := (fb.reg f.a.toNat).toNat
    let b : Int := (fb.reg f.b.toNat).toNat
    let cin : Int := if (fb.reg 0).getLsbD n then 1 else 0
    let r := if f.sub % 2 == 0 then a + b + cin else a - b - cin
    let out := if f.sub % 2 == 0 then decide ((2 : Int) ^ 32 ≤ r) else decide (r < 0)
    let v0 := fb.reg 0
    [(f.d.toNat, wrap 32 r), (0, if out then v0 ||| (1#32 <<< n) else v0 &&& ~~~(1#32 <<< n))])

/-- INEG: −A (R123). -/
def execIneg (f : Fields) (s : State) : Result := s.intForm f fun fb => -fb.int f.ty f.a.toNat

/-- IABS (R123). -/
def execIabs (f : Fields) (s : State) : Result := s.intForm f fun fb => (fb.int f.ty f.a.toNat).natAbs

/-- IMIN: compared as TYPE (R123). -/
def execImin (f : Fields) (s : State) : Result := s.intForm f fun fb => min (fb.int f.ty f.a.toNat) (opB f fb)

/-- IMAX (R123). -/
def execImax (f : Fields) (s : State) : Result := s.intForm f fun fb => max (fb.int f.ty f.a.toNat) (opB f fb)

/-- IMUL: the low half of A × B, or the clamped exact product (R123). -/
def execImul (f : Fields) (s : State) : Result := s.intForm f fun fb => fb.int f.ty f.a.toNat * opB f fb

/-- IMULH: bits [63:32] of the exact product (R123). -/
def execImulh (f : Fields) (s : State) : Result := s.intForm f fun fb => fb.int f.ty f.a.toNat * opB f fb / 2 ^ 32

/-- IMAD: A × B + C or + imm (R123). -/
def execImad (f : Fields) (s : State) : Result :=
  s.intForm f fun fb => fb.int f.ty f.a.toNat * fb.int f.ty f.b.toNat + opC f fb

/-- IMADW: the sources widened before they are multiplied; the C pair added as 64 bits, wrapping (R123, R124). -/
def execImadw (f : Fields) (s : State) : Result :=
  .next (s.perFibre f fun _ fb =>
    pairWrites f.d.toNat (wrap 64 (fb.int f.ty f.a.toNat * fb.int f.ty f.b.toNat + (fb.pair f.c.toNat).toNat)))

/-- The quotient of R126 before it is fitted to TYPE, division by zero included. -/
def divExact (ty : Nat) (sat : Bool) (a b : Int) : Int :=
  if b == 0 then if intSigned ty then if !sat then -1 else if a < 0 then intMin ty else intMax ty else intMax ty
  else a.tdiv b
/-- The remainder of R126. -/
def remExact (a b : Int) : Int := if b == 0 then a else a.tmod b
/-- The second operand of a division as it is captured: the immediate in RI, the register or pair otherwise. -/
def divB (f : Fields) (fb : Fibre) : DWord := if f.form = .ri then f.x.setWidth 64 else fb.bits f.ty f.b.toNat
/-- The destination registers of a division. -/
def divDests (f : Fields) : List Nat := if intWidth f.ty == 64 then [f.d.toNat, f.d.toNat + 1] else [f.d.toNat]

/-- IDIV, replay-eligible (R126). -/
def execIdiv (f : Fields) (s : State) : Result :=
  s.replayForm f (divDests f) (fun fb => fb.bits f.ty f.a.toNat) (divB f) fun a b =>
    (intWrites f.ty f.d.toNat (intFit f.ty f.sat (divExact f.ty f.sat (intOf f.ty a) (intOf f.ty b))), 0)

/-- IREM, replay-eligible (R126). -/
def execIrem (f : Fields) (s : State) : Result :=
  s.replayForm f (divDests f) (fun fb => fb.bits f.ty f.a.toNat) (divB f) fun a b =>
    (intWrites f.ty f.d.toNat (intFit f.ty false (remExact (intOf f.ty a) (intOf f.ty b))), 0)

end Sys2Proof.Machine
end

