-- ==== Sys2Proof/Machine/Issue.lean ====
section
/-! DEFINITION. Fetch and what comes before an instruction's own effect (R81 to R83, R106, R111, R112, R395, R398), results as they arrive
(R164, R299), and waits that end (R335, R349). -/

namespace Sys2Proof.Machine
open Bits

/-! ### Fetch (R81, R82) -/

/-- Where the bytes of a word lie, in the parts that lines, pages and interleave granules cut it into; at most four parts of 12 bytes. -/
def State.fetchParts (s : State) (core ctx : Nat) (e : BitVec 512) (ref : DWord) : Nat → Nat → Nat → Except Event (List Nat)
  | 0, _, _ => .ok []
  | fuel + 1, o, n =>
    if n == 0 then .ok []
    else match s.iaOf core ctx e ref o with
      | .error ev => .error ev
      | .ok ia =>
        let k := min n (min (64 - ia % 64) (64 - o % 64))
        match s.checkPlace ia k .load with
        | .error c => .error (memFault c ref o (if c == causeWait then s.waitLine ia k else ia))
        | .ok p => match s.fetchParts core ctx e ref fuel (o + k) (n - k) with
          | .error ev => .error ev
          | .ok r => .ok ((List.range k).map (p.phys + ·) ++ r)
/-- What a fetch below the instruction cache leaves, as any access does, in each line of its word (R230, R228, R195). -/
def State.noteFetch (s : State) (core ctx : Nat) (e : BitVec 512) (ref : DWord) (o : Nat) : State :=
  let one (s : State) (ia : Nat) : State := match s.place ia with
    | .ok p => s.note { ent := e, ia := ia, place := p } false false
    | .error _ => s
  match s.iaOf core ctx e ref o, s.iaOf core ctx e ref (o + 11) with
  | .ok a, .ok b => if a / 64 == b / 64 then one s a else one (one s a) b
  | _, _ => s
/-- The values a byte of a fetched word may have: the one in memory first, then those that stores to the code object of a placed task have
replaced, and the one the instruction cache holds (R82). -/
def State.codeBytes (s : State) (uid phys : Nat) (held : Option Byte) : List Byte :=
  s.byte phys :: ((s.codeOld.filter fun x => x.1 == uid && x.2.1 == phys).map (·.2.2) ++ held.toList)
/-- The word at a PC of a block's task, at offset 12 × PC of its code object: the memory port's checks with right X and kind CODE, then the
word itself. With `stale`, each byte that has been stored to while the task was placed is any of its values, freely (R81, R82). A PC of
2^32, which follows 0xFFFF_FFFF, is out of bounds. -/
def State.fetch (s : State) (bid : Nat) (pc : Nat) (stale : Bool) : Except Event (IWord × State) :=
  let b := s.block bid
  let t := s.task b.task
  let ref := t.rec_.coderef
  let o := 12 * pc
  if 2 ^ 32 ≤ pc then .error (memFault causeBounds ref o)
  else
    let q : Req := { kinds := [2], x := true }
    match s.checkHandle b.core t.ctx (s.ctx t.ctx).tenant ref o 12 q with
    | .error ev => .error ev
    | .ok e => match s.iaOf b.core t.ctx e ref o, s.fetchParts b.core t.ctx e ref 4 o 12 with
      | .error ev, _ => .error ev
      | _, .error ev => .error ev
      | .ok ia, .ok l =>
        let key (x : Nat × Nat × IWord) : Bool := x.1 == t.ctx && x.2.1 == ia
        let s := s.keepEntry b.core t.ctx ref
        let held := ((s.core b.core).icache.find? key).map (·.2.2)
        let pick (x : Nat × Nat) : Byte :=
          let vs := s.codeBytes t.uid x.1 (held.map fun h => h.extractLsb' (8 * x.2) 8)
          if stale then (vs[(Config.freeWord (s.free + x.2)).toNat % vs.length]?).getD (s.byte x.1) else s.byte x.1
        let w := wordOfBytes (l.zipIdx.map pick)
        let s : State := if stale then { s with free := s.free + 12 } else s
        let s := if held.isSome then s else s.noteFetch b.core t.ctx e ref o
        .ok (w, s.updCore b.core fun k => { k with icache := (t.ctx, ia, w) :: k.icache.filter (!key ·) })

/-! ### Who may move -/

/-- Results arrive at the crew, also while the compactor has stopped it: a save of its block waits for the end of the move (R71, R407). -/
def State.crewLands (s : State) (bid ci : Nat) : Bool :=
  let b := s.block bid
  let c := b.crew ci
  s.blocks.any (·.bid == bid) && ci < b.crews.length && !b.stopped && (!b.saving || c.moving) && !b.terminated && !b.retired && c.live && c.filled
/-- Begin a rotation whose count has come (R106 rule 3): one issue is owed to each other runnable strand. -/
def Crew.rotate (c : Crew) : Crew :=
  let places := c.places.eraseDups
  match least places with
  | none => { c with rot := 0 }
  | some k =>
    let others := ascending (places.filter (k < ·))
    { c with rot := 0, rotating := others.map fun p => BitVec.ofNat 32 p }
/-- CREW_ROTATION (R106). -/
def execCrewRotation (blk crew : Nat) (s : State) : Result :=
  if 4096 ≤ (s.crew blk crew).rot then .next (s.updCrew blk crew Crew.rotate) else .next s

/-- A crew may issue, as far as its strands show: the strand that comes next has no trap that waits for its record (R396). -/
def State.hasStrand (s : State) (bid ci : Nat) : Bool :=
  let c := s.crew bid ci
  s.crewMoves bid ci && !s.fatalDue bid ci && (match c.nextPlace with | some k => !c.trapWaits (c.strandAt k) && !c.midway (c.strandAt k) | none => false)

/-! ### Results that arrive (R87, R164, R299) -/

/-- Registers a pending result will write. -/
def Pending.dests (p : Pending) : List Nat :=
  match decode p.word with
  | .ok i => match Encoding.row i with | some r => Encoding.destRegs (fieldsOf i) r | none => []
  | .error _ => []
/-- A result arrives: POISON or FP is raised at this point, with nothing written; otherwise the result is written and its flags are
merged. A result that an engine still owes does not arrive. -/
def State.arrive (s : State) (bid ci : Nat) (p : Pending) : State :=
  if p.op.isSome || (s.crew bid ci).pendTraps.any (·.faulting == some p.id) then s
  else if p.poison.isSome then
    (s.updCrew bid ci fun c => { c with pend := c.pend.filter (·.id != p.id) }).trap bid ci p.strand p.mask p.poisonEvent none true
  else match p.fpTrap with
    | some (i, e) => s.trap bid ci p.strand p.mask
        { cause := causeFp, pc := p.pc, slot := BitVec.ofNat 8 i, arg0 := e.setWidth 64 } (some p.id)
    | none => s.updCrew bid ci (·.writeBack p)
/-- RESULT_WRITEBACK. -/
def execResultWriteback (blk crew entry : Nat) (s : State) : Result :=
  let c := s.crew blk crew
  if !s.crewLands blk crew then .next s
  else match c.pend.find? (·.id == entry) with
    | some p => .next (s.arrive blk crew p)
    | none => .next s

/-! ### Before an instruction's own effect (R83, R106, R111, R112, R398) -/

/-- What a crew's turn comes to before an instruction's own effect: an instruction to execute; a trap in its place; a strand that waits for
the stall class recorded in the crew; a strand whose awaited result has just arrived; or nothing, where no strand may issue. -/
inductive Prepared where
  | run (i : Instr) (s : State)
  | trap (s : State)
  | stall (s : State)
  | settle (s : State)
  | rest

/-- An entry whose fibres are parked waits for them. -/
def Crew.entryBlocked (c : Crew) (r : Replay) : Bool :=
  (List.range 32).any fun i => r.mask.getLsbD i && (c.fibre i).st == .parked
/-- A window of a fibre whose promise the fields break (R111, R112). -/
def Fibre.broken (fb : Fibre) (regs : List Nat) (guarded : Bool) : Option Window :=
  fb.windows.find? fun w => w.dests.any fun d => regs.contains d || (guarded && d == 0)
/-- The lowest slot of a strand that breaks a promise, with its window. -/
def Crew.breaker (c : Crew) (m : Mask) (regs : List Nat) (guarded : Bool) : Option (Nat × Window) :=
  (ones m).findSome? fun i => ((c.fibre i).broken regs guarded).map fun w => (i, w)
/-- An unfinished result that the strand must have first: it names a register of it, or v0 may be read (R112). -/
def Crew.awaited (c : Crew) (m : Mask) (regs : List Nat) : Option Pending :=
  c.pend.find? fun p => p.mask &&& m != 0 && p.dests.any fun d => regs.contains d || d == 0
/-- A trap raised before an instruction has any effect, for its strand as a whole; `act` holds the fibres for which it would act (R368). The
crew has been taken, and the trap counts as an issue of it, for the rotation and the credit too (DESIGN CHOICE, log 80: the manual does not
say whether an instruction that traps at fetch or decode has issued). -/
def State.early (s : State) (act : Mask) (e : Event) : State :=
  (((s.takeIssue false).updCur fun c => { c with stallClass := 7 }).setGoing e).trap s.cur.blk s.cur.crew s.cur.mask act e
/-- The fibres of the strand for which the guard fields of the word in `cur` hold, be it an instruction or not (R84). -/
def State.wordActs (s : State) : Mask := s.actMask { guard := Word.guard s.cur.word }
/-- Decode and the checks that follow it, for the word in `cur`. -/
def State.decodeCur (s : State) : Prepared :=
  let c := s.curCrew
  let pc := s.cur.pc
  let bad (e : Event) : Prepared := .trap (s.early s.wordActs e)
  match decode s.cur.word with
  | .error .illegalOpcode => bad { cause := causeIllegalOpcode, pc := pc }
  | .error .illegalEncoding => bad { cause := causeIllegalEncoding, pc := pc }
  | .ok i => match Encoding.row i with
    | none => bad { cause := causeIllegalOpcode, pc := pc }
    | some r =>
      let f := fieldsOf i
      let regs := Encoding.namedRegs f r
      if !Encoding.rowInWindow f r s.curTask.win then bad { cause := causeWindowOverrun, pc := pc }
      else match c.breaker s.cur.mask regs f.guard.isSome with
        | some (sl, w) => bad { cause := causeLookahead, pc := w.pc, slot := BitVec.ofNat 8 sl, arg0 := pc.setWidth 64 }
        | none => match c.awaited s.cur.mask regs with
          | some p =>
            let t := s.updCur fun c => { c with stallClass := p.stallClass }
            if p.op.isSome then .stall t else .settle (t.arrive s.cur.blk s.cur.crew p)
          | none => .run i s
/-- One turn of a crew up to its instruction's own effect. A fetch that faults has no guard: its trap is of every fibre of the strand
(DEDUCED, log 76). The PC of a fetch past 0xFFFF_FFFF, which 32 bits do not hold, is recorded as 0 (DESIGN CHOICE, log 68: R81 names no PC). -/
def State.prepare (s : State) (bid ci : Nat) (stale : Bool) : Prepared :=
  if !s.crewMoves bid ci || s.fatalDue bid ci then .rest
  else
    let s := if 4096 ≤ (s.crew bid ci).rot then s.updCrew bid ci Crew.rotate else s
    let c := s.crew bid ci
    let waits (k : Nat) : Prepared := .stall (s.updCrew bid ci fun c => { c with stallClass := k })
    match c.nextEntry with
    | some r =>
      if c.entryBlocked r || c.trapWaits r.mask then waits 1
      else
        let s := s.updCrew bid ci fun c => { c with replay := c.replay.erase r }
        if r.dropped || r.mask == 0 then .settle s
        else
          let s : State := { s with cur := { blk := bid, crew := ci, mask := r.mask, pc := r.pc, word := r.word, replay := some r, stale := stale } }
          match decode r.word with
          | .ok i => .run i s
          | .error _ => .settle s
    | none => match c.nextPlace with
      | none => .rest
      | some k => match c.partway.find? fun w => w.pc.toNat == k && (ones w.mask).all c.mayIssue with
        | some w =>
          -- an instruction that stands part-way goes on, without a fetch and without its checks (R335)
          match decode w.word with
          | .ok i => .run i { s with cur := { blk := bid, crew := ci, mask := w.mask, pc := w.pc, word := w.word } }
          | .error _ => .rest
        | none =>
        let m := c.strandAt k
        let s : State := { s with cur := { blk := bid, crew := ci, mask := m, pc := BitVec.ofNat 32 k, word := 0, replay := none, stale := stale } }
        if c.trapWaits m then waits 1
        else match s.fetch bid k stale with
          | .error ev =>
          if ev.cause == causeWait then .stall ((s.setGoing ev).updCrew bid ci fun c => { c with stallClass := 5 })
          else .trap (s.early m { ev with pc := BitVec.ofNat 32 k })
          | .ok (w, s) => { s with cur := { s.cur with word := w } }.decodeCur

/-- INSTRUCTION_FETCH: the word of the strand that issues next is brought to the core; a failure is precise (R81). -/
def execInstructionFetch (blk crew : Nat) (s : State) : Result :=
  if !s.hasStrand blk crew then .next s
  else match (s.crew blk crew).nextPlace with
    | none => .next s
    | some k => match s.fetch blk k false with
      | .ok (_, s) => .next s
      | .error ev =>
        let m := (s.crew blk crew).strandAt k
        if ev.cause == causeWait then .next (s.setGoing ev)
        else .next ((s.setGoing ev).trap blk crew m m { ev with pc := BitVec.ofNat 32 k })

/-! ### Waits that end (R335, R349) -/

/-- Make a fibre try its waiting instruction again, alone. -/
def State.again (s : State) (blk crew slot : Nat) : State :=
  let fb := (s.crew blk crew).fibre slot
  let s := s.updCrew blk crew fun c => c.updFibre slot fun fb => fb.wake
  { s with cur := { blk := blk, crew := crew, mask := 1#32 <<< slot, pc := fb.pc, word := 0, replay := none, stale := false } }
/-- A fibre that waits on keeps the beginning and the order of its wait. -/
def State.keepWait (s : State) (blk crew slot : Nat) (old : Fibre) : State :=
  s.updCrew blk crew fun c => c.updFibre slot fun fb =>
    if fb.st == .waiting then { fb with waitFrom := old.waitFrom, waitSeq := old.waitSeq } else fb
/-- An earlier waiter of the same semaphore word whose count is met goes first (R347). -/
def State.semEarlier (s : State) (blk crew slot ia : Nat) : Bool :=
  let me := (s.crew blk crew).fibre slot
  let have_ : Word := match s.place ia with | .ok p => ofBytes 32 (s.bytes p.phys 4) | .error _ => 0
  s.blocks.any fun b => b.crews.any fun c => c.fibres.any fun fb =>
    fb.st == .waiting && fb.wait == .sem ia && fb.waitSeq < me.waitSeq && (fb.reg fb.waitF.b.toNat).toNat ≤ have_.toNat
/-- The end of a semaphore wait enters the word's record (R345). -/
def State.semWaited (s : State) (blk crew slot ia : Nat) (old : Fibre) : State :=
  if ((s.crew blk crew).fibre slot).st == .waiting then s
  else s.updBlock blk fun b => b.semRec ia fun r => r.long crew 0 old.pc (s.clkOf blk - old.waitFrom)
/-- Map the next state of a result. -/
def afterwards (r : Result) (g : State → State) : Result := match r with | .next s => .next (g s) | r => r
/-- WAITER_RETRY: a waiting fibre tries its action again, its checks included (R335). Waits that another fibre's action ends (barriers,
CONVERGE, COMMIT) have none of their own; a MONWAIT tries again once its monitor is no longer armed. -/
def execWaiterRetry (blk crew slot : Nat) (s : State) : Result :=
  let fb := (s.crew blk crew).fibre slot
  if !s.crewMoves blk crew || s.fatalDue blk crew || fb.st != .waiting || !(s.crew blk crew).goes slot then .next s
  else
    let keep (r : Result) : Result := afterwards r fun t => t.keepWait blk crew slot fb
    match fb.wait with
    | .sem ia =>
      if s.semEarlier blk crew slot ia then .next s
      else afterwards (keep (execSemwait fb.waitF (s.again blk crew slot))) fun t => t.semWaited blk crew slot ia fb
    | .queue _ => keep (execWqpop fb.waitF (s.again blk crew slot))
    | .svcq _ => keep (execSvcq fb.waitF (s.again blk crew slot))
    | .counter _ _ => keep (execWaitc fb.waitF (s.again blk crew slot))
    | .mon _ _ => match fb.monitor with
      | .armed _ => .next s
      | _ => execMonwait fb.waitF (s.again blk crew slot)
    | _ => .next s
/-- MONWAIT_TIMEOUT: the time-out has passed and the monitor has not fired (R349). -/
def execMonwaitTimeout (blk crew slot : Nat) (s : State) : Result :=
  let fb := (s.crew blk crew).fibre slot
  match fb.wait with
  | .mon _ (some t) =>
    if !s.crewMoves blk crew || s.fatalDue blk crew || fb.st != .waiting || !(s.crew blk crew).goes slot || fb.monitor == .fired || s.devTime.toNat < t then .next s
    else .next (s.updCrew blk crew fun c => c.updFibre slot fun fb =>
      ({ fb.setReg fb.waitF.d.toNat 1 with monitor := .clear }).wake.next)
  | _ => .next s

end Sys2Proof.Machine
end

