-- ==== Sys2Proof/Machine/Lane.lean ====
section
/-! DEFINITION. Group 0x04: lane exchange and vote (R133 to R139). The participants are the guard-true fibres of the strand. -/

namespace Sys2Proof.Machine
open Bits

/-- A lane form: `g` gives each participant's result from its slot and its own fibre, all sources read before any write (R133). -/
def State.laneForm (s : State) (f : Fields) (g : Nat → Fibre → Word) : Result :=
  .next (s.perFibre f fun i fb => [(f.d.toNat, g i fb)])

/-- The source slot of LXCH; none for `.rev` from slot n up (R134). -/
def exchangeSlot (mode slot n : Nat) : Option Nat :=
  match mode with
  | 0 => some n
  | 1 => some ((slot + n) % 32)
  | 2 => some (slot ^^^ n)
  | _ => if slot < n then some (n - 1 - slot) else none
/-- LXCH (R134). -/
def execLxch (f : Fields) (s : State) : Result :=
  let c := s.curCrew
  s.laneForm f fun i fb =>
    let own := fb.reg f.a.toNat
    match exchangeSlot (f.mb 0 2) i (bitsB f fb).toNat with
    | some j => if j < 32 && (s.acting f).contains j then (c.fibre j).reg f.a.toNat else own
    | none => own

/-- Bit n_s of vA of a participant, n from the immediate or from its own vB[4:0] (R135, R136). -/
def laneBit (f : Fields) (fb : Fibre) : Bool := (fb.reg f.a.toNat).getLsbD (field (bitsB f fb) 0 5)
/-- BALLOT (R135). -/
def execBallot (f : Fields) (s : State) : Result :=
  let c := s.curCrew
  let r : Word := maskOf 32 ((s.acting f).filter fun j => laneBit f (c.fibre j) ^^ f.mbit 0)
  s.laneForm f fun _ _ => r
/-- VOTE: all, any, uniform (R136). -/
def execVote (f : Fields) (s : State) : Result :=
  let c := s.curCrew
  let bs := (s.acting f).map fun j => laneBit f (c.fibre j)
  let t := match f.mb 0 2 with
    | 0 => bs.all id
    | 1 => bs.any id
    | _ => bs.all id || !bs.any id
  s.laneForm f fun _ _ => if t then 1 else 0
/-- MATCH: the participants whose value equals this one's (R137). -/
def execMatch (f : Fields) (s : State) : Result :=
  let c := s.curCrew
  let v (fb : Fibre) : DWord := if f.form = .pair then fb.pair f.a.toNat else (fb.reg f.a.toNat).setWidth 64
  s.laneForm f fun _ fb => maskOf 32 ((s.acting f).filter fun j => v (c.fibre j) == v fb)

/-- The operation and identity of LRED and LSCAN (R138). -/
def laneOp : Nat → Word → Word → Word
  | 0, a, b => a + b
  | 1, a, b => if b.slt a then b else a
  | 2, a, b => if b.ult a then b else a
  | 3, a, b => if a.slt b then b else a
  | 4, a, b => if a.ult b then b else a
  | 5, a, b => a &&& b
  | 6, a, b => a ||| b
  | _, a, b => a ^^^ b
def laneIdentity : Nat → Word
  | 1 => 0x7FFFFFFF | 2 => 0xFFFFFFFF | 3 => 0x80000000 | 5 => 0xFFFFFFFF | _ => 0
/-- The members of a participant's segment, in ascending slot order (R138). -/
def State.segment (s : State) (f : Fields) (i : Nat) : List Nat :=
  let c := s.curCrew
  let p := s.acting f
  let head (j : Nat) : Bool := f.mbit 9 && ((c.fibre j).reg 0).getLsbD (f.mb 4 5)
  let start := ((p.filter fun j => j ≤ i && head j).getLast?).getD 0
  p.filter fun j => start ≤ j && !(p.any fun k => head k && i < k && k ≤ j)
/-- Combination over a list of slots in ascending order. -/
def State.combine (s : State) (f : Fields) (l : List Nat) : Word :=
  l.foldl (fun acc j => laneOp (f.mb 0 3) acc ((s.curCrew.fibre j).reg f.a.toNat)) (laneIdentity (f.mb 0 3))
/-- LRED (R138). -/
def execLred (f : Fields) (s : State) : Result := s.laneForm f fun i _ => s.combine f (s.segment f i)
/-- LSCAN, exclusive unless MOD[3] (R138). -/
def execLscan (f : Fields) (s : State) : Result :=
  s.laneForm f fun i _ => s.combine f ((s.segment f i).filter fun j => j < i || (f.mbit 3 && j == i))
/-- STRANDM: the strand, the participants, or the live slots (R139). -/
def execStrandm (f : Fields) (s : State) : Result :=
  s.laneForm f fun _ _ => match f.mb 0 2 with
    | 0 => s.cur.mask
    | 1 => s.actMask f
    | _ => s.curCrew.liveMask

end Sys2Proof.Machine
end

