-- ==== Sys2Proof/Machine/Logic.lean ====
section
/-! DEFINITION. Groups 0x01 and 0x02: logic, shifts, bit fields and counts (R127 to R129). -/

namespace Sys2Proof.Machine
open Bits

/-- AND (R127). -/
def execAnd (f : Fields) (s : State) : Result := s.bitForm f (· &&& ·) (· &&& ·)
/-- OR (R127). -/
def execOr (f : Fields) (s : State) : Result := s.bitForm f (· ||| ·) (· ||| ·)
/-- XOR (R127). -/
def execXor (f : Fields) (s : State) : Result := s.bitForm f (· ^^^ ·) (· ^^^ ·)
/-- ANDN: A & ~B (R127). -/
def execAndn (f : Fields) (s : State) : Result := s.bitForm f (fun a b => a &&& ~~~b) (fun a b => a &&& ~~~b)

/-- Bit i is MAP[a + 2b + 4c] (R127). -/
def ternary (map : Nat) (a b c : Word) : Word :=
  maskOf 32 ((List.range 32).filter fun i =>
    map.testBit ((a.getLsbD i).toNat + 2 * (b.getLsbD i).toNat + 4 * (c.getLsbD i).toNat))
/-- TERN (R127). -/
def execTern (f : Fields) (s : State) : Result :=
  s.wordForm f fun fb => ternary (f.mb 0 8) (fb.reg f.a.toNat) (fb.reg f.b.toNat) (bitsC f fb)

/-- A shift: n is B, the low register of the B pair, or the immediate, unsigned and not reduced (R128). -/
def State.shiftForm (s : State) (f : Fields) (g : (w : Nat) → BitVec w → Nat → BitVec w) : Result :=
  .next (s.perFibre f fun _ fb =>
    if f.form = .pair then pairWrites f.d.toNat (g 64 (fb.pair f.a.toNat) (fb.reg f.b.toNat).toNat)
    else [(f.d.toNat, g 32 (fb.reg f.a.toNat) (bitsB f fb).toNat)])
/-- SHL: 0 when n is at least the width (R128). -/
def execShl (f : Fields) (s : State) : Result := s.shiftForm f fun w v n => if n < w then v <<< n else 0
/-- SHR: 0 when n is at least the width (R128). -/
def execShr (f : Fields) (s : State) : Result := s.shiftForm f fun w v n => if n < w then v >>> n else 0
/-- SHA: copies of the sign when n is at least the width (R128). -/
def execSha (f : Fields) (s : State) : Result := s.shiftForm f fun w v n => v.sshiftRight (min n w)

/-- The funnel shift of R128, n taken as 32 from 32 up. -/
def funnel (left : Bool) (a b : Word) (n : Nat) : Word :=
  let n := min n 32
  if left then ((a ++ b : BitVec 64) <<< n).extractLsb' 32 32 else ((b ++ a : BitVec 64) >>> n).extractLsb' 0 32
/-- FSH (R128). -/
def execFsh (f : Fields) (s : State) : Result :=
  s.wordForm f fun fb => funnel (f.mbit 0) (fb.reg f.a.toNat) (fb.reg f.b.toNat) (bitsC f fb).toNat

/-- The bits of BFX (R129). -/
def bitExtract (signed : Bool) (a : Word) (p l : Nat) : Word :=
  let at_ (i : Nat) : Bool := if p + i < 32 then a.getLsbD (p + i) else signed && a.getLsbD 31
  let top := signed && l != 0 && at_ (l - 1)
  maskOf 32 ((List.range 32).filter fun i => if i < l then at_ i else top)
/-- BFX (R129). -/
def execBfx (f : Fields) (s : State) : Result :=
  s.wordForm f fun fb => let q := posLen (bitsB f fb); bitExtract (f.mbit 0) (fb.reg f.a.toNat) q.1 q.2
/-- BFI: bits p to min(p + l, 32) − 1 of B replaced by the low bits of A (R129). -/
def execBfi (f : Fields) (s : State) : Result :=
  s.wordForm f fun fb =>
    let q := posLen (bitsC f fb)
    let m := bitMask q.1 q.2
    (fb.reg f.b.toNat &&& ~~~m) ||| ((fb.reg f.a.toNat <<< q.1) &&& m)

/-- A count of A or of the A pair, as a 32-bit result (R129). -/
def State.countForm (s : State) (f : Fields) (g : (w : Nat) → BitVec w → Nat) : Result :=
  s.wordForm f fun fb => BitVec.ofNat 32 (if f.form = .pair then g 64 (fb.pair f.a.toNat) else g 32 (fb.reg f.a.toNat))
/-- POPC (R129). -/
def execPopc (f : Fields) (s : State) : Result := s.countForm f fun _ v => popcount v
/-- Leading zeros; the width for zero (R129). -/
def leadingZeros {w : Nat} (v : BitVec w) : Nat := if v == 0 then w else w - 1 - Nat.log2 v.toNat
/-- Trailing zeros; the width for zero (R129). -/
def trailingZeros {w : Nat} (v : BitVec w) : Nat := ((ones v).head?).getD w
/-- CLZ (R129). -/
def execClz (f : Fields) (s : State) : Result := s.countForm f fun _ v => leadingZeros v
/-- CTZ (R129). -/
def execCtz (f : Fields) (s : State) : Result := s.countForm f fun _ v => trailingZeros v
/-- Bit order reversed (R129). -/
def reverseBits {w : Nat} (v : BitVec w) : BitVec w := maskOf w ((List.range w).filter fun i => v.getLsbD (w - 1 - i))
/-- BREV (R129). -/
def execBrev (f : Fields) (s : State) : Result := s.bitForm f (fun a _ => reverseBits a) (fun a _ => reverseBits a)

/-- One byte of PERMB (R129). -/
def permByte (a b : Word) (n : Nat) : Byte :=
  let v : Byte := (b ++ a : BitVec 64).extractLsb' (8 * (n % 8)) 8
  if n < 8 then v else if v.getLsbD 7 then 0xFF else 0
/-- PERMB: the selector is bits [15:0] of C or of the immediate (R129). -/
def execPermb (f : Fields) (s : State) : Result :=
  s.wordForm f fun fb =>
    let sel := bitsC f fb
    ofBytes 32 ((List.range 4).map fun k => permByte (fb.reg f.a.toNat) (fb.reg f.b.toNat) (field sel (4 * k) 4))
/-- BMSK: p and l from A or the immediate (R129). -/
def execBmsk (f : Fields) (s : State) : Result :=
  s.wordForm f fun fb => let q := posLen (if f.form = .ri then f.x else fb.reg f.a.toNat); bitMask q.1 q.2

end Sys2Proof.Machine
end

