-- ==== Sys2Proof/Machine/Riscv.lean ====
section
/-! DEFINITION. The instructions of a queue core: RV32IMAC with Zicsr, machine mode alone (R468). The manual adopts that standard and
does not restate it: the encodings and meanings here are the RISC-V specifications' (PRESUMED, log 19). -/

namespace Sys2Proof.Machine
open Bits

/-- What an instruction of a queue core does, its operands read. `len` bytes behind its pc stands the next one. -/
inductive QcAct where
  | compute (rd : BitVec 5) (value : Word)
  | jump (rd : BitVec 5) (target : Word)
  | load (rd : BitVec 5) (addr : Word) (bytes : Nat) (signed : Bool)
  | store (rs : BitVec 5) (addr : Word) (bytes : Nat)
  | amo (rd rs : BitVec 5) (addr : Word) (op : BitVec 5)
  /-- Kind 1 writes the value, 2 sets its bits, 3 clears them. -/
  | csr (rd : BitVec 5) (csr : Nat) (kind : Nat) (value : Word) (writes : Bool)
  | trap (mcause mtval : Word)
  | mret
  deriving DecidableEq, Repr

/-- Registers of a queue core; x0 reads 0 and discards writes. -/
def QueueCore.reg (c : QueueCore) (r : BitVec 5) : Word := if r == 0 then 0 else (c.x[r.toNat]?).getD 0
def QueueCore.setReg (c : QueueCore) (r : BitVec 5) (v : Word) : QueueCore := if r == 0 then c else { c with x := c.x.set r.toNat v }

/-- The illegal-instruction exception, with the instruction's bits. -/
def rvIllegal (w : Word) : QcAct := .trap 2 w
/-- A 32-bit value from a number that is signed in `n` bits. -/
def rvSext (n v : Nat) : Word := (BitVec.ofNat n v).signExtend 32

/-! ### Arithmetic -/

/-- An operation of OP and OP-IMM at any width, by funct3; `alt` selects SUB and SRA. -/
def rvAlu {w : Nat} (f3 : Nat) (alt : Bool) (a b : BitVec w) : BitVec w :=
  let n := b.toNat % w
  match f3 with
  | 0 => if alt then a - b else a + b
  | 1 => a <<< n
  | 2 => if a.slt b then 1 else 0
  | 3 => if a.ult b then 1 else 0
  | 4 => a ^^^ b
  | 5 => if alt then a.sshiftRight n else a >>> n
  | 6 => a ||| b
  | _ => a &&& b
/-- An operation of the M extension, by funct3; a division by zero gives all ones, its remainder the dividend. -/
def rvMul {w : Nat} (f3 : Nat) (a b : BitVec w) : BitVec w :=
  match f3 with
  | 0 => a * b
  | 1 => BitVec.ofInt w (a.toInt * b.toInt / 2 ^ w)
  | 2 => BitVec.ofInt w (a.toInt * b.toNat / 2 ^ w)
  | 3 => BitVec.ofNat w (a.toNat * b.toNat / 2 ^ w)
  | 4 => if b = 0 then -1 else BitVec.ofInt w (a.toInt.tdiv b.toInt)
  | 5 => if b = 0 then -1 else BitVec.ofNat w (a.toNat / b.toNat)
  | 6 => if b = 0 then a else BitVec.ofInt w (a.toInt.tmod b.toInt)
  | _ => if b = 0 then a else BitVec.ofNat w (a.toNat % b.toNat)
/-- Whether a branch of a funct3 is taken; none for a reserved one. -/
def rvBranch {w : Nat} (f3 : Nat) (a b : BitVec w) : Option Bool :=
  match f3 with
  | 0 => some (a == b)
  | 1 => some (a != b)
  | 4 => some (a.slt b)
  | 5 => some !(a.slt b)
  | 6 => some (a.ult b)
  | 7 => some !(a.ult b)
  | _ => none
/-- Bytes and sign of a load, by funct3. -/
def rvLoad (f3 : Nat) : Option (Nat × Bool) :=
  match f3 with
  | 0 => some (1, true)
  | 1 => some (2, true)
  | 2 => some (4, true)
  | 4 => some (1, false)
  | 5 => some (2, false)
  | _ => none
/-- The funct5 codes of the A extension. -/
def rvAmo (f5 rs2 : Nat) : Bool := (f5 == 2 && rs2 == 0) || [0, 1, 3, 4, 8, 12, 16, 20, 24, 28].contains f5

/-! ### Instructions of 32 bits -/

/-- SYSTEM: ECALL, EBREAK, MRET, WFI and the CSR forms. -/
def QueueCore.rvSystem (c : QueueCore) (w : Word) : QcAct :=
  let f3 := field w 12 3
  let rd := w.extractLsb' 7 5
  let rs := w.extractLsb' 15 5
  if f3 = 0 then
    if w = 0x00000073 then .trap 11 0
    else if w = 0x00100073 then .trap 3 c.pc
    else if w = 0x30200073 then .mret
    else if w = 0x10500073 then .compute 0 0
    else rvIllegal w
  else if f3 = 4 then rvIllegal w
  else .csr rd (field w 20 12) (f3 % 4) (if 4 < f3 then rs.setWidth 32 else c.reg rs) (f3 % 4 == 1 || rs != 0)
/-- What a 32-bit instruction does. -/
def QueueCore.rvWord (c : QueueCore) (w : Word) : QcAct :=
  let f3 := field w 12 3
  let f7 := field w 25 7
  let rd := w.extractLsb' 7 5
  let a := c.reg (w.extractLsb' 15 5)
  let rs2 := w.extractLsb' 20 5
  let b := c.reg rs2
  let immI := rvSext 12 (field w 20 12)
  let immS := rvSext 12 (f7 * 32 + field w 7 5)
  match field w 0 7 with
  | 0x37 => .compute rd (w &&& 0xFFFFF000)
  | 0x17 => .compute rd (c.pc + (w &&& 0xFFFFF000))
  | 0x6F => .jump rd (c.pc + rvSext 21 (field w 31 1 * 2 ^ 20 + field w 12 8 * 2 ^ 12 + field w 20 1 * 2 ^ 11 + field w 21 10 * 2))
  | 0x67 => if f3 = 0 then .jump rd (a + immI) else rvIllegal w
  | 0x63 => match rvBranch f3 a b with
    | some true => .jump 0 (c.pc + rvSext 13 (field w 31 1 * 2 ^ 12 + field w 7 1 * 2 ^ 11 + field w 25 6 * 2 ^ 5 + field w 8 4 * 2))
    | some false => .compute 0 0
    | none => rvIllegal w
  | 0x03 => match rvLoad f3 with
    | some l => .load rd (a + immI) l.1 l.2
    | none => rvIllegal w
  | 0x23 => if f3 < 3 then .store rs2 (a + immS) (2 ^ f3) else rvIllegal w
  | 0x13 =>
    if f3 = 1 ∧ f7 ≠ 0 ∨ f3 = 5 ∧ f7 ≠ 0 ∧ f7 ≠ 0x20 then rvIllegal w
    else .compute rd (rvAlu f3 (f3 == 5 && f7 == 0x20) a (if f3 = 1 ∨ f3 = 5 then rs2.setWidth 32 else immI))
  | 0x33 =>
    if f7 = 1 then .compute rd (rvMul f3 a b)
    else if f7 = 0 ∨ f7 = 0x20 ∧ (f3 = 0 ∨ f3 = 5) then .compute rd (rvAlu f3 (f7 == 0x20) a b)
    else rvIllegal w
  | 0x0F => if f3 = 0 then .compute 0 0 else rvIllegal w
  | 0x2F => if f3 = 2 ∧ rvAmo (field w 27 5) rs2.toNat = true then .amo rd rs2 a (w.extractLsb' 27 5) else rvIllegal w
  | 0x73 => c.rvSystem w
  | _ => rvIllegal w

/-! ### Compressed instructions -/

/-- Quadrant 0: C.ADDI4SPN, C.LW, C.SW. -/
def QueueCore.rvC0 (c : QueueCore) (w : Word) : QcAct :=
  let rd : BitVec 5 := BitVec.ofNat 5 (8 + field w 2 3)
  let a := c.reg (BitVec.ofNat 5 (8 + field w 7 3))
  let off : Word := BitVec.ofNat 32 (field w 10 3 * 8 + field w 6 1 * 4 + field w 5 1 * 64)
  let sp := field w 11 2 * 16 + field w 7 4 * 64 + field w 6 1 * 4 + field w 5 1 * 8
  match field w 13 3 with
  | 0 => if sp = 0 then rvIllegal w else .compute rd (c.reg 2 + BitVec.ofNat 32 sp)
  | 2 => .load rd (a + off) 4 true
  | 6 => .store rd (a + off) 4
  | _ => rvIllegal w
/-- The target of C.J and C.JAL, and of C.BEQZ and C.BNEZ. -/
def QueueCore.rvCJump (c : QueueCore) (w : Word) : Word :=
  c.pc + rvSext 12 (field w 12 1 * 2 ^ 11 + field w 11 1 * 16 + field w 9 2 * 256 + field w 8 1 * 1024 + field w 7 1 * 64 + field w 6 1 * 128 +
    field w 3 3 * 2 + field w 2 1 * 32)
def QueueCore.rvCBranch (c : QueueCore) (w : Word) : Word :=
  c.pc + rvSext 9 (field w 12 1 * 256 + field w 10 2 * 8 + field w 5 2 * 64 + field w 3 2 * 2 + field w 2 1 * 32)
/-- The arithmetic forms of quadrant 1: C.SRLI, C.SRAI, C.ANDI, C.SUB, C.XOR, C.OR, C.AND. -/
def QueueCore.rvCAlu (c : QueueCore) (w : Word) : QcAct :=
  let rd : BitVec 5 := BitVec.ofNat 5 (8 + field w 7 3)
  let a := c.reg rd
  let b := c.reg (BitVec.ofNat 5 (8 + field w 2 3))
  let shamt : Word := BitVec.ofNat 32 (field w 2 5)
  match field w 10 2 with
  | 0 => if bit w 12 then rvIllegal w else .compute rd (rvAlu 5 false a shamt)
  | 1 => if bit w 12 then rvIllegal w else .compute rd (rvAlu 5 true a shamt)
  | 2 => .compute rd (a &&& rvSext 6 (field w 12 1 * 32 + field w 2 5))
  | _ => if bit w 12 then rvIllegal w else .compute rd (match field w 5 2 with | 0 => a - b | 1 => a ^^^ b | 2 => a ||| b | _ => a &&& b)
/-- Quadrant 1. -/
def QueueCore.rvC1 (c : QueueCore) (w : Word) : QcAct :=
  let rd := w.extractLsb' 7 5
  let imm := rvSext 6 (field w 12 1 * 32 + field w 2 5)
  let sp := field w 12 1 * 512 + field w 6 1 * 16 + field w 5 1 * 64 + field w 3 2 * 128 + field w 2 1 * 32
  let low := c.reg (BitVec.ofNat 5 (8 + field w 7 3))
  match field w 13 3 with
  | 0 => .compute rd (c.reg rd + imm)
  | 1 => .jump 1 (c.rvCJump w)
  | 2 => .compute rd imm
  | 3 =>
    if imm = 0 then rvIllegal w
    else if rd = 2 then .compute 2 (c.reg 2 + rvSext 10 sp) else .compute rd (imm <<< 12)
  | 4 => c.rvCAlu w
  | 5 => .jump 0 (c.rvCJump w)
  | 6 => if low = 0 then .jump 0 (c.rvCBranch w) else .compute 0 0
  | _ => if low = 0 then .compute 0 0 else .jump 0 (c.rvCBranch w)
/-- Quadrant 2. -/
def QueueCore.rvC2 (c : QueueCore) (w : Word) : QcAct :=
  let rd := w.extractLsb' 7 5
  let rs2 := w.extractLsb' 2 5
  match field w 13 3 with
  | 0 => if bit w 12 then rvIllegal w else .compute rd (rvAlu 1 false (c.reg rd) (rs2.setWidth 32))
  | 2 => if rd = 0 then rvIllegal w
    else .load rd (c.reg 2 + BitVec.ofNat 32 (field w 12 1 * 32 + field w 4 3 * 4 + field w 2 2 * 64)) 4 true
  | 4 =>
    if rs2 = 0 then
      if rd = 0 then (if bit w 12 then .trap 3 c.pc else rvIllegal w)
      else .jump (if bit w 12 then 1 else 0) (c.reg rd)
    else .compute rd (if bit w 12 then c.reg rd + c.reg rs2 else c.reg rs2)
  | 6 => .store rs2 (c.reg 2 + BitVec.ofNat 32 (field w 9 4 * 4 + field w 7 2 * 64)) 4
  | _ => rvIllegal w
/-- What the instruction with these bits does: 32 bits where the low two are 11, and 16 otherwise. -/
def QueueCore.rvAct (c : QueueCore) (w : Word) : QcAct :=
  match field w 0 2 with
  | 0 => c.rvC0 w
  | 1 => c.rvC1 w
  | 2 => c.rvC2 w
  | _ => c.rvWord w

/-! ### CSRs -/

/-- The machine-mode CSRs that the standard lets an implementation choose freely: the performance counters and their events. -/
def rvOpenCsr (n : Nat) : Bool := (0xB03 ≤ n && n ≤ 0xB1F) || (0xB83 ≤ n && n ≤ 0xB9F) || (0x323 ≤ n && n ≤ 0x33F)
/-- The CSRs that the standard makes constant here: identity, and those of interrupts, of which no rule raises one, of byte order and of the
inhibition of counters, which read 0 (log 19). -/
def rvConstCsr (n : Nat) : Bool := (0xF11 ≤ n && n ≤ 0xF15) || [0x304, 0x310, 0x320, 0x344].contains n
/-- The CSRs that the model holds: range registers (R468), mstatus, misa, mtvec, mscratch, mepc, mcause, mtval, and the two counters of 64 bits. -/
def rvHeldCsr (n : Nat) : Bool :=
  (0x7C0 ≤ n && n ≤ 0x7FF) || [0x300, 0x301, 0x305, 0x340, 0x341, 0x342, 0x343, 0xB00, 0xB80, 0xB02, 0xB82].contains n
/-- Whether an access to a CSR is legal: it exists, and a read-only one is not written. -/
def rvCsrOk (n : Nat) (writes : Bool) : Bool := (rvOpenCsr n || rvConstCsr n || rvHeldCsr n) && !(writes && 0xC00 ≤ n)
/-- mstatus in machine mode alone: MPP reads 11, and MIE and MPIE are held. -/
def QueueCore.mstatus (c : QueueCore) : Word := BitVec.ofNat 32 (0x1800 + c.mpie.toNat * 128 + c.mie.toNat * 8)
/-- Cycles of the 1.2 GHz queue-core clock since reset (R10). -/
def State.queueCycles (s : State) : DWord := BitVec.ofNat 64 (s.devTime.toNat * 6 / 5)
/-- The value of a CSR; one that is left to the implementation reads a free value. -/
def State.readCsr (s : State) (k csr : Nat) : Word × State :=
  let c := s.qcore k
  let cycle := s.queueCycles + c.cycleOffset
  if 0x7C0 ≤ csr && csr < 0x800 then ((((c.ranges[(csr - 0x7C0) / 4]?).getD 0).extractLsb' (32 * (csr % 4)) 32), s)
  else match csr with
    | 0x300 => (c.mstatus, s)
    | 0x301 => (0x40001105, s)
    | 0x305 => (c.mtvec, s)
    | 0x340 => (c.mscratch, s)
    | 0x341 => (c.mepc, s)
    | 0x342 => (c.mcause, s)
    | 0x343 => (c.mtval, s)
    | 0xB00 => (cycle.extractLsb' 0 32, s)
    | 0xB80 => (cycle.extractLsb' 32 32, s)
    | 0xB02 => (c.minstret.extractLsb' 0 32, s)
    | 0xB82 => (c.minstret.extractLsb' 32 32, s)
    | n => if 0xF11 ≤ n && n ≤ 0xF15 then (Config.rvIdentity k n, s) else if rvConstCsr n then (0, s) else s.freeWord
/-- A 64-bit counter with one of its halves written. -/
def setHalf (old : DWord) (high : Bool) (v : Word) : DWord := if high then v ++ old.extractLsb' 0 32 else old.extractLsb' 32 32 ++ v
/-- A write to a CSR, at a count of cycles. A range register keeps zero in its reserved bits, and a BASE that is not 64-byte aligned loses its low
bits: R6 does not list these registers, and R468 does not say (DESIGN CHOICE, log 22). -/
def QueueCore.writeCsr (c : QueueCore) (csr : Nat) (cycles : DWord) (v : Word) : QueueCore :=
  if 0x7C0 ≤ csr && csr < 0x800 then
    let lo := 32 * (csr % 4)
    { c with ranges := c.ranges.modify ((csr - 0x7C0) / 4) fun r =>
        ((r &&& ~~~(BitVec.ofNat 128 0xFFFFFFFF <<< lo)) ||| (v.setWidth 128 <<< lo)) &&& ~~~((at_ 128 3 9 0x1FF) ||| at_ 128 44 6 0x3F) }
  else match csr with
    | 0x300 => { c with mie := bit v 3, mpie := bit v 7 }
    | 0x305 => { c with mtvec := v }
    | 0x340 => { c with mscratch := v }
    | 0x341 => { c with mepc := v &&& ~~~1#32 }
    | 0x342 => { c with mcause := v }
    | 0x343 => { c with mtval := v }
    | 0xB00 => { c with cycleOffset := setHalf (cycles + c.cycleOffset) false v - cycles }
    | 0xB80 => { c with cycleOffset := setHalf (cycles + c.cycleOffset) true v - cycles }
    | 0xB02 => { c with minstret := setHalf c.minstret false v }
    | 0xB82 => { c with minstret := setHalf c.minstret true v }
    | _ => c
/-- What a CSR form writes over an old value. -/
def rvCsrNew (kind : Nat) (old v : Word) : Word :=
  match kind with
  | 1 => v
  | 2 => old ||| v
  | _ => old &&& ~~~v

end Sys2Proof.Machine
end

