-- ==== Sys2Proof/Machine/Registers.lean ====
section
/-! DEFINITION. The part's register blocks as system software writes them, and the queue and system cores at the boundary that the
manual describes (R6, R51, R229, R309, R350, R400, R412, R429, R448, R451, R467, R468). -/

namespace Sys2Proof.Machine
open Bits

/-! ### Register writes (R6) -/

/-- A written value when it lies in its field's range; otherwise the field keeps its previous value. -/
def keep {α : Type} (ok : Bool) (new old : α) : α := if ok then new else old
/-- A 4 KiB-aligned IA. -/
def pageAligned (v : DWord) : Bool := isZero v 0 12 && isZero v 52 12
/-- One of the four registers of a ring of R229; `prod` says which count software writes. -/
def RingRegs.write (r : RingRegs) (prod : Bool) (i : Nat) (v : DWord) : RingRegs :=
  match i with
  | 0 => { r with base := keep (pageAligned v) v.toNat r.base }
  | 1 => { r with log := keep (v == 0 || (4 ≤ v.toNat && v.toNat ≤ 16)) v.toNat r.log }
  | 2 => if prod then { r with prod := v } else r
  | _ => if prod then r else { r with cons := v }
/-- A translation unit's register (R229, R236). A write to MPTB with a bit set above its field keeps the old value (DESIGN CHOICE, log 22). -/
def Mtu.write (m : Mtu) (off : Nat) (v : DWord) : Mtu :=
  if off % 8 != 0 then m
  else if off == 0 then { m with mptb := keep (isZero v 25 39) (field v 0 25) m.mptb }
  else if off == 8 then { m with mptlen := v.toNat }
  else if off == 0x10 then { m with ageper := keep (isZero v 16 48) (field v 0 16) m.ageper }
  else if 0x40 ≤ off && off < 0x60 then { m with cmd := m.cmd.write true ((off - 0x40) / 8) v }
  else if 0x60 ≤ off && off < 0x80 then { m with free := m.free.write true ((off - 0x60) / 8) v }
  else if 0x80 ≤ off && off < 0xA0 then { m with active := m.active.write false ((off - 0x80) / 8) v }
  else if 0xA0 ≤ off && off < 0xC0 then { m with inactive := m.inactive.write false ((off - 0xA0) / 8) v }
  else if v != 0 then m
  else if 0x100 ≤ off && off < 0x148 then { m with counters := m.counters.set ((off - 0x100) / 8) 0 }
  else if off == 0x148 then { m with forced := 0 }
  else if off == 0x150 then { m with refreshes := 0 }
  else m
/-- A word of a work-queue descriptor: all but CLOSED only while EN = 0, and EN only with a LOG in range (R6, R350). -/
def QueueDesc.write (d : QueueDesc) (i : Nat) (v : DWord) : QueueDesc :=
  match i with
  | 0 =>
    if d.en then { d with closed := d.closed || bit v 3, en := bit v 0 }
    else
      let log := keep (field v 13 5 == 0 || (4 ≤ field v 13 5 && field v 13 5 ≤ 16)) (field v 13 5) d.log
      { d with
        ring := 64 * field v 18 46
        log := log
        closed := bit v 3
        mode := bit v 2
        en := bit v 0 && log != 0 }
  | 1 => if d.en then d else { d with tail := v }
  | 2 => if d.en then d else { d with pub := v }
  | _ => if d.en then d else { d with head := v }
/-- A word of a service-queue descriptor; JBASE and JLOG change only while SERV = 0. That the journal is then free of entries is software's
to see to (R49, log 27). -/
def SvcDesc.write (d : SvcDesc) (i : Nat) (v : DWord) : SvcDesc :=
  match i with
  | 0 => { d with serv := bit v 0 }
  | _ => if d.serv then d else { d with
      jbase := keep (isZero v 12 6) (field v 12 52) d.jbase
      jlog := keep (field v 8 4 ≤ 8) (field v 8 4) d.jlog }
/-- A register of a context's control block (R400, R448). CMD is ignored while BUSY (R406). A write to TRLOG or PFLOG whose bits [63:5], which
neither rule lists, are not 0 keeps the old LOG, be [4:0] legal or not, and so does one to HTCOUNT with a bit of [63:19] set; TENANT and TRBASE take
their own bits and drop the rest (DESIGN CHOICE, log 22). -/
def Context.write (c : Context) (off : Nat) (v : DWord) : Context :=
  let log (old : Nat) : Nat := keep (isZero v 5 59 && (v == 0 || (8 ≤ v.toNat && v.toNat ≤ 16))) v.toNat old
  match off with
  | 0x00 => { c with trbase := 64 * field v 6 46 }
  | 0x08 => { c with trlog := log c.trlog }
  | 0x18 => { c with trcons := v }
  | 0x20 => { c with lost := c.lost && !bit v 0 }
  | 0x28 => { c with dbgen := bit v 0 }
  | 0x30 => { c with dumpbase := 4096 * field v 12 40 }
  | 0x40 => if c.cmdstat == 1 then c else { c with cmdOpc := v.extractLsb' 0 8, cmdTask := v.extractLsb' 32 32, cmdstat := 1 }
  | 0x48 => { c with cmdarg := keep (pageAligned v) v.toNat c.cmdarg }
  | 0x58 => { c with pfbase := 64 * field v 6 46 }
  | 0x60 => { c with pflog := log c.pflog }
  | 0x70 => { c with pfcons := v }
  | 0x78 => { c with pfdrop := keep (v == 0) 0 c.pfdrop }
  | 0x80 => { c with cmdlen := v }
  | 0x88 => { c with htbase := 64 * field v 6 46 }
  | 0x90 => { c with htcount := keep (v.toNat ≤ 262144) v.toNat c.htcount }
  | 0x98 => { c with tenant := v.extractLsb' 0 16 }
  | _ => c
/-- A register of the Latigo block (R429). -/
def Latigo.write (l : Latigo) (off : Nat) (v : DWord) : Latigo :=
  if off == 0x10 then { l with maxterm := keep (100 ≤ v.toNat && v.toNat ≤ 10000000) v.toNat l.maxterm }
  else if 0x40 ≤ off && off < 0x60 then { l with cmd := l.cmd.write true ((off - 0x40) / 8) v }
  else if 0x60 ≤ off && off < 0x80 then { l with event := l.event.write false ((off - 0x60) / 8) v }
  else if 0x100 ≤ off && off < 0x300 then { l with permit := Sparse.put (fun _ => 0) l.permit ((off - 0x100) / 8) v }
  else l
/-- A register of the checkpoint engine but for CKCMD (R451). -/
def Checkpoint.write (c : Checkpoint) (off : Nat) (v : DWord) : Checkpoint :=
  match off with
  | 0x10 => { c with step := v }
  | 0x18 => { c with job := v.extractLsb' 0 32, dev := v.extractLsb' 32 8, ndev := keep (field v 40 8 != 0) (v.extractLsb' 40 8) c.ndev }
  | 0x20 => { c with area := 4096 * field v 12 40 }
  | 0x28 => { c with arealen := v }
  | 0x30 => { c with target := keep (isZero v 0 12) v c.target }
  | 0x38 => { c with base := v }
  | _ => c
/-- A binding entry (R38). -/
def Page.code (p : Page) : BitVec 256 :=
  at_ 256 192 64 p.naddr.toNat ||| at_ 256 160 32 p.ndata.toNat ||| at_ 256 128 7 p.outn ||| at_ 256 64 64 p.crbase.toNat |||
    at_ 256 48 16 p.crpages ||| at_ 256 32 6 p.ctx ||| at_ 256 16 16 p.tenant.toNat ||| at_ 256 0 1 p.en.toNat
/-- What the part has set of REF, DIRTY and ACT in a unit's table goes into the table's own bytes, before another table takes its place (R229,
R230). -/
def State.flushBits (s : State) (stack : Nat) : State :=
  (s.pageBits.filter fun x => x.1 / 2 ^ 33 == stack).foldl (fun s x => s.setPte (x.1 * 65536) (s.pte (x.1 * 65536))) s
/-- REGISTER_WRITE: a 64-bit write at a system-core physical address. One to a word of a binding entry writes the fields in that word alone
(DESIGN CHOICE, log 75: R38 gives the table no access width). -/
def State.writeRegister (s : State) (a : Nat) (v : DWord) : State :=
  let at_ (base len : Nat) : Bool := base ≤ a && a < base + len
  if a % 8 != 0 then s
  else if at_ 0xF000004000 0x200 then
    let c := (a - 0xF000004000) / 8
    if s.inUse c then s else s.updCtx c fun x => { x with compat := bit v 0 }
  else if at_ 0xF000100000 0x8000 then
    let k := (a - 0xF000100000) / 0x1000
    let off := (a - 0xF000100000) % 0x1000
    (if off == 0 then s.flushBits k else s).updMtu k (·.write off v)
  else if at_ 0xF000200000 0x20000 then
    s.updQueue ((a - 0xF000200000) / 32) (·.write ((a - 0xF000200000) % 32 / 8) v)
  else if at_ 0xF000300000 0x20 then { s with inval := s.inval.write true ((a - 0xF000300000) / 8) v }
  else if at_ 0xF000400000 0x4000 then
    let c := (a - 0xF000400000) / 0x100
    (s.updCtx c (·.write ((a - 0xF000400000) % 0x100) v)).restall c
  else if at_ 0xF000500000 0x300 then s.updLatigo (·.write (a - 0xF000500000) v)
  else if a == 0xF000600000 then s.ckWrite v
  else if at_ 0xF000600000 0x48 then s.updCk (·.write (a - 0xF000600000) v)
  else if at_ 0xF000700000 0x20000 then
    let i := (a - 0xF000700000) / 32
    let w := 8 * ((a - 0xF000700000) % 32)
    s.writeBinding i (((s.page i).code &&& ~~~(Bits.at_ 256 w 64 (2 ^ 64 - 1))) ||| Bits.at_ 256 w 64 v.toNat)
  else if at_ 0xF000900000 0x200 then s.writeQsb ((a - 0xF000900000) / 8) v
  else if at_ 0xF000800000 0x10000 then let q := (a - 0xF000800000) / 16
    { s with services := Sparse.insert q ((s.service q).write ((a - 0xF000800000) % 16 / 8) v) s.services }
  else s
def execRegisterWrite (address : Nat) (value : DWord) (s : State) : Result := .next (s.writeRegister address value)

/-! ### Register reads -/

def RingRegs.read (r : RingRegs) (i : Nat) : DWord :=
  match i with
  | 0 => BitVec.ofNat 64 r.base
  | 1 => BitVec.ofNat 64 r.log
  | 2 => r.prod
  | _ => r.cons
def Mtu.read (m : Mtu) (off : Nat) : DWord :=
  if off == 0 then BitVec.ofNat 64 m.mptb
  else if off == 8 then BitVec.ofNat 64 m.mptlen
  else if off == 0x10 then BitVec.ofNat 64 m.ageper
  else if 0x40 ≤ off && off < 0x60 then m.cmd.read ((off - 0x40) / 8)
  else if 0x60 ≤ off && off < 0x80 then m.free.read ((off - 0x60) / 8)
  else if 0x80 ≤ off && off < 0xA0 then m.active.read ((off - 0x80) / 8)
  else if 0xA0 ≤ off && off < 0xC0 then m.inactive.read ((off - 0xA0) / 8)
  else if 0x100 ≤ off && off < 0x148 then (m.counters[(off - 0x100) / 8]?).getD 0
  else if off == 0x148 then m.forced
  else if off == 0x150 then m.refreshes
  else 0
def QueueDesc.read (d : QueueDesc) (i : Nat) : DWord :=
  match i with
  | 0 => at_ 64 0 1 d.en.toNat ||| at_ 64 2 1 d.mode.toNat ||| at_ 64 3 1 d.closed.toNat ||| at_ 64 13 5 d.log ||| at_ 64 18 46 (d.ring / 64)
  | 1 => d.tail
  | 2 => d.pub
  | _ => d.head
def SvcDesc.read (d : SvcDesc) (i : Nat) : DWord :=
  match i with
  | 0 => at_ 64 0 1 d.serv.toNat
  | _ => at_ 64 8 4 d.jlog ||| at_ 64 12 52 d.jbase
def Context.read (c : Context) (off : Nat) : DWord :=
  match off with
  | 0x00 => BitVec.ofNat 64 c.trbase
  | 0x08 => BitVec.ofNat 64 c.trlog
  | 0x10 => c.trprod
  | 0x18 => c.trcons
  | 0x20 => at_ 64 0 1 c.lost.toNat ||| at_ 64 1 1 c.stalled.toNat
  | 0x28 => at_ 64 0 1 c.dbgen.toNat
  | 0x30 => BitVec.ofNat 64 c.dumpbase
  | 0x38 => c.dumpcnt
  | 0x48 => BitVec.ofNat 64 c.cmdarg
  | 0x50 => BitVec.ofNat 64 c.cmdstat
  | 0x58 => BitVec.ofNat 64 c.pfbase
  | 0x60 => BitVec.ofNat 64 c.pflog
  | 0x68 => c.pfprod
  | 0x70 => c.pfcons
  | 0x78 => c.pfdrop
  | 0x80 => c.cmdlen
  | 0x88 => BitVec.ofNat 64 c.htbase
  | 0x90 => BitVec.ofNat 64 c.htcount
  | 0x98 => c.tenant.setWidth 64
  | _ => 0
/-- A lease-table entry of R430. -/
def Lease.code (l : Lease) : BitVec 256 :=
  let st := match l.st with | .released => 0 | .offered => 1 | .active => 2 | .recalling => 3
  at_ 256 192 64 l.expiry ||| at_ 256 160 32 l.id.toNat ||| at_ 256 128 32 l.term ||| at_ 256 96 12 l.poolg ||| at_ 256 80 16 l.ngran |||
    at_ 256 68 12 l.peer.toNat ||| at_ 256 8 8 l.cause ||| at_ 256 4 1 l.uio.toNat ||| at_ 256 3 1 l.notice.toNat |||
    at_ 256 2 1 l.borrowed.toNat ||| at_ 256 0 2 st
def State.readLatigo (s : State) (off : Nat) : DWord :=
  let l := s.latigo
  if off == 0 then l.pbr.setWidth 64
  else if off == 8 then at_ 64 0 1 s.pers.cand.toNat ||| at_ 64 8 8 s.pers.candPri.toNat
  else if off == 0x10 then BitVec.ofNat 64 l.maxterm
  else if off == 0x18 then at_ 64 0 12 l.fmPbr.toNat ||| at_ 64 12 1 l.fmValid.toNat ||| at_ 64 32 16 l.fmEpoch.toNat
  else if 0x40 ≤ off && off < 0x60 then l.cmd.read ((off - 0x40) / 8)
  else if 0x60 ≤ off && off < 0x80 then l.event.read ((off - 0x60) / 8)
  else if 0x100 ≤ off && off < 0x300 then Sparse.get (fun _ => 0) l.permit ((off - 0x100) / 8)
  else if 0x10000 ≤ off && off < 0x30000 then ((s.lease ((off - 0x10000) / 32)).code.extractLsb' (8 * (off % 32)) 64)
  else 0
/-- STATE of CKSTAT (R451). -/
def CkState.code : CkState → Nat
  | .running => 0
  | .quiescing => 1
  | .quiesced => 2
  | .writing => 3
  | .written => 4
  | .loading => 5
  | .loaded => 6
  | .failed => 7
def Checkpoint.read (c : Checkpoint) (off : Nat) : DWord :=
  match off with
  | 0x08 => at_ 64 0 8 c.st.code ||| at_ 64 8 8 c.err.toNat ||| at_ 64 32 32 c.shard.toNat
  | 0x10 => c.step
  | 0x18 => at_ 64 0 32 c.job.toNat ||| at_ 64 32 8 c.dev.toNat ||| at_ 64 40 8 c.ndev.toNat
  | 0x20 => BitVec.ofNat 64 c.area
  | 0x28 => c.arealen
  | 0x30 => c.target
  | 0x38 => c.base
  | 0x40 => c.bytes
  | _ => 0
/-- A 64-bit read at a system-core physical address; what no register holds, and a write-only register, reads 0. -/
def State.readRegister (s : State) (a : Nat) : DWord :=
  let at_ (base len : Nat) : Bool := base ≤ a && a < base + len
  if a % 8 != 0 then 0
  else if at_ 0xF000004000 0x200 then
    let c := (a - 0xF000004000) / 8
    Bits.at_ 64 0 1 (s.ctx c).compat.toNat ||| Bits.at_ 64 1 1 (s.inUse c).toNat
  else if at_ 0xF000100000 0x8000 then (s.mtu ((a - 0xF000100000) / 0x1000)).read ((a - 0xF000100000) % 0x1000)
  else if at_ 0xF000200000 0x20000 then (s.queue ((a - 0xF000200000) / 32)).read ((a - 0xF000200000) % 32 / 8)
  else if at_ 0xF000300000 0x20 then s.inval.read ((a - 0xF000300000) / 8)
  else if at_ 0xF000400000 0x4000 then (s.ctx ((a - 0xF000400000) / 0x100)).read ((a - 0xF000400000) % 0x100)
  else if at_ 0xF000500000 0x30000 then s.readLatigo (a - 0xF000500000)
  else if at_ 0xF000600000 0x48 then s.ck.read (a - 0xF000600000)
  else if at_ 0xF000700000 0x20000 then (s.page ((a - 0xF000700000) / 32)).code.extractLsb' (8 * ((a - 0xF000700000) % 32)) 64
  else if at_ 0xF000800000 0x10000 then (s.service ((a - 0xF000800000) / 16)).read ((a - 0xF000800000) % 16 / 8)
  else if at_ 0xF000900000 0x200 then BitVec.ofNat 64 ((s.qsb[(a - 0xF000900000) / 8]?).getD 0)
  else 0

/-! ### Queue cores (R468) -/

/-- Rights bits of a range register. -/
def rangeR : Nat := 0
def rangeW : Nat := 1
def rangeX : Nat := 2
/-- The IA of a queue-core physical address: the lowest-numbered register that serves it decides. -/
def QueueCore.reach (c : QueueCore) (a right : Nat) : Option Nat :=
  match c.ranges.find? fun r => field r 0 3 != 0 && field r 96 32 ≤ a && a < field r 96 32 + field r 12 32 with
  | some r => if bit r right then some ((field r 44 52 + (a - field r 96 32)) % 2 ^ 52) else none
  | none => none
/-- The service port lies outside every range register (R51, R468). -/
def inPort (a : Nat) : Bool := 0xFFFF0000 ≤ a && a < 0xFFFF0080
/-- Where the bytes of an access lie, as IA and physical address; or the cause and the IA of the byte that has no place. -/
def State.qcPlaces (s : State) (k a n right : Nat) (acc : Access) : Except (BitVec 8 × Nat) (List (Nat × Nat)) :=
  (List.range n).mapM fun i => match if inPort (a + i) then none else (s.qcore k).reach (a + i) right with
    | none => .error (causeRights, 0)
    | some ia => match s.checkPlace ia 1 acc with
      | .ok p => .ok (ia, p.phys)
      | .error c => .error (c, ia)
/-- The side effects of an access, by line. -/
def State.qcNote (s : State) (l : List (Nat × Nat)) (store : Bool) : State :=
  ((l.map fun x => x.1 / 64).eraseDups).foldl (fun s x => s.noteOwn (64 * x) 64 store) s
/-- An access without a place: one to a compressed page waits for its expansion, and one to a lent or borrowed line for the other part; any other raises the access fault of its kind
(DESIGN CHOICE, log 26, for a page that is not present or not readable: R468 speaks of range registers alone). -/
def State.qcFault (s : State) (k : Nat) (x : BitVec 8 × Nat) (kind : Word) (a : Nat) : State :=
  if x.1 == causeCompressed || x.1 == causeWait then s.setGoing { cause := x.1, arg1 := BitVec.ofNat 64 x.2 }
  else s.nodeException k kind (BitVec.ofNat 32 a)
/-- The value an access reads. -/
def State.qcRead (s : State) (l : List (Nat × Nat)) : Word := ofBytes 32 (l.map fun x => s.byte x.2)
/-- The write of an access; false while it must wait for a locked line (R291). -/
def State.coreWrite (s : State) (l : List (Nat × Nat)) (data : List Byte) : Bool × State :=
  if l.any fun x => s.lineLocked x.1 1 then (false, s)
  else (true, (l.zip data).foldl (fun s x => s.storeBytes .other x.1.1 x.1.2 [x.2]) (s.qcNote l true))
def State.qcWrite (s : State) (l : List (Nat × Nat)) (v : Word) : Bool × State := s.coreWrite l (toBytes l.length v)
/-- An instruction has completed: its result, and the pc behind it. -/
def State.qcDone (s : State) (k : Nat) (rd : BitVec 5) (v : Word) (len : Nat) : State :=
  s.updQcore k fun c => { c.setReg rd v with pc := c.pc + BitVec.ofNat 32 len, minstret := c.minstret + 1 }
/-- A load's value, extended. -/
def qcExtend (v : Word) (n : Nat) (signed : Bool) : Word := if signed then (v.setWidth (8 * n)).signExtend 32 else (v.setWidth (8 * n)).setWidth 32
/-- The new value of an AMO by its funct5; LR, SC and other codes have none. -/
def qcAmo (op : BitVec 5) (old v : Word) : Option Word :=
  match op.toNat with
  | 0 => some (old + v)
  | 1 => some v
  | 4 => some (old ^^^ v)
  | 8 => some (old ||| v)
  | 12 => some (old &&& v)
  | 16 => some (if old.sle v then old else v)
  | 20 => some (if old.sle v then v else old)
  | 24 => some (if old.ule v then old else v)
  | 28 => some (if old.ule v then v else old)
  | _ => none
/-- A load from the port: STAT, or bytes of BUF. -/
def QueueCore.portLoad (c : QueueCore) (off n : Nat) : Option Word :=
  if off == 8 && n == 4 then some (at_ 32 0 8 c.stat ||| at_ 32 8 1 c.recover.toNat)
  else if 0x40 ≤ off && off + n ≤ 0x80 then some (ofBytes 32 (((toBytes 64 c.buf).drop (off - 0x40)).take n))
  else none
/-- A store to the port: QSEL, CMD, or bytes of BUF; false while a command must wait. -/
def State.portStore (s : State) (k off n : Nat) (v : Word) : Option (Bool × State) :=
  if off == 0 && n == 4 then some (true, s.updQcore k fun c => { c with qsel := field v 0 12 })
  else if off == 4 && n == 4 then match s.svcWait k v.toNat with
    | some t => some (false, t)
    | none => some (true, s.svcCommand k v.toNat)
  else if 0x40 ≤ off && off + n ≤ 0x80 then some (true, s.updQcore k fun c =>
    let b := toBytes 64 c.buf
    { c with buf := ofBytes 512 (b.take (off - 0x40) ++ toBytes n v ++ b.drop (off - 0x40 + n)) })
  else none
def State.qcLoad (s : State) (k : Nat) (rd : BitVec 5) (a n : Nat) (signed : Bool) (len : Nat) : State :=
  if a % n != 0 then s.nodeException k 4 (BitVec.ofNat 32 a)
  else if inPort a then match (s.qcore k).portLoad (a - 0xFFFF0000) n with
    | some v => s.qcDone k rd (qcExtend v n signed) len
    | none => s.nodeException k 5 (BitVec.ofNat 32 a)
  else match s.qcPlaces k a n rangeR .load with
    | .error x => s.qcFault k x 5 a
    | .ok l => (s.qcNote l false).qcDone k rd (qcExtend (s.qcRead l) n signed) len
/-- A store; EXIT and FAIL end the node, whose core then stands where it was. -/
def State.qcStore (s : State) (k : Nat) (rs : BitVec 5) (a n len : Nat) : State :=
  let v := (s.qcore k).reg rs
  if a % n != 0 then s.nodeException k 6 (BitVec.ofNat 32 a)
  else if inPort a then match s.portStore k (a - 0xFFFF0000) n v with
    | some (true, t) => t.qcDone k 0 0 len
    | some (false, t) => t
    | none => s.nodeException k 7 (BitVec.ofNat 32 a)
  else match s.qcPlaces k a n rangeW .write with
    | .error x => s.qcFault k x 7 a
    | .ok l =>
      let r := s.qcWrite l v
      if r.1 then r.2.qcDone k 0 0 len else r.2
/-- An atomic of the A extension: LR needs R, SC needs W, the rest both. -/
def State.qcAtomic (s : State) (k : Nat) (rd rs : BitVec 5) (a : Nat) (op : BitVec 5) (len : Nat) : State :=
  let c := s.qcore k
  let right := if op == 2 then rangeR else rangeW
  if a % 4 != 0 then s.nodeException k (if op == 2 then 4 else 6) (BitVec.ofNat 32 a)
  else if op != 2 && op != 3 && (c.reach a rangeR).isNone then s.nodeException k 7 (BitVec.ofNat 32 a)
  else match (if inPort a then .error (causeRights, 0) else s.qcPlaces k a 4 right (if op == 3 then .write else .load)) with
    | .error x => s.qcFault k x (if op == 2 then 5 else 7) a
    | .ok l =>
      let old := s.qcRead l
      let phys := (l.map (·.2)).headD 0
      if op == 2 then ((s.qcNote l false).updQcore k fun c => { c with resv := some phys }).qcDone k rd old len
      else if op == 3 then
        -- the RISC-V rules let an SC fail although its reservation stands
        let r := s.freeBool
        if c.resv != some phys || r.1 then (r.2.updQcore k fun c => { c with resv := none }).qcDone k rd 1 len
        else
          let w := r.2.qcWrite l (c.reg rs)
          if w.1 then (w.2.updQcore k fun c => { c with resv := none }).qcDone k rd 0 len else w.2
      else match qcAmo op old (c.reg rs) with
        | none => s.nodeException k 2 0
        | some v =>
          let w := s.qcWrite l v
          if w.1 then w.2.qcDone k rd old len else w.2
/-- What an instruction does once it is fetched; `len` is its length in bytes. -/
def State.qcAct (s : State) (k : Nat) (act : QcAct) (len : Nat) : State :=
  match act with
  | .compute rd v => s.qcDone k rd v len
  | .jump rd t => (s.qcDone k rd ((s.qcore k).pc + BitVec.ofNat 32 len) len).updQcore k fun c => { c with pc := t &&& ~~~1#32 }
  | .load rd a n signed => s.qcLoad k rd a.toNat n signed len
  | .store rs a n => s.qcStore k rs a.toNat n len
  | .amo rd rs a op => s.qcAtomic k rd rs a.toNat op len
  | .csr rd csr kind v writes =>
    let r := s.readCsr k csr
    let t := r.2.qcDone k rd r.1 len
    if writes then t.updQcore k fun c => c.writeCsr csr s.queueCycles (rvCsrNew kind r.1 v) else t
  | .trap cause tval => s.nodeException k cause tval
  | .mret => (s.qcDone k 0 0 len).updQcore k fun c => { c with pc := c.mepc, mie := c.mpie, mpie := true }
/-- What the fetched word `w` does, but for a CSR access that is not legal. -/
def QueueCore.legalAct (c : QueueCore) (w : Word) : QcAct :=
  match c.rvAct w with
  | .csr rd csr kind v writes => if rvCsrOk csr writes then .csr rd csr kind v writes else rvIllegal w
  | a => a
/-- The instruction at the pc: fetched through the range registers, 2 bytes and, where they ask for it, 2 more, then carried out. -/
def State.qcInstruction (s : State) (qcore : Nat) : State :=
  let c := s.qcore qcore
  let pc := c.pc.toNat
  match s.qcPlaces qcore pc 2 rangeX .load with
  | .error x => s.qcFault qcore x 1 pc
  | .ok l =>
    let low := s.qcRead l
    let s := s.qcNote l false
    if field low 0 2 != 3 then s.qcAct qcore (c.legalAct low) 2
    else match s.qcPlaces qcore (pc + 2) 2 rangeX .load with
      | .error x => s.qcFault qcore x 1 (pc + 2)
      | .ok m => (s.qcNote m false).qcAct qcore (c.legalAct (low ||| (s.qcRead m <<< 16))) 4
/-- QUEUE_CORE_INSTRUCTION (R468), or a queue core's push (R50). There are 64 queue cores. -/
def execQueueCoreInstruction (go : QcGo) (s : State) : Result :=
  .next (match go with
    | .instruction k => if 64 ≤ k then s else s.qcInstruction k
    | .push k q v => s.nodePush k q v)

end Sys2Proof.Machine
end

