-- ==== Sys2Proof/Machine/Platform.lean ====
section
/-! DEFINITION. Reset and boot, attestation, Cinch, and the thermal limits (R469 to R476, R479). -/

namespace Sys2Proof.Machine
open Bits

/-! ### Reset and boot (R469, R470, R479) -/

namespace Pr
def rec_ : BitVec 2048 := ofBytes 2048 (Config.flash 2)
def reservedZero : Bool := isZero rec_ 28 2 && isZero rec_ 64 1072 && isZero rec_ 2048 0
def ver : Nat := field rec_ 0 8
def svn : BitVec 16 := rec_.extractLsb' 8 16
def zc : Nat := field rec_ 24 4
def poolgr : Nat := field rec_ 30 12
def bifurcated : BitVec 12 := rec_.extractLsb' 42 12
end Pr
/-- R11 accepts a division: Zmin fits in what the flat half leaves, and the pool leaves a multiple of three. -/
def divisionOk (zc poolgr : Nat) : Bool :=
  2240 ≤ poolgr && poolgr ≤ 4094 && (8192 - poolgr) % 3 == 0 && zc ≤ 8 && 8 * zc * 12 ≤ 496 * 12 - (8192 - poolgr)
/-- Boot step 1: the firmware's signature under the key whose digest the ROM holds (R469). -/
def firmwareOk : Bool :=
  Config.shake256 (Config.flash 5) == Config.romDigest && Config.ed448ok (Config.flash 5) (Config.flash 1) (Config.flash 4)
/-- Boot step 2: the checks of R470 on the personality record, whose SIG, its bytes 0x8E to 0xFF, covers bytes 0x00 to 0x8D. -/
def recordOk : Bool :=
  Config.ed448ok (Config.flash 5) ((Config.flash 2).take 0x8E) (((Config.flash 2).drop 0x8E).take 114) && Pr.ver == 1 && Pr.reservedZero &&
  Config.minSvn.ule Pr.svn && divisionOk Pr.zc Pr.poolgr
def bootOk : Bool := firmwareOk && recordOk
/-- The identity key that the firmware derives from the physically unclonable function (R471). -/
def identityKey : List Byte := Config.shakeBytes Config.puf 57
/-- A stack's unit as boot leaves it: the table in its last frames covers every other page (R479). -/
def bootMtu (poolgr stack : Nat) : Mtu := { mptb := stack * 2 ^ 22 + Config.pagesOf poolgr, mptlen := Config.pagesOf poolgr }
/-- The bytes of a stack's boot page table (R479). -/
def bootTable (poolgr stack : Nat) : List Byte :=
  (List.range (Config.pagesOf poolgr)).flatMap fun p => toBytes 8 (at_ 64 61 3 1 ||| at_ 64 22 3 stack ||| at_ 64 0 22 p)
/-- Where a stack's boot page table lies. -/
def bootTableAt (poolgr stack : Nat) : Nat := (stack * 2 ^ 22 + Config.pagesOf poolgr) * 65536
/-- Install the boot page tables. Memory that nothing has written reads as the tables of the default division (log 4), so another division's
tables are written out, over frames that hold nothing else. -/
def State.installTables (s : State) (poolgr : Nat) : State :=
  if poolgr == Config.poolgr then s
  else
    let clear := (List.range 8).foldl (fun s i =>
      s.setBytes (bootTableAt Config.poolgr i) (List.replicate (8 * Config.mappedPages) 0)) s
    (List.range 8).foldl (fun s i => s.setBytes (bootTableAt poolgr i) (bootTable poolgr i)) clear
/-- The part as a boot that succeeds leaves it, but for the ports that did not train. -/
def State.booted (s : State) : State :=
  { s.installTables Pr.poolgr with
    boot := .up
    mtus := (List.range 8).map (bootMtu Pr.poolgr)
    pers :=
      { zc := Pr.zc, poolgr := Pr.poolgr, svn := Pr.svn, bifurcated := Pr.bifurcated, ide := bit Pr.rec_ 54, cand := bit Pr.rec_ 55
        candPri := Pr.rec_.extractLsb' 56 8 }
    sec := { s.sec with
      identity := identityKey
      publicKey := Config.ed448public identityKey
      measures := (List.range 4).map fun i => Config.shake256 (Config.flash i) }
    scores := s.scores.modify 0 fun c => { c with running := true, pc := Config.kernelEntry } }
/-- Links train or stay down, each on its own (R12). -/
def State.train (s : State) : State :=
  (List.range 24).foldl (fun s i =>
    let r := s.freeBool
    r.2.setPort (i / 2) (i % 2) r.1) s
/-- PART_RESET: every field at its reset value, then boot. Whether HBM and LP6 train at step 3 no rule tells, and it is a free choice; a step that
fails leaves the part in recovery. What lies outside the part stays: the safe tier and what was sent; so do the model's own turns and counters. -/
def execPartReset (s : State) : Result :=
  let z : State := { State.reset with turns := s.turns, free := s.free, nextId := s.nextId, outbox := s.outbox, safeTier := s.safeTier }
  let dram := z.freeBool
  .next (if bootOk && dram.1 then dram.2.booted.train else { dram.2 with boot := .recovery })

/-! ### Attestation (R471) -/

/-- A measurement block: the index, the DMTF specification, and the value with its kind: the ROM is immutable, the record a configuration. -/
def measureBlock (i : Nat) (v : BitVec 256) : List Byte :=
  let kind : Byte := match i with | 1 => 0 | 3 => 3 | _ => 1
  [BitVec.ofNat 8 i, 1, 35, 0, kind, 32, 0] ++ toBytes 32 v
/-- The blocks that a request for measurements names: all for 0xFF, none for 0, else that of an index; none when there is no such measurement. -/
def Security.blocks (c : Security) (op : Nat) : Option (List (List Byte)) :=
  let all := c.measures.zipIdx.map fun x => measureBlock (x.2 + 1) x.1
  if op == 0xFF then some all else if op == 0 then some [] else (all[op - 1]?).map ([·])
/-- The answer to a request for measurements: their blocks, the nonce and the context of the request, and, where the request asks for it, the
security block's signature over the request and the answer. -/
def Security.measured (c : Security) (q : List Byte) (l : List (List Byte)) : List Byte :=
  let signed := (q[2]?).any (·.getLsbD 0)
  let op := ((q[3]?).getD 0).toNat
  let rec_ := l.flatten
  let nonce := if signed then (q.drop 4).take 32 else Config.spdmOther q 1
  let head : List Byte := [0x13, 0x60, if op == 0 then BitVec.ofNat 8 c.measures.length else 0, 0, BitVec.ofNat 8 l.length] ++
    toBytes 3 (BitVec.ofNat 24 rec_.length) ++ rec_ ++ nonce ++ [0, 0] ++ (q.drop (if signed then 37 else 4)).take 8
  if signed then head ++ Config.ed448sign c.identity (q ++ head) else head
/-- The answer to an SPDM 1.3 message (R471; the codes and layouts are the standard's, PRESUMED, log 86): the versions, the measurements, and an error
for an index that no measurement has. What else the standard has a responder answer comes from it. -/
def Security.answer (c : Security) (q : List Byte) : List Byte :=
  match ((q[1]?).getD 0).toNat with
  | 0x84 => [0x10, 0x04, 0, 0, 0, 1, 0x00, 0x13]
  | 0xE0 => match c.blocks ((q[3]?).getD 0).toNat with
    | some l => c.measured q l
    | none => [0x13, 0x7F, 0x01, 0]
  | _ => Config.spdmOther q 0
/-- SPDM_REQUEST: a message to the responder. -/
def execSpdmRequest (data : List Byte) (s : State) : Result := .next (s.emit (.spdm (s.sec.answer data)))

/-! ### Cinch (R473, R474) -/

/-- The fibre states of R104. -/
def FibreState.code : FibreState → Nat
  | .free => 0
  | .runnable => 1
  | .waiting => 2
  | .parked => 3
/-- A byte of a register word. -/
def wordByte (w : Word) (i : Nat) : Byte := w.extractLsb' (8 * (i % 4)) 8
/-- A core's crews with their blocks. -/
def State.cinchCrews (s : State) (k : Nat) : List (Block × Crew) :=
  (s.blocks.filter fun b => b.core == k && !b.retired).flatMap fun b => (b.crews.filter (·.live)).map fun c => (b, c)
/-- A register of a crew's file or of its shadow, by fibre; none for a shadow that no open try fills. -/
def Crew.fileReg (c : Crew) (shadow : Bool) (fibre n : Nat) : Option Word :=
  if !shadow then some ((c.fibre fibre).reg n)
  else c.tr.map fun t => Sparse.get zeroReg ((t.shadow[fibre]?).getD []) n
/-- A register-file byte: a crew's register, or its shadow's, in the unit that holds it now (R71); none for units that no crew holds, whose
contents no rule gives. -/
def State.cinchReg (s : State) (k o : Nat) : Option Byte :=
  let u := o / 2048
  let f := o % 128 / 4
  let at_ (c : Crew) (shadow : Bool) (unit : Nat) : Option Byte :=
    (c.fileReg shadow f (16 * unit + o % 2048 / 128)).map fun w => wordByte w o
  let core := s.core k
  match core.compact.find? (·.src == u) with
  | some v => at_ (s.crew v.blk v.crew) v.shadow (v.dst - v.base)
  | none =>
    if core.compact.any (·.dst == u) || core.unitHeld.any (·.dst == u) then none
    else (s.cinchCrews k).findSome? fun (x : Block × Crew) =>
      let c := x.2
      if c.unitBase ≤ u && u < c.unitBase + c.units then at_ c false (u - c.unitBase)
      else match c.shadowBase with
        | some b => if b ≤ u && u < b + c.units then at_ c true (u - b) else none
        | none => none
/-- A scratchpad byte: the block's own granules; the layout of the try store buffers above them is not stated, and until the block opens a try they hold
the zeros they came with. Granules that no block holds have been cleared (R72). -/
def State.cinchScr (s : State) (k o : Nat) : Option Byte :=
  match s.blocks.find? fun b => b.core == k && !b.retired && b.scrBase ≤ o / 1024 && o / 1024 < b.scrBase + b.scrLen with
  | none => some 0
  | some b =>
    if o < b.scrBase * 1024 + 1024 * (s.task b.task).rec_.scr then some (Sparse.get (fun _ => 0) b.scratch (o - b.scrBase * 1024))
    else if b.tried then none else some 0
/-- An accumulator byte; granules that no block holds have been cleared (R72). -/
def State.cinchAcc (s : State) (k o : Nat) : Byte :=
  match s.blocks.find? fun b => b.core == k && !b.retired && b.accBase ≤ o / 4096 && o / 4096 < b.accBase + b.accLen with
  | none => 0
  | some b => wordByte (b.accWord (o - b.accBase * 4096)) o
/-- A byte of the 512 that describe a crew; none for a crew slot that holds no crew. -/
def State.cinchCrew (s : State) (k o : Nat) : Option Byte :=
  ((s.cinchCrews k).find? fun x => x.2.slot == o / 512).map fun (x : Block × Crew) =>
    let c := x.2
    let a := o % 512
    let byteOf (v : Nat) (i : Nat) : Byte := BitVec.ofNat 8 (v / 2 ^ (8 * i))
    if a < 0x100 then
      let fb := c.fibre (a / 8)
      byteOf (fb.pc.toNat + fb.st.code * 2 ^ 32) (a % 8)
    else if a < 0x104 then wordByte c.mode a
    else if 0x108 ≤ a && a < 0x10E then BitVec.ofNat 8 ((c.counters[a - 0x108]?).getD 0)
    else if 0x110 ≤ a && a < 0x130 then byteOf ((c.stalls[(a - 0x110) / 4]?).getD 0) (a % 4)
    else if 0x130 ≤ a && a < 0x138 then byteOf (c.unitBase + c.units * 2 ^ 8 + c.tr.isSome.toNat * 2 ^ 16) (a - 0x130)
    else 0
/-- The byte at a Cinch state address; what no rule gives is free. -/
def State.cinchByte (s : State) (a : Nat) : Byte :=
  let space := a / 2 ^ 60 % 16
  let k := a / 2 ^ 52 % 256
  let o := a % 2 ^ 52
  let or (x : Option Byte) : Byte := x.getD (Config.freeByte s.free)
  match space with
  | 0 => if k < 192 && o < 0x80000 then or (s.cinchReg k o) else 0
  | 1 => if k < 192 && o < 0x80000 then or (s.cinchScr k o) else 0
  | 2 => if k < 192 && o < 0x40000 then s.cinchAcc k o else 0
  | 3 => if k < 192 && o < 0x8000 then or (s.cinchCrew k o) else 0
  | 4 => if k < 128 then (Config.cinchWord (a - a % 8)).extractLsb' (8 * (a % 8)) 8 else 0
  | _ => (Config.cinchWord (a - a % 8)).extractLsb' (8 * (a % 8)) 8
/-- A state word: each of its bytes draws its own free value. -/
def State.cinchWord (s : State) (a : DWord) : DWord :=
  ofBytes 64 ((List.range 8).map fun i => { s with free := s.free + i }.cinchByte (a + BitVec.ofNat 64 i).toNat)
/-- The codes of the JTAG port's instruction register (R473). -/
def irCinch : BitVec 8 := 0x2C
def irCinchgo : BitVec 8 := 0x2D
def irCinchadr : BitVec 8 := 0x2E
def irCinchrd : BitVec 8 := 0x2F
def irBypass : BitVec 8 := 0xFF
/-- An instruction is shifted into the instruction register. -/
def State.loadIr (s : State) (code : BitVec 8) : State := { s with jtagIr := code }
/-- CINCH: every clock stops. -/
def execCinch (s : State) : Result := .next { s.loadIr irCinch with frozen := true }
/-- CINCHGO: every clock restarts. -/
def execCinchgo (s : State) : Result := .next { s.loadIr irCinchgo with frozen := false }
/-- CINCHADR: kept outside a freeze. -/
def State.cinchAdr (s : State) (address : DWord) : State := let s := s.loadIr irCinchadr; if s.frozen then { s with cinchAddr := address } else s
/-- CINCHRD: zeros outside a freeze. -/
def execCinchrd (s : State) : Result :=
  let s := s.loadIr irCinchrd
  if s.frozen then .next ({ s with cinchAddr := s.cinchAddr + 8, free := s.free + 8 }.emit (.jtag (s.cinchWord s.cinchAddr)))
  else .next (s.emit (.jtag 0))
/-- A shift through the data register of another instruction: the bypass register, of one bit that captures 0, for BYPASS and for a code that nothing
defines; a boundary register, which the implementation fixes, for those that IEEE 1149.1 requires (PRESUMED, log 87: EXTEST 0x00, SAMPLE and PRELOAD
0x01). -/
def State.jtagShift (s : State) (ir : BitVec 8) (bits : List Bool) : State :=
  let s := s.loadIr ir
  if ir == 0x00 || ir == 0x01 then
    { s with free := s.free + bits.length }.emit (.jtagBits ((List.range bits.length).map fun i => Config.freeBool (s.free + i)))
  else s.emit (.jtagBits ((false :: bits).take bits.length))
/-- CINCHADR, or a shift through another instruction's data register; the codes of the Cinch instructions take effect by their own rows. -/
def execCinchadr (scan : JtagScan) (s : State) : Result :=
  .next (match scan with
    | .address a => s.cinchAdr a
    | .other ir bits => if irCinch.toNat ≤ ir.toNat && ir.toNat ≤ irCinchrd.toNat then s else s.jtagShift ir bits)

/-! ### Thermal limits (R476) -/

/-- THERMAL_THROTTLE: the compute clock, one domain for every core (R10), falls by 100 MHz; it does not go below one step. -/
def execThermalThrottle (die : Nat) (s : State) : Result :=
  .next (if die < 4 && 200 ≤ s.mhz then { s with mhz := s.mhz - 100 } else s)
/-- THERMAL_TRIP. -/
def execThermalTrip (die : Nat) (s : State) : Result :=
  if die < 4 then .next ({ s with boot := .tripped }.emit .thermalTrip) else .next s

end Sys2Proof.Machine
end

