-- ==== Sys2Proof/Machine/Predicate.lean ====
section
/-! DEFINITION. Group 0x03: compares and predicate bits of v0 (R130 to R132). -/

namespace Sys2Proof.Machine
open Bits

/-- v0 with one bit replaced. -/
def setBitTo (v : Word) (n : Nat) (b : Bool) : Word := if b then v ||| (1#32 <<< n) else v &&& ~~~(1#32 <<< n)

/-- The conditions of R130 on an order: less, equal, greater as -1, 0, 1. -/
def condHolds (sub : Nat) (c : Int) : Bool :=
  match sub with
  | 0 => c == 0 | 1 => c != 0 | 2 => c < 0 | 3 => c ≤ 0 | 4 => 0 < c | _ => 0 ≤ c

/-- ICMP: v0 bit D (R130). -/
def execIcmp (f : Fields) (s : State) : Result :=
  .next (s.perFibre f fun _ fb =>
    let c := (fb.int f.ty f.a.toNat - opB f fb).sign
    [(0, setBitTo (fb.reg 0) (f.d.toNat % 32) (condHolds f.sub c))])

/-- FCMP's truth and its exceptions (R131). -/
def floatCompare (sub : Nat) (a b : FVal) : Bool × BitVec 5 :=
  let nan := a.isNan || b.isNan
  let sig := if 2 ≤ sub && sub ≤ 5 then nan else a.isSig || b.isSig
  let t := match sub with
    | 1 => nan || cmpF a b != 0
    | 6 => !nan
    | 7 => nan
    | _ => !nan && condHolds sub (cmpF a b)
  (t, if sig then excInvalid else 0)
/-- FCMP (R131). -/
def execFcmp (f : Fields) (s : State) : Result :=
  let v := s.curCrew.fenv 0
  s.floatForm f fun _ fb =>
    let r := floatCompare f.sub (v.read f.ty (floatA f fb)) (v.read f.ty (floatB f fb))
    ([(0, setBitTo (fb.reg 0) (f.d.toNat % 32) r.1)], r.2)

/-- PSET (R132). -/
def execPset (f : Fields) (s : State) : Result :=
  .next (s.perFibre f fun _ fb => let m := bitsB f fb; [(0, (fb.reg 0 &&& ~~~m) ||| (fb.reg f.a.toNat &&& m))])
/-- PLOP: the three bits are read before the write (R132). -/
def execPlop (f : Fields) (s : State) : Result :=
  .next (s.perFibre f fun _ fb =>
    let b (n : BitVec 8) : Nat := ((fb.reg 0).getLsbD (n.toNat % 32)).toNat
    [(0, setBitTo (fb.reg 0) (f.d.toNat % 32) ((f.extv % 256).testBit (b f.a + 2 * b f.b + 4 * b f.c)))])
/-- PMOV: v0[D] := A[n] (R132). -/
def execPmov (f : Fields) (s : State) : Result :=
  .next (s.perFibre f fun _ fb =>
    [(0, setBitTo (fb.reg 0) (f.d.toNat % 32) ((fb.reg f.a.toNat).getLsbD (field (bitsB f fb) 0 5)))])
/-- PTEST: ANY, ALL or NONE of the masked bits of v0; the mask is the immediate or vA (R132). -/
def execPtest (f : Fields) (s : State) : Result :=
  s.wordForm f fun fb =>
    let m := if f.form = .ri then f.x else fb.reg f.a.toNat
    let v := fb.reg 0 &&& m
    let t := match f.sub with | 0 => v != 0 | 1 => v == m | _ => v == 0
    if t then 1 else 0

end Sys2Proof.Machine
end

