-- ==== Sys2Proof/Machine/Try.lean ====
section
/-! DEFINITION. Group 0x12: tries (R359 to R376), with the commit step (R370) and the time limit (R366). -/

namespace Sys2Proof.Machine
open Bits

/-- TRY_MISUSE for the strand as it stands (R368). -/
def State.tryMisuse (s : State) (f : Fields) : Result := s.raise f none { cause := causeTryMisuse }

/-- TRY: convergence, then the task's right and no open try; every pending write of the crew lands first (R359). -/
def execTryOpen (f : Fields) (s : State) : Result :=
  let c := s.curCrew
  if !s.converged then s.unconverged f
  else if !s.curTask.rec_.tryBit || c.tr.isSome then s.tryMisuse f
  else if s.actMask f == 0 then .next s.goOn
  else if !c.pend.isEmpty then s.stall 6
  else
    let t : Try := { crewMode := f.mbit 0, members := s.actMask f, code := f.d.toNat, target := s.cur.pc + f.x
                     shadow := c.fibres.map (·.regs), openClk := s.clkOf s.cur.blk }
    .next (((s.perFibre f fun _ _ => [(f.d.toNat, 0)]).updCur fun c => { c with tr := some t }).updBlock s.cur.blk fun b => { b with tried := true })

/-- A guard-true fibre of the strand that is no member of the open try (R370, R373, R375). -/
def State.outsider (s : State) (f : Fields) : Bool :=
  match s.curCrew.tr with
  | none => s.actMask f != 0
  | some t => s.actMask f &&& ~~~t.members != 0

/-- COMMIT: the acting members wait for the commit step; the others go on (R370). -/
def execCommit (f : Fields) (s : State) : Result :=
  if s.outsider f then s.tryMisuse f
  else .next (s.partWait f (s.actMask f) [] fun _ => .commit)

/-- ABORT (R373). -/
def execAbort (f : Fields) (s : State) : Result :=
  if s.outsider f then s.tryMisuse f
  else .next (s.goOn.updCur fun c => c.abortTry (s.actMask f) (abortWord 7 (field f.x 0 8)))

/-- The state word of R374 for one fibre. -/
def Try.word (t : Try) (i : Nat) : Word :=
  at_ 32 31 1 1 ||| at_ 32 30 1 t.crewMode.toNat ||| at_ 32 29 1 (t.members.getLsbD i).toNat ||| at_ 32 20 9 t.buf.length |||
    at_ 32 12 8 t.reads.length
/-- TSTAT (R374). -/
def execTstat (f : Fields) (s : State) : Result :=
  let t := s.curCrew.tr
  .next (s.perFibre f fun i _ => [(f.d.toNat, match t with
    | none => 0
    | some t => if f.mbit 0 then t.members else t.word i)])

/-- Two fibres of a TCHK alias: equal keys, or one handle and overlapping bytes (R375). -/
def aliases (f : Fields) (x y : Fibre) : Bool :=
  if f.form = .ri then
    let rx := x.pair f.a.toNat
    let ry := y.pair f.a.toNat
    let n := sizeBytes f.size
    rx.extractLsb' 40 24 == ry.extractLsb' 40 24 && refOff rx < refOff ry + n && refOff ry < refOff rx + n
  else x.reg f.a.toNat == y.reg f.a.toNat
/-- The lowest slot that each aliasing member of a strand aliases, lowest member first. -/
def State.tchk (s : State) (f : Fields) : List (Nat × Nat) :=
  let q := s.acting f
  let c := s.curCrew
  q.filterMap fun i => (q.find? fun j => j < i && aliases f (c.fibre j) (c.fibre i)).map fun j => (i, j)
/-- TCHK (R375). -/
def execTchk (f : Fields) (s : State) : Result :=
  if s.outsider f then s.tryMisuse f
  else .next (s.goOn.updCur fun c => (s.tchk f).foldl (fun c x => c.abortTry (1#32 <<< x.1) (abortWord 8 x.2)) c)

/-! ### The commit step (R370 to R372) -/

/-- The bytes a commit performs, by IA: one value each, the higher slot's where two entries hold a byte (R370). -/
def Try.commitBytes (t : Try) : List (Nat × Byte) :=
  let entries := (List.range 32).flatMap fun sl => t.buf.filter fun e => e.slot == sl
  entries.foldl (fun l e => e.bytes.foldr (fun b l => Sparse.insert (16 * e.block + b.1) b.2.2 l) l) []
/-- Group bytes into runs that lie in one line. -/
def byteRuns : List (Nat × Byte) → List (Nat × List Byte)
  | [] => []
  | (a, v) :: r =>
    match byteRuns r with
    | [] => [(a, [v])]
    | (b, l) :: t => if b == a + 1 && b % 64 != 0 then (a, v :: l) :: t else (a, [v]) :: (b, l) :: t
/-- Perform one run of a commit's bytes: DIRTY and the line, then the write, or a UIO write on a peer-store page. -/
def State.commitRun (s : State) (ag : Agent) (task : Nat) (p : Place) (ia : Nat) (data : List Byte) : State :=
  let s := s.refPage ia true
  let s := if p.peer.isSome then s else s.touchLine ownEntry ia true false
  match p.peer with
  | some lease =>
    { (s.emit (.uio s.nextId lease ia data)) with
        peerStores := s.peerStores ++ [{ id := s.nextId, task := task, ctx := (s.task task).ctx, tid := (s.task task).tid, tag := (s.task task).rec_.tag, lease := lease, ia := ia, sentAt := s.devTime.toNat }]
        nextId := s.nextId + 1 }
  | none => s.storeBytes ag ia p.phys data
/-- Slots whose buffered bytes meet a page that no longer translates; in `.crew` mode any abort takes all (log 12). -/
def Try.struck (t : Try) (bad : Nat → Bool) : Mask :=
  maskOf 32 ((t.buf.filter fun e => bad (16 * e.block)).flatMap fun e => e.bytes.map (·.2.1))
/-- A commit step that must wait has begun: a save or a stop lets it complete first (R369). -/
def State.commitBegun (s : State) (bid ci : Nat) : State := s.updCrew bid ci fun c => { c with tr := c.tr.map fun t => { t with begun := true } }
/-- The commit step of a crew when it is due: the window write-backs of its block, then every buffered byte at one moment (R370). -/
def State.commitStep (s : State) (bid ci : Nat) : State :=
  let c := s.crew bid ci
  match c.tr with
  | none => s
  | some t =>
    if !c.commitDue then s
    else
      let ag : Agent := .commit bid ci (s.block bid).core
      match s.writeBacks ag bid (List.range 8) with
      | .error (.fault _ ev) => s.updCrew bid ci fun c => c.abortTry 0xFFFFFFFF (abortWord 4 ev.cause.toNat)
      | .error (.wait _ s') => s'.commitBegun bid ci
      | .ok s =>
        let at_ (ia n : Nat) : Except (BitVec 8) Place := s.checkPlace ia n .store
        let bad (ia : Nat) : Bool := match at_ ia 1 with | .ok _ => false | .error c => c != causeWait
        let hit := t.struck bad
        if hit != 0 then s.updCrew bid ci fun c => c.abortTry hit (abortWord 1 0)
        else
          let all := byteRuns t.commitBytes
          let runs := all.filterMap fun r => match at_ r.1 r.2.length with
            | .ok p => some (p, r.1, r.2)
            | .error _ => none
          match all.find? fun r => match at_ r.1 r.2.length with | .ok _ => false | .error _ => true with
          | some r => (s.setGoing { cause := causeWait, arg1 := BitVec.ofNat 64 r.1 }).commitBegun bid ci
          | none =>
          if runs.any fun r => s.lineLocked r.2.1 r.2.2.length then s.commitBegun bid ci
          else
            let s := runs.foldl (fun s r => s.commitRun ag (s.block bid).task r.1 r.2.1 r.2.2) s
            s.updCrew bid ci fun c =>
              { c.mapMask t.members fun _ fb => (fb.wake.setReg fb.waitF.d.toNat t.members).next with tr := none }
/-- COMMIT_STEP (R370). -/
def execCommitStep (blk crew : Nat) (s : State) : Result := .next (s.commitStep blk crew)
/-- TRY_LONG_TIMEOUT: a try open for 2^20 clk aborts every member with LONG (R366). -/
def execTryLongTimeout (blk crew : Nat) (s : State) : Result :=
  match (s.crew blk crew).tr with
  | some t =>
    if 2 ^ 20 ≤ s.clkOf blk - t.openClk then .next (s.updCrew blk crew fun c => c.abortTry 0xFFFFFFFF (abortWord 10 0)) else .next s
  | none => .next s

end Sys2Proof.Machine
end

