-- ==== Sys2Proof/Machine/Ready.lean ====
section
/-! DEFINITION. Which crew a core takes next (R107 to R109), what an issue leaves behind (R106, R118), the stall class of each crew that does
not issue, and the time that passes (R10, R113, R144, R366). -/

namespace Sys2Proof.Machine
open Bits

/-! ### An attempt to issue -/

/-- The meaning of a Zuzer instruction, as `exec` gives it (`runForm_exec`); an event has none here. -/
def runForm (i : Instr) (s : State) : Result :=
  match i with
  | .iadd f => execIadd f s
  | .isub f => execIsub f s
  | .iaddc f => execIaddc f s
  | .ineg f => execIneg f s
  | .iabs f => execIabs f s
  | .imin f => execImin f s
  | .imax f => execImax f s
  | .imul f => execImul f s
  | .imulh f => execImulh f s
  | .imad f => execImad f s
  | .imadw f => execImadw f s
  | .idiv f => execIdiv f s
  | .irem f => execIrem f s
  | .and f => execAnd f s
  | .or f => execOr f s
  | .xor f => execXor f s
  | .andn f => execAndn f s
  | .tern f => execTern f s
  | .shl f => execShl f s
  | .shr f => execShr f s
  | .sha f => execSha f s
  | .fsh f => execFsh f s
  | .bfx f => execBfx f s
  | .bfi f => execBfi f s
  | .popc f => execPopc f s
  | .clz f => execClz f s
  | .ctz f => execCtz f s
  | .brev f => execBrev f s
  | .permb f => execPermb f s
  | .bmsk f => execBmsk f s
  | .icmp f => execIcmp f s
  | .fcmp f => execFcmp f s
  | .pset f => execPset f s
  | .plop f => execPlop f s
  | .pmov f => execPmov f s
  | .ptest f => execPtest f s
  | .lxch f => execLxch f s
  | .ballot f => execBallot f s
  | .vote f => execVote f s
  | .matchLanes f => execMatch f s
  | .lred f => execLred f s
  | .lscan f => execLscan f s
  | .strandm f => execStrandm f s
  | .mov f => execMov f s
  | .movi f => execMovi f s
  | .sel f => execSel f s
  | .get f => execGet f s
  | .setmode f => execSetmode f s
  | .getmode f => execGetmode f s
  | .clk f => execClk f s
  | .fadd f => execFadd f s
  | .fsub f => execFsub f s
  | .fmul f => execFmul f s
  | .ffma f => execFfma f s
  | .fmin f => execFmin f s
  | .fmax f => execFmax f s
  | .fdiv f => execFdiv f s
  | .fsqrt f => execFsqrt f s
  | .frcp f => execFrcp f s
  | .frsq f => execFrsq f s
  | .fscale f => execFscale f s
  | .frnd f => execFrnd f s
  | .fclass f => execFclass f s
  | .hadd2 f => execHadd2 f s
  | .hmul2 f => execHmul2 f s
  | .hfma2 f => execHfma2 f s
  | .hmnx2 f => execHmnx2 f s
  | .dot4 f => execDot4 f s
  | .idot4 f => execIdot4 f s
  | .fexp2 f => execFexp2 f s
  | .flog2 f => execFlog2 f s
  | .fsin f => execFsin f s
  | .fcos f => execFcos f s
  | .ftanh f => execFtanh f s
  | .cvtff f => execCvtff f s
  | .cvtfi f => execCvtfi f s
  | .cvtif f => execCvtif f s
  | .cvtii f => execCvtii f s
  | .pack f => execPack f s
  | .unpack f => execUnpack f s
  | .mxq f => execMxq f s
  | .mxdq f => execMxdq f s
  | .bra f => execBra f s
  | .brb f => execBrb f s
  | .brx f => execBrx f s
  | .call f => execCall f s
  | .ret f => execRet f s
  | .loop f => execLoop f s
  | .nop f => execNop f s
  | .spawn f => execSpawn f s
  | .fend f => execFend f s
  | .converge f => execConverge f s
  | .yield f => execYield f s
  | .prio f => execPrio f s
  | .ld f => execLd f s
  | .st f => execSt f s
  | .ldq f => execLdq f s
  | .stq f => execStq f s
  | .pref f => execPref f s
  | .refmk f => execRefmk f s
  | .refadd f => execRefadd f s
  | .hqry f => execHqry f s
  | .lds f => execLds f s
  | .sts f => execSts f s
  | .stash f => execStash f s
  | .unstash f => execUnstash f s
  | .flushs f => execFlushs f s
  | .atom f => execAtom f s
  | .acas f => execAcas f s
  | .acas2 f => execAcas2 f s
  | .afadd f => execAfadd f s
  | .atoms f => execAtoms f s
  | .acass f => execAcass f s
  | .rowopen f => execRowopen f s
  | .rowrel f => execRowrel f s
  | .rowld f => execRowld f s
  | .rowst f => execRowst f s
  | .rowq f => execRowq f s
  | .fence f => execFence f s
  | .bar f => execBar f s
  | .rbar f => execRbar f s
  | .arrive f => execArrive f s
  | .bwait f => execBwait f s
  | .barstat f => execBarstat f s
  | .monarm f => execMonarm f s
  | .monwait f => execMonwait f s
  | .semwait f => execSemwait f s
  | .sempost f => execSempost f s
  | .wqpush f => execWqpush f s
  | .wqpop f => execWqpop f s
  | .wqnote f => execWqnote f s
  | .tryOpen f => execTryOpen f s
  | .commit f => execCommit f s
  | .abort f => execAbort f s
  | .tstat f => execTstat f s
  | .tchk f => execTchk f s
  | .acp f => execAcp f s
  | .tcp f => execTcp f s
  | .put f => execPut f s
  | .gather f => execGather f s
  | .pfx f => execPfx f s
  | .wbx f => execWbx f s
  | .waitc f => execWaitc f s
  | .cntr f => execCntr f s
  | .tenq f => execTenq f s
  | .tdep f => execTdep f s
  | .svc f => execSvc f s
  | .svcq f => execSvcq f s
  | .mma f => execMma f s
  | .mmac f => execMmac f s
  | .mmas f => execMmas f s
  | .rqt f => execRqt f s
  | .accz f => execAccz f s
  | .accld f => execAccld f s
  | .accst f => execAccst f s
  | .accrow f => execAccrow f s
  | .accscl f => execAccscl f s
  | .accexp f => execAccexp f s
  | .skbuild f => execSkbuild f s
  | .skscore f => execSkscore f s
  | .sksel f => execSksel f s
  | .skmap f => execSkmap f s
  | .coll f => execColl f s
  | .collq f => execCollq f s
  | .collx f => execCollx f s
  | .trap f => execTrap f s
  | .tret f => execTret f s
  | .rqread f => execRqread f s
  | .rqdrop f => execRqdrop f s
  | .dbg f => execDbg f s
  | .prof f => execProf f s
  | .sysrd f => execSysrd f s
  | _ => .next s

/-- The instruction in execution issues: its crew and the core's pointer are brought up to date before its effect. -/
def State.beginIssue (s : State) (i : Instr) : State := s.takeIssue (fieldsOf i).yld
/-- The instruction that `pre` was about to execute has ended in `t` without a stall. -/
def State.hasIssued (pre t : State) : Bool := (t.crew pre.cur.blk pre.cur.crew).stallClass == 8
/-- After an instruction: one that stalled leaves the order, the credit and the pointer as they were, and keeps what it has done. -/
def State.endIssue (pre t : State) : State :=
  let b := pre.cur.blk
  let c := pre.cur.crew
  if pre.hasIssued t then t.updCrew b c fun x => { x with stallClass := 7 }
  else
    let p := pre.crew b c
    (t.updCrew b c fun x => { x with rot := p.rot, rotating := p.rotating, yieldAbove := p.yieldAbove, credit := p.credit, issued := p.issued }).updCore
      (pre.block b).core fun k => { k with pointer := (pre.core (pre.block b).core).pointer }

/-- What an attempt of a crew to issue comes to: it would issue; it stalls, or a result it awaits has just arrived; or it rests. -/
inductive Attempt where
  | issues
  | stalls (s : State)
  | rests
/-- A crew's attempt. -/
def State.attempt (s : State) (bid ci : Nat) (stale : Bool) : Attempt :=
  match s.prepare bid ci stale with
  | .rest => .rests
  | .trap _ => .issues
  | .stall t => .stalls t
  | .settle t => .stalls t
  | .run i p => match runForm i (p.beginIssue i) with
    | .next t => if p.hasIssued t then .issues else .stalls (p.endIssue t)
    | _ => .issues
/-- A crew is ready: its next instruction has its operands and resources (R107). -/
def State.ready (s : State) (bid ci : Nat) : Bool := match s.attempt bid ci false with | .issues => true | _ => false

/-! ### Issue across crews (R107, R108) -/

/-- The weight of an issue level (R108). -/
def Crew.weight (c : Crew) : Nat := 2 ^ c.level
/-- Crews of a core with their slots: block, crew, crew slot. -/
def State.crewsOn (s : State) (core : Nat) : List (Nat × Nat × Nat) :=
  (s.blocks.filter (·.core == core)).flatMap fun b => (b.crews.zipIdx).filterMap fun c => if c.1.live then some (b.bid, c.2, c.1.slot) else none
/-- The crews of a core in ascending crew-slot order from its pointer, wrapping at 64. -/
def State.fromPointer (s : State) (core : Nat) : List (Nat × Nat) :=
  let p := (s.core core).pointer
  (List.range 64).filterMap fun d => ((s.crewsOn core).find? fun x => x.2.2 == (p + d) % 64).map fun x => (x.1, x.2.1)
/-- Every resident crew's credit becomes its weight (R108). -/
def State.reloadCredit (s : State) (core : Nat) : State :=
  (s.crewsOn core).foldl (fun s x => s.updCrew x.1 x.2.1 fun c => { c with credit := c.weight }) s
/-- The first crew of a list that is ready; what stalled attempts before it have done stands. -/
def State.firstReady (stale : Bool) : List (Nat × Nat) → State → Option (Nat × Nat) × State
  | [], s => (none, s)
  | x :: r, s => match s.attempt x.1 x.2 stale with
    | .issues => (some x, s)
    | .stalls t => State.firstReady stale r t
    | .rests => State.firstReady stale r s
/-- The crew a core takes: the first ready one with credit from the pointer on; where there is none, credit is reloaded and the crews that had
none follow (R108). -/
def State.take (s : State) (core : Nat) (stale : Bool) : Option (Nat × Nat) × State :=
  let l := s.fromPointer core
  let rich (x : Nat × Nat) : Bool := 0 < (s.crew x.1 x.2).credit
  match State.firstReady stale (l.filter rich) s with
  | (some x, t) => (some x, t)
  | (none, t) => State.firstReady stale (l.filter fun x => !rich x) (t.reloadCredit core)
/-- CREDIT_RELOAD: with no ready crew of the core above 0, every resident crew's credit becomes its weight (R108). -/
def execCreditReload (core : Nat) (s : State) : Result :=
  .next (if (s.crewsOn core).any fun x => 0 < (s.crew x.1 x.2.1).credit && s.ready x.1 x.2.1 then s else s.reloadCredit core)

/-! ### Stall classes and time (R10, R113, R144, R366) -/

/-- The stall class of a strand that waits or is parked (R113). -/
def Fibre.idleClass (fb : Fibre) : Nat :=
  if fb.st == .parked then 1
  else match fb.wait with
    | .barrier _ _ | .rbar _ _ _ | .conv _ | .commit => 2
    | .mon _ _ | .sem _ | .queue _ | .svcq _ => 3
    | .counter _ _ => 4
    | .none => 7
/-- The stall class of a crew that does not issue: of the strand that would issue next, else of the lowest one that waits or is parked; in
handler mode a strand outside the handler set counts FAULT (R113, R395). A crew with no live fibre, which waits to retire, counts ISSUE
(DESIGN CHOICE, log 80: the table names no cause). -/
def State.stallOf (s : State) (bid ci : Nat) : Nat :=
  let b := s.block bid
  let c := b.crew ci
  if c.moving || b.stopped || b.saving then 0
  else if c.nextPlace.isSome then match s.attempt bid ci false with
    | .stalls t => (t.crew bid ci).stallClass
    | .issues => 7
    | .rests => 1
  else if (List.range 32).any fun i => (c.fibre i).st == .runnable then 1
  else match ones c.lowestIdle with
    | [] => 7
    | i :: _ => if c.goes i then (c.fibre i).idleClass else 1
/-- Count `n` clks of every resident crew, but for the first of them where the crew has issued in it (R113). A crew that is not filled yet
counts none (DESIGN CHOICE, log 80: the table names no cause). -/
def State.tally (s : State) (n : Nat) : State :=
  if n == 0 then s
  else
    let count (b ci : Nat) (c : Crew) : Crew :=
      let k := if c.issued then n - 1 else n
      if k == 0 || !c.live || !c.filled then { c with issued := false }
      else { c with issued := false, stalls := c.stalls.modify (s.stallOf b ci) fun x => min (x + k) 0xFFFFFFFF }
    s.mapCrews count
/-- Clks that pass while a full-rate clock makes `dclk`, the part of one that has passed before included (R10, R476). -/
def State.clks (s : State) (dclk : Nat) : Nat := (s.mhz * dclk + s.clkPart) / 2400
/-- Time passes up to the clk in which the turn acts: device time and the core clocks, and a stall class of each resident crew for every clk
that ends in it. A rotation count is 0 while a crew holds a single runnable strand (R106), and a try does not age while its crew is moved. -/
def State.pass (s : State) (dns dclk : Nat) : State :=
  let n := s.clks dclk
  let s := s.tally n
  let settle (c : Crew) : Crew := { c with
    rot := if c.parted then c.rot else 0
    tr := if c.moving then c.tr.map fun t => { t with openClk := t.openClk + n } else c.tr }
  { s with
    devTime := s.devTime + BitVec.ofNat 64 dns
    clkPart := (s.mhz * dclk + s.clkPart) % 2400
    cores := s.cores.map fun k => { k with clk := k.clk + BitVec.ofNat 64 n }
    blocks := s.blocks.map fun b => { b with crews := b.crews.map settle } }

end Sys2Proof.Machine
end

