-- ==== Sys2Proof/Machine/SystemCore.lean ====
section
/-! DEFINITION. The system cores (R467): RV64IMAC with Zicsr, Zba, Zbb, Zbs, Zicond, Zicboz, Zcb and Zimop, the supervisor and the hypervisor architecture,
and address translation. The manual adopts the profiles RVA23U64 and RVA23S64 and does not restate them: the encodings, the meanings and the layouts here
are the RISC-V specifications' (PRESUMED, log 40). The arithmetic of floating point and of vectors comes from outside (`ScEffect`). -/

namespace Sys2Proof.Machine
open Bits

/-! ### Registers and CSRs -/

/-- Registers of a system core; x0 reads 0 and discards writes. -/
def SysCore.reg (c : SysCore) (r : Nat) : DWord := if r == 0 then 0 else (c.x[r]?).getD 0
def SysCore.setReg (c : SysCore) (r : Nat) (v : DWord) : SysCore := if r == 0 then c else { c with x := c.x.set r v }
/-- A held CSR; one that nothing has written holds 0. -/
def SysCore.csr (c : SysCore) (n : Nat) : DWord := Sparse.get (fun _ => 0) c.csrs n
def SysCore.setCsr (c : SysCore) (n : Nat) (v : DWord) : SysCore := { c with csrs := Sparse.put (fun _ => 0) c.csrs n v }
/-- The writable bits of a held CSR; none for a CSR that does not exist. A CSR of the VS group has the layout of its S counterpart. -/
def scMask (n : Nat) : Option DWord :=
  match n with
  | 0x003 => some 0xFF | 0x008 => some 0x7F | 0x00F => some 7
  | 0x100 | 0x200 => some 0xC6722 | 0x105 | 0x205 => some (~~~2) | 0x106 | 0x606 => some 0xFFFFFFFF
  | 0x104 => some 0x222 | 0x144 => some 2
  | 0x10A => some 0x3000000F1 | 0x60A => some 0xC0000003000000F1
  | 0x140 | 0x142 | 0x143 | 0x14D | 0x240 | 0x242 | 0x243 | 0x24D | 0x605 | 0x643 | 0x64A => some (-1)
  | 0x141 | 0x241 => some (~~~1)
  | 0x180 | 0x280 => some (-1) | 0x680 => some 0xF3FFFFFFFFFFFFFC
  | 0x600 => some 0x30000007003C0 | 0x602 => some 0xCB1FF | 0x603 => some 0x444 | 0x604 => some 0x444 | 0x645 => some 0x444
  | 0x60C => some 0xC000000000000000
  | 0x10C | 0x10D | 0x10E | 0x10F | 0x60D | 0x60E | 0x60F | 0x607 | 0xE12 | 0xDA0 | 0xC20 | 0xC21 => some 0
  | _ => none
/-- The 3.2 GHz clock's cycles since reset (R10), and the time base, which counts the nanoseconds of device time. -/
def State.scCycles (s : State) : DWord := BitVec.ofNat 64 (s.devTime.toNat * 16 / 5)
/-- The interrupts pending: hvip with the guest's timer. The guest's time is ahead by htimedelta. -/
def State.hip (s : State) (c : SysCore) : DWord :=
  c.csr 0x645 ||| (if bit (c.csr 0x60A) 63 && (c.csr 0x24D).ule (s.devTime + c.csr 0x605) then 0x40 else 0)
/-- sip: the software bit that is held, and the timer's. -/
def State.sip (s : State) (c : SysCore) : DWord := c.csr 0x144 ||| (if (c.csr 0x14D).ule s.devTime then 0x20 else 0)
/-- The value of a CSR, by its own number; none where there is no such CSR. -/
def State.scRead (s : State) (c : SysCore) (n : Nat) : Option DWord :=
  match n with
  | 0x001 => some (c.csr 3 &&& 0x1F)
  | 0x002 => some (c.csr 3 >>> 5)
  | 0x009 => some (c.csr 0xF &&& 1)
  | 0x00A => some (c.csr 0xF >>> 1)
  | 0x100 | 0x200 =>
    let v := c.csr n
    some (v ||| 0x200000000 ||| (if field v 13 2 == 3 || field v 9 2 == 3 then 0x8000000000000000 else 0))
  | 0x600 => some (c.csr n ||| 0x200000000)
  | 0x144 => some (s.sip c)
  | 0x644 => some (s.hip c)
  | 0x204 => some ((c.csr 0x604 &&& c.csr 0x603) >>> 1)
  | 0x244 => some ((s.hip c &&& c.csr 0x603) >>> 1)
  | 0xC00 => some s.scCycles
  | 0xC01 => some (s.devTime + (if c.virt then c.csr 0x605 else 0))
  | 0xC02 => some c.instret
  | 0xC22 => some 16
  | _ => if 0xC03 ≤ n && n ≤ 0xC1F then some 0 else (scMask n).map fun _ => c.csr n
/-- A write to a CSR, by its own number: views write the bits they show, and a translation register takes only a mode that exists. -/
def SysCore.writeCsr (c : SysCore) (n : Nat) (v : DWord) : SysCore :=
  let part (n : Nat) (mask v : DWord) : SysCore := c.setCsr n ((c.csr n &&& ~~~mask) ||| (v &&& mask))
  match n with
  | 0x001 => part 3 0x1F v
  | 0x002 => part 3 0xE0 (v <<< 5)
  | 0x009 => part 0xF 1 v
  | 0x00A => part 0xF 6 (v <<< 1)
  | 0x204 => part 0x604 (c.csr 0x603) (v <<< 1)
  | 0x244 => part 0x645 (c.csr 0x603 &&& 4) (v <<< 1)
  | 0x644 => part 0x645 4 v
  | 0x180 | 0x280 | 0x680 => if [0, 8, 9, 10].contains (field v 60 4) then part n ((scMask n).getD 0) v else c
  | _ => part n ((scMask n).getD 0) v

/-! ### Traps -/

/-- Why an instruction does not complete: a trap with its cause, its value, the guest physical address it stands for, whether the value is an address of
the guest, and whether the guest physical address is that of a table's entry; a page or a line that it must wait for; or a line that an engine holds. -/
inductive ScStop where
  | trap (cause : Nat) (tval : DWord) (gpa : DWord := 0) (guest : Bool := false) (entry : Bool := false)
  | wait (cause : BitVec 8) (ia : Nat)
  | locked
  deriving DecidableEq, Repr
def scIllegal (w : Word) : ScStop := .trap 2 (w.setWidth 64)
def scVirtual (w : Word) : ScStop := .trap 22 (w.setWidth 64)
/-- A status register as a trap leaves it: SPP the privilege it came from, SPIE the old SIE, and SIE clear. -/
def trapStatus (v : DWord) (user : Bool) : DWord :=
  (v &&& ~~~0x122) ||| (if bit v 1 then 0x20 else 0) ||| (if user then 0 else 0x100)
/-- The handler's address: vectored for an interrupt where the mode says so. -/
def trapPc (tvec : DWord) (cause : Nat) (irq : Bool) : DWord :=
  (tvec &&& ~~~3) + (if irq && bit tvec 0 then BitVec.ofNat 64 (4 * cause) else 0)
def causeWord (cause : Nat) (irq : Bool) : DWord := BitVec.ofNat 64 cause ||| (if irq then 0x8000000000000000 else 0)
/-- Take a trap in VS-mode. -/
def SysCore.enterVs (c : SysCore) (cause : Nat) (irq : Bool) (tval : DWord) : SysCore :=
  { ((((c.setCsr 0x241 c.pc).setCsr 0x242 (causeWord cause irq)).setCsr 0x243 tval).setCsr 0x200 (trapStatus (c.csr 0x200) c.user)) with
    user := false, pc := trapPc (c.csr 0x205) cause irq }
/-- Take a trap in HS-mode: SPV says whether it came from the guest, SPVP with which privilege, GVA whether the value is an address of the guest. -/
def SysCore.enterHs (c : SysCore) (cause : Nat) (irq : Bool) (tval gpa : DWord) (guest entry : Bool) : SysCore :=
  let h := c.csr 0x600
  let h := (h &&& ~~~0xC0) ||| (if guest then 0x40 else 0) ||| (if c.virt then 0x80 else 0)
  let h := if c.virt then (h &&& ~~~0x100) ||| (if c.user then 0 else 0x100) else h
  { ((((((c.setCsr 0x141 c.pc).setCsr 0x142 (causeWord cause irq)).setCsr 0x143 tval).setCsr 0x100 (trapStatus (c.csr 0x100) c.user)).setCsr 0x600 h).setCsr
      0x643 (gpa >>> 2)).setCsr 0x64A (if entry then 0x3000 else 0) with
    user := false, virt := false, pc := trapPc (c.csr 0x105) cause irq }
/-- Take an exception: in VS-mode where it comes from the guest and hedeleg gives it there. -/
def SysCore.enter (c : SysCore) (cause : Nat) (tval gpa : DWord) (guest entry : Bool) : SysCore :=
  if c.virt && bit (c.csr 0x602) cause then c.enterVs cause false tval else c.enterHs cause false tval gpa guest entry
/-- The interrupt to be taken now, and whether VS-mode takes it: those of HS-mode first, in the order external, software, timer. -/
def State.scIrq (s : State) (c : SysCore) : Option (Nat × Bool) :=
  let first (m : DWord) (l : List Nat) : Option Nat := l.find? (bit m)
  let hs := (s.sip c &&& c.csr 0x104) ||| (s.hip c &&& c.csr 0x604 &&& ~~~c.csr 0x603)
  let vs := s.hip c &&& c.csr 0x604 &&& c.csr 0x603
  match if c.virt || c.user || bit (c.csr 0x100) 1 then first hs [9, 1, 5, 10, 2, 6] else none with
  | some i => some (i, false)
  | none => if c.virt && (c.user || bit (c.csr 0x200) 1) then (first vs [10, 2, 6]).map fun i => (i - 1, true) else none
/-- SRET: the privilege, the guest and the interrupt enable come back. -/
def SysCore.sret (c : SysCore) : SysCore :=
  let back (v : DWord) : DWord := (v &&& ~~~0x122) ||| 0x20 ||| (if bit v 5 then 2 else 0)
  if c.virt then { c.setCsr 0x200 (back (c.csr 0x200)) with user := !bit (c.csr 0x200) 8, pc := c.csr 0x241 }
  else { (c.setCsr 0x100 (back (c.csr 0x100))).setCsr 0x600 (c.csr 0x600 &&& ~~~0x80) with
    user := !bit (c.csr 0x100) 8, virt := bit (c.csr 0x600) 7, pc := c.csr 0x141 }

/-! ### Translation -/

/-- Who accesses, how, and with which status bits: a load that may read an executable page, a store, a fetch. -/
structure ScMode where
  user : Bool
  virt : Bool
  kind : Access
  exec : Bool := false
  /-- HLVX: readable where it is executable. -/
  asExec : Bool := false
  deriving DecidableEq, Repr
def SysCore.mode (c : SysCore) (kind : Access) (exec : Bool := false) : ScMode := { user := c.user, virt := c.virt, kind := kind, exec := exec }
/-- The exception of an access: 0 its access fault, 1 its page fault, 2 its guest-page fault. -/
def ScMode.cause (m : ScMode) (which : Nat) : Nat :=
  let of (fetch load store : Nat) : Nat := if m.exec then fetch else if m.kind == .write then store else load
  match which with
  | 0 => of 1 5 7
  | 1 => of 12 13 15
  | _ => of 20 21 23
/-- The register blocks shadow 16 MiB of the physical addresses; every other physical address is an IA. -/
def inBlocks (a : Nat) : Bool := 0xF000000000 ≤ a && a < 0xF001000000
/-- The 8 bytes of a page-table entry. -/
def State.scEntry (s : State) (m : ScMode) (va : DWord) (pa : Nat) : Except ScStop DWord :=
  if inBlocks pa || 2 ^ 52 ≤ pa then .error (.trap (m.cause 0) va 0 m.virt)
  else match s.checkPlace pa 8 .load with
    | .ok p => .ok (ofBytes 64 (s.bytes p.phys 8))
    | .error c => .error (if c == causeCompressed || c == causeWait then .wait c pa else .trap (m.cause 0) va 0 m.virt)
/-- Whether a leaf permits the access. A and D are not set by hardware, so a clear one refuses (Svade). -/
def leafOk (e : DWord) (m : ScMode) (sum mxr stage2 : Bool) : Bool :=
  let r := bit e 1 || ((mxr || m.asExec) && bit e 3)
  let can := if m.exec || m.asExec then bit e 3 else if m.kind == .write then bit e 2 else r
  can && (if stage2 then bit e 4 else if bit e 4 then m.user || (sum && !m.exec) else !m.user) && bit e 6 && (m.kind != .write || bit e 7)
/-- A walk from the table at `base`, down through levels; `entry` reads an entry, and none is a page fault. -/
def walkPage (entry : Nat → Except ScStop DWord) (fault : ScStop) (m : ScMode) (sum mxr pbmt stage2 : Bool) (va top : Nat) :
    Nat → Nat → Except ScStop Nat
  | 0, _ => .error fault
  | n + 1, base => do
    let width := if n + 1 == top && stage2 then 11 else 9
    let e ← entry (base + 8 * (va / 2 ^ (12 + 9 * n) % 2 ^ width))
    let ppn := field e 10 44
    if !bit e 0 || (!bit e 1 && bit e 2) || !isZero e 54 7 then .error fault
    else if !bit e 1 && !bit e 3 then
      if !isZero e 61 3 || bit e 4 || bit e 6 || bit e 7 then .error fault
      else walkPage entry fault m sum mxr pbmt stage2 va top n (ppn * 4096)
    else
      let shift := if bit e 63 then 4 else 9 * n
      let okN := !bit e 63 || (n == 0 && ppn % 16 == 8)
      if !okN || field e 61 2 == 3 || (!pbmt && !isZero e 61 2) || (!bit e 63 && ppn % 2 ^ shift != 0) || !leafOk e m sum mxr stage2 then .error fault
      else .ok (ppn / 2 ^ shift * 2 ^ (12 + shift) + va % 2 ^ (12 + shift))
/-- The levels of a translation mode. -/
def satpLevels (v : DWord) : Nat := match field v 60 4 with | 8 => 3 | 9 => 4 | 10 => 5 | _ => 0
/-- The second stage: a guest physical address. -/
def State.scStage2 (s : State) (c : SysCore) (m : ScMode) (va : DWord) (pte : Bool) (gpa : Nat) : Except ScStop Nat :=
  let g := c.csr 0x680
  let n := satpLevels g
  if n == 0 then .ok gpa
  else
    let fault : ScStop := .trap (m.cause 2) va (BitVec.ofNat 64 gpa) true pte
    if 2 ^ (14 + 9 * n) ≤ gpa then .error fault
    else
      let look : ScMode := if pte then { m with kind := .load, exec := false, asExec := false } else m
      walkPage (s.scEntry m va) fault look false (bit (c.csr 0x100) 19) true true gpa n n (field g 0 44 / 4 * 16384)
/-- The physical address of an access. -/
def State.scTranslate (s : State) (c : SysCore) (m : ScMode) (va : DWord) : Except ScStop Nat := do
  let atp := c.csr (if m.virt then 0x280 else 0x180)
  let n := satpLevels atp
  let st := c.csr (if m.virt then 0x200 else 0x100)
  let read (pte : Bool) (a : Nat) : Except ScStop Nat :=
    if m.virt then s.scStage2 c m va pte a else .ok a
  let pa ←
    if n == 0 then .ok va.toNat
    else
      let fault : ScStop := .trap (m.cause 1) va 0 m.virt
      if (va.extractLsb' 0 (12 + 9 * n)).signExtend 64 != va then .error fault
      else
        walkPage (fun a => do s.scEntry m va (← read true a)) fault m (bit st 18) (bit st 19 || (m.virt && bit (c.csr 0x100) 19))
          (!m.virt || bit (c.csr 0x60A) 62) false va.toNat n n (field atp 0 44 * 4096)
  let pa ← read false pa
  if 2 ^ 52 ≤ pa then .error (.trap (m.cause 0) va 0 m.virt) else .ok pa
/-- Where the bytes of an access lie: each as physical address and place. -/
def State.scPlaces (s : State) (c : SysCore) (m : ScMode) (va : DWord) (n : Nat) : Except ScStop (List (Nat × Nat)) :=
  (List.range n).mapM fun i => do
    let va := va + BitVec.ofNat 64 i
    let pa ← s.scTranslate c m va
    if inBlocks pa then .error (.trap (m.cause 0) va 0 m.virt)
    else match s.checkPlace pa 1 m.kind with
      | .ok p => .ok (pa, p.phys)
      | .error x => .error (if x == causeCompressed || x == causeWait then .wait x pa else .trap (m.cause 0) va 0 m.virt)
/-- The address of an access to data under pointer masking: the upper bits that PMM names are those below them, or 0 without translation. -/
def SysCore.ea (c : SysCore) (m : ScMode) (va : DWord) : DWord :=
  let n := match (if m.user then field (c.csr 0x10A) 32 2 else if m.virt then field (c.csr 0x60A) 32 2 else 0) with | 2 => 7 | 3 => 16 | _ => 0
  if n == 0 || m.asExec || bit (c.csr (if m.virt then 0x200 else 0x100)) 19 then va
  else if satpLevels (c.csr (if m.virt then 0x280 else 0x180)) == 0 then (va <<< n) >>> n
  else (va <<< n).sshiftRight n
/-- A load, with its side effects: a register block answers its 64-bit registers alone. -/
def State.scLoad (s : State) (c : SysCore) (m : ScMode) (va : DWord) (n : Nat) : Except ScStop (List Byte × State) := do
  let va := c.ea m va
  let pa ← s.scTranslate c m va
  if inBlocks pa && n == 8 && pa % 8 == 0 then .ok (toBytes 8 (s.readRegister pa), s)
  else
    let l ← s.scPlaces c m va n
    .ok (l.map fun x => s.byte x.2, s.qcNote l false)
/-- A store. -/
def State.scStore (s : State) (c : SysCore) (m : ScMode) (va : DWord) (data : List Byte) : Except ScStop State := do
  let va := c.ea m va
  let pa ← s.scTranslate c m va
  if inBlocks pa && data.length == 8 && pa % 8 == 0 then .ok (s.writeRegister pa (ofBytes 64 data))
  else
    let r := s.coreWrite (← s.scPlaces c m va data.length) data
    if r.1 then .ok r.2 else .error .locked

/-! ### Instructions -/

/-- A 64-bit value from a number that is signed in `n` bits. -/
def sext64 (n v : Nat) : DWord := (BitVec.ofNat n v).signExtend 64
/-- The result of a 32-bit operation. -/
def word64 (v : Word) : DWord := v.signExtend 64
/-- Leading zeros. -/
def clzN {n : Nat} (v : BitVec n) : Nat := n - (if v = 0 then 0 else Nat.log2 v.toNat + 1)
def ctzN {n : Nat} (v : BitVec n) : Nat := ((List.range n).find? v.getLsbD).getD n
/-- OP by funct7 and funct3 at either width: the base, M, Zbb, Zbs and Zicond. -/
def scOp {n : Nat} (f7 f3 : Nat) (a b : BitVec n) : Option (BitVec n) :=
  let sh := b.toNat % n
  match f7, f3 with
  | 0, _ => some (rvAlu f3 false a b)
  | 1, _ => some (rvMul f3 a b)
  | 0x20, 0 | 0x20, 5 => some (rvAlu f3 true a b)
  | 0x20, 4 => some (~~~(a ^^^ b))
  | 0x20, 6 => some (a ||| ~~~b)
  | 0x20, 7 => some (a &&& ~~~b)
  | 0x10, 2 => some ((a <<< 1) + b)
  | 0x10, 4 => some ((a <<< 2) + b)
  | 0x10, 6 => some ((a <<< 3) + b)
  | 5, 4 => some (if a.slt b then a else b)
  | 5, 5 => some (if a.ult b then a else b)
  | 5, 6 => some (if a.slt b then b else a)
  | 5, 7 => some (if a.ult b then b else a)
  | 7, 5 => some (if b = 0 then 0 else a)
  | 7, 7 => some (if b = 0 then a else 0)
  | 0x30, 1 => some (a.rotateLeft sh)
  | 0x30, 5 => some (a.rotateRight sh)
  | 0x24, 1 => some (a &&& ~~~(1#n <<< sh))
  | 0x24, 5 => some ((a >>> sh) &&& 1)
  | 0x34, 1 => some (a ^^^ (1#n <<< sh))
  | 0x14, 1 => some (a ||| (1#n <<< sh))
  | _, _ => none
/-- The forms of 32 bits that OP-32 has. -/
def scOp32 (f7 f3 : Nat) (a b : DWord) : Option DWord :=
  let ua : DWord := (a.setWidth 32).setWidth 64
  match f7, f3 with
  | 4, 0 => some (ua + b)
  | 4, 4 => some (a &&& 0xFFFF)
  | 0x10, 2 => some ((ua <<< 1) + b)
  | 0x10, 4 => some ((ua <<< 2) + b)
  | 0x10, 6 => some ((ua <<< 3) + b)
  | _, _ =>
    let ok := (f7 == 0 && [0, 1, 5].contains f3) || (f7 == 1 && f3 != 1 && f3 != 2 && f3 != 3) || (f7 == 0x20 && (f3 == 0 || f3 == 5)) ||
      (f7 == 0x30 && (f3 == 1 || f3 == 5))
    if ok then (scOp f7 f3 (a.setWidth 32) (b.setWidth 32)).map word64 else none
/-- The unary forms of Zbb, by the 12-bit immediate, at funct3 1 and 5. -/
def scUnary (f3 imm : Nat) (a : DWord) : Option DWord :=
  match f3, imm with
  | 1, 0x600 => some (BitVec.ofNat 64 (clzN a))
  | 1, 0x601 => some (BitVec.ofNat 64 (ctzN a))
  | 1, 0x602 => some (BitVec.ofNat 64 (popcount a))
  | 1, 0x604 => some ((a.setWidth 8).signExtend 64)
  | 1, 0x605 => some ((a.setWidth 16).signExtend 64)
  | 5, 0x287 => some (ofBytes 64 ((toBytes 8 a).map fun x => if x = 0 then 0 else 0xFF))
  | 5, 0x6B8 => some (ofBytes 64 (toBytes 8 a).reverse)
  | _, _ => none
/-- OP-IMM. -/
def scImm (f3 imm : Nat) (a : DWord) : Option DWord :=
  if f3 == 1 || f3 == 5 then match scUnary f3 imm a with
    | some v => some v
    | none =>
      let f6 := imm / 64
      if ([0, 0x0A, 0x12, 0x1A].contains f6 && f3 == 1) || ([0, 0x10, 0x12, 0x18].contains f6 && f3 == 5) then
        scOp (2 * f6) f3 a (BitVec.ofNat 64 (imm % 64)) else none
  else some (rvAlu f3 false a (sext64 12 imm))
/-- OP-IMM-32. -/
def scImm32 (f3 imm : Nat) (a : DWord) : Option DWord :=
  let w : Word := a.setWidth 32
  match f3 with
  | 0 => some (word64 (w + rvSext 12 imm))
  | 1 =>
    if imm / 64 == 2 then some (((a.setWidth 32).setWidth 64) <<< (imm % 64))
    else match imm with
      | 0x600 => some (BitVec.ofNat 64 (clzN w))
      | 0x601 => some (BitVec.ofNat 64 (ctzN w))
      | 0x602 => some (BitVec.ofNat 64 (popcount w))
      | _ => if imm < 32 then some (word64 (w <<< imm)) else none
  | 5 =>
    let b : Word := BitVec.ofNat 32 (imm % 32)
    if imm / 32 == 0 || imm / 32 == 0x20 || imm / 32 == 0x30 then (scOp (imm / 32) 5 w b).map word64 else none
  | _ => none
/-- The new value of an AMO by its funct5, at either width; LR, SC and other codes have none. -/
def scAmo {n : Nat} (op : Nat) (old v : BitVec n) : Option (BitVec n) :=
  match op with
  | 0 => some (old + v)
  | 1 => some v
  | 4 => some (old ^^^ v)
  | 8 => some (old ||| v)
  | 12 => some (old &&& v)
  | 16 => some (if old.sle v then old else v)
  | 20 => some (if old.sle v then v else old)
  | 24 => some (if old.ule v then old else v)
  | 28 => some (if old.ule v then v else old)
  | _ => none
/-- What an instruction does, its operands read. `ext` leaves the effect to what comes from outside. -/
inductive ScDo where
  | set (rd : Nat) (v : DWord)
  | jump (rd : Nat) (target : DWord)
  | load (rd : Nat) (m : ScMode) (va : DWord) (bytes : Nat) (signed : Bool)
  | store (m : ScMode) (va : DWord) (data : List Byte)
  | fload (fd : Nat) (va : DWord) (bytes : Nat)
  | amo (rd : Nat) (va v : DWord) (op bytes : Nat)
  | csr (rd csr kind : Nat) (v : DWord) (writes : Bool)
  | sret
  | ext
  | stop (x : ScStop)
  deriving DecidableEq, Repr
/-- A value of an operation, or the illegal-instruction exception. -/
def scSet (w : Word) (rd : Nat) (v : Option DWord) : ScDo := match v with | some v => .set rd v | none => .stop (scIllegal w)
/-- HLV, HLVX and HSV: as the guest, with the privilege that SPVP names. -/
def SysCore.hyp (c : SysCore) (w : Word) : ScDo :=
  let f7 := field w 25 7
  let rs2 := field w 20 5
  let a := c.reg (field w 15 5)
  let n := 2 ^ ((f7 - 0x30) / 2)
  let m (kind : Access) (x : Bool) : ScMode := { user := !bit (c.csr 0x600) 8, virt := true, kind := kind, asExec := x }
  if c.virt then .stop (scVirtual w)
  else if c.user && !bit (c.csr 0x600) 9 then .stop (scIllegal w)
  else if f7 % 2 == 1 then .store (m .write false) a (toBytes n (c.reg rs2))
  else if rs2 == 0 then .load (field w 7 5) (m .load false) a n true
  else if rs2 == 1 && n < 8 then .load (field w 7 5) (m .load false) a n false
  else if rs2 == 3 && (n == 2 || n == 4) then .load (field w 7 5) (m .load true) a n false
  else .stop (scIllegal w)
/-- The privileged instructions without operands that matter: SRET, WFI, and the fences of translation, which have nothing to do here since every
access walks the tables anew. -/
def SysCore.priv (c : SysCore) (w : Word) : ScDo :=
  let f7 := field w 25 7
  let h := c.csr 0x600
  let guard (trapBit : Nat) (act : ScDo) : ScDo :=
    if c.user then .stop (if c.virt then scVirtual w else scIllegal w) else if c.virt && bit h trapBit then .stop (scVirtual w) else act
  if w = 0x00000073 then
    if c.user then .stop (.trap 8 0) else if c.virt then .stop (.trap 10 0) else .ext
  else if w = 0x00100073 then .stop (.trap 3 c.pc 0 c.virt)
  else if w = 0x10200073 then guard 22 .sret
  else if w = 0x10500073 then guard 21 (.set 0 0)
  else if w = 0x00D00073 ∨ w = 0x01D00073 then .set 0 0
  else if field w 7 5 == 0 && (f7 == 9 || f7 == 0x0B) then guard 20 (.set 0 0)
  else if field w 7 15 == 0 && f7 == 0x0C && field w 20 5 < 2 then guard 64 (.set 0 0)
  else if field w 7 5 == 0 && [0x11, 0x31, 0x13, 0x33].contains f7 then
    if c.virt then .stop (scVirtual w) else if c.user then .stop (scIllegal w) else .set 0 0
  else .stop (scIllegal w)
/-- What a 32-bit instruction does. -/
def SysCore.word (c : SysCore) (w : Word) : ScDo :=
  let f3 := field w 12 3
  let f7 := field w 25 7
  let rd := field w 7 5
  let rs1 := field w 15 5
  let a := c.reg rs1
  let b := c.reg (field w 20 5)
  let imm := field w 20 12
  let immS := sext64 12 (f7 * 32 + field w 7 5)
  let fpOff := field (c.csr 0x100) 13 2 == 0 || (c.virt && field (c.csr 0x200) 13 2 == 0)
  let vOff := field (c.csr 0x100) 9 2 == 0 || (c.virt && field (c.csr 0x200) 9 2 == 0)
  let bad : ScDo := .stop (scIllegal w)
  let fp (x : ScDo) : ScDo := if fpOff then bad else x
  let vec : ScDo := if vOff then bad else .ext
  match field w 0 7 with
  | 0x37 => .set rd (word64 (w &&& 0xFFFFF000))
  | 0x17 => .set rd (c.pc + word64 (w &&& 0xFFFFF000))
  | 0x6F => .jump rd (c.pc + sext64 21 (field w 31 1 * 2 ^ 20 + field w 12 8 * 2 ^ 12 + field w 20 1 * 2 ^ 11 + field w 21 10 * 2))
  | 0x67 => if f3 = 0 then .jump rd (a + sext64 12 imm) else bad
  | 0x63 => match rvBranch f3 a b with
    | some true => .jump 0 (c.pc + sext64 13 (field w 31 1 * 2 ^ 12 + field w 7 1 * 2 ^ 11 + field w 25 6 * 2 ^ 5 + field w 8 4 * 2))
    | some false => .set 0 0
    | none => bad
  | 0x03 => if f3 = 7 then bad else .load rd (c.mode .load) (a + sext64 12 imm) (2 ^ (f3 % 4)) (f3 < 4)
  | 0x23 => if f3 < 4 then .store (c.mode .write) (a + immS) (toBytes (2 ^ f3) b) else bad
  | 0x13 => scSet w rd (scImm f3 imm a)
  | 0x1B => scSet w rd (scImm32 f3 imm a)
  | 0x33 => scSet w rd (scOp f7 f3 a b)
  | 0x3B => if f7 = 4 ∧ f3 = 4 ∧ field w 20 5 ≠ 0 then bad else scSet w rd (scOp32 f7 f3 a b)
  | 0x0F =>
    if f3 < 2 then .set 0 0
    else if f3 = 2 ∧ rd = 0 ∧ (imm < 3 ∨ imm = 4) then
      let env := if imm = 4 then 7 else if imm = 0 then 4 else 6
      let off := (c.user && !bit (c.csr 0x10A) env) || (c.virt && !bit (c.csr 0x60A) env)
      if off then .stop (if c.virt then scVirtual w else scIllegal w)
      else if imm = 4 then .store (c.mode .write) (a &&& ~~~63) (List.replicate 64 0)
      else .load 0 (c.mode .load) (a &&& ~~~63) 1 false
    else bad
  | 0x2F =>
    let op := field w 27 5
    if (f3 = 2 ∨ f3 = 3) ∧ rvAmo op (field w 20 5) = true then .amo rd a b op (2 ^ f3) else bad
  | 0x07 => if 1 ≤ f3 ∧ f3 ≤ 3 then fp (.fload rd (a + sext64 12 imm) (2 ^ f3)) else if f3 = 0 ∨ 5 ≤ f3 then vec else bad
  | 0x27 => if 1 ≤ f3 ∧ f3 ≤ 3 then fp (.store (c.mode .write) (a + immS) (toBytes (2 ^ f3) ((c.f[field w 20 5]?).getD 0)))
    else if f3 = 0 ∨ 5 ≤ f3 then vec else bad
  | 0x43 | 0x47 | 0x4B | 0x4F | 0x53 => fp .ext
  | 0x57 => vec
  | 0x73 =>
    if f3 = 0 then c.priv w
    else if f3 = 4 then
      if 0x30 ≤ f7 ∧ f7 ≤ 0x37 then c.hyp w
      else if bit w 31 && field w 28 2 == 0 && (bit w 25 || field w 22 4 == 7) then .set rd 0 else bad
    else .csr rd imm (f3 % 4) (if 4 < f3 then BitVec.ofNat 64 rs1 else a) (f3 % 4 == 1 || rs1 != 0)
  | _ => bad

/-! ### Compressed instructions -/

/-- The 32-bit forms that compressed ones stand for. -/
def encI (op f3 rd rs1 imm : Nat) : Word := BitVec.ofNat 32 (op + rd * 2 ^ 7 + f3 * 2 ^ 12 + rs1 * 2 ^ 15 + imm % 2 ^ 12 * 2 ^ 20)
def encS (op f3 rs1 rs2 imm : Nat) : Word :=
  BitVec.ofNat 32 (op + imm % 32 * 2 ^ 7 + f3 * 2 ^ 12 + rs1 * 2 ^ 15 + rs2 * 2 ^ 20 + imm / 32 * 2 ^ 25)
def encR (op f3 f7 rd rs1 rs2 : Nat) : Word := encI op f3 rd rs1 (f7 * 32 + rs2)
def encB (f3 rs1 : Nat) (off : Nat) : Word :=
  encS 0x63 f3 rs1 0 (off / 2 ^ 12 % 2 * 2 ^ 11 + off / 32 % 64 * 32 + off / 2 % 16 * 2 + off / 2 ^ 11 % 2)
def encJ (rd off : Nat) : Word :=
  BitVec.ofNat 32 (0x6F + rd * 2 ^ 7 + (off / 2 ^ 12 % 256) * 2 ^ 12 + (off / 2 ^ 11 % 2) * 2 ^ 20 + (off / 2 % 1024) * 2 ^ 21 + (off / 2 ^ 20 % 2) * 2 ^ 31)
/-- A field of `n` bits, signed, as a number modulo 2^21. -/
def ext21 (n v : Nat) : Nat := if v < 2 ^ (n - 1) then v else v + 2 ^ 21 - 2 ^ n
/-- Quadrant 0, with the byte and halfword forms of Zcb. -/
def expand0 (w : Word) : Option Word :=
  let rd := 8 + field w 2 3
  let rs := 8 + field w 7 3
  let sp := field w 11 2 * 16 + field w 7 4 * 64 + field w 6 1 * 4 + field w 5 1 * 8
  let offW := field w 10 3 * 8 + field w 6 1 * 4 + field w 5 1 * 64
  let offD := field w 10 3 * 8 + field w 5 2 * 64
  let offB := field w 6 1 + field w 5 1 * 2
  let offH := field w 5 1 * 2
  match field w 13 3 with
  | 0 => if sp = 0 then none else some (encI 0x13 0 rd 2 sp)
  | 1 => some (encI 0x07 3 rd rs offD)
  | 2 => some (encI 0x03 2 rd rs offW)
  | 3 => some (encI 0x03 3 rd rs offD)
  | 4 => match field w 10 3 with
    | 0 => some (encI 0x03 4 rd rs offB)
    | 1 => some (encI 0x03 (if bit w 6 then 1 else 5) rd rs offH)
    | 2 => some (encS 0x23 0 rs rd offB)
    | 3 => if bit w 6 then none else some (encS 0x23 1 rs rd offH)
    | _ => none
  | 5 => some (encS 0x27 3 rs rd offD)
  | 6 => some (encS 0x23 2 rs rd offW)
  | _ => some (encS 0x23 3 rs rd offD)
/-- The arithmetic forms of quadrant 1, those of Zcb among them. -/
def expandAlu (w : Word) : Option Word :=
  let rd := 8 + field w 7 3
  let rs := 8 + field w 2 3
  let sh := field w 12 1 * 32 + field w 2 5
  match field w 10 2 with
  | 0 => some (encI 0x13 5 rd rd sh)
  | 1 => some (encI 0x13 5 rd rd (0x400 + sh))
  | 2 => some (encI 0x13 7 rd rd (ext21 6 sh))
  | _ => match field w 12 1, field w 5 2 with
    | 0, 0 => some (encR 0x33 0 0x20 rd rd rs)
    | 0, 1 => some (encR 0x33 4 0 rd rd rs)
    | 0, 2 => some (encR 0x33 6 0 rd rd rs)
    | 0, _ => some (encR 0x33 7 0 rd rd rs)
    | _, 0 => some (encR 0x3B 0 0x20 rd rd rs)
    | _, 1 => some (encR 0x3B 0 0 rd rd rs)
    | _, 2 => some (encR 0x33 0 1 rd rd rs)
    | _, _ => match field w 2 3 with
      | 0 => some (encI 0x13 7 rd rd 0xFF)
      | 1 => some (encI 0x13 1 rd rd 0x604)
      | 2 => some (encR 0x3B 4 4 rd rd 0)
      | 3 => some (encI 0x13 1 rd rd 0x605)
      | 4 => some (encR 0x3B 0 4 rd rd 0)
      | 5 => some (encI 0x13 4 rd rd 0xFFF)
      | _ => none
/-- Quadrant 1. -/
def expand1 (w : Word) : Option Word :=
  let rd := field w 7 5
  let imm := ext21 6 (field w 12 1 * 32 + field w 2 5)
  let sp := ext21 10 (field w 12 1 * 512 + field w 6 1 * 16 + field w 5 1 * 64 + field w 3 2 * 128 + field w 2 1 * 32)
  let br := ext21 9 (field w 12 1 * 256 + field w 10 2 * 8 + field w 5 2 * 64 + field w 3 2 * 2 + field w 2 1 * 32)
  let j := ext21 12 (field w 12 1 * 2 ^ 11 + field w 11 1 * 16 + field w 9 2 * 256 + field w 8 1 * 1024 + field w 7 1 * 64 + field w 6 1 * 128 +
    field w 3 3 * 2 + field w 2 1 * 32)
  match field w 13 3 with
  | 0 => some (encI 0x13 0 rd rd imm)
  | 1 => if rd = 0 then none else some (encI 0x1B 0 rd rd imm)
  | 2 => some (encI 0x13 0 rd 0 imm)
  | 3 =>
    if imm = 0 then (if rd % 2 = 1 ∧ rd < 16 then some (encI 0x13 0 0 0 0) else none)
    else if rd = 2 then some (encI 0x13 0 2 2 sp)
    else some (BitVec.ofNat 32 (0x37 + rd * 2 ^ 7 + imm % 2 ^ 20 * 2 ^ 12))
  | 4 => expandAlu w
  | 5 => some (encJ 0 j)
  | 6 => some (encB 0 (8 + field w 7 3) br)
  | _ => some (encB 1 (8 + field w 7 3) br)
/-- Quadrant 2. -/
def expand2 (w : Word) : Option Word :=
  let rd := field w 7 5
  let rs2 := field w 2 5
  let offW := field w 12 1 * 32 + field w 4 3 * 4 + field w 2 2 * 64
  let offD := field w 12 1 * 32 + field w 5 2 * 8 + field w 2 3 * 64
  let outW := field w 9 4 * 4 + field w 7 2 * 64
  let outD := field w 10 3 * 8 + field w 7 3 * 64
  match field w 13 3 with
  | 0 => some (encI 0x13 1 rd rd (field w 12 1 * 32 + rs2))
  | 1 => some (encI 0x07 3 rd 2 offD)
  | 2 => if rd = 0 then none else some (encI 0x03 2 rd 2 offW)
  | 3 => if rd = 0 then none else some (encI 0x03 3 rd 2 offD)
  | 4 =>
    if rs2 = 0 then
      if rd = 0 then (if bit w 12 then some 0x00100073 else none) else some (encI 0x67 0 (field w 12 1) rd 0)
    else some (encR 0x33 0 0 rd (if bit w 12 then rd else 0) rs2)
  | 5 => some (encS 0x27 3 2 rs2 outD)
  | 6 => some (encS 0x23 2 2 rs2 outW)
  | _ => some (encS 0x23 3 2 rs2 outD)
/-- The 32-bit instruction that a compressed one stands for. -/
def expandC (w : Word) : Option Word :=
  match field w 0 2 with
  | 0 => expand0 w
  | 1 => expand1 w
  | _ => expand2 w

/-! ### CSR accesses -/

/-- The CSR that a number names in a mode: in the guest, a supervisor CSR is the guest's own. -/
def SysCore.csrName (c : SysCore) (n : Nat) : Nat :=
  if c.virt && [0x100, 0x104, 0x105, 0x140, 0x141, 0x142, 0x143, 0x144, 0x14D, 0x180].contains n then n + 0x100 else n
/-- The exception that an access to a CSR raises in the mode it is made in; none where it is legal. -/
def State.csrStop (s : State) (c : SysCore) (w : Word) (n : Nat) (writes : Bool) : Option ScStop :=
  let level := n / 0x100 % 4
  let h := c.csr 0x600
  let counter := 0xC00 ≤ n && n ≤ 0xC1F
  let off (m : Nat) : Bool := counter && !bit (c.csr m) (n - 0xC00)
  let fOff (m : Nat) : Bool := n ≤ 3 && field (c.csr m) 13 2 == 0
  let vOff (m : Nat) : Bool := (n == 8 || (9 ≤ n && n ≤ 0xF) || (0xC20 ≤ n && n ≤ 0xC22)) && field (c.csr m) 9 2 == 0
  if (s.scRead c n).isNone || level == 3 || (writes && 0xC00 ≤ n) || fOff 0x100 || vOff 0x100 || (c.virt && (fOff 0x200 || vOff 0x200)) then
    some (scIllegal w)
  else if c.virt then
    if level == 2 || (c.user && level == 1) || off 0x606 || (c.user && off 0x106) || (n == 0x180 && bit h 20) ||
        (n == 0x14D && !bit (c.csr 0x60A) 63) || (n == 0x10A && !bit (c.csr 0x60C) 62) || (n == 0x10C && !bit (c.csr 0x60C) 63) then some (scVirtual w)
    else none
  else if c.user && (level != 0 || off 0x106) then some (scIllegal w)
  else none

/-! ### Execution -/

def State.score (s : State) (k : Nat) : SysCore := (s.scores[k]?).getD {}
def State.updScore (s : State) (k : Nat) (g : SysCore → SysCore) : State := { s with scores := s.scores.modify k g }
/-- An instruction has completed: its result, and the pc behind it. -/
def State.scDone (s : State) (k rd : Nat) (v : DWord) (len : Nat) : State :=
  s.updScore k fun c => { c.setReg rd v with pc := c.pc + BitVec.ofNat 64 len, instret := c.instret + 1 }
/-- The floating-point state is dirty. -/
def SysCore.dirty (c : SysCore) (lo : Nat) : SysCore :=
  let set (c : SysCore) (n : Nat) : SysCore := c.setCsr n (c.csr n ||| (3#64 <<< lo))
  if c.virt then set (set c 0x100) 0x200 else set c 0x100
/-- LR, SC and the AMOs, of words and double words, naturally aligned. -/
def State.scAtomic (s : State) (k : Nat) (rd : Nat) (va v : DWord) (op n len : Nat) : Except ScStop State := do
  let c := s.score k
  let m := c.mode (if op == 2 then .load else .write)
  let va := c.ea m va
  if va.toNat % n != 0 then .error (.trap (if op == 2 then 4 else 6) va 0 c.virt)
  else
    let l ← s.scPlaces c m va n
    let phys := (l.map (·.2)).headD 0
    let old : DWord := (BitVec.setWidth (8 * n) (ofBytes 64 (l.map fun x => s.byte x.2))).signExtend 64
    if op == 2 then .ok (((s.qcNote l false).updScore k fun c => { c with resv := some phys }).scDone k rd old len)
    else if op == 3 then
      -- the RISC-V rules let an SC fail although its reservation stands
      let r := s.freeBool
      if c.resv != some phys || r.1 then .ok ((r.2.updScore k fun c => { c with resv := none }).scDone k rd 1 len)
      else
        let w := r.2.coreWrite l (toBytes n v)
        if w.1 then .ok ((w.2.updScore k fun c => { c with resv := none }).scDone k rd 0 len) else .error .locked
    else
      let new : DWord := if n == 4 then word64 ((scAmo op (old.setWidth 32) (v.setWidth 32)).getD 0) else (scAmo op old v).getD 0
      let w := s.coreWrite l (toBytes n new)
      if w.1 then .ok (w.2.scDone k rd old len) else .error .locked
/-- The effect of an instruction that the model does not compute: its accesses are translated and made, and its results are those given. -/
def State.scOther (s : State) (k : Nat) (x : ScEffect) (len : Nat) : Except ScStop State := do
  let c := s.score k
  let s ← x.loads.foldlM (fun s a => do .ok (← s.scLoad c (c.mode .load) a.1 a.2).2) s
  let s ← x.stores.foldlM (fun s a => s.scStore c (c.mode .write) a.1 a.2) s
  .ok ((s.updScore k fun c =>
    let c := { c with
      x := x.x.foldl (fun l r => if r.1 == 0 then l else l.set r.1.toNat r.2) c.x
      f := x.f.foldl (fun l r => l.set r.1.toNat r.2) c.f
      v := x.v.foldl (fun l r => l.set r.1.toNat r.2) c.v }
    let c := match x.fcsr with | some v => c.setCsr 3 (v.setWidth 64) | none => c
    let c := x.vector.foldl (fun c r => if [8, 0xF, 0xC20, 0xC21].contains r.1 then c.setCsr r.1 r.2 else c) c
    let c := if x.f.isEmpty && x.fcsr.isNone then c else c.dirty 13
    if x.v.isEmpty && x.vector.isEmpty then c else c.dirty 9).scDone k 0 0 len)
/-- What an instruction does once it is fetched; `len` is its length in bytes. -/
def State.scAct (s : State) (k : Nat) (w : Word) (other : ScEffect) (len : Nat) : Except ScStop State := do
  let c := s.score k
  match c.word w with
  | .set rd v => .ok (s.scDone k rd v len)
  | .jump rd t => .ok ((s.scDone k rd (c.pc + BitVec.ofNat 64 len) len).updScore k fun c => { c with pc := t &&& ~~~1 })
  | .load rd m va n signed =>
    let r ← s.scLoad c m va n
    let v : DWord := ofBytes 64 r.1
    .ok (r.2.scDone k rd (if signed then (v.setWidth (8 * n)).signExtend 64 else v) len)
  | .fload fd va n =>
    let r ← s.scLoad c (c.mode .load) va n
    let v : DWord := ofBytes 64 r.1 ||| (-1 <<< (8 * n))
    .ok ((r.2.updScore k fun c => { c with f := c.f.set fd v }.dirty 13).scDone k 0 0 len)
  | .store m va data => .ok ((← s.scStore c m va data).scDone k 0 0 len)
  | .amo rd va v op n => s.scAtomic k rd va v op n len
  | .csr rd n kind v writes => match s.csrStop c w n writes with
    | some x => .error x
    | none =>
      let n := c.csrName n
      let old := (s.scRead c n).getD 0
      let new := match kind with | 1 => v | 2 => old ||| v | _ => old &&& ~~~v
      .ok ((s.updScore k fun c => if writes then c.writeCsr n new else c).scDone k rd old len)
  | .sret => .ok ((s.scDone k 0 0 len).updScore k fun d => { c.sret with instret := d.instret })
  | .ext => s.scOther k other len
  | .stop x => .error x
/-- The instruction at the pc: 2 bytes and, where they ask for it, 2 more. -/
def State.scFetch (s : State) (k : Nat) (other : ScEffect) : Except ScStop State := do
  let c := s.score k
  let m := c.mode .load true
  let l ← s.scPlaces c m c.pc 2
  let low : Word := ofBytes 32 (l.map fun x => s.byte x.2)
  let s := s.qcNote l false
  if field low 0 2 != 3 then match expandC low with
    | some w => s.scAct k w other 2
    | none => .error (scIllegal low)
  else
    let h ← s.scPlaces c m (c.pc + 2) 2
    (s.qcNote h false).scAct k (low ||| ((ofBytes 32 (h.map fun x => s.byte x.2) : Word) <<< 16)) other 4
/-- One instruction of a system core that runs: a pending interrupt first; a trap is taken, and what cannot be done yet leaves the core at it. -/
def State.scStep (s : State) (k : Nat) (other : ScEffect) : State :=
  let c := s.score k
  if !c.running then s
  else match s.scIrq c with
    | some (i, vs) => s.updScore k fun c => if vs then c.enterVs i true 0 else c.enterHs i true 0 0 false false
    | none => match s.scFetch k other with
      | .ok t => t
      | .error (.trap cause tval gpa guest entry) => s.updScore k fun c => c.enter cause tval gpa guest entry
      | .error (.wait cause ia) => s.setGoing { cause := cause, arg1 := BitVec.ofNat 64 ia }
      | .error .locked => s

/-- SYSTEM_CORE_INSTRUCTION (R467, R306): the instruction at the core's pc; or an access that the core makes, by the IA it reaches through its tables, within
one page: an access whose page cannot be reached has no effect here, and an instruction takes the exception of its own. A start is another core's doing. -/
def execSystemCoreInstruction (core : Nat) (act : ScAct) (s : State) : Result :=
  if 8 ≤ core then .next s
  else match act with
    | .load ia n _ => if 65536 < ia % 65536 + n then .next s else match s.checkPlace ia n .load with
      | .ok p => .next ((s.noteOwn ia n false).emit (.readData (s.bytes p.phys n) false))
      | .error c => .next (s.setGoing { cause := c, arg1 := BitVec.ofNat 64 ia })
    | .store ia data _ => if 65536 < ia % 65536 + data.length then .next s else match s.checkPlace ia data.length .write with
      | .ok p =>
        if s.lineLocked ia data.length then .next s
        else .next ((s.noteOwn ia data.length true).storeBytes .other ia p.phys data)
      | .error c => .next (s.setGoing { cause := c, arg1 := BitVec.ofNat 64 ia })
    | .fence _ => .next s
    | .registerRead a => .next (s.emit (.readData (toBytes 8 (s.readRegister a)) false))
    | .start pc a0 a1 => .next (s.updScore core fun c => if c.running then c else
        { ({} : SysCore) with pc := pc, x := ((List.replicate 32 0).set 10 a0).set 11 a1, running := true })
    | .instruction other => .next (s.scStep core other)

end Sys2Proof.Machine
end

