-- ==== Sys2Proof/Machine/Dispatch.lean ====
section
/-! DEFINITION. One arm per instruction and event: the direct call of its meaning. -/

namespace Sys2Proof.Machine

/-- The meaning of an instruction or event in a state. -/
def exec (i : Instr) (s : State) : Host.Outcome State Fault Refusal :=
  match i with
  | .iadd f => Sys2Proof.Machine.execIadd f s
  | .isub f => Sys2Proof.Machine.execIsub f s
  | .iaddc f => Sys2Proof.Machine.execIaddc f s
  | .ineg f => Sys2Proof.Machine.execIneg f s
  | .iabs f => Sys2Proof.Machine.execIabs f s
  | .imin f => Sys2Proof.Machine.execImin f s
  | .imax f => Sys2Proof.Machine.execImax f s
  | .imul f => Sys2Proof.Machine.execImul f s
  | .imulh f => Sys2Proof.Machine.execImulh f s
  | .imad f => Sys2Proof.Machine.execImad f s
  | .imadw f => Sys2Proof.Machine.execImadw f s
  | .idiv f => Sys2Proof.Machine.execIdiv f s
  | .irem f => Sys2Proof.Machine.execIrem f s
  | .and f => Sys2Proof.Machine.execAnd f s
  | .or f => Sys2Proof.Machine.execOr f s
  | .xor f => Sys2Proof.Machine.execXor f s
  | .andn f => Sys2Proof.Machine.execAndn f s
  | .tern f => Sys2Proof.Machine.execTern f s
  | .shl f => Sys2Proof.Machine.execShl f s
  | .shr f => Sys2Proof.Machine.execShr f s
  | .sha f => Sys2Proof.Machine.execSha f s
  | .fsh f => Sys2Proof.Machine.execFsh f s
  | .bfx f => Sys2Proof.Machine.execBfx f s
  | .bfi f => Sys2Proof.Machine.execBfi f s
  | .popc f => Sys2Proof.Machine.execPopc f s
  | .clz f => Sys2Proof.Machine.execClz f s
  | .ctz f => Sys2Proof.Machine.execCtz f s
  | .brev f => Sys2Proof.Machine.execBrev f s
  | .permb f => Sys2Proof.Machine.execPermb f s
  | .bmsk f => Sys2Proof.Machine.execBmsk f s
  | .icmp f => Sys2Proof.Machine.execIcmp f s
  | .fcmp f => Sys2Proof.Machine.execFcmp f s
  | .pset f => Sys2Proof.Machine.execPset f s
  | .plop f => Sys2Proof.Machine.execPlop f s
  | .pmov f => Sys2Proof.Machine.execPmov f s
  | .ptest f => Sys2Proof.Machine.execPtest f s
  | .lxch f => Sys2Proof.Machine.execLxch f s
  | .ballot f => Sys2Proof.Machine.execBallot f s
  | .vote f => Sys2Proof.Machine.execVote f s
  | .matchLanes f => Sys2Proof.Machine.execMatch f s
  | .lred f => Sys2Proof.Machine.execLred f s
  | .lscan f => Sys2Proof.Machine.execLscan f s
  | .strandm f => Sys2Proof.Machine.execStrandm f s
  | .mov f => Sys2Proof.Machine.execMov f s
  | .movi f => Sys2Proof.Machine.execMovi f s
  | .sel f => Sys2Proof.Machine.execSel f s
  | .get f => Sys2Proof.Machine.execGet f s
  | .setmode f => Sys2Proof.Machine.execSetmode f s
  | .getmode f => Sys2Proof.Machine.execGetmode f s
  | .clk f => Sys2Proof.Machine.execClk f s
  | .fadd f => Sys2Proof.Machine.execFadd f s
  | .fsub f => Sys2Proof.Machine.execFsub f s
  | .fmul f => Sys2Proof.Machine.execFmul f s
  | .ffma f => Sys2Proof.Machine.execFfma f s
  | .fmin f => Sys2Proof.Machine.execFmin f s
  | .fmax f => Sys2Proof.Machine.execFmax f s
  | .fdiv f => Sys2Proof.Machine.execFdiv f s
  | .fsqrt f => Sys2Proof.Machine.execFsqrt f s
  | .frcp f => Sys2Proof.Machine.execFrcp f s
  | .frsq f => Sys2Proof.Machine.execFrsq f s
  | .fscale f => Sys2Proof.Machine.execFscale f s
  | .frnd f => Sys2Proof.Machine.execFrnd f s
  | .fclass f => Sys2Proof.Machine.execFclass f s
  | .hadd2 f => Sys2Proof.Machine.execHadd2 f s
  | .hmul2 f => Sys2Proof.Machine.execHmul2 f s
  | .hfma2 f => Sys2Proof.Machine.execHfma2 f s
  | .hmnx2 f => Sys2Proof.Machine.execHmnx2 f s
  | .dot4 f => Sys2Proof.Machine.execDot4 f s
  | .idot4 f => Sys2Proof.Machine.execIdot4 f s
  | .fexp2 f => Sys2Proof.Machine.execFexp2 f s
  | .flog2 f => Sys2Proof.Machine.execFlog2 f s
  | .fsin f => Sys2Proof.Machine.execFsin f s
  | .fcos f => Sys2Proof.Machine.execFcos f s
  | .ftanh f => Sys2Proof.Machine.execFtanh f s
  | .cvtff f => Sys2Proof.Machine.execCvtff f s
  | .cvtfi f => Sys2Proof.Machine.execCvtfi f s
  | .cvtif f => Sys2Proof.Machine.execCvtif f s
  | .cvtii f => Sys2Proof.Machine.execCvtii f s
  | .pack f => Sys2Proof.Machine.execPack f s
  | .unpack f => Sys2Proof.Machine.execUnpack f s
  | .mxq f => Sys2Proof.Machine.execMxq f s
  | .mxdq f => Sys2Proof.Machine.execMxdq f s
  | .bra f => Sys2Proof.Machine.execBra f s
  | .brb f => Sys2Proof.Machine.execBrb f s
  | .brx f => Sys2Proof.Machine.execBrx f s
  | .call f => Sys2Proof.Machine.execCall f s
  | .ret f => Sys2Proof.Machine.execRet f s
  | .loop f => Sys2Proof.Machine.execLoop f s
  | .nop f => Sys2Proof.Machine.execNop f s
  | .spawn f => Sys2Proof.Machine.execSpawn f s
  | .fend f => Sys2Proof.Machine.execFend f s
  | .converge f => Sys2Proof.Machine.execConverge f s
  | .yield f => Sys2Proof.Machine.execYield f s
  | .prio f => Sys2Proof.Machine.execPrio f s
  | .ld f => Sys2Proof.Machine.execLd f s
  | .st f => Sys2Proof.Machine.execSt f s
  | .ldq f => Sys2Proof.Machine.execLdq f s
  | .stq f => Sys2Proof.Machine.execStq f s
  | .pref f => Sys2Proof.Machine.execPref f s
  | .refmk f => Sys2Proof.Machine.execRefmk f s
  | .refadd f => Sys2Proof.Machine.execRefadd f s
  | .hqry f => Sys2Proof.Machine.execHqry f s
  | .lds f => Sys2Proof.Machine.execLds f s
  | .sts f => Sys2Proof.Machine.execSts f s
  | .stash f => Sys2Proof.Machine.execStash f s
  | .unstash f => Sys2Proof.Machine.execUnstash f s
  | .flushs f => Sys2Proof.Machine.execFlushs f s
  | .atom f => Sys2Proof.Machine.execAtom f s
  | .acas f => Sys2Proof.Machine.execAcas f s
  | .acas2 f => Sys2Proof.Machine.execAcas2 f s
  | .afadd f => Sys2Proof.Machine.execAfadd f s
  | .atoms f => Sys2Proof.Machine.execAtoms f s
  | .acass f => Sys2Proof.Machine.execAcass f s
  | .rowopen f => Sys2Proof.Machine.execRowopen f s
  | .rowrel f => Sys2Proof.Machine.execRowrel f s
  | .rowld f => Sys2Proof.Machine.execRowld f s
  | .rowst f => Sys2Proof.Machine.execRowst f s
  | .rowq f => Sys2Proof.Machine.execRowq f s
  | .fence f => Sys2Proof.Machine.execFence f s
  | .bar f => Sys2Proof.Machine.execBar f s
  | .rbar f => Sys2Proof.Machine.execRbar f s
  | .arrive f => Sys2Proof.Machine.execArrive f s
  | .bwait f => Sys2Proof.Machine.execBwait f s
  | .barstat f => Sys2Proof.Machine.execBarstat f s
  | .monarm f => Sys2Proof.Machine.execMonarm f s
  | .monwait f => Sys2Proof.Machine.execMonwait f s
  | .semwait f => Sys2Proof.Machine.execSemwait f s
  | .sempost f => Sys2Proof.Machine.execSempost f s
  | .wqpush f => Sys2Proof.Machine.execWqpush f s
  | .wqpop f => Sys2Proof.Machine.execWqpop f s
  | .wqnote f => Sys2Proof.Machine.execWqnote f s
  | .tryOpen f => Sys2Proof.Machine.execTryOpen f s
  | .commit f => Sys2Proof.Machine.execCommit f s
  | .abort f => Sys2Proof.Machine.execAbort f s
  | .tstat f => Sys2Proof.Machine.execTstat f s
  | .tchk f => Sys2Proof.Machine.execTchk f s
  | .acp f => Sys2Proof.Machine.execAcp f s
  | .tcp f => Sys2Proof.Machine.execTcp f s
  | .put f => Sys2Proof.Machine.execPut f s
  | .gather f => Sys2Proof.Machine.execGather f s
  | .pfx f => Sys2Proof.Machine.execPfx f s
  | .wbx f => Sys2Proof.Machine.execWbx f s
  | .waitc f => Sys2Proof.Machine.execWaitc f s
  | .cntr f => Sys2Proof.Machine.execCntr f s
  | .tenq f => Sys2Proof.Machine.execTenq f s
  | .tdep f => Sys2Proof.Machine.execTdep f s
  | .svc f => Sys2Proof.Machine.execSvc f s
  | .svcq f => Sys2Proof.Machine.execSvcq f s
  | .mma f => Sys2Proof.Machine.execMma f s
  | .mmac f => Sys2Proof.Machine.execMmac f s
  | .mmas f => Sys2Proof.Machine.execMmas f s
  | .rqt f => Sys2Proof.Machine.execRqt f s
  | .accz f => Sys2Proof.Machine.execAccz f s
  | .accld f => Sys2Proof.Machine.execAccld f s
  | .accst f => Sys2Proof.Machine.execAccst f s
  | .accrow f => Sys2Proof.Machine.execAccrow f s
  | .accscl f => Sys2Proof.Machine.execAccscl f s
  | .accexp f => Sys2Proof.Machine.execAccexp f s
  | .skbuild f => Sys2Proof.Machine.execSkbuild f s
  | .skscore f => Sys2Proof.Machine.execSkscore f s
  | .sksel f => Sys2Proof.Machine.execSksel f s
  | .skmap f => Sys2Proof.Machine.execSkmap f s
  | .coll f => Sys2Proof.Machine.execColl f s
  | .collq f => Sys2Proof.Machine.execCollq f s
  | .collx f => Sys2Proof.Machine.execCollx f s
  | .trap f => Sys2Proof.Machine.execTrap f s
  | .dbg f => Sys2Proof.Machine.execDbg f s
  | .tret f => Sys2Proof.Machine.execTret f s
  | .rqread f => Sys2Proof.Machine.execRqread f s
  | .rqdrop f => Sys2Proof.Machine.execRqdrop f s
  | .prof f => Sys2Proof.Machine.execProf f s
  | .sysrd f => Sys2Proof.Machine.execSysrd f s
  | .resultWriteback blk crew entry => Sys2Proof.Machine.execResultWriteback blk crew entry s
  | .creditReload core => Sys2Proof.Machine.execCreditReload core s
  | .waiterRetry blk crew slot => Sys2Proof.Machine.execWaiterRetry blk crew slot s
  | .monwaitTimeout blk crew slot => Sys2Proof.Machine.execMonwaitTimeout blk crew slot s
  | .tryLongTimeout blk crew => Sys2Proof.Machine.execTryLongTimeout blk crew s
  | .commitStep blk crew => Sys2Proof.Machine.execCommitStep blk crew s
  | .engineOperationWork op units => Sys2Proof.Machine.execEngineOperationWork op units s
  | .meLockPhase op => Sys2Proof.Machine.execMeLockPhase op s
  | .meMultiply op => Sys2Proof.Machine.execMeMultiply op s
  | .meOperandConsumed op => Sys2Proof.Machine.execMeOperandConsumed op s
  | .engineOpRetire op => Sys2Proof.Machine.execEngineOpRetire op s
  | .engineFatalDelivery blk crew => Sys2Proof.Machine.execEngineFatalDelivery blk crew s
  | .submitNop page => Sys2Proof.Machine.execSubmitNop page s
  | .launch page => Sys2Proof.Machine.execLaunch page s
  | .drain page => Sys2Proof.Machine.execDrain page s
  | .submissionComplete sub => Sys2Proof.Machine.execSubmissionComplete sub s
  | .recordCheck => Sys2Proof.Machine.execRecordCheck s
  | .priorityAging => Sys2Proof.Machine.execPriorityAging s
  | .taskReservation => Sys2Proof.Machine.execTaskReservation s
  | .taskPlace => Sys2Proof.Machine.execTaskPlace s
  | .poolStallResume => Sys2Proof.Machine.execPoolStallResume s
  | .compactorMove core => Sys2Proof.Machine.execCompactorMove core s
  | .blockFill blk => Sys2Proof.Machine.execBlockFill blk s
  | .crewRetire blk crew => Sys2Proof.Machine.execCrewRetire blk crew s
  | .blockRetire blk => Sys2Proof.Machine.execBlockRetire blk s
  | .taskRetire task => Sys2Proof.Machine.execTaskRetire task s
  | .expansion stack page => Sys2Proof.Machine.execExpansion stack page s
  | .agingTick stack => Sys2Proof.Machine.execAgingTick stack s
  | .mstSet stack => Sys2Proof.Machine.execMstSet stack s
  | .mstCompress stack => Sys2Proof.Machine.execMstCompress stack s
  | .mstExpand stack => Sys2Proof.Machine.execMstExpand stack s
  | .mstPromote stack => Sys2Proof.Machine.execMstPromote stack s
  | .mstQuery stack => Sys2Proof.Machine.execMstQuery stack s
  | .mstBadCommand stack => Sys2Proof.Machine.execMstBadCommand stack s
  | .rowopenSwapDone blk crew => Sys2Proof.Machine.execRowopenSwapDone blk crew s
  | .rowRestoreTimeout blk entry => Sys2Proof.Machine.execRowRestoreTimeout blk entry s
  | .trapDelivery blk crew => Sys2Proof.Machine.execTrapDelivery blk crew s
  | .trapRecordWrite ctx => Sys2Proof.Machine.execTrapRecordWrite ctx s
  | .parkedRetry who => Sys2Proof.Machine.execParkedRetry who s
  | .preempt ctx => Sys2Proof.Machine.execPreempt ctx s
  | .restore ctx => Sys2Proof.Machine.execRestore ctx s
  | .resume ctx => Sys2Proof.Machine.execResume ctx s
  | .dbgstop ctx => Sys2Proof.Machine.execDbgstop ctx s
  | .dbgrun ctx => Sys2Proof.Machine.execDbgrun ctx s
  | .kill ctx => Sys2Proof.Machine.execKill ctx s
  | .ctxBadCommand ctx => Sys2Proof.Machine.execCtxBadCommand ctx s
  | .invalHandles => Sys2Proof.Machine.execInvalHandles s
  | .invalContext => Sys2Proof.Machine.execInvalContext s
  | .invalBadCommand => Sys2Proof.Machine.execInvalBadCommand s
  | .invalidationDone => Sys2Proof.Machine.execInvalidationDone s
  | .collChunkArrival chunk => Sys2Proof.Machine.execCollChunkArrival chunk s
  | .collTimeout op => Sys2Proof.Machine.execCollTimeout op s
  | .collxTimeout op => Sys2Proof.Machine.execCollxTimeout op s
  | .leaseRequest => Sys2Proof.Machine.execLeaseRequest s
  | .leaseRenew => Sys2Proof.Machine.execLeaseRenew s
  | .leaseRelease => Sys2Proof.Machine.execLeaseRelease s
  | .leaseRecall => Sys2Proof.Machine.execLeaseRecall s
  | .leaseBadCommand => Sys2Proof.Machine.execLeaseBadCommand s
  | .requestNoAnswer => Sys2Proof.Machine.execRequestNoAnswer s
  | .quiesce => Sys2Proof.Machine.execQuiesce s
  | .quiesceComplete => Sys2Proof.Machine.execQuiesceComplete s
  | .snap => Sys2Proof.Machine.execSnap s
  | .ckResume => Sys2Proof.Machine.execCkResume s
  | .load => Sys2Proof.Machine.execLoad s
  | .clear => Sys2Proof.Machine.execClear s
  | .partReset => Sys2Proof.Machine.execPartReset s
  | .spdmRequest data => Sys2Proof.Machine.execSpdmRequest data s
  | .groupSwap stack group member => Sys2Proof.Machine.execGroupSwap stack group member s
  | .instructionFetch blk crew => Sys2Proof.Machine.execInstructionFetch blk crew s
  | .crewRotation blk crew => Sys2Proof.Machine.execCrewRotation blk crew s
  | .submitDmwr origin offset data => Sys2Proof.Machine.execSubmitDmwr origin offset data s
  | .winPlainWrite page => Sys2Proof.Machine.execWinPlainWrite page s
  | .stateErrClear page => Sys2Proof.Machine.execStateErrClear page s
  | .bindingWrite page entry => Sys2Proof.Machine.execBindingWrite page entry s
  | .qsbWrite set value => Sys2Proof.Machine.execQsbWrite set value s
  | .svcPop qcore => Sys2Proof.Machine.execSvcPop qcore s
  | .svcClaim qcore => Sys2Proof.Machine.execSvcClaim qcore s
  | .svcDone qcore => Sys2Proof.Machine.execSvcDone qcore s
  | .svcNottaken qcore => Sys2Proof.Machine.execSvcNottaken qcore s
  | .svcExit qcore => Sys2Proof.Machine.execSvcExit qcore s
  | .svcFail qcore => Sys2Proof.Machine.execSvcFail qcore s
  | .svcBadCommand qcore value => Sys2Proof.Machine.execSvcBadCommand qcore value s
  | .serviceRestart qcore => Sys2Proof.Machine.execServiceRestart qcore s
  | .serviceNodeException qcore mcause mtval => Sys2Proof.Machine.execServiceNodeException qcore mcause mtval s
  | .l2Eviction line => Sys2Proof.Machine.execL2Eviction line s
  | .bloomRotate slice => Sys2Proof.Machine.execBloomRotate slice s
  | .rowForcedClose slot => Sys2Proof.Machine.execRowForcedClose slot s
  | .neighbourRefresh slot => Sys2Proof.Machine.execNeighbourRefresh slot s
  | .lineError at_ correctable => Sys2Proof.Machine.execLineError at_ correctable s
  | .trstatClear ctx => Sys2Proof.Machine.execTrstatClear ctx s
  | .corePowerGate core => Sys2Proof.Machine.execCorePowerGate core s
  | .incomingMemRead origin ia len => Sys2Proof.Machine.execIncomingMemRead origin ia len s
  | .incomingMemWrite origin posted ia data => Sys2Proof.Machine.execIncomingMemWrite origin posted ia data s
  | .backInvalidateSnoop lease line => Sys2Proof.Machine.execBackInvalidateSnoop lease line s
  | .bisnpResponse lease line dirty => Sys2Proof.Machine.execBisnpResponse lease line dirty s
  | .bisnpTimeout lease line => Sys2Proof.Machine.execBisnpTimeout lease line s
  | .uioWriteReceived lease offset data => Sys2Proof.Machine.execUioWriteReceived lease offset data s
  | .uioAck store result => Sys2Proof.Machine.execUioAck store result s
  | .peerStoreTimeout store => Sys2Proof.Machine.execPeerStoreTimeout store s
  | .req body => Sys2Proof.Machine.execReq body s
  | .offer body => Sys2Proof.Machine.execOffer body s
  | .accept body => Sys2Proof.Machine.execAccept body s
  | .refuse body => Sys2Proof.Machine.execRefuse body s
  | .renew body => Sys2Proof.Machine.execRenew body s
  | .renewed body => Sys2Proof.Machine.execRenewed body s
  | .notice body => Sys2Proof.Machine.execNotice body s
  | .release body => Sys2Proof.Machine.execRelease body s
  | .released body => Sys2Proof.Machine.execReleased body s
  | .alive body => Sys2Proof.Machine.execAlive body s
  | .announce body => Sys2Proof.Machine.execAnnounce body s
  | .claim body => Sys2Proof.Machine.execClaim body s
  | .depart body => Sys2Proof.Machine.execDepart body s
  | .ringlist source body => Sys2Proof.Machine.execRinglist source body s
  | .offerTimeout entry => Sys2Proof.Machine.execOfferTimeout entry s
  | .leaseExpiry entry => Sys2Proof.Machine.execLeaseExpiry entry s
  | .gracePeriodEnd entry => Sys2Proof.Machine.execGracePeriodEnd entry s
  | .renewTimer entry => Sys2Proof.Machine.execRenewTimer entry s
  | .aliveTimer => Sys2Proof.Machine.execAliveTimer s
  | .announceTimer => Sys2Proof.Machine.execAnnounceTimer s
  | .announceAbsence => Sys2Proof.Machine.execAnnounceAbsence s
  | .electionWin => Sys2Proof.Machine.execElectionWin s
  | .aliveTimeout party => Sys2Proof.Machine.execAliveTimeout party s
  | .portLinkDown port half => Sys2Proof.Machine.execPortLinkDown port half s
  | .portLinkReset port half trains => Sys2Proof.Machine.execPortLinkReset port half trains s
  | .snapComplete failed => Sys2Proof.Machine.execSnapComplete failed s
  | .loadComplete error shard => Sys2Proof.Machine.execLoadComplete error shard s
  | .cinch => Sys2Proof.Machine.execCinch s
  | .cinchgo => Sys2Proof.Machine.execCinchgo s
  | .cinchadr scan => Sys2Proof.Machine.execCinchadr scan s
  | .cinchrd => Sys2Proof.Machine.execCinchrd s
  | .thermalThrottle die => Sys2Proof.Machine.execThermalThrottle die s
  | .thermalTrip die => Sys2Proof.Machine.execThermalTrip die s
  | .registerWrite address value => Sys2Proof.Machine.execRegisterWrite address value s
  | .queueCoreInstruction go => Sys2Proof.Machine.execQueueCoreInstruction go s
  | .systemCoreInstruction core act => Sys2Proof.Machine.execSystemCoreInstruction core act s
  | .fmApiCommand pbr routes => Sys2Proof.Machine.execFmApiCommand pbr routes s

end Sys2Proof.Machine
end

