-- ==== Sys2Proof/Machine/Turns.lean ====
section
/-! DEFINITION. Whose turn it is: the default order when no turn is given, and the placed instruction of `State.withFetchWord`. -/

namespace Sys2Proof.Machine
open Bits

/-! ### The default order -/

/-- Events that a crew may be owed. -/
def Crew.owedTurns (c : Crew) (b ci : Nat) : List Go :=
  (c.pend.filter (·.op.isNone)).map (fun p => Go.event (.resultWriteback b ci p.id)) ++
  (((List.range 32).filter fun i => (c.fibre i).st == .waiting).flatMap fun i =>
    [Go.event (.waiterRetry b ci i), Go.event (.monwaitTimeout b ci i)]) ++
  (if !c.pendTraps.isEmpty then [Go.event (.trapDelivery b ci)] else []) ++
  (if c.fatals.isEmpty then [] else [Go.event (.engineFatalDelivery b ci)]) ++
  (if c.rowWait.isSome then [Go.event (.rowopenSwapDone b ci)] else []) ++
  (if c.tr.isSome then [Go.event (.commitStep b ci), Go.event (.tryLongTimeout b ci)] else []) ++
  (if c.live then [Go.event (.crewRetire b ci)] else [])
/-- Events that a block may be owed. -/
def Block.owedTurns (b : Block) : List Go :=
  Go.event (.blockFill b.bid) :: (b.crews.zipIdx.flatMap fun x => x.1.owedTurns b.bid x.2) ++
  ((List.range b.holds.length).map fun i => Go.event (.rowRestoreTimeout b.bid i)) ++ [Go.event (.blockRetire b.bid)]
/-- Events that an engine operation may be owed. -/
def EngineOp.owedTurns (o : EngineOp) : List Go :=
  [.event (.meLockPhase o.id), .event (.meMultiply o.id), .event (.meOperandConsumed o.id), .event (.engineOperationWork o.id 64),
   .event (.engineOpRetire o.id), .event (.collTimeout o.id), .event (.collxTimeout o.id)]
/-- The event that carries out a context's command. -/
def Context.owedTurns (c : Context) (i : Nat) : List Go :=
  if c.cmdstat != 1 then []
  else match c.cmdOpc.toNat with
    | 1 => [.event (.preempt i)]
    | 2 => [.event (.restore i)]
    | 3 => [.event (.resume i)]
    | 4 => [.event (.dbgstop i)]
    | 5 => [.event (.dbgrun i)]
    | 6 => [.event (.kill i)]
    | _ => [.event (.ctxBadCommand i)]
/-- Events that a translation unit may be owed. -/
def Mtu.owedTurns (m : Mtu) (i : Nat) : List Go :=
  (if m.cmd.pending then [.event (.mstSet i), .event (.mstCompress i), .event (.mstExpand i), .event (.mstPromote i), .event (.mstQuery i),
    .event (.mstBadCommand i)] else []) ++
  (m.expanding.map fun x => .event (.expansion i (x.1 % 2 ^ 33))) ++ (if m.ageper == 0 then [] else [.event (.agingTick i)])
/-- What has waited is tried again: the i-th request from outside, or else a profile record, the answers of snoops, and what the Latigo logic
owes (R331, R434, R436, R449, R478). -/
def State.serveWaiting (s : State) (i : Nat) : State := if i < s.incoming.length then s.serveIncoming i else s.serveProfile.serveAnswers.serveInbox
/-- What inside the part may move now. What comes from outside, and the queue and system cores, come by `turns` alone. -/
def State.candidates (s : State) : List Go :=
  s.retry.map (fun w => Go.event (.parkedRetry w)) ++
  (if s.heldDue.isEmpty then [] else (List.range s.held.length).map fun i => Go.event (.parkedRetry (.record i))) ++
  (if s.eligible.isEmpty then [] else [.event .recordCheck]) ++
  (if s.pool.isEmpty then [] else [.event .priorityAging, .event .taskReservation, .event .taskPlace]) ++
  (s.tasks.flatMap fun t => [.event (.taskRetire t.uid), .event .poolStallResume]) ++
  s.blocks.flatMap (·.owedTurns) ++ s.ops.flatMap (·.owedTurns) ++
  (s.blocks.flatMap fun b => (b.crews.filter (·.live)).map fun _ => Go.slot b.core) ++
  (s.subs.flatMap fun x => [.event (.submitNop x.page), .event (.launch x.page), .event (.drain x.page), .event (.submissionComplete x.id)]) ++
  ((s.promotions.filter (·.page.isNone)).map fun p => Go.event (.groupSwap (p.dfn / 2 ^ 22) (p.dfn / 4 % 2 ^ 20) (p.dfn % 4))) ++
  (s.contexts.zipIdx.flatMap fun c => c.1.owedTurns c.2) ++ (s.mtus.zipIdx.flatMap fun m => m.1.owedTurns m.2) ++
  (s.records.map fun r => Go.event (.trapRecordWrite r.ctx)) ++
  ((List.range (s.incoming.length + 1)).map Go.waiting) ++
  (if s.inval.pending then [.event .invalHandles, .event .invalContext, .event .invalBadCommand, .event .invalidationDone] else []) ++
  (if s.latigo.cmd.pending then [.event .leaseRequest, .event .leaseRenew, .event .leaseRelease, .event .leaseRecall, .event .leaseBadCommand,
    .event .requestNoAnswer] else []) ++
  ((List.range s.cores.length).filter fun k => (s.core k).compacting).map (fun k => Go.event (.compactorMove k)) ++
  [.event .quiesce, .event .quiesceComplete, .event .snap, .event .ckResume, .event .load, .event .clear]
/-- The turn taken when none is given: the candidates one after another, as device time goes on (DESIGN CHOICE, log 17). -/
def State.defaultTurn (s : State) : Turn :=
  let c := s.candidates
  { go := c.getD (s.devTime.toNat / 5 % c.length) .idle }
/-- The turn that comes now, and the state without it. -/
def State.takeTurn (s : State) : Turn × State :=
  match s.turns with
  | t :: r => (t, { s with turns := r })
  | [] => (s.defaultTurn, s)

/-! ### Who answers while the part is not running -/

/-- In recovery the part answers MCTP over I3C alone (R469); a reset ends it. -/
def answersInRecovery : Instr → Bool
  | .partReset => true
  | .spdmRequest _ => true
  | _ => false
/-- Only a part reset leaves the state after a thermal trip (R476). -/
def answersWhenTripped : Instr → Bool
  | .partReset => true
  | _ => false
/-- While every clock is stopped the JTAG port alone acts (R473). -/
def answersFrozen : Instr → Bool
  | .partReset => true
  | .cinch => true
  | .cinchgo => true
  | .cinchadr _ => true
  | .cinchrd => true
  | _ => false
/-- The head turn when it is an event that may act now, and the state without that turn. -/
def State.takeEvent (s : State) (may : Instr → Bool) : Option Instr × State :=
  match s.turns with
  | [] => (none, s)
  | t :: r => match t.go with
    | .event i => (if may i then some i else none, { s with turns := r })
    | _ => (none, { s with turns := r })

/-! ### One placed instruction -/

/-- The entry of the code object that `State.withFetchWord` places: kind CODE, right X, at IA 0. -/
def placedEntry : BitVec 512 := at_ 512 0 3 2 ||| at_ 512 5 1 1 ||| at_ 512 128 41 4096 ||| at_ 512 192 8 1
/-- A reference to entry 1 at offset 0. -/
def placedRef : DWord := at_ 64 46 18 1
/-- One crew of 32 fibres of which slot 0 is live, at PC 0. -/
def placedCrew : Crew :=
  { fibres := { st := .runnable } :: List.replicate 31 {}, filled := true, units := 16, credit := 2 }
def placedBlock : Block :=
  { bid := 1, task := 1, core := 0, crews := [placedCrew] }
def placedTask : Task :=
  { uid := 1, ctx := 0, rec_ := { wcode := 4, coderef := placedRef }, code := placedEntry }
/-- A running part whose next turn issues the instruction stored at IA 0, the first byte of frame 0 under the boot tables (R479). -/
def State.placed (s : State) (bytes : List Byte) : State :=
  { s with
    boot := .up
    frozen := false
    mtus := (List.range 8).map (bootMtu Config.poolgr)
    mem := Sparse.putN memDefault s.mem 0 bytes
    cores := s.cores.modify 0 fun k => { k with handles := [(handleKey 0 1, placedEntry, none)] }
    contexts := s.contexts.modify 0 fun c => { c with htcount := 2 }
    tasks := [placedTask]
    blocks := [placedBlock]
    turns := [{ go := .slot 0 }] }

end Sys2Proof.Machine
end

