-- ==== Sys2Proof/Machine/Step.lean ====
section
/-! DEFINITION. One step: the turn that comes, the time that passes before it, and what it does. -/

namespace Sys2Proof.Machine

/-- A crew's turn: its instruction, when it comes to one, is executed between the two halves of its issue. -/
def runPrepared (p : Prepared) (s : State) : Result :=
  match p with
  | .rest => .next s
  | .trap t => .next t
  | .stall t => .next t
  | .settle t => .next t
  | .run i t => match exec i (t.beginIssue i) with
    | .next u => .next (t.endIssue u)
    | .fault r => .fault r
    | .refused r => .refused r
/-- What a turn does: a core takes a crew, or an event happens. A Zuzer instruction runs only when it is fetched. -/
def runGo (g : Go) (stale : Bool) (s : State) : Result :=
  match g with
  | .slot k => match s.take k stale with
    | (some (b, c), t) => runPrepared (t.prepare b c stale) t
    | (none, t) => .next t
  | .event i => if (opOf i).isSome then .next s else exec i s
  | .waiting i => .next (s.serveWaiting i)
  | .idle => .next s
/-- One event that may act while the part is not running; with none given, `none`. -/
def runEvent (s : State) (may : Instr → Bool) (none_ : Result) : Result :=
  if s.turns.isEmpty then none_
  else match s.takeEvent may with
    | (some i, s') => exec i s'
    | (none, s') => .next s'
/-- One step of the part. -/
def step (s : State) : Host.Outcome State Fault Refusal :=
  match s.boot with
  | .atReset => exec .partReset s
  | .recovery => runEvent s answersInRecovery (.fault .recovery)
  | .tripped => runEvent s answersWhenTripped (.fault .thermalTrip)
  | .up =>
    if s.frozen then runEvent s answersFrozen (.next s)
    else
      let r := s.takeTurn
      runGo r.1.go r.1.stale (r.2.pass r.1.dns r.1.dclk)

/-- `s` with an instruction stored where the next step fetches, its bits above `nbits` zero. -/
def State.withFetchWord (s : State) (nbits w : Nat) : State := s.placed (wordBytes (BitVec.ofNat 96 (w % 2 ^ nbits)))

end Sys2Proof.Machine
end

