-- ==== Sys2Proof/Safety.lean ====
section
/-! DEFINITION. What counts as a safe run, and the terms claims use: an instruction in execution, and what it leaves unchanged. -/

namespace Sys2Proof.Safety
open Sys2Proof.Machine

/-- A step that goes on. -/
def goesOn (s : State) : Bool := match step s with | .next _ => true | _ => false

/-- A run of `n` steps from `s` that neither faults nor is refused. -/
def runs : Nat → State → Bool
  | 0, _ => true
  | n + 1, s => match step s with | .next t => runs n t | _ => false

/-! ### An instruction in execution -/

/-- The block and the crew of the instruction in execution exist, and the crew has its 32 slots (R104). -/
def executing (s : State) : Bool :=
  (s.blocks.any fun b => b.bid == s.cur.blk) && decide (s.cur.crew < s.curBlock.crews.length) && s.curCrew.fibres.length == 32

/-- Slot i takes part in the instruction: it is in the strand and its guard is true (R84). -/
def acts (s : State) (f : Fields) (i : Nat) : Prop := i ∈ s.acting f

/-! ### What an instruction leaves unchanged -/

/-- Outside the crew in execution nothing differs: no register, no byte of memory, no other crew, block, table or queue. -/
structure OnlyCrew (s t : State) : Prop where
  rest : ({ t with blocks := s.blocks } : State) = s
  blocks : ∀ b, b ≠ s.cur.blk → t.block b = s.block b
  block : ({ t.curBlock with crews := s.curBlock.crews } : Block) = s.curBlock
  crews : ∀ k, k ≠ s.cur.crew → t.curBlock.crew k = s.curBlock.crew k

/-- Of the crew itself only the fibres may differ: the mode register, queues, counters and frames stand. -/
structure OnlyFibres (s t : State) : Prop extends OnlyCrew s t where
  crew : ({ t.curCrew with fibres := s.curCrew.fibres } : Crew) = s.curCrew

/-- A fibre has gone on to PC + 1, and nothing of it but its registers, its lookahead windows and its PC differs (R80, R111). `acted`,
`fenceFrom` and `tornAt` mark the progress of an instruction that stalled; they end with it. -/
def movedOn (a b : Fibre) : Prop :=
  b.pc = a.pc + 1 ∧ (b.acted = false ∧ b.fenceFrom = none ∧ b.tornAt = none) ∧
    ({ b with pc := a.pc, past := a.past, regs := a.regs, windows := a.windows
              acted := a.acted, fenceFrom := a.fenceFrom, tornAt := a.tornAt } : Fibre) = a

/-- Every fibre of the strand has gone on, the others have not moved, and outside the destination registers of the acting fibres
every register reads as before. -/
structure FibresMoved (s t : State) (f : Fields) (dests : List Nat) : Prop where
  outside : ∀ i, i < 32 → s.cur.mask.getLsbD i = false → t.curCrew.fibre i = s.curCrew.fibre i
  moved : ∀ i, i < 32 → s.cur.mask.getLsbD i = true → movedOn (s.curCrew.fibre i) (t.curCrew.fibre i)
  regs : ∀ i r, ¬(acts s f i ∧ r ∈ dests) → (t.curCrew.fibre i).reg r = (s.curCrew.fibre i).reg r

/-- The frame of a form that writes registers alone. -/
structure RegisterFrame (s t : State) (f : Fields) (dests : List Nat) : Prop extends OnlyFibres s t, FibresMoved s t f dests

/-- `P` holds of every acting slot's fibre before and after. -/
def EachActing (s t : State) (f : Fields) (P : Fibre → Fibre → Prop) : Prop :=
  ∀ i, acts s f i → P (s.curCrew.fibre i) (t.curCrew.fibre i)

end Sys2Proof.Safety
end

