-- ==== Sys2Proof/Certificates/Slice0/Obligations.lean ====
section
/-! DEFINITION. The statements for the provers. The definitions in `Sys2Proof.Claims` are the words they share: what it is for an
instruction to complete with results in registers, with a pending result, with a transfer of control, and so on. -/

namespace Sys2Proof.Claims
open Sys2Proof.Machine Bits Safety

/-! ### Register forms -/

/-- Wherever the instruction is in execution it answers a next state that differs in the destination registers of the acting fibres
and in the strand's PCs alone, and `P` holds of each acting fibre before and after. -/
def Gives (i : Instr) (f : Fields) (dests : List Nat) (P : State → Nat → Fibre → Fibre → Prop) : Prop :=
  ∀ s, executing s = true → ∃ t, exec i s = .next t ∧ RegisterFrame s t f dests ∧
    ∀ k, acts s f k → P s k (s.curCrew.fibre k) (t.curCrew.fibre k)

/-- `r` is the exact result `x` as R124 fits it to TYPE: clamped with SAT, congruent modulo 2^w and in range without. -/
def fits (ty : Nat) (sat : Bool) (x r : Int) : Prop :=
  if sat then r = clamp (intMin ty) (intMax ty) x
  else (r - x) % 2 ^ intWidth ty = 0 ∧ intMin ty ≤ r ∧ r ≤ intMax ty

/-- Destination registers of an integer TYPE (R7, R124). -/
def intDests (f : Fields) : List Nat := if intWidth f.ty = 64 then [f.d.toNat, f.d.toNat + 1] else [f.d.toNat]
/-- Destination registers of a form with a PAIR variant. -/
def pairDests (f : Fields) : List Nat := if f.form = .pair then [f.d.toNat, f.d.toNat + 1] else [f.d.toNat]
/-- An integer form whose exact result is `x` of the fibre as it stood. -/
def GivesInt (i : Instr) (f : Fields) (x : Fibre → Int) : Prop :=
  Gives i f (intDests f) fun _ _ a b => fits f.ty f.sat (x a) (b.int f.ty f.d.toNat)
/-- A form of 32-bit words, or of 64-bit pairs in PAIR. -/
def GivesBits (i : Instr) (f : Fields) (g32 : Word → Word → Word) (g64 : DWord → DWord → DWord) : Prop :=
  Gives i f (pairDests f) fun _ _ a b =>
    if f.form = .pair then b.pair f.d.toNat = g64 (a.pair f.a.toNat) (a.pair f.b.toNat)
    else b.reg f.d.toNat = g32 (a.reg f.a.toNat) (bitsB f a)
/-- A form that sets one predicate bit of v0, bit D, and keeps the others. -/
def GivesPredicate (i : Instr) (f : Fields) (p : Fibre → Prop) : Prop :=
  Gives i f [0] fun _ _ a b => ∀ k, k < 32 →
    ((b.reg 0).getLsbD k = true ↔ if k = f.d.toNat % 32 then p a else (a.reg 0).getLsbD k = true)
/-- A form with one 32-bit result of which bit k is `p`. -/
def GivesEachBit (i : Instr) (f : Fields) (p : State → Nat → Fibre → Nat → Prop) : Prop :=
  Gives i f [f.d.toNat] fun s k a b => ∀ j, j < 32 → ((b.reg f.d.toNat).getLsbD j = true ↔ p s k a j)

/-- The comparison that SUB names (R130). -/
def compares (sub : Nat) (a b : Int) : Prop :=
  match sub with | 0 => a = b | 1 => a ≠ b | 2 => a < b | 3 => a ≤ b | 4 => b < a | _ => b ≤ a

/-! ### Forms that set flags -/

/-- A float form: with an enabled exception it raises FP for the lowest acting slot that has one and writes nothing; otherwise the
results are written, the flags of all acting slots are set, and nothing else differs (R162, R164). -/
def GivesFloat (i : Instr) (f : Fields) (dests : List Nat) (val : State → Nat → Fibre → List (Nat × Word) × BitVec 5) : Prop :=
  ∀ s, executing s = true →
    (∀ k, acts s f k → (val s k (s.curCrew.fibre k)).2 &&& s.curCrew.enables ≠ 0 →
      (∀ j, acts s f j → (val s j (s.curCrew.fibre j)).2 &&& s.curCrew.enables ≠ 0 → k ≤ j) →
      exec i s = s.raise f (some k) { cause := causeFp, arg0 := (val s k (s.curCrew.fibre k)).2.setWidth 64 }) ∧
    ((∀ k, acts s f k → (val s k (s.curCrew.fibre k)).2 &&& s.curCrew.enables = 0) →
      ∃ t, exec i s = .next t ∧ OnlyCrew s t ∧ FibresMoved s t f dests ∧
        (∀ e, e < 5 → (t.curCrew.mode.getLsbD (10 + e) = true ↔
          s.curCrew.mode.getLsbD (10 + e) = true ∨ ∃ k, acts s f k ∧ (val s k (s.curCrew.fibre k)).2.getLsbD e = true)) ∧
        (∀ j, ¬(10 ≤ j ∧ j < 15) → t.curCrew.mode.getLsbD j = s.curCrew.mode.getLsbD j) ∧
        ({ t.curCrew with fibres := s.curCrew.fibres, mode := s.curCrew.mode } : Crew) = s.curCrew ∧
        ∀ k, acts s f k → ∀ p ∈ (val s k (s.curCrew.fibre k)).1, (t.curCrew.fibre k).reg p.1 = p.2)
/-- A float form with one 32-bit result. -/
def GivesFloat1 (i : Instr) (f : Fields) (val : State → Fibre → FRes) : Prop :=
  GivesFloat i f [f.d.toNat] fun s _ fb => ([(f.d.toNat, BitVec.ofNat 32 (val s fb).bits)], (val s fb).exc)

/-! ### Long-latency forms -/

/-- The crew waits for one more result, and of the crew nothing else but the strand's PCs and windows differs. -/
structure Awaits (s t : State) (f : Fields) (p : Pending) : Prop where
  rest : OnlyCrew s { t with nextId := s.nextId }
  moved : FibresMoved s t f []
  crew : ({ t.curCrew with fibres := s.curCrew.fibres, pend := s.curCrew.pend } : Crew) = s.curCrew
  pend : t.curCrew.pend = s.curCrew.pend ++ [p]
  from_ : p.id = s.nextId ∧ p.pc = s.cur.pc ∧ p.word = s.cur.word ∧ p.mask = s.actMask f ∧ p.strand = s.cur.mask
/-- A replay-eligible form, first issued: its results wait in the crew with their exceptions (R87, R164, R397); with 16 of them
outstanding it stalls instead (R399). -/
def GivesLater (i : Instr) (f : Fields) (val : State → Fibre → List (Nat × Word) × BitVec 5) : Prop :=
  ∀ s, executing s = true → s.cur.replay = none → (s.curCrew.pend.filter (·.replay)).length < 16 →
    ∃ t p, exec i s = .next t ∧ Awaits s t f p ∧ p.replay = true ∧ p.op = none ∧ p.enables = s.curCrew.enables ∧
      p.writes = (s.acting f).map (fun k => (k, (val s (s.curCrew.fibre k)).1)) ∧
      ∀ k e, (k, e) ∈ p.excs ↔ acts s f k ∧ e = (val s (s.curCrew.fibre k)).2 ∧ e ≠ 0

/-! ### Control forms -/

/-- A control form: each acting fibre stands at `target`, the other fibres of the strand at PC + 1; the registers of `dests` alone may
differ, in acting fibres alone; `P` holds of each acting fibre (R145). -/
def Transfers (i : Instr) (f : Fields) (s : State) (dests : List Nat) (target : Fibre → Word) (P : Fibre → Fibre → Prop) : Prop :=
  ∃ t, exec i s = .next t ∧ OnlyFibres s t ∧
    (∀ k, k < 32 → s.cur.mask.getLsbD k = false → t.curCrew.fibre k = s.curCrew.fibre k) ∧
    (∀ k, k < 32 → s.cur.mask.getLsbD k = true → guardTrue f (s.curCrew.fibre k) = false → movedOn (s.curCrew.fibre k) (t.curCrew.fibre k)) ∧
    (∀ k r, ¬(acts s f k ∧ r ∈ dests) → (t.curCrew.fibre k).reg r = (s.curCrew.fibre k).reg r) ∧
    ∀ k, acts s f k → (t.curCrew.fibre k).pc = target (s.curCrew.fibre k) ∧ (t.curCrew.fibre k).st = (s.curCrew.fibre k).st ∧
      P (s.curCrew.fibre k) (t.curCrew.fibre k)

/-! ### Tries and exceptions -/

/-- No member of an open try acts (R367). -/
def untried (s : State) (f : Fields) : Prop := ∀ t, s.curCrew.tr = some t → s.actMask f &&& t.members = 0
/-- Where the next trap record of the context in execution goes (R401). -/
def recordAt (s : State) : Nat := (s.ctx s.curCtx).recordAt
/-- The part can write a range at once: no matrix operation locks a line of it, and each line lies in a frame of the part's own memory, which no
lease reaches (R291, R333). -/
def Local (s : State) (ia n : Nat) : Prop := ∀ l ∈ linesOf ia n, s.lineLocked (64 * l) 64 = false ∧
  ∃ p, s.place (64 * l) = .ok p ∧ p.peer = none ∧ p.phys < poolBase
/-- A context's next trap record can be written at once, or is to be discarded (R401, R402). -/
def RecordFits (s : State) (ctx : Nat) : Prop :=
  (s.ctx ctx).trlog ≠ 0 → (s.ctx ctx).ringFull = false ∧ Local s (s.ctx ctx).recordAt 64
/-- A trap of the strand in execution can be delivered at once: no try is open, the crew is not being moved, the strand is not in the middle of a
WQPUSH or SVC and no earlier trap of it waits, nothing but replay-eligible results is owed, and the trap ring has room at a place that can be
written (R71, R335, R368, R396, R397, R401, R402). -/
structure Deliverable (s : State) : Prop where
  runs : executing s = true
  first : s.cur.replay = none
  try_ : s.curCrew.tr = none
  pend : ∀ p ∈ s.curCrew.pend, p.replay = true ∧ p.poison = none
  still : s.curCrew.moving = false
  partway : s.curCrew.midway s.cur.mask = false
  waits : s.curCrew.trapWaits s.cur.mask = false
  record : RecordFits s s.curCtx
  ctx : s.curCtx < s.contexts.length
  strand : s.cur.mask ≠ 0
/-- The event as the record and the frame hold it: PC and SLOT filled in (R83, R403). -/
def located (s : State) (slot : Option Nat) (e : Event) : Event :=
  { e with pc := s.cur.pc, slot := match slot with | some i => BitVec.ofNat 8 i | none => 0xFF }
/-- One record of `e` with FLAGS has gone to the context's trap ring (R401 to R403); with TRLOG = 0 it is lost instead. -/
def Recorded (s t : State) (e : Event) (flags : Nat) : Prop :=
  ((s.ctx s.curCtx).trlog ≠ 0 → (t.ctx s.curCtx).trprod = (s.ctx s.curCtx).trprod + 1 ∧
    ∀ p, s.place (recordAt s) = .ok p → p.peer = none → recordAt s % 65536 + 64 ≤ 65536 → t.bytes p.phys 64 =
      toBytes 64 (trapRecord s.curCtx (s.ctx s.curCtx).trprod s.devTime e s.curTask.tid s.curTask.rec_.tag s.cur.crew s.curBlock.bx
        s.curBlock.byy (((s.curBlock.barriers[0]?).map (·.phase)).getD 0) flags)) ∧
  ((s.ctx s.curCtx).trlog = 0 → (t.ctx s.curCtx).lost = true ∧ t.mem = s.mem)
/-- The replay-eligible results of the crew in execution, captured as replay entries in issue order (R397, R398). -/
def captured (s : State) : List Replay := s.curCrew.pend.map fun p =>
  { pc := p.pc, word := p.word, mask := p.mask, srcA := p.srcA, srcB := p.srcB, handler := s.curCrew.frame.isSome }
/-- Handler entry (R395): the frame is filled, every fibre of the strand goes to HPC and keeps its own frame PC, results in flight are
captured, and registers and the mode register stand. -/
structure HandlerEntered (s t : State) (e : Event) : Prop where
  recorded : Recorded s t e 4
  frame : t.curCrew.frame = some { cause := e.cause, src := e.src, slot := e.slot, ref := e.ref, arg0 := e.arg0, set := s.cur.mask }
  strand : ∀ k, k < 32 → s.cur.mask.getLsbD k = true → (t.curCrew.fibre k).pc = s.curTask.rec_.hpc ∧
    (t.curCrew.fibre k).framePc = (s.curCrew.fibre k).pc ∧ (t.curCrew.fibre k).st = .runnable
  others : ∀ k, k < 32 → s.cur.mask.getLsbD k = false → (t.curCrew.fibre k).pc = (s.curCrew.fibre k).pc ∧
    (t.curCrew.fibre k).st = (s.curCrew.fibre k).st
  regs : ∀ k, (t.curCrew.fibre k).regs = (s.curCrew.fibre k).regs
  mode : t.curCrew.mode = s.curCrew.mode
  queue : t.curCrew.pend = [] ∧ t.curCrew.replay = captured s ++ s.curCrew.replay
/-- FPOL HANDLER applies: the event is one that FPOL decides, and the crew is not in handler mode (R393). -/
def handlerCase (s : State) (e : Event) : Prop :=
  0x10 ≤ e.cause.toNat ∧ e.cause ≠ causeCollTimeout ∧ e.cause ≠ causeDebugStop ∧ (e.cause = causeBkpt → (s.ctx s.curCtx).dbgen = false) ∧
  s.curCrew.frame = none ∧ s.curTask.rec_.fpol = 2
/-- An L form that is not replay-eligible, first issued: its writes wait in the crew (R87). -/
def GivesPending (i : Instr) (f : Fields) (ok : State → Prop) (val : State → Nat → Fibre → List (Nat × Word)) : Prop :=
  ∀ s, executing s = true → ok s → ∃ t p, exec i s = .next t ∧ Awaits s t f p ∧ p.replay = false ∧ p.op = none ∧
    p.writes = (s.acting f).map (fun k => (k, val s k (s.curCrew.fibre k)))

/-! ### Memory forms -/

/-- `s` with what any access may leave besides its bytes: REF, DIRTY and heat of the page, cache presence with the lines it writes to their
lenders, copies in the cores, and the free choices it has taken (R34, R195, R228, R230, R237, R239). -/
def apart (s t : State) : State :=
  { t with
    pageBits := s.pageBits, heat := s.heat, l2 := s.l2, mvc := s.mvc, blooms := s.blooms, mtus := s.mtus, cores := s.cores
    free := s.free, outbox := s.outbox, blocks := s.blocks, nextId := s.nextId }
/-- `s` with what a store may leave besides: bytes and poison, ownership, reservations of queue cores and system cores, code bytes that a fetch may
still find old, and peer stores on their way. -/
def beside (s t : State) : State :=
  { apart s t with
    mem := s.mem, poison := s.poison, owners := s.owners, qcores := s.qcores, scores := s.scores, codeOld := s.codeOld, cur := s.cur
    peerStores := s.peerStores, ops := s.ops }
/-- Every fibre of the strand has gone on to PC + 1; of the crew no register, no mode bit and no other PC differs. -/
structure WentOn (s t : State) : Prop where
  strand : ∀ k, k < 32 → s.cur.mask.getLsbD k = true → (t.curCrew.fibre k).pc = (s.curCrew.fibre k).pc + 1
  others : ∀ k, k < 32 → s.cur.mask.getLsbD k = false → (t.curCrew.fibre k).pc = (s.curCrew.fibre k).pc
  regs : ∀ k, (t.curCrew.fibre k).regs = (s.curCrew.fibre k).regs ∧ (t.curCrew.fibre k).st = (s.curCrew.fibre k).st
  mode : t.curCrew.mode = s.curCrew.mode ∧ t.curCrew.counters = s.curCrew.counters ∧ t.curCrew.frame = s.curCrew.frame
/-- An L form that reads memory was issued: memory, other blocks and other crews stand, and one more result is owed. -/
structure Issues (s t : State) (p : Pending) : Prop where
  rest : apart s t = s
  sent : s.outbox <+: t.outbox
  others : ∀ b, b ≠ s.cur.blk → t.block b = s.block b
  crews : ∀ k, k ≠ s.cur.crew → t.curBlock.crew k = s.curBlock.crew k
  on : WentOn s t
  pend : t.curCrew.pend = s.curCrew.pend ++ [p]
  from_ : p.pc = s.cur.pc ∧ p.word = s.cur.word ∧ p.strand = s.cur.mask ∧ p.op = none
/-- Bytes written through checked accesses, in order; a peer-store page takes no byte here (R442). -/
def written (m : List (Nat × Byte)) (ws : List (Acc × List Byte)) : List (Nat × Byte) :=
  ws.foldl (fun m w => if w.1.place.peer.isSome then m else Sparse.putN memDefault m w.1.place.phys w.2) m
/-- A form that stores: memory is as `ws` write it and no byte outside them differs; the strand's crew keeps its registers, as does
every crew that has no try open; tables and queues stand. -/
structure Stores (s t : State) (ws : List (Acc × List Byte)) : Prop where
  mem : t.mem = written s.mem ws
  outside : ∀ a, (∀ w ∈ ws, w.1.place.peer = none → ¬(w.1.place.phys ≤ a ∧ a < w.1.place.phys + w.2.length)) → t.byte a = s.byte a
  rest : beside s t = s
  regs : ∀ b k, (s.crew b k).tr = none → ∀ j, ((t.crew b k).fibre j).regs = ((s.crew b k).fibre j).regs
/-- What is performed before the accesses of a form: the window write-backs of a release by the lowest acting slot (R318). -/
def readied (s : State) (rel : Bool) (as : List (Want × Acc)) : Except Stop State :=
  match as with
  | [] => .ok s
  | p :: _ => if rel then s.release p.1.slot else .ok s
/-- One atomic after another on the bytes of memory, in slot order: the memory left, and each slot's old value (R338). -/
def atomics (f : Fields) (c : Crew) (m : List (Nat × Byte)) (g : Fibre → List Byte → Option (List Byte)) (as : List (Want × Acc)) :
    List (Nat × Byte) × List (Nat × List (Nat × Word)) :=
  as.foldl (fun x p =>
    let old := Sparse.getN memDefault x.1 p.2.place.phys (sizeBytes f.size)
    (match g (c.fibre p.1.slot) old with
     | some new => Sparse.putN memDefault x.1 p.2.place.phys new
     | none => x.1, x.2 ++ [(p.1.slot, loadWrites f.size f.d.toNat old)])) (m, [])
/-- A load that its core's L1 may serve (R195): a plain one of an object with L1 = 1. -/
def cachedLoad (f : Fields) (a : Acc) : Bool := Ent.l1 a.ent && !f.mbit 0 && !Ent.rd a.ent
/-- A load that must be whole finds all of it in the core's L1 (R310, R322). -/
def wholeInL1 (s : State) (f : Fields) (a : Acc) : Prop := (s.ctx s.curCtx).compat = true → s.l1Whole s.curCore a.ia (sizeBytes f.size) = true
/-- The bytes a load takes: those of memory, or, where an older copy may be read, what the core's L1 gives (R310, R311, R315). -/
def loaded (s : State) (f : Fields) (older : Bool) (a : Acc) : List Byte :=
  if older then s.loadBytes s.curCore true (s.ctx s.curCtx).compat a (sizeBytes f.size) else s.bytes a.place.phys (sizeBytes f.size)
/-- A load form outside a try: with every access granted it issues with the bytes of each (R199, R207). An acquire reads no older copy
(R319). -/
def Loads (i : Instr) (f : Fields) (acq : Bool) (wants : State → List Want) : Prop := ∀ s, executing s = true → s.curCrew.tr = none →
  (∀ as older, s.checkWants (wants s) (sizeBytes f.size) (Req.load (sizeBytes f.size)) .load = .ok as →
    (older = false → s.cur.stale = false ∨ acq = true ∨ ∀ x ∈ as, cachedLoad f x.2 = false) →
    (older = true → s.cur.stale = true ∧ acq = false ∧ ∀ x ∈ as, cachedLoad f x.2 = true ∧ wholeInL1 s f x.2) → ∃ t p, exec i s = .next t ∧ Issues s t p ∧
    p.replay = false ∧ p.writes = as.map fun x => (x.1.slot, loadWrites f.size f.d.toNat (loaded s f older x.2))) ∧
  ∀ k e, s.checkWants (wants s) (sizeBytes f.size) (Req.load (sizeBytes f.size)) .load = .error (k, e) → exec i s = s.raise f (some k) e
/-- A store form outside a try: with every access granted and no line held, each slot's register bytes are stored in slot order. -/
def StoresAll (i : Instr) (f : Fields) (rel : Bool) (wants : State → List Want) : Prop := ∀ s, executing s = true → s.curCrew.tr = none →
  (∀ as s1, s.checkWants (wants s) (sizeBytes f.size) (Req.store (sizeBytes f.size)) .store = .ok as → readied s rel as = .ok s1 →
    s1.mustHold (as.map fun x => (x.2, sizeBytes f.size)) = false → ∃ t, exec i s = .next t ∧ WentOn s t ∧ t.curCrew.pend = s.curCrew.pend ∧
      Stores s1 t (as.map fun x => (x.2, storeData f.size f.d.toNat (s.curCrew.fibre x.1.slot)))) ∧
  ∀ k e, s.checkWants (wants s) (sizeBytes f.size) (Req.store (sizeBytes f.size)) .store = .error (k, e) → exec i s = s.raise f (some k) e
/-- A memory atomic outside a try, of a SIZE that the form has (R337, R338). -/
def Atomic (i : Instr) (f : Fields) (off : Int) (g : Fibre → List Byte → Option (List Byte)) : Prop := WellFormed i = true → ∀ s, executing s = true →
  s.curCrew.tr = none → ∀ as s1, s.checkWants ((s.acting f).map fun k =>
      ⟨k, (s.curCrew.fibre k).pair f.a.toNat, refOff ((s.curCrew.fibre k).pair f.a.toNat) + off⟩) (sizeBytes f.size) (Req.atom (sizeBytes f.size))
    .load = .ok as → s.mustHold (as.map fun x => (x.2, sizeBytes f.size)) = false →
  readied s (f.mb 10 2 == 2 || f.mb 10 2 == 3) as = .ok s1 → ∃ t p, exec i s = .next t ∧ WentOn s t ∧ t.curCrew.pend = s.curCrew.pend ++ [p] ∧
    p.replay = false ∧ t.mem = (atomics f s.curCrew s1.mem g as).1 ∧ p.writes = (atomics f s.curCrew s1.mem g as).2 ∧
    beside s1 t = s1 ∧ ∀ a, (∀ x ∈ as, ¬(x.2.place.phys ≤ a ∧ a < x.2.place.phys + sizeBytes f.size)) → t.byte a = s1.byte a
/-- A replay-eligible form that reads tables: it issues with `val` of each acting fibre while fewer than 16 are outstanding (R399). -/
def Queries (i : Instr) (f : Fields) (val : State → Fibre → Word) (ok : State → Prop) : Prop := ∀ s, executing s = true →
  s.curCrew.tr = none → s.cur.replay = none → (s.curCrew.pend.filter (·.replay)).length < 16 → ok s → ∃ t p, exec i s = .next t ∧
    Issues s t p ∧ p.replay = true ∧ p.writes = (s.acting f).map fun k => (k, [(f.d.toNat, val s (s.curCrew.fibre k))])

/-! ### Engine forms -/

/-- An engine instruction of a class issues: no try is open, `l` is the lowest acting slot, and the class's counter has room (R252, R256). -/
structure EngineReady (s : State) (f : Fields) (cls l : Nat) : Prop where
  runs : executing s = true
  try_ : s.curCrew.tr = none
  lowest : (s.acting f).head? = some l
  room : (s.curCrew.counters[cls]?).getD 0 < 255
/-- One operation is started (R251): it is queued behind the others, its class's counter rises by one, the strand goes on, and neither
memory nor any register nor any other crew differs. -/
structure Starts (s t : State) (f : Fields) (cls : Nat) (o : EngineOp) : Prop where
  ops : t.ops = s.ops ++ [{ o with id := s.nextId, blk := s.cur.blk, crew := s.cur.crew, core := s.curBlock.core, task := s.curBlock.task,
                                   ctx := s.curCtx, cls := cls, pc := s.cur.pc }]
  moved : FibresMoved s t f []
  crew : ({ t.curCrew with fibres := s.curCrew.fibres } : Crew) =
    { s.curCrew with counters := s.curCrew.counters.modify cls (· + 1) }
  rest : ({ apart s t with ops := s.ops } : State) = s
  others : ∀ b, b ≠ s.cur.blk → t.block b = s.block b
  crews : ∀ k, k ≠ s.cur.crew → t.curBlock.crew k = s.curBlock.crew k
/-- An engine instruction that needs its whole crew (R280) also needs a converged strand. -/
structure WholeReady (s : State) (f : Fields) (cls l : Nat) : Prop extends EngineReady s f cls l where
  whole : s.converged = true

end Sys2Proof.Claims

open Sys2Proof Sys2Proof.Machine Sys2Proof.Bits Sys2Proof.Safety Sys2Proof.Claims

/-! ### Integers, bits and predicates (07_integer_and_control) -/

/-- Group 0x00 (R123, R124): the destination, read back as TYPE, is the exact result clamped or wrapped. -/
def Sys2Proof.Claims.IntegerSums : Prop := ∀ f : Fields,
  GivesInt (.iadd f) f (fun a => if f.form = .rri then a.int f.ty f.a.toNat + a.int f.ty f.b.toNat + immInt f.ty f.x
    else a.int f.ty f.a.toNat + opB f a) ∧
  GivesInt (.isub f) f (fun a => a.int f.ty f.a.toNat - opB f a) ∧
  GivesInt (.ineg f) f (fun a => -a.int f.ty f.a.toNat) ∧
  GivesInt (.iabs f) f (fun a => |a.int f.ty f.a.toNat|) ∧
  GivesInt (.imin f) f (fun a => min (a.int f.ty f.a.toNat) (opB f a)) ∧
  GivesInt (.imax f) f (fun a => max (a.int f.ty f.a.toNat) (opB f a)) ∧
  GivesInt (.imul f) f (fun a => a.int f.ty f.a.toNat * opB f a) ∧
  GivesInt (.imulh f) f (fun a => a.int f.ty f.a.toNat * opB f a / 2 ^ 32) ∧
  GivesInt (.imad f) f (fun a => a.int f.ty f.a.toNat * a.int f.ty f.b.toNat + opC f a) ∧
  Gives (.imadw f) f [f.d.toNat, f.d.toNat + 1] fun _ _ a b =>
    ((b.pair f.d.toNat).toNat : Int) = (a.int f.ty f.a.toNat * a.int f.ty f.b.toNat + (a.pair f.c.toNat).toNat) % 2 ^ 64

/-- IADDC and IADDC.sbb (R125): the 33-bit sum or difference, its carry or borrow in bit N of v0, the other bits of v0 kept. -/
def Sys2Proof.Claims.IntegerCarry : Prop := ∀ f : Fields, f.d ≠ 0 → Gives (.iaddc f) f [f.d.toNat, 0] fun _ _ a b =>
  let n := f.extv % 32
  let cin := ((a.reg 0).getLsbD n).toNat
  (f.sub % 2 = 0 → (b.reg f.d.toNat).toNat + 2 ^ 32 * ((b.reg 0).getLsbD n).toNat =
    (a.reg f.a.toNat).toNat + (a.reg f.b.toNat).toNat + cin) ∧
  (f.sub % 2 = 1 → (b.reg f.d.toNat).toNat + (a.reg f.b.toNat).toNat + cin =
    (a.reg f.a.toNat).toNat + 2 ^ 32 * ((b.reg 0).getLsbD n).toNat) ∧
  ∀ k, k < 32 → k ≠ n → (b.reg 0).getLsbD k = (a.reg 0).getLsbD k

/-- Group 0x00 but for IDIV and IREM (R123 to R125). -/
def Obligations.IntegerArithmetic : Prop := IntegerSums ∧ IntegerCarry

/-- IDIV and IREM (R126): they issue with the quotient and the remainder of the operands at issue; for a divisor that is not 0 these
satisfy a = q·b + r with |r| < |b| and r of the dividend's sign, and for a divisor of 0 they are the values R126 gives. -/
def Obligations.IntegerDivision : Prop :=
  (∀ f : Fields,
    GivesLater (.idiv f) f (fun _ a => (intWrites f.ty f.d.toNat
      (intFit f.ty f.sat (divExact f.ty f.sat (a.int f.ty f.a.toNat) (opB f a))), 0)) ∧
    GivesLater (.irem f) f (fun _ a => (intWrites f.ty f.d.toNat
      (intFit f.ty false (remExact (a.int f.ty f.a.toNat) (opB f a))), 0))) ∧
  (∀ ty sat (a b : Int), b ≠ 0 →
    a = divExact ty sat a b * b + remExact a b ∧ |remExact a b| < |b| ∧ (0 ≤ a → 0 ≤ remExact a b) ∧ (a ≤ 0 → remExact a b ≤ 0)) ∧
  ∀ ty (a : Int), remExact a 0 = a ∧ (intSigned ty = true → divExact ty false a 0 = -1) ∧
    (intSigned ty = true → divExact ty true a 0 = if a < 0 then intMin ty else intMax ty) ∧
    (intSigned ty = false → ∀ sat, divExact ty sat a 0 = intMax ty)

/-- Group 0x01 (R127, R128): bitwise operations, the ternary map, shifts by an unsigned count that is not reduced, the funnel shift. -/
def Obligations.LogicAndShifts : Prop := ∀ f : Fields,
  GivesBits (.and f) f (· &&& ·) (· &&& ·) ∧ GivesBits (.or f) f (· ||| ·) (· ||| ·) ∧ GivesBits (.xor f) f (· ^^^ ·) (· ^^^ ·) ∧
  GivesBits (.andn f) f (fun a b => a &&& ~~~b) (fun a b => a &&& ~~~b) ∧
  GivesEachBit (.tern f) f (fun _ _ a j => (f.mb 0 8).testBit (((a.reg f.a.toNat).getLsbD j).toNat +
    2 * ((a.reg f.b.toNat).getLsbD j).toNat + 4 * ((bitsC f a).getLsbD j).toNat) = true) ∧
  (Gives (.shl f) f (pairDests f) fun _ _ a b =>
    if f.form = .pair then (b.pair f.d.toNat).toNat = (a.pair f.a.toNat).toNat * 2 ^ (a.reg f.b.toNat).toNat % 2 ^ 64
    else (b.reg f.d.toNat).toNat = (a.reg f.a.toNat).toNat * 2 ^ (bitsB f a).toNat % 2 ^ 32) ∧
  (Gives (.shr f) f (pairDests f) fun _ _ a b =>
    if f.form = .pair then (b.pair f.d.toNat).toNat = (a.pair f.a.toNat).toNat / 2 ^ (a.reg f.b.toNat).toNat
    else (b.reg f.d.toNat).toNat = (a.reg f.a.toNat).toNat / 2 ^ (bitsB f a).toNat) ∧
  (Gives (.sha f) f (pairDests f) fun _ _ a b =>
    if f.form = .pair then (b.pair f.d.toNat).toInt = (a.pair f.a.toNat).toInt / 2 ^ (a.reg f.b.toNat).toNat
    else (b.reg f.d.toNat).toInt = (a.reg f.a.toNat).toInt / 2 ^ (bitsB f a).toNat) ∧
  (Gives (.fsh f) f [f.d.toNat] fun _ _ a b =>
    let n := min (bitsC f a).toNat 32
    let hi := (a.reg f.a.toNat).toNat
    let lo := (a.reg f.b.toNat).toNat
    (b.reg f.d.toNat).toNat = if f.mbit 0 then (hi * 2 ^ 32 + lo) * 2 ^ n / 2 ^ 32 % 2 ^ 32 else (lo * 2 ^ 32 + hi) / 2 ^ n % 2 ^ 32)

/-- Group 0x02 (R129): bit fields, counts, reversal, byte permutation and masks. -/
def Obligations.BitFields : Prop := ∀ f : Fields,
  GivesEachBit (.bfx f) f (fun _ _ a j =>
    let p := ((bitsB f a).extractLsb' 0 8).toNat
    let l := min 32 ((bitsB f a).extractLsb' 8 8).toNat
    let at_ (k : Nat) : Bool := if p + k < 32 then (a.reg f.a.toNat).getLsbD (p + k) else f.mbit 0 && (a.reg f.a.toNat).getLsbD 31
    if j < l then at_ j = true else f.mbit 0 = true ∧ l ≠ 0 ∧ at_ (l - 1) = true) ∧
  GivesEachBit (.bfi f) f (fun _ _ a j =>
    let p := ((bitsC f a).extractLsb' 0 8).toNat
    let l := min 32 ((bitsC f a).extractLsb' 8 8).toNat
    if p ≤ j ∧ j < p + l then (a.reg f.a.toNat).getLsbD (j - p) = true else (a.reg f.b.toNat).getLsbD j = true) ∧
  GivesEachBit (.bmsk f) f (fun _ _ a j =>
    let w := if f.form = .ri then f.x else a.reg f.a.toNat
    (w.extractLsb' 0 8).toNat ≤ j ∧ j < (w.extractLsb' 0 8).toNat + min 32 (w.extractLsb' 8 8).toNat) ∧
  (Gives (.popc f) f [f.d.toNat] fun _ _ a b => (b.reg f.d.toNat).toNat =
    if f.form = .pair then (List.range 64).countP (a.pair f.a.toNat).getLsbD else (List.range 32).countP (a.reg f.a.toNat).getLsbD) ∧
  (Gives (.clz f) f [f.d.toNat] fun _ _ a b =>
    let w := if f.form = .pair then 64 else 32
    let v := if f.form = .pair then (a.pair f.a.toNat).toNat else (a.reg f.a.toNat).toNat
    let z := (b.reg f.d.toNat).toNat
    z ≤ w ∧ v < 2 ^ (w - z) ∧ (z < w → 2 ^ (w - 1 - z) ≤ v)) ∧
  (Gives (.ctz f) f [f.d.toNat] fun _ _ a b =>
    let w := if f.form = .pair then 64 else 32
    let v := if f.form = .pair then (a.pair f.a.toNat).toNat else (a.reg f.a.toNat).toNat
    let z := (b.reg f.d.toNat).toNat
    z ≤ w ∧ v % 2 ^ z = 0 ∧ (z < w → v.testBit z = true)) ∧
  (Gives (.brev f) f (pairDests f) fun _ _ a b =>
    if f.form = .pair then ∀ k, k < 64 → (b.pair f.d.toNat).getLsbD k = (a.pair f.a.toNat).getLsbD (63 - k)
    else ∀ k, k < 32 → (b.reg f.d.toNat).getLsbD k = (a.reg f.a.toNat).getLsbD (31 - k)) ∧
  (Gives (.permb f) f [f.d.toNat] fun _ _ a b => ∀ k, k < 4 →
    let n := ((bitsC f a).extractLsb' (4 * k) 4).toNat
    let src := if n % 8 < 4 then (a.reg f.a.toNat).extractLsb' (8 * (n % 8)) 8 else (a.reg f.b.toNat).extractLsb' (8 * (n % 8 - 4)) 8
    (b.reg f.d.toNat).extractLsb' (8 * k) 8 = if n < 8 then src else if src.getLsbD 7 then 0xFF#8 else 0#8)

/-- Group 0x03 but for FCMP (R130, R132): compares and predicate operations write v0 bit by bit; PTEST writes 0 or 1. -/
def Obligations.Predicates : Prop := ∀ f : Fields,
  GivesPredicate (.icmp f) f (fun a => compares f.sub (a.int f.ty f.a.toNat) (opB f a)) ∧
  (Gives (.pset f) f [0] fun _ _ a b => ∀ k, k < 32 → (b.reg 0).getLsbD k =
    if (bitsB f a).getLsbD k then (a.reg f.a.toNat).getLsbD k else (a.reg 0).getLsbD k) ∧
  GivesPredicate (.plop f) f (fun a =>
    let p (n : BitVec 8) : Nat := ((a.reg 0).getLsbD (n.toNat % 32)).toNat
    (f.extv % 256).testBit (p f.a + 2 * p f.b + 4 * p f.c) = true) ∧
  GivesPredicate (.pmov f) f (fun a => (a.reg f.a.toNat).getLsbD ((bitsB f a).toNat % 32) = true) ∧
  (Gives (.ptest f) f [f.d.toNat] fun _ _ a b =>
    let m := if f.form = .ri then f.x else a.reg f.a.toNat
    let on (k : Nat) : Prop := (a.reg 0).getLsbD k = true
    let sel (k : Nat) : Prop := m.getLsbD k = true
    let test := match f.sub with
      | 0 => ∃ k, k < 32 ∧ sel k ∧ on k
      | 1 => ∀ k, k < 32 → sel k → on k
      | _ => ∀ k, k < 32 → sel k → ¬on k
    (test → b.reg f.d.toNat = 1) ∧ (¬test → b.reg f.d.toNat = 0))

/-- Group 0x04 (R133 to R139): lane exchange, votes and reductions over the participants, with every source read before any write. -/
def Obligations.Lanes : Prop := ∀ f : Fields,
  (Gives (.lxch f) f [f.d.toNat] fun s k a b =>
    let n := (bitsB f a).toNat
    let src : Nat := match f.mb 0 2 with
      | 0 => n
      | 1 => (k + n) % 32
      | 2 => k ^^^ n
      | _ => if k < n then n - 1 - k else 32
    (src < 32 → acts s f src → b.reg f.d.toNat = (s.curCrew.fibre src).reg f.a.toNat) ∧
    (¬(src < 32 ∧ acts s f src) → b.reg f.d.toNat = a.reg f.a.toNat)) ∧
  GivesEachBit (.ballot f) f (fun s _ _ j => acts s f j ∧ (laneBit f (s.curCrew.fibre j) ^^ f.mbit 0) = true) ∧
  (Gives (.vote f) f [f.d.toNat] fun s _ _ b =>
    let on (j : Nat) : Prop := laneBit f (s.curCrew.fibre j) = true
    let test := match f.mb 0 2 with
      | 0 => ∀ j, acts s f j → on j
      | 1 => ∃ j, acts s f j ∧ on j
      | _ => (∀ j, acts s f j → on j) ∨ ∀ j, acts s f j → ¬on j
    (test → b.reg f.d.toNat = 1) ∧ (¬test → b.reg f.d.toNat = 0)) ∧
  GivesEachBit (.matchLanes f) f (fun s _ a j => acts s f j ∧
    if f.form = .pair then (s.curCrew.fibre j).pair f.a.toNat = a.pair f.a.toNat
    else (s.curCrew.fibre j).reg f.a.toNat = a.reg f.a.toNat) ∧
  (Gives (.lred f) f [f.d.toNat] fun s k _ b => b.reg f.d.toNat =
    ((s.acting f).filter fun j => (s.segment f k).contains j).foldl
      (fun x j => laneOp (f.mb 0 3) x ((s.curCrew.fibre j).reg f.a.toNat)) (laneIdentity (f.mb 0 3))) ∧
  (Gives (.lscan f) f [f.d.toNat] fun s k _ b => b.reg f.d.toNat =
    ((s.acting f).filter fun j => (s.segment f k).contains j && (decide (j < k) || (f.mbit 3 && j == k))).foldl
      (fun x j => laneOp (f.mb 0 3) x ((s.curCrew.fibre j).reg f.a.toNat)) (laneIdentity (f.mb 0 3))) ∧
  (f.mbit 9 = false → ∀ (s : State) (k : Nat), s.segment f k = s.acting f) ∧
  GivesEachBit (.strandm f) f (fun s _ _ j => match f.mb 0 2 with
    | 0 => s.cur.mask.getLsbD j = true
    | 1 => acts s f j
    | _ => (s.curCrew.fibre j).st ≠ .free)

/-- Group 0x05 (R140 to R144): moves, selection on a predicate read before the write, system values, the cycle counter. -/
def Sys2Proof.Claims.MovesAndSystemValues : Prop := ∀ f : Fields,
  GivesBits (.mov f) f (fun a _ => a) (fun a _ => a) ∧
  (Gives (.movi f) f (if f.mb 0 2 = 0 then [f.d.toNat] else [f.d.toNat, f.d.toNat + 1]) fun _ _ _ b =>
    match f.mb 0 2 with
    | 0 => b.reg f.d.toNat = f.x
    | 1 => (b.pair f.d.toNat).toInt = f.x.toInt
    | _ => (b.pair f.d.toNat).toNat = f.x.toNat) ∧
  (Gives (.sel f) f (pairDests f) fun _ _ a b =>
    let t := (a.reg 0).getLsbD (f.mb 0 5) ^^ f.mbit 5
    if f.form = .pair then b.pair f.d.toNat = (if t then a.pair f.a.toNat else a.pair f.b.toNat)
    else b.reg f.d.toNat = (if t then a.reg f.a.toNat else bitsB f a)) ∧
  (Gives (.get f) f (if 0x20 ≤ f.xv then [f.d.toNat, f.d.toNat + 1] else [f.d.toNat]) fun s k _ b =>
    (0x20 ≤ f.xv → b.pair f.d.toNat = s.systemValue f.xv k) ∧ (f.xv < 0x20 → b.reg f.d.toNat = (s.systemValue f.xv k).setWidth 32)) ∧
  (Gives (.clk f) f [f.d.toNat, f.d.toNat + 1] fun s _ _ b => b.pair f.d.toNat = (s.core s.curBlock.core).clk)

/-- SETMODE and GETMODE (R142, R143, R161): with one acting fibre the masked bits of the mode register are replaced, reserved bits and
an illegal rounding mode read back as 0; GETMODE reads the register once no earlier result is owed, and stalls until then. -/
def Sys2Proof.Claims.ModeRegister : Prop := ∀ f : Fields,
  (∀ s k, executing s = true → s.curCrew.tr = none → s.acting f = [k] → ∃ t, exec (.setmode f) s = .next t ∧ OnlyCrew s t ∧
    FibresMoved s t f [] ∧
    ({ t.curCrew with fibres := s.curCrew.fibres, mode := s.curCrew.mode, pend := s.curCrew.pend } : Crew) = s.curCrew ∧
    t.curCrew.pend.map (·.id) = s.curCrew.pend.map (·.id) ∧
    let a := s.curCrew.fibre k
    let m := (s.curCrew.mode &&& ~~~bitsB f a) ||| (a.reg f.a.toNat &&& bitsB f a)
    (∀ j, 3 ≤ j → j < 16 → t.curCrew.mode.getLsbD j = m.getLsbD j) ∧ (∀ j, 16 ≤ j → t.curCrew.mode.getLsbD j = false) ∧
    (t.curCrew.mode.extractLsb' 0 3).toNat = if (m.extractLsb' 0 3).toNat < 6 then (m.extractLsb' 0 3).toNat else 0) ∧
  (∀ s, executing s = true → s.curCrew.pend.any (·.replay) = false → ∃ t, exec (.getmode f) s = .next t ∧ RegisterFrame s t f [f.d.toNat] ∧
    ∀ k, acts s f k → (t.curCrew.fibre k).reg f.d.toNat = s.curCrew.mode) ∧
  ∀ s, executing s = true → s.curCrew.pend.any (·.replay) = true →
    ∃ t, exec (.getmode f) s = .next t ∧ OnlyCrew s t ∧ t.curCrew = { s.curCrew with stallClass := 6 }

/-- Group 0x05 whole (R140 to R144, R161). -/
def Obligations.MovesAndModes : Prop := MovesAndSystemValues ∧ ModeRegister

/-! ### Floating point (08_numbers_and_float) -/

/-- Group 0x06 but for its L forms, and FCMP (R130, R164, R168 to R174): each acting fibre's result is the operation on its operands as
read, and an enabled exception traps before anything is written. -/
def Obligations.FloatArithmetic : Prop := ∀ f : Fields,
  GivesFloat1 (.fadd f) f (fun s a => (s.fenv f).add 8 f.sat ((s.fenv f).read 8 (floatA f a)) ((s.fenv f).read 8 (floatB f a))) ∧
  GivesFloat1 (.fsub f) f (fun s a => (s.fenv f).add 8 f.sat ((s.fenv f).read 8 (floatA f a)) ((s.fenv f).read 8 (floatB f a)).negate) ∧
  GivesFloat1 (.fmul f) f (fun s a => (s.fenv f).mul 8 f.sat ((s.fenv f).read 8 (floatA f a)) ((s.fenv f).read 8 (floatB f a))) ∧
  GivesFloat1 (.ffma f) f (fun s a => (s.fenv f).fma 8 f.sat ((s.fenv f).read 8 (floatA f a))
    ((s.fenv f).read 8 (a.reg f.b.toNat).toNat) ((s.fenv f).read 8 (floatC f a))) ∧
  GivesFloat1 (.fmin f) f (fun s a => (s.fenv f).minmax 8 false (f.sub == 1) (floatA f a) (floatB f a)) ∧
  GivesFloat1 (.fmax f) f (fun s a => (s.fenv f).minmax 8 true (f.sub == 1) (floatA f a) (floatB f a)) ∧
  GivesFloat1 (.fscale f) f (fun s a => (s.fenv f).scale f.sat ((s.fenv f).read 8 (floatA f a)) (bitsB f a).toInt) ∧
  GivesFloat1 (.frnd f) f (fun s a => (s.fenv f).integral (f.sub == 1) ((s.fenv f).read 8 (floatA f a))) ∧
  (Gives (.fclass f) f [f.d.toNat] fun _ _ a b => b.reg f.d.toNat = classOf (a.reg f.a.toNat).toNat) ∧
  GivesFloat (.fcmp f) f [0] (fun s _ a =>
    let r := floatCompare f.sub ((s.fenv f).read f.ty (floatA f a)) ((s.fenv f).read f.ty (floatB f a))
    ([(0, setBitTo (a.reg 0) (f.d.toNat % 32) r.1)], r.2))

/-- Group 0x07 (R175 to R177): packed forms act on each 16-bit lane as the scalar form would and raise the union of both lanes. -/
def Obligations.PackedFloats : Prop := ∀ f : Fields,
  let packed (i : Instr) (g : FEnv → Nat → Nat → Nat → FRes) : Prop := GivesFloat i f [f.d.toNat] fun s _ a =>
    let r0 := g (s.fenv f) (half (a.reg f.a.toNat) 0) (half (bitsB f a) 0) (half (bitsC f a) 0)
    let r1 := g (s.fenv f) (half (a.reg f.a.toNat) 1) (half (bitsB f a) 1) (half (bitsC f a) 1)
    ([(f.d.toNat, BitVec.ofNat 32 (r0.bits + r1.bits * 2 ^ 16))], r0.exc ||| r1.exc)
  packed (.hadd2 f) (fun v a b _ => v.add f.ty f.sat (v.read f.ty a) (if f.sub == 1 then (v.read f.ty b).negate else v.read f.ty b)) ∧
  packed (.hmul2 f) (fun v a b _ => v.mul f.ty f.sat (v.read f.ty a) (v.read f.ty b)) ∧
  packed (.hfma2 f) (fun v a b c => v.fma f.ty f.sat (v.read f.ty a) (v.read f.ty b) (v.read f.ty c)) ∧
  packed (.hmnx2 f) (fun v a b _ => v.minmax f.ty (f.sub % 2 == 1) (f.sub / 2 % 2 == 1) a b) ∧
  GivesFloat1 (.dot4 f) f (fun s a =>
    let lane (n : BitVec 8) (t k : Nat) : FVal := decodeF t (field (a.reg n.toNat) (8 * k) 8)
    (s.fenv f).dot f.sat ((List.range 4).map fun k => (lane f.a f.ty k, lane f.b (if f.sub == 0 then f.ty else f.sub) k))
      ((s.fenv f).read 8 (a.reg f.c.toNat).toNat)) ∧
  Gives (.idot4 f) f [f.d.toNat] fun _ _ a b =>
    let tb := if f.sub % 2 = 0 then f.ty else 13 - f.ty
    let lane (n : BitVec 8) (t k : Nat) : Int := intOf t (((a.reg n.toNat).extractLsb' (8 * k) 8).setWidth 64)
    let tr := if f.ty = 7 ∧ tb = 7 then 1 else 0
    fits tr f.sat (lane f.a f.ty 0 * lane f.b tb 0 + lane f.a f.ty 1 * lane f.b tb 1 + lane f.a f.ty 2 * lane f.b tb 2 +
      lane f.a f.ty 3 * lane f.b tb 3 + a.int tr f.c.toNat) (b.int tr f.d.toNat)

/-- The L forms of group 0x06 and group 0x08 (R93, R171, R178): they issue with the results of the operands at issue. -/
def Obligations.LongFloats : Prop := ∀ f : Fields,
  let later (i : Instr) (g : FEnv → Word → Word → FRes) : Prop := GivesLater i f fun s a =>
    ([(f.d.toNat, BitVec.ofNat 32 (g (s.fenv f) (a.reg f.a.toNat) (bitsB f a)).bits)], (g (s.fenv f) (a.reg f.a.toNat) (bitsB f a)).exc)
  later (.fdiv f) (fun v a b => v.div 8 f.sat (v.read 8 a.toNat) (v.read 8 b.toNat)) ∧
  later (.fsqrt f) (fun v a _ => v.sqrt 8 f.sat (v.read 8 a.toNat)) ∧
  later (.frcp f) (fun v a _ => v.div 8 f.sat (.fin false 1 0) (v.read 8 a.toNat)) ∧
  later (.frsq f) (fun v a _ => v.rsqrt f.sat a) ∧
  later (.fexp2 f) (fun v a _ => v.exp2 a) ∧ later (.flog2 f) (fun v a _ => v.log2 a) ∧
  later (.fsin f) (fun v a _ => v.trig false a) ∧ later (.fcos f) (fun v a _ => v.trig true a) ∧ later (.ftanh f) (fun v a _ => v.tanh a)

/-- Group 0x09 (R181 to R188): conversions, packing and MX quantisation. -/
def Obligations.Conversions : Prop := ∀ f : Fields,
  GivesFloat1 (.cvtff f) f (fun s a => (s.fenv f).convert f.ty f.sat ((s.fenv f).read f.sub (floatBits f.sub (a.reg f.a.toNat)))) ∧
  GivesFloat (.cvtfi f) f (intDests f) (fun s _ a =>
    let r := (s.fenv f).toInt f.ty ((s.fenv f).read f.sub (floatBits f.sub (a.reg f.a.toNat)))
    (intResult f.ty f.d.toNat (intFit f.ty false r.1), r.2)) ∧
  GivesFloat1 (.cvtif f) f (fun s a => (s.fenv f).fromInt f.ty f.sat (a.int f.sub f.a.toNat)) ∧
  (Gives (.cvtii f) f (intDests f) fun _ _ a b => fits f.ty f.sat (a.int f.sub f.a.toNat) (b.int f.ty f.d.toNat) ∧
    (intWidth f.ty < 64 → if intSigned f.ty then (b.reg f.d.toNat).toInt = b.int f.ty f.d.toNat
      else ((b.reg f.d.toNat).toNat : Int) = b.int f.ty f.d.toNat)) ∧
  GivesFloat1 (.unpack f) f (fun s a =>
    let v : FEnv := { s.fenv f with ftz := false }
    let four := 8 ≤ f.sub
    let b := field (a.reg f.a.toNat) (laneWidth f.ty four * (f.sub % 8)) (elemWidth f.ty four)
    if 8 ≤ f.ty then v.convert 8 false (v.read f.ty b)
    else ⟨(if intSigned f.ty = true ∧ 2 ^ (elemWidth f.ty four - 1) ≤ b then 2 ^ 32 - 2 ^ elemWidth f.ty four + b else b), 0⟩) ∧
  GivesFloat (.pack f) f [f.d.toNat] (fun s _ a =>
    let lw := laneWidth f.ty (8 ≤ f.sub)
    let r : FRes := if 8 ≤ f.ty then (s.fenv f).convert f.ty f.sat ((s.fenv f).read 8 (a.reg f.a.toNat).toNat)
      else ⟨elemInt (intSigned f.ty) f.sat lw (a.int (f.ty % 2) f.a.toNat), 0⟩
    ([(f.d.toNat, packLane (a.reg f.b.toNat) lw (f.sub % 8) r.bits)], r.exc)) ∧
  GivesFloat (.mxq f) f [f.d.toNat] (fun s _ a =>
    let scale := mxScale f.ty ((s.acting f).map fun i => (s.fenv f).read 8 ((s.curCrew.fibre i).reg f.a.toNat).toNat)
    let r := (s.fenv f).mxElement f.ty scale ((s.fenv f).read 8 (a.reg f.a.toNat).toNat)
    ([(f.d.toNat, BitVec.ofNat 32 (scale * 256 + r.bits))], r.exc)) ∧
  GivesFloat1 (.mxdq f) f (fun s a => (s.fenv f).mxValue f.ty f.sat (a.reg f.a.toNat))

/-- Finite operands (R152, R156, R157, R163, R168, R171, R181): a sum, a product, a fused sum, a quotient, a square root and a conversion are the exact
result, at whatever exponent it is written, rounded once and then flushed; an exact sum of zero is +0, or -0 for two of that sign and
otherwise under RDN. A quotient or root with a remainder is rounded from 80 bits or more of it, with the remainder known not to be zero. -/
def Sys2Proof.Claims.FiniteResults : Prop := ∀ (v : FEnv) (t : Nat) (sat s s' : Bool) (m m' : Nat) (e e' : Int), 8 ≤ t → t ≤ 15 →
  let rounded (n : Bool) (x : Nat) (y : Int) (more : Bool) : FRes := v.flush t (roundF t v.rm sat n x y more)
  let signed (n : Bool) (x : Nat) (y y0 : Int) : Int := (if n then -1 else 1) * ((x * 2 ^ (y - y0).toNat : Nat) : Int)
  (∀ e0, e0 ≤ e → e0 ≤ e' → let i := signed s m e e0 + signed s' m' e' e0
    v.add t sat (.fin s m e) (.fin s' m' e') =
      if i = 0 then ⟨packF t (if m = 0 ∧ m' = 0 ∧ s = s' then s else v.rm == 4) 0 0, 0⟩ else rounded (i < 0) i.natAbs e0 false) ∧
  (∀ k : Nat, v.mul t sat (.fin s m e) (.fin s' m' e') = rounded (s ^^ s') (m * m' * 2 ^ k) (e + e' - k) false) ∧
  (∀ (n : Bool) (x : Nat) (y e0 : Int), e0 ≤ e + e' → e0 ≤ y → let i := signed (s ^^ s') (m * m') (e + e') e0 + signed n x y e0
    i ≠ 0 → v.fma t sat (.fin s m e) (.fin s' m' e') (.fin n x y) = rounded (i < 0) i.natAbs e0 false) ∧
  (∀ k : Nat, m' ≠ 0 → m < 2 ^ 24 → m' < 2 ^ 24 → 80 ≤ k →
    v.div t sat (.fin s m e) (.fin s' m' e') = rounded (s ^^ s') (m * 2 ^ k / m') (e - e' - k) (m * 2 ^ k % m' != 0)) ∧
  (∀ k r : Nat, m ≠ 0 → m < 2 ^ 24 → 80 ≤ k → (e - k) % 2 = 0 → r * r ≤ m * 2 ^ k → m * 2 ^ k < (r + 1) * (r + 1) →
    v.sqrt t sat (.fin false m e) = rounded false r ((e - k) / 2) (r * r != m * 2 ^ k)) ∧
  ∀ k : Nat, v.convert t sat (.fin s m e) = rounded s (m * 2 ^ k) (e - k) false

/-- The special cases that R158, R159, R162, R165 and R168 to R174 name, for F32 in every environment. -/
def Sys2Proof.Claims.SpecialCases : Prop := ∀ (v : FEnv) (sat : Bool),
  (∀ s, v.add 8 sat (.inf s) (.inf (!s)) = ⟨0x7FC00000, excInvalid⟩) ∧
  (∀ s n e, v.mul 8 sat (.inf s) (.fin n 0 e) = ⟨0x7FC00000, excInvalid⟩ ∧ v.mul 8 sat (.fin n 0 e) (.inf s) = ⟨0x7FC00000, excInvalid⟩) ∧
  (∀ s m e s' e', m ≠ 0 → v.div 8 sat (.fin s m e) (.fin s' 0 e') = ⟨if sat then maxF 8 (s ^^ s') else infF 8 (s ^^ s'), excDivZero⟩) ∧
  (∀ s e s' e', v.div 8 sat (.fin s 0 e) (.fin s' 0 e') = ⟨0x7FC00000, excInvalid⟩) ∧
  (∀ s s', v.div 8 sat (.inf s) (.inf s') = ⟨0x7FC00000, excInvalid⟩) ∧
  (∀ e, v.sqrt 8 sat (.fin true 0 e) = ⟨0x80000000, 0⟩) ∧
  (∀ m e, m ≠ 0 → v.sqrt 8 sat (.fin true m e) = ⟨0x7FC00000, excInvalid⟩) ∧ v.sqrt 8 sat (.inf true) = ⟨0x7FC00000, excInvalid⟩ ∧
  (v.rsqrt false 0x00000000 = ⟨0x7F800000, excDivZero⟩ ∧ v.rsqrt false 0x80000000 = ⟨0xFF800000, excDivZero⟩ ∧
    v.rsqrt false 0x7F800000 = ⟨0, 0⟩) ∧
  (v.exp2 0xFF800000 = ⟨0, 0⟩ ∧ v.exp2 0x7F800000 = ⟨0x7F800000, 0⟩ ∧ v.exp2 0 = ⟨0x3F800000, 0⟩ ∧ v.exp2 0x80000000 = ⟨0x3F800000, 0⟩) ∧
  (v.log2 0xFF800000 = ⟨0x7FC00000, excInvalid⟩ ∧ v.log2 0x7F800000 = ⟨0x7F800000, 0⟩ ∧ v.log2 0 = ⟨0xFF800000, excDivZero⟩ ∧
    v.log2 0x3F800000 = ⟨0, 0⟩) ∧
  (∀ c s : Bool, v.trig c (if s then 0xFF800000 else 0x7F800000) = ⟨0x7FC00000, excInvalid⟩) ∧
  (v.trig true 0 = ⟨0x3F800000, 0⟩ ∧ v.trig false 0x80000000 = ⟨0x80000000, 0⟩) ∧
  (v.tanh 0xFF800000 = ⟨0xBF800000, 0⟩ ∧ v.tanh 0x7F800000 = ⟨0x3F800000, 0⟩) ∧
  (v.daz = false → v.minmax 8 false false 0x80000000 0 = ⟨0x80000000, 0⟩ ∧ v.minmax 8 true false 0x80000000 0 = ⟨0, 0⟩ ∧
    ∀ b, b < 2 ^ 32 → (decodeF 8 b).isNan = false → v.minmax 8 false false 0x7FC00000 b = ⟨b, 0⟩) ∧
  (v.nanp = false → ∀ t x, v.nanOf t x = canonF t) ∧
  (∀ sub a b, (a.isNan || b.isNan) = true → (floatCompare sub a b).1 = (sub == 1 || sub == 7)) ∧
  ∀ sub a b, (2 ≤ sub ∧ sub ≤ 5) → (a.isNan || b.isNan) = true → (floatCompare sub a b).2 = excInvalid

/-- What float operations give on special operands, and on finite ones (R152, R156 to R159, R162, R163, R165, R168 to R174, R181). -/
def Obligations.FloatSpecialCases : Prop := SpecialCases ∧ FiniteResults

/-- Rounding is right where it has nothing to do (R152, R157): a finite value of any format of R151 rounds to its own encoding, under
every mode, with no exception. -/
def Obligations.RoundingKeepsValues : Prop := ∀ (t rm : Nat) (sat : Bool) (b : Nat), 8 ≤ t → t ≤ 15 → b < 2 ^ fmtW t →
  ∀ s m e, decodeF t b = .fin s m e → roundF t rm sat s m e = ⟨b, 0⟩

/-- Directed rounding brackets (R157): below the overflow threshold RTZ gives the encoding of the greatest value of the format not above
the exact magnitude, which lies below the next value if there is one; the result under any mode is that one or its successor, and inexact is
raised exactly when the two sides differ. -/
def Sys2Proof.Claims.Brackets : Prop := ∀ (t rm : Nat) (sat s : Bool) (m : Nat) (e : Int), 8 ≤ t → t ≤ 15 → m ≠ 0 →
  (roundF t rm sat s m e).exc &&& excOverflow = 0 →
  ∃ m' e', decodeF t (roundF t 2 false s m e).bits = .fin s m' e' ∧ cmpF (.fin false m' e') (.fin false m e) ≤ 0 ∧
    ((roundF t rm sat s m e).bits = (roundF t 2 false s m e).bits ∨ (roundF t rm sat s m e).bits = (roundF t 2 false s m e).bits + 1) ∧
    ((roundF t rm sat s m e).exc &&& excInexact ≠ 0 ↔ cmpF (.fin false m' e') (.fin false m e) ≠ 0) ∧
    ((roundF t 2 false s m e).bits ≠ maxF t s → ∃ m'' e'', decodeF t ((roundF t 2 false s m e).bits + 1) = .fin s m'' e'' ∧
      cmpF (.fin false m e) (.fin false m'' e'') < 0)

/-- A magnitude known to lie strictly inside the unit above `m` rounds as one a quarter of the unit above it: where `m` has a bit to spare, no mode
tells them apart (R157). -/
def Sys2Proof.Claims.StickyRounding : Prop := ∀ (t rm : Nat) (sat s : Bool) (m : Nat) (e : Int), 8 ≤ t → t ≤ 15 → 2 ^ (fmtM t + 1) ≤ m →
  roundF t rm sat s m e true = roundF t rm sat s (4 * m + 1) (e - 2)

/-- Rounding (R157): the result under every mode is one of the two neighbours of the exact value. -/
def Obligations.RoundingBrackets : Prop := Claims.Brackets ∧ StickyRounding

/-! ### Control, fibres and issue (06_fibres_and_issue, 07_integer_and_control) -/

/-- Group 0x0A (R94, R145 to R148): each acting fibre goes to its own target, modulo 2^32; CALL links PC + 1, LOOP counts down. -/
def Sys2Proof.Claims.ControlTransfers : Prop := ∀ (f : Fields) (s : State), executing s = true →
  Transfers (.bra f) f s [] (fun a => if f.form = .ri then s.cur.pc + f.x else a.reg f.a.toNat) (fun _ _ => True) ∧
  Transfers (.brb f) f s [] (fun a => if ((a.reg f.a.toNat).getLsbD (f.mb 0 5) ^^ f.mbit 5) = true then s.cur.pc + f.x else a.pc + 1)
    (fun _ _ => True) ∧
  ((∀ k, acts s f k → ((s.curCrew.fibre k).reg f.a.toNat).toNat < f.mdv) →
    Transfers (.brx f) f s [] (fun a => s.cur.pc + f.x + a.reg f.a.toNat) (fun _ _ => True)) ∧
  Transfers (.call f) f s [1] (fun a => if f.form = .ri then s.cur.pc + f.x else a.reg f.a.toNat) (fun _ b => b.reg 1 = s.cur.pc + 1) ∧
  Transfers (.ret f) f s [] (fun a => a.reg f.a.toNat) (fun _ _ => True) ∧
  Transfers (.loop f) f s [f.d.toNat] (fun a => if a.reg f.d.toNat - 1 ≠ 0 then s.cur.pc + f.x else a.pc + 1)
    (fun a b => b.reg f.d.toNat = a.reg f.d.toNat - 1) ∧
  ∃ t, exec (.nop f) s = .next t ∧ RegisterFrame s t f []

/-- BRX with an index out of range (R147): the strand raises JUMP_RANGE for the lowest slot at fault, with its index. -/
def Sys2Proof.Claims.JumpRange : Prop := ∀ (f : Fields) (s : State) (k : Nat), acts s f k →
  f.mdv ≤ ((s.curCrew.fibre k).reg f.a.toNat).toNat →
  (∀ j, acts s f j → f.mdv ≤ ((s.curCrew.fibre j).reg f.a.toNat).toNat → k ≤ j) →
  exec (.brx f) s = s.raise f (some k) { cause := causeJumpRange, arg0 := ((s.curCrew.fibre k).reg f.a.toNat).setWidth 64 }

/-- Group 0x0A whole, with its one trap (R94, R145 to R148). -/
def Obligations.Control : Prop := ControlTransfers ∧ JumpRange

/-- SPAWN (R114): in ascending slot order each acting fibre starts the slots it names that are still free; a started fibre has the
spawner's v0, the spawner's slot in v1, and its other registers as they were; D receives the mask of the slots started. -/
def Sys2Proof.Claims.Spawn : Prop := ∀ (f : Fields) (s : State), executing s = true → untried s f →
  (∀ k, k < 32 → s.cur.mask.getLsbD k = true → (s.curCrew.fibre k).st ≠ .free) →
  let old (k : Nat) : Fibre := s.curCrew.fibre k
  let starts (i k : Nat) : Prop := acts s f i ∧ k < 32 ∧ (old k).st = .free ∧ ((old i).reg f.a.toNat).getLsbD k = true ∧
    ∀ j, acts s f j → ((old j).reg f.a.toNat).getLsbD k = true → i ≤ j
  ∃ t, exec (.spawn f) s = .next t ∧ OnlyFibres s t ∧
    (∀ i k, starts i k → (t.curCrew.fibre k).st = .runnable ∧
      (t.curCrew.fibre k).pc = (if f.form = .ri then s.cur.pc + f.x else (old i).reg f.b.toNat) ∧
      (t.curCrew.fibre k).reg 0 = (old i).reg 0 ∧ (t.curCrew.fibre k).reg 1 = BitVec.ofNat 32 i ∧
      ∀ r, 2 ≤ r → (t.curCrew.fibre k).reg r = (old k).reg r) ∧
    (∀ i, acts s f i → ∀ k, k < 32 → (((t.curCrew.fibre i).reg f.d.toNat).getLsbD k = true ↔ starts i k)) ∧
    (∀ k, k < 32 → s.cur.mask.getLsbD k = true → movedOn (old k) (t.curCrew.fibre k) ∧
      ∀ r, ¬(acts s f k ∧ r = f.d.toNat) → (t.curCrew.fibre k).reg r = (old k).reg r) ∧
    ∀ k, k < 32 → s.cur.mask.getLsbD k = false → (∀ i, ¬starts i k) → t.curCrew.fibre k = old k

/-- FEND (R115): it waits for the results the acting fibres are owed; then these fibres are free and the others of the strand go on.
Said for a crew in which no fibre waits at CONVERGE. -/
def Sys2Proof.Claims.FibreEnd : Prop := ∀ (f : Fields) (s : State), executing s = true → untried s f →
  (∀ p, s.curCrew.pend.find? (fun p => p.mask &&& s.actMask f != 0) = some p →
    exec (.fend f) s = .next (s.updCur fun c => { c with stallClass := p.stallClass })) ∧
  ((∀ p ∈ s.curCrew.pend, p.mask &&& s.actMask f = 0) →
    (∀ k, k < 32 → (s.curCrew.fibre k).st = .waiting → ∀ m, (s.curCrew.fibre k).wait ≠ .conv m) →
    (∀ k, k < 32 → s.cur.mask.getLsbD k = true → (s.curCrew.fibre k).st = .runnable) →
    ∃ t, exec (.fend f) s = .next t ∧ OnlyCrew s t ∧
      (∀ k, acts s f k → (t.curCrew.fibre k).st = .free ∧ (t.curCrew.fibre k).regs = (s.curCrew.fibre k).regs) ∧
      (∀ k, k < 32 → s.cur.mask.getLsbD k = true → ¬acts s f k → movedOn (s.curCrew.fibre k) (t.curCrew.fibre k)) ∧
      (∀ k, k < 32 → s.cur.mask.getLsbD k = false → t.curCrew.fibre k = s.curCrew.fibre k) ∧
      t.curCrew.mode = s.curCrew.mode ∧ t.curCrew.pend = s.curCrew.pend)

/-- CONVERGE (R116): a strand that is the whole crew and that the mask names goes on at once; while some named live fibre has not
arrived, the named fibres wait at their PC and the others go on. -/
def Sys2Proof.Claims.Converge : Prop := ∀ (f : Fields) (s : State), executing s = true → untried s f →
  (∀ k, k < 32 → s.cur.mask.getLsbD k = true → (s.curCrew.fibre k).st = .runnable ∧ (s.curCrew.fibre k).pc = s.cur.pc) →
  ((∀ k, k < 32 → (s.curCrew.fibre k).st ≠ .free → s.cur.mask.getLsbD k = true) → (∀ k, s.cur.mask.getLsbD k = true → f.x.getLsbD k = true) →
    ∃ t, exec (.converge f) s = .next t ∧ OnlyCrew s t ∧ ∀ k, k < 32 → (t.curCrew.fibre k).regs = (s.curCrew.fibre k).regs ∧
      (t.curCrew.fibre k).st = (s.curCrew.fibre k).st ∧
      (t.curCrew.fibre k).pc = if s.cur.mask.getLsbD k then s.cur.pc + 1 else (s.curCrew.fibre k).pc) ∧
  (∀ j, j < 32 → f.x.getLsbD j = true → s.cur.mask.getLsbD j = false → (s.curCrew.fibre j).st ≠ .free → (s.curCrew.fibre j).st ≠ .waiting →
    ∃ t, exec (.converge f) s = .next t ∧ OnlyCrew s t ∧ ∀ k, k < 32 → s.cur.mask.getLsbD k = true →
      (t.curCrew.fibre k).regs = (s.curCrew.fibre k).regs ∧
      if f.x.getLsbD k then (t.curCrew.fibre k).st = .waiting ∧ (t.curCrew.fibre k).wait = .conv f.x ∧ (t.curCrew.fibre k).pc = s.cur.pc
      else (t.curCrew.fibre k).st = .runnable ∧ (t.curCrew.fibre k).pc = s.cur.pc + 1)

/-- SPAWN, FEND and CONVERGE (R112 to R117). -/
def Obligations.Fibres : Prop := Spawn ∧ FibreEnd ∧ Converge

/-- YIELD, PRIO, DBG and PROF (R118, R119, R418, R423, R449, R450): in any state each completes, with its strand gone on; DBG does so where
no fibre acts or DBGEN = 0, and stops its block elsewhere (`Obligations.Dispositions`). When some fibre acts, YIELD ends the crew's credit
and its rotation, PRIO sets the crew's issue level, and PROF's mark, written by the lowest acting fibre, is stored in the context's buffer
or counted as dropped; behind marks that wait for a line it waits with them (R291, R333, log 80). -/
def Obligations.IssueHints : Prop := ∀ (f : Fields) (s : State), executing s = true →
  (∃ t, exec (.yield f) s = .next t ∧ OnlyCrew s t ∧ FibresMoved s t f [] ∧
    ({ t.curCrew with fibres := s.curCrew.fibres } : Crew) = if s.actMask f = 0 then s.curCrew
      else { s.curCrew with credit := 0, rot := 0, rotating := [], yieldAbove := some (s.cur.pc + 1) }) ∧
  (∃ t, exec (.prio f) s = .next t ∧ OnlyCrew s t ∧ FibresMoved s t f [] ∧
    ({ t.curCrew with fibres := s.curCrew.fibres } : Crew) =
      if s.actMask f = 0 then s.curCrew else { s.curCrew with level := field f.x 0 2 }) ∧
  (s.actMask f = 0 ∨ (s.ctx s.curCtx).dbgen = false → ∃ t, exec (.dbg f) s = .next t ∧ RegisterFrame s t f []) ∧
  (s.actMask f = 0 → ∃ t, exec (.prof f) s = .next t ∧ RegisterFrame s t f []) ∧
  ∀ l, (s.acting f).head? = some l → s.curCtx < s.contexts.length → ∃ t, exec (.prof f) s = .next t ∧ (s.curCrew.tr = none → WentOn s t) ∧
    let c := s.ctx s.curCtx
    let at_ := c.pfbase + 64 * (c.pfprod.toNat % 2 ^ c.pflog)
    let waiting := s.profQueue.countP (·.1 == s.curCtx)
    if c.pflog = 0 ∨ 2 ^ c.pflog ≤ (c.pfprod - c.pfcons).toNat + waiting then (t.ctx s.curCtx).pfdrop = c.pfdrop + 1 ∧ t.mem = s.mem
    else if waiting ≠ 0 then t.mem = s.mem ∧ (t.ctx s.curCtx).pfdrop = c.pfdrop ∧ (t.profQueue.map (·.1)) = s.profQueue.map (·.1) ++ [s.curCtx]
    else Local s at_ 64 → (t.ctx s.curCtx).pfprod = c.pfprod + 1 ∧ (t.ctx s.curCtx).pfdrop = c.pfdrop ∧
      ∀ p, s.place at_ = .ok p → p.peer = none → at_ % 65536 + 64 ≤ 65536 → t.bytes p.phys 64 =
        toBytes 64 (profRecord 3 0 s.cur.crew s.curBlock.bx s.curBlock.byy s.curTask.tid s.curTask.rec_.tag s.devTime s.cur.pc
          ((s.curCrew.fibre l).reg f.a.toNat).toNat)

/-! ### Traps, faults and handler mode (19_interruption) -/

/-- Handler entry (R393, R395, R397, R403): any trap or fault that FPOL HANDLER decides takes the strand to HPC with its frame filled
and its record written; TRAP is one, with its code in ARG0 (R418). -/
def Obligations.HandlerEntry : Prop := ∀ (f : Fields) (s : State), Deliverable s →
  (∀ slot e, handlerCase s e → ∃ t, s.raise f slot e = .next t ∧ HandlerEntered s t (located s slot e)) ∧
  ((∃ k, acts s f k) → handlerCase s { cause := causeBkpt } →
    ∃ t, exec (.trap f) s = .next t ∧ HandlerEntered s t (located s none { cause := causeBkpt, arg0 := BitVec.ofNat 64 (f.xv % 256) })) ∧
  (s.actMask f = 0 → ∃ t, exec (.trap f) s = .next t ∧ RegisterFrame s t f [])

/-- The other dispositions of R393: a retry-class fault parks the strand (the model's two causes for an access that is only to be made again,
which no record holds, stall it instead: log 66, log 13); STOP_TASK, STOP_BLOCK and a fault in handler mode terminate
the block, each after its record, TERMINATED with NESTED for the last; STOP_TASK outside handler mode terminates every block of the task, the
others leave the task's other blocks running (R393, R394, R403). -/
def Sys2Proof.Claims.OtherDispositions : Prop := ∀ (f : Fields) (s : State) (slot : Option Nat) (e : Event), Deliverable s →
  (e.cause.toNat < 0x10 → e.cause ≠ causeWait → e.cause ≠ causeTornOnce → ∃ t, s.raise f slot e = .next t ∧
    Recorded s t (located s slot e) (if s.curCrew.frame.isSome then 9 else 1) ∧
    (∀ k, k < 32 → s.cur.mask.getLsbD k = true → (t.curCrew.fibre k).st = .parked ∧ (t.curCrew.fibre k).pc = (s.curCrew.fibre k).pc ∧
      (t.curCrew.fibre k).parkPage = e.arg1.toNat / 65536) ∧
    (∀ k, (t.curCrew.fibre k).regs = (s.curCrew.fibre k).regs) ∧ t.curCrew.pend = s.curCrew.pend) ∧
  (0x10 ≤ e.cause.toNat → e.cause ≠ causeCollTimeout → e.cause ≠ causeDebugStop → (e.cause = causeBkpt → (s.ctx s.curCtx).dbgen = false) →
    s.curBlock.terminated = false → s.curTask.uid = s.curBlock.task → (s.curCrew.frame.isSome = true ∨ s.curTask.rec_.fpol < 2) →
    ∃ t, s.raise f slot e = .next t ∧ t.curBlock.terminated = true ∧ (∀ k, k < 32 → (t.curCrew.fibre k).st = .free) ∧
      t.curCrew.frame = none ∧ t.curCrew.replay = [] ∧ Recorded s t (located s slot e) (if s.curCrew.frame.isSome then 10 else 2) ∧
      (s.curCrew.frame = none ∧ s.curTask.rec_.fpol = 0 → ∀ b ∈ t.blocks, b.task = s.curBlock.task → (t.block b.bid).terminated = true) ∧
      ∀ bid, bid ≠ s.cur.blk → (s.curCrew.frame.isSome = true ∨ s.curTask.rec_.fpol = 1 ∨ (s.block bid).task ≠ s.curBlock.task) →
        (∀ b ∈ s.blocks, b.bid = bid → b = s.block bid) → (t.block bid).terminated = (s.block bid).terminated) ∧
  (e.cause = causeCollTimeout → ∃ t, s.raise f slot e = .next t ∧ Recorded s t (located s slot e) 0 ∧
    ∀ k, (t.curCrew.fibre k).pc = (s.curCrew.fibre k).pc ∧ (t.curCrew.fibre k).st = (s.curCrew.fibre k).st)

/-- DBG (R416 to R418): a NOP while DBGEN = 0; otherwise one record, a dump record, and the block stands stopped at the DBG. -/
def Sys2Proof.Claims.DebugStop : Prop := ∀ (f : Fields) (s : State),
  (executing s = true → (s.actMask f = 0 ∨ (s.ctx s.curCtx).dbgen = false) → ∃ t, exec (.dbg f) s = .next t ∧ RegisterFrame s t f []) ∧
  (Deliverable s → (∃ k, acts s f k) → (s.ctx s.curCtx).dbgen = true → Local s (s.ctx s.curCtx).dumpAt 256 →
    (∀ c ∈ s.curBlock.crews, c.owed = false ∧ c.unsettled = false ∧ c.poisoned = none) → ∃ t, exec (.dbg f) s = .next t ∧ t.curBlock.stopped = true ∧
    (t.ctx s.curCtx).dumpcnt = (s.ctx s.curCtx).dumpcnt + 1 ∧
    ((s.ctx s.curCtx).trlog ≠ 0 → (t.ctx s.curCtx).trprod = (s.ctx s.curCtx).trprod + 1) ∧
    (∀ k, (t.curCrew.fibre k).pc = (s.curCrew.fibre k).pc ∧ (t.curCrew.fibre k).regs = (s.curCrew.fibre k).regs) ∧
    t.curCrew.pend = [] ∧ t.curCrew.replay =
      if s.curCrew.frame.isSome then s.curCrew.replay ++ captured s else captured s ++ s.curCrew.replay)

/-- What a trap does when no handler takes it, and DBG (R393, R416 to R418). -/
def Obligations.Dispositions : Prop := OtherDispositions ∧ DebugStop

/-- TRET (R420): handler mode ends, each fibre of the handler set goes to its frame PC, the next one, or its own vA, and the entries
not dropped stay for re-injection; outside handler mode and for another strand it raises the cause the rule names. -/
def Sys2Proof.Claims.HandlerReturn : Prop := ∀ (f : Fields) (s : State), executing s = true → s.curCrew.tr = none →
  (∀ fr, s.curCrew.frame = some fr → s.cur.mask = fr.set → ∃ t, exec (.tret f) s = .next t ∧ OnlyCrew s t ∧
    t.curCrew.frame = none ∧ t.curCrew.replay = s.curCrew.replay.filter (fun r => !r.dropped) ∧ t.curCrew.mode = s.curCrew.mode ∧
    t.curCrew.pend = s.curCrew.pend ∧
    (∀ k, k < 32 → fr.set.getLsbD k = true → (t.curCrew.fibre k).pc = (match f.mb 0 2 with
      | 0 => (s.curCrew.fibre k).framePc
      | 1 => (s.curCrew.fibre k).framePc + 1
      | _ => (s.curCrew.fibre k).reg f.a.toNat)) ∧
    (∀ k, (t.curCrew.fibre k).regs = (s.curCrew.fibre k).regs ∧ (t.curCrew.fibre k).st = (s.curCrew.fibre k).st) ∧
    ∀ k, k < 32 → fr.set.getLsbD k = false → t.curCrew.fibre k = s.curCrew.fibre k) ∧
  (s.curCrew.frame = none →
    exec (.tret f) s = s.raise f none { cause := causeIllegalOpcode } ∧ exec (.rqread f) s = s.raise f none { cause := causeIllegalOpcode } ∧
    exec (.rqdrop f) s = s.raise f none { cause := causeIllegalOpcode }) ∧
  ∀ fr, s.curCrew.frame = some fr → s.cur.mask ≠ fr.set → exec (.tret f) s = s.raise f none { cause := causeIllegalConvergence }

/-- RQREAD, RQDROP and SYSRD (R421, R422, R424, R425): the items of the replay queue and of the frame as they stand at issue. -/
def Sys2Proof.Claims.HandlerState : Prop := ∀ f : Fields,
  GivesPending (.rqread f) f (fun s => untried s f ∧ s.curCrew.frame.isSome = true) (fun s k a => [(f.d.toNat,
    match s.curCrew.entries[(a.reg f.a.toNat).toNat]? with
    | some r => if (a.reg f.a.toNat).toNat < 16 ∧ r.dropped = false then r.item (f.mb 0 3) k (f.mbit 3) else 0
    | none => 0)]) ∧
  GivesPending (.sysrd f) f (fun _ => True) (fun s k _ => [(f.d.toNat, s.curCrew.sysItem f.xv k)]) ∧
  (∀ (c : Crew) (k : Nat), c.frame = none → ∀ x, x < 0x10 → c.sysItem x k = 0) ∧
  (∀ (c : Crew) (fr : Frame) (k : Nat), c.frame = some fr → c.sysItem 7 k = fr.set ∧ c.sysItem 2 k = fr.slot.setWidth 32 ∧
    c.sysItem 1 k = if fr.set.getLsbD k then (c.fibre k).framePc else 0) ∧
  ∀ s l, executing s = true → untried s f → s.curCrew.frame.isSome = true → (s.acting f).head? = some l →
    (∀ r ∈ s.curCrew.replay, r.handler = false) → ∃ t, exec (.rqdrop f) s = .next t ∧ OnlyCrew s t ∧ FibresMoved s t f [] ∧
      t.curCrew.replay.length = s.curCrew.replay.length ∧
      ∀ n r, s.curCrew.replay[n]? = some r → t.curCrew.replay[n]? =
        some (if f.mbit 0 = true ∨ n = ((s.curCrew.fibre l).reg f.a.toNat).toNat then { r with dropped := true } else r)

/-- TRET and the forms that read the frame and the replay queue (R420 to R425). -/
def Obligations.HandlerMode : Prop := HandlerReturn ∧ HandlerState

/-- What MISUSE is for an instruction of a group (R367): the strand's members abort with it, every member in `.crew` mode; the instruction then acts
for the strand's other fibres, if there are any. -/
def Sys2Proof.Claims.Misused (s : State) (t : Try) (i : Instr) (group : Nat) : Prop :=
  let s' := s.updCur fun c => c.abortTry s.cur.mask (abortWord 9 group)
  (s.cur.mask &&& ~~~t.members = 0 → exec i s = .next s') ∧
  (s.cur.mask &&& ~~~t.members ≠ 0 → exec i s = exec i { s' with cur := { s'.cur with mask := s.cur.mask &&& ~~~t.members } }) ∧
  ∀ k, k < 32 → t.members.getLsbD k = true → (t.crewMode = true ∨ s.cur.mask.getLsbD k = true) →
    (s'.curCrew.fibre k).pc = t.target ∧ (s'.curCrew.fibre k).reg t.code = abortWord 9 group

/-- Instructions that may not stand in a try (R367), with an acting member in the strand: those that never may; LD, LDQ with `.acq` and ST, STQ with
`.rel`; LD, LDQ, ST and STQ of which a member reaches an object with RD = 1; and an LDS of which a member reaches a stash window. -/
def Obligations.TryMisuse : Prop := ∀ (f : Fields) (s : State) (t : Try), executing s = true → s.curCrew.tr = some t →
  s.actMask f &&& t.members ≠ 0 →
  (∀ p ∈ [(Instr.setmode f, 0x05), (.spawn f, 0x0B), (.fend f, 0x0B), (.converge f, 0x0B), (.sts f, 0x0D), (.stash f, 0x0D),
    (.unstash f, 0x0D), (.flushs f, 0x0D), (.rowopen f, 0x0F), (.rowrel f, 0x0F), (.rowld f, 0x0F), (.rowst f, 0x0F), (.rowq f, 0x0F),
    (.fence f, 0x10), (.bar f, 0x10), (.arrive f, 0x10), (.rbar f, 0x10), (.bwait f, 0x10), (.barstat f, 0x10), (.atom f, 0x0E), (.acas f, 0x0E),
    (.acas2 f, 0x0E), (.afadd f, 0x0E), (.atoms f, 0x0E), (.acass f, 0x0E), (.monarm f, 0x11), (.monwait f, 0x11), (.semwait f, 0x11), (.sempost f, 0x11),
    (.wqpush f, 0x11), (.wqnote f, 0x11), (.wqpop f, 0x11), (.tenq f, 0x14), (.tdep f, 0x14), (.svc f, 0x14), (.svcq f, 0x14), (.acp f, 0x13),
    (.tcp f, 0x13), (.gather f, 0x13), (.put f, 0x13), (.pfx f, 0x13), (.wbx f, 0x13), (.waitc f, 0x13), (.mma f, 0x15), (.mmac f, 0x15),
    (.mmas f, 0x15), (.rqt f, 0x15), (.accz f, 0x16), (.accld f, 0x16), (.accst f, 0x16), (.accrow f, 0x16), (.accscl f, 0x16), (.accexp f, 0x16),
    (.skbuild f, 0x17), (.skscore f, 0x17), (.sksel f, 0x17), (.skmap f, 0x17), (.coll f, 0x18), (.collx f, 0x18), (.collq f, 0x18),
    (.tret f, 0x19), (.rqread f, 0x19), (.rqdrop f, 0x19)], Misused s t p.1 p.2) ∧
  (f.mb 10 2 = 1 ∨ s.tryRowDirect (s.wants f) = true → Misused s t (.ld f) 0x0C) ∧
  (f.mb 10 2 = 1 ∨ s.tryRowDirect (s.wantsSpan f) = true → Misused s t (.ldq f) 0x0C) ∧
  (f.mb 10 2 = 2 ∨ s.tryRowDirect (s.wants f) = true → Misused s t (.st f) 0x0C) ∧
  (f.mb 10 2 = 2 ∨ s.tryRowDirect (s.wantsSpan f) = true → Misused s t (.stq f) 0x0C) ∧
  ((∃ (k : Nat) (a : Int), (k, a) ∈ s.scrWants f ∧ t.members.getLsbD k = true ∧ 0 ≤ a ∧ s.curBlock.windowAt a.toNat ≠ none) → Misused s t (.lds f) 0x0D)

/-! ### Memory access (09_memory_access) -/

/-- Reading and writing bytes (R315): what was written reads back, every other byte reads as before, and the store of memory keeps its
canonical form (the model's own). -/
def Obligations.MemoryBytes : Prop := ∀ (s : State) (a : Nat) (l : List Byte),
  (s.setBytes a l).bytes a l.length = l ∧
  (∀ b, ¬(a ≤ b ∧ b < a + l.length) → (s.setBytes a l).byte b = s.byte b) ∧
  (Memory.wf s.mem = true → Memory.wf (s.setBytes a l).mem = true) ∧
  ∀ m m', Memory.wf m = true → Memory.wf m' = true → (∀ b, Sparse.get memDefault m b = Sparse.get memDefault m' b) → m = m'

/-- What a granted access has passed (R189, R191): the entry is valid and of the task's tenant and the reference's generation, the range
lies in the object, the kind and the rights asked for are there, the offset is aligned, and a page maps it. -/
def Sys2Proof.Claims.GrantedAccess : Prop := ∀ (s : State) (core ctx : Nat) (tenant : BitVec 16) (ref : DWord) (o : Int) (n : Nat) (q : Req)
  (acc : Access) (a : Acc), s.check core ctx tenant ref o n q acc = .ok a →
  Ent.invalid a.ent = false ∧ Ent.tenant a.ent = tenant ∧ Ent.gen a.ent = refGen ref ∧ q.kinds.contains (Ent.kind a.ent) = true ∧
  (q.bounds = true → 0 ≤ o ∧ o + n ≤ Ent.len a.ent) ∧
  (q.r = true → a.ent.getLsbD 3 = true) ∧ (q.w = true → a.ent.getLsbD 4 = true) ∧ (q.x = true → a.ent.getLsbD 5 = true) ∧
  (q.atomic = true → a.ent.getLsbD 6 = true) ∧ (q.engine = true → a.ent.getLsbD 7 = true) ∧
  o.toNat % q.align = 0 ∧ (q.poison = true → Ent.poison a.ent = false) ∧ s.place a.ia = .ok a.place ∧
  (acc = .load → a.place.peer = none ∧ s.poisonedAt a.place.phys n = false) ∧ (a.place.peer.isSome = true → acc = .store)

/-- The first check that fails names the cause (R189): each of checks 2 to 8, the earlier ones passed. -/
def Sys2Proof.Claims.CheckOrder : Prop := ∀ (s : State) (core ctx : Nat) (tenant : BitVec 16) (ref : DWord) (o : Int) (n : Nat) (q : Req)
  (e : BitVec 512), s.entry core ctx ref o = .ok e →
  let fault (c : BitVec 8) : Prop := s.checkHandle core ctx tenant ref o n q = .error (memFault c ref o)
  let inside : Prop := q.bounds = true → 0 ≤ o ∧ o + n ≤ Ent.len e ∧ o < 2 ^ 40
  (Ent.invalid e = true → fault causeGeneration) ∧
  (Ent.invalid e = false → (Ent.tenant e ≠ tenant → fault causeTenant) ∧
    (Ent.tenant e = tenant → (Ent.gen e ≠ refGen ref → fault causeGeneration) ∧
      (Ent.gen e = refGen ref → (¬inside → fault causeBounds) ∧
        (inside → (q.allowed e = false → fault causeRights) ∧
          (q.allowed e = true → (o.toNat % q.align ≠ 0 → fault causeAlign) ∧
            (o.toNat % q.align = 0 → seqToken e o.toNat n = true → q.poison = true → Ent.poison e = true → fault causePoison)))))) 

/-- The checks of one access, from both sides: what a grant has passed, and which cause a failure names (R189, R191). -/
def Obligations.AccessChecks : Prop := GrantedAccess ∧ CheckOrder

/-- LD, LDQ, ROWLD (R206 to R208, R248): offsets from the register, the scaled index and the immediate, or the span of LDQ. -/
def Obligations.LoadForms : Prop := ∀ f : Fields,
  Loads (.ld f) f (f.mb 10 2 == 1) (fun s => (s.acting f).map fun k => ⟨k, (s.curCrew.fibre k).pair f.a.toNat,
    refOff ((s.curCrew.fibre k).pair f.a.toNat) + indexOf f (s.curCrew.fibre k) + f.x.toInt⟩) ∧
  Loads (.ldq f) f (f.mb 10 2 == 1) (fun s => s.wantsSpan f) ∧
  ∀ s, executing s = true → s.curCrew.tr = none →
    let ws := (s.acting f).map fun k => (⟨k, (s.curCrew.fibre k).pair f.a.toNat, refOff ((s.curCrew.fibre k).pair f.a.toNat) + f.x.toInt⟩ : Want)
    let n := sizeBytes f.size
    (∀ as, s.checkWants ws n (Req.load n) .load = .ok as → s.cur.stale = false → ∃ t p, exec (.rowld f) s = .next t ∧ WentOn s t ∧
      t.mem = s.mem ∧ t.curCrew.pend = s.curCrew.pend ++ [p] ∧ p.replay = false ∧
      p.writes = as.map fun x => (x.1.slot, loadWrites f.size f.d.toNat (s.bytes x.2.place.phys n))) ∧
    ∀ k e, s.checkWants ws n (Req.load n) .load = .error (k, e) → exec (.rowld f) s = s.raise f (some k) e

/-- ST, STQ and ROWST (R206 to R208, R248): the bytes stored, at the addresses the checks computed, and nothing else. -/
def Obligations.StoreForms : Prop := ∀ f : Fields,
  StoresAll (.st f) f (f.mb 10 2 == 2) (fun s => (s.acting f).map fun k => ⟨k, (s.curCrew.fibre k).pair f.a.toNat,
    refOff ((s.curCrew.fibre k).pair f.a.toNat) + indexOf f (s.curCrew.fibre k) + f.x.toInt⟩) ∧
  StoresAll (.stq f) f (f.mb 10 2 == 2) (fun s => s.wantsSpan f) ∧
  ∀ s, executing s = true → s.curCrew.tr = none →
    let ws := (s.acting f).map fun k => (⟨k, (s.curCrew.fibre k).pair f.a.toNat, refOff ((s.curCrew.fibre k).pair f.a.toNat) + f.x.toInt⟩ : Want)
    let n := sizeBytes f.size
    ∀ as, s.checkWants ws n (Req.store n) .store = .ok as → s.mustHold (as.map fun x => (x.2, n)) = false → ∃ t, exec (.rowst f) s = .next t ∧
      WentOn s t ∧ t.mem = written s.mem (as.map fun x => (x.2, storeData f.size f.d.toNat (s.curCrew.fibre x.1.slot))) ∧
      ∀ a, (∀ x ∈ as, x.2.place.peer = none → ¬(x.2.place.phys ≤ a ∧ a < x.2.place.phys + (storeData f.size f.d.toNat
        (s.curCrew.fibre x.1.slot)).length)) → t.byte a = s.byte a

/-- REFMK, REFADD, PREF and HQRY (R209 to R212): reference arithmetic touches the offset alone; a prefetch has no effect that software
sees; HQRY reads 0 for a handle that fails check 2, 3 or 4. -/
def Obligations.ReferenceForms : Prop := ∀ f : Fields,
  (Gives (.refmk f) f [f.d.toNat, f.d.toNat + 1] fun _ _ a b =>
    (b.pair f.d.toNat).extractLsb' 40 24 = (a.reg f.a.toNat).extractLsb' 0 24 ∧
    ((b.pair f.d.toNat).toNat % 2 ^ 40 = if f.form = .ri then f.x.toNat
      else (a.reg f.b.toNat).toNat + 2 ^ 32 * ((a.reg f.c.toNat).toNat % 256))) ∧
  (Gives (.refadd f) f [f.d.toNat, f.d.toNat + 1] fun _ _ a b =>
    let add : Int := if f.form = .pair then (a.pair f.b.toNat).toInt else (bitsB f a).toInt
    let sum : Int := refOff (a.pair f.a.toNat) + add
    if f.mbit 0 = true ∧ (sum < 0 ∨ 2 ^ 40 ≤ sum) then b.pair f.d.toNat = 0
    else (b.pair f.d.toNat).extractLsb' 40 24 = (a.pair f.a.toNat).extractLsb' 40 24 ∧ (refOff (b.pair f.d.toNat) : Int) = sum % 2 ^ 40) ∧
  (∀ s, executing s = true → ∃ t, exec (.pref f) s = .next t ∧ ({ apart s t with free := s.free } : State) = s ∧ FibresMoved s t f [] ∧
    ({ t.curCrew with fibres := s.curCrew.fibres } : Crew) = s.curCrew) ∧
  Queries (.hqry f) f (fun s a => match s.hqry (f.mb 0 3) (a.pair f.a.toNat) with | .ok w => w | .error _ => 0)
    (fun s => ∀ k, acts s f k → ∃ w, s.hqry (f.mb 0 3) ((s.curCrew.fibre k).pair f.a.toNat) = .ok w) ∧
  ∀ (s : State) (which : Nat) (ref : DWord) (e : BitVec 512), s.entry s.curCore s.curCtx ref (refOff ref) = .ok e →
    (Ent.invalid e = true ∨ Ent.tenant e ≠ s.curTenant ∨ Ent.gen e ≠ refGen ref → s.hqry which ref = .ok 0) ∧
    (Ent.invalid e = false → Ent.tenant e = s.curTenant → Ent.gen e = refGen ref → s.hqry which ref = .ok (hqryField which e ref))

/-- Group 0x0E (R337 to R339): memory and scratchpad atomics run one after another in slot order; each fibre is owed the old value. -/
def Obligations.Atomics : Prop := ∀ f : Fields,
  Atomic (.atom f) f f.x.toInt (fun a old => some (atomBytes f.sub f.size old (storeData f.size f.b.toNat a))) ∧
  Atomic (.acas f) f f.ext.toInt (fun a old =>
    if old = storeData f.size f.b.toNat a then some (storeData f.size f.c.toNat a) else none) ∧
  Atomic (.acas2 f) f f.ext.toInt (fun a old =>
    if old = storeData f.size f.b.toNat a then some (storeData f.size f.c.toNat a) else none) ∧
  Atomic (.afadd f) f f.x.toInt (fun a old => some (afaddBytes f.sub old (storeData 4 f.b.toNat a))) ∧
  (∀ (w : Nat) (x y : BitVec w), atomOp 0 x y = x + y ∧ atomOp 5 x y = x &&& y ∧ atomOp 6 x y = x ||| y ∧ atomOp 7 x y = x ^^^ y ∧
    atomOp 8 x y = y ∧ (atomOp 1 x y).toInt = min x.toInt y.toInt ∧ (atomOp 2 x y).toNat = min x.toNat y.toNat ∧
    (atomOp 3 x y).toInt = max x.toInt y.toInt ∧ (atomOp 4 x y).toNat = max x.toNat y.toNat) ∧
  ∀ p ∈ [(Instr.atoms f, f.x.toInt, fun (a : Fibre) (old : List Byte) => some (atomBytes f.sub f.size old (storeData f.size f.b.toNat a))),
      (.acass f, f.ext.toInt, fun a old => if old = storeData f.size f.b.toNat a then some (storeData f.size f.c.toNat a) else none)],
    ∀ s k, executing s = true → s.curCrew.tr = none → s.acting f = [k] →
      let addr : Int := ((s.curCrew.fibre k).reg f.a.toNat).toNat + p.2.1
      let n := sizeBytes f.size
      let old := s.curBlock.scrN addr.toNat n
      s.scrAtomCheck addr n = none → s.scrLocked s.cur.blk addr.toNat n = false → ∃ t q, exec p.1 s = .next t ∧ WentOn s t ∧ t.mem = s.mem ∧
        t.curCrew.pend = s.curCrew.pend ++ [q] ∧ q.writes = [(k, loadWrites f.size f.d.toNat old)] ∧
        t.curBlock.scratch = match p.2.2 (s.curCrew.fibre k) old with
          | some new => Sparse.putN zeroByte s.curBlock.scratch addr.toNat new
          | none => s.curBlock.scratch

/-! ### The scratchpad and its windows (09_memory_access) -/

/-- LDS and STS outside a try (R200, R213): the first access in slot order outside the declared bytes raises BOUNDS, a misaligned one ALIGN, for its
slot; otherwise each acting fibre reads or writes the scratchpad, every byte of it declared, window lines filled first, and no byte of memory
changes. Where no window is mapped and every access is in range, aligned and of no poisoned line, they complete. -/
def Obligations.Scratchpad : Prop := ∀ (f : Fields) (s : State), executing s = true → s.curCrew.tr = none →
  let n := sizeBytes f.size
  let ws := (s.acting f).map fun k => (k, (((s.curCrew.fibre k).reg f.a.toNat).toNat : Int) + indexOf f (s.curCrew.fibre k) + f.x.toInt)
  let inside (a : Int) : Prop := 0 ≤ a ∧ a + n ≤ (1024 * s.curTask.rec_.scr : Nat)
  (∀ l1 k a l2 s', ws = l1 ++ (k, a) :: l2 → (s.scrTouch n true l1 = .ok s' →
      (¬inside a → exec (.lds f) s = s.raise f (some k) (scrFault causeBounds a)) ∧
      (inside a → a.toNat % n ≠ 0 → exec (.lds f) s = s.raise f (some k) (scrFault causeAlign a))) ∧
    (s.scrTouch n false l1 = .ok s' →
      (¬inside a → exec (.sts f) s = s.raise f (some k) (scrFault causeBounds a)) ∧
      (inside a → a.toNat % n ≠ 0 → exec (.sts f) s = s.raise f (some k) (scrFault causeAlign a)))) ∧
  (∀ ld s', s.scrTouch n ld ws = .ok s' → ∀ x ∈ ws, inside x.2 ∧ x.2.toNat % n = 0) ∧
  (∀ k e, s.scrTouch n true ws = .error (k, e) → exec (.lds f) s = s.raise f (some k) e) ∧
  (∀ k e, s.scrTouch n false ws = .error (k, e) → exec (.sts f) s = s.raise f (some k) e) ∧
  (∀ s', s.scrTouch n true ws = .ok s' → ∃ t p, exec (.lds f) s = .next t ∧ WentOn s t ∧ t.mem = s.mem ∧
    t.curBlock.scratch = s'.curBlock.scratch ∧ t.curCrew.pend = s.curCrew.pend ++ [p] ∧ p.replay = false ∧
    p.writes = ws.map fun x => (x.1, loadWrites f.size f.d.toNat (s'.curBlock.scrN x.2.toNat n))) ∧
  (∀ s', s.scrTouch n false ws = .ok s' → (∀ x ∈ ws, s.scrLocked s.cur.blk x.2.toNat n = false) → ∃ t, exec (.sts f) s = .next t ∧
    WentOn s t ∧ t.mem = s.mem ∧ t.curCrew.pend = s.curCrew.pend ∧ t.curBlock.scratch =
      ws.foldl (fun m x => Sparse.putN zeroByte m x.2.toNat (storeData f.size f.d.toNat (s.curCrew.fibre x.1))) s'.curBlock.scratch) ∧
  ((∀ w ∈ s.curBlock.windows, w = none) → (∀ x ∈ ws, inside x.2 ∧ x.2.toNat % n = 0) →
    ((∀ x ∈ ws, s.curBlock.scrPoisoned x.2.toNat n = false) → ∃ t p, exec (.lds f) s = .next t ∧ Issues s t p ∧ p.replay = false ∧
      p.writes = ws.map fun x => (x.1, loadWrites f.size f.d.toNat (s.curBlock.scrN x.2.toNat n))) ∧
    ((∀ x ∈ ws, s.scrLocked s.cur.blk x.2.toNat n = false) → ∃ t, exec (.sts f) s = .next t ∧ WentOn s t ∧ t.mem = s.mem ∧
      t.curCrew.pend = s.curCrew.pend ∧ t.curBlock.scratch =
        ws.foldl (fun m x => Sparse.putN zeroByte m x.2.toNat (storeData f.size f.d.toNat (s.curCrew.fibre x.1))) s.curBlock.scratch))

/-- STASH, UNSTASH and FLUSHS outside a try (R214 to R216): the lowest free window is mapped and its number answered, or 0xFFFF_FFFF
when all eight are taken; unmapping clears the lines that were never valid; a flush leaves the mappings. -/
def Sys2Proof.Claims.Windows : Prop := ∀ (f : Fields) (s : State) (l : Nat), executing s = true → s.curCrew.tr = none → (s.acting f).head? = some l →
  let ref := (s.curCrew.fibre l).pair f.a.toNat
  let base := ((s.curCrew.fibre l).reg f.b.toNat).toNat
  let wins := s.curBlock.windows
  (∀ e, base % 64 = 0 → refOff ref % 64 = 0 → base + f.xv ≤ s.scrBytes → s.curBlock.meetsWindow base f.xv = false →
    s.checkHandle s.curCore s.curCtx s.curTenant ref (refOff ref) f.xv
      { kinds := [1, 3, 4], r := true, w := f.mbit 0, stash := true, align := 64 } = .ok e →
    (∀ o ∈ s.ops, o.blk = s.cur.blk → ∀ r ∈ o.ranges, overlap r.1 r.2 base f.xv = false) → wins.length = 8 →
    (∀ w, w < 8 → wins[w]? = some none → (∀ v, v < w → wins[v]? ≠ some none) → ∃ t, exec (.stash f) s = .next t ∧ FibresMoved s t f [f.d.toNat] ∧
      t.curBlock.windows = wins.set w (some { base := base, len := f.xv, ref := ref, writable := f.mbit 0 }) ∧ t.mem = s.mem ∧
      ∀ k, acts s f k → (t.curCrew.fibre k).reg f.d.toNat = BitVec.ofNat 32 w) ∧
    ((∀ w, w < 8 → wins[w]? ≠ some none) → ∃ t, exec (.stash f) s = .next t ∧ FibresMoved s t f [f.d.toNat] ∧ t.curBlock.windows = wins ∧
      t.mem = s.mem ∧ ∀ k, acts s f k → (t.curCrew.fibre k).reg f.d.toNat = 0xFFFFFFFF)) ∧
  (s.namedWindow f l = none → exec (.unstash f) s = s.raise f (some l) { cause := causeBounds } ∧
    (f.mbit 0 = false → exec (.flushs f) s = s.raise f (some l) { cause := causeBounds })) ∧
  (∀ w s', s.namedWindow f l = some w → (if f.mbit 0 then .ok s else s.writeBacks (s.agent l) s.cur.blk [w]) = Except.ok s' →
    exec (.unstash f) s = .next (s'.goOn.updBlock s.cur.blk (·.unmap w))) ∧
  (∀ w s', (f.mbit 0 = true ∨ s.namedWindow f l = some w) →
    s.writeBacks (s.agent l) s.cur.blk (if f.mbit 0 then List.range 8 else [w]) = .ok s' → exec (.flushs f) s = .next s'.goOn) ∧
  ∀ (b : Block) (w : Nat) (win : Stash), b.windows[w]? = some (some win) → win.len % 64 = 0 → (b.unmap w).windows = b.windows.set w none ∧
    ∀ a, (b.unmap w).scr a = if win.base ≤ a ∧ a < win.base + win.len ∧ win.valid.contains ((a - win.base) / 64) = false then 0 else b.scr a

/-- A window's write-back of one line (R202): its dirty bytes reach the object under the byte mask, its clean ones do not, and the
window is clean afterwards. -/
def Sys2Proof.Claims.WindowWriteBack : Prop := ∀ (s : State) (ag : Agent) (bid wi line : Nat) (w : Stash) (a : Acc),
  let t := s.backWindow ag bid wi w [(line, a)]
  (∀ k, k < 64 → t.byte (a.place.phys + k) = if w.dirty.contains (64 * line + k) then (s.block bid).scr (w.base + 64 * line + k)
    else s.byte (a.place.phys + k)) ∧
  (∀ p, ¬(a.place.phys ≤ p ∧ p < a.place.phys + 64) → t.byte p = s.byte p) ∧
  ((s.blocks.any fun b => b.bid == bid) = true → wi < (s.block bid).windows.length →
    (t.block bid).windows[wi]? = some (some { w with dirty := [] }))

/-- STASH, UNSTASH, FLUSHS and the write-back of a line (R202, R214 to R216). -/
def Obligations.WindowForms : Prop := Windows ∧ WindowWriteBack

/-! ### Held rows (11_tiers_and_held_rows) -/

/-- ROWOPEN, outside a try and with every check passed (R241, R246): the acting fibres are owed a status, the token of the row already
held, or the token of the row just opened, whose epoch rises when the entry had waited to hold another row; with no free entry it raises
ROW_SLOT, and a row in a slow slot awaits its swap. -/
def Sys2Proof.Claims.RowOpen : Prop := ∀ (f : Fields) (s : State) (l : Nat) (a : Acc), executing s = true → s.curCrew.tr = none →
  (s.acting f).head? = some l →
  (s.curBlock.holds = [] → exec (.rowopen f) s = s.raise f (some l) { cause := causeRowSlot }) ∧
  (s.curBlock.holds ≠ [] →
    s.rowCheck ((s.curCrew.fibre l).pair f.a.toNat) (refOff ((s.curCrew.fibre l).pair f.a.toNat) + f.x.toInt) = .ok a →
    let answers (tok : State → Word) (P : State → Prop) : Prop := ∃ t p, exec (.rowopen f) s = .next t ∧ FibresMoved s t f [] ∧ t.mem = s.mem ∧
      t.curCrew.pend = s.curCrew.pend ++ [p] ∧ p.replay = false ∧ p.writes = (s.acting f).map (fun k => (k, [(f.d.toNat, tok t)])) ∧ P t
    match s.rowAnswer s.curBlock (a.ia / 1024) a.place (f.mbit 0) with
    | .slotTrap => ∃ s', exec (.rowopen f) s = s'.raise f (some l) { cause := causeRowSlot } ∧ apart s s' = s ∧ s'.blocks = s.blocks
    | .refused st => answers (fun _ => BitVec.ofNat 32 st) fun t => t.curBlock.holds = s.curBlock.holds ∧ t.rowSlots = s.rowSlots
    | .held h => answers (fun _ => s.curBlock.grant h) fun t => t.curBlock.holds = s.curBlock.holds ∧ t.rowSlots = s.rowSlots
    | .opens h k => answers (fun t => t.curBlock.grant h) fun t => (t.curBlock.hold h).held = true ∧ (t.curBlock.hold h).row = a.ia / 1024 ∧
        (t.curBlock.hold h).slot = k ∧ (t.curBlock.hold h).epoch = (s.curBlock.hold h).epoch +
          (if (s.curBlock.hold h).reopenBy.isSome = true ∧ (s.curBlock.hold h).row ≠ a.ia / 1024 then 1 else 0) ∧
        (∀ j, j ≠ h → t.curBlock.hold j = s.curBlock.hold j) ∧
        ∃ r, Sparse.find? t.rowSlots k = some r ∧ r.blk = s.cur.blk ∧ r.h = h ∧ r.row = a.ia / 1024 ∧ r.opened = true ∧
          r.openFrom = s.devTime.toNat
    | .swap dfn => ∃ t, exec (.rowopen f) s = .next t ∧ (t.promotions.any fun p => p.dfn == dfn) = true ∧ t.curCrew.stallClass = 5 ∧
        t.curCrew.rowWait = some ⟨s.cur.mask, s.cur.pc, s.cur.word, f⟩ ∧ ∀ k, t.curCrew.fibre k = s.curCrew.fibre k)

/-- ROWREL, ROWQ and tokens (R241, R247, R249): a token names its entry while the entry is held under its epoch and no longer; dropping
an entry frees its slot and raises the epoch; ROWREL drops the entry its token names, be it held or still to be held again after a restore
(R384); a token that names none makes ROWREL a NOP, and one whose entry is not held makes ROWQ read 0. -/
def Sys2Proof.Claims.RowTokens : Prop :=
  (∀ (b : Block) (h : Nat), h < 8 → h < b.holds.length → (b.hold h).held = true → b.token (b.grant h) = some h) ∧
  (∀ (s : State) (bid h : Nat), (s.blocks.any fun b => b.bid == bid) = true → h < 8 → h < (s.block bid).holds.length →
    ((s.block bid).hold h).held = true → ((s.dropHold bid h).block bid).token ((s.block bid).grant h) = none ∧
    (((s.dropHold bid h).block bid).hold h).epoch = ((s.block bid).hold h).epoch + 1 ∧
    Sparse.find? (s.dropHold bid h).rowSlots ((s.block bid).hold h).slot = none) ∧
  ∀ (f : Fields) (s : State), executing s = true → s.curCrew.tr = none →
    (∀ l, (s.acting f).head? = some l → s.curBlock.named ((s.curCrew.fibre l).reg f.a.toNat) = none →
      ∃ t, exec (.rowrel f) s = .next t ∧ RegisterFrame s t f []) ∧
    (∀ l h, (s.acting f).head? = some l → s.curBlock.named ((s.curCrew.fibre l).reg f.a.toNat) = some h →
      ∃ t, exec (.rowrel f) s = .next t ∧ FibresMoved s t f [] ∧ t.mem = s.mem ∧ (t.curBlock.hold h).held = false ∧
        (t.curBlock.hold h).reopenBy = none ∧ (∀ j, j ≠ h → t.curBlock.hold j = s.curBlock.hold j) ∧
        ((s.curBlock.hold h).held = true → (t.curBlock.hold h).epoch = (s.curBlock.hold h).epoch + 1 ∧
          Sparse.find? t.rowSlots (s.curBlock.hold h).slot = none)) ∧
    Queries (.rowq f) f (fun s a => s.rowWord s.curBlock (a.reg f.a.toNat)) (fun _ => True) ∧
    ∀ t, s.curBlock.token t = none → s.rowWord s.curBlock t = 0

/-- ROWOPEN, ROWREL, ROWQ and tokens (R241, R246 to R249). -/
def Obligations.RowForms : Prop := RowOpen ∧ RowTokens

/-! ### Engines (12_async_engines, 13_matrix_and_sketch) -/

/-- The issue rules engine instructions share (R252, R256, R280): no acting fibre makes a NOP, a full counter stalls with class ENGINE,
and a form that needs its whole crew raises ILLEGAL_CONVERGENCE for a strand that is not converged. -/
def Obligations.EngineIssue : Prop := ∀ (f : Fields) (s : State), executing s = true → s.curCrew.tr = none →
  (∀ p ∈ [(Instr.acp f, 0), (.tcp f, 0), (.gather f, 2), (.put f, 1), (.pfx f, 0), (.wbx f, 0), (.coll f, 5), (.collx f, 5),
      (.accscl f, 3), (.accexp f, 3)],
    (s.acting f = [] → ∃ t, exec p.1 s = .next t ∧ RegisterFrame s t f []) ∧
    (s.acting f ≠ [] → 255 ≤ (s.curCrew.counters[p.2]?).getD 0 → exec p.1 s = .next (s.updCur fun c => { c with stallClass := 4 }))) ∧
  ∀ p ∈ [(Instr.mma f, 3), (.mmac f, 3), (.mmas f, 3), (.rqt f, 3), (.accz f, 3), (.accld f, 3), (.accst f, 3), (.skbuild f, 4),
      (.skscore f, 4), (.sksel f, 4), (.skmap f, 4)],
    (s.converged = false → exec p.1 s = s.raise f none { cause := causeIllegalConvergence }) ∧
    (s.converged = true → s.acting f = [] → ∃ t, exec p.1 s = .next t ∧ RegisterFrame s t f []) ∧
    (s.converged = true → s.acting f ≠ [] → 255 ≤ (s.curCrew.counters[p.2]?).getD 0 →
      exec p.1 s = .next (s.updCur fun c => { c with stallClass := 4 }))

/-- The first of a list of checks that fails, those before it passed, gives `e`. -/
def Sys2Proof.Claims.FirstFails (checks : List (Except Event Unit)) (e : Event) : Prop :=
  ∃ before after, checks = before ++ .error e :: after ∧ ∀ x ∈ before, x = .ok ()
/-- The stamp of an engine instruction, as the last of its checks (R254). -/
def Sys2Proof.Claims.stampCheck (s : State) (f : Fields) (l : Nat) : Except Event Unit := (s.stampFor f l).map fun _ => ()

/-- ACP, TCP, GATHER, PUT, PFX and WBX (R261, R264 to R267): once the checks have passed each starts one operation of its class with the
moves, the stamp and the scratchpad ranges its operands give; a failed check raises its fault and starts nothing, PUT's in their order; a GATHER
whose list is poisoned ends at once with an ENGINE_FATAL for its crew (R258). -/
def Obligations.TransferForms : Prop := ∀ (f : Fields) (s : State) (l : Nat),
  let fb := s.curCrew.fibre l
  let b := (fb.reg f.b.toNat).toNat
  let n := sizeBytes f.size
  (EngineReady s f 0 l → (∀ lanes st, s.acpLanes f (s.acting f) = .ok lanes → s.stampFor f l = .ok st → ∃ t, exec (.acp f) s = .next t ∧
      Starts s t f 0 { newOp (.copy (lanes.filterMap (·.m))
          (lanes.zipIdx.map fun x => x.1.move s.cur.blk (f.mbit 8) n ((lanes.take x.2).countP (·.m.isSome))) []) st
        (lanes.map fun x => (x.b, n)) [] with stream := f.mbit 0 }) ∧
    (∀ k e, s.acpLanes f (s.acting f) = .error (k, e) → exec (.acp f) s = s.raise f (some k) e) ∧
    (∀ v bytes m st, s.tcpPlan f l = .ok (v, bytes, m, st) → ∃ t, exec (.tcp f) s = .next t ∧
      Starts s t f 0 (newOp (.copy [m] (tdMoves v s.cur.blk b) []) st (boxRanges v b bytes) [])) ∧
    (∀ e, s.tcpPlan f l = .error e → exec (.tcp f) s = s.raise f (some l) e) ∧
    (∀ e, s.regionOperand f l = .error e → exec (.pfx f) s = s.raise f (some l) e ∧ exec (.wbx f) s = s.raise f (some l) e) ∧
    (∀ m st, s.regionOperand f l = .ok (m, st) →
      (∃ t, exec (.pfx f) s = .next t ∧ Starts s t f 0
        { newOp (.pfx m (f.mbit 0) (refOff m.ref) f.xv) st [] [] with count := regionSectors m (refOff m.ref) f.xv }) ∧
      ∃ t, exec (.wbx f) s = .next t ∧ Starts s t f 0
        { newOp (.wbx m (f.mbit 0) (refOff m.ref) f.xv 0) st [] [] with count := regionSectors m (refOff m.ref) f.xv })) ∧
  (EngineReady s f 2 l → ∀ e, s.gatherPlan f l = .error e → exec (.gather f) s = s.raise f (some l) e) ∧
  (EngineReady s f 2 l → (∀ x ∈ s.ops, x.id ≠ s.nextId) → ∀ v bytes m st, s.gatherPlan f l = .ok (v, bytes, m, st) →
    s.curBlock.scrPoisoned (fb.reg f.c.toNat).toNat (gatherList v) = true → ∃ t o e, exec (.gather f) s = .next t ∧ t.mem = s.mem ∧
      FibresMoved s t f [] ∧ t.ops = s.ops ++ [o] ∧ o.id = s.nextId ∧ o.phase = .ended ∧ o.status = 2 ∧
      t.curCrew.fatals = s.curCrew.fatals ++ [e] ∧ e.cause = causeEngineFatal ∧ field e.arg1 56 8 = causePoison.toNat) ∧
  (EngineReady s f 2 l → ∀ v bytes m st, s.gatherPlan f l = .ok (v, bytes, m, st) →
    s.curBlock.scrPoisoned (fb.reg f.c.toNat).toNat (gatherList v) = false → ∃ t, exec (.gather f) s = .next t ∧ Starts s t f 2 (newOp
      (.copy [m] (gatherMoves v (s.curBlock.scrN (fb.reg f.c.toNat).toNat (gatherList v)) s.cur.blk b) []) st (boxRanges v b bytes) [])) ∧
  (EngineReady s f 1 l →
    let a := (fb.reg f.a.toNat).toNat
    let bx := (fb.reg f.c.toNat).toNat % 256
    let byy := (fb.reg f.c.toNat).toNat / 256 % 256
    let at_ := (s.blockAt s.curTask.uid bx byy).getD noBlock
    (∀ e, FirstFails [need (a % 32 == 0) (scrFault causeAlign a), need (b % 32 == 0) (scrFault causeAlign b),
        need (decide (bx < s.curTask.rec_.width) && decide (byy < s.curTask.rec_.height)) (scrFault causeBounds b),
        need (decide (a + 32 * f.extv ≤ s.scrBytes) && !s.curBlock.meetsWindow a (32 * f.extv)) (scrFault causeBounds a),
        need (decide (b + 32 * f.extv ≤ s.scrBytes) && !at_.meetsWindow b (32 * f.extv)) (scrFault causeBounds b), stampCheck s f l] e →
      exec (.put f) s = s.raise f (some l) e) ∧
    ∀ target st, a % 32 = 0 → b % 32 = 0 → bx < s.curTask.rec_.width → byy < s.curTask.rec_.height → a + 32 * f.extv ≤ s.scrBytes →
      s.curBlock.meetsWindow a (32 * f.extv) = false → b + 32 * f.extv ≤ s.scrBytes → s.blockAt s.curTask.uid bx byy = some target →
      target.meetsWindow b (32 * f.extv) = false → s.stampFor f l = .ok st → ∃ t, exec (.put f) s = .next t ∧ Starts s t f 1 (newOp
        (.copy [] ((List.range f.extv).map fun i => ⟨.scr (a + 32 * i), .scr target.bid (b + 32 * i), 32⟩) []) st
        ((a, 32 * f.extv) :: (if target.bid = s.cur.blk then [(b, 32 * f.extv)] else [])) []))

/-- WAITC and CNTR (R268, R269): a counter already at most n lets the strand go on, as an acquire; otherwise every fibre of the strand
waits at its PC; CNTR reads the counter at issue. -/
def Obligations.CounterForms : Prop := ∀ f : Fields,
  (∀ s, executing s = true → s.curCrew.tr = none →
    (s.actMask f = 0 → ∃ t, exec (.waitc f) s = .next t ∧ RegisterFrame s t f []) ∧
    (s.actMask f ≠ 0 → (s.curCrew.counters[f.mdv]?).getD 0 ≤ f.xv → ∃ t, exec (.waitc f) s = .next t ∧ WentOn s t ∧ t.mem = s.mem ∧
      ∀ w ∈ t.curBlock.windows, ∀ x, w = some x → ∀ ln ∈ x.valid, x.again.contains ln = true) ∧
    (s.actMask f ≠ 0 → f.xv < (s.curCrew.counters[f.mdv]?).getD 0 → ∃ t, exec (.waitc f) s = .next t ∧ t.mem = s.mem ∧
      ∀ k, k < 32 → (t.curCrew.fibre k).regs = (s.curCrew.fibre k).regs ∧ (t.curCrew.fibre k).pc = (s.curCrew.fibre k).pc ∧
        if s.cur.mask.getLsbD k then (t.curCrew.fibre k).st = .waiting ∧ (t.curCrew.fibre k).wait = .counter f.mdv f.xv
        else t.curCrew.fibre k = s.curCrew.fibre k)) ∧
  Gives (.cntr f) f [f.d.toNat] fun s _ _ b => b.reg f.d.toNat = BitVec.ofNat 32 ((s.curCrew.counters[f.xv]?).getD 0)

/-- MMA, MMAC, MMAS and RQT (R284, R285, R294 to R296): each starts one matrix-engine operation with the shape its record gives, its
scratchpad ranges locked from issue; MMAS keeps the blocks or the column groups whose bits its map has set. -/
def Obligations.MatrixForms : Prop := ∀ (f : Fields) (s : State) (l : Nat), WholeReady s f 3 l →
  let fb := s.curCrew.fibre l
  let starts (i : Instr) (conv : Bool) (p : BitVec 512 × TileAt × TileAt × TileAt × TileAt × Option MemOperand)
      (keepK keepN : List Bool) : Prop := ∃ t, exec i s = .next t ∧ Starts s t f 3 (newOp (.product
    { m := Ms.m p.1, n := Ms.n p.1, kblk := Ms.kblk p.1, fa := Ms.fa p.1, fb := Ms.fb p.1, sat := Ms.sat p.1, z := f.mbit 0, a := p.2.1
      b := p.2.2.1, sa := p.2.2.2.1, sb := p.2.2.2.2.1, lda := Ms.lda p.1, ldb := Ms.ldb p.1, cadd := Ms.cadd p.1, ldc := Ms.ldc p.1
      keepK := keepK, keepN := keepN }) p.2.2.2.2.2 (tileRanges p.1 conv) (tileRanges p.1 conv))
  let all (n : Nat) : List Bool := List.replicate n true
  (∀ p, s.productPlan f l false false = .ok p → starts (.mma f) false p (all (Ms.kblk p.1)) (all (Ms.n p.1 / 16))) ∧
  (∀ p, s.productPlan f l true false = .ok p → starts (.mmac f) true p (all (Ms.kblk p.1)) (all (Ms.n p.1 / 16))) ∧
  (∀ p, s.productPlan f l false true = .ok p → s.meUses (fb.reg f.c.toNat).toNat ((bitmapBits f p.1 + 7) / 8) = false →
    let bits (i : Nat) : Bool := (s.curBlock.scr ((fb.reg f.c.toNat).toNat + i / 8)).getLsbD (i % 8)
    starts (.mmas f) false p (if f.mbit 1 then all (Ms.kblk p.1) else (List.range (Ms.kblk p.1)).map bits)
      (if f.mbit 1 then (List.range (Ms.n p.1 / 16)).map bits else all (Ms.n p.1 / 16))) ∧
  (∀ e, s.productPlan f l false false = .error e → exec (.mma f) s = s.raise f (some l) e) ∧
  let d := (fb.reg f.d.toNat).toNat
  let a := (fb.reg f.a.toNat).toNat
  let sb := (fb.reg f.b.toNat).toNat
  let db := (fb.reg f.c.toNat).toNat
  let bytes := rqtRows f * rqtCols f * mtBits f.mdv / 8
  let scl := rqtRows f * rqtCols f / 32
  let srcs := (a, bytes) :: (if mtMx f.mdv then [(sb, scl)] else [])
  let dsts := (d, bytes) :: (if mtMx f.mdv then [(db, scl)] else [])
  d % 8 = 0 → a % 8 = 0 → (mtMx f.mdv = true → sb % 8 = 0 ∧ db % 8 = 0) → (∀ r ∈ srcs ++ dsts, s.xuRange r.1 r.2 = .ok ()) →
  (∀ x ∈ dsts, ∀ r ∈ srcs, overlap x.1 x.2 r.1 r.2 = false) →
  ∃ t, exec (.rqt f) s = .next t ∧ Starts s t f 3 (newOp (.rqt d a sb db (rqtRows f) (rqtCols f) f.mdv) none (srcs ++ dsts) srcs)

/-- Group 0x16 (R297 to R300): ACCZ, ACCLD and ACCST take the lowest acting slot's operands, ACCSCL and ACCEXP a row of each acting
fibre; ACCROW is an L form whose result the engine owes and counts in no class. -/
def Obligations.AccumulatorForms : Prop := ∀ (f : Fields) (s : State) (l : Nat),
  let fb := s.curCrew.fibre l
  (WholeReady s f 3 l →
    (∀ st, (fb.reg f.a.toNat).toNat % 64 = 0 → (fb.reg f.a.toNat).toNat + f.xv ≤ s.accBytes → s.stampFor f l = .ok st →
      ∃ t, exec (.accz f) s = .next t ∧ Starts s t f 3 (newOp (.accz (fb.reg f.a.toNat).toNat f.xv) st [] [])) ∧
    (∀ p, s.accPlan f l false = .ok p → ∃ t, exec (.accld f) s = .next t ∧
      Starts s t f 3 (newOp (.accld p.1 p.2.1 (fb.reg f.c.toNat).toNat f.extv f.ty 0 []) p.2.2 (accRanges f p) (accRanges f p))) ∧
    ∀ p, s.accPlan f l true = .ok p → ∃ t, exec (.accst f) s = .next t ∧
      Starts s t f 3 (newOp (.accst p.1 p.2.1 (fb.reg f.c.toNat).toNat f.extv f.ty (f.mb 0 3) f.sat 0 []) p.2.2 (accRanges f p) [])) ∧
  (EngineReady s f 3 l → ∀ rows, s.accRows f (fun a => (a.reg f.a.toNat).toNat) (4 * rowWords f) (s.acting f) = .ok rows →
    (∃ t, exec (.accscl f) s = .next t ∧ Starts s t f 3 (newOp (.accscl (f.mb 4 2 == 1) (rowWords f)
      (rows.map fun r => (r.2, (s.curCrew.fibre r.1).reg f.b.toNat))) none [] [])) ∧
    ∃ t, exec (.accexp f) s = .next t ∧ Starts s t f 3 (newOp (.accexp (rowWords f)
      (rows.map fun r => (r.2, (s.curCrew.fibre r.1).reg f.b.toNat, (s.curCrew.fibre r.1).reg f.c.toNat))) none [] [])) ∧
  (executing s = true → s.curCrew.tr = none → s.acting f ≠ [] →
    let get := f.mb 4 2 == 2
    ∀ rows, s.accRows f (fun a => (a.reg f.a.toNat).toNat + (if get then 4 * (a.reg f.b.toNat).toNat else 0))
        (4 * (if get then 1 else rowWords f)) (s.acting f) = .ok rows →
      ∃ t p o, exec (.accrow f) s = .next t ∧ FibresMoved s t f [] ∧ t.curCrew.counters = s.curCrew.counters ∧ t.mem = s.mem ∧
        t.ops = s.ops ++ [o] ∧ o.work = .accrow (f.mb 4 2) (if get then 1 else rowWords f) (f.mbit 6) f.d.toNat rows ∧ o.counted = false ∧
        o.phase = .queued ∧ o.cls = 3 ∧ t.curCrew.pend = s.curCrew.pend ++ [p] ∧ p.op = some o.id ∧ p.mask = s.actMask f) ∧
  ∀ k e, executing s = true → s.curCrew.tr = none →
    s.accRows f (fun a => (a.reg f.a.toNat).toNat) (4 * rowWords f) (s.acting f) = .error (k, e) → f.mb 4 2 ≠ 2 →
    exec (.accrow f) s = s.raise f (some k) e

/-- Group 0x17 (R301 to R304): the first check that fails, in the order the rules give, raises its fault; when none does, one sketch-engine operation
starts; SKSEL also owes its result. -/
def Obligations.SketchForms : Prop := ∀ (f : Fields) (s : State) (l : Nat), WholeReady s f 4 l →
  let fb := s.curCrew.fibre l
  let a := (fb.reg f.a.toNat).toNat
  let b := (fb.reg f.b.toNat).toNat
  let c := (fb.reg f.c.toNat).toNat
  let n := f.ext.toNat % 2 ^ 16 + 1
  let bytes := n * 64 * accElem f.ty
  let refuses (i : Instr) (checks : List (Except Event Unit)) : Prop := ∀ e, FirstFails checks e → exec i s = s.raise f (some l) e
  refuses (.skbuild f) [need (a % 32 == 0) (scrFault causeAlign a), need (b % accElem f.ty == 0) (scrFault causeAlign b), s.xuRange a (32 * n),
    if f.mbit 0 then s.accRange b bytes else s.xuRange b bytes, stampCheck s f l] ∧
  (f.form ≠ .pair → refuses (.skscore f) [need (a % 32 == 0) (scrFault causeAlign a), need (c % 32 == 0) (scrFault causeAlign c),
    s.xuRange c (32 + 2 * n), s.xuRange a (32 * n), need (!overlap a (32 * n) (c + 32) (2 * n)) (scrFault causeBounds c), stampCheck s f l]) ∧
  (f.form = .pair → let ref := fb.pair f.a.toNat
    refuses (.skscore f) [need (refOff ref % 32 == 0) (memFault causeAlign ref (refOff ref)), need (c % 32 == 0) (scrFault causeAlign c),
      s.xuRange c (32 + 2 * n), (s.xuMem ref (refOff ref + 32 * n - 1 : Nat) 1 (engineReq false)).map fun _ => (), stampCheck s f l]) ∧
  refuses (.sksel f) [need (a % 8 == 0) (scrFault causeAlign a), need (b % 2 == 0) (scrFault causeAlign b),
    s.xuRange a (8 * (f.ext.toNat / 2 ^ 16 % 2 ^ 8 + 1)), s.xuRange b (2 * n)] ∧
  (let k := f.ext.toNat % 2 ^ 8 + 1
   refuses (.skmap f) [need (b % 8 == 0) (scrFault causeAlign b), need (a % (if f.mbit 0 then 4 else 8) == 0) (scrFault causeAlign a),
    s.xuRange b (8 * k), s.xuRange a (if f.mbit 0 then 4 * k else 64 * (f.mb 1 8 + 1) / 8)]) ∧
  (∀ st, a % 32 = 0 → b % accElem f.ty = 0 → s.xuRange a (32 * n) = .ok () →
    (if f.mbit 0 then s.accRange b bytes else s.xuRange b bytes) = .ok () → s.stampFor f l = .ok st → ∃ t, exec (.skbuild f) s = .next t ∧
    Starts s t f 4 (newOp (.skbuild a b f.ty (f.mbit 0) (fb.reg f.c.toNat) n 0) st
      ((a, 32 * n) :: (if f.mbit 0 then [] else [(b, bytes)])) [])) ∧
  (∀ st, f.form ≠ .pair → a % 32 = 0 → c % 32 = 0 → s.xuRange c (32 + 2 * n) = .ok () → s.xuRange a (32 * n) = .ok () →
    overlap a (32 * n) (c + 32) (2 * n) = false → s.stampFor f l = .ok st → ∃ t, exec (.skscore f) s = .next t ∧
    Starts s t f 4 (newOp (.skscore none a c n 0 none) st [(c, 32 + 2 * n), (a, 32 * n)] [])) ∧
  (∀ m st, f.form = .pair → refOff (fb.pair f.a.toNat) % 32 = 0 → c % 32 = 0 → s.xuRange c (32 + 2 * n) = .ok () →
    s.xuMem (fb.pair f.a.toNat) (refOff (fb.pair f.a.toNat) + 32 * n - 1 : Nat) 1 (engineReq false) = .ok m → s.stampFor f l = .ok st →
    ∃ t, exec (.skscore f) s = .next t ∧
      Starts s t f 4 (newOp (.skscore (some m) (refOff (fb.pair f.a.toNat)) c n 0 none) st [(c, 32 + 2 * n)] [])) ∧
  (a % 8 = 0 → b % 2 = 0 → s.xuRange a (8 * (f.ext.toNat / 2 ^ 16 % 2 ^ 8 + 1)) = .ok () → s.xuRange b (2 * n) = .ok () →
    ∃ t p o, exec (.sksel f) s = .next t ∧ FibresMoved s t f [] ∧ t.mem = s.mem ∧
      t.curCrew.counters = s.curCrew.counters.modify 4 (· + 1) ∧ t.ops = s.ops ++ [o] ∧
      o.work = .sksel a b (fb.reg f.c.toNat) n (f.ext.toNat / 2 ^ 16 % 2 ^ 8 + 1) (s.actMask f) f.d.toNat ∧ o.phase = .queued ∧ o.cls = 4 ∧
      t.curCrew.pend = s.curCrew.pend ++ [p] ∧ p.op = some o.id ∧ p.mask = s.actMask f) ∧
  let k := f.ext.toNat % 2 ^ 8 + 1
  let nb := 64 * (f.mb 1 8 + 1)
  let out := if f.mbit 0 then 4 * k else nb / 8
  b % 8 = 0 → a % (if f.mbit 0 then 4 else 8) = 0 → s.xuRange b (8 * k) = .ok () → s.xuRange a out = .ok () →
  ∃ t, exec (.skmap f) s = .next t ∧
    Starts s t f 4 (newOp (.skmap a b (fb.reg f.c.toNat) k (field f.ext 8 5) nb (f.mbit 0)) none [(a, out), (b, 8 * k)] [])

/-- COLL, COLLX and COLLQ (R271, R272, R275, R276): COLL joins its ring, or ends at once on a marker or a failed ring; COLLX retires the
old ring at issue, leaving its marker; COLLQ reads the ring's word. -/
def Obligations.CollectiveForms : Prop := ∀ (f : Fields) (s : State) (l : Nat),
  let fb := s.curCrew.fibre l
  (EngineReady s f 5 l → (∀ x ∈ s.ops, x.id ≠ s.nextId) → (∀ v m stage st, s.collPlan f l = .ok (v, m, stage, st) → ∃ t o, exec (.coll f) s = .next t ∧ FibresMoved s t f [] ∧ t.mem = s.mem ∧
      t.curCrew.counters = s.curCrew.counters.modify 5 (· + 1) ∧ t.ops = s.ops ++ [o] ∧ o.cls = 5 ∧ o.stamp = st ∧
      o.work = .coll (f.mb 0 4) f.ty (fb.reg f.c.toNat).toNat m stage 0 none [] ∧
      match s.ringOf (Rr.ring v) (Rr.epoch v) with
      | none => o.phase = .queued ∧ t.rings = s.rings ++ [{ ring := Rr.ring v, epoch := Rr.epoch v, ctx := s.curCtx }]
      | some r => if r.marker then o.phase = .ended ∧ o.status = 3 ∧ t.rings = s.rings
          else if r.st = .failed then o.phase = .ended ∧ o.status = 1 else o.phase = .queued ∧ t.rings = s.rings) ∧
    (∀ e, s.collPlan f l = .error e → exec (.coll f) s = s.raise f (some l) e) ∧
    ∀ v w st, s.collxPlan f l = .ok (v, w, st) → s.latigo.fmValid = false → ∃ t o, exec (.collx f) s = .next t ∧ FibresMoved s t f [] ∧
      t.mem = s.mem ∧ o ∈ t.ops ∧ o.id = s.nextId ∧ o.phase = .working ∧ o.stamp = st ∧
      o.work = .collx w 0 (s.devTime.toNat + 1000 * Rr.tmo w) ∧ t.curCrew.counters = s.curCrew.counters.modify 5 (· + 1) ∧
      (∃ r, t.ringOf (Rr.ring v) (Rr.epoch v) = some r ∧ r.marker = true) ∧
      ∀ x ∈ s.ops, x.onRing (Rr.ring v) (Rr.epoch v) = true → ∃ y ∈ t.ops, y.id = x.id ∧ y.phase = .ended ∧ 3 ≤ y.status) ∧
  ∀ ref, (fb.pair f.a.toNat = ref) → (s.acting f).head? = some l → executing s = true → s.curCrew.tr = none → s.cur.replay = none →
    (∀ e, s.ringRecord ref = .error e → exec (.collq f) s = s.raise f (some l) e) ∧
    ∀ v, s.ringRecord ref = .ok v → (s.curCrew.pend.filter (·.replay)).length < 16 → ∃ t p, exec (.collq f) s = .next t ∧ Issues s t p ∧
      p.replay = true ∧ p.writes = (s.acting f).map fun k => (k, [(f.d.toNat, s.collWord v)])

/-! ### Synchronisation (14_consistency, 15_synchronisation) -/

/-- FENCE (R340, R317 to R319): with no acting fibre a NOP; otherwise, the window write-backs of its release performed, the strand
goes on, and an acquire leaves no window line that may be read without a new fill, and no L1 word that its core does not own. -/
def Sys2Proof.Claims.Fences : Prop := ∀ (f : Fields) (s : State), executing s = true → s.curCrew.tr = none →
  (s.acting f = [] → ∃ t, exec (.fence f) s = .next t ∧ RegisterFrame s t f []) ∧
  ∀ l s1, (s.acting f).head? = some l → (if f.mb 0 2 = 2 ∨ f.mb 0 2 = 3 then s.release l else .ok s) = .ok s1 →
    ∃ t, exec (.fence f) s = .next t ∧ WentOn s t ∧ t.mem = s1.mem ∧ t.curBlock.fenceRec.lastCrew = s.cur.crew ∧
      t.curBlock.fenceRec.lastPc = s.cur.pc ∧
      (f.mb 0 2 = 1 ∨ f.mb 0 2 = 3 → (∀ w ∈ t.curBlock.windows, ∀ x, w = some x → ∀ ln ∈ x.valid, x.again.contains ln = true) ∧
        ∀ x ∈ (t.core s.curCore).l1, Sparse.find? t.owners x.1 = some s.curCore)

/-- BAR, ARRIVE, BWAIT and BARSTAT (R341 to R346): the arrival is counted; the one that reaches EXPECT, or the live crews, starts the
next phase with its counts at 0 and lets every waiting strand go on; until then a BAR waits at its PC. -/
def Sys2Proof.Claims.BlockBarriers : Prop := ∀ (f : Fields) (s : State), executing s = true → s.curCrew.tr = none →
  (∀ k, k < 32 → s.cur.mask.getLsbD k = true → (s.curCrew.fibre k).st = .runnable) →
  let i := field f.x 0 4
  let n := field f.x 4 6
  let low := ((ones s.cur.mask).head?).getD 0
  (∀ p ∈ [Instr.bar f, .arrive f], s.converged = false → exec p s = s.raise f none { cause := causeIllegalConvergence }) ∧
  (∀ p ∈ [Instr.bar f, .arrive f], s.converged = true → s.curTask.rec_.crews + 1 < n → exec p s = s.raise f none { cause := causeBounds }) ∧
  (∀ s1, s.converged = true → n ≤ s.curTask.rec_.crews + 1 → s.curBlock.barriers.length = 16 → s.release low = .ok s1 →
    let old := s1.curBlock.barrier i
    let expect := if old.arrived = 0 then n else old.expect
    let complete := (if expect = 0 then s1.curBlock.crews.countP (·.live) else expect) ≤ old.arrived + 1
    let counted (t : State) : Prop := t.mem = s1.mem ∧ if complete then t.curBlock.barrier i = { phase := old.phase + 1 } ∧
        ∀ c k, ((s1.curBlock.crew c).fibre k).st = .waiting → ((s1.curBlock.crew c).fibre k).wait = .barrier i old.phase →
          ((t.curBlock.crew c).fibre k).st = .runnable ∧ ((t.curBlock.crew c).fibre k).pc = ((s1.curBlock.crew c).fibre k).pc + 1
      else t.curBlock.barrier i = { phase := old.phase, arrived := old.arrived + 1, expect := expect, mask := old.mask ||| (1#32 <<< s.cur.crew) }
    (∃ t, exec (.bar f) s = .next t ∧ counted t ∧ ∀ k, k < 32 → (t.curCrew.fibre k).regs = (s.curCrew.fibre k).regs ∧
      (s.cur.mask.getLsbD k = true → if complete then (t.curCrew.fibre k).st = .runnable ∧ (t.curCrew.fibre k).pc = (s.curCrew.fibre k).pc + 1
        else (t.curCrew.fibre k).st = .waiting ∧ (t.curCrew.fibre k).wait = .barrier i old.phase ∧
          (t.curCrew.fibre k).pc = (s.curCrew.fibre k).pc)) ∧
    ∃ t, exec (.arrive f) s = .next t ∧ counted t ∧ ∀ k, k < 32 → s.cur.mask.getLsbD k = true →
      (t.curCrew.fibre k).st = .runnable ∧ (t.curCrew.fibre k).pc = (s.curCrew.fibre k).pc + 1 ∧
      (acts s f k → (t.curCrew.fibre k).reg f.d.toNat = old.phase.setWidth 32)) ∧
  (let ph : BitVec 16 := ((s.curCrew.fibre low).reg f.a.toNat).extractLsb' 0 16
   ∃ t, exec (.bwait f) s = .next t ∧ t.mem = s.mem ∧ t.curBlock.barriers = s.curBlock.barriers ∧
    ∀ k, k < 32 → (t.curCrew.fibre k).regs = (s.curCrew.fibre k).regs ∧
      (s.cur.mask.getLsbD k = true → if ph = (s.curBlock.barrier i).phase then (t.curCrew.fibre k).st = .waiting ∧
          (t.curCrew.fibre k).wait = .barrier i ph ∧ (t.curCrew.fibre k).pc = (s.curCrew.fibre k).pc
        else (t.curCrew.fibre k).st = .runnable ∧ (t.curCrew.fibre k).pc = (s.curCrew.fibre k).pc + 1)) ∧
  ∃ t, exec (.barstat f) s = .next t ∧ RegisterFrame s t f [f.d.toNat] ∧ ∀ k, acts s f k → f.x.getLsbD 4 = false →
    let v := (t.curCrew.fibre k).reg f.d.toNat
    let x := s.curBlock.barrier i
    (field f.x 5 3 = 0 → v.extractLsb' 16 16 = x.phase ∧ (x.arrived < 256 → x.expect < 256 →
      (v.extractLsb' 8 8).toNat = x.arrived ∧ (v.extractLsb' 0 8).toNat = x.expect)) ∧
    (field f.x 5 3 = 1 → v = x.mask) ∧
    (field f.x 5 3 = 3 → v = ((s.curBlock.barRecs[i]?).getD {}).lastPc)

/-- RBAR (R344): a subgroup that does not fit, or of another shape, raises BOUNDS; otherwise the crew arrives, and waits unless every
live crew of the subgroup's blocks has arrived and, with `.deliver`, no PUT of those blocks is outstanding. -/
def Sys2Proof.Claims.RectangleBarriers : Prop := ∀ (f : Fields) (s : State), executing s = true → s.curCrew.tr = none →
  (∀ k, k < 32 → s.cur.mask.getLsbD k = true → (s.curCrew.fibre k).st = .runnable) →
  let b := field f.x 0 2
  let w := 2 ^ field f.x 2 3
  let h := if field f.x 5 3 = 4 then 12 else 2 ^ field f.x 5 3
  let ox := s.curBlock.bx / w * w
  let oy := s.curBlock.byy / h * h
  let shaped := ∀ x, s.curTask.rbarShape.find? (·.1 == b) = some x → x.2 = (w, h)
  let fits_ := ox + w ≤ s.curTask.rec_.width ∧ oy + h ≤ s.curTask.rec_.height ∧ shaped
  (s.converged = false → exec (.rbar f) s = s.raise f none { cause := causeIllegalConvergence }) ∧
  (s.converged = true → ¬fits_ → exec (.rbar f) s = s.raise f none { cause := causeBounds }) ∧
  ∀ s1, s.converged = true → fits_ → (∃ t ∈ s.tasks, t.uid = s.curBlock.task) → s.release (((ones s.cur.mask).head?).getD 0) = .ok s1 →
    let r := (s.curTask.rbars.find? fun r => r.b == b && r.sx == ox && r.sy == oy).getD ⟨b, ox, oy, 0, 0, []⟩
    let mine := ((r.masks.find? (·.1 == s.cur.blk)).map (·.2)).getD 0 ||| (1#32 <<< s.cur.crew)
    let r' : RectBar := { r with arrived := r.arrived + 1, masks := (s.cur.blk, mine) :: r.masks.filter (·.1 != s.cur.blk) }
    let bs := s1.blocks.filter fun k => k.task == s.curBlock.task && ox ≤ k.bx && k.bx < ox + w && oy ≤ k.byy && k.byy < oy + h
    let all := ∀ k ∈ bs, ∀ c j, k.crews[j]? = some c → c.live = true → r'.has k.bid j = true
    let quiet := ∀ o ∈ s1.ops, o.cls = 1 → ∀ k ∈ bs, k.bid ≠ o.blk
    ∃ t, exec (.rbar f) s = .next t ∧ t.mem = s1.mem ∧ (∀ k, k < 32 → (t.curCrew.fibre k).regs = (s.curCrew.fibre k).regs) ∧
      (¬all → t.rectBar s.cur.blk b = r' ∧ ∀ k, k < 32 → s.cur.mask.getLsbD k = true → (t.curCrew.fibre k).st = .waiting ∧
        (t.curCrew.fibre k).wait = .rbar b r.phase (f.mbit 0) ∧ (t.curCrew.fibre k).pc = (s.curCrew.fibre k).pc) ∧
      (all → t.rectBar s.cur.blk b = { r with phase := r.phase + 1, arrived := 0, masks := [] } ∧
        (f.mbit 0 = false ∨ quiet → ∀ k, k < 32 → s.cur.mask.getLsbD k = true → (t.curCrew.fibre k).st = .runnable ∧
          (t.curCrew.fibre k).pc = (s.curCrew.fibre k).pc + 1))

/-- Group 0x10 (R340 to R346). -/
def Obligations.Barriers : Prop := Fences ∧ BlockBarriers ∧ RectangleBarriers

/-! One acting fibre: the words for forms that act fibre after fibre, in slot order (R335). -/

/-- Slot k alone acts, no try is open, and no part of the instruction has been performed before: no fibre of the strand has acted, and the strand does
not stand in the middle of an instruction (R335). -/
structure Sys2Proof.Claims.Alone (s : State) (f : Fields) (k : Nat) : Prop where
  runs : executing s = true
  try_ : s.curCrew.tr = none
  lone : s.acting f = [k]
  acted : ∀ j, j < 32 → s.cur.mask.getLsbD j = true → (s.curCrew.fibre j).acted = false
  fresh : ∀ w ∈ s.curCrew.partway, w.mask ≠ s.cur.mask
/-- The strand has gone on, slot k with the writes `wr`; no other register of the crew differs. -/
structure Sys2Proof.Claims.Answers (s t : State) (k : Nat) (wr : List (Nat × Word)) : Prop where
  strand : ∀ j, j < 32 → s.cur.mask.getLsbD j = true → (t.curCrew.fibre j).pc = (s.curCrew.fibre j).pc + 1
  others : ∀ j, j < 32 → s.cur.mask.getLsbD j = false → (t.curCrew.fibre j).pc = (s.curCrew.fibre j).pc
  writes : ∀ p ∈ wr, (t.curCrew.fibre k).reg p.1 = p.2
  regs : ∀ j r, ¬(j = k ∧ ∃ v, (r, v) ∈ wr) → (t.curCrew.fibre j).reg r = (s.curCrew.fibre j).reg r
  mode : t.curCrew.mode = s.curCrew.mode
/-- Slot k waits at the instruction's PC for `w`, and the guard-false fibres of the strand have gone on. -/
structure Sys2Proof.Claims.WaitsAt (s t : State) (k : Nat) (w : Wait) : Prop where
  waits : (t.curCrew.fibre k).st = .waiting ∧ (t.curCrew.fibre k).wait = w ∧ (t.curCrew.fibre k).pc = (s.curCrew.fibre k).pc
  strand : ∀ j, j < 32 → j ≠ k → s.cur.mask.getLsbD j = true → (t.curCrew.fibre j).pc = (s.curCrew.fibre j).pc + 1
  regs : ∀ j, j ≠ k → (t.curCrew.fibre j).regs = (s.curCrew.fibre j).regs
/-- The instruction does not issue: nothing of `s` differs but the crew's stall class. -/
def Sys2Proof.Claims.Stalls (i : Instr) (s s' : State) (cls : Nat) : Prop :=
  exec i s = .next (s'.updCur fun c => { c with stallClass := cls })

/-- The instruction does not issue: of `s'` only the crew's stall class differs, and what its accesses leave (`apart`). -/
def Sys2Proof.Claims.StallsApart (i : Instr) (s s' : State) (cls : Nat) : Prop :=
  ∃ t, exec i s = .next t ∧ apart s' t = s' ∧ t.blocks = (s'.updCur fun c => { c with stallClass := cls }).blocks

/-- One semaphore step after another, in slot order: the memory left, and each slot's old value with whether its count was met (R347). -/
def Sys2Proof.Claims.semSteps (c : Crew) (rb : Nat) (m : List (Nat × Byte)) (as : List (Want × Acc)) :
    List (Nat × Byte) × List (Nat × Word × Bool) :=
  as.foldl (fun x p =>
    let old : Word := ofBytes 32 (Sparse.getN memDefault x.1 p.2.place.phys 4)
    let n := (c.fibre p.1.slot).reg rb
    (if n.toNat ≤ old.toNat then Sparse.putN memDefault x.1 p.2.place.phys (toBytes 4 (old - n)) else x.1,
      x.2 ++ [(p.1.slot, old, decide (n.toNat ≤ old.toNat))])) (m, [])
/-- One post after another, in slot order, saturating at 2^32 − 1. -/
def Sys2Proof.Claims.posts (c : Crew) (rb : Nat) (m : List (Nat × Byte)) (as : List (Want × Acc)) :
    List (Nat × Byte) × List (Nat × Word) :=
  as.foldl (fun x p =>
    let old : Word := ofBytes 32 (Sparse.getN memDefault x.1 p.2.place.phys 4)
    (Sparse.putN memDefault x.1 p.2.place.phys
      (toBytes 4 (BitVec.ofNat 32 (min (old.toNat + ((c.fibre p.1.slot).reg rb).toNat) (2 ^ 32 - 1)))), x.2 ++ [(p.1.slot, old)])) (m, [])

/-- MONARM and MONWAIT (R348, R349): each acting fibre loads and arms its monitor on the line it read; MONWAIT answers 0 for a monitor
that has fired and 2 for one that is clear, and waits, with its deadline, on one that is armed. -/
def Sys2Proof.Claims.Monitors : Prop := ∀ (f : Fields) (s : State), executing s = true → s.curCrew.tr = none →
  let n := sizeBytes f.size
  (∀ as older, s.checkWants (s.wants f) n (Req.load n) .load = .ok as →
    (older = false → s.cur.stale = false ∨ ∀ x ∈ as, cachedLoad f x.2 = false) →
    (older = true → s.cur.stale = true ∧ ∀ x ∈ as, cachedLoad f x.2 = true ∧ wholeInL1 s f x.2) → ∃ t, exec (.monarm f) s = .next t ∧ t.mem = s.mem ∧
    (∀ k, k < 32 → s.cur.mask.getLsbD k = true → (t.curCrew.fibre k).pc = (s.curCrew.fibre k).pc + 1) ∧
    (∀ x ∈ as, (t.curCrew.fibre x.1.slot).monitor = .armed (x.2.ia / 64) ∧
      ∀ p ∈ loadWrites f.size f.d.toNat (loaded s f older x.2),
        (t.curCrew.fibre x.1.slot).reg p.1 = p.2) ∧
    ∀ k, ¬acts s f k → (t.curCrew.fibre k).regs = (s.curCrew.fibre k).regs ∧ (t.curCrew.fibre k).monitor = (s.curCrew.fibre k).monitor) ∧
  (∀ k e, s.checkWants (s.wants f) n (Req.load n) .load = .error (k, e) → exec (.monarm f) s = s.raise f (some k) e) ∧
  ∃ t, exec (.monwait f) s = .next t ∧ t.mem = s.mem ∧ ∀ k, k < 32 → s.cur.mask.getLsbD k = true →
    let a := s.curCrew.fibre k
    let b := t.curCrew.fibre k
    (¬acts s f k → b.pc = a.pc + 1 ∧ b.regs = a.regs ∧ b.monitor = a.monitor) ∧
    (acts s f k → match a.monitor with
      | .armed line => b.st = .waiting ∧ b.pc = a.pc ∧ b.regs = a.regs ∧ b.monitor = a.monitor ∧
          b.wait = .mon line (if a.reg f.a.toNat = 0 then none else some (s.devTime.toNat + (a.reg f.a.toNat).toNat))
      | .fired => b.pc = a.pc + 1 ∧ b.reg f.d.toNat = 0 ∧ b.monitor = .clear
      | .clear => b.pc = a.pc + 1 ∧ b.reg f.d.toNat = 2 ∧ b.monitor = .clear)

/-- SEMWAIT and SEMPOST (R347): one indivisible step for each acting fibre in slot order; a fibre whose count is not met waits at its
PC, or goes on with `.nb`; every acting fibre receives the value before its own step. -/
def Sys2Proof.Claims.Semaphores : Prop := ∀ (f : Fields) (s : State), executing s = true → s.curCrew.tr = none →
  ∀ as, s.checkWants (s.semWants f) 4 (Req.atom 4) .load = .ok as → s.mustHold (as.map fun p => (p.2, 4)) = false →
  (let r := semSteps s.curCrew f.b.toNat s.mem as
   ∃ t, exec (.semwait f) s = .next t ∧ t.mem = r.1 ∧
    (∀ x ∈ r.2, (t.curCrew.fibre x.1).reg f.d.toNat = x.2.1 ∧
      if x.2.2 = true ∨ f.mbit 0 = true then (t.curCrew.fibre x.1).pc = (s.curCrew.fibre x.1).pc + 1
      else (t.curCrew.fibre x.1).st = .waiting ∧ (t.curCrew.fibre x.1).pc = (s.curCrew.fibre x.1).pc ∧
        ∃ a ∈ as, a.1.slot = x.1 ∧ (t.curCrew.fibre x.1).wait = .sem a.2.ia) ∧
    ∀ k r', ¬(acts s f k ∧ r' = f.d.toNat) → (t.curCrew.fibre k).reg r' = (s.curCrew.fibre k).reg r') ∧
  ∀ s1, readied s true as = .ok s1 →
    let r := posts s.curCrew f.b.toNat s1.mem as
    ∃ t, exec (.sempost f) s = .next t ∧ t.mem = r.1 ∧ (∀ x ∈ r.2, (t.curCrew.fibre x.1).reg f.d.toNat = x.2) ∧
      (∀ k, k < 32 → s.cur.mask.getLsbD k = true → (t.curCrew.fibre k).pc = (s.curCrew.fibre k).pc + 1) ∧
      ∀ k r', ¬(acts s f k ∧ r' = f.d.toNat) → (t.curCrew.fibre k).reg r' = (s.curCrew.fibre k).reg r'

/-- A write fires the monitors of its lines and no other (R348): every write of memory does, and so does ST, for every fibre of every crew that has
no try open. -/
def Sys2Proof.Claims.MonitorsFire : Prop :=
  let fires (s t : State) (ia n : Nat) : Prop := ∀ b ci k l, (s.crew b ci).tr = none → ((s.crew b ci).fibre k).monitor = .armed l →
    ((t.crew b ci).fibre k).monitor = if l ∈ linesOf ia n then .fired else .armed l
  (∀ (s : State) (ag : Agent) (ia phys : Nat) (data : List Byte), fires s (s.storeBytes ag ia phys data) ia data.length) ∧
  ∀ (f : Fields) (s : State) (w : Want) (a : Acc), executing s = true → s.curCrew.tr = none → f.mb 10 2 ≠ 2 →
    s.checkWants (s.wants f) (sizeBytes f.size) (Req.store (sizeBytes f.size)) .store = .ok [(w, a)] →
    s.mustHold [(a, sizeBytes f.size)] = false → a.place.peer = none → ∃ t, exec (.st f) s = .next t ∧ fires s t a.ia (sizeBytes f.size)

/-- Monitors, which a write to their line fires, and semaphores (R347 to R349). -/
def Obligations.MonitorsAndSemaphores : Prop := Monitors ∧ MonitorsFire ∧ Semaphores

/-- WQPUSH, WQNOTE and WQPOP (R350 to R354): pushes store each fibre's 56 bytes with their position as SEQ, in slot order, and move TAIL
and PUB; WQNOTE publishes up to its value, within the ring; WQPOP takes the entry at HEAD once its SEQ is there. A queue that is
disabled, or closed, answers 2; a full or an empty one answers 1 with `.nb` and stalls or waits without. The hub's own accesses to a slot are
taken to be possible at once (R291, R333). -/
def Obligations.Queues : Prop := ∀ (f : Fields) (s : State),
  let fb (k : Nat) : Fibre := s.curCrew.fibre k
  -- WQPUSH
  (∀ (l : List (Nat × Nat)) s1, executing s = true → s.curCrew.tr = none → (∀ k, acts s f k → (fb k).acted = false) →
    (∀ w ∈ s.curCrew.partway, w.mask ≠ s.cur.mask) → l.map (·.1) = s.acting f → l ≠ [] →
    (∀ x ∈ l, s.queueFor ((fb x.1).pair f.a.toNat) true false = .ok x.2 ∧ s.entryAddr ((fb x.1).reg f.b.toNat) = none ∧
      (s.queue x.2).mode = false ∧ (s.queue x.2).en = true ∧ (s.queue x.2).closed = false ∧
      (l.countP fun y => y.2 == x.2) + ((s.queue x.2).tail - (s.queue x.2).head).toNat ≤ 2 ^ (s.queue x.2).log) →
    s.release (((s.acting f).head?).getD 0) = .ok s1 →
    let pushes (l : List (Nat × Nat)) : State := l.foldl (fun u x => u.push x.2 (s1.curBlock.scrN ((fb x.1).reg f.b.toNat).toNat 56)) s1
    (∀ l' x, l' ++ [x] <+: l → (pushes l').ownWait (((pushes l').queue x.2).slot ((pushes l').queue x.2).tail) 64 true = none) →
    let u := pushes l
    ∃ t, exec (.wqpush f) s = .next t ∧ t.mem = u.mem ∧ t.queues = u.queues ∧ (∀ x ∈ l, (t.curCrew.fibre x.1).reg f.d.toNat = 0) ∧
      ∀ k, k < 32 → s.cur.mask.getLsbD k = true → (t.curCrew.fibre k).pc = (fb k).pc + 1) ∧
  (∀ (u : State) q (data : List Byte) p, u.place ((u.queue q).slot (u.queue q).tail) = .ok p → p.peer = none →
    data.length = 56 →
    (u.iaWrite ((u.queue q).slot (u.queue q).tail) data).place ((u.queue q).slot (u.queue q).tail + 56) = .ok { p with phys := p.phys + 56 } →
    (u.queue q).ring % 64 = 0 → (u.push q data).bytes p.phys 64 = data ++ toBytes 8 (u.queue q).tail ∧
    (u.push q data).queue q = { u.queue q with tail := (u.queue q).tail + 1, pub := (u.queue q).tail + 1 }) ∧
  (∀ k q s1, Alone s f k → s.queueFor ((fb k).pair f.a.toNat) true false = .ok q → (s.queue q).mode = false →
    s.entryAddr ((fb k).reg f.b.toNat) = none → s.release k = .ok s1 →
    ((s.queue q).en = false ∨ (s.queue q).closed = true → ∃ t, exec (.wqpush f) s = .next t ∧ Answers s t k [(f.d.toNat, 2)] ∧
      t.mem = s1.mem ∧ t.queues = s.queues) ∧
    ((s.queue q).en = true → (s.queue q).closed = false → (s.queue q).full = true →
      if f.mbit 0 then ∃ t, exec (.wqpush f) s = .next t ∧ Answers s t k [(f.d.toNat, 1)] ∧ t.mem = s1.mem ∧ t.queues = s.queues
      else Stalls (.wqpush f) s s1 4)) ∧
  -- WQNOTE
  (∀ k q s1, Alone s f k → s.queueFor ((fb k).pair f.a.toNat) true false = .ok q → (f.mbit 0 = true ∨ (s.queue q).mode = true) →
    s.release k = .ok s1 →
    let d := s.queue q
    let v := (fb k).pair f.b.toNat
    let moves : Prop := d.en = true ∧ d.mode = true ∧ d.pub.toNat < v.toNat
    (moves → 2 ^ d.log < (v - d.head).toNat →
      exec (.wqnote f) s = s1.raise f (some k) (memFault causeBounds ((fb k).pair f.a.toNat) 0)) ∧
    (∀ d', d' = { d with pub := if d.en && d.mode && decide (d.pub.toNat < v.toNat) then v else d.pub, closed := d.closed || f.mbit 0 } →
      (moves → (v - d.head).toNat ≤ 2 ^ d.log) → ∃ t, exec (.wqnote f) s = .next t ∧ t.mem = s1.mem ∧
        t.queue q = d' ∧ (∀ p, p ≠ q → t.queue p = s.queue p) ∧ Answers s t k (pairWrites f.d.toNat d.head))) ∧
  -- WQPOP
  ∀ k q, Alone s f k → s.queueFor ((fb k).pair f.a.toNat) false false = .ok q → s.entryAddr ((fb k).reg f.b.toNat) = none →
    s.scrLocked s.cur.blk ((fb k).reg f.b.toNat).toNat 64 = false → s.ownWait ((s.queue q).slot (s.queue q).head) 64 false = none →
    let d := s.queue q
    let slot := s.iaBytes (d.ring + 64 * (d.head.toNat % 2 ^ d.log)) 64
    let there : Prop := d.head ≠ d.pub ∧ (ofBytes 64 (slot.drop 56) : DWord) = d.head
    let ended : Prop := d.en = false ∨ (d.closed = true ∧ d.head = d.pub)
    (ended → ∃ t, exec (.wqpop f) s = .next t ∧ Answers s t k [(f.d.toNat, 2)] ∧ t.mem = s.mem ∧ t.queues = s.queues) ∧
    (¬ended → there → ∃ t, exec (.wqpop f) s = .next t ∧ Answers s t k [(f.d.toNat, 0)] ∧ t.mem = s.mem ∧
      t.queue q = { d with head := d.head + 1 } ∧ t.curBlock.scrN ((fb k).reg f.b.toNat).toNat 64 = slot) ∧
    (¬ended → ¬there → ∃ t, exec (.wqpop f) s = .next t ∧ t.mem = s.mem ∧ t.queues = s.queues ∧
      if f.mbit 0 then Answers s t k [(f.d.toNat, 1)] else WaitsAt s t k (.queue q))

/-- TENQ and TDEP (R120, R121): a record whose PREDREM is 0 becomes eligible, or PREDREM counts up or down, as a release; the answer says
which; a full pool stalls (an entry of it is set aside for each record on its way in: log 43). -/
def Sys2Proof.Claims.TaskForms : Prop := ∀ (f : Fields) (s s1 : State) (k : Nat), Alone s f k →
  let ref := (s.curCrew.fibre k).pair f.a.toNat
  s.release k = .ok s1 →
  (∀ a, s.predrem ref false = .ok a →
    let p : BitVec 16 := ofBytes 16 (s1.bytes a.place.phys 2)
    (p ≠ 0 → ∃ t, exec (.tenq f) s = .next t ∧ Answers s t k [(f.d.toNat, 1)] ∧ t.eligible = s1.eligible ∧ t.mem = s1.mem) ∧
    (p = 0 → s1.pool.length + s1.arriving < 16384 → ∃ t, exec (.tenq f) s = .next t ∧ Answers s t k [(f.d.toNat, 0)] ∧
      t.eligible = s1.eligible ++ [{ ctx := s.curCtx, ref := ref }] ∧ t.mem = s1.mem) ∧
    (p = 0 → 16384 ≤ s1.pool.length + s1.arriving → StallsApart (.tenq f) s s1 4)) ∧
  (∀ e, s.predrem ref false = .error e → exec (.tenq f) s = s.raise f (some k) e) ∧
  ∀ a, s.predrem ref true = .ok a → s.mustHold [(a, 2)] = false →
    let p : BitVec 16 := ofBytes 16 (s1.bytes a.place.phys 2)
    let wrote (t : State) (v : BitVec 16) : Prop := t.mem = Sparse.putN memDefault s1.mem a.place.phys (toBytes 2 v)
    let answers (v : Word) (P : State → Prop) : Prop := ∃ t, exec (.tdep f) s = .next t ∧ Answers s t k [(f.d.toNat, v)] ∧ P t
    (f.mbit 0 = true → p = 0 ∨ p = 0xFFFF → answers (p.setWidth 32) fun t => t.mem = s1.mem ∧ t.eligible = s1.eligible) ∧
    (f.mbit 0 = true → p ≠ 0 → p ≠ 0xFFFF → answers (p.setWidth 32) fun t => wrote t (p + 1) ∧ t.eligible = s1.eligible) ∧
    (f.mbit 0 = false → p = 0 → answers 0 fun t => t.mem = s1.mem ∧ t.eligible = s1.eligible) ∧
    (f.mbit 0 = false → p = 1 → s1.pool.length + s1.arriving < 16384 → answers 1 fun t => wrote t 0 ∧
      t.eligible = s1.eligible ++ [{ ctx := s.curCtx, ref := ref }]) ∧
    (f.mbit 0 = false → p = 1 → 16384 ≤ s1.pool.length + s1.arriving → StallsApart (.tdep f) s s1 4) ∧
    (f.mbit 0 = false → 1 < p.toNat → answers (p.setWidth 32) fun t => wrote t (p - 1) ∧ t.eligible = s1.eligible)

/-- SVC and SVCQ (R355, R356): a request enters its queue stamped with its caller and pushed at TAIL, unless the queue is disabled or closed
(2), its call has a journal entry (1), or the queue is full (a stall); SVCQ delivers the 40 bytes and the word the journal holds for
the call, waits while it is CLAIMED, and withdraws a request that nothing has claimed. The hub's own accesses to the journal and the ring
are taken to be possible at once (R291, R333). -/
def Sys2Proof.Claims.ServiceForms : Prop := ∀ (f : Fields) (s : State) (k q : Nat), Alone s f k →
  let fb := s.curCrew.fibre k
  (∀ e, s.svcCheck f fb = .error e → exec (.svc f) s = s.raise f (some k) e) ∧
  (∀ s1, s.svcCheck f fb = .ok q → s.release k = .ok s1 →
    let v := Rq.stamped (ofBytes 512 (s1.curBlock.scrN (fb.reg f.b.toNat).toNat 64)) s.curCtx s.curTenant
    let d := s.queue q
    let answers (n : Word) (P : State → Prop) : Prop := ∃ t, exec (.svc f) s = .next t ∧ Answers s t k [(f.d.toNat, n)] ∧ P t
    (d.en = false ∨ d.closed = true → answers 2 fun t => t.requests = s.requests ∧ t.mem = s1.mem) ∧
    (d.en = true → d.closed = false → s1.journalWait q false = none → s1.journalOf q s.curCtx s.curTenant (Rq.callid v) ≠ none →
      answers 1 fun t => t.requests = s.requests ∧ t.mem = s1.mem) ∧
    (d.en = true → d.closed = false → s1.journalWait q false = none → s1.journalOf q s.curCtx s.curTenant (Rq.callid v) = none →
      (d.full = false → s1.ownWait (d.slot d.tail) 64 true = none) → if d.full then Stalls (.svc f) s s1 4
      else answers 0 fun t => t.requests = s.requests ++ [{ id := s1.nextId, q := q, bytes := v, pos := d.tail }] ∧
        t.queue q = { d with tail := d.tail + 1, pub := d.tail + 1 })) ∧
  (s.queueFor (fb.pair f.a.toNat) false true = .ok q →
    let a := (fb.reg f.c.toNat).toNat
    let call := fb.pair f.b.toNat
    a % 8 = 0 → a + 40 ≤ s.scrBytes → s.scrLocked s.cur.blk a 40 = false → s.journalWait q (f.mbit 0) = none →
    (s.answerCall q s.curCtx s.curTenant call (f.mbit 0) = none → ∃ t, exec (.svcq f) s = .next t ∧ t.mem = s.mem ∧
      WaitsAt s t k (.svcq q)) ∧
    ∀ u w res, s.answerCall q s.curCtx s.curTenant call (f.mbit 0) = some (u, w, res) → res.length = 40 → ∃ t p, exec (.svcq f) s = .next t ∧
      t.mem = u.mem ∧ t.requests = u.requests ∧ t.curBlock.scrN a 40 = res ∧ t.curCrew.pend = s.curCrew.pend ++ [p] ∧
      p.writes = [(k, [(f.d.toNat, w)])] ∧ p.replay = false ∧
      ∀ j, j < 32 → s.cur.mask.getLsbD j = true → (t.curCrew.fibre j).pc = (s.curCrew.fibre j).pc + 1) ∧
  ∀ ctx tenant call free,
    (∀ i, s.journalOf q ctx tenant call = some i →
      (field (s.journal q i) 8 2 = 1 → s.answerCall q ctx tenant call free = none) ∧
      (field (s.journal q i) 8 2 = 2 → ∃ u, s.answerCall q ctx tenant call free = some (u,
          BitVec.ofNat 32 (1 + 256 * field (s.journal q i) 128 8), toBytes 40 ((s.journal q i).extractLsb' 160 320)) ∧
        u.requests = s.requests ∧ (free = false → u.mem = s.mem))) ∧
    (s.journalOf q ctx tenant call = none → ∃ u, s.answerCall q ctx tenant call free = some (u, 2, List.replicate 40 0) ∧ u.mem = s.mem ∧
      ∀ r ∈ u.requests, r ∈ s.requests)

/-- Group 0x14 (R120, R121, R355, R356). -/
def Obligations.TasksAndServices : Prop := TaskForms ∧ ServiceForms

/-! ### Tries (16_speculation) -/

/-- TRY, COMMIT, ABORT, TSTAT and TCHK (R359, R370, R373 to R375): TRY shadows every register and makes the acting fibres members;
COMMIT makes the acting members wait; ABORT and TCHK abort members; a fibre that is no member raises TRY_MISUSE. With a commit step due a TRY
that is not converged stalls until it is done (R371). -/
def Sys2Proof.Claims.TryForms : Prop := ∀ (f : Fields) (s : State), executing s = true →
  (s.converged = false → s.curCrew.commitDue = false → exec (.tryOpen f) s = s.raise f none { cause := causeIllegalConvergence }) ∧
  (s.converged = false → s.curCrew.commitDue = true → Stalls (.tryOpen f) s s 2) ∧
  (s.converged = true → s.curTask.rec_.tryBit = false ∨ s.curCrew.tr ≠ none →
    exec (.tryOpen f) s = s.raise f none { cause := causeTryMisuse }) ∧
  (s.converged = true → s.curTask.rec_.tryBit = true → s.curCrew.tr = none →
    (s.actMask f = 0 → ∃ t, exec (.tryOpen f) s = .next t ∧ RegisterFrame s t f []) ∧
    (s.actMask f ≠ 0 → s.curCrew.pend ≠ [] → Stalls (.tryOpen f) s s 6) ∧
    (s.actMask f ≠ 0 → s.curCrew.pend = [] → ∃ t, exec (.tryOpen f) s = .next t ∧ FibresMoved s t f [f.d.toNat] ∧
      ({ t with blocks := s.blocks } : State) = s ∧ (∀ b, b ≠ s.cur.blk → t.block b = s.block b) ∧
      ({ t.curBlock with crews := s.curBlock.crews, tried := s.curBlock.tried } : Block) = s.curBlock ∧ t.curBlock.tried = true ∧
      (∀ k, k ≠ s.cur.crew → t.curBlock.crew k = s.curBlock.crew k) ∧
      (∀ k, acts s f k → (t.curCrew.fibre k).reg f.d.toNat = 0) ∧ t.curCrew.mode = s.curCrew.mode ∧
      t.curCrew.tr = some { crewMode := f.mbit 0, members := s.actMask f, code := f.d.toNat, target := s.cur.pc + f.x
                            shadow := s.curCrew.fibres.map (·.regs), openClk := (s.core s.curCore).clk.toNat })) ∧
  let m : Mask := match s.curCrew.tr with | some t => t.members | none => 0
  (s.actMask f &&& ~~~m ≠ 0 → ∀ p ∈ [Instr.commit f, .abort f, .tchk f], exec p s = s.raise f none { cause := causeTryMisuse }) ∧
  (s.actMask f &&& ~~~m = 0 →
    (∃ t, exec (.commit f) s = .next t ∧ t.mem = s.mem ∧ t.curCrew.tr = s.curCrew.tr ∧ ∀ k, k < 32 →
      (t.curCrew.fibre k).regs = (s.curCrew.fibre k).regs ∧ (s.cur.mask.getLsbD k = true →
        (acts s f k → (t.curCrew.fibre k).st = .waiting ∧ (t.curCrew.fibre k).wait = .commit ∧ (t.curCrew.fibre k).pc = (s.curCrew.fibre k).pc) ∧
        (¬acts s f k → (t.curCrew.fibre k).pc = (s.curCrew.fibre k).pc + 1))) ∧
    (∃ t, exec (.abort f) s = .next t ∧ t.mem = s.mem ∧ ∀ y, s.curCrew.tr = some y → ∀ k, k < 32 → y.members.getLsbD k = true →
      s.actMask f ≠ 0 → (y.crewMode = true ∨ acts s f k) → (t.curCrew.fibre k).pc = y.target ∧ (t.curCrew.fibre k).st = .runnable ∧
        (t.curCrew.fibre k).reg y.code = abortWord 7 (field f.x 0 8) ∧
        ∀ r, r ≠ y.code → (t.curCrew.fibre k).reg r = Sparse.get zeroReg ((y.shadow[k]?).getD []) r) ∧
    ∃ t, exec (.tchk f) s = .next t ∧ t.mem = s.mem ∧ ∀ y, s.curCrew.tr = some y → y.crewMode = false → ∀ k, acts s f k →
      match (s.acting f).find? (fun j => decide (j < k) && aliases f (s.curCrew.fibre j) (s.curCrew.fibre k)) with
      | some j => (t.curCrew.fibre k).pc = y.target ∧ (t.curCrew.fibre k).reg y.code = abortWord 8 j
      | none => (t.curCrew.fibre k).pc = (s.curCrew.fibre k).pc + 1 ∧ (t.curCrew.fibre k).regs = (s.curCrew.fibre k).regs) ∧
  ∃ t, exec (.tstat f) s = .next t ∧ RegisterFrame s t f [f.d.toNat] ∧ ∀ k, acts s f k →
    let v := (t.curCrew.fibre k).reg f.d.toNat
    match s.curCrew.tr with
    | none => v = 0
    | some y => if f.mbit 0 then v = y.members else v.getLsbD 31 = true ∧ v.getLsbD 30 = y.crewMode ∧ v.getLsbD 29 = y.members.getLsbD k ∧
        (v.extractLsb' 20 9).toNat = y.buf.length % 512 ∧ (v.extractLsb' 12 8).toNat = y.reads.length % 256

/-- The buffer after one store of a member after another; none when it is full for one of them (R363, R365). -/
def Sys2Proof.Claims.buffered (s : State) (f : Fields) (y : Try) (as : List (Want × Acc)) : Option Try :=
  as.foldlM (fun y x => y.addStore x.1.slot x.2.ia (handleKey s.curCtx (refIndex x.1.ref)) (storeData f.size f.d.toNat (s.curCrew.fibre x.1.slot))) y
/-- The read set after one load of a member after another; none when it is full for one of them (R362, R365). -/
def Sys2Proof.Claims.tracked (s : State) (y : Try) (as : List (Want × Acc)) : Option Try :=
  as.foldlM (fun y x => y.addRead x.1.slot (x.2.ia / 64) (handleKey s.curCtx (refIndex x.1.ref))) y

/-- Loads and stores by any number of members (R362, R363, R365, R367): with every access granted, LD and LDQ take each member's bytes, buffered ones
first, and add their lines to the read set in slot order; ST and STQ go to the buffer in slot order and not to memory. A lone member for which
the read set or the buffer is full aborts, with READ_FULL or WRITE_FULL. -/
def Sys2Proof.Claims.MemberAccesses : Prop := ∀ (f : Fields) (s : State) (y : Try) (as : List (Want × Acc)), executing s = true →
  s.curCrew.tr = some y → (∀ k, acts s f k → y.members.getLsbD k = true) →
  let n := sizeBytes f.size
  let aborts (i : Instr) (k code : Nat) : Prop := ∃ t, exec i s = .next t ∧ t.mem = s.mem ∧ (t.curCrew.fibre k).pc = y.target ∧
    (t.curCrew.fibre k).reg y.code = abortWord code 0
  (∀ p ∈ [(Instr.ld f, s.wants f), (.ldq f, s.wantsSpan f)], f.mb 10 2 ≠ 1 → s.tryRowDirect p.2 = false →
    s.checkWants p.2 n (Req.load n) .load = .ok as →
    (∀ u, tracked s y as = some u → ∃ t q, exec p.1 s = .next t ∧ WentOn s t ∧ t.mem = s.mem ∧ t.curCrew.tr = some u ∧
      t.curCrew.pend = s.curCrew.pend ++ [q] ∧ q.writes = as.map fun x => (x.1.slot, loadWrites f.size f.d.toNat
        ((s.bytes x.2.place.phys n).zipIdx.map fun b => (y.seen x.1.slot (x.2.ia + b.2)).getD b.1))) ∧
    ∀ k, s.acting f = [k] → tracked s y as = none → aborts p.1 k 3) ∧
  ∀ p ∈ [(Instr.st f, s.wants f), (.stq f, s.wantsSpan f)], f.mb 10 2 ≠ 2 → s.tryRowDirect p.2 = false →
    s.checkWants p.2 n (Req.store n) .store = .ok as →
    (∀ u, buffered s f y as = some u → ∃ t, exec p.1 s = .next t ∧ WentOn s t ∧ t.mem = s.mem ∧ t.curCrew.tr = some u ∧
      t.curCrew.pend = s.curCrew.pend) ∧
    ∀ k, s.acting f = [k] → buffered s f y as = none → aborts p.1 k 2

/-- Members' loads and stores (R362, R363, R365): a store goes to the buffer and not to memory, where its member, and in `.crew` mode every
member, sees it; a load takes buffered bytes first and adds its line to the read set. -/
def Sys2Proof.Claims.TryBuffer : Prop :=
  (∀ (t u : Try) (slot ia h : Nat) (data : List Byte), ia % 16 + data.length ≤ 16 → (t.crewMode = true → ∀ e ∈ t.buf, e.slot = 0) →
    t.addStore slot ia h data = some u →
    (∀ n, n < data.length → u.seen slot (ia + n) = data[n]?) ∧
    (∀ a, ¬(ia ≤ a ∧ a < ia + data.length) → u.seen slot a = t.seen slot a) ∧
    (∀ o a, o ≠ slot → t.crewMode = false → u.seen o a = t.seen o a) ∧ u.members = t.members ∧ u.reads = t.reads) ∧
  (∀ (t u : Try) (slot line h : Nat), slot < 32 → t.addRead slot line h = some u → u.buf = t.buf ∧ u.members = t.members ∧
    ∃ r ∈ u.reads, r.line = line ∧ r.members.getLsbD slot = true) ∧
  ∀ (f : Fields) (s : State) (k : Nat) (y u : Try) (w : Want) (a : Acc), executing s = true → s.curCrew.tr = some y → s.acting f = [k] →
    y.members.getLsbD k = true → s.tryRowDirect (s.wants f) = false →
    let n := sizeBytes f.size
    (f.mb 10 2 ≠ 2 → s.checkWants (s.wants f) n (Req.store n) .store = .ok [(w, a)] →
      y.addStore k a.ia (handleKey s.curCtx (refIndex w.ref)) (storeData f.size f.d.toNat (s.curCrew.fibre k)) = some u →
      ∃ t, exec (.st f) s = .next t ∧ WentOn s t ∧ t.mem = s.mem ∧ t.curCrew.tr = some u) ∧
    (f.mb 10 2 ≠ 1 → s.checkWants (s.wants f) n (Req.load n) .load = .ok [(w, a)] →
      y.addRead k (a.ia / 64) (handleKey s.curCtx (refIndex w.ref)) = some u →
      ∃ t p, exec (.ld f) s = .next t ∧ WentOn s t ∧ t.mem = s.mem ∧ t.curCrew.tr = some u ∧ t.curCrew.pend = s.curCrew.pend ++ [p] ∧
        p.writes = [(k, loadWrites f.size f.d.toNat ((s.bytes a.place.phys n).zipIdx.map fun x => (y.seen k (a.ia + x.2)).getD x.1))])

/-- The commit step and the time limit (R366, R370): when every member waits at a COMMIT, each buffered byte is performed at one moment, the
try closes, and every member goes on with the member mask in its COMMIT's register; a try open for 2^20 clk aborts with LONG. -/
def Sys2Proof.Claims.TryEnds : Prop := ∀ (s : State) (b ci : Nat) (y : Try), (s.crew b ci).tr = some y →
  (∀ s1, (s.crew b ci).commitDue = true → s.writeBacks (.commit b ci (s.block b).core) b (List.range 8) = .ok s1 →
    (∀ e ∈ y.buf, ∃ p, s1.checkPlace (16 * e.block) 1 .store = .ok p) →
    (∀ r ∈ byteRuns y.commitBytes, s1.lineLocked r.1 r.2.length = false ∧ ∃ p, s1.checkPlace r.1 r.2.length .store = .ok p) →
    let runs := (byteRuns y.commitBytes).filterMap fun r => match s1.place r.1 with | .ok p => some (p, r.1, r.2) | .error _ => none
    ∃ t, exec (.commitStep b ci) s = .next t ∧ (t.crew b ci).tr = none ∧
      t.mem = runs.foldl (fun m r => if r.1.peer.isSome then m else Sparse.putN memDefault m r.1.phys r.2.2) s1.mem ∧
      ∀ k, k < 32 → y.members.getLsbD k = true → ((t.crew b ci).fibre k).st = .runnable ∧
        ((t.crew b ci).fibre k).pc = ((s.crew b ci).fibre k).pc + 1 ∧
        ((t.crew b ci).fibre k).reg ((s.crew b ci).fibre k).waitF.d.toNat = y.members) ∧
  ((s.crew b ci).commitDue = false → exec (.commitStep b ci) s = .next s) ∧
  (2 ^ 20 ≤ (s.core (s.block b).core).clk.toNat - y.openClk → y.members ≠ 0 → ∃ t, exec (.tryLongTimeout b ci) s = .next t ∧
    (t.crew b ci).tr = none ∧ t.mem = s.mem ∧ ∀ k, k < (s.crew b ci).fibres.length → k < 32 → y.members.getLsbD k = true →
      ((t.crew b ci).fibre k).pc = y.target ∧ ((t.crew b ci).fibre k).reg y.code = abortWord 10 0) ∧
  ((s.core (s.block b).core).clk.toNat - y.openClk < 2 ^ 20 → exec (.tryLongTimeout b ci) s = .next s)

/-- Group 0x12, and what members do until they leave the try (R359 to R375). -/
def Obligations.Tries : Prop := TryForms ∧ TryBuffer ∧ MemberAccesses ∧ TryEnds

/-! ### Events of the cores (06_fibres_and_issue, 05_instruction_word, 15_synchronisation) -/

/-- RESULT_WRITEBACK, CREDIT_RELOAD and CREW_ROTATION (R87, R106, R108, R166): a result that is due is written once, its flags merged where
no later SETMODE has overwritten them; credits are reloaded only while no ready crew has any; a count of 4096 owes each other strand
an issue. -/
def Sys2Proof.Claims.CoreEvents : Prop := ∀ (s : State) (b ci : Nat),
  let c := s.crew b ci
  (∀ id p, s.crewLands b ci = true → (∀ q ∈ c.pendTraps, q.faulting ≠ some p.id) → c.pend.find? (·.id == id) = some p → p.op = none → p.poison = none → p.fpTrap = none →
    ∃ t, exec (.resultWriteback b ci id) s = .next t ∧ t.mem = s.mem ∧ (t.crew b ci).pend = c.pend.filter (·.id != p.id) ∧
      (∀ x ∈ p.writes, (∀ y ∈ p.writes, y.1 = x.1 → y = x) → x.1 < c.fibres.length → ∀ w ∈ x.2, (∀ u ∈ x.2, u.1 = w.1 → u = w) →
        ((t.crew b ci).fibre x.1).reg w.1 = w.2) ∧
      (∀ k r, (∀ x ∈ p.writes, x.1 = k → ∀ w ∈ x.2, w.1 ≠ r) → ((t.crew b ci).fibre k).reg r = (c.fibre k).reg r) ∧
      (∀ k, ((t.crew b ci).fibre k).pc = (c.fibre k).pc ∧ ((t.crew b ci).fibre k).st = (c.fibre k).st) ∧
      (∀ e, e < 5 → ((t.crew b ci).mode.getLsbD (10 + e) = true ↔
        c.mode.getLsbD (10 + e) = true ∨ (p.flagMask.getLsbD e = true ∧ ∃ x ∈ p.excs, x.2.getLsbD e = true))) ∧
      ∀ j, ¬(10 ≤ j ∧ j < 15) → (t.crew b ci).mode.getLsbD j = c.mode.getLsbD j) ∧
  (∀ id p, c.pend.find? (·.id == id) = some p → p.op ≠ none → exec (.resultWriteback b ci id) s = .next s) ∧
  (∀ core, (∀ x ∈ s.crewsOn core, s.ready x.1 x.2.1 = true → (s.crew x.1 x.2.1).credit = 0) → ∃ t, exec (.creditReload core) s = .next t ∧
    t.mem = s.mem ∧ ((s.blocks.any fun k => k.bid == b) = true → (s.block b).core = core → ci < (s.block b).crews.length → c.live = true →
      (t.crew b ci).credit = 2 ^ c.level ∧ (t.crew b ci).fibres = c.fibres)) ∧
  (∀ core, (∃ x ∈ s.crewsOn core, s.ready x.1 x.2.1 = true ∧ 0 < (s.crew x.1 x.2.1).credit) → exec (.creditReload core) s = .next s) ∧
  (4096 ≤ c.rot → ∃ t, exec (.crewRotation b ci) s = .next t ∧ t.mem = s.mem ∧ (t.crew b ci).rot = 0 ∧ (t.crew b ci).fibres = c.fibres ∧
    ∀ k ∈ c.places, (∃ j ∈ c.places, j < k) → BitVec.ofNat 32 k ∈ (t.crew b ci).rotating) ∧
  (c.rot < 4096 → exec (.crewRotation b ci) s = .next s)

/-- INSTRUCTION_FETCH (R81): the word of the strand that issues next is the one in the instruction cache afterwards, and nothing that
software sees differs; a failure is raised for that strand, precisely. -/
def Sys2Proof.Claims.Fetches : Prop := ∀ (s : State) (b ci k : Nat), s.hasStrand b ci = true → (s.crew b ci).nextPlace = some k →
  (∀ w u, s.fetch b k false = .ok (w, u) → exec (.instructionFetch b ci) s = .next u ∧ u.mem = s.mem ∧ u.blocks = s.blocks ∧
    ((s.block b).core < s.cores.length → ∃ e ∈ (u.core (s.block b).core).icache, e.2.2 = w)) ∧
  (∀ e, s.fetch b k false = .error e → e.cause ≠ causeWait → (s.crew b ci).tr = none → e.cause.toNat < 0x10 →
    RecordFits s (s.task (s.block b).task).ctx → ∃ t, exec (.instructionFetch b ci) s = .next t ∧
    ∀ j, j < 32 → ((s.crew b ci).strandAt k).getLsbD j = true → ((t.crew b ci).fibre j).st = .parked ∧
      ((t.crew b ci).fibre j).pc = ((s.crew b ci).fibre j).pc)

/-- WAITER_RETRY and MONWAIT_TIMEOUT (R268, R335, R349): a WAITC's fibre goes on once its counter is at most n and waits at its PC until
then; a MONWAIT's fibre receives 0 once its monitor has fired, 2 when its monitor was lost, and 1 when its deadline has passed first. -/
def Sys2Proof.Claims.WaitEvents : Prop := ∀ (s : State) (b ci k : Nat), s.crewMoves b ci = true → s.fatalDue b ci = false →
  (s.crew b ci).goes k = true → k < 32 →
  let a := (s.crew b ci).fibre k
  let after (t : State) : Fibre := (t.crew b ci).fibre k
  a.st = .waiting → (s.crew b ci).tr = none → a.waitF.guard = none → (s.crew b ci).fibres.length = 32 →
  (∀ cls n, a.wait = .counter cls n → a.waitF.mdv = cls → a.waitF.xv = n → ∃ t, exec (.waiterRetry b ci k) s = .next t ∧ t.mem = s.mem ∧
    (after t).regs = a.regs ∧ if ((s.crew b ci).counters[cls]?).getD 0 ≤ n then (after t).st = .runnable ∧ (after t).pc = a.pc + 1
      else (after t).st = .waiting ∧ (after t).wait = .counter cls n ∧ (after t).pc = a.pc) ∧
  (∀ ln d, a.wait = .mon ln d →
    (a.monitor = .fired → ∃ t, exec (.waiterRetry b ci k) s = .next t ∧ t.mem = s.mem ∧ (after t).st = .runnable ∧ (after t).pc = a.pc + 1 ∧
      (after t).reg a.waitF.d.toNat = 0 ∧ (after t).monitor = .clear) ∧
    (a.monitor = .clear → ∃ t, exec (.waiterRetry b ci k) s = .next t ∧ t.mem = s.mem ∧ (after t).st = .runnable ∧ (after t).pc = a.pc + 1 ∧
      (after t).reg a.waitF.d.toNat = 2) ∧
    (∀ l, a.monitor = .armed l → exec (.waiterRetry b ci k) s = .next s)) ∧
  (∀ ln d, a.wait = .mon ln (some d) → a.monitor ≠ .fired → d ≤ s.devTime.toNat → ∃ t, exec (.monwaitTimeout b ci k) s = .next t ∧ t.mem = s.mem ∧
    (after t).st = .runnable ∧ (after t).pc = a.pc + 1 ∧ (after t).reg a.waitF.d.toNat = 1 ∧ (after t).monitor = .clear) ∧
  ∀ ln d, a.wait = .mon ln (some d) → s.devTime.toNat < d → exec (.monwaitTimeout b ci k) s = .next s

/-- What a core does between instructions (R81, R87, R106, R108, R335). -/
def Obligations.IssueEvents : Prop := CoreEvents ∧ Fetches ∧ WaitEvents

/-! ### Engines at work (12_async_engines, 13_matrix_and_sketch, 19_interruption) -/

/-- ENGINE_OPERATION_WORK (R255, R259, R260): one unit of a copy performs one move, in the scratchpad or, outside PK-7 mode, in memory, and the
last one ends the operation with the count of its sectors. -/
def Sys2Proof.Claims.CopyWork : Prop := ∀ (s : State) (id : Nat) (o : EngineOp) (mems : List MemOperand) (todo done : List Move),
  s.op id = some o → o.id = id → (o.cls = 0 ∨ o.cls = 2) → (o.phase = .queued ∨ o.phase = .working) → o.recheck = false → s.resident_ o.blk = true →
  o.work = .copy mems todo done →
  exec (.engineOperationWork id 0) s = .next s ∧
  (∀ m r a b' a', todo = m :: r → m.src = .scr a → m.dst = .scr b' a' → s.resident_ b' = true → (s.block o.blk).scrPoisoned a m.n = false →
    s.scrLocked b' a' m.n = false → ∃ t, exec (.engineOperationWork id 1) s = .next t ∧ t.mem = s.mem ∧
      (t.block b').scrN a' m.n = (s.block o.blk).scrN a m.n ∧
      t.op id = some { o with work := .copy mems r (done ++ [m]), phase := .working, count := sectorsOf mems (done ++ [m]) }) ∧
  (∀ m r k off k' off' a a', todo = m :: r → m.src = .mem k off → m.dst = .mem k' off' →
    (s.ctx o.ctx).compat = false → s.opAccess o ((mems[k]?).getD {}) off m.n .load m.dst.sector = .ok a →
    (s.note a false o.stream).opAccess o ((mems[k']?).getD {}) off' m.n .store m.dst.sector = .ok a' →
    a'.place.peer = none → s.lineLocked a'.ia m.n = false → ∃ t, exec (.engineOperationWork id 1) s = .next t ∧
      t.mem = Sparse.putN memDefault s.mem a'.place.phys (s.bytes a.place.phys m.n) ∧
      ∃ o', t.op id = some o' ∧ o'.work = .copy mems r (done ++ [m]) ∧ o'.phase = .working) ∧
  (todo = [] → ∃ t o', exec (.engineOperationWork id 1) s = .next t ∧ t.mem = s.mem ∧ t.op id = some o' ∧ o'.phase = .ended ∧
    o'.count = sectorsOf mems done ∧ o'.status = o.status ∧ o'.locked = [])

/-- ME_LOCK_PHASE, ME_MULTIPLY and ME_OPERAND_CONSUMED (R279, R290, R291): an engine takes its operations in order; a product's operands are
read and their lines locked, then its elements are written, and every lock is released at the operand-consumed point. -/
def Sys2Proof.Claims.MatrixPhases : Prop := ∀ (s : State) (id : Nat) (o : EngineOp), s.op id = some o → o.id = id → o.cls = 3 → o.recheck = false →
  s.resident_ o.blk = true →
  (o.phase = .queued → s.engineFirst o = false → exec (.meLockPhase id) s = .next s) ∧
  (o.phase = .queued → s.engineFirst o = true → (∀ p, o.work ≠ .product p) → ∃ t, exec (.meLockPhase id) s = .next t ∧ t.mem = s.mem ∧
    t.op id = some { o with phase := .locked }) ∧
  (∀ p p' as, o.phase = .queued → s.engineFirst o = true → o.work = .product p → s.readProduct o p = .ok (p', as) →
    ∃ t o', exec (.meLockPhase id) s = .next t ∧ t.mem = s.mem ∧ t.op id = some o' ∧ o'.work = .product p' ∧ o'.phase = .locked ∧
      ∀ a ∈ as, (a.ia / 64) ∈ o'.memLocks) ∧
  (o.phase = .locked → ∃ t, exec (.meMultiply id) s = .next t ∧ t.mem = s.mem ∧ t.op id = some { o with phase := .multiplied }) ∧
  (o.phase = .multiplied →
    (∀ a n, o.work = .accz a n → a % 64 = 0 → ∃ t o', exec (.meOperandConsumed id) s = .next t ∧ t.mem = s.mem ∧ t.op id = some o' ∧
      o'.phase = .ended ∧ o'.count = n / 32 ∧ ∀ x, (t.block o.blk).accWord x =
        if a ≤ x ∧ x < a + n / 4 * 4 then 0 else (s.block o.blk).accWord x) ∧
    ∀ p, o.work = .product p → ((p.writes (s.block o.blk)).map fun w => w.1 / 4).Nodup → ∃ t o', exec (.meOperandConsumed id) s = .next t ∧
      t.mem = s.mem ∧ t.op id = some o' ∧ o'.phase = .ended ∧ o'.locked = [] ∧ o'.memLocks = [] ∧
      (∀ w ∈ p.writes (s.block o.blk), w.2.2 = false → (t.block o.blk).accWord w.1 = w.2.1) ∧
      ∀ x, (∀ w ∈ p.writes (s.block o.blk), w.1 / 4 ≠ x / 4) → (t.block o.blk).accWord x = (s.block o.blk).accWord x)

/-- What a product writes (R286 to R288, R294): each element of C goes to its own address; the blocks of K that are kept are added in ascending
order, onto 0 with `.z` and onto the old word without; an integer block is added exactly and then clamped or wrapped; a block of finite floats is
summed exactly, scaled, rounded once to F32 with RNE, and added with one more rounding. -/
def Sys2Proof.Claims.ProductValues : Prop := ∀ (p : Product) (b : Block),
  (∀ m n w, m < p.m → n < p.n → p.element (b.accWord (p.addr m n)) m n = some w →
    (p.addr m n, w, p.badB || (p.badA[m]?).getD false) ∈ p.writes b) ∧
  (∀ x ∈ p.writes b, ∃ m n, m < p.m ∧ n < p.n ∧ x.1 = p.addr m n ∧ p.element (b.accWord x.1) m n = some x.2.1) ∧
  (∀ m n old, (p.keepN[n / 16]?).getD false = false → p.element old m n = if p.z then some 0 else none) ∧
  (∀ m n old, (p.keepN[n / 16]?).getD false = true →
    ({ p with kblk := 0 } : Product).element old m n = some (if p.z then 0 else old) ∧
    ∀ k c, ({ p with kblk := k } : Product).element old m n = some c → ({ p with kblk := k + 1 } : Product).element old m n =
      some (if (p.keepK[k]?).getD false then
        p.step ((p.rowsA[m]?).getD []) ((p.rowsB[n]?).getD []) ((p.scalesA[m]?).getD []) ((p.scalesB[n]?).getD []) c k else c)) ∧
  ∀ (ra rb sa sb : List Nat) (c : Word) (j : Nat),
    let ps := (chunk ra (mtKb p.fa) j).zip (chunk rb (mtKb p.fa) j)
    (mtInt p.fa = true → let x : Int := c.toInt + (ps.map fun q => mtElemInt p.fa q.1 * mtElemInt p.fa q.2).sum
      let r := (p.step ra rb sa sb c j).toInt
      if p.sat then r = clamp (-(2 ^ 31)) (2 ^ 31 - 1) x else (r - x) % 2 ^ 32 = 0) ∧
    ∀ (ts : List (Bool × Nat × Int)) (e0 : Int), mtInt p.fa = false →
      (mtMx p.fa = true → (sa[j]?).getD 127 ≠ 255 ∧ (sb[j]?).getD 127 ≠ 255) →
      (ps.map fun q => mulF (decodeF (mtType p.fa) q.1) (decodeF (mtType p.fb) q.2)) = (ts.map fun t => some (.fin t.1 t.2.1 t.2.2)) →
      (∀ q ∈ ps, (decodeF (mtType p.fa) q.1).isNan = false ∧ (decodeF (mtType p.fb) q.2).isNan = false) → (∀ t ∈ ts, e0 ≤ t.2.2) →
      let x : Int := (ts.map fun t => (if t.1 then -1 else 1) * ((t.2.1 * 2 ^ (t.2.2 - e0).toNat : Nat) : Int)).sum
      let shift : Int := if mtMx p.fa then ((sa[j]?).getD 127 : Int) + ((sb[j]?).getD 127 : Nat) - 254 else 0
      x ≠ 0 → p.step ra rb sa sb c j = BitVec.ofNat 32 (FEnv.plain.add 8 false (decodeF 8 c.toNat)
        (decodeF 8 (roundF 8 1 false (x < 0) x.natAbs (e0 + shift)).bits)).bits

/-- ENGINE_OP_RETIRE and ENGINE_FATAL_DELIVERY (R251, R253, R254, R258): an ended operation retires in class order, its counter falls by one and its
stamp's SEQ rises by the count while STATUS becomes the greater; a fatal fault is raised in the strand that issues next. -/
def Sys2Proof.Claims.Retirement : Prop := ∀ (s : State),
  (∀ id o, s.op id = some o → o.phase = .ended → o.unacked = 0 → o.pendRec = none → s.inClassOrder o = true → s.fatalFirst o.blk o.crew = false →
    s.resident_ o.blk = true → o.cls ≠ 1 → (∀ a b c d e m r, o.work ≠ .sksel a b c d e m r) →
    let retired (t : State) : Prop := t.ops = s.ops.filter (·.id != o.id) ∧ (o.counted = true →
      ((t.crew o.blk o.crew).counters[o.cls]?).getD 0 = (((s.crew o.blk o.crew).counters[o.cls]?).getD 0) - 1)
    (o.stamp = none → ∃ t, exec (.engineOpRetire id) s = .next t ∧ t.mem = s.mem ∧ retired t) ∧
    ∀ m a, o.stamp = some m → o.restamp = false → s.opAccess o m (refOff m.ref) 8 .load (refOff m.ref) = .ok a →
      s.lineLocked a.ia 8 = false →
      let old : DWord := ofBytes 64 (s.bytes a.place.phys 8)
      ∃ (t : State) (new : DWord), exec (.engineOpRetire id) s = .next t ∧ retired t ∧ t.mem = Sparse.putN memDefault s.mem a.place.phys (toBytes 8 new) ∧
        new.toNat % 2 ^ 56 = (old.toNat + o.count) % 2 ^ 56 ∧ (o.status < 256 → new.toNat / 2 ^ 56 = max (old.toNat / 2 ^ 56) o.status)) ∧
  (∀ id o, s.op id = some o → (o.phase ≠ .ended ∨ 0 < o.unacked ∨ s.inClassOrder o = false) → exec (.engineOpRetire id) s = .next s) ∧
  ∀ b ci e rest k, (s.crew b ci).fatals = e :: rest → s.fatalDue b ci = true → (s.crew b ci).tr = none → (s.crew b ci).pend = [] →
    (s.crew b ci).frame = none → e.cause = causeEngineFatal → (s.task (s.block b).task).rec_.fpol = 2 →
    RecordFits s (s.task (s.block b).task).ctx → (s.crew b ci).nextPlace = some k → (s.crew b ci).strandAt k ≠ 0 →
    let m := (s.crew b ci).strandAt k
    ∃ t, exec (.engineFatalDelivery b ci) s = .next t ∧ (t.crew b ci).fatals = rest ∧
      (t.crew b ci).frame = some { cause := causeEngineFatal, src := 1, slot := e.slot, ref := e.ref, arg0 := e.arg0, set := m } ∧
      ∀ j, j < 32 → m.getLsbD j = true → ((t.crew b ci).fibre j).pc = (s.task (s.block b).task).rec_.hpc ∧
        ((t.crew b ci).fibre j).framePc = ((s.crew b ci).fibre j).pc

/-- COLL_CHUNK_ARRIVAL, COLL_TIMEOUT, COLLX_TIMEOUT and RINGLIST (R271, R274, R276, R431, R441, R442): chunks of a live ring are kept, others
dropped, and each is acknowledged when it is; a step's wait beyond TMO ends the operation TIMEOUT and its ring FAILED with a record. -/
def Sys2Proof.Claims.CollectiveEvents : Prop := ∀ (s : State),
  (∀ (c : Chunk) r, s.ringOf c.ringId c.epoch = some r → ∃ t, exec (.collChunkArrival c) s = .next t ∧ t.mem = s.mem ∧
    t.outbox = s.outbox ++ [.writeDone] ∧ t.chunks = if r.marker = true ∨ r.st = .failed then s.chunks else s.chunks ++ [c]) ∧
  (∀ (c : Chunk), s.ringOf c.ringId c.epoch = none → 64 ≤ s.chunks.countP (fun x => (s.ringOf x.ringId x.epoch).isNone) →
    exec (.collChunkArrival c) s = .next s) ∧
  (∀ id o kind ty count buf stage step at_ part, s.op id = some o → o.work = .coll kind ty count buf stage step (some at_) part → o.phase = .working →
    let ring := BitVec.ofNat 32 o.ring
    let seq := ((s.ringOf ring o.epoch).map (·.count)).getD 0
    (s.devTime.toNat < at_ + 1000 * o.tmo → exec (.collTimeout id) s = .next s) ∧
    (at_ + 1000 * o.tmo ≤ s.devTime.toNat → (∀ c ∈ s.chunks, ¬(c.ringId = ring ∧ c.epoch = o.epoch ∧ c.seq = seq ∧ c.step = step)) →
      ∃ t o', exec (.collTimeout id) s = .next t ∧ t.op id = some o' ∧ o'.phase = .ended ∧ o'.status = max o.status 1 ∧
        (∀ r, s.ringOf ring o.epoch = some r → ∃ r', t.ringOf ring o.epoch = some r' ∧ r'.st = .failed ∧
          r'.silent = (o.pos + o.members.length - 1) % o.members.length) ∧
        (RecordFits s o.ctx → (∀ r ∈ s.records, r.ctx ≠ o.ctx) → (s.ctx o.ctx).trlog ≠ 0 → (t.ctx o.ctx).trprod = (s.ctx o.ctx).trprod + 1))) ∧
  (∀ id o v round at_, s.op id = some o → (∀ x ∈ s.ops, x.id = id → x = o) → o.work = .collx v round at_ → o.phase ≠ .ended →
    (s.devTime.toNat < at_ → exec (.collxTimeout id) s = .next s) ∧
    (at_ ≤ s.devTime.toNat → ∃ t o', exec (.collxTimeout id) s = .next t ∧ t.op id = some o' ∧ o'.phase = .ended ∧ o'.status = max o.status 1 ∧
      o'.count = 0 ∧ ∃ r, t.ringOf (Rr.ring v) (Rr.epoch v) = some r ∧ r.marker = true)) ∧
  (∀ src v, (Rr.sealed v = false ∨ src = s.latigo.pbr) → exec (.ringlist src v) s = .next s) ∧
  ∀ src v o, Rr.sealed v = true → src ≠ s.latigo.pbr → s.latigo.isFm = false → s.latigo.fmValid = true → src = s.latigo.fmPbr →
    s.collxOf v 0 = none → s.collxOf v 1 = some o → ∃ t, exec (.ringlist src v) s = .next t ∧ t.mem = s.mem ∧
      ∃ o' ∈ t.ops, o'.id = o.id ∧ o'.phase = .ended ∧ o'.count = 1

/-- ROWOPEN_SWAP_DONE (R106, R246): once the swap is complete and the strand that stands at the ROWOPEN is the one to issue next, the instruction is
executed again in full, with its own word: a row that can now be opened is held, and the crew waits for it no longer. A wait whose fibres have
left the PC is over. -/
def Sys2Proof.Claims.SwapDone : Prop := ∀ (s : State) (b ci : Nat) (w : RowWait), (s.crew b ci).rowWait = some w → (s.crew b ci).tr = none →
  s.crewMoves b ci = true → s.fatalDue b ci = false → (s.crew b ci).nextEntry = none →
  let m := (s.crew b ci).strandAt w.pc.toNat
  let f := w.f
  let u : State := { s with cur := { blk := b, crew := ci, mask := m, pc := w.pc, word := w.word } }
  (s.crew b ci).trapWaits m = false →
  (m &&& w.mask = 0 → ∃ t, exec (.rowopenSwapDone b ci) s = .next t ∧ t.mem = s.mem ∧ (t.crew b ci).rowWait = none ∧
    (t.crew b ci).fibres = (s.crew b ci).fibres) ∧
  (m &&& w.mask ≠ 0 → (s.crew b ci).nextPlace ≠ some w.pc.toNat → exec (.rowopenSwapDone b ci) s = .next s) ∧
  ∀ (a : Acc) (h k l : Nat), m &&& w.mask ≠ 0 → (s.crew b ci).nextPlace = some w.pc.toNat → (u.acting f).head? = some l → u.curBlock.holds ≠ [] →
    u.rowCheck ((u.curCrew.fibre l).pair f.a.toNat) (refOff ((u.curCrew.fibre l).pair f.a.toNat) + f.x.toInt) = .ok a →
    u.rowAnswer u.curBlock (a.ia / 1024) a.place (f.mbit 0) = .opens h k → h < u.curBlock.holds.length →
    ∃ t p, exec (.rowopenSwapDone b ci) s = .next t ∧ t.mem = s.mem ∧ (t.crew b ci).rowWait = none ∧ ((t.block b).hold h).held = true ∧
      ((t.block b).hold h).row = a.ia / 1024 ∧ (t.crew b ci).pend = (s.crew b ci).pend ++ [p] ∧ p.pc = w.pc ∧ p.word = w.word ∧
      p.writes = (u.acting f).map (fun j => (j, [(f.d.toNat, (t.block b).grant h)])) ∧
      ∀ j, (t.crew b ci).fibres.length = 32 → j < 32 → m.getLsbD j = true → ((t.crew b ci).fibre j).pc = ((s.crew b ci).fibre j).pc + 1

/-- The engines between instructions (R253 to R260, R271 to R276, R290, R441). -/
def Obligations.EngineEvents : Prop := CopyWork ∧ MatrixPhases ∧ ProductValues ∧ Retirement ∧ CollectiveEvents ∧ SwapDone

/-! ### Submissions and the hub (02_describing_work, 03_submission_and_services, 04_placement) -/

/-- SUBMIT_DMWR, WIN_PLAIN_WRITE, STATE_ERR_CLEAR and BINDING_WRITE (R38 to R40, R43): a 128-byte deferred write to a bound page is accepted
with OUT raised, told to retry, or unsupported; a plain write sets ERR; EN rises only with OUT at 0, and SEQ then starts at 0. -/
def Sys2Proof.Claims.SubmitEvents : Prop := ∀ (s : State) (i : Nat) (src : BitVec 12),
  let p := s.page i
  (∀ off (data : List Byte),
    (p.en = false ∨ off ≠ 0 ∨ data.length ≠ 128 → exec (.submitDmwr ⟨i, src⟩ off data) s = .next (s.emit (.unsupported i))) ∧
    (p.en = true → off = 0 → data.length = 128 → (p.outn = 64 ∨ 1024 ≤ s.intake ∨ s.ctxBusy p.ctx = true) →
      exec (.submitDmwr ⟨i, src⟩ off data) s = .next (s.emit (.retry i))) ∧
    (p.en = true → off = 0 → data.length = 128 → p.outn ≠ 64 → s.intake < 1024 → s.ctxBusy p.ctx = false → ∃ t,
      exec (.submitDmwr ⟨i, src⟩ off data) s = .next t ∧ t.mem = s.mem ∧ t.page i = { p with outn := p.outn + 1 } ∧ t.outbox = s.outbox ++ [.accepted i] ∧
      t.subs = s.subs ++ [{ id := s.nextId, page := i, src := src, rec_ := ofBytes 1024 data, bind := p }])) ∧
  (p.en = true → (∃ t, exec (.winPlainWrite i) s = .next t ∧ t.page i = { p with err := true } ∧ ∀ j, j ≠ i → t.page j = s.page j) ∧
    ∃ t, exec (.stateErrClear i) s = .next t ∧ t.page i = { p with err := false } ∧ ∀ j, j ≠ i → t.page j = s.page j) ∧
  (4096 ≤ i → ∀ e, exec (.bindingWrite i e) s = .next s) ∧
  ∀ e : BitVec 256, i < 4096 → ∃ t, exec (.bindingWrite i e) s = .next t ∧ t.mem = s.mem ∧ (∀ j, j ≠ i → t.page j = s.page j) ∧
    (t.page i).en = (if p.en then e.getLsbD 0 else e.getLsbD 0 && p.outn == 0) ∧ (t.page i).ctx = field e 32 6 ∧
    (t.page i).tenant = e.extractLsb' 16 16 ∧ (t.page i).ndata = e.extractLsb' 160 32 ∧ (t.page i).outn = p.outn ∧
    (p.en = false → (t.page i).en = true → (t.page i).nextseq = 0 ∧ (t.page i).err = false)

/-- SUBMIT_NOP, DRAIN, LAUNCH and SUBMISSION_COMPLETE (R42, R44 to R47): the oldest record of a page passes the checks in their order or ends
with the status the failed one gives; a LAUNCH waits for the earlier writes of its requester (R329); its reference becomes eligible, has status 6
where PREDREM is not 0 and 7 where the memory port refuses it, and is refused with POISON where the record is poisoned (R477). -/
def Sys2Proof.Claims.ProcessEvents : Prop := ∀ (s : State) (i : Nat) (x : Submission), s.headSub i = some x → x.page = i →
  let v := x.rec_
  let next := (s.page i).nextseq
  let becomes (t : State) (ph : SubPhase) : Prop := t.mem = s.mem ∧ ∃ y ∈ t.subs, y.id = x.id ∧ y.phase = ph
  (∀ w, w ∈ [Instr.submitNop i, .drain i] → x.phase = .intake → (w = .submitNop i ∧ Sm.opc v ≠ 1 ∧ Sm.opc v ≠ 2 ∨ w = .drain i ∧ Sm.opc v = 2) →
    (Sm.seq v = next - 1 → ∃ t, exec w s = .next t ∧ t.mem = s.mem ∧ t.subs = s.subs.filter (·.id != x.id) ∧ (t.page i).outn = (s.page i).outn - 1) ∧
    (Sm.seq v ≠ next - 1 → Sm.sealed v = false → ∃ t, exec w s = .next t ∧ becomes t (.finished 2) ∧ (t.page i).err = true) ∧
    (Sm.seq v ≠ next - 1 → Sm.sealed v = true → Sm.ok v = false → ∃ t, exec w s = .next t ∧ becomes t (.finished 2)) ∧
    (Sm.seq v ≠ next - 1 → Sm.sealed v = true → Sm.ok v = true → Sm.seq v ≠ next → ∃ t, exec w s = .next t ∧ becomes t (.finished 3)) ∧
    (Sm.seq v = next → Sm.sealed v = true → Sm.ok v = true → ∃ t, exec w s = .next t ∧ (t.page i).nextseq = next + 1 ∧
      becomes t (if Sm.opc v = 2 then .running else .finished 0))) ∧
  (Sm.opc v = 1 → s.writesBefore x = true → exec (.launch i) s = .next s) ∧
  (∀ j ev, Sm.opc v = 1 → x.phase = .launching j → Sm.nref v = j + 1 → s.held.contains (.launch x.id) = false → s.writesBefore x = false →
    s.subs.find? (·.id == x.id) = some x → let ref := Sm.ref v j
    s.hubCheck x.bind.ctx x.bind.tenant ref (refOff ref) 256 { r := true, align := 256 } .load = .error ev → ev.cause ≠ causeWait →
    if ev.cause.toNat < 0x10 then ∃ t, exec (.launch i) s = .next t ∧ t.held = s.held ++ [.launch x.id] ∧ t.eligible = s.eligible
    else if ev.cause = causePoison ∧ (s.checkHandle hubCore x.bind.ctx x.bind.tenant ref (refOff ref) 256 { r := true, align := 256 }).isOk = true then
      ∃ t, exec (.launch i) s = .next t ∧ becomes t .running ∧
        t.eligible = s.eligible ++ [{ ctx := x.bind.ctx, ref := ref, sub := some (x.id, j), refused := some causePoison }]
    else j < x.rs.length → ∃ t, exec (.launch i) s = .next t ∧ t.eligible = s.eligible ∧
      ∃ y ∈ t.subs, y.id = x.id ∧ y.phase = .running ∧ y.rs[j]? = some (some 7)) ∧
  (∀ j a, Sm.opc v = 1 → x.phase = .launching j → s.writesBefore x = false → Sm.nref v = j + 1 → s.held.contains (.launch x.id) = false → s.subs.find? (·.id == x.id) = some x →
    let ref := Sm.ref v j
    let n : BitVec 16 := ofBytes 16 (s.bytes (a.place.phys + 0xF0) 2)
    s.hubCheck x.bind.ctx x.bind.tenant ref (refOff ref) 256 { r := true, align := 256 } .load = .ok a →
    (n = 0 → s.poolFull = false → ∃ t, exec (.launch i) s = .next t ∧ becomes t .running ∧
      t.eligible = s.eligible ++ [{ ctx := x.bind.ctx, ref := ref, sub := some (x.id, j) }]) ∧
    (n ≠ 0 → j < x.rs.length → ∃ t, exec (.launch i) s = .next t ∧ t.eligible = s.eligible ∧
      ∃ y ∈ t.subs, y.id = x.id ∧ y.phase = .running ∧ y.rs[j]? = some (some 6)))

/-- SUBMISSION_COMPLETE (R46, R47): a submission that is not complete stays; a complete one writes its record where it is asked for one, then the
notification, lowers OUT and is gone. -/
def Sys2Proof.Claims.Completions : Prop := ∀ (s : State) (x : Submission), s.subs.find? (·.id == x.id) = some x →
  (s.subComplete x = none → exec (.submissionComplete x.id) s = .next s) ∧
  ∀ st, s.subComplete x = some st → (x.writeRec = true → ∀ y ∈ s.subs, y.page = x.page → y.id < x.id → y.holdsOrder = false) →
    ∃ t, exec (.submissionComplete x.id) s = .next t ∧ t.mem = s.mem ∧ (t.page x.page).outn = (s.page x.page).outn - 1 ∧
      (∀ y ∈ t.subs, y.id ≠ x.id) ∧ t.outbox = s.outbox ++
        (if x.writeRec then [.hostWrite (Sm.craddr x.rec_) (toBytes 64 (s.completion x st))] else []) ++
        (if x.notify then [.hostWrite x.bind.naddr (toBytes 4 x.bind.ndata)] else [])

/-- A record at the front of the eligible list is known as `r`, in the state `w` with the entry `f`: it was read before, or it is read now and
passes checks 1 to 3 of R20. -/
def Sys2Proof.Claims.Known (u : State) (e : Elig) (r : NodeRec) (w : State) (f : Elig) : Prop :=
  e.refused = none ∧ (e.rec_ = some r ∧ w = u ∧ f = e ∨ e.rec_ = none ∧ ∃ a,
    u.hubCheck e.ctx (u.ctx e.ctx).tenant e.ref (refOff e.ref) 256 { r := true, align := 256 } .load = .ok a ∧
    let v : BitVec 2048 := ofBytes 2048 (u.bytes a.place.phys 256)
    recSealed v = true ∧ recLegal v = true ∧ r = NodeRec.ofBits v ∧ r.fits = true ∧
    w = u.hubNote e.ctx e.ref a 256 false ∧ f = { e with rec_ := some r })

/-- RECORD_CHECK (R20, R21, R477): a first eligible record that passes every check enters the pool with what was read of it; one whose CHECK fails is
read once more, and refused if it fails again; the others end with the cause of the first check that fails; a check that meets a retry-class
fault holds the record where it stands; a refused record leaves with a trap record; and while the pool is full no record is checked (R59). -/
def Sys2Proof.Claims.RecordChecks : Prop := ∀ (s : State) (e : Elig) (rest : List Elig), s.eligible = e :: rest →
  let u : State := { s with eligible := rest }
  let room : Prop := s.pool.length < 16384
  (e.refused = none → ¬room → exec .recordCheck s = .next s) ∧
  (∀ r w f v g, room → Known u e r w f → w.refsFrom r (r.refSteps - f.passed) f = (v, g, none) → r.ntile = 0 →
    let enters (img : ImgHeader) : Prop := ∃ t, exec .recordCheck s = .next t ∧ t.mem = s.mem ∧ t.eligible = rest ∧
      t.pool = s.pool ++ [{ seq := s.nextId, ctx := e.ctx, ref := e.ref, time := s.devTime.toNat, eff := r.prio, code := g.code, rec_ := r, img := img, sub := e.sub }]
    (r.service = true → enters {}) ∧
    ∀ l, r.service = false → v.hubRead e.ctx (v.ctx e.ctx).tenant r.imgref (refOff r.imgref) 16 = .ok l →
      let h : BitVec 128 := ofBytes 128 l
      let n := v.hubNoteRange e.ctx r.imgref (refOff r.imgref) 16
      if (ImgHeader.ofBits h).live = 0 ∨ imgReserved h = false then exec .recordCheck s = .next (n.refuse g causeIllegalEncoding)
      else if (ImgHeader.ofBits h).fits r = false then exec .recordCheck s = .next (n.refuse g causeBounds)
      else enters (ImgHeader.ofBits h)) ∧
  (∀ r w f v g ev, room → Known u e r w f → w.refsFrom r (r.refSteps - f.passed) f = (v, g, some ev) → ev.cause ≠ causeWait →
    if 0x10 ≤ ev.cause.toNat then exec .recordCheck s = .next (v.refuse g ev.cause)
    else ∃ t, exec .recordCheck s = .next t ∧ t.held = s.held ++ [.check g] ∧ t.eligible = rest ∧ t.pool = s.pool) ∧
  (∀ a, room → e.refused = none → e.rec_ = none →
    u.hubCheck e.ctx (u.ctx e.ctx).tenant e.ref (refOff e.ref) 256 { r := true, align := 256 } .load = .ok a →
    let v : BitVec 2048 := ofBytes 2048 (s.bytes a.place.phys 256)
    let n := u.hubNote e.ctx e.ref a 256 false
    let f : Elig := { e with rec_ := some (NodeRec.ofBits v) }
    (recSealed v = false → e.torn = false → ∃ t, exec .recordCheck s = .next t ∧ t.mem = s.mem ∧ t.pool = s.pool ∧
      t.eligible = { e with torn := true } :: rest) ∧
    (recSealed v = false → e.torn = true → exec .recordCheck s = .next (n.refuse f causeParamTorn)) ∧
    (recSealed v = true → recLegal v = false → exec .recordCheck s = .next (n.refuse f causeIllegalEncoding)) ∧
    (recSealed v = true → recLegal v = true → (NodeRec.ofBits v).fits = false → exec .recordCheck s = .next (n.refuse f causeBounds))) ∧
  ∀ c ev, e.refused = some c →
    let r := e.rec_.getD {}
    s.checkHandle hubCore e.ctx (s.ctx e.ctx).tenant r.stampref (refOff r.stampref) 8 { w := true, align := 8 } = .error ev →
    0x10 ≤ ev.cause.toNat → ∃ t, exec .recordCheck s = .next t ∧ t.eligible = rest ∧ t.pool = s.pool ∧
      (RecordFits s e.ctx → (∀ x ∈ s.records, x.ctx ≠ e.ctx) → (s.ctx e.ctx).trlog ≠ 0 → (t.ctx e.ctx).trprod = (s.ctx e.ctx).trprod + 1)

/-- PRIORITY_AGING, TASK_RESERVATION and TASK_PLACE (R60 to R66, R73): effective priority rises by one each 100 µs, to 7; the oldest compute task
that has waited 1 ms reserves (that a SERVICE node never does is the model's choice, log 70); the task considered first is placed where
every core of a legal rectangle has room. -/
def Sys2Proof.Claims.PlacementEvents : Prop := ∀ (s : State),
  (∃ t, exec .priorityAging s = .next t ∧ t.mem = s.mem ∧
    t.pool = s.pool.map fun p => { p with eff := min 7 (p.rec_.prio + (s.devTime.toNat - p.time) / 100000) }) ∧
  (s.reserve = none → (∃ p ∈ s.pool, p.rec_.service = false ∧ p.time + 1000000 ≤ s.devTime.toNat) → (∀ p ∈ s.pool, p.seq < 2 ^ 64 ∧ p.rec_.origins ≠ []) →
    ∃ t v, exec .taskReservation s = .next t ∧ t.mem = s.mem ∧ t.reserve = some v ∧ ∃ p ∈ s.pool, p.seq = v.seq ∧ p.rec_.service = false ∧
      (v.x0, v.y0) ∈ p.rec_.origins ∧ ∀ q ∈ s.pool, q.rec_.service = false → q.time + 1000000 ≤ s.devTime.toNat → p.time ≤ q.time) ∧
  (∀ v p, s.reserve = some v → p ∈ s.pool → p.seq = v.seq → exec .taskReservation s = .next s) ∧
  (s.halted = true → exec .taskPlace s = .next s) ∧
  ∀ p, s.reserve = none → s.halted = false → s.poolOrder.head? = some p →
    (∀ o, p.rec_.service = false → p.restore = none → s.originFor p [] = some o → ∃ t, exec .taskPlace s = .next t ∧ t.mem = s.mem ∧
      t.pool = s.pool.filter (·.seq != p.seq) ∧ (∃ k ∈ t.tasks, k.uid = p.seq ∧ k.ctx = p.ctx ∧ k.phase = .placed ∧ k.x0 = o.1 ∧ k.y0 = o.2) ∧
      ∀ c ∈ p.rec_.coresAt o, ∃ b ∈ t.blocks, b.task = p.seq ∧ b.core = c.1 ∧ b.bx = c.2.1 ∧ b.byy = c.2.2 ∧ b.crews.length = p.rec_.crews + 1) ∧
    (∀ k, p.rec_.service = true → p.restore = none → s.serviceCore p.rec_ = some k → k < s.qcores.length → ∃ t, exec .taskPlace s = .next t ∧ t.mem = s.mem ∧
      (t.qcore k).node = some p.seq ∧ (t.qcore k).pc = p.rec_.entry ∧ (t.qcore k).mtvec = 0xFFFF0000 ∧ t.pool = s.pool.filter (·.seq != p.seq)) ∧
    -- a SERVICE node that was saved goes on from where it stood (the model's choice, log 85)
    ∀ k uid v, p.rec_.service = true → p.restore = some uid → (∃ x ∈ s.tasks, x.uid = uid) → (s.task uid).kept.core = some v →
      s.serviceCore p.rec_ = some k → k < s.qcores.length → ∃ t, exec .taskPlace s = .next t ∧ t.mem = s.mem ∧ (t.qcore k).node = some uid ∧
      (t.qcore k).pc = v.pc ∧ (t.qcore k).x = v.x ∧ t.pool = s.pool.filter (·.seq != p.seq)

/-- QSB_WRITE (R48): the binding written and the set that named that core before exchange their cores, unless a popped request of either
set is held. -/
def Sys2Proof.Claims.BindingSwap : Prop := ∀ (s : State) (set_ old i : Nat) (value : DWord), s.qsb[set_]? = some old →
  s.qsb.findIdx? (· == field value 0 6) = some i →
  (s.setBusy set_ = true ∨ s.setBusy i = true → exec (.qsbWrite set_ value) s = .next s) ∧
  (s.setBusy set_ = false → s.setBusy i = false → ∃ t, exec (.qsbWrite set_ value) s = .next t ∧ t.mem = s.mem ∧
    t.qsb[set_]? = some (field value 0 6) ∧ (i ≠ set_ → t.qsb[i]? = some old) ∧ ∀ j, j ≠ set_ → j ≠ i → t.qsb[j]? = s.qsb[j]?)

/-- The hub from a submission to a placed task (R20, R38 to R48, R60 to R66). -/
def Obligations.HubEvents : Prop := SubmitEvents ∧ ProcessEvents ∧ Completions ∧ RecordChecks ∧ PlacementEvents ∧ BindingSwap

/-! ### Blocks, services and tiers in time (03_submission_and_services, 04_placement, 11_tiers_and_held_rows, 21_retirement_and_recovery) -/

/-- COMPACTOR_MOVE (R70, R71): where a stopped and drained crew's unit can move it does, in the order of the chains; a cycle is broken by the
holding register; where none can, the first crew that is still to stop does. -/
def Sys2Proof.Claims.CompactorMoves : Prop := ∀ (s : State) (core : Nat),
  let k := s.core core
  let ready (u : UnitMove) : Bool := (s.crew u.blk u.crew).drained
  (k.compacting = false → exec (.compactorMove core) s = .next s) ∧
  (k.compacting = true → (∀ u, u ∈ k.compact ∨ k.unitHeld = some u → s.resident_ u.blk = true ∧ (s.crew u.blk u.crew).live = true ∧
      (s.crew u.blk u.crew).units ≠ 0 ∧ u.crew < (s.block u.blk).crews.length) →
    (∀ u, k.unitStep ready = some (.move u) → (u ∈ k.compact ∨ k.unitHeld = some u) → ∃ t, exec (.compactorMove core) s = .next t ∧ t.mem = s.mem ∧
      (t.core core).compact = k.compact.erase u ∧ (t.core core).unitHeld = k.unitHeld.filter (· != u) ∧
      (t.crew u.blk u.crew).fibres = (s.crew u.blk u.crew).fibres ∧ (t.crew u.blk u.crew).units = (s.crew u.blk u.crew).units ∧
      (if u.shadow then (t.crew u.blk u.crew).shadowBase = some u.base ∧ (t.crew u.blk u.crew).unitBase = (s.crew u.blk u.crew).unitBase
        else (t.crew u.blk u.crew).unitBase = u.base ∧ (t.crew u.blk u.crew).shadowBase = (s.crew u.blk u.crew).shadowBase) ∧
      ((t.crew u.blk u.crew).moving = true ↔
        ∃ v, (v ∈ (t.core core).compact ∨ (t.core core).unitHeld = some v) ∧ v.blk = u.blk ∧ v.crew = u.crew)) ∧
    (∀ u, k.unitStep ready = some (.hold u) → ∃ t, exec (.compactorMove core) s = .next t ∧ t.mem = s.mem ∧
      t.core core = { k with compact := k.compact.erase u, unitHeld := some u } ∧ t.blocks = s.blocks) ∧
    ∀ u, k.unitStep ready = none → k.compact.find? (fun u => !(s.crew u.blk u.crew).moving) = some u → ∃ t, exec (.compactorMove core) s = .next t ∧
      t.mem = s.mem ∧ t.core core = k ∧ t.crew u.blk u.crew = { s.crew u.blk u.crew with moving := true })

/-- Between `s` and `v` only what accesses leave besides bytes differs, with the blocks; the tables and the leases stay, but for snoops that are sent. -/
def Sys2Proof.Claims.CachesApart (s v : State) : Prop := ({ apart s v with leases := s.leases } : State) = s ∧ v.cores.length = s.cores.length ∧
  (∀ j, (v.mtu j).mptb = (s.mtu j).mptb ∧ (v.mtu j).mptlen = (s.mtu j).mptlen) ∧
  (v.leases.map fun x => (x.1, ({ x.2 with snoops := [] } : Lease))) = s.leases.map fun x => (x.1, ({ x.2 with snoops := [] } : Lease))

/-- BLOCK_FILL, CREW_RETIRE and BLOCK_RETIRE (R24, R25, R73, R203, R444, R445): every fibre of a crew gets the registers its image gives, live ones
RUNNABLE at ENTRY, the uniform words being read once for the block; a crew whose words cannot be read yet is left, and the others do not wait for
it; a crew that is done gives up its resources, and never waits on the profile buffer (R449); a block's windows are written back before it goes. -/
def Sys2Proof.Claims.BlockEvents : Prop := ∀ (s : State) (b : Nat),
  (let blk := s.block b
   let k := s.task blk.task
   let h := k.img
   let own (ci : Nat) : Nat := h.un + (if h.percrew then ci * (32 * h.fp) else 0)
   ∀ uni (per : Nat → List Word), s.resident_ b = true → blk.terminated = false → (s.core blk.core).compacting = false → blk.restoring = false →
    blk.crews.all (fun c => c.filled || !c.live) = false → (match blk.uni with
      | some u => u = uni
      | none => (s.acquire blk.core b).imageWords k 0 s.free h.un = .ok uni) →
    1 ≤ h.uq → 1 ≤ h.fq → (h.un = 0 ∨ h.fp = 0 ∨ overlap h.uq h.un h.fq h.fp = false) →
    ∀ ci, ci < blk.crews.length → (s.crew b ci).filled = false → (s.crew b ci).live = true →
    -- the crew's own words, whatever the caches hold and whatever the crews before it have been given
    (∀ v : State, CachesApart s v → v.imageWords k (own ci) v.free (32 * h.fp) = .ok (per ci)) →
    ∃ t, exec (.blockFill b) s = .next t ∧ t.mem = s.mem ∧ (t.block b).uni = some uni ∧ (t.crew b ci).filled = true ∧ (t.crew b ci).mode = 0 ∧
      ∀ i, i < 32 → let fb := (t.crew b ci).fibre i
        fb.reg 0 = h.initv0 ∧ (∀ j, j < h.un → fb.reg (h.uq + j) = (uni[j]?).getD 0) ∧
        (∀ j, j < h.fp → fb.reg (h.fq + j) = ((per ci)[j * 32 + i]?).getD 0) ∧
        if h.live.getLsbD i then fb.st = .runnable ∧ fb.pc = k.rec_.entry else fb.st = .free) ∧
  (∀ ci, (s.crewDone b ci = false → exec (.crewRetire b ci) s = .next s) ∧
    (s.crewDone b ci = true → ∃ t, exec (.crewRetire b ci) s = .next t ∧
      (t.crew b ci).live = false ∧ (t.crew b ci).units = 0 ∧ (t.crew b ci).shadowBase = none)) ∧
  ((∃ c ∈ (s.block b).crews, c.live = true) → exec (.blockRetire b) s = .next s) ∧
  ∀ s1, s.resident_ b = true → (s.block b).retired = false → (∀ c ∈ (s.block b).crews, c.live = false) →
    s.writeBacks .other b (List.range 8) = .ok s1 →
    ∃ t, exec (.blockRetire b) s = .next t ∧ (t.block b).retired = true ∧ (∀ a, (t.block b).scr a = 0) ∧ (∀ a, (t.block b).accWord a = 0) ∧
      (∀ h, ((t.block b).hold h).held = false) ∧ ∀ w ∈ (t.block b).windows, w = none

/-- TASK_RETIRE and POOL_STALL_RESUME (R22, R59, R446, R447): the blocks' names go once all have retired; the stamp is updated once no operation and no
peer store is left; each successor's PREDREM falls by one and a record at 0 becomes eligible; the last step frees the task. -/
def Sys2Proof.Claims.TaskEnds : Prop := ∀ (s : State) (k : Task), s.tasks.find? (·.uid == k.uid) = some k → s.held.contains (.retire k.uid) = false →
  let inPhase (t : State) (p : TaskPhase) : Prop := ∃ x ∈ t.tasks, x.uid = k.uid ∧ x.phase = p
  (k.phase = .placed → k.rec_.service = false → k.rec_.ntile = 0 → (∃ b ∈ s.blocks, b.task = k.uid) → (∀ b ∈ s.blocks, b.task = k.uid → b.retired = true) →
    ∃ t, exec (.taskRetire k.uid) s = .next t ∧ t.mem = s.mem ∧ t.blocks = s.blocks.filter (·.task != k.uid) ∧ inPhase t .waitPeer) ∧
  (k.phase = .placed → (∃ b ∈ s.blocks, b.task = k.uid ∧ b.retired = false) → exec (.taskRetire k.uid) s = .next s) ∧
  (k.phase = .waitPeer → (∀ o ∈ s.ops, o.task ≠ k.uid) → (∀ p ∈ s.peerStores, p.task = k.uid → p.lease = 0) → ∃ t, exec (.taskRetire k.uid) s = .next t ∧
    t.mem = s.mem ∧ inPhase t .stamping) ∧
  (k.phase = .waitPeer → (∃ o ∈ s.ops, o.task = k.uid) → exec (.taskRetire k.uid) s = .next s) ∧
  (∀ a, k.phase = .stamping →
    s.hubCheck k.ctx (s.ctx k.ctx).tenant k.rec_.stampref (refOff k.rec_.stampref) 8 { w := true, align := 8 } .load = .ok a →
    s.lineLocked a.ia 8 = false →
    let old : DWord := ofBytes 64 (s.bytes a.place.phys 8)
    ∃ (t : State) (new : DWord), exec (.taskRetire k.uid) s = .next t ∧ t.mem = Sparse.putN memDefault s.mem a.place.phys (toBytes 8 new) ∧
      new.toNat % 2 ^ 56 = (old.toNat + 1) % 2 ^ 56 ∧ (k.final < 256 → new.toNat / 2 ^ 56 = max (old.toNat / 2 ^ 56) k.final) ∧
      inPhase t (if k.final = 0 ∨ k.final = 4 then .releasing 0 else .done)) ∧
  (k.phase = .done → ∃ t, exec (.taskRetire k.uid) s = .next t ∧ t.mem = s.mem ∧ t.tasks = s.tasks.filter (·.uid != k.uid)) ∧
  ∀ i, k.phase = .releasing i → ∀ w, w = Instr.taskRetire k.uid ∨ (w = .poolStallResume ∧ s.poolFull = false ∧
      ∀ x ∈ s.tasks, x.uid ≠ k.uid → ∀ j, x.phase ≠ .releasing j) →
    (k.rec_.succn ≤ i → ∃ t, exec w s = .next t ∧ t.mem = s.mem ∧ t.tasks = s.tasks.filter (·.uid != k.uid)) ∧
    ∀ a p e, i < k.rec_.succn →
      s.hubCheck k.ctx (s.ctx k.ctx).tenant k.rec_.succref (refOff k.rec_.succref + 8 * i : Nat) 8 { r := true } .load = .ok a →
      let ref : DWord := ofBytes 64 (s.bytes a.place.phys 8)
      s.checkHandle hubCore k.ctx (s.ctx k.ctx).tenant ref (refOff ref) 256 { r := true, w := true, align := 256 } = .ok e →
      s.hubCheck k.ctx (s.ctx k.ctx).tenant ref (refOff ref + 0xF0 : Nat) 2 { r := true, w := true } .load = .ok p →
      s.lineLocked p.ia 2 = false →
      let n : BitVec 16 := ofBytes 16 (s.bytes p.place.phys 2)
      (n = 0 → ∃ t, exec w s = .next t ∧ t.mem = s.mem ∧ t.eligible = s.eligible ∧ inPhase t (.releasing (i + 1))) ∧
      (n ≠ 0 → s.poolFull = false → ∃ t, exec w s = .next t ∧ t.mem = Sparse.putN memDefault s.mem p.place.phys (toBytes 2 (n - 1)) ∧
        inPhase t (.releasing (i + 1)) ∧ t.eligible = if n = 1 then s.eligible ++ [{ ctx := k.ctx, ref := ref }] else s.eligible)

/-- The service port (R51, R52, R56, R57, R67): POP to FAIL and any other value, with what each leaves in STAT; a restart; and an exception, which
ends the node FAULT under the default mtvec and enters the node's own handler otherwise. -/
def Sys2Proof.Claims.ServiceEvents : Prop := ∀ (s : State) (k : Nat), k < s.qcores.length →
  let c := s.qcore k
  let q := c.qsel
  let bound : Prop := s.coreOfQueue q = k
  let ends (w : Instr) (st : Nat) : Prop := ∀ uid, c.node = some uid → ∃ t, exec w s = .next t ∧ t.mem = s.mem ∧ (t.qcore k).node = none ∧
    (t.qcore k).held = none ∧ (∀ x ∈ t.tasks, x.uid = uid → x.phase = .waitPeer ∧ st ≤ x.status)
  (¬bound → ∀ w ∈ [Instr.svcPop k, .svcClaim k, .svcDone k, .svcNottaken k], ∃ t, exec w s = .next t ∧ (t.qcore k).stat = 4 ∧ t.mem = s.mem ∧ t.requests = s.requests) ∧
  (bound → c.held = none → s.svcWait k 1 = none →
    (∀ r, (∀ x ∈ s.requests, x.q = q → s.claimed x = false) → s.requests.find? (fun x => x.q == q && x.heldBy.isNone) = some r →
      (∀ x ∈ s.requests, x.id = r.id → x = r) → ∃ t, exec (.svcPop k) s = .next t ∧ t.mem = s.mem ∧ (t.qcore k).held = some r.id ∧
        (t.qcore k).buf = r.bytes ∧ (t.qcore k).stat = 0 ∧ (t.qcore k).recover = false ∧ ({ r with heldBy := some k } : Request) ∈ t.requests) ∧
    (∀ r, s.requests.find? (fun x => x.q == q && (s.claimed x && x.heldBy.isNone)) = some r → ∃ t, exec (.svcPop k) s = .next t ∧ t.mem = s.mem ∧
      (t.qcore k).held = some r.id ∧ (t.qcore k).buf = r.bytes ∧ (t.qcore k).stat = 0 ∧ (t.qcore k).recover = true) ∧
    ((∃ x ∈ s.requests, x.q = q ∧ s.claimed x = true) → (∀ x ∈ s.requests, x.q = q → s.claimed x = true → x.heldBy ≠ none) →
      ∃ t, exec (.svcPop k) s = .next t ∧ (t.qcore k).stat = 1 ∧ t.requests = s.requests) ∧
    ((∀ x ∈ s.requests, x.q ≠ q) → ∃ t, exec (.svcPop k) s = .next t ∧ (t.qcore k).stat = 1 ∧ t.requests = s.requests)) ∧
  -- a command for a request that was cancelled meanwhile releases it
  (bound → c.held ≠ none → s.heldRequest k = none → ∀ w ∈ [Instr.svcClaim k, .svcDone k, .svcNottaken k], ∃ t, exec w s = .next t ∧
    (t.qcore k).stat = 3 ∧ (t.qcore k).held = none ∧ t.mem = s.mem) ∧
  (∀ r, bound → s.heldRequest k = some r →
    let v := r.bytes
    let call := s.journalOf r.q (Rq.ctx v) (Rq.tenant v) (Rq.callid v)
    (call = none → s.journalFree r.q = none → ∀ w ∈ [(Instr.svcClaim k, 2), (.svcDone k, 3), (.svcNottaken k, 4)], s.svcWait k w.2 = none →
      ∃ t, exec w.1 s = .next t ∧ (t.qcore k).stat = 2 ∧ t.mem = s.mem ∧ t.requests = s.requests) ∧
    (∀ i, call = none → s.journalFree r.q = some i → s.svcWait k 2 = none →
      (∃ t, exec (.svcClaim k) s = .next t ∧ (t.qcore k).stat = 0 ∧ t.requests = s.requests ∧
        t.mem = (s.setJournal r.q i (journalEntry 1 (Rq.ctx v) (Rq.tenant v) (Rq.callid v) 0 0)).mem)) ∧
    -- a claim of a call that has its entry already leaves it as it is (the model's choice, log 82)
    (∀ i, call = some i → s.svcWait k 2 = none → ∃ t, exec (.svcClaim k) s = .next t ∧ (t.qcore k).stat = 0 ∧ t.mem = s.mem ∧
      t.requests = s.requests) ∧
    ∀ i, (call = some i ∨ call = none ∧ s.journalFree r.q = some i) →
      let u := s.setJournal r.q i (journalEntry 2 (Rq.ctx v) (Rq.tenant v) (Rq.callid v) (field c.buf 128 8) (c.buf.extractLsb' 160 320))
      let n := s.setJournal r.q i (journalEntry 3 (Rq.ctx v) (Rq.tenant v) (Rq.callid v) 0 0)
      (s.svcWait k 3 = none → ∃ t, exec (.svcDone k) s = .next t ∧ (t.qcore k).stat = 0 ∧ (t.qcore k).held = none ∧ (∀ x ∈ t.requests, ¬(x.q = r.q ∧ x.id = r.id)) ∧
        t.mem = (u.sendReply v (replyLine 1 (Rq.callid v) (field c.buf 128 8) (c.buf.extractLsb' 160 320))).mem) ∧
      (s.svcWait k 4 = none → ∃ t, exec (.svcNottaken k) s = .next t ∧ (t.qcore k).stat = 0 ∧ (t.qcore k).held = none ∧ (∀ x ∈ t.requests, ¬(x.q = r.q ∧ x.id = r.id)) ∧
        t.mem = (n.sendReply v (replyLine 2 (Rq.callid v) 0 0)).mem)) ∧
  (∀ w ∈ [(Instr.svcPop k, 1), (.svcClaim k, 2), (.svcDone k, 3), (.svcNottaken k, 4)], ∀ u, s.svcWait k w.2 = some u → exec w.1 s = .next u) ∧
  ends (.svcExit k) 0 ∧ ends (.svcFail k) 2 ∧
  (∀ v : Word, (v = 0 ∨ 6 < v.toNat) → ∃ t, exec (.svcBadCommand k v) s = .next t ∧ (t.qcore k).stat = 4 ∧ t.mem = s.mem ∧ t.requests = s.requests) ∧
  (∃ t, exec (.serviceRestart k) s = .next t ∧ t.mem = s.mem ∧ (t.qcore k).held = none ∧ (t.qcore k).mtvec = 0xFFFF0000 ∧ (t.qcore k).qsel = 0 ∧
    (t.qcore k).stat = 0 ∧ (t.qcore k).pc = match c.node with | some uid => (s.task uid).rec_.entry | none => 0) ∧
  ∀ mcause mtval : Word,
    (∀ uid, c.node = some uid → c.mtvec = 0xFFFF0000 → ∃ t, exec (.serviceNodeException k mcause mtval) s = .next t ∧ (t.qcore k).node = none ∧
      ∀ x ∈ t.tasks, x.uid = uid → x.phase = .waitPeer ∧ 2 ≤ x.status) ∧
    (c.node = none ∨ c.mtvec ≠ 0xFFFF0000 → ∃ t, exec (.serviceNodeException k mcause mtval) s = .next t ∧ t.mem = s.mem ∧ (t.qcore k).mepc = c.pc ∧
      (t.qcore k).mcause = mcause ∧ (t.qcore k).mtval = mtval ∧ (t.qcore k).pc = c.mtvec &&& ~~~3#32)

/-- Blocks, tasks and service cores from fill to retirement, and the compactor (R24, R51 to R57, R67, R70, R71, R444 to R447). -/
def Obligations.LifeEvents : Prop := CompactorMoves ∧ BlockEvents ∧ TaskEnds ∧ ServiceEvents

/-- GROUP_SWAP, L2_EVICTION and BLOOM_ROTATE (R226 to R228, R237 to R239): a swap brings one member to the fast slot where R227 allows it and
changes no byte; an evicted line of a slow page enters the victim cache on STO or its second touch, and is bypassed otherwise. -/
def Sys2Proof.Claims.CacheEvents : Prop := ∀ (s : State),
  (∀ stack group member, stack < 8 → group < s.groups → member < 4 →
    let g := stack * 2 ^ 20 + group
    (s.residentOf g = member ∨ s.maySwap g = false → ∃ t, exec (.groupSwap stack group member) s = .next t ∧ t.mem = s.mem ∧ t.resident = s.resident) ∧
    (s.residentOf g ≠ member → s.maySwap g = true → ∃ t, exec (.groupSwap stack group member) s = .next t ∧ t.mem = s.mem ∧
      t.residentOf g = member ∧ ∀ j, j ≠ g → t.residentOf j = s.residentOf j)) ∧
  (∀ stack group member, 8 ≤ stack ∨ s.groups ≤ group ∨ 4 ≤ member → exec (.groupSwap stack group member) s = .next s) ∧
  (∀ line, (s.victims (sliceOf (64 * line))).contains line = false → exec (.l2Eviction line) s = .next s) ∧
  (∀ line c, Sparse.find? s.l2 line = some c → (s.victims (sliceOf (64 * line))).contains line = true →
    ∃ t, exec (.l2Eviction line) s = .next t ∧ t.mem = s.mem ∧ Sparse.find? t.l2 line = none ∧
    (∀ j, j ≠ line → Sparse.find? t.l2 j = Sparse.find? s.l2 j) ∧
    if s.slowPage line = true ∧ c.mvca = true ∧ (c.sto = true ∨ c.second = true) then Sparse.find? t.mvc line = some c else t.mvc = s.mvc) ∧
  ∀ slice, (((s.blooms[slice]?).getD {}).inserted < 2 ^ 18 → exec (.bloomRotate slice) s = .next s) ∧
    (2 ^ 18 ≤ ((s.blooms[slice]?).getD {}).inserted → ∃ t, exec (.bloomRotate slice) s = .next t ∧ t.mem = s.mem ∧
      (t.blooms[slice]?).getD {} = { active := [], previous := ((s.blooms[slice]?).getD {}).active, inserted := 0 })

/-- The translation commands and expansion (R232 to R234): each command of the page's own unit is answered with its RESULT, its STATUS and CONS; a
change of an entry is made after the page's held rows are dropped; an expansion takes the next DFN of the FREE ring and waits while
there is none; a command of another OPC, or for another stack, has the status the rule gives. -/
def Sys2Proof.Claims.TranslationEvents : Prop := ∀ (s : State) (stack : Nat) (c : BitVec 256), s.mstHead stack = some c → s.mstWait stack = none →
  let page := mstPage c
  let ia := page * 65536
  let old := s.pte ia
  (∀ u : State, stack < u.mtus.length → ((u.endMst stack 1 0).mtu stack).cmd.cons = (u.mtu stack).cmd.cons + 1) ∧
  (∀ p ∈ [(Instr.mstSet stack, 1), (.mstCompress stack, 2), (.mstExpand stack, 3), (.mstPromote stack, 4), (.mstQuery stack, 5)],
    (field c 0 8 ≠ p.2 → exec p.1 s = .next s) ∧ (field c 0 8 = p.2 → page / 2 ^ 33 ≠ stack → exec p.1 s = .next (s.endMst stack 5 0))) ∧
  (field c 0 8 = 0 ∨ 5 < field c 0 8 → exec (.mstBadCommand stack) s = .next (s.endMst stack 2 0)) ∧
  (page / 2 ^ 33 = stack →
    (field c 0 8 = 1 →
      (s.inTable page = false ∨ s.pteLegal (c.extractLsb' 128 64) = false → exec (.mstSet stack) s = .next (s.endMst stack 2 0)) ∧
      (s.inTable page = true → s.pteLegal (c.extractLsb' 128 64) = true → ∃ t u, exec (.mstSet stack) s = .next t ∧ t = State.endMst u stack 1 old ∧
        u.pte ia = c.extractLsb' 128 64 ∧ (∀ a, ¬(s.pteAddr ia ≤ a ∧ a < s.pteAddr ia + 8) → u.byte a = s.byte a) ∧
        ∀ x ∈ s.rowSlots, x.2.row / 64 = page → ((s.block x.2.blk).hold x.2.h).held = true → ((s.block x.2.blk).hold x.2.h).slot = x.1 →
          Sparse.find? u.rowSlots x.1 = none)) ∧
    (field c 0 8 = 2 → s.inTable page = true → ∃ t u, exec (.mstCompress stack) s = .next t ∧
      if field old 61 3 ≠ 1 ∨ bit old 57 = true then t = s.endMst stack 2 0
      else if Config.compressible (s.bytes (field old 0 25 * 65536) 65536) = false then t = s.endMst stack 3 0
      else t = s.endMst stack 4 0 ∨ t = State.endMst u stack 1 (BitVec.ofNat 64 (field old 0 25)) ∧ field (u.pte ia) 61 3 = 2 ∧
        (stack * 2 ^ 24 + field (u.pte ia) 0 24) ∈ u.zone) ∧
    (field c 0 8 = 3 → s.inTable page = true →
      (field old 61 3 ≠ 2 → exec (.mstExpand stack) s = .next (s.endMst stack 2 0)) ∧
      (∀ u, field old 61 3 = 2 → s.freeWait stack = some u → exec (.mstExpand stack) s = .next u) ∧
      (field old 61 3 = 2 → (s.mtu stack).free.pending = false → ∃ t, exec (.mstExpand stack) s = .next t ∧ t.mem = s.mem ∧ (t.mtu stack).cmd = (s.mtu stack).cmd) ∧
      (∀ u, field old 61 3 = 2 → s.freeWait stack = none → s.expandPage page = some u → exec (.mstExpand stack) s = .next (u.endMst stack 1 0) ∧ field (u.pte ia) 61 3 = 1 ∧
        (stack < s.mtus.length → (u.mtu stack).free.cons = (s.mtu stack).free.cons + 1))) ∧
    (field c 0 8 = 4 → ∃ t u, exec (.mstPromote stack) s = .next t ∧ t = State.endMst u stack 1 0 ∧ u.mem = s.mem ∧
      (s.inTable page = true → field old 61 3 = 1 → u.promotions = if s.inFast (field old 0 25) then s.promotions
        else s.promotions ++ [{ dfn := field old 0 25, task := none, blk := none }])) ∧
    (field c 0 8 = 5 → ∃ t, exec (.mstQuery stack) s = .next t ∧ t = s.endMst stack 1 (if s.inTable page = true then
      (if field old 61 3 = 1 then (old &&& ~~~(1#64 <<< 57)) ||| (if s.maySwap (field old 0 25 / 4) then 0#64 else 1#64 <<< 57) else old) else 0)))

/-- What the aging tick does to one page of a stack (R235): of a LOCAL entry REF is cleared and goes to ACT, DIRTY stays, and where ACT changes the page
number is appended to the ACTIVE or the INACTIVE ring, or dropped and counted where that ring has no room. A write to the ring is a store to its page, which sets REF there again (R230). -/
def Sys2Proof.Claims.Visited (stack p : Nat) (s t : State) : Prop :=
  let page := stack * 2 ^ 33 + p
  let e := s.pte (page * 65536)
  let aged : Prop := bit (t.pte (page * 65536)) 60 = false ∧ bit (t.pte (page * 65536)) 58 = bit e 60 ∧ bit (t.pte (page * 65536)) 59 = bit e 59
  let ring (u : State) : RingRegs := if bit e 60 = true then (u.mtu stack).active else (u.mtu stack).inactive
  let other (u : State) : RingRegs := if bit e 60 = true then (u.mtu stack).inactive else (u.mtu stack).active
  let at_ := (ring s).entry (ring s).prod 8
  (field e 61 3 ≠ 1 → t = s) ∧
  (field e 61 3 = 1 → bit e 60 = bit e 58 → aged ∧ t.mem = s.mem ∧ t.mtus = s.mtus) ∧
  (field e 61 3 = 1 → bit e 60 ≠ bit e 58 →
    ((ring s).roomy = false → aged ∧ t.mem = s.mem ∧ ring t = ring s ∧ other t = other s ∧
      (stack < s.mtus.length → (t.mtu stack).counters = (s.mtu stack).counters.modify 5 (· + 1))) ∧
    ((ring s).roomy = true → stack < s.mtus.length → ring t = { ring s with prod := (ring s).prod + 1 } ∧ other t = other s ∧
      ∀ q, s.place at_ = .ok q → q.peer = none → at_ % 64 ≤ 56 →
        t.mem = Sparse.putN memDefault s.mem q.phys (toBytes 8 (BitVec.ofNat 64 page)) ∧
        (at_ / 65536 ≠ page → aged)))

/-- EXPANSION and AGING_TICK (R234, R235): a page that is no longer COMPRESSED leaves the list; an expansion takes the next DFN of the FREE ring, whose
frame gets the page's bytes, and waits, counted, while there is none. Once AGEPER has passed a tick visits every page of the table in ascending order,
each as `Visited` says; where neither ring has room each LOCAL entry ends with REF clear and in ACT. -/
def Sys2Proof.Claims.PageEvents : Prop := ∀ (s : State) (stack page : Nat),
  let p := stack * 2 ^ 33 + page
  let m := s.mtu stack
  let waits : Prop := ∃ x ∈ m.expanding, x.1 = p
  let due : Prop := m.ageper ≠ 0 ∧ m.lastTick + 1000 * m.ageper ≤ s.devTime.toNat
  (¬waits → exec (.expansion stack page) s = .next s) ∧
  (waits → (s.inTable p = false ∨ field (s.pte (p * 65536)) 61 3 ≠ 2) → ∃ t, exec (.expansion stack page) s = .next t ∧ t.mem = s.mem ∧
    ∀ x ∈ (t.mtu stack).expanding, x.1 ≠ p) ∧
  (page < 2 ^ 33 → stack < s.mtus.length → waits → s.inTable p = true → field (s.pte (p * 65536)) 61 3 = 2 → s.freeWait stack = none →
    s.mstHead stack = none → s.mstWait stack = none →
    (m.free.pending = false → ∃ t, exec (.expansion stack page) s = .next t ∧ t.mem = s.mem ∧ (p, true) ∈ (t.mtu stack).expanding) ∧
    (m.free.pending = true →
      let dfn := field (ofBytes 64 (s.iaBytes (m.free.entry m.free.cons 8) 8) : DWord) 0 25
      let z := field (s.pte (p * 65536)) 0 24
      ∃ t, exec (.expansion stack page) s = .next t ∧ field (t.pte (p * 65536)) 61 3 = 1 ∧ field (t.pte (p * 65536)) 0 25 = dfn ∧
        bit (t.pte (p * 65536)) 60 = true ∧ (t.mtu stack).free.cons = m.free.cons + 1 ∧ (∀ x ∈ (t.mtu stack).expanding, x.1 ≠ p) ∧
        (stack * 2 ^ 24 + z) ∉ t.zone ∧
        (s.zone.contains (stack * 2 ^ 24 + z) = true → ∀ o, o < 65536 →
          dfn * 65536 + o < s.pteAddr (p * 65536) ∨ s.pteAddr (p * 65536) + 8 ≤ dfn * 65536 + o →
          t.byte (dfn * 65536 + o) = s.byte (zoneBase + (stack * 2 ^ 24 + z) * 65536 + o)))) ∧
  (¬due → exec (.agingTick stack) s = .next s) ∧
  (∀ u, due → s.agingWait stack = some u → exec (.agingTick stack) s = .next u) ∧
  (due → s.agingWait stack = none →
    (∃ us : List State, us.length = min m.mptlen (2 ^ 33) + 1 ∧ us[0]? = some s ∧
      (∀ k a b, us[k]? = some a → us[k + 1]? = some b → Visited stack k a b) ∧
      ∀ u, us[min m.mptlen (2 ^ 33)]? = some u → exec (.agingTick stack) s = .next (u.updMtu stack fun x => { x with lastTick := s.devTime.toNat })) ∧
    (m.active.roomy = false → m.inactive.roomy = false → ∃ t, exec (.agingTick stack) s = .next t ∧ t.mem = s.mem ∧
      ∀ k, k < m.mptlen → k < 2 ^ 33 → let a := (stack * 2 ^ 33 + k) * 65536
        (field (s.pte a) 61 3 ≠ 1 → t.pte a = s.pte a) ∧
        (field (s.pte a) 61 3 = 1 → bit (t.pte a) 60 = false ∧ bit (t.pte a) 58 = bit (s.pte a) 60 ∧ bit (t.pte a) 59 = bit (s.pte a) 59)))

/-- Held rows in time, and line errors (R242, R244, R472): a row open for 2 µs may be closed by force; one open for 64 µs in all may have its
neighbours refreshed; a saved row is held again where it can be, and one not reopened in 100 µs is dropped with its epoch raised; a corrected error is counted, and another
poisons its line, wherever that lies. -/
def Sys2Proof.Claims.RowAndLineEvents : Prop := ∀ (s : State),
  (∀ slot r, Sparse.find? s.rowSlots slot = some r →
    (s.openFor r < 2000 → exec (.rowForcedClose slot) s = .next s) ∧
    (2000 ≤ s.openFor r → ∃ t, exec (.rowForcedClose slot) s = .next t ∧ t.mem = s.mem ∧
      Sparse.find? t.rowSlots slot = some { r with opened := false } ∧ Sparse.get (fun _ => 0) t.rowPress r.key = s.pressOf r) ∧
    (s.pressOf r < 64000 → exec (.neighbourRefresh slot) s = .next s) ∧
    (64000 ≤ s.pressOf r → ∃ t, exec (.neighbourRefresh slot) s = .next t ∧ t.mem = s.mem ∧
      Sparse.find? t.rowSlots slot = some { r with opened := false } ∧ Sparse.get (fun _ => 0) t.rowPress r.key = 0)) ∧
  (∀ b h d, h < (s.block b).holds.length → ((s.block b).hold h).reopenBy = some d → d ≠ 0 → (s.block b).retired = false →
    (s.place (((s.block b).hold h).row * 1024) = .error causeNotPresent → ((s.block b).hold h).held = false →
      (d ≤ s.devTime.toNat → s.resident_ b = true → ∃ t, exec (.rowRestoreTimeout b h) s = .next t ∧ t.mem = s.mem ∧
        (t.block b).hold h = { (s.block b).hold h with epoch := ((s.block b).hold h).epoch + 1, reopenBy := none }) ∧
      (s.devTime.toNat < d → exec (.rowRestoreTimeout b h) s = .next s)) ∧
    -- a row that can be held again in a free slot is, with its epoch
    (∀ q k, s.place (((s.block b).hold h).row * 1024) = .ok q → q.phys < zoneBase → s.inFast (q.phys / 65536) = true → s.freeSlot q.phys = some k →
      (∀ x ∈ s.blocks, ∀ y ∈ x.holds, y.held = true → y.row ≠ ((s.block b).hold h).row) → s.resident_ b = true →
      ∃ t, exec (.rowRestoreTimeout b h) s = .next t ∧ t.mem = s.mem ∧
        (t.block b).hold h = { (s.block b).hold h with held := true, slot := k, reopenBy := none } ∧
        ∃ r, Sparse.find? t.rowSlots k = some r ∧ r.blk = b ∧ r.h = h ∧ r.row = ((s.block b).hold h).row)) ∧
  (∀ b h, ((s.block b).hold h).reopenBy = none → exec (.rowRestoreTimeout b h) s = .next s) ∧
  (∀ at_, ∃ t, exec (.lineError at_ true) s = .next t ∧ t.sec.corrected = s.sec.corrected + 1 ∧ ({ t with sec := s.sec } : State) = s) ∧
  (∀ ia p n, s.place ia = .ok p → 0 < n → ∃ t, exec (.lineError (.memory ia) false) s = .next t ∧ t.mem = s.mem ∧
    t.poisonedAt p.phys n = true ∧ ∀ l, l ∈ t.poison ↔ l = p.phys / 64 ∨ l ∈ s.poison) ∧
  (∀ phys, (phys < remoteBase → ∃ t, exec (.lineError (.frame phys) false) s = .next t ∧ t.mem = s.mem ∧ ∀ l, l ∈ t.poison ↔ l = phys / 64 ∨ l ∈ s.poison) ∧
    (remoteBase ≤ phys → exec (.lineError (.frame phys) false) s = .next s)) ∧
  (∀ lease line, ∃ t, exec (.lineError (.link lease line) false) s = .next t ∧ t.mem = s.mem ∧
    ∀ l, l ∈ t.poison ↔ l = (remoteBase + lease.toNat * 2 ^ 40 + 64 * line) / 64 ∨ l ∈ s.poison) ∧
  ∀ b a, s.resident_ b = true → (∃ t, exec (.lineError (.scratch b a) false) s = .next t ∧ (t.block b).scrPoisoned a 1 = true ∧
      (t.block b).scratch = (s.block b).scratch) ∧
    ∃ t, exec (.lineError (.acc b a) false) s = .next t ∧ (t.block b).accBad a 1 = true ∧ (t.block b).acc = (s.block b).acc

/-- The tiers between accesses (R225 to R239, R242, R244, R472). -/
def Obligations.TierEvents : Prop := CacheEvents ∧ TranslationEvents ∧ PageEvents ∧ RowAndLineEvents

/-- TRAP_DELIVERY, TRAP_RECORD_WRITE and TRSTAT_CLEAR (R396, R400, R402): a trap that waited is disposed of once its record has room and
nothing it drains is owed; a held record takes its place in the ring; LOST is cleared and nothing else. -/
def Sys2Proof.Claims.RecordEvents : Prop := ∀ (s : State),
  (∀ blk crew, (s.crew blk crew).nextTrap = none → exec (.trapDelivery blk crew) s = .next s) ∧
  (∀ blk crew p, (s.crew blk crew).nextTrap = some p →
    let ctx := (s.task (s.block blk).task).ctx
    (s.resident_ blk = false ∨ (s.crew blk crew).filled = false → exec (.trapDelivery blk crew) s = .next s) ∧
    (s.resident_ blk = true → (s.crew blk crew).filled = true →
      let c := s.crew blk crew
      let inTry := c.inTry p.mask p.act p.ev
      -- inside a try the members abort, once their crew stands (R71, R368)
      (inTry = true → c.moving = true → exec (.trapDelivery blk crew) s = .next s) ∧
      (inTry = true → c.moving = false → ∃ t, exec (.trapDelivery blk crew) s = .next t ∧ t.mem = s.mem ∧
        (crew < (s.block blk).crews.length → t.crew blk crew = ({ c with pendTraps := c.pendTraps.erase p } : Crew).abortTry p.mask
          (abortWord (if p.ev.cause.toNat < 0x20 then 4 else 5) p.ev.cause.toNat))) ∧
      (inTry = false → s.mustWait blk crew p.ev = true ∨ c.midway p.mask = true →
        exec (.trapDelivery blk crew) s = .next (s.afterWait ctx (s.trapPlace blk crew p.ev))) ∧
      (inTry = false → s.mustWait blk crew p.ev = false → c.midway p.mask = false →
        let u := s.updCrew blk crew fun c => { c with pendTraps := c.pendTraps.erase p }
        exec (.trapDelivery blk crew) s = .next ((u.dispose blk crew p.mask p.ev p.faulting).restall ctx) ∧
        (p.ev.cause.toNat < 0x10 → ∃ t, exec (.trapDelivery blk crew) s = .next t ∧
          (crew < (s.block blk).crews.length → (t.crew blk crew).pendTraps = (s.crew blk crew).pendTraps.erase p) ∧
          (∀ i, i < (s.crew blk crew).fibres.length → i < 32 → p.mask.getLsbD i = true → ((t.crew blk crew).fibre i).st = .parked) ∧
          (ctx < s.contexts.length → if (s.ctx ctx).trlog = 0 then (t.ctx ctx).lost = true else (t.ctx ctx).trprod = (s.ctx ctx).trprod + 1))))) ∧
  (∀ c t, s.recordWait c = some t → exec (.trapRecordWrite c) s = .next (s.afterWait c (some t))) ∧
  (∀ c r, s.recordWait c = none → s.records.find? (·.ctx == c) = some r → ∃ t, exec (.trapRecordWrite c) s = .next t ∧
    t.records = s.records.erase r ∧
    (c < s.contexts.length → if (s.ctx c).trlog = 0 then (t.ctx c).lost = true else (t.ctx c).trprod = (s.ctx c).trprod + 1)) ∧
  (∀ c, s.recordWait c = none → (∀ r ∈ s.records, r.ctx ≠ c) → (∀ o ∈ s.ops, o.ctx = c → o.pendRec = none) →
    ∃ t, exec (.trapRecordWrite c) s = .next t ∧ t.mem = s.mem ∧ t.ctx c = { s.ctx c with stalled := false }) ∧
  ∀ c, ∃ t, exec (.trstatClear c) s = .next t ∧ t.ctx c = { s.ctx c with lost := false } ∧ (∀ d, d ≠ c → t.ctx d = s.ctx d) ∧
    ({ t with contexts := s.contexts } : State) = s

/-- PARKED_RETRY (R405, R477): work that is owed a retry takes it: a parked strand is runnable again at its PC, a parked operation is in the
phase it was in, and a record that the hub holds is checked again; work that is owed none stays. -/
def Sys2Proof.Claims.ParkedRetries : Prop := ∀ (s : State),
  (∀ b c pc, (Parked.strand b c pc ∉ s.retry → exec (.parkedRetry (.strand b c pc)) s = .next s) ∧
    (Parked.strand b c pc ∈ s.retry → ∃ t, exec (.parkedRetry (.strand b c pc)) s = .next t ∧ t.mem = s.mem ∧
      t.retry = s.retry.erase (.strand b c pc) ∧ ∀ i, (t.crew b c).fibre i =
        if ((s.crew b c).fibre i).st = .parked ∧ ((s.crew b c).fibre i).pc.toNat = pc then { (s.crew b c).fibre i with st := .runnable }
        else (s.crew b c).fibre i)) ∧
  (∀ id o, s.op id = some o → (∀ x ∈ s.ops, x.id = id → x.pendRec = none) → Parked.op id ∈ s.retry →
    ∃ t, exec (.parkedRetry (.op id)) s = .next t ∧ t.mem = s.mem ∧ t.retry = s.retry.erase (.op id) ∧
      t.op id = some (if o.phase = .parked then { o with phase := o.back } else o)) ∧
  (∀ id, Parked.op id ∉ s.retry → exec (.parkedRetry (.op id)) s = .next s) ∧
  (∀ i h, s.held[i]? = some h → h ∉ s.heldDue → exec (.parkedRetry (.record i)) s = .next s) ∧
  (∀ i e, s.held[i]? = some (.check e) → Held.check e ∈ s.heldDue → ∃ t, exec (.parkedRetry (.record i)) s = .next t ∧ t.mem = s.mem ∧
    t.eligible = e :: s.eligible ∧ t.held = s.held.erase (.check e)) ∧
  ∀ u, Held.retire u ∈ s.heldDue → ∃ t, exec (.parkedRetry (.retiring u)) s = .next t ∧ t.mem = s.mem ∧ t.held = s.held.erase (.retire u)

/-- The commands of a context (R406): while BUSY with its OPC, each is carried out and ends DONE, or REFUSED where its TASK names no task that it can act on;
otherwise nothing happens. RESUME owes every parked strand of the task a retry, DBGRUN ends its stops, KILL ends it with status 3. -/
def Sys2Proof.Claims.ContextCommands : Prop := ∀ (s : State) (c : Nat),
  let x := s.ctx c
  let named (ok : Task → Bool) : Option Task := s.tasks.find? fun t => t.ctx == c && t.tid == x.cmdTask && ok t
  (∀ p ∈ [(Instr.preempt c, 1), (.restore c, 2), (.resume c, 3), (.dbgstop c, 4), (.dbgrun c, 5), (.kill c, 6)],
    (x.cmdstat ≠ 1 ∨ x.cmdOpc.toNat ≠ p.2 → exec p.1 s = .next s) ∧
    (x.cmdstat = 1 → x.cmdOpc.toNat = p.2 → (∀ t ∈ s.tasks, t.ctx = c → t.tid ≠ x.cmdTask) →
      ∃ t, exec p.1 s = .next t ∧ t.ctx c = { x with cmdstat := 3 } ∧ ({ t with contexts := s.contexts } : State) = s)) ∧
  (x.cmdstat = 1 → x.cmdOpc.toNat = 0 ∨ 6 < x.cmdOpc.toNat → ∃ t, exec (.ctxBadCommand c) s = .next t ∧ t.ctx c = { x with cmdstat := 3 }) ∧
  (x.cmdstat ≠ 1 ∨ (1 ≤ x.cmdOpc.toNat ∧ x.cmdOpc.toNat ≤ 6) → exec (.ctxBadCommand c) s = .next s) ∧
  (x.cmdstat = 1 →
    (∀ k, x.cmdOpc.toNat = 1 → named (fun t => s.liveFor t && t.phase == .placed) = some k →
      s.tasks.find? (·.uid == k.uid) = some k →
      (x.cmdlen.toNat < k.rec_.imageSize → exec (.preempt c) s = .next (s.endCmd c 3)) ∧
      -- a SERVICE node is saved as its queue core stands, which then runs none (the model's choice, log 85)
      (k.rec_.service = true → k.rec_.imageSize ≤ x.cmdlen.toNat → s.ownWait x.cmdarg k.rec_.imageSize true = none → k.qcore < s.qcores.length →
        ∃ t, exec (.preempt c) s = .next t ∧ t.ctx c = { x with cmdstat := 2 } ∧ (t.task k.uid).phase = .saved ∧ (t.task k.uid).image = x.cmdarg ∧
          (t.task k.uid).kept.core = some (s.qcore k.qcore) ∧ (t.qcore k.qcore).node = none) ∧
      ∀ u, k.rec_.service = false → k.rec_.imageSize ≤ x.cmdlen.toNat → s.saveTask k.uid 0 x.cmdarg = (true, u) → exec (.preempt c) s = .next (u.endCmd c 2) ∧
        (u.task k.uid).phase = .saved ∧ (u.task k.uid).image = x.cmdarg ∧ (∀ b ∈ u.blocks, b.task ≠ k.uid) ∧
        ∀ b ∈ (u.task k.uid).kept.blocks, b.retired = false → ∀ cr ∈ b.crews, ∀ fb ∈ cr.fibres, fb.monitor = .clear) ∧
    (∀ k, x.cmdOpc.toNat = 2 → named (fun _ => true) = some k → k.phase = .saved → k.killed = false →
      (∀ p ∈ s.pool, p.restore ≠ some k.uid) → (∀ b ∈ s.blocks, b.task = k.uid → b.restoring = false) →
      (∀ u, s.ownWait x.cmdarg k.rec_.imageSize false = some u → exec (.restore c) s = .next u) ∧
      (s.ownWait x.cmdarg k.rec_.imageSize false = none → s.imageOk x.cmdarg k x.cmdlen.toNat = false → exec (.restore c) s = .next (s.endCmd c 3)) ∧
      (s.ownWait x.cmdarg k.rec_.imageSize false = none → s.imageOk x.cmdarg k x.cmdlen.toNat = true →
        (s.poolFull = true → exec (.restore c) s = .next s) ∧
        (s.poolFull = false → ∃ t, exec (.restore c) s = .next t ∧ t.mem = s.mem ∧ t.ctx c = x ∧
          (∃ e, t.pool = s.pool ++ [e] ∧ e.restore = some k.uid ∧ e.eff = k.rec_.prio ∧ e.time = s.devTime.toNat) ∧
          ∀ v, s.tasks.find? (·.uid == k.uid) = some k → k.saves.find? (·.chk == s.imageChk x.cmdarg) = some v → (t.task k.uid).kept = v))) ∧
    (∀ k, x.cmdOpc.toNat = 3 → named s.liveFor = some k → ∃ t, exec (.resume c) s = .next t ∧ t.mem = s.mem ∧ t.ctx c = { x with cmdstat := 2 } ∧
      (∀ r ∈ s.retry, r ∈ t.retry) ∧ ∀ b ∈ s.blocks, b.task = k.uid → ∀ i, ∀ fb ∈ (b.crew i).fibres, fb.st = .parked →
        Parked.strand b.bid i fb.pc.toNat ∈ t.retry) ∧
    (∀ k, x.cmdOpc.toNat = 4 → named (fun t => s.liveFor t && t.phase == .placed) = some k →
      let left := (s.liveBlocks k.uid).filter fun b => !b.stopped && !b.terminated
      (left = [] → exec (.dbgstop c) s = .next (s.endCmd c 2)) ∧
      ∀ b r, left = b :: r → b.unready = false → poisonedCrew [b] = none → s.recordWait (s.task b.task).ctx = none →
        s.ownWait (s.ctx (s.task b.task).ctx).dumpAt 256 true = none → ∃ t, exec (.dbgstop c) s = .next t ∧ (t.block b.bid).stopped = true) ∧
    (∀ k, x.cmdOpc.toNat = 5 → named s.liveFor = some k → ∃ t, exec (.dbgrun c) s = .next t ∧ t.mem = s.mem ∧ t.ctx c = { x with cmdstat := 2 } ∧
      (∀ b ∈ t.blocks, b.task = k.uid → b.stopped = false) ∧ t.blocks.map (·.bid) = s.blocks.map (·.bid)) ∧
    ∀ k, x.cmdOpc.toNat = 6 → k ∈ s.tasks → named (fun t => !t.killed && match t.phase with | .releasing _ => false | .done => false | _ => true) = some k →
      k.rec_.service = false → (∀ b ∈ s.blocks, b.task = k.uid → ∀ y ∈ b.crews, y.moving = false) →
      ∃ t, exec (.kill c) s = .next t ∧ t.ctx c = { x with cmdstat := 2 } ∧ (t.task k.uid).killed = true ∧ 3 ≤ (t.task k.uid).status ∧
        (k.phase = .placed → ∀ b ∈ t.blocks, b.task = k.uid → b.retired = false → b.terminated = true) ∧
        (k.phase = .placed → (∀ b ∈ s.blocks, b.task = k.uid → b.retired = true) → (t.task k.uid).phase = .stamping) ∧
        (k.phase = .saved → (t.task k.uid).phase = .waitPeer ∧ (t.task k.uid).saves = []))

/-- Invalidation and power gating (R412 to R415): a legal command drops the handles it names, with the context's instruction caches, and
ends when every core has acknowledged; another has STATUS 2; a core that holds a block is not gated. -/
def Sys2Proof.Claims.InvalidationEvents : Prop := ∀ (s : State),
  (∀ i ∈ [Instr.invalHandles, .invalContext, .invalBadCommand], (∀ u, s.inval.wait s = some u → exec i s = .next u) ∧
    (s.inval.wait s = none → s.invalHead = none → exec i s = .next s)) ∧
  (∀ v, s.inval.wait s = none → s.invalHead = some v →
    let gone (hit : Nat → Bool) (t : State) : Prop := t.invalWait = some [] ∧
      ∀ k ∈ t.cores, (∀ h ∈ k.handles, ¬(h.1 / 2 ^ 18 = invalCtx v ∧ hit (h.1 % 2 ^ 18) = true)) ∧ ∀ y ∈ k.icache, y.1 ≠ invalCtx v
    (field v 0 8 ≠ 1 → exec .invalHandles s = .next s) ∧
    (field v 0 8 ≠ 2 → exec .invalContext s = .next s) ∧
    (field v 0 8 = 1 ∨ field v 0 8 = 2 → exec .invalBadCommand s = .next s) ∧
    (field v 0 8 ≠ 1 → field v 0 8 ≠ 2 → exec .invalBadCommand s = .next (s.endInval 2)) ∧
    (field v 0 8 = 1 → invalHandlesOk v = false → exec .invalHandles s = .next (s.endInval 2)) ∧
    (field v 0 8 = 2 → invalContextOk v = false → exec .invalContext s = .next (s.endInval 2)) ∧
    (field v 0 8 = 1 → invalHandlesOk v = true → ∃ t, exec .invalHandles s = .next t ∧ t.mem = s.mem ∧ t.inval = s.inval ∧
      gone (fun i => field v 64 18 ≤ i && i < field v 64 18 + field v 96 32) t) ∧
    (field v 0 8 = 2 → invalContextOk v = true →
      let torn : Prop := s.inUse (invalCtx v) = false ∧ (s.ctx (invalCtx v)).htcount = 0
      let busy := (s.services.filter (·.2.serv)).findSome? fun d => s.journalWait d.1 true
      (∀ u, torn → busy = some u → exec .invalContext s = .next u) ∧
      (torn → busy = none → ∃ t, exec .invalContext s = .next t ∧ t.inval = s.inval ∧ gone (fun _ => true) t ∧ t.rings = s.rings.filter (·.ctx != invalCtx v)) ∧
      (¬torn → ∃ t, exec .invalContext s = .next t ∧ t.inval = s.inval ∧ gone (fun _ => true) t ∧ t.rings = s.rings ∧ t.mem = s.mem))) ∧
  (∀ u, s.inval.wait s = some u → exec .invalidationDone s = .next u) ∧
  (s.inval.wait s = none →
    (s.invalWait ≠ some [] → exec .invalidationDone s = .next s) ∧
    (s.invalWait = some [] → exec .invalidationDone s = .next (if s.recheckAll.1 = true then s.recheckAll.2 else s.recheckAll.2.endInval 1))) ∧
  (∀ n, (s.endInval n).invalWait = none ∧ (s.endInval n).inval = if s.inval.on = true then { s.inval with cons := s.inval.cons + 1 } else s.inval) ∧
  ∀ k, ((∃ b ∈ s.blocks, b.core = k ∧ b.retired = false) → exec (.corePowerGate k) s = .next s) ∧
    ((∀ b ∈ s.blocks, b.core = k → b.retired = true) → ∃ t, exec (.corePowerGate k) s = .next t ∧ t.mem = s.mem ∧
      (k < s.cores.length → t.core k = { s.core k with l1 := [], icache := [], handles := [], params := [], gated := true }) ∧
      ∀ o ∈ t.owners, o.2 ≠ k)

/-- Records, retries, context commands and invalidation (R396 to R415). -/
def Obligations.CommandEvents : Prop := RecordEvents ∧ ParkedRetries ∧ ContextCommands ∧ InvalidationEvents

/-- Of what was sent between `s` and `t`, apart from snoops to borrowers and write-backs of borrowed lines, there is `l` and nothing else. -/
def Sys2Proof.Claims.Emitted (s t : State) (l : List Out) : Prop :=
  let other (o : Out) : Bool := match o with | .peerWrite _ _ _ => false | .snoop _ _ => false | _ => true
  t.outbox.filter other = s.outbox.filter other ++ l
/-- A request that is not served is counted and changes no byte. -/
def Sys2Proof.Claims.Unserved (s t : State) : Prop := t.sec.unserved = s.sec.unserved + 1 ∧ t.mem = s.mem

/-- A request that cannot be served yet is kept, with a number of its own. -/
def Sys2Proof.Claims.Kept (s : State) (r : Incoming) : State := { s with incoming := s.incoming ++ [{ r with id := s.nextId }], nextId := s.nextId + 1 }

/-- INCOMING_MEM_READ and INCOMING_MEM_WRITE from a host (R331, R333, R478): a request waits behind an earlier one of its requester that waits; a
mapped address is read, or written, once no matrix lock and no other part holds its line; one whose page is compressed, or whose line is held, is
kept; an address that is not mapped, or is another part's, is answered with poisoned zeros on CXL.mem and with an error on CXL.io, and
counted. -/
def Sys2Proof.Claims.HostRequests : Prop := ∀ (s : State) (src : BitVec 12) (path : MemPath) (ia n : Nat) (relaxed posted : Bool) (data : List Byte),
  (path = .cxlMem ∨ path = .cxlIo) →
  let rd : Incoming := { src := src, path := path, addr := ia, len := n }
  let wr : Incoming := { src := src, path := path, addr := ia, len := data.length, relaxed := relaxed, posted := posted, write := some data }
  let R := Instr.incomingMemRead ⟨src, path, relaxed⟩ ia n
  let W := Instr.incomingMemWrite ⟨src, path, relaxed⟩ posted ia data
  let foreign (k : Nat) (w : Bool) : Prop := (∃ p, s.place ia = .ok p ∧ p.peer.isSome = true) ∨ (∃ e, s.place ia = .error e ∧ e ≠ causeCompressed) ∨
    ∃ p, s.place ia = .ok p ∧ p.peer = none ∧ s.ownWait ia k w = none ∧ (s.reach ia k p).isSome = true
  (∀ q ∈ [(R, rd), (W, wr)], s.incoming.any q.2.behind = true → exec q.1 s = .next (Kept s q.2)) ∧
  (∀ p, s.place ia = .ok p → p.peer = none →
    (s.incoming.any rd.behind = false → s.ownWait ia n false = none → s.reach ia n p = none → ∃ t, exec R s = .next t ∧ t.mem = s.mem ∧
      Emitted s t [.readData (s.bytes p.phys n) (s.poisonedAt p.phys n)]) ∧
    (s.incoming.any wr.behind = false → s.ownWait ia data.length true = none → s.reach ia data.length p = none → ∃ t, exec W s = .next t ∧
      (ia % 65536 + data.length ≤ 65536 → t.mem = Sparse.putN memDefault s.mem p.phys data) ∧
      Emitted s t (if posted = true ∧ path = .cxlIo then [] else [.writeDone])) ∧
    (∀ u, s.incoming.any rd.behind = false → s.ownWait ia n false = some u → u.mem = s.mem ∧ exec R s = .next (Kept u rd)) ∧
    ∀ u, s.incoming.any wr.behind = false → s.ownWait ia data.length true = some u → u.mem = s.mem ∧
      exec W s = .next (Kept u wr)) ∧
  (s.incoming.any rd.behind = false → foreign n false → ∃ t, exec R s = .next t ∧ Unserved s t ∧
    t.outbox = s.outbox ++ [if path = .cxlMem then .readData (List.replicate n 0) true else .completerAbort]) ∧
  (s.incoming.any wr.behind = false → foreign data.length true → ∃ t, exec W s = .next t ∧ Unserved s t ∧
    t.outbox = s.outbox ++ (if path = .cxlMem then [.writeDone] else if posted = true then [] else [.completerAbort])) ∧
  (s.place ia = .error causeCompressed → ia < 2 ^ 64 → ∀ q ∈ [(R, rd), (W, wr)], s.incoming.any q.2.behind = false →
    ∃ t, exec q.1 s = .next t ∧ t.mem = s.mem ∧ t.outbox = s.outbox ∧ t.incoming = s.incoming ++ [{ q.2 with id := s.nextId }] ∧
      (ia / 65536 / 2 ^ 33 < s.mtus.length → ∃ x ∈ (t.mtu (ia / 65536 / 2 ^ 33)).expanding, x.1 = ia / 65536))

/-- A borrower's requests to an extent that this part lends (R333, R334, R434): served while its lease is OFFERED or ACTIVE and the bytes lie in it, and
otherwise an error that is counted; a response to a snoop brings dirty bytes, and the last one ends a recall with RELEASED. -/
def Sys2Proof.Claims.BorrowerRequests : Prop := ∀ (s : State) (src : BitVec 12) (id : Word) (off n : Nat) (relaxed posted : Bool) (data : List Byte),
  let rd : Incoming := { src := src, path := .lent id, addr := off, len := n }
  let wr : Incoming := { src := src, path := .lent id, addr := off, len := data.length, relaxed := relaxed, posted := posted, write := some data }
  let uio : Incoming := { src := ((s.leaseAt id).map (·.2.peer)).getD 0, path := .lent id, addr := off, len := data.length, relaxed := true, write := some data }
  let R := Instr.incomingMemRead ⟨src, .lent id, relaxed⟩ off n
  let writes := [(Instr.incomingMemWrite ⟨src, .lent id, relaxed⟩ posted off data, wr), (.uioWriteReceived id off data, uio)]
  (∀ q ∈ (R, rd) :: writes,
    (s.incoming.any q.2.behind = true → exec q.1 s = .next (Kept s q.2)) ∧
    (∀ u, s.incoming.any q.2.behind = false → s.lentAccess q.2.src id off q.2.len = .wait u → exec q.1 s = .next (Kept u q.2)) ∧
    (s.incoming.any q.2.behind = false → s.lentAccess q.2.src id off q.2.len = .refuse → ∃ t, exec q.1 s = .next t ∧ Unserved s t ∧
      t.outbox = s.outbox ++ (if q.2.posted = true ∧ q.2.write.isSome = true then [] else [.completerAbort]))) ∧
  (∀ k x i l u, s.lentAccess x id off k = .serve i l u → l.borrowed = false ∧ l.peer = x ∧ l.st ≠ .recalling ∧ off + k ≤ l.ngran * 2 ^ 28) ∧
  (∀ i l u, s.incoming.any rd.behind = false → s.lentAccess src id off n = .serve i l u →
    ∃ t, exec R s = .next t ∧ t.mem = u.mem ∧
      t.outbox = u.outbox ++ [.readData (u.bytes (l.phys off) n) (u.poisonedAt (l.phys off) n)] ∧
      (∀ x ∈ t.leases, x.1 = i → ∀ k ∈ linesOf off n, k ∈ x.2.cached)) ∧
  (∀ q ∈ writes, s.incoming.any q.2.behind = false → ∀ k l u, s.lentAccess q.2.src id off data.length = .serve k l u →
    (s.physLocked (l.phys off) data.length = true → exec q.1 s = .next (Kept s q.2)) ∧
    (s.physLocked (l.phys off) data.length = false → ∃ t, exec q.1 s = .next t ∧
      t.mem = Sparse.putN memDefault u.mem (l.phys off) data ∧ t.outbox = u.outbox ++ [.writeDone])) ∧
  ∀ line, let answers (dirty : List Byte) (i : Instr) : Prop := ∀ k l, s.leaseAt id = some (k, l) → Sparse.find? s.leases k = some l → l.borrowed = false →
      (∀ x ∈ l.answers, x.1 ≠ line) → (dirty = [] ∨ s.physLocked (l.phys (64 * line)) 64 = false) →
      let left := l.snoops.filter (·.1 != line)
      let w : State := (if dirty = [] then s else s.physWrite (l.phys (64 * line)) (dirty.take 64)).updLease k fun y =>
        { y with snoops := y.snoops.filter (·.1 != line), cached := y.cached.filter (· != line), answers := y.answers.filter (·.1 != line) }
      (w.mem = if dirty = [] then s.mem else Sparse.putN memDefault s.mem (l.phys (64 * line)) (dirty.take 64)) ∧
      (left ≠ [] ∨ l.cached.filter (· != line) ≠ [] ∨ l.st ≠ .recalling ∨ w.latigoWait.isSome = true → exec i s = .next w) ∧
      (left = [] → l.cached.filter (· != line) = [] → l.st = .recalling → w.latigoWait = none → ∃ t, exec i s = .next t ∧
        (∃ y, Sparse.find? t.leases k = some y ∧ y.st = .released) ∧
        (∃ v, Emitted s t [.message v] ∧ Lm.kind v = 9 ∧ Lm.dst v = l.peer ∧ Lm.lease v = id) ∧
        (s.latigo.busy = false → s.latigo.event.on = false → ∀ a, a < l.ngran * 2 ^ 28 → t.byte (l.phys a) = 0))
    (∀ dirty, (∀ k l, s.leaseAt id = some (k, l) → ∀ x ∈ l.snoops, x.1 ≠ line) → exec (.bisnpResponse id line dirty) s = .next s) ∧
    (∀ dirty, (∃ k l t, s.leaseAt id = some (k, l) ∧ (line, t) ∈ l.snoops) → answers dirty (.bisnpResponse id line dirty)) ∧
    -- dirty data waits for a matrix lock, and the recall with it (R291)
    (∀ dirty k l t, s.leaseAt id = some (k, l) → Sparse.find? s.leases k = some l → l.borrowed = false → (line, t) ∈ l.snoops → (∀ x ∈ l.answers, x.1 ≠ line) →
      dirty ≠ [] → s.physLocked (l.phys (64 * line)) 64 = true →
      exec (.bisnpResponse id line dirty) s = .next (s.updLease k fun y => { y with answers := y.answers ++ [(line, dirty.take 64)] })) ∧
    (∀ k l, s.leaseAt id = some (k, l) → (∃ x ∈ l.answers, x.1 = line) →
      exec (.bisnpTimeout id line) s = .next s ∧ ∀ dirty, exec (.bisnpResponse id line dirty) s = .next s) ∧
    ((∀ k l, s.leaseAt id = some (k, l) → ∀ x ∈ l.snoops, x.1 = line → s.devTime.toNat < x.2 + 1000000) → exec (.bisnpTimeout id line) s = .next s) ∧
    ((∃ k l t, s.leaseAt id = some (k, l) ∧ (line, t) ∈ l.snoops ∧ t + 1000000 ≤ s.devTime.toNat) → answers [] (.bisnpTimeout id line))

/-- BACK_INVALIDATE_SNOOP, and the end of peer stores (R333, R434, R442, R443): the borrowed line leaves every cache, and its dirty bytes go to the lender; an acknowledged
store leaves the list; one that failed, or had no answer in 50 ms, leaves its task with a status of at least FAULT. -/
def Sys2Proof.Claims.PeerRequests : Prop := ∀ (s : State),
  (∀ id line, (∀ x ∈ s.leases, x.2.id = id → x.2.borrowed = false) → exec (.backInvalidateSnoop id line) s = .next (s.emit (.snoopAnswer id line []))) ∧
  (∀ id line, (∃ x ∈ s.leases, x.2.id = id ∧ x.2.borrowed = true) →
    let phys := remoteBase + id.toNat * 2 ^ 40 + 64 * line
    ∃ t, exec (.backInvalidateSnoop id line) s = .next t ∧
      t.outbox = s.outbox ++ [.snoopAnswer id line (if s.dirtyBorrowed id (some line) = 0 then [] else s.bytes phys 64)] ∧
      (∀ x ∈ t.l2 ++ t.mvc, s.borrowedLine id (some line) x.1 = false) ∧
      ∀ a, ¬(phys ≤ a ∧ a < phys + 64) → t.byte a = s.byte a) ∧
  (∀ k, (∀ p ∈ s.peerStores, p.id ≠ k) → exec (.peerStoreTimeout k) s = .next s ∧ ∀ r, exec (.uioAck k r) s = .next s) ∧
  ∀ k p, s.peerStores.find? (·.id == k) = some p →
    (∃ t, exec (.uioAck k .ok) s = .next t ∧ t.mem = s.mem ∧ t.peerStores = s.peerStores.filter (·.id != k) ∧ t.tasks = s.tasks ∧
      ∀ o, p.op = some o → ∀ x, s.op o = some x → t.op o = some { x with unacked := x.unacked - 1 }) ∧
    (p.lease = 0 → exec (.uioAck k .error) s = .next s ∧ exec (.uioAck k .poisoned) s = .next s ∧ exec (.peerStoreTimeout k) s = .next s) ∧
    (s.devTime.toNat < p.sentAt + 50000000 → exec (.peerStoreTimeout k) s = .next s) ∧
    (p.lease ≠ 0 → ∀ i ∈ [Instr.uioAck k .error, .uioAck k .poisoned, .peerStoreTimeout k],
      (i = .peerStoreTimeout k → p.sentAt + 50000000 ≤ s.devTime.toNat) → ∃ t, exec i s = .next t ∧
        (∀ q ∈ t.peerStores, q.id ≠ k) ∧ ((∃ y ∈ s.tasks, y.uid = p.task) → 2 ≤ (t.task p.task).status) ∧
        (RecordFits s p.ctx → (∀ r ∈ s.records, r.ctx ≠ p.ctx) → (s.ctx p.ctx).trlog ≠ 0 →
          (t.ctx p.ctx).trprod = (s.ctx p.ctx).trprod + 1))

/-- Requests that arrive from outside (R331 to R334, R434, R442, R443, R478). -/
def Obligations.IncomingRequests : Prop := HostRequests ∧ BorrowerRequests ∧ PeerRequests

/-! ### Leases (20_leases_and_peers) -/

/-- `v` is a message of kind `k` from this part to `dst`, with its CHECK (R431). -/
def Sys2Proof.Claims.IsMsg (s : State) (k : Nat) (dst : BitVec 12) (v : BitVec 256) : Prop :=
  Lm.kind v = k ∧ Lm.dst v = dst ∧ Lm.src v = s.latigo.pbr ∧ Lm.sealed v = true
/-- One message of kind `k` to `dst`, of which `P` holds, and nothing else, was sent, apart from what the caches send (`Emitted`). -/
def Sys2Proof.Claims.Sent (s t : State) (k : Nat) (dst : BitVec 12) (P : BitVec 256 → Prop) : Prop :=
  ∃ v, Emitted s t [.message v] ∧ IsMsg s k dst v ∧ P v
/-- Entry `i` of the lease table is as `P` says. -/
def Sys2Proof.Claims.EntryIs (t : State) (i : Nat) (P : Lease → Prop) : Prop := ∃ y, Sparse.find? t.leases i = some y ∧ P y
/-- A message that the part takes up in `u`: its CHECK, kind, destination and epoch are right, nothing waits before it, and the event ring does not
stall the Latigo logic (R431, R436). -/
def Sys2Proof.Claims.TakenUp (u : State) (k : Nat) (v : BitVec 256) : Prop :=
  u.latigo.inbox = [] ∧ u.latigoWait = none ∧ Lm.sealed v = true ∧ Lm.kind v = k ∧ Lm.dst v = u.latigo.pbr ∧ (k < 0x10 → Lm.epoch v = u.latigo.fmEpoch)
/-- A step of the Latigo logic: what its entries owe first, which leaves `u`; then what `P` says, unless the event ring stalls the logic (R433, R436). -/
def Sys2Proof.Claims.LatigoDoes (s : State) (i : Instr) (P : State → State → Prop) : Prop :=
  let u := s.latigoSettle
  (∀ w, u.latigoWait = some w → exec i s = .next w) ∧ (u.latigoWait = none → ∃ t, exec i s = .next t ∧ P u t)

/-- The commands of Latigo (R432, R433): each is carried out when it heads the ring and the event ring does not stall; a reserved bit, an unknown
OPC, no granules, and a lease that is not ACTIVE in the role asked for have STATUS 2. -/
def Sys2Proof.Claims.LeaseCommands : Prop := ∀ (s : State),
  let now := s.devTime.toNat
  let cmds : List (Instr × Nat) := [(.leaseRequest, 1), (.leaseRenew, 2), (.leaseRelease, 3), (.leaseRecall, 4)]
  (s.latigoHead = none → exec .leaseBadCommand s = .next s) ∧
  (∀ p ∈ cmds, (s.headIs p.2 = none → exec p.1 s = .next s) ∧
    (s.headIs p.2 ≠ none → LatigoDoes s p.1 fun u t => (u.headIs p.2 = none → t = u) ∧
      ∀ c, u.headIs p.2 = some c → isZero c 17 83 = false → t = u.endLatigo 2 0)) ∧
  (∀ w st r, (State.endLatigo w st r).latigo = { w.latigo with
    cmd := if w.latigo.cmd.on = true then { w.latigo.cmd with cons := w.latigo.cmd.cons + 1 } else w.latigo.cmd, busy := false, request := none }) ∧
  (match s.latigo.request with
    | none => exec .requestNoAnswer s = .next s
    | some (_, sent, _) => (now < sent + 100000 → exec .requestNoAnswer s = .next s) ∧
        (sent + 100000 ≤ now →
          -- a REQUEST without an answer by then is over, with reason 5, as soon as the ring lets the logic go on and no answer waits that came in time
          let w := (s.leases.map (·.1)).foldl State.settleLease s.flushEvents
          (w.latigo.request = none ∨ w.latigoWait.isSome = true → exec .requestNoAnswer s = .next w) ∧
          (w.latigo.request = s.latigo.request → w.latigoWait = none → w.latigo.inbox = [] →
            exec .requestNoAnswer s = .next (w.endLatigo 2 5)))) ∧
  (∀ c, s.latigoHead = some c → (1 ≤ field c 0 8 → field c 0 8 ≤ 4 → exec .leaseBadCommand s = .next s) ∧
    (field c 0 8 = 0 ∨ 4 < field c 0 8 → LatigoDoes s .leaseBadCommand fun u t => t = if u.latigoHead = some c then u.endLatigo 2 0 else u)) ∧
  ∀ c, isZero c 17 83 = true →
    (s.headIs 1 ≠ none → LatigoDoes s .leaseRequest fun u t => u.headIs 1 = some c →
      (u.latigo.busy = true → t = u) ∧ (u.latigo.busy = false → field c 112 16 = 0 → t = u.endLatigo 2 0) ∧
      (u.latigo.busy = false → field c 112 16 ≠ 0 → t.latigo.busy = true ∧ t.latigo.request = some (c.extractLsb' 100 12, now, bit c 16) ∧
        Sent u t 1 (c.extractLsb' 100 12) fun v => Lm.ngran v = field c 112 16 ∧ Lm.term v = field c 128 32 ∧ Lm.uio v = bit c 16)) ∧
    (s.headIs 2 ≠ none → LatigoDoes s .leaseRenew fun u t => u.headIs 2 = some c →
      (u.named c true = none → t = u.endLatigo 2 0) ∧
      ∀ i l, u.named c true = some (i, l) → Sparse.find? u.leases i = some l → (u.latigo.busy = true → t = u) ∧
        (u.latigo.busy = false → t.latigo.busy = true ∧ Sent u t 5 l.peer (fun v => Lm.lease v = l.id) ∧
          EntryIs t i fun y => y = { l with renewals := l.renewals ++ [now] })) ∧
    (s.headIs 3 ≠ none → LatigoDoes s .leaseRelease fun u t => u.headIs 3 = some c →
      (u.latigo.busy = true → t = u) ∧ (u.latigo.busy = false → u.named c true = none → t = u.endLatigo 2 0) ∧
      ∀ i l, u.latigo.busy = false → u.named c true = some (i, l) → Sparse.find? u.leases i = some l →
        t.latigo.busy = true ∧ Sent u t 8 l.peer (fun v => Lm.lease v = l.id) ∧ EntryIs t i fun y => y.st = .recalling ∧ y.id = l.id) ∧
    (s.headIs 4 ≠ none → LatigoDoes s .leaseRecall fun u t => u.headIs 4 = some c →
      (u.latigo.busy = true → t = u) ∧ (u.latigo.busy = false → u.named c false = none → t = u.endLatigo 2 0) ∧
      ∀ i l, u.latigo.busy = false → u.named c false = some (i, l) → Sparse.find? u.leases i = some l →
        (u.latigo.maxterm < field c 128 32 → t = u.endLatigo 2 0) ∧
        (field c 128 32 ≤ u.latigo.maxterm → t.latigo.busy = true ∧ Sent u t 7 l.peer (fun v => Lm.lease v = l.id ∧ Lm.term v = field c 128 32) ∧
          EntryIs t i fun y => y.st = .active ∧ y.notice = true ∧ y.graceEnd = now + 1000 * field c 128 32))

/-- Messages between the parties of a lease (R431 to R436): one that is not for this part changes nothing, and one that comes while the event ring stalls the
Latigo logic is kept; a REQ is granted from free granules to a part that PERMIT allows, or refused with its reason; OFFER, ACCEPT, RENEW,
RENEWED, NOTICE, RELEASE and RELEASED move the entry they name. -/
def Sys2Proof.Claims.LeaseMessages : Prop := ∀ (s : State) (v : BitVec 256),
  let u := s.latigoSettle
  let now := s.devTime.toNat
  let src := Lm.src v
  let id := Lm.lease v
  (∀ p ∈ [(Instr.req v, 1), (.offer v, 2), (.accept v, 3), (.refuse v, 4), (.renew v, 5), (.renewed v, 6), (.notice v, 7), (.release v, 8), (.released v, 9),
      (.alive v, 0x10), (.announce v, 0x11), (.claim v, 0x12)],
    (Lm.kind v ≠ p.2 → exec p.1 s = .next s) ∧
    (Lm.kind v = p.2 → u.latigo.inbox ≠ [] ∨ u.latigoWait.isSome = true →
      exec p.1 s = .next { u with latigo := { u.latigo with inbox := u.latigo.inbox ++ [(u.devTime.toNat, v)] } }) ∧
    (Lm.kind v = p.2 → u.latigo.inbox = [] → u.latigoWait = none → ¬TakenUp u p.2 v → exec p.1 s = .next u)) ∧
  (TakenUp u 1 v →
    let permitted : Prop := bit ((Sparse.find? u.latigo.permit (src.toNat / 64)).getD 0) (src.toNat % 64) = true
    let refused (r : Nat) : Prop := ∃ t, exec (.req v) s = .next t ∧ t.leases = u.leases ∧ Sent u t 4 src fun m => Lm.arg m = r
    (¬permitted → refused 1) ∧ (permitted → u.poolRun (Lm.ngran v) = none → refused 2) ∧
    (∀ g, permitted → u.poolRun (Lm.ngran v) = some g → u.freeLease = none → refused 3) ∧
    (∀ g, u.poolRun (Lm.ngran v) = some g → g + Lm.ngran v ≤ u.pers.poolgr ∧ ∀ w ∈ u.granules, overlap w.1 w.2 g (Lm.ngran v) = false) ∧
    ∀ g i, permitted → u.poolRun (Lm.ngran v) = some g → u.freeLease = some i → ∃ t, exec (.req v) s = .next t ∧
      EntryIs t i fun y => y.st = .offered ∧ y.borrowed = false ∧ y.peer = src ∧ y.poolg = g ∧ y.ngran = Lm.ngran v ∧
        y.term = min (Lm.term v) u.latigo.maxterm ∧ y.expiry = now + 1000 * y.term ∧
        Sent u t 2 src fun m => Lm.lease m = y.id ∧ Lm.term m = y.term % 2 ^ 32 ∧ Lm.ngran m = y.ngran) ∧
  (TakenUp u 2 v →
    -- the entry that held the identifier before, when it is RELEASED, else the lowest free one
    let entry := match u.leases.find? fun x => x.2.id == id && x.2.borrowed with
      | some x => if x.2.st = .released then some x.1 else none
      | none => u.freeLease
    -- no OFFER answers a REQUEST that has waited 100 µs (R432)
    (∀ peer sent x, s.latigo.request = some (peer, sent, x) → sent + 100000 ≤ now → u.latigo.request = none) ∧
    ((∀ peer sent x, u.latigo.request = some (peer, sent, x) → peer ≠ src ∨ entry = none) →
      ∃ t, exec (.offer v) s = .next t ∧ t.leases = u.leases ∧ Sent u t 8 src fun m => Lm.lease m = id) ∧
    ∀ sent x i, u.latigo.request = some (src, sent, x) → entry = some i → ∃ t, exec (.offer v) s = .next t ∧
      t.latigo.busy = false ∧ t.latigo.request = none ∧ Sent u t 3 src (fun m => Lm.lease m = id) ∧
      EntryIs t i fun y => y.st = .active ∧ y.borrowed = true ∧ y.id = id ∧ y.peer = src ∧ y.ngran = Lm.ngran v ∧
        y.expiry = borrowerExpiry sent (Lm.term v)) ∧
  (TakenUp u 4 v → (∀ sent x, u.latigo.request = some (src, sent, x) → exec (.refuse v) s = .next (u.endLatigo 2 (Lm.arg v % 256))) ∧
    ((∀ peer sent x, u.latigo.request = some (peer, sent, x) → peer ≠ src) → exec (.refuse v) s = .next u)) ∧
  (u.leaseAt id = none → ∀ p ∈ [(Instr.accept v, 3), (.renew v, 5), (.renewed v, 6), (.notice v, 7), (.release v, 8), (.released v, 9)],
    TakenUp u p.2 v → exec p.1 s = .next u) ∧
  ∀ i l, u.leaseAt id = some (i, l) → Sparse.find? u.leases i = some l →
    (l.peer ≠ src → ∀ p ∈ [(Instr.accept v, 3), (.renew v, 5), (.renewed v, 6), (.notice v, 7), (.release v, 8), (.released v, 9)],
      TakenUp u p.2 v → exec p.1 s = .next u) ∧
    (l.peer = src →
      (TakenUp u 3 v → l.borrowed = false → l.st = .offered → ∃ t, exec (.accept v) s = .next t ∧ Emitted u t [] ∧ EntryIs t i fun y => y.st = .active) ∧
      (TakenUp u 5 v → l.borrowed = false → l.live now = true →
        let term := if l.notice = true then min (min (Lm.term v) u.latigo.maxterm) ((l.graceEnd - now) / 1000) else min (Lm.term v) u.latigo.maxterm
        ∃ t, exec (.renew v) s = .next t ∧ Sent u t 6 l.peer (fun m => Lm.lease m = id ∧ Lm.term m = term % 2 ^ 32) ∧
          EntryIs t i fun y => y.st = .active ∧ y.term = term ∧ y.expiry = now + 1000 * term) ∧
      (∀ sent r, TakenUp u 6 v → l.borrowed = true → l.live now = true → l.renewals = sent :: r → ∃ t, exec (.renewed v) s = .next t ∧ Emitted u t [] ∧
        EntryIs t i fun y => y.st = .active ∧ y.term = Lm.term v ∧ y.expiry = borrowerExpiry sent (Lm.term v) ∧ y.renewals = r) ∧
      (TakenUp u 7 v → l.borrowed = true → l.live now = true → ∃ t, exec (.notice v) s = .next t ∧ Emitted u t [] ∧
        EntryIs t i fun y => y.st = .active ∧ y.notice = true ∧ y.graceEnd = now + 1000 * Lm.term v) ∧
      (TakenUp u 8 v → l.borrowed = false → l.live now = true →
        (l.cached = [] →
          let w := (u.toState i .recalling causeRelease).updLease i fun y => { y with snoops := [] }
          (w.latigoWait = none → ∃ t, exec (.release v) s = .next t ∧ Sent u t 9 src (fun m => Lm.lease m = id) ∧ EntryIs t i fun y => y.st = .released) ∧
          (w.latigoWait.isSome = true → ∃ t, exec (.release v) s = .next t ∧ EntryIs t i fun y => y.st = .recalling)) ∧
        (l.cached ≠ [] → ∃ t, exec (.release v) s = .next t ∧ (EntryIs t i fun y => y.st = .recalling ∧ y.snoops.map (·.1) = l.cached) ∧
          ∀ k ∈ l.cached, (∀ x ∈ l.snoops, x.1 ≠ k) → Out.snoop id k ∈ t.outbox)) ∧
      (TakenUp u 9 v → l.borrowed = true → l.st = .recalling → ∃ t, exec (.released v) s = .next t ∧ Emitted u t [] ∧
        EntryIs t i fun y => y.st = .released ∧ y.notice = false))

/-- An OFFER that this part has made and that nothing has taken up within 100 µs, on an entry `l` (R433). -/
def Sys2Proof.Claims.OfferOver (s : State) (l : Lease) : Prop := l.borrowed = false ∧ l.st = .offered ∧ l.offeredAt + 100000 ≤ s.devTime.toNat ∧
  ∀ m ∈ s.latigo.inbox, ¬(m.1 < l.offeredAt + 100000 ∧ Lm.kind m.2 = 3 ∧ Lm.lease m.2 = l.id)
/-- The grace period of a notice is over, on an entry `l` that is ACTIVE still (R433). -/
def Sys2Proof.Claims.GraceOver (s : State) (l : Lease) : Prop := l.st = .active ∧ l.due = none ∧ l.notice = true ∧ l.graceEnd ≤ s.devTime.toNat
/-- Timers of leases (R432, R433, R435, R436, R438): an OFFER lapses after 100 µs, and no ACCEPT takes it up after that; a lease that expires ends at once,
and its borrower's cached lines go with it; its transition follows when the event ring does not stall it; the end of a notice's grace period hands the
lease back; RENEW is sent when less than a quarter of the term remains, and again each sixteenth. What an entry owes is done whenever the Latigo logic
moves. -/
def Sys2Proof.Claims.LeaseTimers : Prop := ∀ (s : State) (i : Nat),
  let now := s.devTime.toNat
  let f := s.flushEvents
  -- what one entry owes
  (∀ l, Sparse.find? s.leases i = some l → l.due = none →
    (s.latigoWait.isSome = true → l.st ≠ .active ∨ now < l.expiry → s.settleLease i = s) ∧
    (s.latigoWait = none → OfferOver s l → Emitted s (s.settleLease i) [] ∧ EntryIs (s.settleLease i) i fun y => y.st = .released) ∧
    (s.latigoWait = none → GraceOver s l → now < l.expiry →
      (l.borrowed = true → Sent s (s.settleLease i) 8 l.peer (fun m => Lm.lease m = l.id) ∧ EntryIs (s.settleLease i) i fun y => y.st = .recalling) ∧
      (l.borrowed = false → EntryIs (s.settleLease i) i fun y => y.st = .recalling ∨ l.cached = [] ∧ y.st = .released))) ∧
  exec (.leaseExpiry i) s = .next (f.settleLease i) ∧
  (¬OfferOver s (s.lease i) → exec (.offerTimeout i) s = .next s) ∧
  (OfferOver s (s.lease i) → exec (.offerTimeout i) s = .next s.latigoSettle ∧
    ∀ l, s.leases.map (·.1) = [i] → Sparse.find? f.leases i = some l → l.due = none → OfferOver f l → f.latigoWait = none →
      EntryIs s.latigoSettle i (fun y => y.st = .released) ∧
      ∀ v, TakenUp s.latigoSettle 3 v → Lm.lease v = l.id → exec (.accept v) s = .next s.latigoSettle) ∧
  (¬GraceOver s (s.lease i) → exec (.gracePeriodEnd i) s = .next s) ∧
  (GraceOver s (s.lease i) → exec (.gracePeriodEnd i) s = .next s.latigoSettle ∧
    ∀ l, s.leases.map (·.1) = [i] → Sparse.find? f.leases i = some l → GraceOver f l → now < l.expiry → f.latigoWait = none →
      EntryIs s.latigoSettle i fun y => y.st = .recalling ∨ l.borrowed = false ∧ l.cached = [] ∧ y.st = .released) ∧
  (let due (l : Lease) : Prop := l.borrowed = true ∧ l.live now = true ∧ l.expiry < now + 250 * l.term ∧
      ∀ x, l.renewals.getLast? = some x → x + 1000 * l.term / 16 ≤ now
   (¬due (s.lease i) → exec (.renewTimer i) s = .next s) ∧
   (due (s.lease i) → LatigoDoes s (.renewTimer i) fun u t => (¬due (u.lease i) → t = u) ∧
     (due (u.lease i) → Sent u t 5 (u.lease i).peer (fun m => Lm.lease m = (u.lease i).id) ∧
       EntryIs t i fun y => y = { u.lease i with renewals := (u.lease i).renewals ++ [now] }))) ∧
  (let w := f.loseLease i causeExpired
   ∀ l, Sparse.find? f.leases i = some l →
    (now < l.expiry → l.due = none → l.st = .released ∨ (l.st = .active ∧ l.notice = false) → exec (.leaseExpiry i) s = .next f) ∧
    (l.expiry ≤ now → l.st = .active → l.due = none →
      (w.latigoWait.isSome = true → exec (.leaseExpiry i) s = .next w) ∧
      (w.latigoWait = none → ∃ t, exec (.leaseExpiry i) s = .next t ∧ EntryIs t i fun y =>
        if l.borrowed = true then y.st = .released else y.st = .recalling ∨ l.cached = [] ∧ y.st = .released))) ∧
  -- the end of a lease, whatever its cause
  ∀ l cause, Sparse.find? s.leases i = some l → l.st = .active → l.due = none →
    let t := s.loseLease i cause
    t.mem = s.mem ∧ t.outbox = s.outbox ∧ (t.lease i).live now = false ∧
      (l.borrowed = true → (t.lease i).due = some (cause, s.dirtyBorrowed l.id none) ∧ ∀ x ∈ t.l2 ++ t.mvc, s.borrowedLine l.id none x.1 = false)

/-- The fabric manager and its election (R439 to R441): ALIVE and its timers, ANNOUNCE of a manager that outranks the known one, CLAIM and the
election, and DEPART, which ends the leases with the part that left. -/
def Sys2Proof.Claims.FabricEvents : Prop := ∀ (s : State) (v : BitVec 256),
  let u := s.latigoSettle
  let now := s.devTime.toNat
  let src := Lm.src v
  let l := s.latigo
  let m := u.latigo
  let toAll (w t : State) (k arg : Nat) : Prop := ∀ d ∈ w.latigo.reach, ∃ x, Out.message x ∈ t.outbox ∧ IsMsg w k d x ∧ Lm.arg x = arg
  let lost (w t : State) (p : BitVec 12) : Prop := ∀ i y, Sparse.find? w.leases i = some y → y.st = .active → (p = w.latigo.pbr ∨ y.peer = p) →
    EntryIs t i fun z => z.live now = false
  (TakenUp u 0x10 v → (m.isFm = false → exec (.alive v) s = .next u) ∧
    (m.isFm = true → ∃ t, exec (.alive v) s = .next t ∧ Sparse.find? t.latigo.heard src.toNat = some now ∧ src.toNat ∉ t.latigo.departed ∧
      if src.toNat ∈ m.departed then Sent u t 0x13 src (fun x => Lm.arg x = src.toNat) else t.outbox = u.outbox)) ∧
  (TakenUp u 0x11 v →
    let above : Prop := m.fmValid = false ∨ m.fmEpoch.toNat < (Lm.epoch v).toNat ∨
      (Lm.epoch v = m.fmEpoch ∧ outranks (Lm.arg v % 256) src m.fmPri.toNat m.fmPbr = true)
    (above → ∃ t, exec (.announce v) s = .next t ∧ t.latigo.fmPbr = src ∧ t.latigo.fmValid = true ∧ t.latigo.fmEpoch = Lm.epoch v ∧
      t.latigo.fmPri.toNat = Lm.arg v % 256 ∧ t.latigo.isFm = false ∧ t.latigo.claim = none ∧ t.latigo.lastAnnounce = now) ∧
    (¬above → ∃ t, exec (.announce v) s = .next t ∧ t.latigo = if Lm.epoch v = m.fmEpoch ∧ m.isFm = false then { m with lastAnnounce := now } else m)) ∧
  (TakenUp u 0x12 v → (m.claim = none → exec (.claim v) s = .next u) ∧
    ∀ e sent, m.claim = some (e, sent) → ∃ t, exec (.claim v) s = .next t ∧ t.outbox = u.outbox ∧
      t.latigo.claim = if e.toNat ≤ (Lm.epoch v).toNat ∧ outranks (Lm.arg v % 256) src u.pers.candPri.toNat m.pbr = true then none else m.claim) ∧
  (¬(Lm.sealed v = true ∧ Lm.kind v = 0x13 ∧ Lm.dst v = l.pbr ∧ Lm.epoch v = l.fmEpoch) → exec (.depart v) s = .next s) ∧
  (Lm.sealed v = true → Lm.kind v = 0x13 → Lm.dst v = l.pbr → Lm.epoch v = l.fmEpoch → ∃ t, exec (.depart v) s = .next t ∧ lost s t (BitVec.ofNat 12 (Lm.arg v))) ∧
  (let waits : Prop := l.fmValid = false ∨ l.isFm = true ∨ now < l.lastAlive + 100000
   (waits → exec .aliveTimer s = .next s) ∧
   (¬waits → LatigoDoes s .aliveTimer fun u t => Sent u t 0x10 u.latigo.fmPbr (fun _ => True) ∧ t.latigo.lastAlive = now)) ∧
  (let waits : Prop := l.isFm = false ∨ now < l.lastAnnounce + 100000
   (waits → exec .announceTimer s = .next s) ∧
   (¬waits → LatigoDoes s .announceTimer fun u t => toAll u t 0x11 u.latigo.fmPri.toNat ∧ t.latigo.lastAnnounce = now)) ∧
  (let waits : Prop := s.pers.cand = false ∨ l.isFm = true ∨ l.claim.isSome = true ∨ now < l.lastAnnounce + 1000000
   (waits → exec .announceAbsence s = .next s) ∧
   (¬waits → LatigoDoes s .announceAbsence fun u t => toAll u t 0x12 u.pers.candPri.toNat ∧ t.latigo.claim = some (u.latigo.fmEpoch + 1, now))) ∧
  ((l.claim = none → exec .electionWin s = .next s) ∧ ∀ e sent, l.claim = some (e, sent) →
    (now < sent + 200000 → exec .electionWin s = .next s) ∧
    (sent + 200000 ≤ now → LatigoDoes s .electionWin fun u t => toAll u t 0x11 u.pers.candPri.toNat ∧
      t.latigo.isFm = true ∧ t.latigo.fmPbr = u.latigo.pbr ∧ t.latigo.fmValid = true ∧ t.latigo.fmEpoch = e ∧ t.latigo.claim = none ∧
      t.latigo.departed = [] ∧ (∀ p ∈ u.latigo.reach, p ≠ u.latigo.pbr → Sparse.find? t.latigo.heard p.toNat = some now) ∧
      ∀ p ∈ u.latigo.reach, ∃ r, Out.fmApi p r ∈ t.outbox)) ∧
  ∀ p : BitVec 12,
    (l.isFm = false ∨ p.toNat ∈ l.departed ∨ (∀ x, Sparse.find? l.heard p.toNat = some x → now < x + 1000000) → exec (.aliveTimeout p) s = .next s) ∧
    ∀ x, l.isFm = true → p.toNat ∉ l.departed → Sparse.find? l.heard p.toNat = some x → x + 1000000 ≤ now →
      LatigoDoes s (.aliveTimeout p) fun u t => toAll u t 0x13 p.toNat ∧ p.toNat ∈ t.latigo.departed ∧ lost u t p

/-- Leases and the fabric manager (R428 to R441). -/
def Obligations.LeaseEvents : Prop := LeaseCommands ∧ LeaseMessages ∧ LeaseTimers ∧ FabricEvents

/-! ### Checkpoints, reset and the part's registers (21_retirement_and_recovery to 23_platform) -/

/-- QUIESCE, RESUME and CLEAR (R451 to R453, R457, R458): a write to CKCMD is accepted in the states of its command, while no other command waits to be taken
up; a QUIESCE needs room for every image, saves the placed tasks, waits for what is in progress and then writes dirty lines back; RESUME puts the
saved tasks back into the pool. -/
def Sys2Proof.Claims.CheckpointCommands : Prop := ∀ (s : State),
  let taken : Checkpoint := { s.ck with cmd := 0 }
  let st := s.ck.st
  let accepts (opc : Nat) : Prop := (opc = 1 ∧ st = .running) ∨ (opc = 2 ∧ (st = .quiesced ∨ st = .written)) ∨
    (opc = 3 ∧ (st = .quiesced ∨ st = .written ∨ st = .loaded)) ∨ (opc = 4 ∧ st = .running ∧ ∀ c, c < 64 → s.inUse c = false) ∨
    (opc = 5 ∧ st = .failed ∧ s.ck.afterLoad = false)
  (∀ v : DWord, (s.ck.cmd = 0 → accepts (field v 0 8) → exec (.registerWrite 0xF000600000 v) s = .next { s with
      ck := { s.ck with cmd := v.extractLsb' 0 8, incr := if field v 0 8 = 2 then bit v 8 else s.ck.incr } }) ∧
    (s.ck.cmd ≠ 0 ∨ ¬accepts (field v 0 8) → exec (.registerWrite 0xF000600000 v) s = .next s)) ∧
  (∀ p ∈ [(Instr.quiesce, (1 : BitVec 8)), (.snap, 2), (.load, 4), (.clear, 5)], s.ck.cmd ≠ p.2 → exec p.1 s = .next s) ∧
  (s.ck.cmd ≠ 3 → exec .ckResume s = .next (if st = .running then s.resumeSome else s)) ∧
  (s.ck.cmd = 1 → exec .quiesce s = .next { s with ck := if s.ck.arealen.toNat < (s.imaged.map (·.rec_.imageSize)).sum
    then { taken with st := .failed, err := 7, shard := 0, afterLoad := false, still := false }
    else { taken with st := .quiescing, err := 0, shard := 0, still := false } }) ∧
  (s.ck.cmd = 2 → exec .snap s = .next { s with ck := { taken with st := .writing, err := 0, shard := 0 } }) ∧
  (s.ck.cmd = 4 → exec .load s = .next { s with ck := { taken with st := .loading, err := 0, shard := 0 } }) ∧
  (s.ck.cmd = 5 → exec .clear s = .next { s with ck := { taken with st := .running } }) ∧
  (st ≠ .quiescing ∨ (∃ k ∈ s.cores, k.compacting = true) → exec .quiesceComplete s = .next s) ∧
  (∀ ok u, st = .quiescing → (∀ k ∈ s.cores, k.compacting = false) → State.quiesceTasks (s.imaged.filter fun t => t.phase == .placed) s.nextImage s = (ok, u) →
    (ok = false ∨ u.ckBusy = true → exec .quiesceComplete s = .next u) ∧
    (ok = true → u.ckBusy = false → (∃ m ∈ u.mtus, m.expanding ≠ []) → exec .quiesceComplete s = .next { u with ck := { u.ck with still := true } }) ∧
    (ok = true → u.ckBusy = false → (∀ m ∈ u.mtus, m.expanding = []) → ∃ t, exec .quiesceComplete s = .next t ∧ t.mem = u.mem ∧
      t.ck = { u.ck with st := .quiesced, still := true } ∧ t.l2.map (·.1) = u.l2.map (·.1) ∧ ∀ x ∈ t.l2 ++ t.mvc, x.2.dirty = false)) ∧
  (s.ck.cmd = 3 → ∃ t, exec .ckResume s = .next t ∧ t.mem = s.mem ∧ t.ck = { taken with st := .running, still := false } ∧
    -- entries of the pool are set aside as far as it has room, and the rest follow (R58)
    (s.tasks.length + s.pool.length + s.arriving ≤ 16384 →
      ∀ k ∈ s.tasks, k.phase = .saved → (st = .loaded ∨ k.quiesced = true) → ∃ e ∈ t.pool, e.restore = some k.uid) ∧
    t.pool.length ≤ max 16384 s.pool.length)

/-- SNAP_COMPLETE (R454 to R456): each shard that is not carried over from the base step is written at its place, with its header, its data and its
poison, the state shard with the hub's state; then the manifest, with an entry for every shard. Then, and only then, DIRTY of the pages written is clear.
A write that the safe tier refuses leaves ERR and the shard, and no manifest of its own. Which index stands for the manifest, and what a failed SNAP
leaves of DIRTY, is the model's choice (log 23). -/
def Sys2Proof.Claims.SnapEvents : Prop := ∀ (s : State),
  let c := s.ck
  (c.st ≠ .writing → ∀ failed, exec (.snapComplete failed) s = .next s) ∧
  (c.st = .writing → ∀ f : Word, ∃ t, exec (.snapComplete (some f)) s = .next t ∧ t.mem = s.mem ∧ t.pageBits = s.pageBits ∧ t.ck.st = .failed ∧
    t.ck.err = 6 ∧ t.ck.shard = f ∧ t.ck.afterLoad = false ∧
    ∀ a, (∀ k, k < s.shards.length → k < f.toNat → a ≠ shardAt c.target k) → Sparse.find? t.safeTier a = Sparse.find? s.safeTier a) ∧
  (c.st = .writing → (∀ k, c.base.toNat ≠ shardAt c.target k) →
    ∃ t h l image, exec (.snapComplete none) s = .next t ∧ t.mem = s.mem ∧ t.ck.st = .written ∧ t.outbox = s.outbox ++ [.safeTier c.target 1] ∧
      t.manifestAt c.target.toNat = some (h, l) ∧ l.length = s.shards.length ∧
      h.extractLsb' 192 64 = c.step ∧ h.extractLsb' 160 32 = c.job ∧ h.extractLsb' 120 8 = c.dev ∧ h.extractLsb' 112 8 = c.ndev ∧
      field h 104 8 = s.pers.zc % 256 ∧ field h 92 12 = s.pers.poolgr % 4096 ∧ h.extractLsb' 80 8 = Config.impRev ∧ bit h 8 = c.incr ∧
      h.extractLsb' 256 256 = manifestDigest h l ∧
      (∀ k p, s.shards[k]? = some p → s.oldEntry k p = none → ∃ x e, t.storedShard (shardAt c.target k) = some x ∧ l[k]? = some e ∧
        x.data = s.shardData image p ∧ x.poison = s.shardPoison p ∧ (p.kind = .state → x.hub = some s.saveStep) ∧
        ∀ v ∈ [x.head, e], v.extractLsb' 256 256 = Config.shake256 x.data ∧ v.extractLsb' 192 64 = c.step ∧ field v 96 32 = x.data.length % 2 ^ 32 ∧
          field v 64 32 = k % 2 ^ 32 ∧ field v 8 8 = p.kind.code) ∧
      (∀ k p e, s.shards[k]? = some p → s.oldEntry k p = some e → l[k]? = some e ∧
        Sparse.find? t.safeTier (shardAt c.target k) = Sparse.find? s.safeTier (shardAt c.target k)) ∧
      (c.incr = false → t.ck.bytes = BitVec.ofNat 64 (2 ^ 22 + (s.shards.map fun p => 4096 + (s.shardData image p).length).sum) ∧
        ∀ k p, k < 8 → p < (s.mtu k).mptlen → p < 2 ^ 33 → let e := s.pte ((k * 2 ^ 33 + p) * 65536)
          field e 61 3 = 1 → field e 0 25 % 2 ^ 22 < 4 * s.groups → bit (t.pte ((k * 2 ^ 33 + p) * 65536)) 59 = false)) ∧
  -- the shards of the checkpoint space: the state, and each region's frames in pieces of 64 MiB
  s.shards.head? = some { kind := .state, frames := [] } ∧ (∀ p ∈ s.shards, p.frames.length ≤ 1024) ∧
  ∀ r, r ≠ .state → ((s.shards.filter (·.kind == r)).flatMap (·.frames)) = s.frames r

/-- LOAD_COMPLETE (R457, R459): the manifest, its division and revision, then every shard's header, its step and place, and its digest, in this order; the
first that fails ends the command with its ERR and its shard. Where none fails the part is as the state shard has saved it, with pages disabled, caches
empty and every fast slot's resident index 0. -/
def Sys2Proof.Claims.LoadEvents : Prop := ∀ (s : State) (error : BitVec 8) (shard : Word),
  let c := s.ck
  (c.st ≠ .loading → exec (.loadComplete error shard) s = .next s) ∧
  (c.st = .loading →
    let fails (e : BitVec 8) (sh : Nat) : Prop := ∃ t, exec (.loadComplete error shard) s = .next t ∧ t.ck.st = .failed ∧ t.ck.err = e ∧
      t.ck.shard = BitVec.ofNat 32 sh ∧ t.ck.afterLoad = true ∧ t.blocks = s.blocks ∧ Memory.wf t.mem = true
    (error = 2 ∨ s.manifestAt c.target.toNat = none → fails 2 0) ∧
    ∀ h l, error ≠ 2 → s.manifestAt c.target.toNat = some (h, l) →
      let whole : Prop := h.extractLsb' 256 256 = manifestDigest h l ∧ h.extractLsb' 192 64 = c.step
      let mine : Prop := h.extractLsb' 160 32 = c.job ∧ h.extractLsb' 120 8 = c.dev ∧ h.extractLsb' 112 8 = c.ndev ∧ field h 104 8 = s.pers.zc ∧
        field h 92 12 = s.pers.poolgr ∧ h.extractLsb' 80 8 = Config.impRev
      let stored (e : BitVec 512) := s.shardOf h e (if error = 3 then some shard.toNat else none)
      let present (e : BitVec 512) : Prop := ∃ x, stored e = some x ∧ field x.head 96 32 = field e 96 32
      let unmixed (e : BitVec 512) : Prop := ∃ x, stored e = some x ∧ x.head.extractLsb' 192 64 = e.extractLsb' 192 64 ∧ field x.head 64 32 = field e 64 32 ∧
        x.head.extractLsb' 160 32 = c.job ∧ x.head.extractLsb' 152 8 = c.dev
      let intact (e : BitVec 512) : Prop := ∃ x, stored e = some x ∧ Config.shake256 x.data = x.head.extractLsb' 256 256 ∧
        Config.shake256 x.data = e.extractLsb' 256 256 ∧ (field e 8 8 ≠ 0 ∨ x.hub.isSome = true)
      -- the first entry that `ok` does not hold of
      let first (ok : BitVec 512 → Prop) (e : BitVec 512) : Prop := ∃ j : Nat, l[j]? = some e ∧ ¬ok e ∧ ∀ (i : Nat) d, i < j → l[i]? = some d → ok d
      (¬whole → fails 2 0) ∧ (whole → ¬mine → fails 1 0) ∧
      (whole → mine →
        (∀ e, first present e → fails 3 (field e 64 32)) ∧
        ((∀ e ∈ l, present e) → (∀ e, first unmixed e → fails 4 (field e 64 32)) ∧
          ((∀ e ∈ l, unmixed e) → (∀ e, first intact e → fails 5 (field e 64 32)) ∧
            ((∀ e ∈ l, intact e) → ∀ k, (l.filterMap fun e => (stored e).bind (·.hub)).head? = some k →
              ∃ t, exec (.loadComplete error shard) s = .next t ∧ t.ck.st = .loaded ∧ t.contexts = k.contexts ∧ t.mtus = k.mtus ∧
                t.queues = k.queues ∧ t.services = k.services ∧ t.rings = k.rings ∧ t.pool = k.pool ∧ t.eligible = k.eligible ∧ t.records = k.records ∧
                t.tasks.map (·.uid) = k.tasks.map (·.uid) ∧ (∀ x ∈ t.pages, x.2.en = false) ∧ (∀ x ∈ t.requests, x.heldBy = none) ∧
                t.resident = [] ∧ t.l2 = [] ∧ t.mvc = [] ∧ t.rowSlots = [] ∧ t.owners = [])))))

/-- Reset, attestation, Cinch, the thermal limits and the ports (R12, R427, R433, R469 to R476): a part reset empties the part but for what lies outside
it, and boots it; a measurement is answered; Cinch stops and restarts every clock and reads eight bytes at a time; a link that goes down ends the leases it cuts off. -/
def Sys2Proof.Claims.PlatformEvents : Prop := ∀ (s : State),
  -- whether DRAM trains is free
  (let up := bootOk && Config.freeBool s.free
   ∃ t, exec .partReset s = .next t ∧ t.boot = (if up = true then .up else .recovery) ∧ t.outbox = s.outbox ∧ t.safeTier = s.safeTier ∧
    t.mem = (if up = true then (State.reset.installTables Pr.poolgr).mem else []) ∧ t.pageBits = [] ∧ t.blocks = [] ∧ t.tasks = [] ∧ t.ops = [] ∧
    t.contexts = State.reset.contexts ∧ t.ck = State.reset.ck ∧ t.leases = [] ∧ t.frozen = false ∧
    t.mtus = (if up = true then (List.range 8).map (bootMtu Pr.poolgr) else State.reset.mtus) ∧
    (up = true → t.sec.measures = (List.range 4).map (fun i => Config.shake256 (Config.flash i)) ∧ t.sec.identity = identityKey ∧
      (∃ k, t.scores[0]? = some k ∧ k.running = true ∧ k.pc = Config.kernelEntry) ∧ ∀ i k, 1 ≤ i → t.scores[i]? = some k → k.running = false)) ∧
  -- attestation: codes and layouts are the adopted standard's, and the model's own reading of it (log 86)
  (∀ data, exec (.spdmRequest data) s = .next { s with outbox := s.outbox ++ [.spdm (s.sec.answer data)] }) ∧
  (∀ data, data[1]? = some (0xE0 : Byte) →
    (data[3]? = some 0xFF → ∀ i v, s.sec.measures[i]? = some v → ((s.sec.answer data).drop (15 + 39 * i)).take 32 = toBytes 32 v) ∧
    ∀ op : Byte, data[3]? = some op → op ≠ 0 → op ≠ 0xFF →
      (∀ v, s.sec.measures[op.toNat - 1]? = some v → ((s.sec.answer data).drop 15).take 32 = toBytes 32 v) ∧
      (s.sec.measures[op.toNat - 1]? = none → s.sec.answer data = [0x13, 0x7F, 0x01, 0])) ∧
  -- each instruction of the port is the one that its register then holds
  exec .cinch s = .next { s with jtagIr := 0x2C, frozen := true } ∧
  exec .cinchgo s = .next { s with jtagIr := 0x2D, frozen := false } ∧
  (∀ a, exec (.cinchadr (.address a)) s = .next { s with jtagIr := 0x2E, cinchAddr := if s.frozen = true then a else s.cinchAddr }) ∧
  (∃ t w, exec .cinchrd s = .next t ∧ t.jtagIr = 0x2F ∧ t.outbox = s.outbox ++ [.jtag w] ∧ t.mem = s.mem ∧
    t.cinchAddr = (if s.frozen = true then s.cinchAddr + 8 else s.cinchAddr) ∧
    if s.frozen = true then ∀ i, i < 8 →
      w.extractLsb' (8 * i) 8 = State.cinchByte { s with jtagIr := 0x2F, free := s.free + i } (s.cinchAddr + BitVec.ofNat 64 i).toNat
    else w = 0) ∧
  (∀ (ir : BitVec 8) bits, (0x2C ≤ ir.toNat → ir.toNat ≤ 0x2F → exec (.cinchadr (.other ir bits)) s = .next s) ∧
    (1 < ir.toNat → ir.toNat < 0x2C ∨ 0x2F < ir.toNat → exec (.cinchadr (.other ir bits)) s =
      .next { s with jtagIr := ir, outbox := s.outbox ++ [.jtagBits ((false :: bits).take bits.length)] }) ∧
    (ir.toNat ≤ 1 → ∃ t out, exec (.cinchadr (.other ir bits)) s = .next t ∧ out.length = bits.length ∧ t.outbox = s.outbox ++ [.jtagBits out] ∧
      ({ t with outbox := s.outbox, free := s.free } : State) = { s with jtagIr := ir })) ∧
  (∀ die, ∃ t, exec (.thermalThrottle die) s = .next t ∧ t.mhz = (if die < 4 ∧ 200 ≤ s.mhz then s.mhz - 100 else s.mhz) ∧
    ({ t with mhz := s.mhz } : State) = s) ∧
  (∀ die, die < 4 → ∃ t, exec (.thermalTrip die) s = .next t ∧ t.boot = .tripped ∧ t.outbox = s.outbox ++ [.thermalTrip] ∧ t.mem = s.mem) ∧
  (∀ die, 4 ≤ die → exec (.thermalTrip die) s = .next s) ∧
  (∀ pbr routes, ∃ t, exec (.fmApiCommand pbr routes) s = .next t ∧ t.latigo = { s.latigo with pbr := pbr, routes := routes } ∧
    ({ t with latigo := s.latigo } : State) = s) ∧
  ∀ port half, let i := 2 * port + half
    let shared : Prop := s.pers.bifurcated.getLsbD port = false
    let downed (t : State) : Prop := t.ports.length = s.ports.length ∧ (i < s.ports.length → t.ports[i]? = some false) ∧
      (∀ j, j ≠ i → ¬(shared ∧ j / 2 = port) → t.ports[j]? = s.ports[j]?) ∧
      ∀ k y, Sparse.find? s.leases k = some y → y.st = .active → (s.setPort port half false).cutOff y.peer = true →
        EntryIs t k fun z => z.live s.devTime.toNat = false
    (12 ≤ port ∨ 2 ≤ half → exec (.portLinkDown port half) s = .next s ∧ ∀ up, exec (.portLinkReset port half up) s = .next s) ∧
    (s.ports[i]? ≠ some true → exec (.portLinkDown port half) s = .next s) ∧
    (port < 12 → half < 2 → s.ports[i]? = some true → ∃ t, exec (.portLinkDown port half) s = .next t ∧ downed t) ∧
    (s.boot ≠ .up → ∀ up, exec (.portLinkReset port half up) s = .next s) ∧
    (port < 12 → half < 2 → s.boot = .up →
      (∃ t, exec (.portLinkReset port half true) s = .next t ∧ t.leases = s.leases ∧ (i < s.ports.length → t.ports[i]? = some true) ∧
        ∀ j, j ≠ i → ¬(shared ∧ j / 2 = port) → t.ports[j]? = s.ports[j]?) ∧
      ∃ t, exec (.portLinkReset port half false) s = .next t ∧ downed t)

/-- Checkpoints, reset, Cinch, the thermal limits and the ports (R12, R451 to R459, R469 to R476). -/
def Obligations.CheckpointAndPlatform : Prop := CheckpointCommands ∧ SnapEvents ∧ LoadEvents ∧ PlatformEvents

/-- REGISTER_WRITE (R6, R229, R400, R406, R412, R429, R451): a field takes a written value in its range, and keeps its own otherwise; a CMD is ignored while
BUSY, and CKCMD in a state that does not accept it; a write whose address no register has, or that is not aligned, does nothing. A write changes the
unit of its own block that its address names: no other unit, no other block and nothing else; but one to MPTB first puts into the unit's table in memory
what the part has set of REF, DIRTY and ACT there (R230). -/
def Sys2Proof.Claims.RegisterWrites : Prop := ∀ (s : State) (v : DWord),
  let wrote (a : Nat) (P : State → Prop) : Prop := ∃ t, exec (.registerWrite a v) s = .next t ∧ P t
  (∀ a, let within (base len : Nat) : Prop := base ≤ a ∧ a < base + len
    let unit (base size : Nat) : Nat := (a - base) / size
    wrote a fun t =>
    ({ t with contexts := s.contexts, mtus := s.mtus, queues := s.queues, inval := s.inval, latigo := s.latigo, ck := s.ck
              services := s.services, pages := s.pages, qsb := s.qsb, mem := s.mem, pageBits := s.pageBits } : State) = s ∧
    (¬within 0xF000004000 0x200 → ¬within 0xF000400000 0x4000 → t.contexts = s.contexts) ∧
    (within 0xF000004000 0x200 → ∀ c, c ≠ unit 0xF000004000 8 → t.ctx c = s.ctx c) ∧
    (within 0xF000400000 0x4000 → ∀ c, c ≠ unit 0xF000400000 0x100 → t.ctx c = s.ctx c) ∧
    (¬within 0xF000100000 0x8000 → t.mtus = s.mtus ∧ t.mem = s.mem ∧ t.pageBits = s.pageBits) ∧
    (within 0xF000100000 0x8000 → (∀ k, k ≠ unit 0xF000100000 0x1000 → t.mtu k = s.mtu k) ∧
      ((a - 0xF000100000) % 0x1000 ≠ 0 → t.mem = s.mem ∧ t.pageBits = s.pageBits) ∧
      (∀ x, (∀ y ∈ s.pageBits, y.1 / 2 ^ 33 = unit 0xF000100000 0x1000 → ¬(s.pteAddr (y.1 * 65536) ≤ x ∧ x < s.pteAddr (y.1 * 65536) + 8)) →
        t.byte x = s.byte x) ∧
      ∀ y, y.1 / 2 ^ 33 ≠ unit 0xF000100000 0x1000 → (y ∈ t.pageBits ↔ y ∈ s.pageBits)) ∧
    (¬within 0xF000200000 0x20000 → t.queues = s.queues) ∧
    (∀ q, q ≠ unit 0xF000200000 32 → t.queue q = s.queue q) ∧
    (¬within 0xF000300000 0x20 → t.inval = s.inval) ∧ (¬within 0xF000500000 0x300 → t.latigo = s.latigo) ∧
    (¬within 0xF000600000 0x48 → t.ck = s.ck) ∧
    (¬within 0xF000700000 0x20000 → t.pages = s.pages) ∧ (∀ i, i ≠ unit 0xF000700000 32 → t.page i = s.page i) ∧
    (¬within 0xF000800000 0x10000 → t.services = s.services) ∧ (∀ q, q ≠ unit 0xF000800000 16 → t.service q = s.service q) ∧
    (¬within 0xF000900000 0x200 → t.qsb = s.qsb) ∧ (∀ i : Nat, i ≠ unit 0xF000900000 8 → t.qsb[i]? = s.qsb[i]?)) ∧
  (∀ a, a % 8 ≠ 0 ∨ a < 0xF000004000 ∨ (0xF000810000 ≤ a ∧ a < 0xF000900000) ∨ 0xF000900200 ≤ a → exec (.registerWrite a v) s = .next s) ∧
  (∀ i, i < 64 → exec (.registerWrite (0xF000900000 + 8 * i) v) s = exec (.qsbWrite i v) s) ∧
  (∀ k, k < 8 → k < s.mtus.length →
    wrote (0xF000100000 + 0x1000 * k) (fun t => t.mtu k = { s.mtu k with mptb := if v.toNat < 2 ^ 25 then v.toNat else (s.mtu k).mptb } ∧
      ∀ x ∈ t.pageBits, x.1 / 2 ^ 33 ≠ k) ∧
    wrote (0xF000100008 + 0x1000 * k) (fun t => t.mtu k = { s.mtu k with mptlen := v.toNat }) ∧
    wrote (0xF000100010 + 0x1000 * k) (fun t => t.mtu k = { s.mtu k with ageper := if v.toNat < 2 ^ 16 then v.toNat else (s.mtu k).ageper }) ∧
    wrote (0xF000100050 + 0x1000 * k) (fun t => t.mtu k = { s.mtu k with cmd := { (s.mtu k).cmd with prod := v } }) ∧
    wrote (0xF000100058 + 0x1000 * k) (fun t => t.mtu k = s.mtu k)) ∧
  (∀ c, c < 64 → c < s.contexts.length →
    let x := s.ctx c
    wrote (0xF000004000 + 8 * c) (fun t => t.ctx c = if s.inUse c = true then x else { x with compat := bit v 0 }) ∧
    (∀ off y, (off = 0x18 ∧ y = { x with trcons := v }) ∨ (off = 0x20 ∧ y = { x with lost := x.lost && !bit v 0 }) ∨ (off = 0x28 ∧ y = { x with dbgen := bit v 0 }) ∨ (off = 0x80 ∧ y = { x with cmdlen := v }) ∨
        (off = 0x10 ∧ y = x) ∨ (off = 0x50 ∧ y = x) ∨ (off = 0x90 ∧ y = { x with htcount := if v.toNat ≤ 262144 then v.toNat else x.htcount }) ∨
        (off = 0x08 ∧ y = { x with trlog := if v.toNat = 0 ∨ (8 ≤ v.toNat ∧ v.toNat ≤ 16) then v.toNat else x.trlog }) ∨
        (off = 0x40 ∧ y = if x.cmdstat = 1 then x else { x with cmdOpc := v.extractLsb' 0 8, cmdTask := v.extractLsb' 32 32, cmdstat := 1 }) →
      wrote (0xF000400000 + 0x100 * c + off) fun t => { t.ctx c with stalled := x.stalled } = y)) ∧
  wrote 0xF000300000 (fun t => t.inval = { s.inval with base := if v.toNat % 4096 = 0 ∧ v.toNat < 2 ^ 52 then v.toNat else s.inval.base }) ∧
  wrote 0xF000500010 (fun t => t.latigo = { s.latigo with maxterm := if 100 ≤ v.toNat ∧ v.toNat ≤ 10000000 then v.toNat else s.latigo.maxterm }) ∧
  wrote 0xF000500000 (fun t => t.latigo = s.latigo) ∧
  wrote 0xF000600010 (fun t => t.ck = { s.ck with step := v }) ∧
  wrote 0xF000600030 (fun t => t.ck = { s.ck with target := if v.toNat % 4096 = 0 then v else s.ck.target }) ∧
  (∀ q, q < 4096 → let d := s.queue q
    wrote (0xF000200008 + 32 * q) (fun t => t.queue q = if d.en = true then d else { d with tail := v }) ∧
    (d.en = true → wrote (0xF000200000 + 32 * q) fun t => t.queue q = { d with closed := d.closed || bit v 3, en := bit v 0 }) ∧
    wrote (0xF000800000 + 16 * q) (fun t => t.service q = { s.service q with serv := bit v 0 }))

/-- At its pc a queue core fetches the instruction with bits `w`, `len` bytes long, which leaves `u`, and it does `act` (R468; what its bits mean is the
RISC-V standard's, log 19). -/
def Sys2Proof.Claims.QcDoes (s : State) (k len : Nat) (act : QcAct) (u : State) : Prop :=
  k < 64 ∧ k < s.qcores.length ∧ ∃ l w, s.qcPlaces k (s.qcore k).pc.toNat 2 rangeX .load = .ok l ∧ (s.qcore k).legalAct w = act ∧
    let low := s.qcRead l
    let s1 := s.qcNote l false
    ((field low 0 2 ≠ 3 ∧ len = 2 ∧ w = low ∧ u = s1) ∨ (field low 0 2 = 3 ∧ len = 4 ∧
      ∃ m, s1.qcPlaces k ((s.qcore k).pc.toNat + 2) 2 rangeX .load = .ok m ∧ w = low ||| (s1.qcRead m <<< 16) ∧ u = s1.qcNote m false))
/-- QUEUE_CORE_INSTRUCTION (R50, R468): a queue core reaches memory through its range registers alone, the lowest-numbered register that covers an address
deciding; an access that none serves, or a misaligned one, takes the exception of its kind. What the fetched bits ask for is the RISC-V standard's and
the model's own reading of it (log 19). A push puts a request, stamped with the context and the tenant of the core's node, at the queue's end. -/
def Sys2Proof.Claims.QueueCores : Prop := ∀ (s : State),
  (∀ k, 64 ≤ k → exec (.queueCoreInstruction (.instruction k)) s = .next s) ∧
  (∀ k q v, (s.qcore k).node = none → exec (.queueCoreInstruction (.push k q v)) s = .next s) ∧
  (∀ k q v uid, (s.qcore k).node = some uid →
    let d := s.queue q
    let c := (s.task uid).ctx
    let bad : Prop := (s.service q).serv = false ∨ d.en = false ∨ d.closed = true ∨ Rq.sealed v = false ∨ Rq.ok v = false
    (bad → exec (.queueCoreInstruction (.push k q v)) s = .next s) ∧
    (¬bad → s.journalWait q false = none → s.journalOf q c (s.ctx c).tenant (Rq.callid v) = none → d.full = false →
      s.ownWait (d.slot d.tail) 64 true = none → ∃ t r, exec (.queueCoreInstruction (.push k q v)) s = .next t ∧ t.requests = s.requests ++ [r] ∧
        r.q = q ∧ r.bytes = Rq.stamped v c (s.ctx c).tenant ∧ r.heldBy = none ∧ r.pos = d.tail)) ∧
  (∀ k, k < 64 → (s.qcore k).reach (s.qcore k).pc.toNat rangeX = none →
    exec (.queueCoreInstruction (.instruction k)) s = .next (s.nodeException k 1 (s.qcore k).pc)) ∧
  ∀ k len act u, QcDoes s k len act u →
    let c := s.qcore k
    let run := exec (.queueCoreInstruction (.instruction k)) s
    let runs (P : State → Prop) : Prop := ∃ t, run = .next t ∧ P t
    let past (t : State) (rd : BitVec 5) (v : Word) : Prop := t.qcore k = { c with
      pc := c.pc + BitVec.ofNat 32 len, x := if rd = 0 then c.x else c.x.set rd.toNat v, minstret := c.minstret + 1 }
    (∀ rd v, act = .compute rd v → runs fun t => past t rd v ∧ t.mem = s.mem) ∧
    (∀ rd a, act = .jump rd a → runs fun t => t.qcore k = { c with
      pc := a &&& ~~~1#32, x := if rd = 0 then c.x else c.x.set rd.toNat (c.pc + BitVec.ofNat 32 len), minstret := c.minstret + 1 } ∧ t.mem = s.mem) ∧
    (∀ cause tval, act = .trap cause tval → run = .next (u.nodeException k cause tval)) ∧
    (act = .mret → runs fun t => t.qcore k = { c with pc := c.mepc, mie := c.mpie, mpie := true, minstret := c.minstret + 1 } ∧ t.mem = s.mem) ∧
    (∀ rd csr v old, act = .csr rd csr 2 v false → (csr = 0x305 ∧ old = c.mtvec) ∨ (csr = 0x340 ∧ old = c.mscratch) ∨ (csr = 0x341 ∧ old = c.mepc) ∨
        (csr = 0x342 ∧ old = c.mcause) ∨ (csr = 0x343 ∧ old = c.mtval) ∨ (csr = 0xB02 ∧ old = c.minstret.extractLsb' 0 32) ∨
        (csr = 0xB82 ∧ old = c.minstret.extractLsb' 32 32) ∨ (csr ∈ [0x304, 0x310, 0x320, 0x344] ∧ old = 0) → runs fun t => past t rd old) ∧
    (∀ rd v, act = .csr rd 0x305 1 v true → runs fun t => (t.qcore k).mtvec = v ∧ (t.qcore k).pc = c.pc + BitVec.ofNat 32 len ∧
      (t.qcore k).x = if rd = 0 then c.x else c.x.set rd.toNat c.mtvec) ∧
    (∀ rd (a : Word) n sg, act = .load rd a n sg → n = 1 ∨ n = 2 ∨ n = 4 →
      (a.toNat % n ≠ 0 → run = .next (u.nodeException k 4 a)) ∧
      (a.toNat % n = 0 → inPort a.toNat = false → c.reach a.toNat rangeR = none →
        run = .next (u.nodeException k 5 a)) ∧
      ∀ l, a.toNat % n = 0 → inPort a.toNat = false → u.qcPlaces k a.toNat n rangeR .load = .ok l →
        runs fun t => past t rd (qcExtend (ofBytes 32 (l.map fun x => u.byte x.2)) n sg) ∧ t.mem = s.mem) ∧
    (∀ rs (a : Word) n, act = .store rs a n → n = 1 ∨ n = 2 ∨ n = 4 →
      (a.toNat % n ≠ 0 → run = .next (u.nodeException k 6 a)) ∧
      (a.toNat % n = 0 → inPort a.toNat = false → c.reach a.toNat rangeW = none →
        run = .next (u.nodeException k 7 a)) ∧
      ∀ l, a.toNat % n = 0 → inPort a.toNat = false → u.qcPlaces k a.toNat n rangeW .write = .ok l → (∀ x ∈ l, u.lineLocked x.1 1 = false) →
        runs fun t => (t.qcore k).pc = c.pc + BitVec.ofNat 32 len ∧ (t.qcore k).x = c.x ∧
          t.mem = (l.zip (toBytes n (c.reg rs))).foldl (fun m x => Sparse.put memDefault m x.1.2 x.2) s.mem) ∧
    ∀ rd rs (a : Word) l, act = .amo rd rs a 0 → a.toNat % 4 = 0 → inPort a.toNat = false → c.reach a.toNat rangeR ≠ none →
      u.qcPlaces k a.toNat 4 rangeW .load = .ok l →
      (∀ x ∈ l, u.lineLocked x.1 1 = false) → let old : Word := ofBytes 32 (l.map fun x => u.byte x.2)
      runs fun t => (t.qcore k).x = (if rd = 0 then c.x else c.x.set rd.toNat old) ∧
        t.mem = (l.zip (toBytes 4 (old + c.reg rs))).foldl (fun m x => Sparse.put memDefault m x.1.2 x.2) s.mem

/-- At its pc the system core `k`, which runs and has no interrupt to take, fetches a 32-bit instruction with bits `w`, which leaves `u` (R467). -/
def Sys2Proof.Claims.ScFetches (s : State) (k : Nat) (w : Word) (u : State) : Prop :=
  k < s.scores.length ∧ (s.score k).running = true ∧ s.scIrq (s.score k) = none ∧ ∃ l m : List (Nat × Nat),
    let c := s.score k
    let at_ (u : State) (l : List (Nat × Nat)) : Word := ofBytes 32 (l.map fun x => u.byte x.2)
    s.scPlaces c (c.mode .load true) c.pc 2 = .ok l ∧ field (at_ s l) 0 2 = 3 ∧ (s.qcNote l false).scPlaces c (c.mode .load true) (c.pc + 2) 2 = .ok m ∧
      w = (at_ s l ||| (at_ (s.qcNote l false) m <<< 16)) ∧ u = (s.qcNote l false).qcNote m false
/-- SYSTEM_CORE_INSTRUCTION (R306, R467): an access that a core makes reads or writes the bytes at its IA; a start, another core's doing, sets a core that
does not run going; a core that runs carries out the instruction at its pc, or takes the exception that it raises. What its bits ask for, and the walk of
its tables, is the adopted profiles' and the model's own reading of them (log 40). -/
def Sys2Proof.Claims.SystemCores : Prop := ∀ (s : State) (core : Nat),
  (8 ≤ core → ∀ act, exec (.systemCoreInstruction core act) s = .next s) ∧
  (core < 8 →
    (∀ k, exec (.systemCoreInstruction core (.fence k)) s = .next s) ∧
    (∀ a, ∃ t, exec (.systemCoreInstruction core (.registerRead a)) s = .next t ∧ t.mem = s.mem ∧ t.outbox = s.outbox ++ [.readData (toBytes 8 (s.readRegister a)) false]) ∧
    (∀ ia n aq p, ia % 65536 + n ≤ 65536 → s.checkPlace ia n .load = .ok p → ∃ t, exec (.systemCoreInstruction core (.load ia n aq)) s = .next t ∧
      t.mem = s.mem ∧ Emitted s t [.readData (s.bytes p.phys n) false]) ∧
    (∀ ia (data : List Byte) rl p, ia % 65536 + data.length ≤ 65536 → s.checkPlace ia data.length .write = .ok p → s.lineLocked ia data.length = false →
      ∃ t, exec (.systemCoreInstruction core (.store ia data rl)) s = .next t ∧ t.mem = Sparse.putN memDefault s.mem p.phys data ∧ Emitted s t []) ∧
    (∀ pc a0 a1, core < s.scores.length → ∃ t, exec (.systemCoreInstruction core (.start pc a0 a1)) s = .next t ∧ ({ t with scores := s.scores } : State) = s ∧
      (∀ j, j ≠ core → t.score j = s.score j) ∧ ((s.score core).running = true → t.score core = s.score core) ∧
      ((s.score core).running = false → (t.score core).running = true ∧ (t.score core).pc = pc ∧ (t.score core).x[10]? = some a0 ∧
        (t.score core).x[11]? = some a1 ∧ (t.score core).user = false ∧ (t.score core).virt = false)) ∧
    (∀ o, (s.score core).running = false → exec (.systemCoreInstruction core (.instruction o)) s = .next s) ∧
    ∀ o w u, ScFetches s core w u →
      let c := s.score core
      let runs (P : State → Prop) : Prop := ∃ t, exec (.systemCoreInstruction core (.instruction o)) s = .next t ∧ P t
      let past (rd : Nat) (v : DWord) : SysCore := { c with pc := c.pc + 4, x := if rd = 0 then c.x else c.x.set rd v, instret := c.instret + 1 }
      (∀ rd v, c.word w = .set rd v → runs fun t => t.score core = past rd v ∧ t.mem = s.mem) ∧
      (∀ rd dest, c.word w = .jump rd dest → runs fun t => t.score core = { past rd (c.pc + 4) with pc := dest &&& ~~~1 } ∧ t.mem = s.mem) ∧
      (∀ cause tval gpa guest entry, c.word w = .stop (.trap cause tval gpa guest entry) →
        runs fun t => t.score core = c.enter cause tval gpa guest entry ∧ t.mem = s.mem) ∧
      (∀ rd m va n sg l, c.word w = .load rd m va n sg → 0 < n → u.scPlaces c m (c.ea m va) n = .ok l → runs fun t => t.mem = s.mem ∧
        t.score core = past rd (let v : DWord := ofBytes 64 (l.map fun x => s.byte x.2); if sg = true then (v.setWidth (8 * n)).signExtend 64 else v)) ∧
      ∀ m va data l, c.word w = .store m va data → data ≠ [] → u.scPlaces c m (c.ea m va) data.length = .ok l → (∀ x ∈ l, u.lineLocked x.1 1 = false) →
        runs fun t => (t.score core).pc = c.pc + 4 ∧ (t.score core).x = c.x ∧
          t.mem = (l.zip data).foldl (fun m x => Sparse.put memDefault m x.1.2 x.2) s.mem)

/-- The register blocks, the queue cores and the system cores (R6, R467, R468). -/
def Obligations.RegistersAndOtherCores : Prop := RegisterWrites ∧ QueueCores ∧ SystemCores

/-! ### The machine as a whole -/

/-- R161: each acting fibre in turn writes its masked bits of the mode register; where what the SETMODE would leave has 110 or 111 in RM, 000 stands there
instead, and the rest of its write is unchanged. Reserved bits read as 0. -/
def Obligations.SetModeRounding : Prop := ∀ (f : Fields) (s : State), executing s = true → s.curCrew.tr = none →
  ∃ t, exec (.setmode f) s = .next t ∧ (s.acting f = [] → t.curCrew.mode = s.curCrew.mode) ∧
    ∃ ms : List Word, ms.length = (s.acting f).length + 1 ∧ ms[0]? = some s.curCrew.mode ∧
      (∀ (j k : Nat) (before after : Word), (s.acting f)[j]? = some k → ms[j]? = some before → ms[j + 1]? = some after →
        let mask := bitsB f (s.curCrew.fibre k)
        after = (before &&& ~~~mask) ||| ((s.curCrew.fibre k).reg f.a.toNat &&& mask)) ∧
      ∀ w, s.acting f ≠ [] → ms[(s.acting f).length]? = some w →
        t.curCrew.mode.extractLsb' 0 3 = (if w.extractLsb' 0 3 = 6#3 ∨ w.extractLsb' 0 3 = 7#3 then 0#3 else w.extractLsb' 0 3) ∧
        (∀ b, 3 ≤ b → b < 16 → t.curCrew.mode.getLsbD b = w.getLsbD b) ∧ ∀ b, 16 ≤ b → t.curCrew.mode.getLsbD b = false

/-- How many minors each of the groups 0x00 to 0x19 lists, from 0 without a gap (R93). -/
def Sys2Proof.Claims.minors : List Nat := [13, 9, 8, 6, 7, 7, 13, 6, 5, 8, 7, 5, 8, 5, 6, 5, 6, 7, 5, 8, 4, 4, 6, 4, 3, 7]
/-- R92: a word whose minor is not listed in its group, 0x00 to 0x19, or whose group is 0x1A to 0x1F, raises ILLEGAL_OPCODE for its strand, and no other word
does so at its decoding. -/
def Obligations.UnlistedOpcodes : Prop := ∀ (w : IWord),
  let listed : Prop := Word.op w % 32 < (minors[Word.op w / 32]?).getD 0
  (¬listed → decode w = .error .illegalOpcode ∧ ∀ s : State, s.cur.word = w → s.decodeCur =
    .trap (s.early s.wordActs { cause := causeIllegalOpcode, pc := s.cur.pc })) ∧
  (listed → decode w ≠ .error .illegalOpcode)

/-- Words written out in the manual decode to the instructions they stand for (R79 to R93 and the examples of R94, R147, R189, R261, R338, R359, R424). -/
def Obligations.DecodeWords : Prop :=
  decode 0x30E181415161700000000480 = .ok (.ffma { guard := some ⟨false, 3⟩, form := .rr, d := 20, a := 21, b := 22, x := 0x17000000, md := 0x480 }) ∧
  decode 0x003F9050600FFFFFFFE00000 = .ok (.iadd { guard := some ⟨true, 31⟩, form := .ri, d := 5, a := 6, x := 0xFFFFFFFE }) ∧
  decode 0x602120C06090000004020130 = .ok (.ld { guard := some ⟨false, 2⟩, form := .rri, d := 12, a := 6, b := 9, x := 0x40, look := 2, md := 0x130 }) ∧
  decode 0x508010009000000000100005 = .ok (.brx { form := .ri, a := 9, x := 1, md := 5 }) ∧
  decode 0x980020A060C0000010000460 = .ok (.acp { form := .rri, d := 10, a := 6, b := 12, x := 0x100, md := 0x460 }) ∧
  decode 0x902091E00000000000700000 = .ok (.tryOpen { guard := some ⟨false, 1⟩, form := .ri, d := 30, x := 7 }) ∧
  decode 0x704000A060C0E00001000C50 = .ok (.acas { form := .rr, d := 10, a := 6, b := 12, x := 0x0E000010, md := 0xC50 }) ∧
  decode 0xA80030A06000000000000400 = .ok (.mma { form := .pair, d := 10, a := 6, md := 0x400 }) ∧
  decode 0x0930A040409FF00FF00000CA = .ok (.tern { guard := some ⟨true, 1⟩, form := .rri, d := 4, a := 4, b := 9, x := 0xFF00FF00, md := 0xCA }) ∧
  decode 0xC98012900000000000000000 = .ok (.sysrd { form := .ri, d := 41 }) ∧
  decode 0x518000000000000000000000 = .ok (.nop {}) ∧
  decode 0x518000000000000000000001 = .error .illegalEncoding ∧ decode 0x518000000000000000001000 = .error .illegalEncoding ∧
  decode 0xFFC000000000000000000000 = .error .illegalOpcode

/-- Decoding and encoding agree (R79 to R93): every well-formed instruction is read back from its word, and a word that decodes is the word
of a well-formed instruction. No bit of a word is dropped, and no word has two meanings. -/
def Obligations.DecodeEncode : Prop :=
  (∀ i, WellFormed i = true → decode (encode i) = .ok i) ∧ ∀ w i, decode w = .ok i → WellFormed i = true ∧ encode i = w

/-- What a crew's turn comes to before the instruction itself: nothing keeps its next strand from fetching (R81, R106, R398). -/
structure Sys2Proof.Claims.MayFetch (s : State) (b c k : Nat) : Prop where
  moves : s.crewMoves b c = true
  fatal : s.fatalDue b c = false
  rot : (s.crew b c).rot < 4096
  entry : (s.crew b c).nextEntry = none
  place : (s.crew b c).nextPlace = some k
  fresh : ∀ w ∈ (s.crew b c).partway, w.pc.toNat ≠ k
  trap : (s.crew b c).trapWaits ((s.crew b c).strandAt k) = false
/-- Check 3, the lookahead promises and the results that are awaited let the instruction issue (R83, R111, R112). -/
structure Sys2Proof.Claims.MayIssue (s : State) (i : Instr) (r : Row) : Prop where
  row : Encoding.row i = some r
  window : Encoding.rowInWindow (fieldsOf i) r s.curTask.win = true
  promise : s.curCrew.breaker s.cur.mask (Encoding.namedRegs (fieldsOf i) r) (fieldsOf i).guard.isSome = none
  results : s.curCrew.awaited s.cur.mask (Encoding.namedRegs (fieldsOf i) r) = none
/-- A step runs the decoded instruction (R80 to R83): where a core takes a crew, the word at its strand's PC decodes to `i` and nothing keeps it from issuing,
the step is `exec i` on the strand, between the two halves of its issue (R106 to R109, R113), after the turn's time has passed. The word is
the 12 bytes at CODEREF + 12 × PC. An event's turn is `exec` of the event. -/
def Obligations.StepRunsDecoded : Prop :=
  (∀ (s s3 s4 : State) g r core b c k w i row, s.boot = .up → s.frozen = false → s.turns = g :: r →
    let s1 := ({ s with turns := r } : State).pass g.dns g.dclk
    g.go = .slot core → s1.take core g.stale = (some (b, c), s3) →
    MayFetch s3 b c k →
    ({ s3 with cur := { blk := b, crew := c, mask := (s3.crew b c).strandAt k, pc := BitVec.ofNat 32 k, word := 0, replay := none, stale := g.stale } } : State).fetch
      b k g.stale = .ok (w, s4) → decode w = .ok i →
    let u : State := { s4 with cur := { s4.cur with word := w } }
    MayIssue u i row → step s = match exec i (u.beginIssue i) with | .next t => .next (u.endIssue t) | o => o) ∧
  (∀ (s : State) b k e ia p, let t := s.task (s.block b).task
    let o := refOff t.rec_.coderef + 12 * k
    k < 2 ^ 32 → s.checkHandle (s.block b).core t.ctx (s.ctx t.ctx).tenant t.rec_.coderef o 12 { kinds := [2], x := true } = .ok e →
    s.iaOf (s.block b).core t.ctx e t.rec_.coderef o = .ok ia → ia % 64 ≤ 52 → o % 64 ≤ 52 → s.checkPlace ia 12 .load = .ok p →
    ∃ u, s.fetch b k false = .ok (wordOfBytes (s.bytes p.phys 12), u) ∧ u.mem = s.mem ∧ u.blocks = s.blocks) ∧
  (∀ w, wordOfBytes (wordBytes w) = w) ∧
  ∀ (s : State) g r, s.boot = .up → s.frozen = false → s.turns = g :: r →
    let s1 := ({ s with turns := r } : State).pass g.dns g.dclk
    (∀ i, g.go = .event i → step s = if (opOf i).isSome then .next s1 else exec i s1) ∧
    (∀ j, g.go = .waiting j → step s = .next (if j < s1.incoming.length then s1.serveIncoming j else s1.serveProfile.serveAnswers.serveInbox)) ∧
    (g.go = .idle → step s = .next s1)

/-- Who answers while the part does not run (R469, R473, R476): before its reset the part resets; in recovery it answers a reset and MCTP alone, and after a
thermal trip a reset alone; while every clock is stopped only the JTAG port and a reset act, and nothing but what they name changes. A machine
stands still, by name, only in recovery and after a trip. -/
def Obligations.MachineStops : Prop := ∀ (s : State),
  (s.boot = .atReset → step s = exec .partReset s ∧ ∃ t, step s = .next t ∧ t.boot ≠ .atReset) ∧
  (s.boot = .recovery → s.turns = [] → step s = .fault .recovery) ∧
  (s.boot = .tripped → s.turns = [] → step s = .fault .thermalTrip) ∧
  (∀ e, step s = .fault e → s.turns = [] ∧ ((e = .recovery ∧ s.boot = .recovery) ∨ (e = .thermalTrip ∧ s.boot = .tripped))) ∧
  (∀ x, step s ≠ .refused x) ∧
  (∀ g r, s.turns = g :: r → s.boot = .tripped → g.go ≠ .event .partReset → step s = .next { s with turns := r }) ∧
  (∀ g r, s.turns = g :: r → s.boot = .recovery → g.go ≠ .event .partReset → (∀ d, g.go ≠ .event (.spdmRequest d)) → step s = .next { s with turns := r }) ∧
  (∀ g r d, s.turns = g :: r → s.boot = .recovery → g.go = .event (.spdmRequest d) →
    ∃ t, step s = .next t ∧ ({ t with outbox := s.outbox } : State) = { s with turns := r }) ∧
  (s.boot = .up → s.frozen = true → s.turns = [] → step s = .next s) ∧
  (∀ g r, s.boot = .up → s.frozen = true → s.turns = g :: r → g.go ≠ .event .partReset → ∃ t, step s = .next t ∧
    ({ t with frozen := true, cinchAddr := s.cinchAddr, free := s.free, outbox := s.outbox, jtagIr := s.jtagIr } : State) = { s with turns := r } ∧
    (t.frozen = false → g.go = .event .cinchgo)) ∧
  ∀ g r, s.turns = g :: r → s.boot ≠ .atReset → g.go = .event .partReset → ∃ t, step s = .next t ∧ t.frozen = false ∧ t.blocks = [] ∧ (t.boot = .up ∨ t.boot = .recovery)

/-- Memory is in the model's canonical form, and the addresses of the safe tier that hold something rise strictly. -/
def Sys2Proof.Claims.Canonical (s : State) : Prop := Memory.wf s.mem = true ∧ (s.safeTier.map (·.1)).Pairwise (· < ·)
/-- What reset leaves (R6, R38, R48, R73, R226, R229, R350, R400, R429, R448, R451, R469, R479): the values the manual gives; memory and the safe tier in
canonical form; and under the tables that a boot leaves every mapped page of IA space lies in its own frame. Values that the manual leaves open are the
model's (log 1, log 4). -/
def Obligations.ResetState : Prop :=
  let z := State.reset
  z.boot = .atReset ∧ z.frozen = false ∧ z.mhz = 2400 ∧ z.blocks = [] ∧ z.tasks = [] ∧ z.ops = [] ∧ z.rings = [] ∧
  (∀ c, let x := z.ctx c
    x.trlog = 0 ∧ x.trprod = 0 ∧ x.trcons = 0 ∧ x.lost = false ∧ x.stalled = false ∧ x.dbgen = false ∧ x.dumpcnt = 0 ∧ x.cmdstat = 0 ∧ x.pflog = 0 ∧
      x.pfprod = 0 ∧ x.pfcons = 0 ∧ x.pfdrop = 0 ∧ x.htcount = 0) ∧
  (∀ p, (z.page p).en = false) ∧ (∀ q, (z.queue q).en = false ∧ (z.service q).serv = false) ∧ (∀ c, c < 64 → z.qsb[c]? = some c) ∧
  z.inval.log = 0 ∧ z.latigo.maxterm = 10000 ∧ z.latigo.fmValid = false ∧ z.latigo.fmEpoch = 0 ∧ z.leases = [] ∧ z.ck.st = .running ∧ z.ck.err = 0 ∧
  (∀ g, z.residentOf g = 0) ∧ (∀ k, (z.mtu k).ageper = 0 ∧ (z.mtu k).cmd.log = 0 ∧ (z.mtu k).free.log = 0) ∧ Canonical z ∧
  ∀ s : State, s.mem = [] → s.pageBits = [] → s.mtus = (List.range 8).map (bootMtu Config.poolgr) → ∀ stack p o, stack < 8 → p < Config.mappedPages → o < 65536 →
    s.place (stack * 2 ^ 49 + p * 65536 + o) = .ok { phys := stack * 2 ^ 38 + p * 65536 + o }

/-- Every step keeps memory and the safe tier in canonical form: whatever runs, one memory is one list of bytes. -/
def Obligations.StepKeepsCanonical : Prop := ∀ (s t : State), Canonical s → step s = .next t → Canonical t
end

