-- ==== Sys2Proof/Laws/Sparse.lean ====
section
/-! SUPPORT. Laws of sparse storage: read after write, other keys untouched, and the canonical form kept. -/

namespace Sys2Proof.Sparse

variable {α : Type}

@[simp] theorem get_nil (d : Nat → α) (k : Nat) : get d [] k = d k := rfl

theorem get_insert (d : Nat → α) (k a : Nat) (v : α) (m : List (Nat × α)) :
    get d (insert k v m) a = if a = k then v else get d m a := by
  induction m with
  | nil => simp [insert, get]
  | cons x r ih =>
    obtain ⟨j, w⟩ := x
    simp only [insert]
    split
    · subst_vars; simp only [get]; split <;> simp_all
    · split
      · simp only [get]
      · simp only [get, ih]; split <;> split <;> simp_all

theorem get_erase (d : Nat → α) (k a : Nat) (m : List (Nat × α)) :
    get d (erase k m) a = if a = k then d k else get d m a := by
  induction m with
  | nil => simp only [erase, get]; split <;> simp_all
  | cons x r ih =>
    obtain ⟨j, w⟩ := x
    simp only [erase]
    split
    · subst_vars; rw [ih]; simp only [get]; split <;> simp_all
    · simp only [get, ih]; split <;> split <;> simp_all

/-- A write reads back, and leaves every other key alone. -/
theorem get_put [DecidableEq α] (d : Nat → α) (m : List (Nat × α)) (k a : Nat) (v : α) :
    get d (put d m k v) a = if a = k then v else get d m a := by
  unfold put
  split
  · rw [get_erase]; split <;> simp_all
  · rw [get_insert]

/-- Consecutive writes read back, and leave every other key alone. -/
theorem get_putN [DecidableEq α] (d : Nat → α) (m : List (Nat × α)) (k a : Nat) (l : List α) :
    get d (putN d m k l) a = if k ≤ a then (l[a - k]?).getD (get d m a) else get d m a := by
  induction l generalizing m k with
  | nil => simp [putN]
  | cons v r ih =>
    simp only [putN, ih, get_put]
    rcases Nat.lt_trichotomy a k with h | h | h
    · simp [Nat.not_le.2 h, Nat.ne_of_lt h]; omega
    · subst h; simp
    · have h1 : a - k = (a - (k + 1)) + 1 := by omega
      have h2 : k + 1 ≤ a := h
      simp [h2, Nat.le_of_lt h, h1, Nat.ne_of_gt h]

@[simp] theorem length_getN (d : Nat → α) (m : List (Nat × α)) (k n : Nat) : (getN d m k n).length = n := by
  induction n generalizing k with
  | zero => rfl
  | succ n ih => simp [getN, ih]

theorem getElem?_getN (d : Nat → α) (m : List (Nat × α)) (k n i : Nat) (h : i < n) :
    (getN d m k n)[i]? = some (get d m (k + i)) := by
  induction n generalizing k i with
  | zero => omega
  | succ n ih =>
    cases i with
    | zero => simp [getN]
    | succ i => simp only [getN, List.getElem?_cons_succ]; rw [ih (k + 1) i (by omega)]; congr 2; omega

theorem find?_insert (k a : Nat) (v : α) (m : List (Nat × α)) :
    find? (insert k v m) a = if a = k then some v else find? m a := by
  induction m with
  | nil => simp [insert, find?]
  | cons x r ih =>
    obtain ⟨j, w⟩ := x
    simp only [insert]
    split
    · subst_vars; simp only [find?]; split <;> simp_all
    · split
      · simp only [find?]
      · simp only [find?, ih]; split <;> split <;> simp_all

theorem find?_erase (k a : Nat) (m : List (Nat × α)) :
    find? (erase k m) a = if a = k then none else find? m a := by
  induction m with
  | nil => simp [erase, find?]
  | cons x r ih =>
    obtain ⟨j, w⟩ := x
    simp only [erase]
    split
    · subst_vars; rw [ih]; simp only [find?]; split <;> simp_all
    · simp only [find?, ih]; split <;> split <;> simp_all

/-! ### The canonical form -/

theorem wfFrom_mono [DecidableEq α] {d : Nat → α} {lo hi : Nat} {m : List (Nat × α)} (h : wfFrom d hi m = true) (hl : lo ≤ hi) :
    wfFrom d lo m = true := by
  cases m with
  | nil => rfl
  | cons x r =>
    simp only [wfFrom, Bool.and_eq_true, decide_eq_true_eq] at *
    exact ⟨⟨Nat.le_trans hl h.1.1, h.1.2⟩, h.2⟩

theorem erase_wfFrom [DecidableEq α] {d : Nat → α} {k lo : Nat} {m : List (Nat × α)} (h : wfFrom d lo m = true) :
    wfFrom d lo (erase k m) = true := by
  induction m generalizing lo with
  | nil => rfl
  | cons x r ih =>
    obtain ⟨j, w⟩ := x
    simp only [wfFrom, Bool.and_eq_true, decide_eq_true_eq] at h
    simp only [erase]
    split
    · exact wfFrom_mono (ih h.2) (by omega)
    · simp only [wfFrom, Bool.and_eq_true, decide_eq_true_eq]; exact ⟨h.1, ih h.2⟩

theorem insert_wfFrom [DecidableEq α] {d : Nat → α} {k lo : Nat} {v : α} {m : List (Nat × α)} (h : wfFrom d lo m = true)
    (hk : lo ≤ k) (hv : v ≠ d k) : wfFrom d lo (insert k v m) = true := by
  induction m generalizing lo with
  | nil => simp [insert, wfFrom, hk, hv]
  | cons x r ih =>
    obtain ⟨j, w⟩ := x
    simp only [wfFrom, Bool.and_eq_true, decide_eq_true_eq] at h
    simp only [insert]
    split
    · subst_vars; simp only [wfFrom, Bool.and_eq_true, decide_eq_true_eq]; exact ⟨⟨hk, hv⟩, h.2⟩
    · split
      · simp only [wfFrom, Bool.and_eq_true, decide_eq_true_eq]; exact ⟨⟨hk, hv⟩, ⟨by omega, h.1.2⟩, h.2⟩
      · simp only [wfFrom, Bool.and_eq_true, decide_eq_true_eq]; exact ⟨h.1, ih h.2 (by omega)⟩

/-- A write keeps the canonical form. -/
theorem put_wf [DecidableEq α] {d : Nat → α} {m : List (Nat × α)} (h : wf d m = true) (k : Nat) (v : α) : wf d (put d m k v) = true := by
  unfold put
  split
  · exact erase_wfFrom h
  · exact insert_wfFrom h (Nat.zero_le _) ‹_›

/-- Consecutive writes keep the canonical form. -/
theorem putN_wf [DecidableEq α] {d : Nat → α} {m : List (Nat × α)} (h : wf d m = true) (k : Nat) (l : List α) : wf d (putN d m k l) = true := by
  induction l generalizing m k with
  | nil => exact h
  | cons v r ih => exact ih (put_wf h k v) (k + 1)

/-- Equal reads, equal memories: two canonical lists that read alike are the same list. -/
theorem wfFrom_ext [DecidableEq α] {d : Nat → α} {lo : Nat} {m n : List (Nat × α)} (hm : wfFrom d lo m = true) (hn : wfFrom d lo n = true)
    (h : ∀ a, get d m a = get d n a) : m = n := by
  have low : ∀ {l : List (Nat × α)} {lo a : Nat}, wfFrom d lo l = true → a < lo → get d l a = d a := by
    intro l
    induction l with
    | nil => intros; rfl
    | cons x r ih =>
      intro lo a hw ha
      obtain ⟨j, w⟩ := x
      simp only [wfFrom, Bool.and_eq_true, decide_eq_true_eq] at hw
      simp only [get]
      rw [if_neg (by omega)]
      exact ih hw.2 (by omega)
  induction m generalizing n lo with
  | nil =>
    cases n with
    | nil => rfl
    | cons y r =>
      obtain ⟨j, w⟩ := y
      simp only [wfFrom, Bool.and_eq_true, decide_eq_true_eq] at hn
      have := h j; simp [get] at this; exact absurd this.symm hn.1.2
  | cons x r ih =>
    obtain ⟨j, w⟩ := x
    simp only [wfFrom, Bool.and_eq_true, decide_eq_true_eq] at hm
    cases n with
    | nil => have := h j; simp [get] at this; exact absurd this hm.1.2
    | cons y r' =>
      obtain ⟨j', w'⟩ := y
      simp only [wfFrom, Bool.and_eq_true, decide_eq_true_eq] at hn
      have hj : j = j' := by
        rcases Nat.lt_trichotomy j j' with hlt | he | hlt
        · have := h j; simp only [get, if_neg (by omega : j ≠ j')] at this
          rw [low hn.2 (by omega)] at this; exact absurd this hm.1.2
        · exact he
        · have := h j'; simp only [get, if_neg (by omega : j' ≠ j)] at this
          rw [low hm.2 (by omega)] at this; exact absurd this.symm hn.1.2
      subst hj
      have hw : w = w' := by have := h j; simpa [get] using this
      subst hw
      congr 1
      refine ih hm.2 hn.2 fun a => ?_
      by_cases ha : a = j
      · subst ha; rw [low hm.2 (by omega), low hn.2 (by omega)]
      · have := h a; simpa [get, ha] using this

end Sys2Proof.Sparse
end

