-- ==== Sys2Proof/Laws/Fibres.lean ====
section
/-! SUPPORT. What the shared operations over the crew in execution can do, said once: updates of a block and a crew, the register
forms, the control forms and the long-latency forms. -/

namespace Sys2Proof.Machine
open Bits Safety

/-! ### Updates of blocks and crews -/

theorem State.block_updBlock (s : State) {b : Nat} {g : Block → Block} (hb : s.blocks.any (·.bid == b) = true)
    (hg : ∀ x, (g x).bid = x.bid) : (s.updBlock b g).block b = g (s.block b) := by
  simp only [State.block, State.updBlock]
  have : ∀ l : List Block, l.any (·.bid == b) = true →
      (l.map fun x => if x.bid == b then g x else x).find? (·.bid == b) = (l.find? (·.bid == b)).map g := by
    intro l
    induction l with
    | nil => simp
    | cons x r ih =>
      intro h
      by_cases hx : x.bid = b
      · simp [hx, hg]
      · have hb' : (x.bid == b) = false := by simpa using hx
        simp only [List.any_cons, hb', Bool.false_or] at h
        simp only [List.map_cons, List.find?_cons, hb', Bool.false_eq_true, if_false]
        exact ih h
  rw [this _ hb]
  cases hf : s.blocks.find? (·.bid == b) with
  | some x => simp
  | none =>
    simp only [List.find?_eq_none, List.any_eq_true] at hf hb
    obtain ⟨x, hx, hx'⟩ := hb
    exact absurd hx' (by simpa using hf x hx)

theorem State.block_updBlock_ne (s : State) {b c : Nat} {g : Block → Block} (hc : c ≠ b)
    (hg : ∀ x, (g x).bid = x.bid) : (s.updBlock b g).block c = s.block c := by
  simp only [State.block, State.updBlock]
  have : ∀ l : List Block, (l.map fun x => if x.bid == b then g x else x).find? (·.bid == c) = l.find? (·.bid == c) := by
    intro l
    induction l with
    | nil => rfl
    | cons x r ih =>
      by_cases hx : x.bid = b
      · have h1 : (x.bid == b) = true := by simpa using hx
        have h2 : (x.bid == c) = false := by simp [hx, Ne.symm hc]
        simp only [List.map_cons, List.find?_cons, h1, if_true, hg, h2]
        exact ih
      · have h1 : (x.bid == b) = false := by simpa using hx
        simp only [List.map_cons, List.find?_cons, h1, Bool.false_eq_true, if_false]
        rw [ih]
  rw [this]

theorem Block.crew_updCrew (b : Block) {i : Nat} (g : Crew → Crew) (h : i < b.crews.length) : (b.updCrew i g).crew i = g (b.crew i) := by
  simp [Block.crew, Block.updCrew, h]

theorem Block.crew_updCrew_ne (b : Block) {i j : Nat} (g : Crew → Crew) (h : j ≠ i) : (b.updCrew i g).crew j = b.crew j := by
  simp [Block.crew, Block.updCrew, Ne.symm h]

theorem executing_parts {s : State} (h : executing s = true) :
    s.blocks.any (·.bid == s.cur.blk) = true ∧ s.cur.crew < s.curBlock.crews.length ∧ s.curCrew.fibres.length = 32 := by
  simpa [executing, and_assoc] using h

/-- An update of the crew in execution changes that crew alone. -/
theorem State.updCur_curCrew {s : State} (h : executing s = true) (g : Crew → Crew) : (s.updCur g).curCrew = g s.curCrew := by
  obtain ⟨hb, hc, -⟩ := executing_parts h
  show ((s.updBlock s.cur.blk (·.updCrew s.cur.crew g)).block s.cur.blk).crew s.cur.crew = _
  rw [State.block_updBlock s hb (by intros; rfl)]
  exact Block.crew_updCrew _ g hc

theorem State.updCur_onlyCrew {s : State} (h : executing s = true) (g : Crew → Crew) : OnlyCrew s (s.updCur g) := by
  obtain ⟨hb, hc, -⟩ := executing_parts h
  have hB : (s.updCur g).curBlock = s.curBlock.updCrew s.cur.crew g :=
    State.block_updBlock s hb (by intros; rfl)
  refine ⟨rfl, fun b hne => State.block_updBlock_ne s hne (by intros; rfl), ?_, fun k hk => ?_⟩
  · rw [hB]; rfl
  · rw [hB]; exact Block.crew_updCrew_ne _ g hk

/-- The crew in execution after an update that a later step of the same instruction makes. -/
theorem executing_updCur {s : State} (h : executing s = true) {g : Crew → Crew} (hg : (g s.curCrew).fibres.length = 32) :
    executing (s.updCur g) = true := by
  obtain ⟨hb, hc, hf⟩ := executing_parts h
  have hB : (s.updCur g).curBlock = s.curBlock.updCrew s.cur.crew g :=
    State.block_updBlock s hb (by intros; rfl)
  have h1 : (s.updCur g).blocks.any (·.bid == s.cur.blk) = true := by
    simp only [State.updCur, State.updCrew, State.updBlock, List.any_map, List.any_eq_true] at hb ⊢
    obtain ⟨x, hx, hx'⟩ := hb
    exact ⟨x, hx, by simp only [Function.comp]; split <;> simpa [Block.updCrew] using hx'⟩
  have h2 : (s.updCur g).cur = s.cur := rfl
  simp only [executing, h2, Bool.and_eq_true, decide_eq_true_eq, beq_iff_eq]
  refine ⟨⟨h1, ?_⟩, ?_⟩
  · rw [hB]; simpa [Block.updCrew] using hc
  · rw [State.updCur_curCrew h]; exact hg

/-! ### Fibres and registers -/

theorem Crew.fibre_mapMask (c : Crew) (m : Mask) (g : Nat → Fibre → Fibre) {i : Nat} (h : i < c.fibres.length) :
    (c.mapMask m g).fibre i = if m.getLsbD i then g i (c.fibre i) else c.fibre i := by
  simp only [Crew.fibre, Crew.mapMask, List.getElem?_mapIdx]
  rw [List.getElem?_eq_getElem h]
  simp

@[simp] theorem Crew.length_mapMask (c : Crew) (m : Mask) (g : Nat → Fibre → Fibre) : (c.mapMask m g).fibres.length = c.fibres.length := by
  simp [Crew.mapMask]

theorem Fibre.reg_setReg (fb : Fibre) (n r : Nat) (v : Word) : (fb.setReg n v).reg r = if r = n then v else fb.reg r :=
  Sparse.get_put zeroReg fb.regs n r v

/-- The value a list of writes leaves in register r: the last write to it, or the old value. -/
def lastWrite (l : List (Nat × Word)) (r : Nat) (old : Word) : Word := l.foldl (fun v p => if p.1 = r then p.2 else v) old

theorem Fibre.reg_setRegs (fb : Fibre) (l : List (Nat × Word)) (r : Nat) : (fb.setRegs l).reg r = lastWrite l r (fb.reg r) := by
  induction l generalizing fb with
  | nil => rfl
  | cons p l ih =>
    show ((fb.setReg p.1 p.2).setRegs l).reg r = lastWrite l r (if p.1 = r then p.2 else fb.reg r)
    rw [ih, Fibre.reg_setReg]
    congr 1
    by_cases h : r = p.1 <;> simp [h, eq_comm]

@[simp] theorem lastWrite_nil (r : Nat) (v : Word) : lastWrite [] r v = v := rfl
@[simp] theorem lastWrite_one (d : Nat) (x : Word) (r : Nat) (v : Word) : lastWrite [(d, x)] r v = if d = r then x else v := rfl

theorem lastWrite_notMem (l : List (Nat × Word)) (r : Nat) (v : Word) (h : r ∉ l.map (·.1)) : lastWrite l r v = v := by
  induction l generalizing v with
  | nil => rfl
  | cons p l ih =>
    simp only [List.map_cons, List.mem_cons, not_or] at h
    show lastWrite l r (if p.1 = r then p.2 else v) = v
    rw [if_neg (fun e => h.1 e.symm)]; exact ih v h.2

@[simp] theorem Fibre.setReg_other (fb : Fibre) (n : Nat) (v : Word) : { fb.setReg n v with regs := fb.regs } = fb := rfl
theorem Fibre.setRegs_other (fb : Fibre) (l : List (Nat × Word)) : { fb.setRegs l with regs := fb.regs } = fb := by
  induction l generalizing fb with
  | nil => rfl
  | cons p l ih =>
    have := ih (fb.setReg p.1 p.2)
    show { (fb.setReg p.1 p.2).setRegs l with regs := fb.regs } = fb
    calc { (fb.setReg p.1 p.2).setRegs l with regs := fb.regs }
        = { ({ (fb.setReg p.1 p.2).setRegs l with regs := (fb.setReg p.1 p.2).regs } : Fibre) with regs := fb.regs } := rfl
      _ = { fb.setReg p.1 p.2 with regs := fb.regs } := by rw [this]
      _ = fb := rfl

theorem Fibre.setRegs_eq (fb : Fibre) (l : List (Nat × Word)) : fb.setRegs l = { fb with regs := (fb.setRegs l).regs } := by
  have h := Fibre.setRegs_other fb l
  have h1 : fb.setRegs l = { ({ fb.setRegs l with regs := fb.regs } : Fibre) with regs := (fb.setRegs l).regs } := rfl
  rw [h] at h1; exact h1

@[simp] theorem Fibre.next_reg (fb : Fibre) (r : Nat) : fb.next.reg r = fb.reg r := rfl
@[simp] theorem Fibre.goto_reg (fb : Fibre) (pc : Word) (r : Nat) : (fb.goto pc).reg r = fb.reg r := rfl
theorem Fibre.next_movedOn (fb : Fibre) : movedOn fb fb.next := ⟨rfl, ⟨rfl, rfl, rfl⟩, rfl⟩
theorem Fibre.setRegs_next_movedOn (fb : Fibre) (l : List (Nat × Word)) : movedOn fb (fb.setRegs l).next := by
  rw [Fibre.setRegs_eq]; exact ⟨rfl, ⟨rfl, rfl, rfl⟩, rfl⟩

theorem State.mem_acting {s : State} {f : Fields} {i : Nat} :
    i ∈ s.acting f ↔ i < 32 ∧ s.cur.mask.getLsbD i = true ∧ guardTrue f (s.curCrew.fibre i) = true := by
  simp [State.acting]

/-- Everything a register form can do: the strand goes on, each acting fibre gets its writes, and nothing else differs. -/
theorem State.perFibre_spec {s : State} (h : executing s = true) (f : Fields) (w : Nat → Fibre → List (Nat × Word)) (dests : List Nat)
    (hd : ∀ i fb, ∀ p ∈ w i fb, p.1 ∈ dests) :
    RegisterFrame s (s.perFibre f w) f dests ∧
    ∀ i, acts s f i → ∀ r, ((s.perFibre f w).curCrew.fibre i).reg r = lastWrite (w i (s.curCrew.fibre i)) r ((s.curCrew.fibre i).reg r) := by
  obtain ⟨-, -, hf⟩ := executing_parts h
  have hC : (s.perFibre f w).curCrew = s.curCrew.mapMask s.cur.mask fun i fb =>
      (if guardTrue f fb then fb.setRegs (w i fb) else fb).next := State.updCur_curCrew h _
  have hF : ∀ i, i < 32 → (s.perFibre f w).curCrew.fibre i = if s.cur.mask.getLsbD i then
      (if guardTrue f (s.curCrew.fibre i) then (s.curCrew.fibre i).setRegs (w i (s.curCrew.fibre i)) else s.curCrew.fibre i).next
      else s.curCrew.fibre i := by
    intro i hi; rw [hC]; exact Crew.fibre_mapMask _ _ _ (by omega)
  have hbig : ∀ i, ¬ i < 32 → (s.perFibre f w).curCrew.fibre i = s.curCrew.fibre i := by
    intro i hi
    rw [hC]
    show (((s.curCrew.mapMask _ _).fibres)[i]?).getD {} = (s.curCrew.fibres[i]?).getD {}
    rw [List.getElem?_eq_none (by simp; omega), List.getElem?_eq_none (by omega)]
  refine ⟨⟨⟨State.updCur_onlyCrew h _, ?_⟩, ⟨fun i hi hm => ?_, fun i hi hm => ?_, fun i r hn => ?_⟩⟩, fun i ha r => ?_⟩
  · rw [hC]; rfl
  · rw [hF i hi, hm]; rfl
  · rw [hF i hi, hm]
    simp only [if_true]
    split
    · exact Fibre.setRegs_next_movedOn _ _
    · exact Fibre.next_movedOn _
  · by_cases hi : i < 32
    · rw [hF i hi]
      split
      · split
        · next hm hg =>
          rw [Fibre.next_reg, Fibre.reg_setRegs]
          refine lastWrite_notMem _ _ _ fun hr => hn ⟨State.mem_acting.2 ⟨hi, hm, hg⟩, ?_⟩
          obtain ⟨p, hp, rfl⟩ := List.mem_map.1 hr
          exact hd _ _ p hp
        · rfl
      · rfl
    · rw [hbig i hi]
  · obtain ⟨hi, hm, hg⟩ := State.mem_acting.1 ha
    rw [hF i hi, hm, hg]
    simp only [if_true, Fibre.next_reg, Fibre.reg_setRegs]

end Sys2Proof.Machine
end

