-- ==== Sys2Proof/Laws/Forms.lean ====
section
/-! SUPPORT. What the shared shapes of instruction can do, said once: float forms, control forms, long-latency and replay-eligible
forms, and the arrival of a result. -/

namespace Sys2Proof.Machine
open Bits Safety

/-! ### The strand mapped -/

/-- Fibres of the crew in execution after its strand has been mapped by `g`. -/
theorem State.updCur_mapMask_fibre {s : State} (h : executing s = true) (k : Crew → Crew) (g : Nat → Fibre → Fibre)
    (hk : (k s.curCrew).fibres = (s.curCrew.mapMask s.cur.mask g).fibres) (i : Nat) :
    (s.updCur k).curCrew.fibre i =
      if i < 32 ∧ s.cur.mask.getLsbD i = true then g i (s.curCrew.fibre i) else s.curCrew.fibre i := by
  obtain ⟨-, -, hf⟩ := executing_parts h
  rw [State.updCur_curCrew h]
  show ((k s.curCrew).fibres[i]?).getD {} = _
  rw [hk]
  by_cases hi : i < 32
  · have := Crew.fibre_mapMask s.curCrew s.cur.mask g (i := i) (by omega)
    simp only [Crew.fibre] at this
    rw [this]; simp [hi, Crew.fibre]
  · rw [List.getElem?_eq_none (by simp; omega)]
    simp [hi, Crew.fibre, List.getElem?_eq_none (show s.curCrew.fibres.length ≤ i by omega)]

/-- `goOn` moves the strand on and does nothing else. -/
theorem State.goOn_spec {s : State} (h : executing s = true) (f : Fields) : RegisterFrame s s.goOn f [] := by
  have hF := State.updCur_mapMask_fibre h (fun c => c.mapMask s.cur.mask fun _ fb => fb.next) (fun _ fb => fb.next) rfl
  refine ⟨⟨State.updCur_onlyCrew h _, ?_⟩, ⟨fun i hi hm => ?_, fun i hi hm => ?_, fun i r _ => ?_⟩⟩
  · rw [show s.goOn.curCrew = _ from State.updCur_curCrew h _]; rfl
  · rw [show s.goOn.curCrew.fibre i = _ from hF i]; simp [hm]
  · rw [show s.goOn.curCrew.fibre i = _ from hF i, if_pos ⟨hi, hm⟩]; exact Fibre.next_movedOn _
  · rw [show s.goOn.curCrew.fibre i = _ from hF i]; split <;> rfl

/-! ### Control forms (R145) -/

/-- Everything a control form can do: it answers a next state in which each acting fibre has its writes and stands at its target, or at
PC + 1 when it has none, the other fibres of the strand stand at PC + 1, and nothing else differs. -/
theorem State.controlForm_spec {s : State} (h : executing s = true) (f : Fields) (g : Fibre → List (Nat × Word) × Option Word) :
    ∃ t, s.controlForm f g = .next t ∧ OnlyFibres s t ∧ ∀ i, t.curCrew.fibre i =
      if i < 32 ∧ s.cur.mask.getLsbD i = true then
        (if guardTrue f (s.curCrew.fibre i) then
          match (g (s.curCrew.fibre i)).2 with
          | some pc => ((s.curCrew.fibre i).setRegs (g (s.curCrew.fibre i)).1).goto pc
          | none => ((s.curCrew.fibre i).setRegs (g (s.curCrew.fibre i)).1).next
        else (s.curCrew.fibre i).next)
      else s.curCrew.fibre i := by
  refine ⟨_, rfl, ⟨State.updCur_onlyCrew h _, ?_⟩, fun i => State.updCur_mapMask_fibre h _
    (fun _ fb => if guardTrue f fb then
      (match (g fb).2 with | some pc => (fb.setRegs (g fb).1).goto pc | none => (fb.setRegs (g fb).1).next) else fb.next) rfl i⟩
  rw [State.updCur_curCrew h]; rfl

/-! ### Long-latency forms (R87, R111) -/

/-- The fibre of an issued long form: moved on, with a lookahead window when it acts and LOOK is not 0. -/
def issuedFibre (s : State) (f : Fields) (dests : List Nat) (i : Nat) (fb : Fibre) : Fibre :=
  if (s.acting f).contains i && f.look != 0 then
    { fb.next with windows := fb.next.windows ++ [{ id := s.nextId, left := f.look.toNat, dests := dests, pc := s.cur.pc }] } else fb.next

/-- Everything the issue of a long-latency form can do: its writes wait in the crew, no register differs, the strand goes on. -/
theorem State.issueLong_spec {s : State} (h : executing s = true) (f : Fields) (p : Pending) (dests : List Nat) :
    OnlyCrew s { s.issueLong f p dests with nextId := s.nextId } ∧ (s.issueLong f p dests).nextId = s.nextId + 1 ∧
    ({ (s.issueLong f p dests).curCrew with fibres := s.curCrew.fibres, pend := s.curCrew.pend } : Crew) = s.curCrew ∧
    (s.issueLong f p dests).curCrew.pend = s.curCrew.pend ++
      [{ p with id := s.nextId, pc := s.cur.pc, word := s.cur.word, mask := s.actMask f, strand := s.cur.mask }] ∧
    ∀ i, (s.issueLong f p dests).curCrew.fibre i = if i < 32 ∧ s.cur.mask.getLsbD i = true then
      issuedFibre s f dests i (s.curCrew.fibre i) else s.curCrew.fibre i := by
  have hC : (s.issueLong f p dests).curCrew = _ := State.updCur_curCrew h _
  refine ⟨State.updCur_onlyCrew h _, rfl, ?_, ?_, fun i => ?_⟩
  · rw [hC]; rfl
  · rw [hC]; rfl
  · exact State.updCur_mapMask_fibre h _ (issuedFibre s f dests) rfl i

theorem issuedFibre_reg (s : State) (f : Fields) (dests : List Nat) (i : Nat) (fb : Fibre) (r : Nat) :
    (issuedFibre s f dests i fb).reg r = fb.reg r := by unfold issuedFibre; split <;> rfl
theorem issuedFibre_movedOn (s : State) (f : Fields) (dests : List Nat) (i : Nat) (fb : Fibre) :
    movedOn fb (issuedFibre s f dests i fb) := by unfold issuedFibre; split <;> exact ⟨rfl, ⟨rfl, rfl, rfl⟩, rfl⟩

theorem State.issueLong_moved {s : State} (h : executing s = true) (f : Fields) (p : Pending) (dests : List Nat) :
    FibresMoved s (s.issueLong f p dests) f [] := by
  obtain ⟨-, -, -, -, hF⟩ := State.issueLong_spec h f p dests
  refine ⟨fun i hi hm => ?_, fun i hi hm => ?_, fun i r _ => ?_⟩
  · rw [hF]; simp [hm]
  · rw [hF, if_pos ⟨hi, hm⟩]; exact issuedFibre_movedOn ..
  · rw [hF]; split
    · exact issuedFibre_reg ..
    · rfl

/-! ### Float forms (R164, R169) -/

/-- Everything a float form can do: an enabled exception of some acting slot raises FP for the lowest such slot; otherwise the results
are written and the flags of every acting slot are set. -/
theorem State.floatForm_spec {s : State} (h : executing s = true) (f : Fields) (val : Nat → Fibre → List (Nat × Word) × BitVec 5)
    (dests : List Nat) (hd : ∀ i fb, ∀ p ∈ (val i fb).1, p.1 ∈ dests) :
    (∀ x, fpTrap s.curCrew.enables ((s.acting f).map fun i => (i, (val i (s.curCrew.fibre i)).2)) = some x →
      s.floatForm f val = s.raise f (some x.1) { cause := causeFp, arg0 := x.2.setWidth 64 }) ∧
    (fpTrap s.curCrew.enables ((s.acting f).map fun i => (i, (val i (s.curCrew.fibre i)).2)) = none →
      ∃ t, s.floatForm f val = .next t ∧ OnlyCrew s t ∧ FibresMoved s t f dests ∧
        t.curCrew.mode = (s.curCrew.addFlags ((s.acting f).foldl (fun m i => m ||| (val i (s.curCrew.fibre i)).2) 0)).mode ∧
        ({ t.curCrew with fibres := s.curCrew.fibres, mode := s.curCrew.mode } : Crew) = s.curCrew ∧
        ∀ i, acts s f i → ∀ r, (t.curCrew.fibre i).reg r = lastWrite (val i (s.curCrew.fibre i)).1 r ((s.curCrew.fibre i).reg r)) := by
  constructor
  · intro x hx; unfold State.floatForm; simp only [hx]
  · intro hn
    unfold State.floatForm
    simp only [hn]
    obtain ⟨hfr, hw⟩ := State.perFibre_spec h f (fun i fb => (val i fb).1) dests hd
    have hx : executing (s.perFibre f fun i fb => (val i fb).1) = true :=
      executing_updCur h (by simp [(executing_parts h).2.2])
    generalize hu : s.perFibre f (fun i fb => (val i fb).1) = u at hfr hw hx
    have hcur : u.cur = s.cur := by have := congrArg State.cur hfr.rest; exact this
    refine ⟨_, rfl, ?_⟩
    have hC : ∀ g : Crew → Crew, (u.updCur g).curCrew = g u.curCrew := State.updCur_curCrew hx
    have hO := State.updCur_onlyCrew hx (fun c => c.addFlags (List.foldl (fun m x => m ||| x.2) 0
      (List.map (fun i => (i, (val i (s.curCrew.fibre i)).2)) (s.acting f))))
    refine ⟨⟨?_, fun b hb => ?_, ?_, fun k hk => ?_⟩, ⟨fun i hi hm => ?_, fun i hi hm => ?_, fun i r hn => ?_⟩, ?_, ?_, fun i ha r => ?_⟩
    · have h1 := hfr.rest
      have h2 := hO.rest
      calc _ = ({ ({ u.updCur _ with blocks := u.blocks } : State) with blocks := s.blocks } : State) := rfl
        _ = _ := by rw [h2]; exact h1
    · rw [hO.blocks b (by rw [hcur]; exact hb), hfr.blocks b hb]
    · have h1 := hfr.block
      have h2 := hO.block
      calc _ = ({ ({ (u.updCur _).curBlock with crews := u.curBlock.crews } : Block) with crews := s.curBlock.crews } : Block) := rfl
        _ = _ := by rw [h2]; exact h1
    · rw [hO.crews k (by rw [hcur]; exact hk), hfr.crews k hk]
    · rw [hC]; exact hfr.outside i hi hm
    · rw [hC]; exact hfr.moved i hi hm
    · rw [hC]; exact hfr.regs i r hn
    · rw [hC]
      have h1 : u.curCrew.mode = s.curCrew.mode := by have := congrArg Crew.mode hfr.crew; exact this
      simp only [Crew.addFlags, h1, List.foldl_map]
    · rw [hC]
      have h1 := hfr.crew
      have h2 : u.curCrew.mode = s.curCrew.mode := by have := congrArg Crew.mode h1; exact this
      calc _ = ({ ({ u.curCrew with fibres := s.curCrew.fibres } : Crew) with mode := s.curCrew.mode } : Crew) := rfl
        _ = _ := by rw [h1]
    · rw [hC]; exact hw i ha r

/-! ### Issue (R107) -/

/-- An attempt to issue judges an instruction by the meaning that `exec` then gives it. -/
theorem runForm_exec {i : Instr} (h : (opOf i).isSome = true) (s : State) : runForm i s = exec i s := by
  cases i <;> first | rfl | exact absurd (show false = true from h) Bool.false_ne_true

end Sys2Proof.Machine
end

