-- ==== Sys2Proof/Laws/Memory.lean ====
section
/-! SUPPORT. Laws of memory: read after write, bytes elsewhere untouched, and the canonical form kept by every operation that
writes memory. The shared operations of traps, records and stores keep it too. -/

namespace Sys2Proof.Sparse

theorem filter_wfFrom {α : Type} [DecidableEq α] {d : Nat → α} {lo : Nat} {m : List (Nat × α)} (p : Nat × α → Bool)
    (h : wfFrom d lo m = true) : wfFrom d lo (m.filter p) = true := by
  induction m generalizing lo with
  | nil => rfl
  | cons x r ih =>
    obtain ⟨j, v⟩ := x
    simp only [wfFrom, Bool.and_eq_true, decide_eq_true_eq] at h
    rw [List.filter_cons]
    split
    · simp only [wfFrom, Bool.and_eq_true, decide_eq_true_eq]; exact ⟨h.1, ih h.2⟩
    · exact wfFrom_mono (ih h.2) (by omega)

/-- Bytes taken away leave the canonical form. -/
theorem filter_wf {α : Type} [DecidableEq α] {d : Nat → α} {m : List (Nat × α)} (p : Nat × α → Bool) (h : wf d m = true) :
    wf d (m.filter p) = true := filter_wfFrom p h

end Sys2Proof.Sparse

namespace Sys2Proof.Machine
open Bits

theorem reset_memory_wf : Memory.wf State.reset.mem = true := rfl

/-! ### One byte, and consecutive bytes -/

theorem State.byte_setBytes (s : State) (a b : Nat) (l : List Byte) :
    (s.setBytes a l).byte b = if a ≤ b then (l[b - a]?).getD (s.byte b) else s.byte b := Sparse.get_putN _ _ _ _ _

/-- A byte outside those written reads as before. -/
theorem State.byte_setBytes_other (s : State) {a b : Nat} {l : List Byte} (h : ¬(a ≤ b ∧ b < a + l.length)) :
    (s.setBytes a l).byte b = s.byte b := by
  rw [State.byte_setBytes]
  split
  · rw [List.getElem?_eq_none (by omega)]; rfl
  · rfl

@[simp] theorem State.length_bytes (s : State) (a n : Nat) : (s.bytes a n).length = n := Sparse.length_getN _ _ _ _

theorem State.bytes_getElem? (s : State) (a : Nat) {n i : Nat} (h : i < n) : (s.bytes a n)[i]? = some (s.byte (a + i)) :=
  Sparse.getElem?_getN _ _ _ _ _ h

/-- What is written reads back. -/
theorem State.bytes_setBytes (s : State) (a : Nat) (l : List Byte) : (s.setBytes a l).bytes a l.length = l := by
  refine List.ext_getElem? fun i => ?_
  by_cases h : i < l.length
  · rw [State.bytes_getElem? _ _ h, State.byte_setBytes]; simp [h]
  · rw [List.getElem?_eq_none (by simpa using h), List.getElem?_eq_none (by simpa using h)]

/-- Two canonical memories that read alike are equal data. -/
theorem Memory.ext {m n : List (Nat × Byte)} (hm : Memory.wf m = true) (hn : Memory.wf n = true)
    (h : ∀ a, Sparse.get memDefault m a = Sparse.get memDefault n a) : m = n := Sparse.wfFrom_ext hm hn h

/-! ### The canonical form -/

/-- The memory of a state is in canonical form. -/
abbrev State.memOk (s : State) : Prop := Memory.wf s.mem = true

theorem State.setBytes_wf {s : State} (h : s.memOk) (a : Nat) (l : List Byte) : (s.setBytes a l).memOk := Sparse.putN_wf h a l
theorem State.setPte_wf {s : State} (h : s.memOk) (ia : Nat) (e : DWord) : (s.setPte ia e).memOk := Sparse.putN_wf h _ _

/-- A fold of steps that each keep it keeps it. -/
theorem foldl_memOk {α : Type} {g : State → α → State} (hg : ∀ s a, s.memOk → (g s a).memOk) (l : List α) {s : State} (h : s.memOk) :
    (l.foldl g s).memOk := by
  induction l generalizing s with
  | nil => exact h
  | cons a r ih => exact ih (hg s a h)

/-- A store puts its bytes at its place, and no other byte of memory differs. -/
theorem State.storeBytes_mem (s : State) (ag : Agent) (ia phys : Nat) (l : List Byte) :
    (s.storeBytes ag ia phys l).mem = Sparse.putN memDefault s.mem phys l := rfl
theorem State.storeBytes_wf {s : State} (h : s.memOk) (ag : Agent) (ia phys : Nat) (l : List Byte) : (s.storeBytes ag ia phys l).memOk :=
  Sparse.putN_wf h _ _

theorem foldl_mem {α : Type} {g : State → α → State} (hg : ∀ s a, (g s a).mem = s.mem) (l : List α) (s : State) :
    (l.foldl g s).mem = s.mem := by
  induction l generalizing s with
  | nil => rfl
  | cons a r ih => exact (ih (g s a)).trans (hg s a)
theorem memOk_of_mem {s t : State} (h : t.mem = s.mem) (hs : s.memOk) : t.memOk := by unfold State.memOk; rw [h]; exact hs

/-! ### The cache levels below the value: no byte of memory differs -/

theorem State.toTier_mem (s : State) (l : Nat) (c : CacheLine) : (s.toTier l c).mem = s.mem := by
  unfold State.toTier; repeat' split
  all_goals rfl
/-- Picking a line draws a free value at most. -/
theorem State.pickLine_mem (s : State) (l : List Nat) : (s.pickLine l).2.mem = s.mem := by
  unfold State.pickLine; split <;> rfl
theorem State.mvcRoom_mem (s : State) (k : Nat) : (s.mvcRoom k).mem = s.mem := by
  unfold State.mvcRoom; simp only []
  split
  · rfl
  · rw [← s.pickLine_mem ((s.mvc.filter fun x => x.1 / 2 ^ 43 == k).map (·.1))]
    generalize s.pickLine _ = r
    obtain ⟨_ | x, t⟩ := r
    exacts [rfl, State.toTier_mem _ _ _]
theorem State.evictLine_mem (s : State) (l : Nat) : (s.evictLine l).mem = s.mem := by
  unfold State.evictLine
  split
  · rfl
  · simp only []
    split
    · exact State.toTier_mem _ _ _
    · split
      · exact State.mvcRoom_mem _ _
      · exact State.toTier_mem _ _ _
theorem State.sliceRoom_mem (s : State) (k : Nat) : (s.sliceRoom k).mem = s.mem := by
  unfold State.sliceRoom
  by_cases hk : (s.l2.countP fun x => sliceOf (64 * x.1) == k) < sliceLines
  · rw [if_pos hk]
  · rw [if_neg hk, ← s.pickLine_mem (s.victims k)]
    cases s.pickLine (s.victims k) with
    | mk x t => cases x with
      | none => rfl
      | some l => exact t.evictLine_mem l
theorem State.touchLine_mem (s : State) (e : BitVec 512) (ia : Nat) (st str : Bool) : (s.touchLine e ia st str).mem = s.mem := by
  unfold State.touchLine; simp only []
  split
  · rfl
  · split
    · rfl
    · split
      · exact State.sliceRoom_mem _ _
      · exact State.sliceRoom_mem _ _
/-- The side effects of an access below its value leave every byte. -/
theorem State.note_mem (s : State) (a : Acc) (st str : Bool) : (s.note a st str).mem = s.mem := by
  unfold State.note; simp only []
  split <;> split
  · rfl
  · rfl
  · rw [State.touchLine_mem]; rfl
  · rw [State.touchLine_mem]; rfl
theorem State.noteOwn_mem (s : State) (ia n : Nat) (st : Bool) : (s.noteOwn ia n st).mem = s.mem :=
  foldl_mem (fun s l => by split; exacts [s.note_mem _ _ _, rfl]) _ _
theorem State.noteAll_mem (s : State) (a : Acc) (n : Nat) (st : Bool) : (s.noteAll a n st).mem = s.mem :=
  foldl_mem (fun s _ => s.note_mem _ _ _) _ _
theorem State.sendSnoops_mem (s : State) (p n : Nat) : (s.sendSnoops p n).mem = s.mem := by
  refine foldl_mem (fun s x => ?_) _ _
  split
  · exact foldl_mem (g := fun s l => { (s.emit (.snoop x.2.id l)) with leases := _ }) (fun _ _ => rfl) _ _
  · rfl
theorem State.setGoing_mem (s : State) (e : Event) : (s.setGoing e).mem = s.mem := by
  unfold State.setGoing; simp only []
  split
  · split <;> rfl
  · split
    · split
      · split
        · exact State.sendSnoops_mem _ _ _
        · rfl
      · rfl
    · rfl
/-- A wait of the part's own accesses leaves every byte. -/
theorem State.ownWait_mem {s t : State} {ia n : Nat} {w : Bool} (h : s.ownWait ia n w = some t) : t.mem = s.mem := by
  obtain ⟨l, -, hl⟩ := List.exists_of_findSome?_eq_some h
  split at hl
  · cases hl; rfl
  · split at hl
    · split at hl
      · cases hl; exact State.setGoing_mem _ _
      · cases hl
    · cases hl
theorem State.recordWait_mem {s t : State} {c : Nat} (h : s.recordWait c = some t) : t.mem = s.mem := by
  unfold State.recordWait at h; simp only [] at h
  split at h
  · cases h
  · split at h
    · cases h; rfl
    · exact State.ownWait_mem h

theorem State.iaWrite_wf {s : State} (h : s.memOk) (ia : Nat) (l : List Byte) : (s.iaWrite ia l).memOk := by
  have h : (s.noteOwn ia l.length true).memOk := memOk_of_mem (s.noteOwn_mem _ _ _) h
  unfold State.iaWrite; simp only []
  split
  · split
    · exact State.storeBytes_wf h _ _ _ _
    · refine foldl_memOk (fun s x hs => ?_) _ h
      split
      · exact State.storeBytes_wf hs _ _ _ _
      · exact hs
  · exact h

theorem State.physWrite_mem (s : State) (phys : Nat) (l : List Byte) : (s.physWrite phys l).mem = Sparse.putN memDefault s.mem phys l := rfl
theorem State.physWrite_wf {s : State} (h : s.memOk) (phys : Nat) (l : List Byte) : (s.physWrite phys l).memOk := by
  unfold State.memOk; rw [State.physWrite_mem]; exact Sparse.putN_wf h _ _
theorem State.copyFrame_wf {s : State} (h : s.memOk) (a b n : Nat) : (s.copyFrame a b n).memOk := State.setBytes_wf h _ _
theorem State.zeroExtent_wf {s : State} (h : s.memOk) (l : Lease) : (s.zeroExtent l).memOk := Sparse.filter_wf _ h
theorem State.loadFailed_wf (s : State) (e : BitVec 8) (sh n : Nat) : (s.loadFailed e sh n).memOk := by
  unfold State.memOk State.loadFailed State.ckFail State.updCk; simp only []
  by_cases hm : Sparse.wf memDefault (Config.lostMemory s.free) = true
  · rw [if_pos hm]; exact hm
  · rw [if_neg hm]; rfl
/-- What a shard holds goes to its frames in canonical form, and so does what a step's shards hold together. -/
theorem State.placeShard_wf {s : State} (h : s.memOk) (p : ShardPlan) (x : Shard) : (s.placeShard p x).memOk := by
  unfold State.memOk State.placeShard
  generalize p.frames.zipIdx = l
  simp only []
  have hm : Memory.wf s.mem = true := h
  generalize s.mem = m at hm
  induction l generalizing m with
  | nil => exact hm
  | cons a r ih => exact ih _ (Sparse.putN_wf hm _ _)
theorem State.loadShards_wf (s : State) (h : BitVec 512) (l : List (BitVec 512)) (k : Snap) : (s.loadShards h l k).memOk := by
  refine foldl_memOk (fun t e ht => ?_) l (s := { s.loaded k with mem := [], poison := [] }) rfl
  split
  exacts [State.placeShard_wf ht _ _, ht]

/-! ### Records and traps -/

theorem State.putRecord_wf {s : State} (h : s.memOk) (c : Nat) (r : BitVec 512) : (s.putRecord c r).memOk := by
  unfold State.putRecord; simp only []
  split
  · exact h
  · exact State.iaWrite_wf h _ _
theorem State.blockRecord_wf {s : State} (h : s.memOk) (b c : Nat) (e : Event) (f : Nat) : (s.blockRecord b c e f).memOk :=
  State.putRecord_wf h _ _
theorem State.recordWait_getD_wf {s : State} (h : s.memOk) (c : Nat) : ((s.recordWait c).getD s).memOk := by
  cases hw : s.recordWait c with
  | none => exact h
  | some t => exact memOk_of_mem (State.recordWait_mem hw) h
theorem State.hubRecord_wf {s : State} (h : s.memOk) (c : Nat) (e : Event) (tid tag : Word) (f : Nat) : (s.hubRecord c e tid tag f).memOk := by
  unfold State.hubRecord
  split
  · exact State.recordWait_getD_wf h c
  · exact State.putRecord_wf h _ _
theorem State.profileRecord_wf {s : State} (h : s.memOk) (c : Nat) (r : BitVec 512) : (s.profileRecord c r).memOk := by
  unfold State.profileRecord
  split
  · exact h
  · split
    · exact h
    · split
      · next t hw => exact memOk_of_mem (t := { t with profQueue := _ }) (State.ownWait_mem (t := t) hw) h
      · exact State.iaWrite_wf h _ _

theorem State.dropHold_mem (s : State) (b h : Nat) : (s.dropHold b h).mem = s.mem := by
  unfold State.dropHold; simp only []; repeat' split
  all_goals rfl
theorem State.dropHolds_mem (s : State) (b : Nat) : (s.dropHolds b).mem = s.mem := foldl_mem (fun s h => s.dropHold_mem b h) _ _
theorem State.terminate_mem (s : State) (b st : Nat) : (s.terminate b st).mem = s.mem := by
  unfold State.terminate; simp only []
  split
  · rfl
  · exact s.dropHolds_mem b
theorem State.terminateTask_mem (s : State) (u st : Nat) : (s.terminateTask u st).mem = s.mem := foldl_mem (fun s b => s.terminate_mem b st) _ _
theorem State.debugStop_wf {s : State} (h : s.memOk) (b c : Nat) : (s.debugStop b c).memOk := by
  unfold State.debugStop; exact State.iaWrite_wf (s := s.updBlock b _) h _ _

/-- Whatever becomes of a trap, memory is canonical. -/
theorem State.disposeOf_wf {s : State} (h : s.memOk) (b c : Nat) (m : Mask) (e : Event) (f : Option Nat) : (s.disposeOf b c m e f).memOk := by
  unfold State.disposeOf; simp only []
  split
  · exact State.blockRecord_wf h _ _ _ _
  · exact State.blockRecord_wf h _ _ _ _
  · exact State.debugStop_wf (s := (s.blockRecord _ _ _ _).updCrew b c _) (State.blockRecord_wf h _ _ _ _) _ _
  · exact memOk_of_mem (State.terminateTask_mem _ _ _) (State.blockRecord_wf h _ _ _ _)
  · exact memOk_of_mem (State.terminate_mem _ _ _) (State.blockRecord_wf h _ _ _ _)
  · split
    · exact memOk_of_mem (State.terminate_mem _ _ _) (State.blockRecord_wf h _ _ _ _)
    · exact State.blockRecord_wf h _ _ _ _
theorem State.dispose_wf {s : State} (h : s.memOk) (b c : Nat) (m : Mask) (e : Event) (f : Option Nat) : (s.dispose b c m e f).memOk := by
  unfold State.dispose
  split
  · exact State.disposeOf_wf (s := s.updCrew b _ _) h _ _ _ _ _
  · exact State.disposeOf_wf h _ _ _ _ _
theorem State.trapPlace_mem {s t : State} {b c : Nat} {e : Event} (h : s.trapPlace b c e = some t) : t.mem = s.mem := by
  unfold State.trapPlace at h; simp only [] at h
  split at h
  · next hw => cases h; exact State.recordWait_mem hw
  · split at h
    · exact State.ownWait_mem h
    · cases h
theorem State.updCrew_wf {s : State} (h : s.memOk) (b c : Nat) (g : Crew → Crew) : (s.updCrew b c g).memOk := h
theorem State.updCur_wf {s : State} (h : s.memOk) (g : Crew → Crew) : (s.updCur g).memOk := h
theorem State.nextId_wf {s : State} (h : s.memOk) (n : Nat) : ({ s with nextId := n } : State).memOk := h
theorem State.takeTrap_wf {s : State} (h : s.memOk) (b c : Nat) (p : PendTrap) : (s.takeTrap b c p).memOk := by
  unfold State.takeTrap
  split
  · exact h
  · exact State.dispose_wf h _ _ _ _ _
/-- A trap that waits sets going at most what it waits for. -/
theorem State.trapPlace_getD_wf {s : State} (h : s.memOk) (b c : Nat) (e : Event) : ((s.trapPlace b c e).getD s).memOk := by
  cases hw : s.trapPlace b c e with
  | none => exact h
  | some t => exact memOk_of_mem (State.trapPlace_mem hw) h
theorem State.trap_wf {s : State} (h : s.memOk) (b c : Nat) (m act : Mask) (e : Event) (f : Option Nat := none) (late : Bool := false) :
    (s.trap b c m act e f late).memOk := by
  have key {u : State} (hu : u.memOk) (p : PendTrap) (i w : Bool) (g : Crew → Crew) :
      (if w then (if i then u else (u.trapPlace b c e).getD u).updCrew b c g else u.takeTrap b c p).memOk := by
    cases w
    · exact State.takeTrap_wf hu b c p
    · cases i
      exacts [State.trapPlace_getD_wf hu b c e, hu]
  unfold State.trap; simp only []
  split
  · exact key (u := s.updCrew b c (·.displace)) h _ _ _ _
  · exact key h _ _ _ _
/-- An instruction that raises a trap answers a next state, and memory stays canonical. -/
theorem State.raise_next (s : State) (f : Fields) (k : Option Nat) (e : Event) : ∃ t, s.raise f k e = .next t ∧ (s.memOk → t.memOk) := by
  have hg (e : Event) (h : s.memOk) : (s.setGoing e).memOk := memOk_of_mem (s.setGoing_mem e) h
  unfold State.raise; simp only []
  split
  · exact ⟨_, rfl, fun h => State.updCur_wf (hg _ h) _⟩
  · split
    · exact ⟨_, rfl, fun h => State.updCur_wf (hg _ h) _⟩
    · split
      · exact ⟨_, rfl, fun h => State.trap_wf (hg _ h) _ _ _ _ _ _⟩
      · split
        · exact ⟨_, rfl, fun h => State.trap_wf (State.updCur_wf (hg _ h) _) _ _ _ _ _ _⟩
        · exact ⟨_, rfl, fun h => State.trap_wf (State.nextId_wf (State.updCur_wf (hg _ h) _) _) _ _ _ _ _ _⟩

end Sys2Proof.Machine
end

