-- ==== Sys2Proof/Laws/PerInstr.lean ====
section
/-! SUPPORT. Statements made of every instruction as syntax, one lemma per constructor. -/

namespace Sys2Proof.Laws.OpRead

/-- The opcode map reads an instruction back from its OP and its fields, and an event has no OP (R79, R93). -/
def Statement (i : Instr) : Prop := match opOf i with
  | some op => instrOfOp op (fieldsOf i) = some i ∧ op < 2 ^ 10
  | none => Encoding.row i = none

theorem iadd (f : Fields) : Statement (.iadd f) := ⟨rfl, by decide⟩
theorem isub (f : Fields) : Statement (.isub f) := ⟨rfl, by decide⟩
theorem iaddc (f : Fields) : Statement (.iaddc f) := ⟨rfl, by decide⟩
theorem ineg (f : Fields) : Statement (.ineg f) := ⟨rfl, by decide⟩
theorem iabs (f : Fields) : Statement (.iabs f) := ⟨rfl, by decide⟩
theorem imin (f : Fields) : Statement (.imin f) := ⟨rfl, by decide⟩
theorem imax (f : Fields) : Statement (.imax f) := ⟨rfl, by decide⟩
theorem imul (f : Fields) : Statement (.imul f) := ⟨rfl, by decide⟩
theorem imulh (f : Fields) : Statement (.imulh f) := ⟨rfl, by decide⟩
theorem imad (f : Fields) : Statement (.imad f) := ⟨rfl, by decide⟩
theorem imadw (f : Fields) : Statement (.imadw f) := ⟨rfl, by decide⟩
theorem idiv (f : Fields) : Statement (.idiv f) := ⟨rfl, by decide⟩
theorem irem (f : Fields) : Statement (.irem f) := ⟨rfl, by decide⟩
theorem and (f : Fields) : Statement (.and f) := ⟨rfl, by decide⟩
theorem or (f : Fields) : Statement (.or f) := ⟨rfl, by decide⟩
theorem xor (f : Fields) : Statement (.xor f) := ⟨rfl, by decide⟩
theorem andn (f : Fields) : Statement (.andn f) := ⟨rfl, by decide⟩
theorem tern (f : Fields) : Statement (.tern f) := ⟨rfl, by decide⟩
theorem shl (f : Fields) : Statement (.shl f) := ⟨rfl, by decide⟩
theorem shr (f : Fields) : Statement (.shr f) := ⟨rfl, by decide⟩
theorem sha (f : Fields) : Statement (.sha f) := ⟨rfl, by decide⟩
theorem fsh (f : Fields) : Statement (.fsh f) := ⟨rfl, by decide⟩
theorem bfx (f : Fields) : Statement (.bfx f) := ⟨rfl, by decide⟩
theorem bfi (f : Fields) : Statement (.bfi f) := ⟨rfl, by decide⟩
theorem popc (f : Fields) : Statement (.popc f) := ⟨rfl, by decide⟩
theorem clz (f : Fields) : Statement (.clz f) := ⟨rfl, by decide⟩
theorem ctz (f : Fields) : Statement (.ctz f) := ⟨rfl, by decide⟩
theorem brev (f : Fields) : Statement (.brev f) := ⟨rfl, by decide⟩
theorem permb (f : Fields) : Statement (.permb f) := ⟨rfl, by decide⟩
theorem bmsk (f : Fields) : Statement (.bmsk f) := ⟨rfl, by decide⟩
theorem icmp (f : Fields) : Statement (.icmp f) := ⟨rfl, by decide⟩
theorem fcmp (f : Fields) : Statement (.fcmp f) := ⟨rfl, by decide⟩
theorem pset (f : Fields) : Statement (.pset f) := ⟨rfl, by decide⟩
theorem plop (f : Fields) : Statement (.plop f) := ⟨rfl, by decide⟩
theorem pmov (f : Fields) : Statement (.pmov f) := ⟨rfl, by decide⟩
theorem ptest (f : Fields) : Statement (.ptest f) := ⟨rfl, by decide⟩
theorem lxch (f : Fields) : Statement (.lxch f) := ⟨rfl, by decide⟩
theorem ballot (f : Fields) : Statement (.ballot f) := ⟨rfl, by decide⟩
theorem vote (f : Fields) : Statement (.vote f) := ⟨rfl, by decide⟩
theorem matchLanes (f : Fields) : Statement (.matchLanes f) := ⟨rfl, by decide⟩
theorem lred (f : Fields) : Statement (.lred f) := ⟨rfl, by decide⟩
theorem lscan (f : Fields) : Statement (.lscan f) := ⟨rfl, by decide⟩
theorem strandm (f : Fields) : Statement (.strandm f) := ⟨rfl, by decide⟩
theorem mov (f : Fields) : Statement (.mov f) := ⟨rfl, by decide⟩
theorem movi (f : Fields) : Statement (.movi f) := ⟨rfl, by decide⟩
theorem sel (f : Fields) : Statement (.sel f) := ⟨rfl, by decide⟩
theorem get (f : Fields) : Statement (.get f) := ⟨rfl, by decide⟩
theorem setmode (f : Fields) : Statement (.setmode f) := ⟨rfl, by decide⟩
theorem getmode (f : Fields) : Statement (.getmode f) := ⟨rfl, by decide⟩
theorem clk (f : Fields) : Statement (.clk f) := ⟨rfl, by decide⟩
theorem fadd (f : Fields) : Statement (.fadd f) := ⟨rfl, by decide⟩
theorem fsub (f : Fields) : Statement (.fsub f) := ⟨rfl, by decide⟩
theorem fmul (f : Fields) : Statement (.fmul f) := ⟨rfl, by decide⟩
theorem ffma (f : Fields) : Statement (.ffma f) := ⟨rfl, by decide⟩
theorem fmin (f : Fields) : Statement (.fmin f) := ⟨rfl, by decide⟩
theorem fmax (f : Fields) : Statement (.fmax f) := ⟨rfl, by decide⟩
theorem fdiv (f : Fields) : Statement (.fdiv f) := ⟨rfl, by decide⟩
theorem fsqrt (f : Fields) : Statement (.fsqrt f) := ⟨rfl, by decide⟩
theorem frcp (f : Fields) : Statement (.frcp f) := ⟨rfl, by decide⟩
theorem frsq (f : Fields) : Statement (.frsq f) := ⟨rfl, by decide⟩
theorem fscale (f : Fields) : Statement (.fscale f) := ⟨rfl, by decide⟩
theorem frnd (f : Fields) : Statement (.frnd f) := ⟨rfl, by decide⟩
theorem fclass (f : Fields) : Statement (.fclass f) := ⟨rfl, by decide⟩
theorem hadd2 (f : Fields) : Statement (.hadd2 f) := ⟨rfl, by decide⟩
theorem hmul2 (f : Fields) : Statement (.hmul2 f) := ⟨rfl, by decide⟩
theorem hfma2 (f : Fields) : Statement (.hfma2 f) := ⟨rfl, by decide⟩
theorem hmnx2 (f : Fields) : Statement (.hmnx2 f) := ⟨rfl, by decide⟩
theorem dot4 (f : Fields) : Statement (.dot4 f) := ⟨rfl, by decide⟩
theorem idot4 (f : Fields) : Statement (.idot4 f) := ⟨rfl, by decide⟩
theorem fexp2 (f : Fields) : Statement (.fexp2 f) := ⟨rfl, by decide⟩
theorem flog2 (f : Fields) : Statement (.flog2 f) := ⟨rfl, by decide⟩
theorem fsin (f : Fields) : Statement (.fsin f) := ⟨rfl, by decide⟩
theorem fcos (f : Fields) : Statement (.fcos f) := ⟨rfl, by decide⟩
theorem ftanh (f : Fields) : Statement (.ftanh f) := ⟨rfl, by decide⟩
theorem cvtff (f : Fields) : Statement (.cvtff f) := ⟨rfl, by decide⟩
theorem cvtfi (f : Fields) : Statement (.cvtfi f) := ⟨rfl, by decide⟩
theorem cvtif (f : Fields) : Statement (.cvtif f) := ⟨rfl, by decide⟩
theorem cvtii (f : Fields) : Statement (.cvtii f) := ⟨rfl, by decide⟩
theorem pack (f : Fields) : Statement (.pack f) := ⟨rfl, by decide⟩
theorem unpack (f : Fields) : Statement (.unpack f) := ⟨rfl, by decide⟩
theorem mxq (f : Fields) : Statement (.mxq f) := ⟨rfl, by decide⟩
theorem mxdq (f : Fields) : Statement (.mxdq f) := ⟨rfl, by decide⟩
theorem bra (f : Fields) : Statement (.bra f) := ⟨rfl, by decide⟩
theorem brb (f : Fields) : Statement (.brb f) := ⟨rfl, by decide⟩
theorem brx (f : Fields) : Statement (.brx f) := ⟨rfl, by decide⟩
theorem call (f : Fields) : Statement (.call f) := ⟨rfl, by decide⟩
theorem ret (f : Fields) : Statement (.ret f) := ⟨rfl, by decide⟩
theorem loop (f : Fields) : Statement (.loop f) := ⟨rfl, by decide⟩
theorem nop (f : Fields) : Statement (.nop f) := ⟨rfl, by decide⟩
theorem spawn (f : Fields) : Statement (.spawn f) := ⟨rfl, by decide⟩
theorem fend (f : Fields) : Statement (.fend f) := ⟨rfl, by decide⟩
theorem converge (f : Fields) : Statement (.converge f) := ⟨rfl, by decide⟩
theorem yield (f : Fields) : Statement (.yield f) := ⟨rfl, by decide⟩
theorem prio (f : Fields) : Statement (.prio f) := ⟨rfl, by decide⟩
theorem ld (f : Fields) : Statement (.ld f) := ⟨rfl, by decide⟩
theorem st (f : Fields) : Statement (.st f) := ⟨rfl, by decide⟩
theorem ldq (f : Fields) : Statement (.ldq f) := ⟨rfl, by decide⟩
theorem stq (f : Fields) : Statement (.stq f) := ⟨rfl, by decide⟩
theorem pref (f : Fields) : Statement (.pref f) := ⟨rfl, by decide⟩
theorem refmk (f : Fields) : Statement (.refmk f) := ⟨rfl, by decide⟩
theorem refadd (f : Fields) : Statement (.refadd f) := ⟨rfl, by decide⟩
theorem hqry (f : Fields) : Statement (.hqry f) := ⟨rfl, by decide⟩
theorem lds (f : Fields) : Statement (.lds f) := ⟨rfl, by decide⟩
theorem sts (f : Fields) : Statement (.sts f) := ⟨rfl, by decide⟩
theorem stash (f : Fields) : Statement (.stash f) := ⟨rfl, by decide⟩
theorem unstash (f : Fields) : Statement (.unstash f) := ⟨rfl, by decide⟩
theorem flushs (f : Fields) : Statement (.flushs f) := ⟨rfl, by decide⟩
theorem atom (f : Fields) : Statement (.atom f) := ⟨rfl, by decide⟩
theorem acas (f : Fields) : Statement (.acas f) := ⟨rfl, by decide⟩
theorem acas2 (f : Fields) : Statement (.acas2 f) := ⟨rfl, by decide⟩
theorem afadd (f : Fields) : Statement (.afadd f) := ⟨rfl, by decide⟩
theorem atoms (f : Fields) : Statement (.atoms f) := ⟨rfl, by decide⟩
theorem acass (f : Fields) : Statement (.acass f) := ⟨rfl, by decide⟩
theorem rowopen (f : Fields) : Statement (.rowopen f) := ⟨rfl, by decide⟩
theorem rowrel (f : Fields) : Statement (.rowrel f) := ⟨rfl, by decide⟩
theorem rowld (f : Fields) : Statement (.rowld f) := ⟨rfl, by decide⟩
theorem rowst (f : Fields) : Statement (.rowst f) := ⟨rfl, by decide⟩
theorem rowq (f : Fields) : Statement (.rowq f) := ⟨rfl, by decide⟩
theorem fence (f : Fields) : Statement (.fence f) := ⟨rfl, by decide⟩
theorem bar (f : Fields) : Statement (.bar f) := ⟨rfl, by decide⟩
theorem rbar (f : Fields) : Statement (.rbar f) := ⟨rfl, by decide⟩
theorem arrive (f : Fields) : Statement (.arrive f) := ⟨rfl, by decide⟩
theorem bwait (f : Fields) : Statement (.bwait f) := ⟨rfl, by decide⟩
theorem barstat (f : Fields) : Statement (.barstat f) := ⟨rfl, by decide⟩
theorem monarm (f : Fields) : Statement (.monarm f) := ⟨rfl, by decide⟩
theorem monwait (f : Fields) : Statement (.monwait f) := ⟨rfl, by decide⟩
theorem semwait (f : Fields) : Statement (.semwait f) := ⟨rfl, by decide⟩
theorem sempost (f : Fields) : Statement (.sempost f) := ⟨rfl, by decide⟩
theorem wqpush (f : Fields) : Statement (.wqpush f) := ⟨rfl, by decide⟩
theorem wqpop (f : Fields) : Statement (.wqpop f) := ⟨rfl, by decide⟩
theorem wqnote (f : Fields) : Statement (.wqnote f) := ⟨rfl, by decide⟩
theorem tryOpen (f : Fields) : Statement (.tryOpen f) := ⟨rfl, by decide⟩
theorem commit (f : Fields) : Statement (.commit f) := ⟨rfl, by decide⟩
theorem abort (f : Fields) : Statement (.abort f) := ⟨rfl, by decide⟩
theorem tstat (f : Fields) : Statement (.tstat f) := ⟨rfl, by decide⟩
theorem tchk (f : Fields) : Statement (.tchk f) := ⟨rfl, by decide⟩
theorem acp (f : Fields) : Statement (.acp f) := ⟨rfl, by decide⟩
theorem tcp (f : Fields) : Statement (.tcp f) := ⟨rfl, by decide⟩
theorem put (f : Fields) : Statement (.put f) := ⟨rfl, by decide⟩
theorem gather (f : Fields) : Statement (.gather f) := ⟨rfl, by decide⟩
theorem pfx (f : Fields) : Statement (.pfx f) := ⟨rfl, by decide⟩
theorem wbx (f : Fields) : Statement (.wbx f) := ⟨rfl, by decide⟩
theorem waitc (f : Fields) : Statement (.waitc f) := ⟨rfl, by decide⟩
theorem cntr (f : Fields) : Statement (.cntr f) := ⟨rfl, by decide⟩
theorem tenq (f : Fields) : Statement (.tenq f) := ⟨rfl, by decide⟩
theorem tdep (f : Fields) : Statement (.tdep f) := ⟨rfl, by decide⟩
theorem svc (f : Fields) : Statement (.svc f) := ⟨rfl, by decide⟩
theorem svcq (f : Fields) : Statement (.svcq f) := ⟨rfl, by decide⟩
theorem mma (f : Fields) : Statement (.mma f) := ⟨rfl, by decide⟩
theorem mmac (f : Fields) : Statement (.mmac f) := ⟨rfl, by decide⟩
theorem mmas (f : Fields) : Statement (.mmas f) := ⟨rfl, by decide⟩
theorem rqt (f : Fields) : Statement (.rqt f) := ⟨rfl, by decide⟩
theorem accz (f : Fields) : Statement (.accz f) := ⟨rfl, by decide⟩
theorem accld (f : Fields) : Statement (.accld f) := ⟨rfl, by decide⟩
theorem accst (f : Fields) : Statement (.accst f) := ⟨rfl, by decide⟩
theorem accrow (f : Fields) : Statement (.accrow f) := ⟨rfl, by decide⟩
theorem accscl (f : Fields) : Statement (.accscl f) := ⟨rfl, by decide⟩
theorem accexp (f : Fields) : Statement (.accexp f) := ⟨rfl, by decide⟩
theorem skbuild (f : Fields) : Statement (.skbuild f) := ⟨rfl, by decide⟩
theorem skscore (f : Fields) : Statement (.skscore f) := ⟨rfl, by decide⟩
theorem sksel (f : Fields) : Statement (.sksel f) := ⟨rfl, by decide⟩
theorem skmap (f : Fields) : Statement (.skmap f) := ⟨rfl, by decide⟩
theorem coll (f : Fields) : Statement (.coll f) := ⟨rfl, by decide⟩
theorem collq (f : Fields) : Statement (.collq f) := ⟨rfl, by decide⟩
theorem collx (f : Fields) : Statement (.collx f) := ⟨rfl, by decide⟩
theorem trap (f : Fields) : Statement (.trap f) := ⟨rfl, by decide⟩
theorem dbg (f : Fields) : Statement (.dbg f) := ⟨rfl, by decide⟩
theorem tret (f : Fields) : Statement (.tret f) := ⟨rfl, by decide⟩
theorem rqread (f : Fields) : Statement (.rqread f) := ⟨rfl, by decide⟩
theorem rqdrop (f : Fields) : Statement (.rqdrop f) := ⟨rfl, by decide⟩
theorem prof (f : Fields) : Statement (.prof f) := ⟨rfl, by decide⟩
theorem sysrd (f : Fields) : Statement (.sysrd f) := ⟨rfl, by decide⟩
theorem resultWriteback (blk crew entry : Nat) : Statement (.resultWriteback blk crew entry) := rfl
theorem creditReload (core : Nat) : Statement (.creditReload core) := rfl
theorem waiterRetry (blk crew slot : Nat) : Statement (.waiterRetry blk crew slot) := rfl
theorem monwaitTimeout (blk crew slot : Nat) : Statement (.monwaitTimeout blk crew slot) := rfl
theorem tryLongTimeout (blk crew : Nat) : Statement (.tryLongTimeout blk crew) := rfl
theorem commitStep (blk crew : Nat) : Statement (.commitStep blk crew) := rfl
theorem engineOperationWork (op units : Nat) : Statement (.engineOperationWork op units) := rfl
theorem meLockPhase (op : Nat) : Statement (.meLockPhase op) := rfl
theorem meMultiply (op : Nat) : Statement (.meMultiply op) := rfl
theorem meOperandConsumed (op : Nat) : Statement (.meOperandConsumed op) := rfl
theorem engineOpRetire (op : Nat) : Statement (.engineOpRetire op) := rfl
theorem engineFatalDelivery (blk crew : Nat) : Statement (.engineFatalDelivery blk crew) := rfl
theorem submitNop (page : Nat) : Statement (.submitNop page) := rfl
theorem launch (page : Nat) : Statement (.launch page) := rfl
theorem drain (page : Nat) : Statement (.drain page) := rfl
theorem submissionComplete (sub : Nat) : Statement (.submissionComplete sub) := rfl
theorem recordCheck : Statement (.recordCheck) := rfl
theorem priorityAging : Statement (.priorityAging) := rfl
theorem taskReservation : Statement (.taskReservation) := rfl
theorem taskPlace : Statement (.taskPlace) := rfl
theorem poolStallResume : Statement (.poolStallResume) := rfl
theorem compactorMove (core : Nat) : Statement (.compactorMove core) := rfl
theorem blockFill (blk : Nat) : Statement (.blockFill blk) := rfl
theorem crewRetire (blk crew : Nat) : Statement (.crewRetire blk crew) := rfl
theorem blockRetire (blk : Nat) : Statement (.blockRetire blk) := rfl
theorem taskRetire (task : Nat) : Statement (.taskRetire task) := rfl
theorem expansion (stack page : Nat) : Statement (.expansion stack page) := rfl
theorem agingTick (stack : Nat) : Statement (.agingTick stack) := rfl
theorem mstSet (stack : Nat) : Statement (.mstSet stack) := rfl
theorem mstCompress (stack : Nat) : Statement (.mstCompress stack) := rfl
theorem mstExpand (stack : Nat) : Statement (.mstExpand stack) := rfl
theorem mstPromote (stack : Nat) : Statement (.mstPromote stack) := rfl
theorem mstQuery (stack : Nat) : Statement (.mstQuery stack) := rfl
theorem mstBadCommand (stack : Nat) : Statement (.mstBadCommand stack) := rfl
theorem rowopenSwapDone (blk crew : Nat) : Statement (.rowopenSwapDone blk crew) := rfl
theorem rowRestoreTimeout (blk entry : Nat) : Statement (.rowRestoreTimeout blk entry) := rfl
theorem trapDelivery (blk crew : Nat) : Statement (.trapDelivery blk crew) := rfl
theorem trapRecordWrite (ctx : Nat) : Statement (.trapRecordWrite ctx) := rfl
theorem parkedRetry (who : Parked) : Statement (.parkedRetry who) := rfl
theorem preempt (ctx : Nat) : Statement (.preempt ctx) := rfl
theorem restore (ctx : Nat) : Statement (.restore ctx) := rfl
theorem resume (ctx : Nat) : Statement (.resume ctx) := rfl
theorem dbgstop (ctx : Nat) : Statement (.dbgstop ctx) := rfl
theorem dbgrun (ctx : Nat) : Statement (.dbgrun ctx) := rfl
theorem kill (ctx : Nat) : Statement (.kill ctx) := rfl
theorem ctxBadCommand (ctx : Nat) : Statement (.ctxBadCommand ctx) := rfl
theorem invalHandles : Statement (.invalHandles) := rfl
theorem invalContext : Statement (.invalContext) := rfl
theorem invalBadCommand : Statement (.invalBadCommand) := rfl
theorem invalidationDone : Statement (.invalidationDone) := rfl
theorem collChunkArrival (chunk : Chunk) : Statement (.collChunkArrival chunk) := rfl
theorem collTimeout (op : Nat) : Statement (.collTimeout op) := rfl
theorem collxTimeout (op : Nat) : Statement (.collxTimeout op) := rfl
theorem leaseRequest : Statement (.leaseRequest) := rfl
theorem leaseRenew : Statement (.leaseRenew) := rfl
theorem leaseRelease : Statement (.leaseRelease) := rfl
theorem leaseRecall : Statement (.leaseRecall) := rfl
theorem leaseBadCommand : Statement (.leaseBadCommand) := rfl
theorem requestNoAnswer : Statement (.requestNoAnswer) := rfl
theorem quiesce : Statement (.quiesce) := rfl
theorem quiesceComplete : Statement (.quiesceComplete) := rfl
theorem snap : Statement (.snap) := rfl
theorem ckResume : Statement (.ckResume) := rfl
theorem load : Statement (.load) := rfl
theorem clear : Statement (.clear) := rfl
theorem partReset : Statement (.partReset) := rfl
theorem spdmRequest (data : List Byte) : Statement (.spdmRequest data) := rfl
theorem groupSwap (stack group member : Nat) : Statement (.groupSwap stack group member) := rfl
theorem instructionFetch (blk crew : Nat) : Statement (.instructionFetch blk crew) := rfl
theorem crewRotation (blk crew : Nat) : Statement (.crewRotation blk crew) := rfl
theorem submitDmwr (origin : PageFrom) (offset : Nat) (data : List Byte) : Statement (.submitDmwr origin offset data) := rfl
theorem winPlainWrite (page : Nat) : Statement (.winPlainWrite page) := rfl
theorem stateErrClear (page : Nat) : Statement (.stateErrClear page) := rfl
theorem bindingWrite (page : Nat) (entry : BitVec 256) : Statement (.bindingWrite page entry) := rfl
theorem qsbWrite (set : Nat) (value : DWord) : Statement (.qsbWrite set value) := rfl
theorem svcPop (qcore : Nat) : Statement (.svcPop qcore) := rfl
theorem svcClaim (qcore : Nat) : Statement (.svcClaim qcore) := rfl
theorem svcDone (qcore : Nat) : Statement (.svcDone qcore) := rfl
theorem svcNottaken (qcore : Nat) : Statement (.svcNottaken qcore) := rfl
theorem svcExit (qcore : Nat) : Statement (.svcExit qcore) := rfl
theorem svcFail (qcore : Nat) : Statement (.svcFail qcore) := rfl
theorem svcBadCommand (qcore : Nat) (value : Word) : Statement (.svcBadCommand qcore value) := rfl
theorem serviceRestart (qcore : Nat) : Statement (.serviceRestart qcore) := rfl
theorem serviceNodeException (qcore : Nat) (mcause mtval : Word) : Statement (.serviceNodeException qcore mcause mtval) := rfl
theorem l2Eviction (line : Nat) : Statement (.l2Eviction line) := rfl
theorem bloomRotate (slice : Nat) : Statement (.bloomRotate slice) := rfl
theorem rowForcedClose (slot : Nat) : Statement (.rowForcedClose slot) := rfl
theorem neighbourRefresh (slot : Nat) : Statement (.neighbourRefresh slot) := rfl
theorem lineError (at_ : LineAt) (correctable : Bool) : Statement (.lineError at_ correctable) := rfl
theorem trstatClear (ctx : Nat) : Statement (.trstatClear ctx) := rfl
theorem corePowerGate (core : Nat) : Statement (.corePowerGate core) := rfl
theorem incomingMemRead (origin : MemFrom) (ia len : Nat) : Statement (.incomingMemRead origin ia len) := rfl
theorem incomingMemWrite (origin : MemFrom) (posted : Bool) (ia : Nat) (data : List Byte) : Statement (.incomingMemWrite origin posted ia data) := rfl
theorem backInvalidateSnoop (lease : Word) (line : Nat) : Statement (.backInvalidateSnoop lease line) := rfl
theorem bisnpResponse (lease : Word) (line : Nat) (dirty : List Byte) : Statement (.bisnpResponse lease line dirty) := rfl
theorem bisnpTimeout (lease : Word) (line : Nat) : Statement (.bisnpTimeout lease line) := rfl
theorem uioWriteReceived (lease : Word) (offset : Nat) (data : List Byte) : Statement (.uioWriteReceived lease offset data) := rfl
theorem uioAck (store : Nat) (result : UioResult) : Statement (.uioAck store result) := rfl
theorem peerStoreTimeout (store : Nat) : Statement (.peerStoreTimeout store) := rfl
theorem req (body : BitVec 256) : Statement (.req body) := rfl
theorem offer (body : BitVec 256) : Statement (.offer body) := rfl
theorem accept (body : BitVec 256) : Statement (.accept body) := rfl
theorem refuse (body : BitVec 256) : Statement (.refuse body) := rfl
theorem renew (body : BitVec 256) : Statement (.renew body) := rfl
theorem renewed (body : BitVec 256) : Statement (.renewed body) := rfl
theorem notice (body : BitVec 256) : Statement (.notice body) := rfl
theorem release (body : BitVec 256) : Statement (.release body) := rfl
theorem released (body : BitVec 256) : Statement (.released body) := rfl
theorem alive (body : BitVec 256) : Statement (.alive body) := rfl
theorem announce (body : BitVec 256) : Statement (.announce body) := rfl
theorem claim (body : BitVec 256) : Statement (.claim body) := rfl
theorem depart (body : BitVec 256) : Statement (.depart body) := rfl
theorem ringlist (source : BitVec 12) (body : BitVec 1024) : Statement (.ringlist source body) := rfl
theorem offerTimeout (entry : Nat) : Statement (.offerTimeout entry) := rfl
theorem leaseExpiry (entry : Nat) : Statement (.leaseExpiry entry) := rfl
theorem gracePeriodEnd (entry : Nat) : Statement (.gracePeriodEnd entry) := rfl
theorem renewTimer (entry : Nat) : Statement (.renewTimer entry) := rfl
theorem aliveTimer : Statement (.aliveTimer) := rfl
theorem announceTimer : Statement (.announceTimer) := rfl
theorem announceAbsence : Statement (.announceAbsence) := rfl
theorem electionWin : Statement (.electionWin) := rfl
theorem aliveTimeout (party : BitVec 12) : Statement (.aliveTimeout party) := rfl
theorem portLinkDown (port half : Nat) : Statement (.portLinkDown port half) := rfl
theorem portLinkReset (port half : Nat) (trains : Bool) : Statement (.portLinkReset port half trains) := rfl
theorem snapComplete (failed : Option Word) : Statement (.snapComplete failed) := rfl
theorem loadComplete (error : BitVec 8) (shard : Word) : Statement (.loadComplete error shard) := rfl
theorem cinch : Statement (.cinch) := rfl
theorem cinchgo : Statement (.cinchgo) := rfl
theorem cinchadr (scan : JtagScan) : Statement (.cinchadr scan) := rfl
theorem cinchrd : Statement (.cinchrd) := rfl
theorem thermalThrottle (die : Nat) : Statement (.thermalThrottle die) := rfl
theorem thermalTrip (die : Nat) : Statement (.thermalTrip die) := rfl
theorem registerWrite (address : Nat) (value : DWord) : Statement (.registerWrite address value) := rfl
theorem queueCoreInstruction (go : QcGo) : Statement (.queueCoreInstruction go) := rfl
theorem systemCoreInstruction (core : Nat) (act : ScAct) : Statement (.systemCoreInstruction core act) := rfl
theorem fmApiCommand (pbr : BitVec 12) (routes : List (BitVec 12 × Nat)) : Statement (.fmApiCommand pbr routes) := rfl

/-- The statement holds of every instruction. -/
theorem all (i : Instr) : Statement i := by
  cases i <;> first | exact rfl | exact ⟨rfl, by decide⟩

end Sys2Proof.Laws.OpRead
end

