-- ==== Sys2Proof/Laws/State.lean ====
section
/-! SUPPORT. What each update of the state leaves in each field: one lemma per field per update, so that no proof unfolds a record update. -/

namespace Sys2Proof.Machine
open Bits


/-! ### `State.updBlock` -/

@[simp] theorem State.updBlock_turns (s : State) (b : Nat) (g : Block → Block) : (s.updBlock b g).turns = s.turns := rfl
@[simp] theorem State.updBlock_cur (s : State) (b : Nat) (g : Block → Block) : (s.updBlock b g).cur = s.cur := rfl
@[simp] theorem State.updBlock_free (s : State) (b : Nat) (g : Block → Block) : (s.updBlock b g).free = s.free := rfl
@[simp] theorem State.updBlock_boot (s : State) (b : Nat) (g : Block → Block) : (s.updBlock b g).boot = s.boot := rfl
@[simp] theorem State.updBlock_frozen (s : State) (b : Nat) (g : Block → Block) : (s.updBlock b g).frozen = s.frozen := rfl
@[simp] theorem State.updBlock_cinchAddr (s : State) (b : Nat) (g : Block → Block) : (s.updBlock b g).cinchAddr = s.cinchAddr := rfl
@[simp] theorem State.updBlock_jtagIr (s : State) (b : Nat) (g : Block → Block) : (s.updBlock b g).jtagIr = s.jtagIr := rfl
@[simp] theorem State.updBlock_devTime (s : State) (b : Nat) (g : Block → Block) : (s.updBlock b g).devTime = s.devTime := rfl
@[simp] theorem State.updBlock_mhz (s : State) (b : Nat) (g : Block → Block) : (s.updBlock b g).mhz = s.mhz := rfl
@[simp] theorem State.updBlock_clkPart (s : State) (b : Nat) (g : Block → Block) : (s.updBlock b g).clkPart = s.clkPart := rfl
@[simp] theorem State.updBlock_pers (s : State) (b : Nat) (g : Block → Block) : (s.updBlock b g).pers = s.pers := rfl
@[simp] theorem State.updBlock_sec (s : State) (b : Nat) (g : Block → Block) : (s.updBlock b g).sec = s.sec := rfl
@[simp] theorem State.updBlock_ports (s : State) (b : Nat) (g : Block → Block) : (s.updBlock b g).ports = s.ports := rfl
@[simp] theorem State.updBlock_mem (s : State) (b : Nat) (g : Block → Block) : (s.updBlock b g).mem = s.mem := rfl
@[simp] theorem State.updBlock_poison (s : State) (b : Nat) (g : Block → Block) : (s.updBlock b g).poison = s.poison := rfl
@[simp] theorem State.updBlock_resident (s : State) (b : Nat) (g : Block → Block) : (s.updBlock b g).resident = s.resident := rfl
@[simp] theorem State.updBlock_heat (s : State) (b : Nat) (g : Block → Block) : (s.updBlock b g).heat = s.heat := rfl
@[simp] theorem State.updBlock_promotions (s : State) (b : Nat) (g : Block → Block) : (s.updBlock b g).promotions = s.promotions := rfl
@[simp] theorem State.updBlock_pageBits (s : State) (b : Nat) (g : Block → Block) : (s.updBlock b g).pageBits = s.pageBits := rfl
@[simp] theorem State.updBlock_zone (s : State) (b : Nat) (g : Block → Block) : (s.updBlock b g).zone = s.zone := rfl
@[simp] theorem State.updBlock_mtus (s : State) (b : Nat) (g : Block → Block) : (s.updBlock b g).mtus = s.mtus := rfl
@[simp] theorem State.updBlock_codeOld (s : State) (b : Nat) (g : Block → Block) : (s.updBlock b g).codeOld = s.codeOld := rfl
@[simp] theorem State.updBlock_owners (s : State) (b : Nat) (g : Block → Block) : (s.updBlock b g).owners = s.owners := rfl
@[simp] theorem State.updBlock_l2 (s : State) (b : Nat) (g : Block → Block) : (s.updBlock b g).l2 = s.l2 := rfl
@[simp] theorem State.updBlock_mvc (s : State) (b : Nat) (g : Block → Block) : (s.updBlock b g).mvc = s.mvc := rfl
@[simp] theorem State.updBlock_blooms (s : State) (b : Nat) (g : Block → Block) : (s.updBlock b g).blooms = s.blooms := rfl
@[simp] theorem State.updBlock_rowSlots (s : State) (b : Nat) (g : Block → Block) : (s.updBlock b g).rowSlots = s.rowSlots := rfl
@[simp] theorem State.updBlock_rowPress (s : State) (b : Nat) (g : Block → Block) : (s.updBlock b g).rowPress = s.rowPress := rfl
@[simp] theorem State.updBlock_cores (s : State) (b : Nat) (g : Block → Block) : (s.updBlock b g).cores = s.cores := rfl
@[simp] theorem State.updBlock_blocks (s : State) (b : Nat) (g : Block → Block) : (s.updBlock b g).blocks = s.blocks.map fun x => if x.bid == b then g x else x := rfl
@[simp] theorem State.updBlock_tasks (s : State) (b : Nat) (g : Block → Block) : (s.updBlock b g).tasks = s.tasks := rfl
@[simp] theorem State.updBlock_ops (s : State) (b : Nat) (g : Block → Block) : (s.updBlock b g).ops = s.ops := rfl
@[simp] theorem State.updBlock_nextId (s : State) (b : Nat) (g : Block → Block) : (s.updBlock b g).nextId = s.nextId := rfl
@[simp] theorem State.updBlock_eligible (s : State) (b : Nat) (g : Block → Block) : (s.updBlock b g).eligible = s.eligible := rfl
@[simp] theorem State.updBlock_pool (s : State) (b : Nat) (g : Block → Block) : (s.updBlock b g).pool = s.pool := rfl
@[simp] theorem State.updBlock_held (s : State) (b : Nat) (g : Block → Block) : (s.updBlock b g).held = s.held := rfl
@[simp] theorem State.updBlock_retry (s : State) (b : Nat) (g : Block → Block) : (s.updBlock b g).retry = s.retry := rfl
@[simp] theorem State.updBlock_heldDue (s : State) (b : Nat) (g : Block → Block) : (s.updBlock b g).heldDue = s.heldDue := rfl
@[simp] theorem State.updBlock_reserve (s : State) (b : Nat) (g : Block → Block) : (s.updBlock b g).reserve = s.reserve := rfl
@[simp] theorem State.updBlock_contexts (s : State) (b : Nat) (g : Block → Block) : (s.updBlock b g).contexts = s.contexts := rfl
@[simp] theorem State.updBlock_pages (s : State) (b : Nat) (g : Block → Block) : (s.updBlock b g).pages = s.pages := rfl
@[simp] theorem State.updBlock_subs (s : State) (b : Nat) (g : Block → Block) : (s.updBlock b g).subs = s.subs := rfl
@[simp] theorem State.updBlock_qsb (s : State) (b : Nat) (g : Block → Block) : (s.updBlock b g).qsb = s.qsb := rfl
@[simp] theorem State.updBlock_queues (s : State) (b : Nat) (g : Block → Block) : (s.updBlock b g).queues = s.queues := rfl
@[simp] theorem State.updBlock_services (s : State) (b : Nat) (g : Block → Block) : (s.updBlock b g).services = s.services := rfl
@[simp] theorem State.updBlock_requests (s : State) (b : Nat) (g : Block → Block) : (s.updBlock b g).requests = s.requests := rfl
@[simp] theorem State.updBlock_qcores (s : State) (b : Nat) (g : Block → Block) : (s.updBlock b g).qcores = s.qcores := rfl
@[simp] theorem State.updBlock_scores (s : State) (b : Nat) (g : Block → Block) : (s.updBlock b g).scores = s.scores := rfl
@[simp] theorem State.updBlock_inval (s : State) (b : Nat) (g : Block → Block) : (s.updBlock b g).inval = s.inval := rfl
@[simp] theorem State.updBlock_invalWait (s : State) (b : Nat) (g : Block → Block) : (s.updBlock b g).invalWait = s.invalWait := rfl
@[simp] theorem State.updBlock_latigo (s : State) (b : Nat) (g : Block → Block) : (s.updBlock b g).latigo = s.latigo := rfl
@[simp] theorem State.updBlock_leases (s : State) (b : Nat) (g : Block → Block) : (s.updBlock b g).leases = s.leases := rfl
@[simp] theorem State.updBlock_rings (s : State) (b : Nat) (g : Block → Block) : (s.updBlock b g).rings = s.rings := rfl
@[simp] theorem State.updBlock_incoming (s : State) (b : Nat) (g : Block → Block) : (s.updBlock b g).incoming = s.incoming := rfl
@[simp] theorem State.updBlock_chunks (s : State) (b : Nat) (g : Block → Block) : (s.updBlock b g).chunks = s.chunks := rfl
@[simp] theorem State.updBlock_peerStores (s : State) (b : Nat) (g : Block → Block) : (s.updBlock b g).peerStores = s.peerStores := rfl
@[simp] theorem State.updBlock_ck (s : State) (b : Nat) (g : Block → Block) : (s.updBlock b g).ck = s.ck := rfl
@[simp] theorem State.updBlock_safeTier (s : State) (b : Nat) (g : Block → Block) : (s.updBlock b g).safeTier = s.safeTier := rfl
@[simp] theorem State.updBlock_records (s : State) (b : Nat) (g : Block → Block) : (s.updBlock b g).records = s.records := rfl
@[simp] theorem State.updBlock_profQueue (s : State) (b : Nat) (g : Block → Block) : (s.updBlock b g).profQueue = s.profQueue := rfl
@[simp] theorem State.updBlock_outbox (s : State) (b : Nat) (g : Block → Block) : (s.updBlock b g).outbox = s.outbox := rfl

/-! ### `State.updCrew` -/

@[simp] theorem State.updCrew_turns (s : State) (b c : Nat) (g : Crew → Crew) : (s.updCrew b c g).turns = s.turns := rfl
@[simp] theorem State.updCrew_cur (s : State) (b c : Nat) (g : Crew → Crew) : (s.updCrew b c g).cur = s.cur := rfl
@[simp] theorem State.updCrew_free (s : State) (b c : Nat) (g : Crew → Crew) : (s.updCrew b c g).free = s.free := rfl
@[simp] theorem State.updCrew_boot (s : State) (b c : Nat) (g : Crew → Crew) : (s.updCrew b c g).boot = s.boot := rfl
@[simp] theorem State.updCrew_frozen (s : State) (b c : Nat) (g : Crew → Crew) : (s.updCrew b c g).frozen = s.frozen := rfl
@[simp] theorem State.updCrew_cinchAddr (s : State) (b c : Nat) (g : Crew → Crew) : (s.updCrew b c g).cinchAddr = s.cinchAddr := rfl
@[simp] theorem State.updCrew_jtagIr (s : State) (b c : Nat) (g : Crew → Crew) : (s.updCrew b c g).jtagIr = s.jtagIr := rfl
@[simp] theorem State.updCrew_devTime (s : State) (b c : Nat) (g : Crew → Crew) : (s.updCrew b c g).devTime = s.devTime := rfl
@[simp] theorem State.updCrew_mhz (s : State) (b c : Nat) (g : Crew → Crew) : (s.updCrew b c g).mhz = s.mhz := rfl
@[simp] theorem State.updCrew_clkPart (s : State) (b c : Nat) (g : Crew → Crew) : (s.updCrew b c g).clkPart = s.clkPart := rfl
@[simp] theorem State.updCrew_pers (s : State) (b c : Nat) (g : Crew → Crew) : (s.updCrew b c g).pers = s.pers := rfl
@[simp] theorem State.updCrew_sec (s : State) (b c : Nat) (g : Crew → Crew) : (s.updCrew b c g).sec = s.sec := rfl
@[simp] theorem State.updCrew_ports (s : State) (b c : Nat) (g : Crew → Crew) : (s.updCrew b c g).ports = s.ports := rfl
@[simp] theorem State.updCrew_mem (s : State) (b c : Nat) (g : Crew → Crew) : (s.updCrew b c g).mem = s.mem := rfl
@[simp] theorem State.updCrew_poison (s : State) (b c : Nat) (g : Crew → Crew) : (s.updCrew b c g).poison = s.poison := rfl
@[simp] theorem State.updCrew_resident (s : State) (b c : Nat) (g : Crew → Crew) : (s.updCrew b c g).resident = s.resident := rfl
@[simp] theorem State.updCrew_heat (s : State) (b c : Nat) (g : Crew → Crew) : (s.updCrew b c g).heat = s.heat := rfl
@[simp] theorem State.updCrew_promotions (s : State) (b c : Nat) (g : Crew → Crew) : (s.updCrew b c g).promotions = s.promotions := rfl
@[simp] theorem State.updCrew_pageBits (s : State) (b c : Nat) (g : Crew → Crew) : (s.updCrew b c g).pageBits = s.pageBits := rfl
@[simp] theorem State.updCrew_zone (s : State) (b c : Nat) (g : Crew → Crew) : (s.updCrew b c g).zone = s.zone := rfl
@[simp] theorem State.updCrew_mtus (s : State) (b c : Nat) (g : Crew → Crew) : (s.updCrew b c g).mtus = s.mtus := rfl
@[simp] theorem State.updCrew_codeOld (s : State) (b c : Nat) (g : Crew → Crew) : (s.updCrew b c g).codeOld = s.codeOld := rfl
@[simp] theorem State.updCrew_owners (s : State) (b c : Nat) (g : Crew → Crew) : (s.updCrew b c g).owners = s.owners := rfl
@[simp] theorem State.updCrew_l2 (s : State) (b c : Nat) (g : Crew → Crew) : (s.updCrew b c g).l2 = s.l2 := rfl
@[simp] theorem State.updCrew_mvc (s : State) (b c : Nat) (g : Crew → Crew) : (s.updCrew b c g).mvc = s.mvc := rfl
@[simp] theorem State.updCrew_blooms (s : State) (b c : Nat) (g : Crew → Crew) : (s.updCrew b c g).blooms = s.blooms := rfl
@[simp] theorem State.updCrew_rowSlots (s : State) (b c : Nat) (g : Crew → Crew) : (s.updCrew b c g).rowSlots = s.rowSlots := rfl
@[simp] theorem State.updCrew_rowPress (s : State) (b c : Nat) (g : Crew → Crew) : (s.updCrew b c g).rowPress = s.rowPress := rfl
@[simp] theorem State.updCrew_cores (s : State) (b c : Nat) (g : Crew → Crew) : (s.updCrew b c g).cores = s.cores := rfl
@[simp] theorem State.updCrew_tasks (s : State) (b c : Nat) (g : Crew → Crew) : (s.updCrew b c g).tasks = s.tasks := rfl
@[simp] theorem State.updCrew_ops (s : State) (b c : Nat) (g : Crew → Crew) : (s.updCrew b c g).ops = s.ops := rfl
@[simp] theorem State.updCrew_nextId (s : State) (b c : Nat) (g : Crew → Crew) : (s.updCrew b c g).nextId = s.nextId := rfl
@[simp] theorem State.updCrew_eligible (s : State) (b c : Nat) (g : Crew → Crew) : (s.updCrew b c g).eligible = s.eligible := rfl
@[simp] theorem State.updCrew_pool (s : State) (b c : Nat) (g : Crew → Crew) : (s.updCrew b c g).pool = s.pool := rfl
@[simp] theorem State.updCrew_held (s : State) (b c : Nat) (g : Crew → Crew) : (s.updCrew b c g).held = s.held := rfl
@[simp] theorem State.updCrew_retry (s : State) (b c : Nat) (g : Crew → Crew) : (s.updCrew b c g).retry = s.retry := rfl
@[simp] theorem State.updCrew_heldDue (s : State) (b c : Nat) (g : Crew → Crew) : (s.updCrew b c g).heldDue = s.heldDue := rfl
@[simp] theorem State.updCrew_reserve (s : State) (b c : Nat) (g : Crew → Crew) : (s.updCrew b c g).reserve = s.reserve := rfl
@[simp] theorem State.updCrew_contexts (s : State) (b c : Nat) (g : Crew → Crew) : (s.updCrew b c g).contexts = s.contexts := rfl
@[simp] theorem State.updCrew_pages (s : State) (b c : Nat) (g : Crew → Crew) : (s.updCrew b c g).pages = s.pages := rfl
@[simp] theorem State.updCrew_subs (s : State) (b c : Nat) (g : Crew → Crew) : (s.updCrew b c g).subs = s.subs := rfl
@[simp] theorem State.updCrew_qsb (s : State) (b c : Nat) (g : Crew → Crew) : (s.updCrew b c g).qsb = s.qsb := rfl
@[simp] theorem State.updCrew_queues (s : State) (b c : Nat) (g : Crew → Crew) : (s.updCrew b c g).queues = s.queues := rfl
@[simp] theorem State.updCrew_services (s : State) (b c : Nat) (g : Crew → Crew) : (s.updCrew b c g).services = s.services := rfl
@[simp] theorem State.updCrew_requests (s : State) (b c : Nat) (g : Crew → Crew) : (s.updCrew b c g).requests = s.requests := rfl
@[simp] theorem State.updCrew_qcores (s : State) (b c : Nat) (g : Crew → Crew) : (s.updCrew b c g).qcores = s.qcores := rfl
@[simp] theorem State.updCrew_scores (s : State) (b c : Nat) (g : Crew → Crew) : (s.updCrew b c g).scores = s.scores := rfl
@[simp] theorem State.updCrew_inval (s : State) (b c : Nat) (g : Crew → Crew) : (s.updCrew b c g).inval = s.inval := rfl
@[simp] theorem State.updCrew_invalWait (s : State) (b c : Nat) (g : Crew → Crew) : (s.updCrew b c g).invalWait = s.invalWait := rfl
@[simp] theorem State.updCrew_latigo (s : State) (b c : Nat) (g : Crew → Crew) : (s.updCrew b c g).latigo = s.latigo := rfl
@[simp] theorem State.updCrew_leases (s : State) (b c : Nat) (g : Crew → Crew) : (s.updCrew b c g).leases = s.leases := rfl
@[simp] theorem State.updCrew_rings (s : State) (b c : Nat) (g : Crew → Crew) : (s.updCrew b c g).rings = s.rings := rfl
@[simp] theorem State.updCrew_incoming (s : State) (b c : Nat) (g : Crew → Crew) : (s.updCrew b c g).incoming = s.incoming := rfl
@[simp] theorem State.updCrew_chunks (s : State) (b c : Nat) (g : Crew → Crew) : (s.updCrew b c g).chunks = s.chunks := rfl
@[simp] theorem State.updCrew_peerStores (s : State) (b c : Nat) (g : Crew → Crew) : (s.updCrew b c g).peerStores = s.peerStores := rfl
@[simp] theorem State.updCrew_ck (s : State) (b c : Nat) (g : Crew → Crew) : (s.updCrew b c g).ck = s.ck := rfl
@[simp] theorem State.updCrew_safeTier (s : State) (b c : Nat) (g : Crew → Crew) : (s.updCrew b c g).safeTier = s.safeTier := rfl
@[simp] theorem State.updCrew_records (s : State) (b c : Nat) (g : Crew → Crew) : (s.updCrew b c g).records = s.records := rfl
@[simp] theorem State.updCrew_profQueue (s : State) (b c : Nat) (g : Crew → Crew) : (s.updCrew b c g).profQueue = s.profQueue := rfl
@[simp] theorem State.updCrew_outbox (s : State) (b c : Nat) (g : Crew → Crew) : (s.updCrew b c g).outbox = s.outbox := rfl

/-! ### `State.updCur` -/

@[simp] theorem State.updCur_turns (s : State) (g : Crew → Crew) : (s.updCur g).turns = s.turns := rfl
@[simp] theorem State.updCur_cur (s : State) (g : Crew → Crew) : (s.updCur g).cur = s.cur := rfl
@[simp] theorem State.updCur_free (s : State) (g : Crew → Crew) : (s.updCur g).free = s.free := rfl
@[simp] theorem State.updCur_boot (s : State) (g : Crew → Crew) : (s.updCur g).boot = s.boot := rfl
@[simp] theorem State.updCur_frozen (s : State) (g : Crew → Crew) : (s.updCur g).frozen = s.frozen := rfl
@[simp] theorem State.updCur_cinchAddr (s : State) (g : Crew → Crew) : (s.updCur g).cinchAddr = s.cinchAddr := rfl
@[simp] theorem State.updCur_jtagIr (s : State) (g : Crew → Crew) : (s.updCur g).jtagIr = s.jtagIr := rfl
@[simp] theorem State.updCur_devTime (s : State) (g : Crew → Crew) : (s.updCur g).devTime = s.devTime := rfl
@[simp] theorem State.updCur_mhz (s : State) (g : Crew → Crew) : (s.updCur g).mhz = s.mhz := rfl
@[simp] theorem State.updCur_clkPart (s : State) (g : Crew → Crew) : (s.updCur g).clkPart = s.clkPart := rfl
@[simp] theorem State.updCur_pers (s : State) (g : Crew → Crew) : (s.updCur g).pers = s.pers := rfl
@[simp] theorem State.updCur_sec (s : State) (g : Crew → Crew) : (s.updCur g).sec = s.sec := rfl
@[simp] theorem State.updCur_ports (s : State) (g : Crew → Crew) : (s.updCur g).ports = s.ports := rfl
@[simp] theorem State.updCur_mem (s : State) (g : Crew → Crew) : (s.updCur g).mem = s.mem := rfl
@[simp] theorem State.updCur_poison (s : State) (g : Crew → Crew) : (s.updCur g).poison = s.poison := rfl
@[simp] theorem State.updCur_resident (s : State) (g : Crew → Crew) : (s.updCur g).resident = s.resident := rfl
@[simp] theorem State.updCur_heat (s : State) (g : Crew → Crew) : (s.updCur g).heat = s.heat := rfl
@[simp] theorem State.updCur_promotions (s : State) (g : Crew → Crew) : (s.updCur g).promotions = s.promotions := rfl
@[simp] theorem State.updCur_pageBits (s : State) (g : Crew → Crew) : (s.updCur g).pageBits = s.pageBits := rfl
@[simp] theorem State.updCur_zone (s : State) (g : Crew → Crew) : (s.updCur g).zone = s.zone := rfl
@[simp] theorem State.updCur_mtus (s : State) (g : Crew → Crew) : (s.updCur g).mtus = s.mtus := rfl
@[simp] theorem State.updCur_codeOld (s : State) (g : Crew → Crew) : (s.updCur g).codeOld = s.codeOld := rfl
@[simp] theorem State.updCur_owners (s : State) (g : Crew → Crew) : (s.updCur g).owners = s.owners := rfl
@[simp] theorem State.updCur_l2 (s : State) (g : Crew → Crew) : (s.updCur g).l2 = s.l2 := rfl
@[simp] theorem State.updCur_mvc (s : State) (g : Crew → Crew) : (s.updCur g).mvc = s.mvc := rfl
@[simp] theorem State.updCur_blooms (s : State) (g : Crew → Crew) : (s.updCur g).blooms = s.blooms := rfl
@[simp] theorem State.updCur_rowSlots (s : State) (g : Crew → Crew) : (s.updCur g).rowSlots = s.rowSlots := rfl
@[simp] theorem State.updCur_rowPress (s : State) (g : Crew → Crew) : (s.updCur g).rowPress = s.rowPress := rfl
@[simp] theorem State.updCur_cores (s : State) (g : Crew → Crew) : (s.updCur g).cores = s.cores := rfl
@[simp] theorem State.updCur_tasks (s : State) (g : Crew → Crew) : (s.updCur g).tasks = s.tasks := rfl
@[simp] theorem State.updCur_ops (s : State) (g : Crew → Crew) : (s.updCur g).ops = s.ops := rfl
@[simp] theorem State.updCur_nextId (s : State) (g : Crew → Crew) : (s.updCur g).nextId = s.nextId := rfl
@[simp] theorem State.updCur_eligible (s : State) (g : Crew → Crew) : (s.updCur g).eligible = s.eligible := rfl
@[simp] theorem State.updCur_pool (s : State) (g : Crew → Crew) : (s.updCur g).pool = s.pool := rfl
@[simp] theorem State.updCur_held (s : State) (g : Crew → Crew) : (s.updCur g).held = s.held := rfl
@[simp] theorem State.updCur_retry (s : State) (g : Crew → Crew) : (s.updCur g).retry = s.retry := rfl
@[simp] theorem State.updCur_heldDue (s : State) (g : Crew → Crew) : (s.updCur g).heldDue = s.heldDue := rfl
@[simp] theorem State.updCur_reserve (s : State) (g : Crew → Crew) : (s.updCur g).reserve = s.reserve := rfl
@[simp] theorem State.updCur_contexts (s : State) (g : Crew → Crew) : (s.updCur g).contexts = s.contexts := rfl
@[simp] theorem State.updCur_pages (s : State) (g : Crew → Crew) : (s.updCur g).pages = s.pages := rfl
@[simp] theorem State.updCur_subs (s : State) (g : Crew → Crew) : (s.updCur g).subs = s.subs := rfl
@[simp] theorem State.updCur_qsb (s : State) (g : Crew → Crew) : (s.updCur g).qsb = s.qsb := rfl
@[simp] theorem State.updCur_queues (s : State) (g : Crew → Crew) : (s.updCur g).queues = s.queues := rfl
@[simp] theorem State.updCur_services (s : State) (g : Crew → Crew) : (s.updCur g).services = s.services := rfl
@[simp] theorem State.updCur_requests (s : State) (g : Crew → Crew) : (s.updCur g).requests = s.requests := rfl
@[simp] theorem State.updCur_qcores (s : State) (g : Crew → Crew) : (s.updCur g).qcores = s.qcores := rfl
@[simp] theorem State.updCur_scores (s : State) (g : Crew → Crew) : (s.updCur g).scores = s.scores := rfl
@[simp] theorem State.updCur_inval (s : State) (g : Crew → Crew) : (s.updCur g).inval = s.inval := rfl
@[simp] theorem State.updCur_invalWait (s : State) (g : Crew → Crew) : (s.updCur g).invalWait = s.invalWait := rfl
@[simp] theorem State.updCur_latigo (s : State) (g : Crew → Crew) : (s.updCur g).latigo = s.latigo := rfl
@[simp] theorem State.updCur_leases (s : State) (g : Crew → Crew) : (s.updCur g).leases = s.leases := rfl
@[simp] theorem State.updCur_rings (s : State) (g : Crew → Crew) : (s.updCur g).rings = s.rings := rfl
@[simp] theorem State.updCur_incoming (s : State) (g : Crew → Crew) : (s.updCur g).incoming = s.incoming := rfl
@[simp] theorem State.updCur_chunks (s : State) (g : Crew → Crew) : (s.updCur g).chunks = s.chunks := rfl
@[simp] theorem State.updCur_peerStores (s : State) (g : Crew → Crew) : (s.updCur g).peerStores = s.peerStores := rfl
@[simp] theorem State.updCur_ck (s : State) (g : Crew → Crew) : (s.updCur g).ck = s.ck := rfl
@[simp] theorem State.updCur_safeTier (s : State) (g : Crew → Crew) : (s.updCur g).safeTier = s.safeTier := rfl
@[simp] theorem State.updCur_records (s : State) (g : Crew → Crew) : (s.updCur g).records = s.records := rfl
@[simp] theorem State.updCur_profQueue (s : State) (g : Crew → Crew) : (s.updCur g).profQueue = s.profQueue := rfl
@[simp] theorem State.updCur_outbox (s : State) (g : Crew → Crew) : (s.updCur g).outbox = s.outbox := rfl

/-! ### `State.updTask` -/

@[simp] theorem State.updTask_turns (s : State) (u : Nat) (g : Task → Task) : (s.updTask u g).turns = s.turns := rfl
@[simp] theorem State.updTask_cur (s : State) (u : Nat) (g : Task → Task) : (s.updTask u g).cur = s.cur := rfl
@[simp] theorem State.updTask_free (s : State) (u : Nat) (g : Task → Task) : (s.updTask u g).free = s.free := rfl
@[simp] theorem State.updTask_boot (s : State) (u : Nat) (g : Task → Task) : (s.updTask u g).boot = s.boot := rfl
@[simp] theorem State.updTask_frozen (s : State) (u : Nat) (g : Task → Task) : (s.updTask u g).frozen = s.frozen := rfl
@[simp] theorem State.updTask_cinchAddr (s : State) (u : Nat) (g : Task → Task) : (s.updTask u g).cinchAddr = s.cinchAddr := rfl
@[simp] theorem State.updTask_jtagIr (s : State) (u : Nat) (g : Task → Task) : (s.updTask u g).jtagIr = s.jtagIr := rfl
@[simp] theorem State.updTask_devTime (s : State) (u : Nat) (g : Task → Task) : (s.updTask u g).devTime = s.devTime := rfl
@[simp] theorem State.updTask_mhz (s : State) (u : Nat) (g : Task → Task) : (s.updTask u g).mhz = s.mhz := rfl
@[simp] theorem State.updTask_clkPart (s : State) (u : Nat) (g : Task → Task) : (s.updTask u g).clkPart = s.clkPart := rfl
@[simp] theorem State.updTask_pers (s : State) (u : Nat) (g : Task → Task) : (s.updTask u g).pers = s.pers := rfl
@[simp] theorem State.updTask_sec (s : State) (u : Nat) (g : Task → Task) : (s.updTask u g).sec = s.sec := rfl
@[simp] theorem State.updTask_ports (s : State) (u : Nat) (g : Task → Task) : (s.updTask u g).ports = s.ports := rfl
@[simp] theorem State.updTask_mem (s : State) (u : Nat) (g : Task → Task) : (s.updTask u g).mem = s.mem := rfl
@[simp] theorem State.updTask_poison (s : State) (u : Nat) (g : Task → Task) : (s.updTask u g).poison = s.poison := rfl
@[simp] theorem State.updTask_resident (s : State) (u : Nat) (g : Task → Task) : (s.updTask u g).resident = s.resident := rfl
@[simp] theorem State.updTask_heat (s : State) (u : Nat) (g : Task → Task) : (s.updTask u g).heat = s.heat := rfl
@[simp] theorem State.updTask_promotions (s : State) (u : Nat) (g : Task → Task) : (s.updTask u g).promotions = s.promotions := rfl
@[simp] theorem State.updTask_pageBits (s : State) (u : Nat) (g : Task → Task) : (s.updTask u g).pageBits = s.pageBits := rfl
@[simp] theorem State.updTask_zone (s : State) (u : Nat) (g : Task → Task) : (s.updTask u g).zone = s.zone := rfl
@[simp] theorem State.updTask_mtus (s : State) (u : Nat) (g : Task → Task) : (s.updTask u g).mtus = s.mtus := rfl
@[simp] theorem State.updTask_codeOld (s : State) (u : Nat) (g : Task → Task) : (s.updTask u g).codeOld = s.codeOld := rfl
@[simp] theorem State.updTask_owners (s : State) (u : Nat) (g : Task → Task) : (s.updTask u g).owners = s.owners := rfl
@[simp] theorem State.updTask_l2 (s : State) (u : Nat) (g : Task → Task) : (s.updTask u g).l2 = s.l2 := rfl
@[simp] theorem State.updTask_mvc (s : State) (u : Nat) (g : Task → Task) : (s.updTask u g).mvc = s.mvc := rfl
@[simp] theorem State.updTask_blooms (s : State) (u : Nat) (g : Task → Task) : (s.updTask u g).blooms = s.blooms := rfl
@[simp] theorem State.updTask_rowSlots (s : State) (u : Nat) (g : Task → Task) : (s.updTask u g).rowSlots = s.rowSlots := rfl
@[simp] theorem State.updTask_rowPress (s : State) (u : Nat) (g : Task → Task) : (s.updTask u g).rowPress = s.rowPress := rfl
@[simp] theorem State.updTask_cores (s : State) (u : Nat) (g : Task → Task) : (s.updTask u g).cores = s.cores := rfl
@[simp] theorem State.updTask_blocks (s : State) (u : Nat) (g : Task → Task) : (s.updTask u g).blocks = s.blocks := rfl
@[simp] theorem State.updTask_tasks (s : State) (u : Nat) (g : Task → Task) : (s.updTask u g).tasks = s.tasks.map fun x => if x.uid == u then g x else x := rfl
@[simp] theorem State.updTask_ops (s : State) (u : Nat) (g : Task → Task) : (s.updTask u g).ops = s.ops := rfl
@[simp] theorem State.updTask_nextId (s : State) (u : Nat) (g : Task → Task) : (s.updTask u g).nextId = s.nextId := rfl
@[simp] theorem State.updTask_eligible (s : State) (u : Nat) (g : Task → Task) : (s.updTask u g).eligible = s.eligible := rfl
@[simp] theorem State.updTask_pool (s : State) (u : Nat) (g : Task → Task) : (s.updTask u g).pool = s.pool := rfl
@[simp] theorem State.updTask_held (s : State) (u : Nat) (g : Task → Task) : (s.updTask u g).held = s.held := rfl
@[simp] theorem State.updTask_retry (s : State) (u : Nat) (g : Task → Task) : (s.updTask u g).retry = s.retry := rfl
@[simp] theorem State.updTask_heldDue (s : State) (u : Nat) (g : Task → Task) : (s.updTask u g).heldDue = s.heldDue := rfl
@[simp] theorem State.updTask_reserve (s : State) (u : Nat) (g : Task → Task) : (s.updTask u g).reserve = s.reserve := rfl
@[simp] theorem State.updTask_contexts (s : State) (u : Nat) (g : Task → Task) : (s.updTask u g).contexts = s.contexts := rfl
@[simp] theorem State.updTask_pages (s : State) (u : Nat) (g : Task → Task) : (s.updTask u g).pages = s.pages := rfl
@[simp] theorem State.updTask_subs (s : State) (u : Nat) (g : Task → Task) : (s.updTask u g).subs = s.subs := rfl
@[simp] theorem State.updTask_qsb (s : State) (u : Nat) (g : Task → Task) : (s.updTask u g).qsb = s.qsb := rfl
@[simp] theorem State.updTask_queues (s : State) (u : Nat) (g : Task → Task) : (s.updTask u g).queues = s.queues := rfl
@[simp] theorem State.updTask_services (s : State) (u : Nat) (g : Task → Task) : (s.updTask u g).services = s.services := rfl
@[simp] theorem State.updTask_requests (s : State) (u : Nat) (g : Task → Task) : (s.updTask u g).requests = s.requests := rfl
@[simp] theorem State.updTask_qcores (s : State) (u : Nat) (g : Task → Task) : (s.updTask u g).qcores = s.qcores := rfl
@[simp] theorem State.updTask_scores (s : State) (u : Nat) (g : Task → Task) : (s.updTask u g).scores = s.scores := rfl
@[simp] theorem State.updTask_inval (s : State) (u : Nat) (g : Task → Task) : (s.updTask u g).inval = s.inval := rfl
@[simp] theorem State.updTask_invalWait (s : State) (u : Nat) (g : Task → Task) : (s.updTask u g).invalWait = s.invalWait := rfl
@[simp] theorem State.updTask_latigo (s : State) (u : Nat) (g : Task → Task) : (s.updTask u g).latigo = s.latigo := rfl
@[simp] theorem State.updTask_leases (s : State) (u : Nat) (g : Task → Task) : (s.updTask u g).leases = s.leases := rfl
@[simp] theorem State.updTask_rings (s : State) (u : Nat) (g : Task → Task) : (s.updTask u g).rings = s.rings := rfl
@[simp] theorem State.updTask_incoming (s : State) (u : Nat) (g : Task → Task) : (s.updTask u g).incoming = s.incoming := rfl
@[simp] theorem State.updTask_chunks (s : State) (u : Nat) (g : Task → Task) : (s.updTask u g).chunks = s.chunks := rfl
@[simp] theorem State.updTask_peerStores (s : State) (u : Nat) (g : Task → Task) : (s.updTask u g).peerStores = s.peerStores := rfl
@[simp] theorem State.updTask_ck (s : State) (u : Nat) (g : Task → Task) : (s.updTask u g).ck = s.ck := rfl
@[simp] theorem State.updTask_safeTier (s : State) (u : Nat) (g : Task → Task) : (s.updTask u g).safeTier = s.safeTier := rfl
@[simp] theorem State.updTask_records (s : State) (u : Nat) (g : Task → Task) : (s.updTask u g).records = s.records := rfl
@[simp] theorem State.updTask_profQueue (s : State) (u : Nat) (g : Task → Task) : (s.updTask u g).profQueue = s.profQueue := rfl
@[simp] theorem State.updTask_outbox (s : State) (u : Nat) (g : Task → Task) : (s.updTask u g).outbox = s.outbox := rfl

/-! ### `State.updOp` -/

@[simp] theorem State.updOp_turns (s : State) (o : Nat) (g : EngineOp → EngineOp) : (s.updOp o g).turns = s.turns := rfl
@[simp] theorem State.updOp_cur (s : State) (o : Nat) (g : EngineOp → EngineOp) : (s.updOp o g).cur = s.cur := rfl
@[simp] theorem State.updOp_free (s : State) (o : Nat) (g : EngineOp → EngineOp) : (s.updOp o g).free = s.free := rfl
@[simp] theorem State.updOp_boot (s : State) (o : Nat) (g : EngineOp → EngineOp) : (s.updOp o g).boot = s.boot := rfl
@[simp] theorem State.updOp_frozen (s : State) (o : Nat) (g : EngineOp → EngineOp) : (s.updOp o g).frozen = s.frozen := rfl
@[simp] theorem State.updOp_cinchAddr (s : State) (o : Nat) (g : EngineOp → EngineOp) : (s.updOp o g).cinchAddr = s.cinchAddr := rfl
@[simp] theorem State.updOp_jtagIr (s : State) (o : Nat) (g : EngineOp → EngineOp) : (s.updOp o g).jtagIr = s.jtagIr := rfl
@[simp] theorem State.updOp_devTime (s : State) (o : Nat) (g : EngineOp → EngineOp) : (s.updOp o g).devTime = s.devTime := rfl
@[simp] theorem State.updOp_mhz (s : State) (o : Nat) (g : EngineOp → EngineOp) : (s.updOp o g).mhz = s.mhz := rfl
@[simp] theorem State.updOp_clkPart (s : State) (o : Nat) (g : EngineOp → EngineOp) : (s.updOp o g).clkPart = s.clkPart := rfl
@[simp] theorem State.updOp_pers (s : State) (o : Nat) (g : EngineOp → EngineOp) : (s.updOp o g).pers = s.pers := rfl
@[simp] theorem State.updOp_sec (s : State) (o : Nat) (g : EngineOp → EngineOp) : (s.updOp o g).sec = s.sec := rfl
@[simp] theorem State.updOp_ports (s : State) (o : Nat) (g : EngineOp → EngineOp) : (s.updOp o g).ports = s.ports := rfl
@[simp] theorem State.updOp_mem (s : State) (o : Nat) (g : EngineOp → EngineOp) : (s.updOp o g).mem = s.mem := rfl
@[simp] theorem State.updOp_poison (s : State) (o : Nat) (g : EngineOp → EngineOp) : (s.updOp o g).poison = s.poison := rfl
@[simp] theorem State.updOp_resident (s : State) (o : Nat) (g : EngineOp → EngineOp) : (s.updOp o g).resident = s.resident := rfl
@[simp] theorem State.updOp_heat (s : State) (o : Nat) (g : EngineOp → EngineOp) : (s.updOp o g).heat = s.heat := rfl
@[simp] theorem State.updOp_promotions (s : State) (o : Nat) (g : EngineOp → EngineOp) : (s.updOp o g).promotions = s.promotions := rfl
@[simp] theorem State.updOp_pageBits (s : State) (o : Nat) (g : EngineOp → EngineOp) : (s.updOp o g).pageBits = s.pageBits := rfl
@[simp] theorem State.updOp_zone (s : State) (o : Nat) (g : EngineOp → EngineOp) : (s.updOp o g).zone = s.zone := rfl
@[simp] theorem State.updOp_mtus (s : State) (o : Nat) (g : EngineOp → EngineOp) : (s.updOp o g).mtus = s.mtus := rfl
@[simp] theorem State.updOp_codeOld (s : State) (o : Nat) (g : EngineOp → EngineOp) : (s.updOp o g).codeOld = s.codeOld := rfl
@[simp] theorem State.updOp_owners (s : State) (o : Nat) (g : EngineOp → EngineOp) : (s.updOp o g).owners = s.owners := rfl
@[simp] theorem State.updOp_l2 (s : State) (o : Nat) (g : EngineOp → EngineOp) : (s.updOp o g).l2 = s.l2 := rfl
@[simp] theorem State.updOp_mvc (s : State) (o : Nat) (g : EngineOp → EngineOp) : (s.updOp o g).mvc = s.mvc := rfl
@[simp] theorem State.updOp_blooms (s : State) (o : Nat) (g : EngineOp → EngineOp) : (s.updOp o g).blooms = s.blooms := rfl
@[simp] theorem State.updOp_rowSlots (s : State) (o : Nat) (g : EngineOp → EngineOp) : (s.updOp o g).rowSlots = s.rowSlots := rfl
@[simp] theorem State.updOp_rowPress (s : State) (o : Nat) (g : EngineOp → EngineOp) : (s.updOp o g).rowPress = s.rowPress := rfl
@[simp] theorem State.updOp_cores (s : State) (o : Nat) (g : EngineOp → EngineOp) : (s.updOp o g).cores = s.cores := rfl
@[simp] theorem State.updOp_blocks (s : State) (o : Nat) (g : EngineOp → EngineOp) : (s.updOp o g).blocks = s.blocks := rfl
@[simp] theorem State.updOp_tasks (s : State) (o : Nat) (g : EngineOp → EngineOp) : (s.updOp o g).tasks = s.tasks := rfl
@[simp] theorem State.updOp_ops (s : State) (o : Nat) (g : EngineOp → EngineOp) : (s.updOp o g).ops = s.ops.map fun x => if x.id == o then g x else x := rfl
@[simp] theorem State.updOp_nextId (s : State) (o : Nat) (g : EngineOp → EngineOp) : (s.updOp o g).nextId = s.nextId := rfl
@[simp] theorem State.updOp_eligible (s : State) (o : Nat) (g : EngineOp → EngineOp) : (s.updOp o g).eligible = s.eligible := rfl
@[simp] theorem State.updOp_pool (s : State) (o : Nat) (g : EngineOp → EngineOp) : (s.updOp o g).pool = s.pool := rfl
@[simp] theorem State.updOp_held (s : State) (o : Nat) (g : EngineOp → EngineOp) : (s.updOp o g).held = s.held := rfl
@[simp] theorem State.updOp_retry (s : State) (o : Nat) (g : EngineOp → EngineOp) : (s.updOp o g).retry = s.retry := rfl
@[simp] theorem State.updOp_heldDue (s : State) (o : Nat) (g : EngineOp → EngineOp) : (s.updOp o g).heldDue = s.heldDue := rfl
@[simp] theorem State.updOp_reserve (s : State) (o : Nat) (g : EngineOp → EngineOp) : (s.updOp o g).reserve = s.reserve := rfl
@[simp] theorem State.updOp_contexts (s : State) (o : Nat) (g : EngineOp → EngineOp) : (s.updOp o g).contexts = s.contexts := rfl
@[simp] theorem State.updOp_pages (s : State) (o : Nat) (g : EngineOp → EngineOp) : (s.updOp o g).pages = s.pages := rfl
@[simp] theorem State.updOp_subs (s : State) (o : Nat) (g : EngineOp → EngineOp) : (s.updOp o g).subs = s.subs := rfl
@[simp] theorem State.updOp_qsb (s : State) (o : Nat) (g : EngineOp → EngineOp) : (s.updOp o g).qsb = s.qsb := rfl
@[simp] theorem State.updOp_queues (s : State) (o : Nat) (g : EngineOp → EngineOp) : (s.updOp o g).queues = s.queues := rfl
@[simp] theorem State.updOp_services (s : State) (o : Nat) (g : EngineOp → EngineOp) : (s.updOp o g).services = s.services := rfl
@[simp] theorem State.updOp_requests (s : State) (o : Nat) (g : EngineOp → EngineOp) : (s.updOp o g).requests = s.requests := rfl
@[simp] theorem State.updOp_qcores (s : State) (o : Nat) (g : EngineOp → EngineOp) : (s.updOp o g).qcores = s.qcores := rfl
@[simp] theorem State.updOp_scores (s : State) (o : Nat) (g : EngineOp → EngineOp) : (s.updOp o g).scores = s.scores := rfl
@[simp] theorem State.updOp_inval (s : State) (o : Nat) (g : EngineOp → EngineOp) : (s.updOp o g).inval = s.inval := rfl
@[simp] theorem State.updOp_invalWait (s : State) (o : Nat) (g : EngineOp → EngineOp) : (s.updOp o g).invalWait = s.invalWait := rfl
@[simp] theorem State.updOp_latigo (s : State) (o : Nat) (g : EngineOp → EngineOp) : (s.updOp o g).latigo = s.latigo := rfl
@[simp] theorem State.updOp_leases (s : State) (o : Nat) (g : EngineOp → EngineOp) : (s.updOp o g).leases = s.leases := rfl
@[simp] theorem State.updOp_rings (s : State) (o : Nat) (g : EngineOp → EngineOp) : (s.updOp o g).rings = s.rings := rfl
@[simp] theorem State.updOp_incoming (s : State) (o : Nat) (g : EngineOp → EngineOp) : (s.updOp o g).incoming = s.incoming := rfl
@[simp] theorem State.updOp_chunks (s : State) (o : Nat) (g : EngineOp → EngineOp) : (s.updOp o g).chunks = s.chunks := rfl
@[simp] theorem State.updOp_peerStores (s : State) (o : Nat) (g : EngineOp → EngineOp) : (s.updOp o g).peerStores = s.peerStores := rfl
@[simp] theorem State.updOp_ck (s : State) (o : Nat) (g : EngineOp → EngineOp) : (s.updOp o g).ck = s.ck := rfl
@[simp] theorem State.updOp_safeTier (s : State) (o : Nat) (g : EngineOp → EngineOp) : (s.updOp o g).safeTier = s.safeTier := rfl
@[simp] theorem State.updOp_records (s : State) (o : Nat) (g : EngineOp → EngineOp) : (s.updOp o g).records = s.records := rfl
@[simp] theorem State.updOp_profQueue (s : State) (o : Nat) (g : EngineOp → EngineOp) : (s.updOp o g).profQueue = s.profQueue := rfl
@[simp] theorem State.updOp_outbox (s : State) (o : Nat) (g : EngineOp → EngineOp) : (s.updOp o g).outbox = s.outbox := rfl

/-! ### `State.updCtx` -/

@[simp] theorem State.updCtx_turns (s : State) (c : Nat) (g : Context → Context) : (s.updCtx c g).turns = s.turns := rfl
@[simp] theorem State.updCtx_cur (s : State) (c : Nat) (g : Context → Context) : (s.updCtx c g).cur = s.cur := rfl
@[simp] theorem State.updCtx_free (s : State) (c : Nat) (g : Context → Context) : (s.updCtx c g).free = s.free := rfl
@[simp] theorem State.updCtx_boot (s : State) (c : Nat) (g : Context → Context) : (s.updCtx c g).boot = s.boot := rfl
@[simp] theorem State.updCtx_frozen (s : State) (c : Nat) (g : Context → Context) : (s.updCtx c g).frozen = s.frozen := rfl
@[simp] theorem State.updCtx_cinchAddr (s : State) (c : Nat) (g : Context → Context) : (s.updCtx c g).cinchAddr = s.cinchAddr := rfl
@[simp] theorem State.updCtx_jtagIr (s : State) (c : Nat) (g : Context → Context) : (s.updCtx c g).jtagIr = s.jtagIr := rfl
@[simp] theorem State.updCtx_devTime (s : State) (c : Nat) (g : Context → Context) : (s.updCtx c g).devTime = s.devTime := rfl
@[simp] theorem State.updCtx_mhz (s : State) (c : Nat) (g : Context → Context) : (s.updCtx c g).mhz = s.mhz := rfl
@[simp] theorem State.updCtx_clkPart (s : State) (c : Nat) (g : Context → Context) : (s.updCtx c g).clkPart = s.clkPart := rfl
@[simp] theorem State.updCtx_pers (s : State) (c : Nat) (g : Context → Context) : (s.updCtx c g).pers = s.pers := rfl
@[simp] theorem State.updCtx_sec (s : State) (c : Nat) (g : Context → Context) : (s.updCtx c g).sec = s.sec := rfl
@[simp] theorem State.updCtx_ports (s : State) (c : Nat) (g : Context → Context) : (s.updCtx c g).ports = s.ports := rfl
@[simp] theorem State.updCtx_mem (s : State) (c : Nat) (g : Context → Context) : (s.updCtx c g).mem = s.mem := rfl
@[simp] theorem State.updCtx_poison (s : State) (c : Nat) (g : Context → Context) : (s.updCtx c g).poison = s.poison := rfl
@[simp] theorem State.updCtx_resident (s : State) (c : Nat) (g : Context → Context) : (s.updCtx c g).resident = s.resident := rfl
@[simp] theorem State.updCtx_heat (s : State) (c : Nat) (g : Context → Context) : (s.updCtx c g).heat = s.heat := rfl
@[simp] theorem State.updCtx_promotions (s : State) (c : Nat) (g : Context → Context) : (s.updCtx c g).promotions = s.promotions := rfl
@[simp] theorem State.updCtx_pageBits (s : State) (c : Nat) (g : Context → Context) : (s.updCtx c g).pageBits = s.pageBits := rfl
@[simp] theorem State.updCtx_zone (s : State) (c : Nat) (g : Context → Context) : (s.updCtx c g).zone = s.zone := rfl
@[simp] theorem State.updCtx_mtus (s : State) (c : Nat) (g : Context → Context) : (s.updCtx c g).mtus = s.mtus := rfl
@[simp] theorem State.updCtx_codeOld (s : State) (c : Nat) (g : Context → Context) : (s.updCtx c g).codeOld = s.codeOld := rfl
@[simp] theorem State.updCtx_owners (s : State) (c : Nat) (g : Context → Context) : (s.updCtx c g).owners = s.owners := rfl
@[simp] theorem State.updCtx_l2 (s : State) (c : Nat) (g : Context → Context) : (s.updCtx c g).l2 = s.l2 := rfl
@[simp] theorem State.updCtx_mvc (s : State) (c : Nat) (g : Context → Context) : (s.updCtx c g).mvc = s.mvc := rfl
@[simp] theorem State.updCtx_blooms (s : State) (c : Nat) (g : Context → Context) : (s.updCtx c g).blooms = s.blooms := rfl
@[simp] theorem State.updCtx_rowSlots (s : State) (c : Nat) (g : Context → Context) : (s.updCtx c g).rowSlots = s.rowSlots := rfl
@[simp] theorem State.updCtx_rowPress (s : State) (c : Nat) (g : Context → Context) : (s.updCtx c g).rowPress = s.rowPress := rfl
@[simp] theorem State.updCtx_cores (s : State) (c : Nat) (g : Context → Context) : (s.updCtx c g).cores = s.cores := rfl
@[simp] theorem State.updCtx_blocks (s : State) (c : Nat) (g : Context → Context) : (s.updCtx c g).blocks = s.blocks := rfl
@[simp] theorem State.updCtx_tasks (s : State) (c : Nat) (g : Context → Context) : (s.updCtx c g).tasks = s.tasks := rfl
@[simp] theorem State.updCtx_ops (s : State) (c : Nat) (g : Context → Context) : (s.updCtx c g).ops = s.ops := rfl
@[simp] theorem State.updCtx_nextId (s : State) (c : Nat) (g : Context → Context) : (s.updCtx c g).nextId = s.nextId := rfl
@[simp] theorem State.updCtx_eligible (s : State) (c : Nat) (g : Context → Context) : (s.updCtx c g).eligible = s.eligible := rfl
@[simp] theorem State.updCtx_pool (s : State) (c : Nat) (g : Context → Context) : (s.updCtx c g).pool = s.pool := rfl
@[simp] theorem State.updCtx_held (s : State) (c : Nat) (g : Context → Context) : (s.updCtx c g).held = s.held := rfl
@[simp] theorem State.updCtx_retry (s : State) (c : Nat) (g : Context → Context) : (s.updCtx c g).retry = s.retry := rfl
@[simp] theorem State.updCtx_heldDue (s : State) (c : Nat) (g : Context → Context) : (s.updCtx c g).heldDue = s.heldDue := rfl
@[simp] theorem State.updCtx_reserve (s : State) (c : Nat) (g : Context → Context) : (s.updCtx c g).reserve = s.reserve := rfl
@[simp] theorem State.updCtx_contexts (s : State) (c : Nat) (g : Context → Context) : (s.updCtx c g).contexts = s.contexts.modify c g := rfl
@[simp] theorem State.updCtx_pages (s : State) (c : Nat) (g : Context → Context) : (s.updCtx c g).pages = s.pages := rfl
@[simp] theorem State.updCtx_subs (s : State) (c : Nat) (g : Context → Context) : (s.updCtx c g).subs = s.subs := rfl
@[simp] theorem State.updCtx_qsb (s : State) (c : Nat) (g : Context → Context) : (s.updCtx c g).qsb = s.qsb := rfl
@[simp] theorem State.updCtx_queues (s : State) (c : Nat) (g : Context → Context) : (s.updCtx c g).queues = s.queues := rfl
@[simp] theorem State.updCtx_services (s : State) (c : Nat) (g : Context → Context) : (s.updCtx c g).services = s.services := rfl
@[simp] theorem State.updCtx_requests (s : State) (c : Nat) (g : Context → Context) : (s.updCtx c g).requests = s.requests := rfl
@[simp] theorem State.updCtx_qcores (s : State) (c : Nat) (g : Context → Context) : (s.updCtx c g).qcores = s.qcores := rfl
@[simp] theorem State.updCtx_scores (s : State) (c : Nat) (g : Context → Context) : (s.updCtx c g).scores = s.scores := rfl
@[simp] theorem State.updCtx_inval (s : State) (c : Nat) (g : Context → Context) : (s.updCtx c g).inval = s.inval := rfl
@[simp] theorem State.updCtx_invalWait (s : State) (c : Nat) (g : Context → Context) : (s.updCtx c g).invalWait = s.invalWait := rfl
@[simp] theorem State.updCtx_latigo (s : State) (c : Nat) (g : Context → Context) : (s.updCtx c g).latigo = s.latigo := rfl
@[simp] theorem State.updCtx_leases (s : State) (c : Nat) (g : Context → Context) : (s.updCtx c g).leases = s.leases := rfl
@[simp] theorem State.updCtx_rings (s : State) (c : Nat) (g : Context → Context) : (s.updCtx c g).rings = s.rings := rfl
@[simp] theorem State.updCtx_incoming (s : State) (c : Nat) (g : Context → Context) : (s.updCtx c g).incoming = s.incoming := rfl
@[simp] theorem State.updCtx_chunks (s : State) (c : Nat) (g : Context → Context) : (s.updCtx c g).chunks = s.chunks := rfl
@[simp] theorem State.updCtx_peerStores (s : State) (c : Nat) (g : Context → Context) : (s.updCtx c g).peerStores = s.peerStores := rfl
@[simp] theorem State.updCtx_ck (s : State) (c : Nat) (g : Context → Context) : (s.updCtx c g).ck = s.ck := rfl
@[simp] theorem State.updCtx_safeTier (s : State) (c : Nat) (g : Context → Context) : (s.updCtx c g).safeTier = s.safeTier := rfl
@[simp] theorem State.updCtx_records (s : State) (c : Nat) (g : Context → Context) : (s.updCtx c g).records = s.records := rfl
@[simp] theorem State.updCtx_profQueue (s : State) (c : Nat) (g : Context → Context) : (s.updCtx c g).profQueue = s.profQueue := rfl
@[simp] theorem State.updCtx_outbox (s : State) (c : Nat) (g : Context → Context) : (s.updCtx c g).outbox = s.outbox := rfl

/-! ### `State.updCore` -/

@[simp] theorem State.updCore_turns (s : State) (k : Nat) (g : Core → Core) : (s.updCore k g).turns = s.turns := rfl
@[simp] theorem State.updCore_cur (s : State) (k : Nat) (g : Core → Core) : (s.updCore k g).cur = s.cur := rfl
@[simp] theorem State.updCore_free (s : State) (k : Nat) (g : Core → Core) : (s.updCore k g).free = s.free := rfl
@[simp] theorem State.updCore_boot (s : State) (k : Nat) (g : Core → Core) : (s.updCore k g).boot = s.boot := rfl
@[simp] theorem State.updCore_frozen (s : State) (k : Nat) (g : Core → Core) : (s.updCore k g).frozen = s.frozen := rfl
@[simp] theorem State.updCore_cinchAddr (s : State) (k : Nat) (g : Core → Core) : (s.updCore k g).cinchAddr = s.cinchAddr := rfl
@[simp] theorem State.updCore_jtagIr (s : State) (k : Nat) (g : Core → Core) : (s.updCore k g).jtagIr = s.jtagIr := rfl
@[simp] theorem State.updCore_devTime (s : State) (k : Nat) (g : Core → Core) : (s.updCore k g).devTime = s.devTime := rfl
@[simp] theorem State.updCore_mhz (s : State) (k : Nat) (g : Core → Core) : (s.updCore k g).mhz = s.mhz := rfl
@[simp] theorem State.updCore_clkPart (s : State) (k : Nat) (g : Core → Core) : (s.updCore k g).clkPart = s.clkPart := rfl
@[simp] theorem State.updCore_pers (s : State) (k : Nat) (g : Core → Core) : (s.updCore k g).pers = s.pers := rfl
@[simp] theorem State.updCore_sec (s : State) (k : Nat) (g : Core → Core) : (s.updCore k g).sec = s.sec := rfl
@[simp] theorem State.updCore_ports (s : State) (k : Nat) (g : Core → Core) : (s.updCore k g).ports = s.ports := rfl
@[simp] theorem State.updCore_mem (s : State) (k : Nat) (g : Core → Core) : (s.updCore k g).mem = s.mem := rfl
@[simp] theorem State.updCore_poison (s : State) (k : Nat) (g : Core → Core) : (s.updCore k g).poison = s.poison := rfl
@[simp] theorem State.updCore_resident (s : State) (k : Nat) (g : Core → Core) : (s.updCore k g).resident = s.resident := rfl
@[simp] theorem State.updCore_heat (s : State) (k : Nat) (g : Core → Core) : (s.updCore k g).heat = s.heat := rfl
@[simp] theorem State.updCore_promotions (s : State) (k : Nat) (g : Core → Core) : (s.updCore k g).promotions = s.promotions := rfl
@[simp] theorem State.updCore_pageBits (s : State) (k : Nat) (g : Core → Core) : (s.updCore k g).pageBits = s.pageBits := rfl
@[simp] theorem State.updCore_zone (s : State) (k : Nat) (g : Core → Core) : (s.updCore k g).zone = s.zone := rfl
@[simp] theorem State.updCore_mtus (s : State) (k : Nat) (g : Core → Core) : (s.updCore k g).mtus = s.mtus := rfl
@[simp] theorem State.updCore_codeOld (s : State) (k : Nat) (g : Core → Core) : (s.updCore k g).codeOld = s.codeOld := rfl
@[simp] theorem State.updCore_owners (s : State) (k : Nat) (g : Core → Core) : (s.updCore k g).owners = s.owners := rfl
@[simp] theorem State.updCore_l2 (s : State) (k : Nat) (g : Core → Core) : (s.updCore k g).l2 = s.l2 := rfl
@[simp] theorem State.updCore_mvc (s : State) (k : Nat) (g : Core → Core) : (s.updCore k g).mvc = s.mvc := rfl
@[simp] theorem State.updCore_blooms (s : State) (k : Nat) (g : Core → Core) : (s.updCore k g).blooms = s.blooms := rfl
@[simp] theorem State.updCore_rowSlots (s : State) (k : Nat) (g : Core → Core) : (s.updCore k g).rowSlots = s.rowSlots := rfl
@[simp] theorem State.updCore_rowPress (s : State) (k : Nat) (g : Core → Core) : (s.updCore k g).rowPress = s.rowPress := rfl
@[simp] theorem State.updCore_cores (s : State) (k : Nat) (g : Core → Core) : (s.updCore k g).cores = s.cores.modify k g := rfl
@[simp] theorem State.updCore_blocks (s : State) (k : Nat) (g : Core → Core) : (s.updCore k g).blocks = s.blocks := rfl
@[simp] theorem State.updCore_tasks (s : State) (k : Nat) (g : Core → Core) : (s.updCore k g).tasks = s.tasks := rfl
@[simp] theorem State.updCore_ops (s : State) (k : Nat) (g : Core → Core) : (s.updCore k g).ops = s.ops := rfl
@[simp] theorem State.updCore_nextId (s : State) (k : Nat) (g : Core → Core) : (s.updCore k g).nextId = s.nextId := rfl
@[simp] theorem State.updCore_eligible (s : State) (k : Nat) (g : Core → Core) : (s.updCore k g).eligible = s.eligible := rfl
@[simp] theorem State.updCore_pool (s : State) (k : Nat) (g : Core → Core) : (s.updCore k g).pool = s.pool := rfl
@[simp] theorem State.updCore_held (s : State) (k : Nat) (g : Core → Core) : (s.updCore k g).held = s.held := rfl
@[simp] theorem State.updCore_retry (s : State) (k : Nat) (g : Core → Core) : (s.updCore k g).retry = s.retry := rfl
@[simp] theorem State.updCore_heldDue (s : State) (k : Nat) (g : Core → Core) : (s.updCore k g).heldDue = s.heldDue := rfl
@[simp] theorem State.updCore_reserve (s : State) (k : Nat) (g : Core → Core) : (s.updCore k g).reserve = s.reserve := rfl
@[simp] theorem State.updCore_contexts (s : State) (k : Nat) (g : Core → Core) : (s.updCore k g).contexts = s.contexts := rfl
@[simp] theorem State.updCore_pages (s : State) (k : Nat) (g : Core → Core) : (s.updCore k g).pages = s.pages := rfl
@[simp] theorem State.updCore_subs (s : State) (k : Nat) (g : Core → Core) : (s.updCore k g).subs = s.subs := rfl
@[simp] theorem State.updCore_qsb (s : State) (k : Nat) (g : Core → Core) : (s.updCore k g).qsb = s.qsb := rfl
@[simp] theorem State.updCore_queues (s : State) (k : Nat) (g : Core → Core) : (s.updCore k g).queues = s.queues := rfl
@[simp] theorem State.updCore_services (s : State) (k : Nat) (g : Core → Core) : (s.updCore k g).services = s.services := rfl
@[simp] theorem State.updCore_requests (s : State) (k : Nat) (g : Core → Core) : (s.updCore k g).requests = s.requests := rfl
@[simp] theorem State.updCore_qcores (s : State) (k : Nat) (g : Core → Core) : (s.updCore k g).qcores = s.qcores := rfl
@[simp] theorem State.updCore_scores (s : State) (k : Nat) (g : Core → Core) : (s.updCore k g).scores = s.scores := rfl
@[simp] theorem State.updCore_inval (s : State) (k : Nat) (g : Core → Core) : (s.updCore k g).inval = s.inval := rfl
@[simp] theorem State.updCore_invalWait (s : State) (k : Nat) (g : Core → Core) : (s.updCore k g).invalWait = s.invalWait := rfl
@[simp] theorem State.updCore_latigo (s : State) (k : Nat) (g : Core → Core) : (s.updCore k g).latigo = s.latigo := rfl
@[simp] theorem State.updCore_leases (s : State) (k : Nat) (g : Core → Core) : (s.updCore k g).leases = s.leases := rfl
@[simp] theorem State.updCore_rings (s : State) (k : Nat) (g : Core → Core) : (s.updCore k g).rings = s.rings := rfl
@[simp] theorem State.updCore_incoming (s : State) (k : Nat) (g : Core → Core) : (s.updCore k g).incoming = s.incoming := rfl
@[simp] theorem State.updCore_chunks (s : State) (k : Nat) (g : Core → Core) : (s.updCore k g).chunks = s.chunks := rfl
@[simp] theorem State.updCore_peerStores (s : State) (k : Nat) (g : Core → Core) : (s.updCore k g).peerStores = s.peerStores := rfl
@[simp] theorem State.updCore_ck (s : State) (k : Nat) (g : Core → Core) : (s.updCore k g).ck = s.ck := rfl
@[simp] theorem State.updCore_safeTier (s : State) (k : Nat) (g : Core → Core) : (s.updCore k g).safeTier = s.safeTier := rfl
@[simp] theorem State.updCore_records (s : State) (k : Nat) (g : Core → Core) : (s.updCore k g).records = s.records := rfl
@[simp] theorem State.updCore_profQueue (s : State) (k : Nat) (g : Core → Core) : (s.updCore k g).profQueue = s.profQueue := rfl
@[simp] theorem State.updCore_outbox (s : State) (k : Nat) (g : Core → Core) : (s.updCore k g).outbox = s.outbox := rfl

/-! ### `State.updMtu` -/

@[simp] theorem State.updMtu_turns (s : State) (k : Nat) (g : Mtu → Mtu) : (s.updMtu k g).turns = s.turns := rfl
@[simp] theorem State.updMtu_cur (s : State) (k : Nat) (g : Mtu → Mtu) : (s.updMtu k g).cur = s.cur := rfl
@[simp] theorem State.updMtu_free (s : State) (k : Nat) (g : Mtu → Mtu) : (s.updMtu k g).free = s.free := rfl
@[simp] theorem State.updMtu_boot (s : State) (k : Nat) (g : Mtu → Mtu) : (s.updMtu k g).boot = s.boot := rfl
@[simp] theorem State.updMtu_frozen (s : State) (k : Nat) (g : Mtu → Mtu) : (s.updMtu k g).frozen = s.frozen := rfl
@[simp] theorem State.updMtu_cinchAddr (s : State) (k : Nat) (g : Mtu → Mtu) : (s.updMtu k g).cinchAddr = s.cinchAddr := rfl
@[simp] theorem State.updMtu_jtagIr (s : State) (k : Nat) (g : Mtu → Mtu) : (s.updMtu k g).jtagIr = s.jtagIr := rfl
@[simp] theorem State.updMtu_devTime (s : State) (k : Nat) (g : Mtu → Mtu) : (s.updMtu k g).devTime = s.devTime := rfl
@[simp] theorem State.updMtu_mhz (s : State) (k : Nat) (g : Mtu → Mtu) : (s.updMtu k g).mhz = s.mhz := rfl
@[simp] theorem State.updMtu_clkPart (s : State) (k : Nat) (g : Mtu → Mtu) : (s.updMtu k g).clkPart = s.clkPart := rfl
@[simp] theorem State.updMtu_pers (s : State) (k : Nat) (g : Mtu → Mtu) : (s.updMtu k g).pers = s.pers := rfl
@[simp] theorem State.updMtu_sec (s : State) (k : Nat) (g : Mtu → Mtu) : (s.updMtu k g).sec = s.sec := rfl
@[simp] theorem State.updMtu_ports (s : State) (k : Nat) (g : Mtu → Mtu) : (s.updMtu k g).ports = s.ports := rfl
@[simp] theorem State.updMtu_mem (s : State) (k : Nat) (g : Mtu → Mtu) : (s.updMtu k g).mem = s.mem := rfl
@[simp] theorem State.updMtu_poison (s : State) (k : Nat) (g : Mtu → Mtu) : (s.updMtu k g).poison = s.poison := rfl
@[simp] theorem State.updMtu_resident (s : State) (k : Nat) (g : Mtu → Mtu) : (s.updMtu k g).resident = s.resident := rfl
@[simp] theorem State.updMtu_heat (s : State) (k : Nat) (g : Mtu → Mtu) : (s.updMtu k g).heat = s.heat := rfl
@[simp] theorem State.updMtu_promotions (s : State) (k : Nat) (g : Mtu → Mtu) : (s.updMtu k g).promotions = s.promotions := rfl
@[simp] theorem State.updMtu_pageBits (s : State) (k : Nat) (g : Mtu → Mtu) : (s.updMtu k g).pageBits = s.pageBits := rfl
@[simp] theorem State.updMtu_zone (s : State) (k : Nat) (g : Mtu → Mtu) : (s.updMtu k g).zone = s.zone := rfl
@[simp] theorem State.updMtu_mtus (s : State) (k : Nat) (g : Mtu → Mtu) : (s.updMtu k g).mtus = s.mtus.modify k g := rfl
@[simp] theorem State.updMtu_codeOld (s : State) (k : Nat) (g : Mtu → Mtu) : (s.updMtu k g).codeOld = s.codeOld := rfl
@[simp] theorem State.updMtu_owners (s : State) (k : Nat) (g : Mtu → Mtu) : (s.updMtu k g).owners = s.owners := rfl
@[simp] theorem State.updMtu_l2 (s : State) (k : Nat) (g : Mtu → Mtu) : (s.updMtu k g).l2 = s.l2 := rfl
@[simp] theorem State.updMtu_mvc (s : State) (k : Nat) (g : Mtu → Mtu) : (s.updMtu k g).mvc = s.mvc := rfl
@[simp] theorem State.updMtu_blooms (s : State) (k : Nat) (g : Mtu → Mtu) : (s.updMtu k g).blooms = s.blooms := rfl
@[simp] theorem State.updMtu_rowSlots (s : State) (k : Nat) (g : Mtu → Mtu) : (s.updMtu k g).rowSlots = s.rowSlots := rfl
@[simp] theorem State.updMtu_rowPress (s : State) (k : Nat) (g : Mtu → Mtu) : (s.updMtu k g).rowPress = s.rowPress := rfl
@[simp] theorem State.updMtu_cores (s : State) (k : Nat) (g : Mtu → Mtu) : (s.updMtu k g).cores = s.cores := rfl
@[simp] theorem State.updMtu_blocks (s : State) (k : Nat) (g : Mtu → Mtu) : (s.updMtu k g).blocks = s.blocks := rfl
@[simp] theorem State.updMtu_tasks (s : State) (k : Nat) (g : Mtu → Mtu) : (s.updMtu k g).tasks = s.tasks := rfl
@[simp] theorem State.updMtu_ops (s : State) (k : Nat) (g : Mtu → Mtu) : (s.updMtu k g).ops = s.ops := rfl
@[simp] theorem State.updMtu_nextId (s : State) (k : Nat) (g : Mtu → Mtu) : (s.updMtu k g).nextId = s.nextId := rfl
@[simp] theorem State.updMtu_eligible (s : State) (k : Nat) (g : Mtu → Mtu) : (s.updMtu k g).eligible = s.eligible := rfl
@[simp] theorem State.updMtu_pool (s : State) (k : Nat) (g : Mtu → Mtu) : (s.updMtu k g).pool = s.pool := rfl
@[simp] theorem State.updMtu_held (s : State) (k : Nat) (g : Mtu → Mtu) : (s.updMtu k g).held = s.held := rfl
@[simp] theorem State.updMtu_retry (s : State) (k : Nat) (g : Mtu → Mtu) : (s.updMtu k g).retry = s.retry := rfl
@[simp] theorem State.updMtu_heldDue (s : State) (k : Nat) (g : Mtu → Mtu) : (s.updMtu k g).heldDue = s.heldDue := rfl
@[simp] theorem State.updMtu_reserve (s : State) (k : Nat) (g : Mtu → Mtu) : (s.updMtu k g).reserve = s.reserve := rfl
@[simp] theorem State.updMtu_contexts (s : State) (k : Nat) (g : Mtu → Mtu) : (s.updMtu k g).contexts = s.contexts := rfl
@[simp] theorem State.updMtu_pages (s : State) (k : Nat) (g : Mtu → Mtu) : (s.updMtu k g).pages = s.pages := rfl
@[simp] theorem State.updMtu_subs (s : State) (k : Nat) (g : Mtu → Mtu) : (s.updMtu k g).subs = s.subs := rfl
@[simp] theorem State.updMtu_qsb (s : State) (k : Nat) (g : Mtu → Mtu) : (s.updMtu k g).qsb = s.qsb := rfl
@[simp] theorem State.updMtu_queues (s : State) (k : Nat) (g : Mtu → Mtu) : (s.updMtu k g).queues = s.queues := rfl
@[simp] theorem State.updMtu_services (s : State) (k : Nat) (g : Mtu → Mtu) : (s.updMtu k g).services = s.services := rfl
@[simp] theorem State.updMtu_requests (s : State) (k : Nat) (g : Mtu → Mtu) : (s.updMtu k g).requests = s.requests := rfl
@[simp] theorem State.updMtu_qcores (s : State) (k : Nat) (g : Mtu → Mtu) : (s.updMtu k g).qcores = s.qcores := rfl
@[simp] theorem State.updMtu_scores (s : State) (k : Nat) (g : Mtu → Mtu) : (s.updMtu k g).scores = s.scores := rfl
@[simp] theorem State.updMtu_inval (s : State) (k : Nat) (g : Mtu → Mtu) : (s.updMtu k g).inval = s.inval := rfl
@[simp] theorem State.updMtu_invalWait (s : State) (k : Nat) (g : Mtu → Mtu) : (s.updMtu k g).invalWait = s.invalWait := rfl
@[simp] theorem State.updMtu_latigo (s : State) (k : Nat) (g : Mtu → Mtu) : (s.updMtu k g).latigo = s.latigo := rfl
@[simp] theorem State.updMtu_leases (s : State) (k : Nat) (g : Mtu → Mtu) : (s.updMtu k g).leases = s.leases := rfl
@[simp] theorem State.updMtu_rings (s : State) (k : Nat) (g : Mtu → Mtu) : (s.updMtu k g).rings = s.rings := rfl
@[simp] theorem State.updMtu_incoming (s : State) (k : Nat) (g : Mtu → Mtu) : (s.updMtu k g).incoming = s.incoming := rfl
@[simp] theorem State.updMtu_chunks (s : State) (k : Nat) (g : Mtu → Mtu) : (s.updMtu k g).chunks = s.chunks := rfl
@[simp] theorem State.updMtu_peerStores (s : State) (k : Nat) (g : Mtu → Mtu) : (s.updMtu k g).peerStores = s.peerStores := rfl
@[simp] theorem State.updMtu_ck (s : State) (k : Nat) (g : Mtu → Mtu) : (s.updMtu k g).ck = s.ck := rfl
@[simp] theorem State.updMtu_safeTier (s : State) (k : Nat) (g : Mtu → Mtu) : (s.updMtu k g).safeTier = s.safeTier := rfl
@[simp] theorem State.updMtu_records (s : State) (k : Nat) (g : Mtu → Mtu) : (s.updMtu k g).records = s.records := rfl
@[simp] theorem State.updMtu_profQueue (s : State) (k : Nat) (g : Mtu → Mtu) : (s.updMtu k g).profQueue = s.profQueue := rfl
@[simp] theorem State.updMtu_outbox (s : State) (k : Nat) (g : Mtu → Mtu) : (s.updMtu k g).outbox = s.outbox := rfl

/-! ### `State.updQcore` -/

@[simp] theorem State.updQcore_turns (s : State) (k : Nat) (g : QueueCore → QueueCore) : (s.updQcore k g).turns = s.turns := rfl
@[simp] theorem State.updQcore_cur (s : State) (k : Nat) (g : QueueCore → QueueCore) : (s.updQcore k g).cur = s.cur := rfl
@[simp] theorem State.updQcore_free (s : State) (k : Nat) (g : QueueCore → QueueCore) : (s.updQcore k g).free = s.free := rfl
@[simp] theorem State.updQcore_boot (s : State) (k : Nat) (g : QueueCore → QueueCore) : (s.updQcore k g).boot = s.boot := rfl
@[simp] theorem State.updQcore_frozen (s : State) (k : Nat) (g : QueueCore → QueueCore) : (s.updQcore k g).frozen = s.frozen := rfl
@[simp] theorem State.updQcore_cinchAddr (s : State) (k : Nat) (g : QueueCore → QueueCore) : (s.updQcore k g).cinchAddr = s.cinchAddr := rfl
@[simp] theorem State.updQcore_jtagIr (s : State) (k : Nat) (g : QueueCore → QueueCore) : (s.updQcore k g).jtagIr = s.jtagIr := rfl
@[simp] theorem State.updQcore_devTime (s : State) (k : Nat) (g : QueueCore → QueueCore) : (s.updQcore k g).devTime = s.devTime := rfl
@[simp] theorem State.updQcore_mhz (s : State) (k : Nat) (g : QueueCore → QueueCore) : (s.updQcore k g).mhz = s.mhz := rfl
@[simp] theorem State.updQcore_clkPart (s : State) (k : Nat) (g : QueueCore → QueueCore) : (s.updQcore k g).clkPart = s.clkPart := rfl
@[simp] theorem State.updQcore_pers (s : State) (k : Nat) (g : QueueCore → QueueCore) : (s.updQcore k g).pers = s.pers := rfl
@[simp] theorem State.updQcore_sec (s : State) (k : Nat) (g : QueueCore → QueueCore) : (s.updQcore k g).sec = s.sec := rfl
@[simp] theorem State.updQcore_ports (s : State) (k : Nat) (g : QueueCore → QueueCore) : (s.updQcore k g).ports = s.ports := rfl
@[simp] theorem State.updQcore_mem (s : State) (k : Nat) (g : QueueCore → QueueCore) : (s.updQcore k g).mem = s.mem := rfl
@[simp] theorem State.updQcore_poison (s : State) (k : Nat) (g : QueueCore → QueueCore) : (s.updQcore k g).poison = s.poison := rfl
@[simp] theorem State.updQcore_resident (s : State) (k : Nat) (g : QueueCore → QueueCore) : (s.updQcore k g).resident = s.resident := rfl
@[simp] theorem State.updQcore_heat (s : State) (k : Nat) (g : QueueCore → QueueCore) : (s.updQcore k g).heat = s.heat := rfl
@[simp] theorem State.updQcore_promotions (s : State) (k : Nat) (g : QueueCore → QueueCore) : (s.updQcore k g).promotions = s.promotions := rfl
@[simp] theorem State.updQcore_pageBits (s : State) (k : Nat) (g : QueueCore → QueueCore) : (s.updQcore k g).pageBits = s.pageBits := rfl
@[simp] theorem State.updQcore_zone (s : State) (k : Nat) (g : QueueCore → QueueCore) : (s.updQcore k g).zone = s.zone := rfl
@[simp] theorem State.updQcore_mtus (s : State) (k : Nat) (g : QueueCore → QueueCore) : (s.updQcore k g).mtus = s.mtus := rfl
@[simp] theorem State.updQcore_codeOld (s : State) (k : Nat) (g : QueueCore → QueueCore) : (s.updQcore k g).codeOld = s.codeOld := rfl
@[simp] theorem State.updQcore_owners (s : State) (k : Nat) (g : QueueCore → QueueCore) : (s.updQcore k g).owners = s.owners := rfl
@[simp] theorem State.updQcore_l2 (s : State) (k : Nat) (g : QueueCore → QueueCore) : (s.updQcore k g).l2 = s.l2 := rfl
@[simp] theorem State.updQcore_mvc (s : State) (k : Nat) (g : QueueCore → QueueCore) : (s.updQcore k g).mvc = s.mvc := rfl
@[simp] theorem State.updQcore_blooms (s : State) (k : Nat) (g : QueueCore → QueueCore) : (s.updQcore k g).blooms = s.blooms := rfl
@[simp] theorem State.updQcore_rowSlots (s : State) (k : Nat) (g : QueueCore → QueueCore) : (s.updQcore k g).rowSlots = s.rowSlots := rfl
@[simp] theorem State.updQcore_rowPress (s : State) (k : Nat) (g : QueueCore → QueueCore) : (s.updQcore k g).rowPress = s.rowPress := rfl
@[simp] theorem State.updQcore_cores (s : State) (k : Nat) (g : QueueCore → QueueCore) : (s.updQcore k g).cores = s.cores := rfl
@[simp] theorem State.updQcore_blocks (s : State) (k : Nat) (g : QueueCore → QueueCore) : (s.updQcore k g).blocks = s.blocks := rfl
@[simp] theorem State.updQcore_tasks (s : State) (k : Nat) (g : QueueCore → QueueCore) : (s.updQcore k g).tasks = s.tasks := rfl
@[simp] theorem State.updQcore_ops (s : State) (k : Nat) (g : QueueCore → QueueCore) : (s.updQcore k g).ops = s.ops := rfl
@[simp] theorem State.updQcore_nextId (s : State) (k : Nat) (g : QueueCore → QueueCore) : (s.updQcore k g).nextId = s.nextId := rfl
@[simp] theorem State.updQcore_eligible (s : State) (k : Nat) (g : QueueCore → QueueCore) : (s.updQcore k g).eligible = s.eligible := rfl
@[simp] theorem State.updQcore_pool (s : State) (k : Nat) (g : QueueCore → QueueCore) : (s.updQcore k g).pool = s.pool := rfl
@[simp] theorem State.updQcore_held (s : State) (k : Nat) (g : QueueCore → QueueCore) : (s.updQcore k g).held = s.held := rfl
@[simp] theorem State.updQcore_retry (s : State) (k : Nat) (g : QueueCore → QueueCore) : (s.updQcore k g).retry = s.retry := rfl
@[simp] theorem State.updQcore_heldDue (s : State) (k : Nat) (g : QueueCore → QueueCore) : (s.updQcore k g).heldDue = s.heldDue := rfl
@[simp] theorem State.updQcore_reserve (s : State) (k : Nat) (g : QueueCore → QueueCore) : (s.updQcore k g).reserve = s.reserve := rfl
@[simp] theorem State.updQcore_contexts (s : State) (k : Nat) (g : QueueCore → QueueCore) : (s.updQcore k g).contexts = s.contexts := rfl
@[simp] theorem State.updQcore_pages (s : State) (k : Nat) (g : QueueCore → QueueCore) : (s.updQcore k g).pages = s.pages := rfl
@[simp] theorem State.updQcore_subs (s : State) (k : Nat) (g : QueueCore → QueueCore) : (s.updQcore k g).subs = s.subs := rfl
@[simp] theorem State.updQcore_qsb (s : State) (k : Nat) (g : QueueCore → QueueCore) : (s.updQcore k g).qsb = s.qsb := rfl
@[simp] theorem State.updQcore_queues (s : State) (k : Nat) (g : QueueCore → QueueCore) : (s.updQcore k g).queues = s.queues := rfl
@[simp] theorem State.updQcore_services (s : State) (k : Nat) (g : QueueCore → QueueCore) : (s.updQcore k g).services = s.services := rfl
@[simp] theorem State.updQcore_requests (s : State) (k : Nat) (g : QueueCore → QueueCore) : (s.updQcore k g).requests = s.requests := rfl
@[simp] theorem State.updQcore_qcores (s : State) (k : Nat) (g : QueueCore → QueueCore) : (s.updQcore k g).qcores = s.qcores.modify k g := rfl
@[simp] theorem State.updQcore_scores (s : State) (k : Nat) (g : QueueCore → QueueCore) : (s.updQcore k g).scores = s.scores := rfl
@[simp] theorem State.updQcore_inval (s : State) (k : Nat) (g : QueueCore → QueueCore) : (s.updQcore k g).inval = s.inval := rfl
@[simp] theorem State.updQcore_invalWait (s : State) (k : Nat) (g : QueueCore → QueueCore) : (s.updQcore k g).invalWait = s.invalWait := rfl
@[simp] theorem State.updQcore_latigo (s : State) (k : Nat) (g : QueueCore → QueueCore) : (s.updQcore k g).latigo = s.latigo := rfl
@[simp] theorem State.updQcore_leases (s : State) (k : Nat) (g : QueueCore → QueueCore) : (s.updQcore k g).leases = s.leases := rfl
@[simp] theorem State.updQcore_rings (s : State) (k : Nat) (g : QueueCore → QueueCore) : (s.updQcore k g).rings = s.rings := rfl
@[simp] theorem State.updQcore_incoming (s : State) (k : Nat) (g : QueueCore → QueueCore) : (s.updQcore k g).incoming = s.incoming := rfl
@[simp] theorem State.updQcore_chunks (s : State) (k : Nat) (g : QueueCore → QueueCore) : (s.updQcore k g).chunks = s.chunks := rfl
@[simp] theorem State.updQcore_peerStores (s : State) (k : Nat) (g : QueueCore → QueueCore) : (s.updQcore k g).peerStores = s.peerStores := rfl
@[simp] theorem State.updQcore_ck (s : State) (k : Nat) (g : QueueCore → QueueCore) : (s.updQcore k g).ck = s.ck := rfl
@[simp] theorem State.updQcore_safeTier (s : State) (k : Nat) (g : QueueCore → QueueCore) : (s.updQcore k g).safeTier = s.safeTier := rfl
@[simp] theorem State.updQcore_records (s : State) (k : Nat) (g : QueueCore → QueueCore) : (s.updQcore k g).records = s.records := rfl
@[simp] theorem State.updQcore_profQueue (s : State) (k : Nat) (g : QueueCore → QueueCore) : (s.updQcore k g).profQueue = s.profQueue := rfl
@[simp] theorem State.updQcore_outbox (s : State) (k : Nat) (g : QueueCore → QueueCore) : (s.updQcore k g).outbox = s.outbox := rfl

/-! ### `State.updQueue` -/

@[simp] theorem State.updQueue_turns (s : State) (q : Nat) (g : QueueDesc → QueueDesc) : (s.updQueue q g).turns = s.turns := rfl
@[simp] theorem State.updQueue_cur (s : State) (q : Nat) (g : QueueDesc → QueueDesc) : (s.updQueue q g).cur = s.cur := rfl
@[simp] theorem State.updQueue_free (s : State) (q : Nat) (g : QueueDesc → QueueDesc) : (s.updQueue q g).free = s.free := rfl
@[simp] theorem State.updQueue_boot (s : State) (q : Nat) (g : QueueDesc → QueueDesc) : (s.updQueue q g).boot = s.boot := rfl
@[simp] theorem State.updQueue_frozen (s : State) (q : Nat) (g : QueueDesc → QueueDesc) : (s.updQueue q g).frozen = s.frozen := rfl
@[simp] theorem State.updQueue_cinchAddr (s : State) (q : Nat) (g : QueueDesc → QueueDesc) : (s.updQueue q g).cinchAddr = s.cinchAddr := rfl
@[simp] theorem State.updQueue_jtagIr (s : State) (q : Nat) (g : QueueDesc → QueueDesc) : (s.updQueue q g).jtagIr = s.jtagIr := rfl
@[simp] theorem State.updQueue_devTime (s : State) (q : Nat) (g : QueueDesc → QueueDesc) : (s.updQueue q g).devTime = s.devTime := rfl
@[simp] theorem State.updQueue_mhz (s : State) (q : Nat) (g : QueueDesc → QueueDesc) : (s.updQueue q g).mhz = s.mhz := rfl
@[simp] theorem State.updQueue_clkPart (s : State) (q : Nat) (g : QueueDesc → QueueDesc) : (s.updQueue q g).clkPart = s.clkPart := rfl
@[simp] theorem State.updQueue_pers (s : State) (q : Nat) (g : QueueDesc → QueueDesc) : (s.updQueue q g).pers = s.pers := rfl
@[simp] theorem State.updQueue_sec (s : State) (q : Nat) (g : QueueDesc → QueueDesc) : (s.updQueue q g).sec = s.sec := rfl
@[simp] theorem State.updQueue_ports (s : State) (q : Nat) (g : QueueDesc → QueueDesc) : (s.updQueue q g).ports = s.ports := rfl
@[simp] theorem State.updQueue_mem (s : State) (q : Nat) (g : QueueDesc → QueueDesc) : (s.updQueue q g).mem = s.mem := rfl
@[simp] theorem State.updQueue_poison (s : State) (q : Nat) (g : QueueDesc → QueueDesc) : (s.updQueue q g).poison = s.poison := rfl
@[simp] theorem State.updQueue_resident (s : State) (q : Nat) (g : QueueDesc → QueueDesc) : (s.updQueue q g).resident = s.resident := rfl
@[simp] theorem State.updQueue_heat (s : State) (q : Nat) (g : QueueDesc → QueueDesc) : (s.updQueue q g).heat = s.heat := rfl
@[simp] theorem State.updQueue_promotions (s : State) (q : Nat) (g : QueueDesc → QueueDesc) : (s.updQueue q g).promotions = s.promotions := rfl
@[simp] theorem State.updQueue_pageBits (s : State) (q : Nat) (g : QueueDesc → QueueDesc) : (s.updQueue q g).pageBits = s.pageBits := rfl
@[simp] theorem State.updQueue_zone (s : State) (q : Nat) (g : QueueDesc → QueueDesc) : (s.updQueue q g).zone = s.zone := rfl
@[simp] theorem State.updQueue_mtus (s : State) (q : Nat) (g : QueueDesc → QueueDesc) : (s.updQueue q g).mtus = s.mtus := rfl
@[simp] theorem State.updQueue_codeOld (s : State) (q : Nat) (g : QueueDesc → QueueDesc) : (s.updQueue q g).codeOld = s.codeOld := rfl
@[simp] theorem State.updQueue_owners (s : State) (q : Nat) (g : QueueDesc → QueueDesc) : (s.updQueue q g).owners = s.owners := rfl
@[simp] theorem State.updQueue_l2 (s : State) (q : Nat) (g : QueueDesc → QueueDesc) : (s.updQueue q g).l2 = s.l2 := rfl
@[simp] theorem State.updQueue_mvc (s : State) (q : Nat) (g : QueueDesc → QueueDesc) : (s.updQueue q g).mvc = s.mvc := rfl
@[simp] theorem State.updQueue_blooms (s : State) (q : Nat) (g : QueueDesc → QueueDesc) : (s.updQueue q g).blooms = s.blooms := rfl
@[simp] theorem State.updQueue_rowSlots (s : State) (q : Nat) (g : QueueDesc → QueueDesc) : (s.updQueue q g).rowSlots = s.rowSlots := rfl
@[simp] theorem State.updQueue_rowPress (s : State) (q : Nat) (g : QueueDesc → QueueDesc) : (s.updQueue q g).rowPress = s.rowPress := rfl
@[simp] theorem State.updQueue_cores (s : State) (q : Nat) (g : QueueDesc → QueueDesc) : (s.updQueue q g).cores = s.cores := rfl
@[simp] theorem State.updQueue_blocks (s : State) (q : Nat) (g : QueueDesc → QueueDesc) : (s.updQueue q g).blocks = s.blocks := rfl
@[simp] theorem State.updQueue_tasks (s : State) (q : Nat) (g : QueueDesc → QueueDesc) : (s.updQueue q g).tasks = s.tasks := rfl
@[simp] theorem State.updQueue_ops (s : State) (q : Nat) (g : QueueDesc → QueueDesc) : (s.updQueue q g).ops = s.ops := rfl
@[simp] theorem State.updQueue_nextId (s : State) (q : Nat) (g : QueueDesc → QueueDesc) : (s.updQueue q g).nextId = s.nextId := rfl
@[simp] theorem State.updQueue_eligible (s : State) (q : Nat) (g : QueueDesc → QueueDesc) : (s.updQueue q g).eligible = s.eligible := rfl
@[simp] theorem State.updQueue_pool (s : State) (q : Nat) (g : QueueDesc → QueueDesc) : (s.updQueue q g).pool = s.pool := rfl
@[simp] theorem State.updQueue_held (s : State) (q : Nat) (g : QueueDesc → QueueDesc) : (s.updQueue q g).held = s.held := rfl
@[simp] theorem State.updQueue_retry (s : State) (q : Nat) (g : QueueDesc → QueueDesc) : (s.updQueue q g).retry = s.retry := rfl
@[simp] theorem State.updQueue_heldDue (s : State) (q : Nat) (g : QueueDesc → QueueDesc) : (s.updQueue q g).heldDue = s.heldDue := rfl
@[simp] theorem State.updQueue_reserve (s : State) (q : Nat) (g : QueueDesc → QueueDesc) : (s.updQueue q g).reserve = s.reserve := rfl
@[simp] theorem State.updQueue_contexts (s : State) (q : Nat) (g : QueueDesc → QueueDesc) : (s.updQueue q g).contexts = s.contexts := rfl
@[simp] theorem State.updQueue_pages (s : State) (q : Nat) (g : QueueDesc → QueueDesc) : (s.updQueue q g).pages = s.pages := rfl
@[simp] theorem State.updQueue_subs (s : State) (q : Nat) (g : QueueDesc → QueueDesc) : (s.updQueue q g).subs = s.subs := rfl
@[simp] theorem State.updQueue_qsb (s : State) (q : Nat) (g : QueueDesc → QueueDesc) : (s.updQueue q g).qsb = s.qsb := rfl
@[simp] theorem State.updQueue_services (s : State) (q : Nat) (g : QueueDesc → QueueDesc) : (s.updQueue q g).services = s.services := rfl
@[simp] theorem State.updQueue_requests (s : State) (q : Nat) (g : QueueDesc → QueueDesc) : (s.updQueue q g).requests = s.requests := rfl
@[simp] theorem State.updQueue_qcores (s : State) (q : Nat) (g : QueueDesc → QueueDesc) : (s.updQueue q g).qcores = s.qcores := rfl
@[simp] theorem State.updQueue_scores (s : State) (q : Nat) (g : QueueDesc → QueueDesc) : (s.updQueue q g).scores = s.scores := rfl
@[simp] theorem State.updQueue_inval (s : State) (q : Nat) (g : QueueDesc → QueueDesc) : (s.updQueue q g).inval = s.inval := rfl
@[simp] theorem State.updQueue_invalWait (s : State) (q : Nat) (g : QueueDesc → QueueDesc) : (s.updQueue q g).invalWait = s.invalWait := rfl
@[simp] theorem State.updQueue_latigo (s : State) (q : Nat) (g : QueueDesc → QueueDesc) : (s.updQueue q g).latigo = s.latigo := rfl
@[simp] theorem State.updQueue_leases (s : State) (q : Nat) (g : QueueDesc → QueueDesc) : (s.updQueue q g).leases = s.leases := rfl
@[simp] theorem State.updQueue_rings (s : State) (q : Nat) (g : QueueDesc → QueueDesc) : (s.updQueue q g).rings = s.rings := rfl
@[simp] theorem State.updQueue_incoming (s : State) (q : Nat) (g : QueueDesc → QueueDesc) : (s.updQueue q g).incoming = s.incoming := rfl
@[simp] theorem State.updQueue_chunks (s : State) (q : Nat) (g : QueueDesc → QueueDesc) : (s.updQueue q g).chunks = s.chunks := rfl
@[simp] theorem State.updQueue_peerStores (s : State) (q : Nat) (g : QueueDesc → QueueDesc) : (s.updQueue q g).peerStores = s.peerStores := rfl
@[simp] theorem State.updQueue_ck (s : State) (q : Nat) (g : QueueDesc → QueueDesc) : (s.updQueue q g).ck = s.ck := rfl
@[simp] theorem State.updQueue_safeTier (s : State) (q : Nat) (g : QueueDesc → QueueDesc) : (s.updQueue q g).safeTier = s.safeTier := rfl
@[simp] theorem State.updQueue_records (s : State) (q : Nat) (g : QueueDesc → QueueDesc) : (s.updQueue q g).records = s.records := rfl
@[simp] theorem State.updQueue_profQueue (s : State) (q : Nat) (g : QueueDesc → QueueDesc) : (s.updQueue q g).profQueue = s.profQueue := rfl
@[simp] theorem State.updQueue_outbox (s : State) (q : Nat) (g : QueueDesc → QueueDesc) : (s.updQueue q g).outbox = s.outbox := rfl

/-! ### `State.updLatigo` -/

@[simp] theorem State.updLatigo_turns (s : State) (g : Latigo → Latigo) : (s.updLatigo g).turns = s.turns := rfl
@[simp] theorem State.updLatigo_cur (s : State) (g : Latigo → Latigo) : (s.updLatigo g).cur = s.cur := rfl
@[simp] theorem State.updLatigo_free (s : State) (g : Latigo → Latigo) : (s.updLatigo g).free = s.free := rfl
@[simp] theorem State.updLatigo_boot (s : State) (g : Latigo → Latigo) : (s.updLatigo g).boot = s.boot := rfl
@[simp] theorem State.updLatigo_frozen (s : State) (g : Latigo → Latigo) : (s.updLatigo g).frozen = s.frozen := rfl
@[simp] theorem State.updLatigo_cinchAddr (s : State) (g : Latigo → Latigo) : (s.updLatigo g).cinchAddr = s.cinchAddr := rfl
@[simp] theorem State.updLatigo_jtagIr (s : State) (g : Latigo → Latigo) : (s.updLatigo g).jtagIr = s.jtagIr := rfl
@[simp] theorem State.updLatigo_devTime (s : State) (g : Latigo → Latigo) : (s.updLatigo g).devTime = s.devTime := rfl
@[simp] theorem State.updLatigo_mhz (s : State) (g : Latigo → Latigo) : (s.updLatigo g).mhz = s.mhz := rfl
@[simp] theorem State.updLatigo_clkPart (s : State) (g : Latigo → Latigo) : (s.updLatigo g).clkPart = s.clkPart := rfl
@[simp] theorem State.updLatigo_pers (s : State) (g : Latigo → Latigo) : (s.updLatigo g).pers = s.pers := rfl
@[simp] theorem State.updLatigo_sec (s : State) (g : Latigo → Latigo) : (s.updLatigo g).sec = s.sec := rfl
@[simp] theorem State.updLatigo_ports (s : State) (g : Latigo → Latigo) : (s.updLatigo g).ports = s.ports := rfl
@[simp] theorem State.updLatigo_mem (s : State) (g : Latigo → Latigo) : (s.updLatigo g).mem = s.mem := rfl
@[simp] theorem State.updLatigo_poison (s : State) (g : Latigo → Latigo) : (s.updLatigo g).poison = s.poison := rfl
@[simp] theorem State.updLatigo_resident (s : State) (g : Latigo → Latigo) : (s.updLatigo g).resident = s.resident := rfl
@[simp] theorem State.updLatigo_heat (s : State) (g : Latigo → Latigo) : (s.updLatigo g).heat = s.heat := rfl
@[simp] theorem State.updLatigo_promotions (s : State) (g : Latigo → Latigo) : (s.updLatigo g).promotions = s.promotions := rfl
@[simp] theorem State.updLatigo_pageBits (s : State) (g : Latigo → Latigo) : (s.updLatigo g).pageBits = s.pageBits := rfl
@[simp] theorem State.updLatigo_zone (s : State) (g : Latigo → Latigo) : (s.updLatigo g).zone = s.zone := rfl
@[simp] theorem State.updLatigo_mtus (s : State) (g : Latigo → Latigo) : (s.updLatigo g).mtus = s.mtus := rfl
@[simp] theorem State.updLatigo_codeOld (s : State) (g : Latigo → Latigo) : (s.updLatigo g).codeOld = s.codeOld := rfl
@[simp] theorem State.updLatigo_owners (s : State) (g : Latigo → Latigo) : (s.updLatigo g).owners = s.owners := rfl
@[simp] theorem State.updLatigo_l2 (s : State) (g : Latigo → Latigo) : (s.updLatigo g).l2 = s.l2 := rfl
@[simp] theorem State.updLatigo_mvc (s : State) (g : Latigo → Latigo) : (s.updLatigo g).mvc = s.mvc := rfl
@[simp] theorem State.updLatigo_blooms (s : State) (g : Latigo → Latigo) : (s.updLatigo g).blooms = s.blooms := rfl
@[simp] theorem State.updLatigo_rowSlots (s : State) (g : Latigo → Latigo) : (s.updLatigo g).rowSlots = s.rowSlots := rfl
@[simp] theorem State.updLatigo_rowPress (s : State) (g : Latigo → Latigo) : (s.updLatigo g).rowPress = s.rowPress := rfl
@[simp] theorem State.updLatigo_cores (s : State) (g : Latigo → Latigo) : (s.updLatigo g).cores = s.cores := rfl
@[simp] theorem State.updLatigo_blocks (s : State) (g : Latigo → Latigo) : (s.updLatigo g).blocks = s.blocks := rfl
@[simp] theorem State.updLatigo_tasks (s : State) (g : Latigo → Latigo) : (s.updLatigo g).tasks = s.tasks := rfl
@[simp] theorem State.updLatigo_ops (s : State) (g : Latigo → Latigo) : (s.updLatigo g).ops = s.ops := rfl
@[simp] theorem State.updLatigo_nextId (s : State) (g : Latigo → Latigo) : (s.updLatigo g).nextId = s.nextId := rfl
@[simp] theorem State.updLatigo_eligible (s : State) (g : Latigo → Latigo) : (s.updLatigo g).eligible = s.eligible := rfl
@[simp] theorem State.updLatigo_pool (s : State) (g : Latigo → Latigo) : (s.updLatigo g).pool = s.pool := rfl
@[simp] theorem State.updLatigo_held (s : State) (g : Latigo → Latigo) : (s.updLatigo g).held = s.held := rfl
@[simp] theorem State.updLatigo_retry (s : State) (g : Latigo → Latigo) : (s.updLatigo g).retry = s.retry := rfl
@[simp] theorem State.updLatigo_heldDue (s : State) (g : Latigo → Latigo) : (s.updLatigo g).heldDue = s.heldDue := rfl
@[simp] theorem State.updLatigo_reserve (s : State) (g : Latigo → Latigo) : (s.updLatigo g).reserve = s.reserve := rfl
@[simp] theorem State.updLatigo_contexts (s : State) (g : Latigo → Latigo) : (s.updLatigo g).contexts = s.contexts := rfl
@[simp] theorem State.updLatigo_pages (s : State) (g : Latigo → Latigo) : (s.updLatigo g).pages = s.pages := rfl
@[simp] theorem State.updLatigo_subs (s : State) (g : Latigo → Latigo) : (s.updLatigo g).subs = s.subs := rfl
@[simp] theorem State.updLatigo_qsb (s : State) (g : Latigo → Latigo) : (s.updLatigo g).qsb = s.qsb := rfl
@[simp] theorem State.updLatigo_queues (s : State) (g : Latigo → Latigo) : (s.updLatigo g).queues = s.queues := rfl
@[simp] theorem State.updLatigo_services (s : State) (g : Latigo → Latigo) : (s.updLatigo g).services = s.services := rfl
@[simp] theorem State.updLatigo_requests (s : State) (g : Latigo → Latigo) : (s.updLatigo g).requests = s.requests := rfl
@[simp] theorem State.updLatigo_qcores (s : State) (g : Latigo → Latigo) : (s.updLatigo g).qcores = s.qcores := rfl
@[simp] theorem State.updLatigo_scores (s : State) (g : Latigo → Latigo) : (s.updLatigo g).scores = s.scores := rfl
@[simp] theorem State.updLatigo_inval (s : State) (g : Latigo → Latigo) : (s.updLatigo g).inval = s.inval := rfl
@[simp] theorem State.updLatigo_invalWait (s : State) (g : Latigo → Latigo) : (s.updLatigo g).invalWait = s.invalWait := rfl
@[simp] theorem State.updLatigo_latigo (s : State) (g : Latigo → Latigo) : (s.updLatigo g).latigo = g s.latigo := rfl
@[simp] theorem State.updLatigo_leases (s : State) (g : Latigo → Latigo) : (s.updLatigo g).leases = s.leases := rfl
@[simp] theorem State.updLatigo_rings (s : State) (g : Latigo → Latigo) : (s.updLatigo g).rings = s.rings := rfl
@[simp] theorem State.updLatigo_incoming (s : State) (g : Latigo → Latigo) : (s.updLatigo g).incoming = s.incoming := rfl
@[simp] theorem State.updLatigo_chunks (s : State) (g : Latigo → Latigo) : (s.updLatigo g).chunks = s.chunks := rfl
@[simp] theorem State.updLatigo_peerStores (s : State) (g : Latigo → Latigo) : (s.updLatigo g).peerStores = s.peerStores := rfl
@[simp] theorem State.updLatigo_ck (s : State) (g : Latigo → Latigo) : (s.updLatigo g).ck = s.ck := rfl
@[simp] theorem State.updLatigo_safeTier (s : State) (g : Latigo → Latigo) : (s.updLatigo g).safeTier = s.safeTier := rfl
@[simp] theorem State.updLatigo_records (s : State) (g : Latigo → Latigo) : (s.updLatigo g).records = s.records := rfl
@[simp] theorem State.updLatigo_profQueue (s : State) (g : Latigo → Latigo) : (s.updLatigo g).profQueue = s.profQueue := rfl
@[simp] theorem State.updLatigo_outbox (s : State) (g : Latigo → Latigo) : (s.updLatigo g).outbox = s.outbox := rfl

/-! ### `State.updLease` -/

@[simp] theorem State.updLease_turns (s : State) (i : Nat) (g : Lease → Lease) : (s.updLease i g).turns = s.turns := rfl
@[simp] theorem State.updLease_cur (s : State) (i : Nat) (g : Lease → Lease) : (s.updLease i g).cur = s.cur := rfl
@[simp] theorem State.updLease_free (s : State) (i : Nat) (g : Lease → Lease) : (s.updLease i g).free = s.free := rfl
@[simp] theorem State.updLease_boot (s : State) (i : Nat) (g : Lease → Lease) : (s.updLease i g).boot = s.boot := rfl
@[simp] theorem State.updLease_frozen (s : State) (i : Nat) (g : Lease → Lease) : (s.updLease i g).frozen = s.frozen := rfl
@[simp] theorem State.updLease_cinchAddr (s : State) (i : Nat) (g : Lease → Lease) : (s.updLease i g).cinchAddr = s.cinchAddr := rfl
@[simp] theorem State.updLease_jtagIr (s : State) (i : Nat) (g : Lease → Lease) : (s.updLease i g).jtagIr = s.jtagIr := rfl
@[simp] theorem State.updLease_devTime (s : State) (i : Nat) (g : Lease → Lease) : (s.updLease i g).devTime = s.devTime := rfl
@[simp] theorem State.updLease_mhz (s : State) (i : Nat) (g : Lease → Lease) : (s.updLease i g).mhz = s.mhz := rfl
@[simp] theorem State.updLease_clkPart (s : State) (i : Nat) (g : Lease → Lease) : (s.updLease i g).clkPart = s.clkPart := rfl
@[simp] theorem State.updLease_pers (s : State) (i : Nat) (g : Lease → Lease) : (s.updLease i g).pers = s.pers := rfl
@[simp] theorem State.updLease_sec (s : State) (i : Nat) (g : Lease → Lease) : (s.updLease i g).sec = s.sec := rfl
@[simp] theorem State.updLease_ports (s : State) (i : Nat) (g : Lease → Lease) : (s.updLease i g).ports = s.ports := rfl
@[simp] theorem State.updLease_mem (s : State) (i : Nat) (g : Lease → Lease) : (s.updLease i g).mem = s.mem := rfl
@[simp] theorem State.updLease_poison (s : State) (i : Nat) (g : Lease → Lease) : (s.updLease i g).poison = s.poison := rfl
@[simp] theorem State.updLease_resident (s : State) (i : Nat) (g : Lease → Lease) : (s.updLease i g).resident = s.resident := rfl
@[simp] theorem State.updLease_heat (s : State) (i : Nat) (g : Lease → Lease) : (s.updLease i g).heat = s.heat := rfl
@[simp] theorem State.updLease_promotions (s : State) (i : Nat) (g : Lease → Lease) : (s.updLease i g).promotions = s.promotions := rfl
@[simp] theorem State.updLease_pageBits (s : State) (i : Nat) (g : Lease → Lease) : (s.updLease i g).pageBits = s.pageBits := rfl
@[simp] theorem State.updLease_zone (s : State) (i : Nat) (g : Lease → Lease) : (s.updLease i g).zone = s.zone := rfl
@[simp] theorem State.updLease_mtus (s : State) (i : Nat) (g : Lease → Lease) : (s.updLease i g).mtus = s.mtus := rfl
@[simp] theorem State.updLease_codeOld (s : State) (i : Nat) (g : Lease → Lease) : (s.updLease i g).codeOld = s.codeOld := rfl
@[simp] theorem State.updLease_owners (s : State) (i : Nat) (g : Lease → Lease) : (s.updLease i g).owners = s.owners := rfl
@[simp] theorem State.updLease_l2 (s : State) (i : Nat) (g : Lease → Lease) : (s.updLease i g).l2 = s.l2 := rfl
@[simp] theorem State.updLease_mvc (s : State) (i : Nat) (g : Lease → Lease) : (s.updLease i g).mvc = s.mvc := rfl
@[simp] theorem State.updLease_blooms (s : State) (i : Nat) (g : Lease → Lease) : (s.updLease i g).blooms = s.blooms := rfl
@[simp] theorem State.updLease_rowSlots (s : State) (i : Nat) (g : Lease → Lease) : (s.updLease i g).rowSlots = s.rowSlots := rfl
@[simp] theorem State.updLease_rowPress (s : State) (i : Nat) (g : Lease → Lease) : (s.updLease i g).rowPress = s.rowPress := rfl
@[simp] theorem State.updLease_cores (s : State) (i : Nat) (g : Lease → Lease) : (s.updLease i g).cores = s.cores := rfl
@[simp] theorem State.updLease_blocks (s : State) (i : Nat) (g : Lease → Lease) : (s.updLease i g).blocks = s.blocks := rfl
@[simp] theorem State.updLease_tasks (s : State) (i : Nat) (g : Lease → Lease) : (s.updLease i g).tasks = s.tasks := rfl
@[simp] theorem State.updLease_ops (s : State) (i : Nat) (g : Lease → Lease) : (s.updLease i g).ops = s.ops := rfl
@[simp] theorem State.updLease_nextId (s : State) (i : Nat) (g : Lease → Lease) : (s.updLease i g).nextId = s.nextId := rfl
@[simp] theorem State.updLease_eligible (s : State) (i : Nat) (g : Lease → Lease) : (s.updLease i g).eligible = s.eligible := rfl
@[simp] theorem State.updLease_pool (s : State) (i : Nat) (g : Lease → Lease) : (s.updLease i g).pool = s.pool := rfl
@[simp] theorem State.updLease_held (s : State) (i : Nat) (g : Lease → Lease) : (s.updLease i g).held = s.held := rfl
@[simp] theorem State.updLease_retry (s : State) (i : Nat) (g : Lease → Lease) : (s.updLease i g).retry = s.retry := rfl
@[simp] theorem State.updLease_heldDue (s : State) (i : Nat) (g : Lease → Lease) : (s.updLease i g).heldDue = s.heldDue := rfl
@[simp] theorem State.updLease_reserve (s : State) (i : Nat) (g : Lease → Lease) : (s.updLease i g).reserve = s.reserve := rfl
@[simp] theorem State.updLease_contexts (s : State) (i : Nat) (g : Lease → Lease) : (s.updLease i g).contexts = s.contexts := rfl
@[simp] theorem State.updLease_pages (s : State) (i : Nat) (g : Lease → Lease) : (s.updLease i g).pages = s.pages := rfl
@[simp] theorem State.updLease_subs (s : State) (i : Nat) (g : Lease → Lease) : (s.updLease i g).subs = s.subs := rfl
@[simp] theorem State.updLease_qsb (s : State) (i : Nat) (g : Lease → Lease) : (s.updLease i g).qsb = s.qsb := rfl
@[simp] theorem State.updLease_queues (s : State) (i : Nat) (g : Lease → Lease) : (s.updLease i g).queues = s.queues := rfl
@[simp] theorem State.updLease_services (s : State) (i : Nat) (g : Lease → Lease) : (s.updLease i g).services = s.services := rfl
@[simp] theorem State.updLease_requests (s : State) (i : Nat) (g : Lease → Lease) : (s.updLease i g).requests = s.requests := rfl
@[simp] theorem State.updLease_qcores (s : State) (i : Nat) (g : Lease → Lease) : (s.updLease i g).qcores = s.qcores := rfl
@[simp] theorem State.updLease_scores (s : State) (i : Nat) (g : Lease → Lease) : (s.updLease i g).scores = s.scores := rfl
@[simp] theorem State.updLease_inval (s : State) (i : Nat) (g : Lease → Lease) : (s.updLease i g).inval = s.inval := rfl
@[simp] theorem State.updLease_invalWait (s : State) (i : Nat) (g : Lease → Lease) : (s.updLease i g).invalWait = s.invalWait := rfl
@[simp] theorem State.updLease_latigo (s : State) (i : Nat) (g : Lease → Lease) : (s.updLease i g).latigo = s.latigo := rfl
@[simp] theorem State.updLease_rings (s : State) (i : Nat) (g : Lease → Lease) : (s.updLease i g).rings = s.rings := rfl
@[simp] theorem State.updLease_incoming (s : State) (i : Nat) (g : Lease → Lease) : (s.updLease i g).incoming = s.incoming := rfl
@[simp] theorem State.updLease_chunks (s : State) (i : Nat) (g : Lease → Lease) : (s.updLease i g).chunks = s.chunks := rfl
@[simp] theorem State.updLease_peerStores (s : State) (i : Nat) (g : Lease → Lease) : (s.updLease i g).peerStores = s.peerStores := rfl
@[simp] theorem State.updLease_ck (s : State) (i : Nat) (g : Lease → Lease) : (s.updLease i g).ck = s.ck := rfl
@[simp] theorem State.updLease_safeTier (s : State) (i : Nat) (g : Lease → Lease) : (s.updLease i g).safeTier = s.safeTier := rfl
@[simp] theorem State.updLease_records (s : State) (i : Nat) (g : Lease → Lease) : (s.updLease i g).records = s.records := rfl
@[simp] theorem State.updLease_profQueue (s : State) (i : Nat) (g : Lease → Lease) : (s.updLease i g).profQueue = s.profQueue := rfl
@[simp] theorem State.updLease_outbox (s : State) (i : Nat) (g : Lease → Lease) : (s.updLease i g).outbox = s.outbox := rfl

/-! ### `State.updCk` -/

@[simp] theorem State.updCk_turns (s : State) (g : Checkpoint → Checkpoint) : (s.updCk g).turns = s.turns := rfl
@[simp] theorem State.updCk_cur (s : State) (g : Checkpoint → Checkpoint) : (s.updCk g).cur = s.cur := rfl
@[simp] theorem State.updCk_free (s : State) (g : Checkpoint → Checkpoint) : (s.updCk g).free = s.free := rfl
@[simp] theorem State.updCk_boot (s : State) (g : Checkpoint → Checkpoint) : (s.updCk g).boot = s.boot := rfl
@[simp] theorem State.updCk_frozen (s : State) (g : Checkpoint → Checkpoint) : (s.updCk g).frozen = s.frozen := rfl
@[simp] theorem State.updCk_cinchAddr (s : State) (g : Checkpoint → Checkpoint) : (s.updCk g).cinchAddr = s.cinchAddr := rfl
@[simp] theorem State.updCk_jtagIr (s : State) (g : Checkpoint → Checkpoint) : (s.updCk g).jtagIr = s.jtagIr := rfl
@[simp] theorem State.updCk_devTime (s : State) (g : Checkpoint → Checkpoint) : (s.updCk g).devTime = s.devTime := rfl
@[simp] theorem State.updCk_mhz (s : State) (g : Checkpoint → Checkpoint) : (s.updCk g).mhz = s.mhz := rfl
@[simp] theorem State.updCk_clkPart (s : State) (g : Checkpoint → Checkpoint) : (s.updCk g).clkPart = s.clkPart := rfl
@[simp] theorem State.updCk_pers (s : State) (g : Checkpoint → Checkpoint) : (s.updCk g).pers = s.pers := rfl
@[simp] theorem State.updCk_sec (s : State) (g : Checkpoint → Checkpoint) : (s.updCk g).sec = s.sec := rfl
@[simp] theorem State.updCk_ports (s : State) (g : Checkpoint → Checkpoint) : (s.updCk g).ports = s.ports := rfl
@[simp] theorem State.updCk_mem (s : State) (g : Checkpoint → Checkpoint) : (s.updCk g).mem = s.mem := rfl
@[simp] theorem State.updCk_poison (s : State) (g : Checkpoint → Checkpoint) : (s.updCk g).poison = s.poison := rfl
@[simp] theorem State.updCk_resident (s : State) (g : Checkpoint → Checkpoint) : (s.updCk g).resident = s.resident := rfl
@[simp] theorem State.updCk_heat (s : State) (g : Checkpoint → Checkpoint) : (s.updCk g).heat = s.heat := rfl
@[simp] theorem State.updCk_promotions (s : State) (g : Checkpoint → Checkpoint) : (s.updCk g).promotions = s.promotions := rfl
@[simp] theorem State.updCk_pageBits (s : State) (g : Checkpoint → Checkpoint) : (s.updCk g).pageBits = s.pageBits := rfl
@[simp] theorem State.updCk_zone (s : State) (g : Checkpoint → Checkpoint) : (s.updCk g).zone = s.zone := rfl
@[simp] theorem State.updCk_mtus (s : State) (g : Checkpoint → Checkpoint) : (s.updCk g).mtus = s.mtus := rfl
@[simp] theorem State.updCk_codeOld (s : State) (g : Checkpoint → Checkpoint) : (s.updCk g).codeOld = s.codeOld := rfl
@[simp] theorem State.updCk_owners (s : State) (g : Checkpoint → Checkpoint) : (s.updCk g).owners = s.owners := rfl
@[simp] theorem State.updCk_l2 (s : State) (g : Checkpoint → Checkpoint) : (s.updCk g).l2 = s.l2 := rfl
@[simp] theorem State.updCk_mvc (s : State) (g : Checkpoint → Checkpoint) : (s.updCk g).mvc = s.mvc := rfl
@[simp] theorem State.updCk_blooms (s : State) (g : Checkpoint → Checkpoint) : (s.updCk g).blooms = s.blooms := rfl
@[simp] theorem State.updCk_rowSlots (s : State) (g : Checkpoint → Checkpoint) : (s.updCk g).rowSlots = s.rowSlots := rfl
@[simp] theorem State.updCk_rowPress (s : State) (g : Checkpoint → Checkpoint) : (s.updCk g).rowPress = s.rowPress := rfl
@[simp] theorem State.updCk_cores (s : State) (g : Checkpoint → Checkpoint) : (s.updCk g).cores = s.cores := rfl
@[simp] theorem State.updCk_blocks (s : State) (g : Checkpoint → Checkpoint) : (s.updCk g).blocks = s.blocks := rfl
@[simp] theorem State.updCk_tasks (s : State) (g : Checkpoint → Checkpoint) : (s.updCk g).tasks = s.tasks := rfl
@[simp] theorem State.updCk_ops (s : State) (g : Checkpoint → Checkpoint) : (s.updCk g).ops = s.ops := rfl
@[simp] theorem State.updCk_nextId (s : State) (g : Checkpoint → Checkpoint) : (s.updCk g).nextId = s.nextId := rfl
@[simp] theorem State.updCk_eligible (s : State) (g : Checkpoint → Checkpoint) : (s.updCk g).eligible = s.eligible := rfl
@[simp] theorem State.updCk_pool (s : State) (g : Checkpoint → Checkpoint) : (s.updCk g).pool = s.pool := rfl
@[simp] theorem State.updCk_held (s : State) (g : Checkpoint → Checkpoint) : (s.updCk g).held = s.held := rfl
@[simp] theorem State.updCk_retry (s : State) (g : Checkpoint → Checkpoint) : (s.updCk g).retry = s.retry := rfl
@[simp] theorem State.updCk_heldDue (s : State) (g : Checkpoint → Checkpoint) : (s.updCk g).heldDue = s.heldDue := rfl
@[simp] theorem State.updCk_reserve (s : State) (g : Checkpoint → Checkpoint) : (s.updCk g).reserve = s.reserve := rfl
@[simp] theorem State.updCk_contexts (s : State) (g : Checkpoint → Checkpoint) : (s.updCk g).contexts = s.contexts := rfl
@[simp] theorem State.updCk_pages (s : State) (g : Checkpoint → Checkpoint) : (s.updCk g).pages = s.pages := rfl
@[simp] theorem State.updCk_subs (s : State) (g : Checkpoint → Checkpoint) : (s.updCk g).subs = s.subs := rfl
@[simp] theorem State.updCk_qsb (s : State) (g : Checkpoint → Checkpoint) : (s.updCk g).qsb = s.qsb := rfl
@[simp] theorem State.updCk_queues (s : State) (g : Checkpoint → Checkpoint) : (s.updCk g).queues = s.queues := rfl
@[simp] theorem State.updCk_services (s : State) (g : Checkpoint → Checkpoint) : (s.updCk g).services = s.services := rfl
@[simp] theorem State.updCk_requests (s : State) (g : Checkpoint → Checkpoint) : (s.updCk g).requests = s.requests := rfl
@[simp] theorem State.updCk_qcores (s : State) (g : Checkpoint → Checkpoint) : (s.updCk g).qcores = s.qcores := rfl
@[simp] theorem State.updCk_scores (s : State) (g : Checkpoint → Checkpoint) : (s.updCk g).scores = s.scores := rfl
@[simp] theorem State.updCk_inval (s : State) (g : Checkpoint → Checkpoint) : (s.updCk g).inval = s.inval := rfl
@[simp] theorem State.updCk_invalWait (s : State) (g : Checkpoint → Checkpoint) : (s.updCk g).invalWait = s.invalWait := rfl
@[simp] theorem State.updCk_latigo (s : State) (g : Checkpoint → Checkpoint) : (s.updCk g).latigo = s.latigo := rfl
@[simp] theorem State.updCk_leases (s : State) (g : Checkpoint → Checkpoint) : (s.updCk g).leases = s.leases := rfl
@[simp] theorem State.updCk_rings (s : State) (g : Checkpoint → Checkpoint) : (s.updCk g).rings = s.rings := rfl
@[simp] theorem State.updCk_incoming (s : State) (g : Checkpoint → Checkpoint) : (s.updCk g).incoming = s.incoming := rfl
@[simp] theorem State.updCk_chunks (s : State) (g : Checkpoint → Checkpoint) : (s.updCk g).chunks = s.chunks := rfl
@[simp] theorem State.updCk_peerStores (s : State) (g : Checkpoint → Checkpoint) : (s.updCk g).peerStores = s.peerStores := rfl
@[simp] theorem State.updCk_ck (s : State) (g : Checkpoint → Checkpoint) : (s.updCk g).ck = g s.ck := rfl
@[simp] theorem State.updCk_safeTier (s : State) (g : Checkpoint → Checkpoint) : (s.updCk g).safeTier = s.safeTier := rfl
@[simp] theorem State.updCk_records (s : State) (g : Checkpoint → Checkpoint) : (s.updCk g).records = s.records := rfl
@[simp] theorem State.updCk_profQueue (s : State) (g : Checkpoint → Checkpoint) : (s.updCk g).profQueue = s.profQueue := rfl
@[simp] theorem State.updCk_outbox (s : State) (g : Checkpoint → Checkpoint) : (s.updCk g).outbox = s.outbox := rfl

/-! ### `State.emit` -/

@[simp] theorem State.emit_turns (s : State) (o : Out) : (s.emit o).turns = s.turns := rfl
@[simp] theorem State.emit_cur (s : State) (o : Out) : (s.emit o).cur = s.cur := rfl
@[simp] theorem State.emit_free (s : State) (o : Out) : (s.emit o).free = s.free := rfl
@[simp] theorem State.emit_boot (s : State) (o : Out) : (s.emit o).boot = s.boot := rfl
@[simp] theorem State.emit_frozen (s : State) (o : Out) : (s.emit o).frozen = s.frozen := rfl
@[simp] theorem State.emit_cinchAddr (s : State) (o : Out) : (s.emit o).cinchAddr = s.cinchAddr := rfl
@[simp] theorem State.emit_jtagIr (s : State) (o : Out) : (s.emit o).jtagIr = s.jtagIr := rfl
@[simp] theorem State.emit_devTime (s : State) (o : Out) : (s.emit o).devTime = s.devTime := rfl
@[simp] theorem State.emit_mhz (s : State) (o : Out) : (s.emit o).mhz = s.mhz := rfl
@[simp] theorem State.emit_clkPart (s : State) (o : Out) : (s.emit o).clkPart = s.clkPart := rfl
@[simp] theorem State.emit_pers (s : State) (o : Out) : (s.emit o).pers = s.pers := rfl
@[simp] theorem State.emit_sec (s : State) (o : Out) : (s.emit o).sec = s.sec := rfl
@[simp] theorem State.emit_ports (s : State) (o : Out) : (s.emit o).ports = s.ports := rfl
@[simp] theorem State.emit_mem (s : State) (o : Out) : (s.emit o).mem = s.mem := rfl
@[simp] theorem State.emit_poison (s : State) (o : Out) : (s.emit o).poison = s.poison := rfl
@[simp] theorem State.emit_resident (s : State) (o : Out) : (s.emit o).resident = s.resident := rfl
@[simp] theorem State.emit_heat (s : State) (o : Out) : (s.emit o).heat = s.heat := rfl
@[simp] theorem State.emit_promotions (s : State) (o : Out) : (s.emit o).promotions = s.promotions := rfl
@[simp] theorem State.emit_pageBits (s : State) (o : Out) : (s.emit o).pageBits = s.pageBits := rfl
@[simp] theorem State.emit_zone (s : State) (o : Out) : (s.emit o).zone = s.zone := rfl
@[simp] theorem State.emit_mtus (s : State) (o : Out) : (s.emit o).mtus = s.mtus := rfl
@[simp] theorem State.emit_codeOld (s : State) (o : Out) : (s.emit o).codeOld = s.codeOld := rfl
@[simp] theorem State.emit_owners (s : State) (o : Out) : (s.emit o).owners = s.owners := rfl
@[simp] theorem State.emit_l2 (s : State) (o : Out) : (s.emit o).l2 = s.l2 := rfl
@[simp] theorem State.emit_mvc (s : State) (o : Out) : (s.emit o).mvc = s.mvc := rfl
@[simp] theorem State.emit_blooms (s : State) (o : Out) : (s.emit o).blooms = s.blooms := rfl
@[simp] theorem State.emit_rowSlots (s : State) (o : Out) : (s.emit o).rowSlots = s.rowSlots := rfl
@[simp] theorem State.emit_rowPress (s : State) (o : Out) : (s.emit o).rowPress = s.rowPress := rfl
@[simp] theorem State.emit_cores (s : State) (o : Out) : (s.emit o).cores = s.cores := rfl
@[simp] theorem State.emit_blocks (s : State) (o : Out) : (s.emit o).blocks = s.blocks := rfl
@[simp] theorem State.emit_tasks (s : State) (o : Out) : (s.emit o).tasks = s.tasks := rfl
@[simp] theorem State.emit_ops (s : State) (o : Out) : (s.emit o).ops = s.ops := rfl
@[simp] theorem State.emit_nextId (s : State) (o : Out) : (s.emit o).nextId = s.nextId := rfl
@[simp] theorem State.emit_eligible (s : State) (o : Out) : (s.emit o).eligible = s.eligible := rfl
@[simp] theorem State.emit_pool (s : State) (o : Out) : (s.emit o).pool = s.pool := rfl
@[simp] theorem State.emit_held (s : State) (o : Out) : (s.emit o).held = s.held := rfl
@[simp] theorem State.emit_retry (s : State) (o : Out) : (s.emit o).retry = s.retry := rfl
@[simp] theorem State.emit_heldDue (s : State) (o : Out) : (s.emit o).heldDue = s.heldDue := rfl
@[simp] theorem State.emit_reserve (s : State) (o : Out) : (s.emit o).reserve = s.reserve := rfl
@[simp] theorem State.emit_contexts (s : State) (o : Out) : (s.emit o).contexts = s.contexts := rfl
@[simp] theorem State.emit_pages (s : State) (o : Out) : (s.emit o).pages = s.pages := rfl
@[simp] theorem State.emit_subs (s : State) (o : Out) : (s.emit o).subs = s.subs := rfl
@[simp] theorem State.emit_qsb (s : State) (o : Out) : (s.emit o).qsb = s.qsb := rfl
@[simp] theorem State.emit_queues (s : State) (o : Out) : (s.emit o).queues = s.queues := rfl
@[simp] theorem State.emit_services (s : State) (o : Out) : (s.emit o).services = s.services := rfl
@[simp] theorem State.emit_requests (s : State) (o : Out) : (s.emit o).requests = s.requests := rfl
@[simp] theorem State.emit_qcores (s : State) (o : Out) : (s.emit o).qcores = s.qcores := rfl
@[simp] theorem State.emit_scores (s : State) (o : Out) : (s.emit o).scores = s.scores := rfl
@[simp] theorem State.emit_inval (s : State) (o : Out) : (s.emit o).inval = s.inval := rfl
@[simp] theorem State.emit_invalWait (s : State) (o : Out) : (s.emit o).invalWait = s.invalWait := rfl
@[simp] theorem State.emit_latigo (s : State) (o : Out) : (s.emit o).latigo = s.latigo := rfl
@[simp] theorem State.emit_leases (s : State) (o : Out) : (s.emit o).leases = s.leases := rfl
@[simp] theorem State.emit_rings (s : State) (o : Out) : (s.emit o).rings = s.rings := rfl
@[simp] theorem State.emit_incoming (s : State) (o : Out) : (s.emit o).incoming = s.incoming := rfl
@[simp] theorem State.emit_chunks (s : State) (o : Out) : (s.emit o).chunks = s.chunks := rfl
@[simp] theorem State.emit_peerStores (s : State) (o : Out) : (s.emit o).peerStores = s.peerStores := rfl
@[simp] theorem State.emit_ck (s : State) (o : Out) : (s.emit o).ck = s.ck := rfl
@[simp] theorem State.emit_safeTier (s : State) (o : Out) : (s.emit o).safeTier = s.safeTier := rfl
@[simp] theorem State.emit_records (s : State) (o : Out) : (s.emit o).records = s.records := rfl
@[simp] theorem State.emit_profQueue (s : State) (o : Out) : (s.emit o).profQueue = s.profQueue := rfl
@[simp] theorem State.emit_outbox (s : State) (o : Out) : (s.emit o).outbox = s.outbox ++ [o] := rfl

/-! ### `State.setBytes` -/

@[simp] theorem State.setBytes_turns (s : State) (a : Nat) (l : List Byte) : (s.setBytes a l).turns = s.turns := rfl
@[simp] theorem State.setBytes_cur (s : State) (a : Nat) (l : List Byte) : (s.setBytes a l).cur = s.cur := rfl
@[simp] theorem State.setBytes_free (s : State) (a : Nat) (l : List Byte) : (s.setBytes a l).free = s.free := rfl
@[simp] theorem State.setBytes_boot (s : State) (a : Nat) (l : List Byte) : (s.setBytes a l).boot = s.boot := rfl
@[simp] theorem State.setBytes_frozen (s : State) (a : Nat) (l : List Byte) : (s.setBytes a l).frozen = s.frozen := rfl
@[simp] theorem State.setBytes_cinchAddr (s : State) (a : Nat) (l : List Byte) : (s.setBytes a l).cinchAddr = s.cinchAddr := rfl
@[simp] theorem State.setBytes_jtagIr (s : State) (a : Nat) (l : List Byte) : (s.setBytes a l).jtagIr = s.jtagIr := rfl
@[simp] theorem State.setBytes_devTime (s : State) (a : Nat) (l : List Byte) : (s.setBytes a l).devTime = s.devTime := rfl
@[simp] theorem State.setBytes_mhz (s : State) (a : Nat) (l : List Byte) : (s.setBytes a l).mhz = s.mhz := rfl
@[simp] theorem State.setBytes_clkPart (s : State) (a : Nat) (l : List Byte) : (s.setBytes a l).clkPart = s.clkPart := rfl
@[simp] theorem State.setBytes_pers (s : State) (a : Nat) (l : List Byte) : (s.setBytes a l).pers = s.pers := rfl
@[simp] theorem State.setBytes_sec (s : State) (a : Nat) (l : List Byte) : (s.setBytes a l).sec = s.sec := rfl
@[simp] theorem State.setBytes_ports (s : State) (a : Nat) (l : List Byte) : (s.setBytes a l).ports = s.ports := rfl
@[simp] theorem State.setBytes_mem (s : State) (a : Nat) (l : List Byte) : (s.setBytes a l).mem = Sparse.putN memDefault s.mem a l := rfl
@[simp] theorem State.setBytes_poison (s : State) (a : Nat) (l : List Byte) : (s.setBytes a l).poison = s.poison := rfl
@[simp] theorem State.setBytes_resident (s : State) (a : Nat) (l : List Byte) : (s.setBytes a l).resident = s.resident := rfl
@[simp] theorem State.setBytes_heat (s : State) (a : Nat) (l : List Byte) : (s.setBytes a l).heat = s.heat := rfl
@[simp] theorem State.setBytes_promotions (s : State) (a : Nat) (l : List Byte) : (s.setBytes a l).promotions = s.promotions := rfl
@[simp] theorem State.setBytes_pageBits (s : State) (a : Nat) (l : List Byte) : (s.setBytes a l).pageBits = s.pageBits := rfl
@[simp] theorem State.setBytes_zone (s : State) (a : Nat) (l : List Byte) : (s.setBytes a l).zone = s.zone := rfl
@[simp] theorem State.setBytes_mtus (s : State) (a : Nat) (l : List Byte) : (s.setBytes a l).mtus = s.mtus := rfl
@[simp] theorem State.setBytes_codeOld (s : State) (a : Nat) (l : List Byte) : (s.setBytes a l).codeOld = s.codeOld := rfl
@[simp] theorem State.setBytes_owners (s : State) (a : Nat) (l : List Byte) : (s.setBytes a l).owners = s.owners := rfl
@[simp] theorem State.setBytes_l2 (s : State) (a : Nat) (l : List Byte) : (s.setBytes a l).l2 = s.l2 := rfl
@[simp] theorem State.setBytes_mvc (s : State) (a : Nat) (l : List Byte) : (s.setBytes a l).mvc = s.mvc := rfl
@[simp] theorem State.setBytes_blooms (s : State) (a : Nat) (l : List Byte) : (s.setBytes a l).blooms = s.blooms := rfl
@[simp] theorem State.setBytes_rowSlots (s : State) (a : Nat) (l : List Byte) : (s.setBytes a l).rowSlots = s.rowSlots := rfl
@[simp] theorem State.setBytes_rowPress (s : State) (a : Nat) (l : List Byte) : (s.setBytes a l).rowPress = s.rowPress := rfl
@[simp] theorem State.setBytes_cores (s : State) (a : Nat) (l : List Byte) : (s.setBytes a l).cores = s.cores := rfl
@[simp] theorem State.setBytes_blocks (s : State) (a : Nat) (l : List Byte) : (s.setBytes a l).blocks = s.blocks := rfl
@[simp] theorem State.setBytes_tasks (s : State) (a : Nat) (l : List Byte) : (s.setBytes a l).tasks = s.tasks := rfl
@[simp] theorem State.setBytes_ops (s : State) (a : Nat) (l : List Byte) : (s.setBytes a l).ops = s.ops := rfl
@[simp] theorem State.setBytes_nextId (s : State) (a : Nat) (l : List Byte) : (s.setBytes a l).nextId = s.nextId := rfl
@[simp] theorem State.setBytes_eligible (s : State) (a : Nat) (l : List Byte) : (s.setBytes a l).eligible = s.eligible := rfl
@[simp] theorem State.setBytes_pool (s : State) (a : Nat) (l : List Byte) : (s.setBytes a l).pool = s.pool := rfl
@[simp] theorem State.setBytes_held (s : State) (a : Nat) (l : List Byte) : (s.setBytes a l).held = s.held := rfl
@[simp] theorem State.setBytes_retry (s : State) (a : Nat) (l : List Byte) : (s.setBytes a l).retry = s.retry := rfl
@[simp] theorem State.setBytes_heldDue (s : State) (a : Nat) (l : List Byte) : (s.setBytes a l).heldDue = s.heldDue := rfl
@[simp] theorem State.setBytes_reserve (s : State) (a : Nat) (l : List Byte) : (s.setBytes a l).reserve = s.reserve := rfl
@[simp] theorem State.setBytes_contexts (s : State) (a : Nat) (l : List Byte) : (s.setBytes a l).contexts = s.contexts := rfl
@[simp] theorem State.setBytes_pages (s : State) (a : Nat) (l : List Byte) : (s.setBytes a l).pages = s.pages := rfl
@[simp] theorem State.setBytes_subs (s : State) (a : Nat) (l : List Byte) : (s.setBytes a l).subs = s.subs := rfl
@[simp] theorem State.setBytes_qsb (s : State) (a : Nat) (l : List Byte) : (s.setBytes a l).qsb = s.qsb := rfl
@[simp] theorem State.setBytes_queues (s : State) (a : Nat) (l : List Byte) : (s.setBytes a l).queues = s.queues := rfl
@[simp] theorem State.setBytes_services (s : State) (a : Nat) (l : List Byte) : (s.setBytes a l).services = s.services := rfl
@[simp] theorem State.setBytes_requests (s : State) (a : Nat) (l : List Byte) : (s.setBytes a l).requests = s.requests := rfl
@[simp] theorem State.setBytes_qcores (s : State) (a : Nat) (l : List Byte) : (s.setBytes a l).qcores = s.qcores := rfl
@[simp] theorem State.setBytes_scores (s : State) (a : Nat) (l : List Byte) : (s.setBytes a l).scores = s.scores := rfl
@[simp] theorem State.setBytes_inval (s : State) (a : Nat) (l : List Byte) : (s.setBytes a l).inval = s.inval := rfl
@[simp] theorem State.setBytes_invalWait (s : State) (a : Nat) (l : List Byte) : (s.setBytes a l).invalWait = s.invalWait := rfl
@[simp] theorem State.setBytes_latigo (s : State) (a : Nat) (l : List Byte) : (s.setBytes a l).latigo = s.latigo := rfl
@[simp] theorem State.setBytes_leases (s : State) (a : Nat) (l : List Byte) : (s.setBytes a l).leases = s.leases := rfl
@[simp] theorem State.setBytes_rings (s : State) (a : Nat) (l : List Byte) : (s.setBytes a l).rings = s.rings := rfl
@[simp] theorem State.setBytes_incoming (s : State) (a : Nat) (l : List Byte) : (s.setBytes a l).incoming = s.incoming := rfl
@[simp] theorem State.setBytes_chunks (s : State) (a : Nat) (l : List Byte) : (s.setBytes a l).chunks = s.chunks := rfl
@[simp] theorem State.setBytes_peerStores (s : State) (a : Nat) (l : List Byte) : (s.setBytes a l).peerStores = s.peerStores := rfl
@[simp] theorem State.setBytes_ck (s : State) (a : Nat) (l : List Byte) : (s.setBytes a l).ck = s.ck := rfl
@[simp] theorem State.setBytes_safeTier (s : State) (a : Nat) (l : List Byte) : (s.setBytes a l).safeTier = s.safeTier := rfl
@[simp] theorem State.setBytes_records (s : State) (a : Nat) (l : List Byte) : (s.setBytes a l).records = s.records := rfl
@[simp] theorem State.setBytes_profQueue (s : State) (a : Nat) (l : List Byte) : (s.setBytes a l).profQueue = s.profQueue := rfl
@[simp] theorem State.setBytes_outbox (s : State) (a : Nat) (l : List Byte) : (s.setBytes a l).outbox = s.outbox := rfl

/-! ### `State.setPte` -/

theorem State.setBytesBits_turns (s : State) (a : Nat) (l : List Byte) (p : List (Nat × Nat)) : ({ s.setBytes a l with pageBits := p } : State).turns = s.turns := rfl
@[simp] theorem State.setPte_turns (s : State) (ia : Nat) (e : DWord) : (s.setPte ia e).turns = s.turns := State.setBytesBits_turns _ _ _ _
theorem State.setBytesBits_cur (s : State) (a : Nat) (l : List Byte) (p : List (Nat × Nat)) : ({ s.setBytes a l with pageBits := p } : State).cur = s.cur := rfl
@[simp] theorem State.setPte_cur (s : State) (ia : Nat) (e : DWord) : (s.setPte ia e).cur = s.cur := State.setBytesBits_cur _ _ _ _
theorem State.setBytesBits_free (s : State) (a : Nat) (l : List Byte) (p : List (Nat × Nat)) : ({ s.setBytes a l with pageBits := p } : State).free = s.free := rfl
@[simp] theorem State.setPte_free (s : State) (ia : Nat) (e : DWord) : (s.setPte ia e).free = s.free := State.setBytesBits_free _ _ _ _
theorem State.setBytesBits_boot (s : State) (a : Nat) (l : List Byte) (p : List (Nat × Nat)) : ({ s.setBytes a l with pageBits := p } : State).boot = s.boot := rfl
@[simp] theorem State.setPte_boot (s : State) (ia : Nat) (e : DWord) : (s.setPte ia e).boot = s.boot := State.setBytesBits_boot _ _ _ _
theorem State.setBytesBits_frozen (s : State) (a : Nat) (l : List Byte) (p : List (Nat × Nat)) : ({ s.setBytes a l with pageBits := p } : State).frozen = s.frozen := rfl
@[simp] theorem State.setPte_frozen (s : State) (ia : Nat) (e : DWord) : (s.setPte ia e).frozen = s.frozen := State.setBytesBits_frozen _ _ _ _
theorem State.setBytesBits_cinchAddr (s : State) (a : Nat) (l : List Byte) (p : List (Nat × Nat)) : ({ s.setBytes a l with pageBits := p } : State).cinchAddr = s.cinchAddr := rfl
@[simp] theorem State.setPte_cinchAddr (s : State) (ia : Nat) (e : DWord) : (s.setPte ia e).cinchAddr = s.cinchAddr := State.setBytesBits_cinchAddr _ _ _ _
theorem State.setBytesBits_jtagIr (s : State) (a : Nat) (l : List Byte) (p : List (Nat × Nat)) : ({ s.setBytes a l with pageBits := p } : State).jtagIr = s.jtagIr := rfl
@[simp] theorem State.setPte_jtagIr (s : State) (ia : Nat) (e : DWord) : (s.setPte ia e).jtagIr = s.jtagIr := State.setBytesBits_jtagIr _ _ _ _
theorem State.setBytesBits_devTime (s : State) (a : Nat) (l : List Byte) (p : List (Nat × Nat)) : ({ s.setBytes a l with pageBits := p } : State).devTime = s.devTime := rfl
@[simp] theorem State.setPte_devTime (s : State) (ia : Nat) (e : DWord) : (s.setPte ia e).devTime = s.devTime := State.setBytesBits_devTime _ _ _ _
theorem State.setBytesBits_mhz (s : State) (a : Nat) (l : List Byte) (p : List (Nat × Nat)) : ({ s.setBytes a l with pageBits := p } : State).mhz = s.mhz := rfl
@[simp] theorem State.setPte_mhz (s : State) (ia : Nat) (e : DWord) : (s.setPte ia e).mhz = s.mhz := State.setBytesBits_mhz _ _ _ _
theorem State.setBytesBits_clkPart (s : State) (a : Nat) (l : List Byte) (p : List (Nat × Nat)) : ({ s.setBytes a l with pageBits := p } : State).clkPart = s.clkPart := rfl
@[simp] theorem State.setPte_clkPart (s : State) (ia : Nat) (e : DWord) : (s.setPte ia e).clkPart = s.clkPart := State.setBytesBits_clkPart _ _ _ _
theorem State.setBytesBits_pers (s : State) (a : Nat) (l : List Byte) (p : List (Nat × Nat)) : ({ s.setBytes a l with pageBits := p } : State).pers = s.pers := rfl
@[simp] theorem State.setPte_pers (s : State) (ia : Nat) (e : DWord) : (s.setPte ia e).pers = s.pers := State.setBytesBits_pers _ _ _ _
theorem State.setBytesBits_sec (s : State) (a : Nat) (l : List Byte) (p : List (Nat × Nat)) : ({ s.setBytes a l with pageBits := p } : State).sec = s.sec := rfl
@[simp] theorem State.setPte_sec (s : State) (ia : Nat) (e : DWord) : (s.setPte ia e).sec = s.sec := State.setBytesBits_sec _ _ _ _
theorem State.setBytesBits_ports (s : State) (a : Nat) (l : List Byte) (p : List (Nat × Nat)) : ({ s.setBytes a l with pageBits := p } : State).ports = s.ports := rfl
@[simp] theorem State.setPte_ports (s : State) (ia : Nat) (e : DWord) : (s.setPte ia e).ports = s.ports := State.setBytesBits_ports _ _ _ _
@[simp] theorem State.setPte_mem (s : State) (ia : Nat) (e : DWord) : (s.setPte ia e).mem = Sparse.putN memDefault s.mem (s.pteAddr ia) (toBytes 8 e) := rfl
theorem State.setBytesBits_poison (s : State) (a : Nat) (l : List Byte) (p : List (Nat × Nat)) : ({ s.setBytes a l with pageBits := p } : State).poison = s.poison := rfl
@[simp] theorem State.setPte_poison (s : State) (ia : Nat) (e : DWord) : (s.setPte ia e).poison = s.poison := State.setBytesBits_poison _ _ _ _
theorem State.setBytesBits_resident (s : State) (a : Nat) (l : List Byte) (p : List (Nat × Nat)) : ({ s.setBytes a l with pageBits := p } : State).resident = s.resident := rfl
@[simp] theorem State.setPte_resident (s : State) (ia : Nat) (e : DWord) : (s.setPte ia e).resident = s.resident := State.setBytesBits_resident _ _ _ _
theorem State.setBytesBits_heat (s : State) (a : Nat) (l : List Byte) (p : List (Nat × Nat)) : ({ s.setBytes a l with pageBits := p } : State).heat = s.heat := rfl
@[simp] theorem State.setPte_heat (s : State) (ia : Nat) (e : DWord) : (s.setPte ia e).heat = s.heat := State.setBytesBits_heat _ _ _ _
theorem State.setBytesBits_promotions (s : State) (a : Nat) (l : List Byte) (p : List (Nat × Nat)) : ({ s.setBytes a l with pageBits := p } : State).promotions = s.promotions := rfl
@[simp] theorem State.setPte_promotions (s : State) (ia : Nat) (e : DWord) : (s.setPte ia e).promotions = s.promotions := State.setBytesBits_promotions _ _ _ _
@[simp] theorem State.setPte_pageBits (s : State) (ia : Nat) (e : DWord) : (s.setPte ia e).pageBits = Sparse.erase (pageKey ia) s.pageBits := rfl
theorem State.setBytesBits_zone (s : State) (a : Nat) (l : List Byte) (p : List (Nat × Nat)) : ({ s.setBytes a l with pageBits := p } : State).zone = s.zone := rfl
@[simp] theorem State.setPte_zone (s : State) (ia : Nat) (e : DWord) : (s.setPte ia e).zone = s.zone := State.setBytesBits_zone _ _ _ _
theorem State.setBytesBits_mtus (s : State) (a : Nat) (l : List Byte) (p : List (Nat × Nat)) : ({ s.setBytes a l with pageBits := p } : State).mtus = s.mtus := rfl
@[simp] theorem State.setPte_mtus (s : State) (ia : Nat) (e : DWord) : (s.setPte ia e).mtus = s.mtus := State.setBytesBits_mtus _ _ _ _
theorem State.setBytesBits_codeOld (s : State) (a : Nat) (l : List Byte) (p : List (Nat × Nat)) : ({ s.setBytes a l with pageBits := p } : State).codeOld = s.codeOld := rfl
@[simp] theorem State.setPte_codeOld (s : State) (ia : Nat) (e : DWord) : (s.setPte ia e).codeOld = s.codeOld := State.setBytesBits_codeOld _ _ _ _
theorem State.setBytesBits_owners (s : State) (a : Nat) (l : List Byte) (p : List (Nat × Nat)) : ({ s.setBytes a l with pageBits := p } : State).owners = s.owners := rfl
@[simp] theorem State.setPte_owners (s : State) (ia : Nat) (e : DWord) : (s.setPte ia e).owners = s.owners := State.setBytesBits_owners _ _ _ _
theorem State.setBytesBits_l2 (s : State) (a : Nat) (l : List Byte) (p : List (Nat × Nat)) : ({ s.setBytes a l with pageBits := p } : State).l2 = s.l2 := rfl
@[simp] theorem State.setPte_l2 (s : State) (ia : Nat) (e : DWord) : (s.setPte ia e).l2 = s.l2 := State.setBytesBits_l2 _ _ _ _
theorem State.setBytesBits_mvc (s : State) (a : Nat) (l : List Byte) (p : List (Nat × Nat)) : ({ s.setBytes a l with pageBits := p } : State).mvc = s.mvc := rfl
@[simp] theorem State.setPte_mvc (s : State) (ia : Nat) (e : DWord) : (s.setPte ia e).mvc = s.mvc := State.setBytesBits_mvc _ _ _ _
theorem State.setBytesBits_blooms (s : State) (a : Nat) (l : List Byte) (p : List (Nat × Nat)) : ({ s.setBytes a l with pageBits := p } : State).blooms = s.blooms := rfl
@[simp] theorem State.setPte_blooms (s : State) (ia : Nat) (e : DWord) : (s.setPte ia e).blooms = s.blooms := State.setBytesBits_blooms _ _ _ _
theorem State.setBytesBits_rowSlots (s : State) (a : Nat) (l : List Byte) (p : List (Nat × Nat)) : ({ s.setBytes a l with pageBits := p } : State).rowSlots = s.rowSlots := rfl
@[simp] theorem State.setPte_rowSlots (s : State) (ia : Nat) (e : DWord) : (s.setPte ia e).rowSlots = s.rowSlots := State.setBytesBits_rowSlots _ _ _ _
theorem State.setBytesBits_rowPress (s : State) (a : Nat) (l : List Byte) (p : List (Nat × Nat)) : ({ s.setBytes a l with pageBits := p } : State).rowPress = s.rowPress := rfl
@[simp] theorem State.setPte_rowPress (s : State) (ia : Nat) (e : DWord) : (s.setPte ia e).rowPress = s.rowPress := State.setBytesBits_rowPress _ _ _ _
theorem State.setBytesBits_cores (s : State) (a : Nat) (l : List Byte) (p : List (Nat × Nat)) : ({ s.setBytes a l with pageBits := p } : State).cores = s.cores := rfl
@[simp] theorem State.setPte_cores (s : State) (ia : Nat) (e : DWord) : (s.setPte ia e).cores = s.cores := State.setBytesBits_cores _ _ _ _
theorem State.setBytesBits_blocks (s : State) (a : Nat) (l : List Byte) (p : List (Nat × Nat)) : ({ s.setBytes a l with pageBits := p } : State).blocks = s.blocks := rfl
@[simp] theorem State.setPte_blocks (s : State) (ia : Nat) (e : DWord) : (s.setPte ia e).blocks = s.blocks := State.setBytesBits_blocks _ _ _ _
theorem State.setBytesBits_tasks (s : State) (a : Nat) (l : List Byte) (p : List (Nat × Nat)) : ({ s.setBytes a l with pageBits := p } : State).tasks = s.tasks := rfl
@[simp] theorem State.setPte_tasks (s : State) (ia : Nat) (e : DWord) : (s.setPte ia e).tasks = s.tasks := State.setBytesBits_tasks _ _ _ _
theorem State.setBytesBits_ops (s : State) (a : Nat) (l : List Byte) (p : List (Nat × Nat)) : ({ s.setBytes a l with pageBits := p } : State).ops = s.ops := rfl
@[simp] theorem State.setPte_ops (s : State) (ia : Nat) (e : DWord) : (s.setPte ia e).ops = s.ops := State.setBytesBits_ops _ _ _ _
theorem State.setBytesBits_nextId (s : State) (a : Nat) (l : List Byte) (p : List (Nat × Nat)) : ({ s.setBytes a l with pageBits := p } : State).nextId = s.nextId := rfl
@[simp] theorem State.setPte_nextId (s : State) (ia : Nat) (e : DWord) : (s.setPte ia e).nextId = s.nextId := State.setBytesBits_nextId _ _ _ _
theorem State.setBytesBits_eligible (s : State) (a : Nat) (l : List Byte) (p : List (Nat × Nat)) : ({ s.setBytes a l with pageBits := p } : State).eligible = s.eligible := rfl
@[simp] theorem State.setPte_eligible (s : State) (ia : Nat) (e : DWord) : (s.setPte ia e).eligible = s.eligible := State.setBytesBits_eligible _ _ _ _
theorem State.setBytesBits_pool (s : State) (a : Nat) (l : List Byte) (p : List (Nat × Nat)) : ({ s.setBytes a l with pageBits := p } : State).pool = s.pool := rfl
@[simp] theorem State.setPte_pool (s : State) (ia : Nat) (e : DWord) : (s.setPte ia e).pool = s.pool := State.setBytesBits_pool _ _ _ _
theorem State.setBytesBits_held (s : State) (a : Nat) (l : List Byte) (p : List (Nat × Nat)) : ({ s.setBytes a l with pageBits := p } : State).held = s.held := rfl
@[simp] theorem State.setPte_held (s : State) (ia : Nat) (e : DWord) : (s.setPte ia e).held = s.held := State.setBytesBits_held _ _ _ _
theorem State.setBytesBits_retry (s : State) (a : Nat) (l : List Byte) (p : List (Nat × Nat)) : ({ s.setBytes a l with pageBits := p } : State).retry = s.retry := rfl
@[simp] theorem State.setPte_retry (s : State) (ia : Nat) (e : DWord) : (s.setPte ia e).retry = s.retry := State.setBytesBits_retry _ _ _ _
theorem State.setBytesBits_heldDue (s : State) (a : Nat) (l : List Byte) (p : List (Nat × Nat)) : ({ s.setBytes a l with pageBits := p } : State).heldDue = s.heldDue := rfl
@[simp] theorem State.setPte_heldDue (s : State) (ia : Nat) (e : DWord) : (s.setPte ia e).heldDue = s.heldDue := State.setBytesBits_heldDue _ _ _ _
theorem State.setBytesBits_reserve (s : State) (a : Nat) (l : List Byte) (p : List (Nat × Nat)) : ({ s.setBytes a l with pageBits := p } : State).reserve = s.reserve := rfl
@[simp] theorem State.setPte_reserve (s : State) (ia : Nat) (e : DWord) : (s.setPte ia e).reserve = s.reserve := State.setBytesBits_reserve _ _ _ _
theorem State.setBytesBits_contexts (s : State) (a : Nat) (l : List Byte) (p : List (Nat × Nat)) : ({ s.setBytes a l with pageBits := p } : State).contexts = s.contexts := rfl
@[simp] theorem State.setPte_contexts (s : State) (ia : Nat) (e : DWord) : (s.setPte ia e).contexts = s.contexts := State.setBytesBits_contexts _ _ _ _
theorem State.setBytesBits_pages (s : State) (a : Nat) (l : List Byte) (p : List (Nat × Nat)) : ({ s.setBytes a l with pageBits := p } : State).pages = s.pages := rfl
@[simp] theorem State.setPte_pages (s : State) (ia : Nat) (e : DWord) : (s.setPte ia e).pages = s.pages := State.setBytesBits_pages _ _ _ _
theorem State.setBytesBits_subs (s : State) (a : Nat) (l : List Byte) (p : List (Nat × Nat)) : ({ s.setBytes a l with pageBits := p } : State).subs = s.subs := rfl
@[simp] theorem State.setPte_subs (s : State) (ia : Nat) (e : DWord) : (s.setPte ia e).subs = s.subs := State.setBytesBits_subs _ _ _ _
theorem State.setBytesBits_qsb (s : State) (a : Nat) (l : List Byte) (p : List (Nat × Nat)) : ({ s.setBytes a l with pageBits := p } : State).qsb = s.qsb := rfl
@[simp] theorem State.setPte_qsb (s : State) (ia : Nat) (e : DWord) : (s.setPte ia e).qsb = s.qsb := State.setBytesBits_qsb _ _ _ _
theorem State.setBytesBits_queues (s : State) (a : Nat) (l : List Byte) (p : List (Nat × Nat)) : ({ s.setBytes a l with pageBits := p } : State).queues = s.queues := rfl
@[simp] theorem State.setPte_queues (s : State) (ia : Nat) (e : DWord) : (s.setPte ia e).queues = s.queues := State.setBytesBits_queues _ _ _ _
theorem State.setBytesBits_services (s : State) (a : Nat) (l : List Byte) (p : List (Nat × Nat)) : ({ s.setBytes a l with pageBits := p } : State).services = s.services := rfl
@[simp] theorem State.setPte_services (s : State) (ia : Nat) (e : DWord) : (s.setPte ia e).services = s.services := State.setBytesBits_services _ _ _ _
theorem State.setBytesBits_requests (s : State) (a : Nat) (l : List Byte) (p : List (Nat × Nat)) : ({ s.setBytes a l with pageBits := p } : State).requests = s.requests := rfl
@[simp] theorem State.setPte_requests (s : State) (ia : Nat) (e : DWord) : (s.setPte ia e).requests = s.requests := State.setBytesBits_requests _ _ _ _
theorem State.setBytesBits_qcores (s : State) (a : Nat) (l : List Byte) (p : List (Nat × Nat)) : ({ s.setBytes a l with pageBits := p } : State).qcores = s.qcores := rfl
@[simp] theorem State.setPte_qcores (s : State) (ia : Nat) (e : DWord) : (s.setPte ia e).qcores = s.qcores := State.setBytesBits_qcores _ _ _ _
theorem State.setBytesBits_scores (s : State) (a : Nat) (l : List Byte) (p : List (Nat × Nat)) : ({ s.setBytes a l with pageBits := p } : State).scores = s.scores := rfl
@[simp] theorem State.setPte_scores (s : State) (ia : Nat) (e : DWord) : (s.setPte ia e).scores = s.scores := State.setBytesBits_scores _ _ _ _
theorem State.setBytesBits_inval (s : State) (a : Nat) (l : List Byte) (p : List (Nat × Nat)) : ({ s.setBytes a l with pageBits := p } : State).inval = s.inval := rfl
@[simp] theorem State.setPte_inval (s : State) (ia : Nat) (e : DWord) : (s.setPte ia e).inval = s.inval := State.setBytesBits_inval _ _ _ _
theorem State.setBytesBits_invalWait (s : State) (a : Nat) (l : List Byte) (p : List (Nat × Nat)) : ({ s.setBytes a l with pageBits := p } : State).invalWait = s.invalWait := rfl
@[simp] theorem State.setPte_invalWait (s : State) (ia : Nat) (e : DWord) : (s.setPte ia e).invalWait = s.invalWait := State.setBytesBits_invalWait _ _ _ _
theorem State.setBytesBits_latigo (s : State) (a : Nat) (l : List Byte) (p : List (Nat × Nat)) : ({ s.setBytes a l with pageBits := p } : State).latigo = s.latigo := rfl
@[simp] theorem State.setPte_latigo (s : State) (ia : Nat) (e : DWord) : (s.setPte ia e).latigo = s.latigo := State.setBytesBits_latigo _ _ _ _
theorem State.setBytesBits_leases (s : State) (a : Nat) (l : List Byte) (p : List (Nat × Nat)) : ({ s.setBytes a l with pageBits := p } : State).leases = s.leases := rfl
@[simp] theorem State.setPte_leases (s : State) (ia : Nat) (e : DWord) : (s.setPte ia e).leases = s.leases := State.setBytesBits_leases _ _ _ _
theorem State.setBytesBits_rings (s : State) (a : Nat) (l : List Byte) (p : List (Nat × Nat)) : ({ s.setBytes a l with pageBits := p } : State).rings = s.rings := rfl
@[simp] theorem State.setPte_rings (s : State) (ia : Nat) (e : DWord) : (s.setPte ia e).rings = s.rings := State.setBytesBits_rings _ _ _ _
theorem State.setBytesBits_incoming (s : State) (a : Nat) (l : List Byte) (p : List (Nat × Nat)) : ({ s.setBytes a l with pageBits := p } : State).incoming = s.incoming := rfl
@[simp] theorem State.setPte_incoming (s : State) (ia : Nat) (e : DWord) : (s.setPte ia e).incoming = s.incoming := State.setBytesBits_incoming _ _ _ _
theorem State.setBytesBits_chunks (s : State) (a : Nat) (l : List Byte) (p : List (Nat × Nat)) : ({ s.setBytes a l with pageBits := p } : State).chunks = s.chunks := rfl
@[simp] theorem State.setPte_chunks (s : State) (ia : Nat) (e : DWord) : (s.setPte ia e).chunks = s.chunks := State.setBytesBits_chunks _ _ _ _
theorem State.setBytesBits_peerStores (s : State) (a : Nat) (l : List Byte) (p : List (Nat × Nat)) : ({ s.setBytes a l with pageBits := p } : State).peerStores = s.peerStores := rfl
@[simp] theorem State.setPte_peerStores (s : State) (ia : Nat) (e : DWord) : (s.setPte ia e).peerStores = s.peerStores := State.setBytesBits_peerStores _ _ _ _
theorem State.setBytesBits_ck (s : State) (a : Nat) (l : List Byte) (p : List (Nat × Nat)) : ({ s.setBytes a l with pageBits := p } : State).ck = s.ck := rfl
@[simp] theorem State.setPte_ck (s : State) (ia : Nat) (e : DWord) : (s.setPte ia e).ck = s.ck := State.setBytesBits_ck _ _ _ _
theorem State.setBytesBits_safeTier (s : State) (a : Nat) (l : List Byte) (p : List (Nat × Nat)) : ({ s.setBytes a l with pageBits := p } : State).safeTier = s.safeTier := rfl
@[simp] theorem State.setPte_safeTier (s : State) (ia : Nat) (e : DWord) : (s.setPte ia e).safeTier = s.safeTier := State.setBytesBits_safeTier _ _ _ _
theorem State.setBytesBits_records (s : State) (a : Nat) (l : List Byte) (p : List (Nat × Nat)) : ({ s.setBytes a l with pageBits := p } : State).records = s.records := rfl
@[simp] theorem State.setPte_records (s : State) (ia : Nat) (e : DWord) : (s.setPte ia e).records = s.records := State.setBytesBits_records _ _ _ _
theorem State.setBytesBits_profQueue (s : State) (a : Nat) (l : List Byte) (p : List (Nat × Nat)) : ({ s.setBytes a l with pageBits := p } : State).profQueue = s.profQueue := rfl
@[simp] theorem State.setPte_profQueue (s : State) (ia : Nat) (e : DWord) : (s.setPte ia e).profQueue = s.profQueue := State.setBytesBits_profQueue _ _ _ _
theorem State.setBytesBits_outbox (s : State) (a : Nat) (l : List Byte) (p : List (Nat × Nat)) : ({ s.setBytes a l with pageBits := p } : State).outbox = s.outbox := rfl
@[simp] theorem State.setPte_outbox (s : State) (ia : Nat) (e : DWord) : (s.setPte ia e).outbox = s.outbox := State.setBytesBits_outbox _ _ _ _

/-! ### `State.setPageBits` -/

@[simp] theorem State.setPageBits_turns (s : State) (ia b : Nat) : (s.setPageBits ia b).turns = s.turns := rfl
@[simp] theorem State.setPageBits_cur (s : State) (ia b : Nat) : (s.setPageBits ia b).cur = s.cur := rfl
@[simp] theorem State.setPageBits_free (s : State) (ia b : Nat) : (s.setPageBits ia b).free = s.free := rfl
@[simp] theorem State.setPageBits_boot (s : State) (ia b : Nat) : (s.setPageBits ia b).boot = s.boot := rfl
@[simp] theorem State.setPageBits_frozen (s : State) (ia b : Nat) : (s.setPageBits ia b).frozen = s.frozen := rfl
@[simp] theorem State.setPageBits_cinchAddr (s : State) (ia b : Nat) : (s.setPageBits ia b).cinchAddr = s.cinchAddr := rfl
@[simp] theorem State.setPageBits_jtagIr (s : State) (ia b : Nat) : (s.setPageBits ia b).jtagIr = s.jtagIr := rfl
@[simp] theorem State.setPageBits_devTime (s : State) (ia b : Nat) : (s.setPageBits ia b).devTime = s.devTime := rfl
@[simp] theorem State.setPageBits_mhz (s : State) (ia b : Nat) : (s.setPageBits ia b).mhz = s.mhz := rfl
@[simp] theorem State.setPageBits_clkPart (s : State) (ia b : Nat) : (s.setPageBits ia b).clkPart = s.clkPart := rfl
@[simp] theorem State.setPageBits_pers (s : State) (ia b : Nat) : (s.setPageBits ia b).pers = s.pers := rfl
@[simp] theorem State.setPageBits_sec (s : State) (ia b : Nat) : (s.setPageBits ia b).sec = s.sec := rfl
@[simp] theorem State.setPageBits_ports (s : State) (ia b : Nat) : (s.setPageBits ia b).ports = s.ports := rfl
@[simp] theorem State.setPageBits_mem (s : State) (ia b : Nat) : (s.setPageBits ia b).mem = s.mem := rfl
@[simp] theorem State.setPageBits_poison (s : State) (ia b : Nat) : (s.setPageBits ia b).poison = s.poison := rfl
@[simp] theorem State.setPageBits_resident (s : State) (ia b : Nat) : (s.setPageBits ia b).resident = s.resident := rfl
@[simp] theorem State.setPageBits_heat (s : State) (ia b : Nat) : (s.setPageBits ia b).heat = s.heat := rfl
@[simp] theorem State.setPageBits_promotions (s : State) (ia b : Nat) : (s.setPageBits ia b).promotions = s.promotions := rfl
@[simp] theorem State.setPageBits_pageBits (s : State) (ia b : Nat) : (s.setPageBits ia b).pageBits = Sparse.insert (pageKey ia) b s.pageBits := rfl
@[simp] theorem State.setPageBits_zone (s : State) (ia b : Nat) : (s.setPageBits ia b).zone = s.zone := rfl
@[simp] theorem State.setPageBits_mtus (s : State) (ia b : Nat) : (s.setPageBits ia b).mtus = s.mtus := rfl
@[simp] theorem State.setPageBits_codeOld (s : State) (ia b : Nat) : (s.setPageBits ia b).codeOld = s.codeOld := rfl
@[simp] theorem State.setPageBits_owners (s : State) (ia b : Nat) : (s.setPageBits ia b).owners = s.owners := rfl
@[simp] theorem State.setPageBits_l2 (s : State) (ia b : Nat) : (s.setPageBits ia b).l2 = s.l2 := rfl
@[simp] theorem State.setPageBits_mvc (s : State) (ia b : Nat) : (s.setPageBits ia b).mvc = s.mvc := rfl
@[simp] theorem State.setPageBits_blooms (s : State) (ia b : Nat) : (s.setPageBits ia b).blooms = s.blooms := rfl
@[simp] theorem State.setPageBits_rowSlots (s : State) (ia b : Nat) : (s.setPageBits ia b).rowSlots = s.rowSlots := rfl
@[simp] theorem State.setPageBits_rowPress (s : State) (ia b : Nat) : (s.setPageBits ia b).rowPress = s.rowPress := rfl
@[simp] theorem State.setPageBits_cores (s : State) (ia b : Nat) : (s.setPageBits ia b).cores = s.cores := rfl
@[simp] theorem State.setPageBits_blocks (s : State) (ia b : Nat) : (s.setPageBits ia b).blocks = s.blocks := rfl
@[simp] theorem State.setPageBits_tasks (s : State) (ia b : Nat) : (s.setPageBits ia b).tasks = s.tasks := rfl
@[simp] theorem State.setPageBits_ops (s : State) (ia b : Nat) : (s.setPageBits ia b).ops = s.ops := rfl
@[simp] theorem State.setPageBits_nextId (s : State) (ia b : Nat) : (s.setPageBits ia b).nextId = s.nextId := rfl
@[simp] theorem State.setPageBits_eligible (s : State) (ia b : Nat) : (s.setPageBits ia b).eligible = s.eligible := rfl
@[simp] theorem State.setPageBits_pool (s : State) (ia b : Nat) : (s.setPageBits ia b).pool = s.pool := rfl
@[simp] theorem State.setPageBits_held (s : State) (ia b : Nat) : (s.setPageBits ia b).held = s.held := rfl
@[simp] theorem State.setPageBits_retry (s : State) (ia b : Nat) : (s.setPageBits ia b).retry = s.retry := rfl
@[simp] theorem State.setPageBits_heldDue (s : State) (ia b : Nat) : (s.setPageBits ia b).heldDue = s.heldDue := rfl
@[simp] theorem State.setPageBits_reserve (s : State) (ia b : Nat) : (s.setPageBits ia b).reserve = s.reserve := rfl
@[simp] theorem State.setPageBits_contexts (s : State) (ia b : Nat) : (s.setPageBits ia b).contexts = s.contexts := rfl
@[simp] theorem State.setPageBits_pages (s : State) (ia b : Nat) : (s.setPageBits ia b).pages = s.pages := rfl
@[simp] theorem State.setPageBits_subs (s : State) (ia b : Nat) : (s.setPageBits ia b).subs = s.subs := rfl
@[simp] theorem State.setPageBits_qsb (s : State) (ia b : Nat) : (s.setPageBits ia b).qsb = s.qsb := rfl
@[simp] theorem State.setPageBits_queues (s : State) (ia b : Nat) : (s.setPageBits ia b).queues = s.queues := rfl
@[simp] theorem State.setPageBits_services (s : State) (ia b : Nat) : (s.setPageBits ia b).services = s.services := rfl
@[simp] theorem State.setPageBits_requests (s : State) (ia b : Nat) : (s.setPageBits ia b).requests = s.requests := rfl
@[simp] theorem State.setPageBits_qcores (s : State) (ia b : Nat) : (s.setPageBits ia b).qcores = s.qcores := rfl
@[simp] theorem State.setPageBits_scores (s : State) (ia b : Nat) : (s.setPageBits ia b).scores = s.scores := rfl
@[simp] theorem State.setPageBits_inval (s : State) (ia b : Nat) : (s.setPageBits ia b).inval = s.inval := rfl
@[simp] theorem State.setPageBits_invalWait (s : State) (ia b : Nat) : (s.setPageBits ia b).invalWait = s.invalWait := rfl
@[simp] theorem State.setPageBits_latigo (s : State) (ia b : Nat) : (s.setPageBits ia b).latigo = s.latigo := rfl
@[simp] theorem State.setPageBits_leases (s : State) (ia b : Nat) : (s.setPageBits ia b).leases = s.leases := rfl
@[simp] theorem State.setPageBits_rings (s : State) (ia b : Nat) : (s.setPageBits ia b).rings = s.rings := rfl
@[simp] theorem State.setPageBits_incoming (s : State) (ia b : Nat) : (s.setPageBits ia b).incoming = s.incoming := rfl
@[simp] theorem State.setPageBits_chunks (s : State) (ia b : Nat) : (s.setPageBits ia b).chunks = s.chunks := rfl
@[simp] theorem State.setPageBits_peerStores (s : State) (ia b : Nat) : (s.setPageBits ia b).peerStores = s.peerStores := rfl
@[simp] theorem State.setPageBits_ck (s : State) (ia b : Nat) : (s.setPageBits ia b).ck = s.ck := rfl
@[simp] theorem State.setPageBits_safeTier (s : State) (ia b : Nat) : (s.setPageBits ia b).safeTier = s.safeTier := rfl
@[simp] theorem State.setPageBits_records (s : State) (ia b : Nat) : (s.setPageBits ia b).records = s.records := rfl
@[simp] theorem State.setPageBits_profQueue (s : State) (ia b : Nat) : (s.setPageBits ia b).profQueue = s.profQueue := rfl
@[simp] theorem State.setPageBits_outbox (s : State) (ia b : Nat) : (s.setPageBits ia b).outbox = s.outbox := rfl

/-! ### `State.setLease` -/

@[simp] theorem State.setLease_turns (s : State) (i : Nat) (l : Lease) : (s.setLease i l).turns = s.turns := rfl
@[simp] theorem State.setLease_cur (s : State) (i : Nat) (l : Lease) : (s.setLease i l).cur = s.cur := rfl
@[simp] theorem State.setLease_free (s : State) (i : Nat) (l : Lease) : (s.setLease i l).free = s.free := rfl
@[simp] theorem State.setLease_boot (s : State) (i : Nat) (l : Lease) : (s.setLease i l).boot = s.boot := rfl
@[simp] theorem State.setLease_frozen (s : State) (i : Nat) (l : Lease) : (s.setLease i l).frozen = s.frozen := rfl
@[simp] theorem State.setLease_cinchAddr (s : State) (i : Nat) (l : Lease) : (s.setLease i l).cinchAddr = s.cinchAddr := rfl
@[simp] theorem State.setLease_jtagIr (s : State) (i : Nat) (l : Lease) : (s.setLease i l).jtagIr = s.jtagIr := rfl
@[simp] theorem State.setLease_devTime (s : State) (i : Nat) (l : Lease) : (s.setLease i l).devTime = s.devTime := rfl
@[simp] theorem State.setLease_mhz (s : State) (i : Nat) (l : Lease) : (s.setLease i l).mhz = s.mhz := rfl
@[simp] theorem State.setLease_clkPart (s : State) (i : Nat) (l : Lease) : (s.setLease i l).clkPart = s.clkPart := rfl
@[simp] theorem State.setLease_pers (s : State) (i : Nat) (l : Lease) : (s.setLease i l).pers = s.pers := rfl
@[simp] theorem State.setLease_sec (s : State) (i : Nat) (l : Lease) : (s.setLease i l).sec = s.sec := rfl
@[simp] theorem State.setLease_ports (s : State) (i : Nat) (l : Lease) : (s.setLease i l).ports = s.ports := rfl
@[simp] theorem State.setLease_mem (s : State) (i : Nat) (l : Lease) : (s.setLease i l).mem = s.mem := rfl
@[simp] theorem State.setLease_poison (s : State) (i : Nat) (l : Lease) : (s.setLease i l).poison = s.poison := rfl
@[simp] theorem State.setLease_resident (s : State) (i : Nat) (l : Lease) : (s.setLease i l).resident = s.resident := rfl
@[simp] theorem State.setLease_heat (s : State) (i : Nat) (l : Lease) : (s.setLease i l).heat = s.heat := rfl
@[simp] theorem State.setLease_promotions (s : State) (i : Nat) (l : Lease) : (s.setLease i l).promotions = s.promotions := rfl
@[simp] theorem State.setLease_pageBits (s : State) (i : Nat) (l : Lease) : (s.setLease i l).pageBits = s.pageBits := rfl
@[simp] theorem State.setLease_zone (s : State) (i : Nat) (l : Lease) : (s.setLease i l).zone = s.zone := rfl
@[simp] theorem State.setLease_mtus (s : State) (i : Nat) (l : Lease) : (s.setLease i l).mtus = s.mtus := rfl
@[simp] theorem State.setLease_codeOld (s : State) (i : Nat) (l : Lease) : (s.setLease i l).codeOld = s.codeOld := rfl
@[simp] theorem State.setLease_owners (s : State) (i : Nat) (l : Lease) : (s.setLease i l).owners = s.owners := rfl
@[simp] theorem State.setLease_l2 (s : State) (i : Nat) (l : Lease) : (s.setLease i l).l2 = s.l2 := rfl
@[simp] theorem State.setLease_mvc (s : State) (i : Nat) (l : Lease) : (s.setLease i l).mvc = s.mvc := rfl
@[simp] theorem State.setLease_blooms (s : State) (i : Nat) (l : Lease) : (s.setLease i l).blooms = s.blooms := rfl
@[simp] theorem State.setLease_rowSlots (s : State) (i : Nat) (l : Lease) : (s.setLease i l).rowSlots = s.rowSlots := rfl
@[simp] theorem State.setLease_rowPress (s : State) (i : Nat) (l : Lease) : (s.setLease i l).rowPress = s.rowPress := rfl
@[simp] theorem State.setLease_cores (s : State) (i : Nat) (l : Lease) : (s.setLease i l).cores = s.cores := rfl
@[simp] theorem State.setLease_blocks (s : State) (i : Nat) (l : Lease) : (s.setLease i l).blocks = s.blocks := rfl
@[simp] theorem State.setLease_tasks (s : State) (i : Nat) (l : Lease) : (s.setLease i l).tasks = s.tasks := rfl
@[simp] theorem State.setLease_ops (s : State) (i : Nat) (l : Lease) : (s.setLease i l).ops = s.ops := rfl
@[simp] theorem State.setLease_nextId (s : State) (i : Nat) (l : Lease) : (s.setLease i l).nextId = s.nextId := rfl
@[simp] theorem State.setLease_eligible (s : State) (i : Nat) (l : Lease) : (s.setLease i l).eligible = s.eligible := rfl
@[simp] theorem State.setLease_pool (s : State) (i : Nat) (l : Lease) : (s.setLease i l).pool = s.pool := rfl
@[simp] theorem State.setLease_held (s : State) (i : Nat) (l : Lease) : (s.setLease i l).held = s.held := rfl
@[simp] theorem State.setLease_retry (s : State) (i : Nat) (l : Lease) : (s.setLease i l).retry = s.retry := rfl
@[simp] theorem State.setLease_heldDue (s : State) (i : Nat) (l : Lease) : (s.setLease i l).heldDue = s.heldDue := rfl
@[simp] theorem State.setLease_reserve (s : State) (i : Nat) (l : Lease) : (s.setLease i l).reserve = s.reserve := rfl
@[simp] theorem State.setLease_contexts (s : State) (i : Nat) (l : Lease) : (s.setLease i l).contexts = s.contexts := rfl
@[simp] theorem State.setLease_pages (s : State) (i : Nat) (l : Lease) : (s.setLease i l).pages = s.pages := rfl
@[simp] theorem State.setLease_subs (s : State) (i : Nat) (l : Lease) : (s.setLease i l).subs = s.subs := rfl
@[simp] theorem State.setLease_qsb (s : State) (i : Nat) (l : Lease) : (s.setLease i l).qsb = s.qsb := rfl
@[simp] theorem State.setLease_queues (s : State) (i : Nat) (l : Lease) : (s.setLease i l).queues = s.queues := rfl
@[simp] theorem State.setLease_services (s : State) (i : Nat) (l : Lease) : (s.setLease i l).services = s.services := rfl
@[simp] theorem State.setLease_requests (s : State) (i : Nat) (l : Lease) : (s.setLease i l).requests = s.requests := rfl
@[simp] theorem State.setLease_qcores (s : State) (i : Nat) (l : Lease) : (s.setLease i l).qcores = s.qcores := rfl
@[simp] theorem State.setLease_scores (s : State) (i : Nat) (l : Lease) : (s.setLease i l).scores = s.scores := rfl
@[simp] theorem State.setLease_inval (s : State) (i : Nat) (l : Lease) : (s.setLease i l).inval = s.inval := rfl
@[simp] theorem State.setLease_invalWait (s : State) (i : Nat) (l : Lease) : (s.setLease i l).invalWait = s.invalWait := rfl
@[simp] theorem State.setLease_latigo (s : State) (i : Nat) (l : Lease) : (s.setLease i l).latigo = s.latigo := rfl
@[simp] theorem State.setLease_rings (s : State) (i : Nat) (l : Lease) : (s.setLease i l).rings = s.rings := rfl
@[simp] theorem State.setLease_incoming (s : State) (i : Nat) (l : Lease) : (s.setLease i l).incoming = s.incoming := rfl
@[simp] theorem State.setLease_chunks (s : State) (i : Nat) (l : Lease) : (s.setLease i l).chunks = s.chunks := rfl
@[simp] theorem State.setLease_peerStores (s : State) (i : Nat) (l : Lease) : (s.setLease i l).peerStores = s.peerStores := rfl
@[simp] theorem State.setLease_ck (s : State) (i : Nat) (l : Lease) : (s.setLease i l).ck = s.ck := rfl
@[simp] theorem State.setLease_safeTier (s : State) (i : Nat) (l : Lease) : (s.setLease i l).safeTier = s.safeTier := rfl
@[simp] theorem State.setLease_records (s : State) (i : Nat) (l : Lease) : (s.setLease i l).records = s.records := rfl
@[simp] theorem State.setLease_profQueue (s : State) (i : Nat) (l : Lease) : (s.setLease i l).profQueue = s.profQueue := rfl
@[simp] theorem State.setLease_outbox (s : State) (i : Nat) (l : Lease) : (s.setLease i l).outbox = s.outbox := rfl

/-! ### `State.mapCrews` -/

@[simp] theorem State.mapCrews_turns (s : State) (g : Nat → Nat → Crew → Crew) : (s.mapCrews g).turns = s.turns := rfl
@[simp] theorem State.mapCrews_cur (s : State) (g : Nat → Nat → Crew → Crew) : (s.mapCrews g).cur = s.cur := rfl
@[simp] theorem State.mapCrews_free (s : State) (g : Nat → Nat → Crew → Crew) : (s.mapCrews g).free = s.free := rfl
@[simp] theorem State.mapCrews_boot (s : State) (g : Nat → Nat → Crew → Crew) : (s.mapCrews g).boot = s.boot := rfl
@[simp] theorem State.mapCrews_frozen (s : State) (g : Nat → Nat → Crew → Crew) : (s.mapCrews g).frozen = s.frozen := rfl
@[simp] theorem State.mapCrews_cinchAddr (s : State) (g : Nat → Nat → Crew → Crew) : (s.mapCrews g).cinchAddr = s.cinchAddr := rfl
@[simp] theorem State.mapCrews_jtagIr (s : State) (g : Nat → Nat → Crew → Crew) : (s.mapCrews g).jtagIr = s.jtagIr := rfl
@[simp] theorem State.mapCrews_devTime (s : State) (g : Nat → Nat → Crew → Crew) : (s.mapCrews g).devTime = s.devTime := rfl
@[simp] theorem State.mapCrews_mhz (s : State) (g : Nat → Nat → Crew → Crew) : (s.mapCrews g).mhz = s.mhz := rfl
@[simp] theorem State.mapCrews_clkPart (s : State) (g : Nat → Nat → Crew → Crew) : (s.mapCrews g).clkPart = s.clkPart := rfl
@[simp] theorem State.mapCrews_pers (s : State) (g : Nat → Nat → Crew → Crew) : (s.mapCrews g).pers = s.pers := rfl
@[simp] theorem State.mapCrews_sec (s : State) (g : Nat → Nat → Crew → Crew) : (s.mapCrews g).sec = s.sec := rfl
@[simp] theorem State.mapCrews_ports (s : State) (g : Nat → Nat → Crew → Crew) : (s.mapCrews g).ports = s.ports := rfl
@[simp] theorem State.mapCrews_mem (s : State) (g : Nat → Nat → Crew → Crew) : (s.mapCrews g).mem = s.mem := rfl
@[simp] theorem State.mapCrews_poison (s : State) (g : Nat → Nat → Crew → Crew) : (s.mapCrews g).poison = s.poison := rfl
@[simp] theorem State.mapCrews_resident (s : State) (g : Nat → Nat → Crew → Crew) : (s.mapCrews g).resident = s.resident := rfl
@[simp] theorem State.mapCrews_heat (s : State) (g : Nat → Nat → Crew → Crew) : (s.mapCrews g).heat = s.heat := rfl
@[simp] theorem State.mapCrews_promotions (s : State) (g : Nat → Nat → Crew → Crew) : (s.mapCrews g).promotions = s.promotions := rfl
@[simp] theorem State.mapCrews_pageBits (s : State) (g : Nat → Nat → Crew → Crew) : (s.mapCrews g).pageBits = s.pageBits := rfl
@[simp] theorem State.mapCrews_zone (s : State) (g : Nat → Nat → Crew → Crew) : (s.mapCrews g).zone = s.zone := rfl
@[simp] theorem State.mapCrews_mtus (s : State) (g : Nat → Nat → Crew → Crew) : (s.mapCrews g).mtus = s.mtus := rfl
@[simp] theorem State.mapCrews_codeOld (s : State) (g : Nat → Nat → Crew → Crew) : (s.mapCrews g).codeOld = s.codeOld := rfl
@[simp] theorem State.mapCrews_owners (s : State) (g : Nat → Nat → Crew → Crew) : (s.mapCrews g).owners = s.owners := rfl
@[simp] theorem State.mapCrews_l2 (s : State) (g : Nat → Nat → Crew → Crew) : (s.mapCrews g).l2 = s.l2 := rfl
@[simp] theorem State.mapCrews_mvc (s : State) (g : Nat → Nat → Crew → Crew) : (s.mapCrews g).mvc = s.mvc := rfl
@[simp] theorem State.mapCrews_blooms (s : State) (g : Nat → Nat → Crew → Crew) : (s.mapCrews g).blooms = s.blooms := rfl
@[simp] theorem State.mapCrews_rowSlots (s : State) (g : Nat → Nat → Crew → Crew) : (s.mapCrews g).rowSlots = s.rowSlots := rfl
@[simp] theorem State.mapCrews_rowPress (s : State) (g : Nat → Nat → Crew → Crew) : (s.mapCrews g).rowPress = s.rowPress := rfl
@[simp] theorem State.mapCrews_cores (s : State) (g : Nat → Nat → Crew → Crew) : (s.mapCrews g).cores = s.cores := rfl
@[simp] theorem State.mapCrews_tasks (s : State) (g : Nat → Nat → Crew → Crew) : (s.mapCrews g).tasks = s.tasks := rfl
@[simp] theorem State.mapCrews_ops (s : State) (g : Nat → Nat → Crew → Crew) : (s.mapCrews g).ops = s.ops := rfl
@[simp] theorem State.mapCrews_nextId (s : State) (g : Nat → Nat → Crew → Crew) : (s.mapCrews g).nextId = s.nextId := rfl
@[simp] theorem State.mapCrews_eligible (s : State) (g : Nat → Nat → Crew → Crew) : (s.mapCrews g).eligible = s.eligible := rfl
@[simp] theorem State.mapCrews_pool (s : State) (g : Nat → Nat → Crew → Crew) : (s.mapCrews g).pool = s.pool := rfl
@[simp] theorem State.mapCrews_held (s : State) (g : Nat → Nat → Crew → Crew) : (s.mapCrews g).held = s.held := rfl
@[simp] theorem State.mapCrews_retry (s : State) (g : Nat → Nat → Crew → Crew) : (s.mapCrews g).retry = s.retry := rfl
@[simp] theorem State.mapCrews_heldDue (s : State) (g : Nat → Nat → Crew → Crew) : (s.mapCrews g).heldDue = s.heldDue := rfl
@[simp] theorem State.mapCrews_reserve (s : State) (g : Nat → Nat → Crew → Crew) : (s.mapCrews g).reserve = s.reserve := rfl
@[simp] theorem State.mapCrews_contexts (s : State) (g : Nat → Nat → Crew → Crew) : (s.mapCrews g).contexts = s.contexts := rfl
@[simp] theorem State.mapCrews_pages (s : State) (g : Nat → Nat → Crew → Crew) : (s.mapCrews g).pages = s.pages := rfl
@[simp] theorem State.mapCrews_subs (s : State) (g : Nat → Nat → Crew → Crew) : (s.mapCrews g).subs = s.subs := rfl
@[simp] theorem State.mapCrews_qsb (s : State) (g : Nat → Nat → Crew → Crew) : (s.mapCrews g).qsb = s.qsb := rfl
@[simp] theorem State.mapCrews_queues (s : State) (g : Nat → Nat → Crew → Crew) : (s.mapCrews g).queues = s.queues := rfl
@[simp] theorem State.mapCrews_services (s : State) (g : Nat → Nat → Crew → Crew) : (s.mapCrews g).services = s.services := rfl
@[simp] theorem State.mapCrews_requests (s : State) (g : Nat → Nat → Crew → Crew) : (s.mapCrews g).requests = s.requests := rfl
@[simp] theorem State.mapCrews_qcores (s : State) (g : Nat → Nat → Crew → Crew) : (s.mapCrews g).qcores = s.qcores := rfl
@[simp] theorem State.mapCrews_scores (s : State) (g : Nat → Nat → Crew → Crew) : (s.mapCrews g).scores = s.scores := rfl
@[simp] theorem State.mapCrews_inval (s : State) (g : Nat → Nat → Crew → Crew) : (s.mapCrews g).inval = s.inval := rfl
@[simp] theorem State.mapCrews_invalWait (s : State) (g : Nat → Nat → Crew → Crew) : (s.mapCrews g).invalWait = s.invalWait := rfl
@[simp] theorem State.mapCrews_latigo (s : State) (g : Nat → Nat → Crew → Crew) : (s.mapCrews g).latigo = s.latigo := rfl
@[simp] theorem State.mapCrews_leases (s : State) (g : Nat → Nat → Crew → Crew) : (s.mapCrews g).leases = s.leases := rfl
@[simp] theorem State.mapCrews_rings (s : State) (g : Nat → Nat → Crew → Crew) : (s.mapCrews g).rings = s.rings := rfl
@[simp] theorem State.mapCrews_incoming (s : State) (g : Nat → Nat → Crew → Crew) : (s.mapCrews g).incoming = s.incoming := rfl
@[simp] theorem State.mapCrews_chunks (s : State) (g : Nat → Nat → Crew → Crew) : (s.mapCrews g).chunks = s.chunks := rfl
@[simp] theorem State.mapCrews_peerStores (s : State) (g : Nat → Nat → Crew → Crew) : (s.mapCrews g).peerStores = s.peerStores := rfl
@[simp] theorem State.mapCrews_ck (s : State) (g : Nat → Nat → Crew → Crew) : (s.mapCrews g).ck = s.ck := rfl
@[simp] theorem State.mapCrews_safeTier (s : State) (g : Nat → Nat → Crew → Crew) : (s.mapCrews g).safeTier = s.safeTier := rfl
@[simp] theorem State.mapCrews_records (s : State) (g : Nat → Nat → Crew → Crew) : (s.mapCrews g).records = s.records := rfl
@[simp] theorem State.mapCrews_profQueue (s : State) (g : Nat → Nat → Crew → Crew) : (s.mapCrews g).profQueue = s.profQueue := rfl
@[simp] theorem State.mapCrews_outbox (s : State) (g : Nat → Nat → Crew → Crew) : (s.mapCrews g).outbox = s.outbox := rfl

/-! ### `State.goOn` -/

@[simp] theorem State.goOn_turns (s : State)  : (s.goOn).turns = s.turns := rfl
@[simp] theorem State.goOn_cur (s : State)  : (s.goOn).cur = s.cur := rfl
@[simp] theorem State.goOn_free (s : State)  : (s.goOn).free = s.free := rfl
@[simp] theorem State.goOn_boot (s : State)  : (s.goOn).boot = s.boot := rfl
@[simp] theorem State.goOn_frozen (s : State)  : (s.goOn).frozen = s.frozen := rfl
@[simp] theorem State.goOn_cinchAddr (s : State)  : (s.goOn).cinchAddr = s.cinchAddr := rfl
@[simp] theorem State.goOn_jtagIr (s : State)  : (s.goOn).jtagIr = s.jtagIr := rfl
@[simp] theorem State.goOn_devTime (s : State)  : (s.goOn).devTime = s.devTime := rfl
@[simp] theorem State.goOn_mhz (s : State)  : (s.goOn).mhz = s.mhz := rfl
@[simp] theorem State.goOn_clkPart (s : State)  : (s.goOn).clkPart = s.clkPart := rfl
@[simp] theorem State.goOn_pers (s : State)  : (s.goOn).pers = s.pers := rfl
@[simp] theorem State.goOn_sec (s : State)  : (s.goOn).sec = s.sec := rfl
@[simp] theorem State.goOn_ports (s : State)  : (s.goOn).ports = s.ports := rfl
@[simp] theorem State.goOn_mem (s : State)  : (s.goOn).mem = s.mem := rfl
@[simp] theorem State.goOn_poison (s : State)  : (s.goOn).poison = s.poison := rfl
@[simp] theorem State.goOn_resident (s : State)  : (s.goOn).resident = s.resident := rfl
@[simp] theorem State.goOn_heat (s : State)  : (s.goOn).heat = s.heat := rfl
@[simp] theorem State.goOn_promotions (s : State)  : (s.goOn).promotions = s.promotions := rfl
@[simp] theorem State.goOn_pageBits (s : State)  : (s.goOn).pageBits = s.pageBits := rfl
@[simp] theorem State.goOn_zone (s : State)  : (s.goOn).zone = s.zone := rfl
@[simp] theorem State.goOn_mtus (s : State)  : (s.goOn).mtus = s.mtus := rfl
@[simp] theorem State.goOn_codeOld (s : State)  : (s.goOn).codeOld = s.codeOld := rfl
@[simp] theorem State.goOn_owners (s : State)  : (s.goOn).owners = s.owners := rfl
@[simp] theorem State.goOn_l2 (s : State)  : (s.goOn).l2 = s.l2 := rfl
@[simp] theorem State.goOn_mvc (s : State)  : (s.goOn).mvc = s.mvc := rfl
@[simp] theorem State.goOn_blooms (s : State)  : (s.goOn).blooms = s.blooms := rfl
@[simp] theorem State.goOn_rowSlots (s : State)  : (s.goOn).rowSlots = s.rowSlots := rfl
@[simp] theorem State.goOn_rowPress (s : State)  : (s.goOn).rowPress = s.rowPress := rfl
@[simp] theorem State.goOn_cores (s : State)  : (s.goOn).cores = s.cores := rfl
@[simp] theorem State.goOn_tasks (s : State)  : (s.goOn).tasks = s.tasks := rfl
@[simp] theorem State.goOn_ops (s : State)  : (s.goOn).ops = s.ops := rfl
@[simp] theorem State.goOn_nextId (s : State)  : (s.goOn).nextId = s.nextId := rfl
@[simp] theorem State.goOn_eligible (s : State)  : (s.goOn).eligible = s.eligible := rfl
@[simp] theorem State.goOn_pool (s : State)  : (s.goOn).pool = s.pool := rfl
@[simp] theorem State.goOn_held (s : State)  : (s.goOn).held = s.held := rfl
@[simp] theorem State.goOn_retry (s : State)  : (s.goOn).retry = s.retry := rfl
@[simp] theorem State.goOn_heldDue (s : State)  : (s.goOn).heldDue = s.heldDue := rfl
@[simp] theorem State.goOn_reserve (s : State)  : (s.goOn).reserve = s.reserve := rfl
@[simp] theorem State.goOn_contexts (s : State)  : (s.goOn).contexts = s.contexts := rfl
@[simp] theorem State.goOn_pages (s : State)  : (s.goOn).pages = s.pages := rfl
@[simp] theorem State.goOn_subs (s : State)  : (s.goOn).subs = s.subs := rfl
@[simp] theorem State.goOn_qsb (s : State)  : (s.goOn).qsb = s.qsb := rfl
@[simp] theorem State.goOn_queues (s : State)  : (s.goOn).queues = s.queues := rfl
@[simp] theorem State.goOn_services (s : State)  : (s.goOn).services = s.services := rfl
@[simp] theorem State.goOn_requests (s : State)  : (s.goOn).requests = s.requests := rfl
@[simp] theorem State.goOn_qcores (s : State)  : (s.goOn).qcores = s.qcores := rfl
@[simp] theorem State.goOn_scores (s : State)  : (s.goOn).scores = s.scores := rfl
@[simp] theorem State.goOn_inval (s : State)  : (s.goOn).inval = s.inval := rfl
@[simp] theorem State.goOn_invalWait (s : State)  : (s.goOn).invalWait = s.invalWait := rfl
@[simp] theorem State.goOn_latigo (s : State)  : (s.goOn).latigo = s.latigo := rfl
@[simp] theorem State.goOn_leases (s : State)  : (s.goOn).leases = s.leases := rfl
@[simp] theorem State.goOn_rings (s : State)  : (s.goOn).rings = s.rings := rfl
@[simp] theorem State.goOn_incoming (s : State)  : (s.goOn).incoming = s.incoming := rfl
@[simp] theorem State.goOn_chunks (s : State)  : (s.goOn).chunks = s.chunks := rfl
@[simp] theorem State.goOn_peerStores (s : State)  : (s.goOn).peerStores = s.peerStores := rfl
@[simp] theorem State.goOn_ck (s : State)  : (s.goOn).ck = s.ck := rfl
@[simp] theorem State.goOn_safeTier (s : State)  : (s.goOn).safeTier = s.safeTier := rfl
@[simp] theorem State.goOn_records (s : State)  : (s.goOn).records = s.records := rfl
@[simp] theorem State.goOn_profQueue (s : State)  : (s.goOn).profQueue = s.profQueue := rfl
@[simp] theorem State.goOn_outbox (s : State)  : (s.goOn).outbox = s.outbox := rfl

/-! ### Crews and fibres -/

@[simp] theorem Crew.updFibre_live (c : Crew) (i : Nat) (g : Fibre → Fibre) : (c.updFibre i g).live = c.live := rfl
@[simp] theorem Crew.mapMask_live (c : Crew) (m : Mask) (g : Nat → Fibre → Fibre) : (c.mapMask m g).live = c.live := rfl
@[simp] theorem Crew.updFibre_filled (c : Crew) (i : Nat) (g : Fibre → Fibre) : (c.updFibre i g).filled = c.filled := rfl
@[simp] theorem Crew.mapMask_filled (c : Crew) (m : Mask) (g : Nat → Fibre → Fibre) : (c.mapMask m g).filled = c.filled := rfl
@[simp] theorem Crew.updFibre_slot (c : Crew) (i : Nat) (g : Fibre → Fibre) : (c.updFibre i g).slot = c.slot := rfl
@[simp] theorem Crew.mapMask_slot (c : Crew) (m : Mask) (g : Nat → Fibre → Fibre) : (c.mapMask m g).slot = c.slot := rfl
@[simp] theorem Crew.updFibre_unitBase (c : Crew) (i : Nat) (g : Fibre → Fibre) : (c.updFibre i g).unitBase = c.unitBase := rfl
@[simp] theorem Crew.mapMask_unitBase (c : Crew) (m : Mask) (g : Nat → Fibre → Fibre) : (c.mapMask m g).unitBase = c.unitBase := rfl
@[simp] theorem Crew.updFibre_units (c : Crew) (i : Nat) (g : Fibre → Fibre) : (c.updFibre i g).units = c.units := rfl
@[simp] theorem Crew.mapMask_units (c : Crew) (m : Mask) (g : Nat → Fibre → Fibre) : (c.mapMask m g).units = c.units := rfl
@[simp] theorem Crew.updFibre_shadowBase (c : Crew) (i : Nat) (g : Fibre → Fibre) : (c.updFibre i g).shadowBase = c.shadowBase := rfl
@[simp] theorem Crew.mapMask_shadowBase (c : Crew) (m : Mask) (g : Nat → Fibre → Fibre) : (c.mapMask m g).shadowBase = c.shadowBase := rfl
@[simp] theorem Crew.updFibre_mode (c : Crew) (i : Nat) (g : Fibre → Fibre) : (c.updFibre i g).mode = c.mode := rfl
@[simp] theorem Crew.mapMask_mode (c : Crew) (m : Mask) (g : Nat → Fibre → Fibre) : (c.mapMask m g).mode = c.mode := rfl
@[simp] theorem Crew.updFibre_level (c : Crew) (i : Nat) (g : Fibre → Fibre) : (c.updFibre i g).level = c.level := rfl
@[simp] theorem Crew.mapMask_level (c : Crew) (m : Mask) (g : Nat → Fibre → Fibre) : (c.mapMask m g).level = c.level := rfl
@[simp] theorem Crew.updFibre_credit (c : Crew) (i : Nat) (g : Fibre → Fibre) : (c.updFibre i g).credit = c.credit := rfl
@[simp] theorem Crew.mapMask_credit (c : Crew) (m : Mask) (g : Nat → Fibre → Fibre) : (c.mapMask m g).credit = c.credit := rfl
@[simp] theorem Crew.updFibre_issued (c : Crew) (i : Nat) (g : Fibre → Fibre) : (c.updFibre i g).issued = c.issued := rfl
@[simp] theorem Crew.mapMask_issued (c : Crew) (m : Mask) (g : Nat → Fibre → Fibre) : (c.mapMask m g).issued = c.issued := rfl
@[simp] theorem Crew.updFibre_rot (c : Crew) (i : Nat) (g : Fibre → Fibre) : (c.updFibre i g).rot = c.rot := rfl
@[simp] theorem Crew.mapMask_rot (c : Crew) (m : Mask) (g : Nat → Fibre → Fibre) : (c.mapMask m g).rot = c.rot := rfl
@[simp] theorem Crew.updFibre_rotating (c : Crew) (i : Nat) (g : Fibre → Fibre) : (c.updFibre i g).rotating = c.rotating := rfl
@[simp] theorem Crew.mapMask_rotating (c : Crew) (m : Mask) (g : Nat → Fibre → Fibre) : (c.mapMask m g).rotating = c.rotating := rfl
@[simp] theorem Crew.updFibre_yieldAbove (c : Crew) (i : Nat) (g : Fibre → Fibre) : (c.updFibre i g).yieldAbove = c.yieldAbove := rfl
@[simp] theorem Crew.mapMask_yieldAbove (c : Crew) (m : Mask) (g : Nat → Fibre → Fibre) : (c.mapMask m g).yieldAbove = c.yieldAbove := rfl
@[simp] theorem Crew.updFibre_counters (c : Crew) (i : Nat) (g : Fibre → Fibre) : (c.updFibre i g).counters = c.counters := rfl
@[simp] theorem Crew.mapMask_counters (c : Crew) (m : Mask) (g : Nat → Fibre → Fibre) : (c.mapMask m g).counters = c.counters := rfl
@[simp] theorem Crew.updFibre_stalls (c : Crew) (i : Nat) (g : Fibre → Fibre) : (c.updFibre i g).stalls = c.stalls := rfl
@[simp] theorem Crew.mapMask_stalls (c : Crew) (m : Mask) (g : Nat → Fibre → Fibre) : (c.mapMask m g).stalls = c.stalls := rfl
@[simp] theorem Crew.updFibre_stallClass (c : Crew) (i : Nat) (g : Fibre → Fibre) : (c.updFibre i g).stallClass = c.stallClass := rfl
@[simp] theorem Crew.mapMask_stallClass (c : Crew) (m : Mask) (g : Nat → Fibre → Fibre) : (c.mapMask m g).stallClass = c.stallClass := rfl
@[simp] theorem Crew.updFibre_frame (c : Crew) (i : Nat) (g : Fibre → Fibre) : (c.updFibre i g).frame = c.frame := rfl
@[simp] theorem Crew.mapMask_frame (c : Crew) (m : Mask) (g : Nat → Fibre → Fibre) : (c.mapMask m g).frame = c.frame := rfl
@[simp] theorem Crew.updFibre_replay (c : Crew) (i : Nat) (g : Fibre → Fibre) : (c.updFibre i g).replay = c.replay := rfl
@[simp] theorem Crew.mapMask_replay (c : Crew) (m : Mask) (g : Nat → Fibre → Fibre) : (c.mapMask m g).replay = c.replay := rfl
@[simp] theorem Crew.updFibre_tr (c : Crew) (i : Nat) (g : Fibre → Fibre) : (c.updFibre i g).tr = c.tr := rfl
@[simp] theorem Crew.mapMask_tr (c : Crew) (m : Mask) (g : Nat → Fibre → Fibre) : (c.mapMask m g).tr = c.tr := rfl
@[simp] theorem Crew.updFibre_pend (c : Crew) (i : Nat) (g : Fibre → Fibre) : (c.updFibre i g).pend = c.pend := rfl
@[simp] theorem Crew.mapMask_pend (c : Crew) (m : Mask) (g : Nat → Fibre → Fibre) : (c.mapMask m g).pend = c.pend := rfl
@[simp] theorem Crew.updFibre_pendTraps (c : Crew) (i : Nat) (g : Fibre → Fibre) : (c.updFibre i g).pendTraps = c.pendTraps := rfl
@[simp] theorem Crew.mapMask_pendTraps (c : Crew) (m : Mask) (g : Nat → Fibre → Fibre) : (c.mapMask m g).pendTraps = c.pendTraps := rfl
@[simp] theorem Crew.updFibre_fatals (c : Crew) (i : Nat) (g : Fibre → Fibre) : (c.updFibre i g).fatals = c.fatals := rfl
@[simp] theorem Crew.mapMask_fatals (c : Crew) (m : Mask) (g : Nat → Fibre → Fibre) : (c.mapMask m g).fatals = c.fatals := rfl
@[simp] theorem Crew.updFibre_lastFend (c : Crew) (i : Nat) (g : Fibre → Fibre) : (c.updFibre i g).lastFend = c.lastFend := rfl
@[simp] theorem Crew.mapMask_lastFend (c : Crew) (m : Mask) (g : Nat → Fibre → Fibre) : (c.mapMask m g).lastFend = c.lastFend := rfl
@[simp] theorem Crew.updFibre_rowWait (c : Crew) (i : Nat) (g : Fibre → Fibre) : (c.updFibre i g).rowWait = c.rowWait := rfl
@[simp] theorem Crew.mapMask_rowWait (c : Crew) (m : Mask) (g : Nat → Fibre → Fibre) : (c.mapMask m g).rowWait = c.rowWait := rfl
@[simp] theorem Crew.updFibre_partway (c : Crew) (i : Nat) (g : Fibre → Fibre) : (c.updFibre i g).partway = c.partway := rfl
@[simp] theorem Crew.mapMask_partway (c : Crew) (m : Mask) (g : Nat → Fibre → Fibre) : (c.mapMask m g).partway = c.partway := rfl
@[simp] theorem Crew.updFibre_moving (c : Crew) (i : Nat) (g : Fibre → Fibre) : (c.updFibre i g).moving = c.moving := rfl
@[simp] theorem Crew.mapMask_moving (c : Crew) (m : Mask) (g : Nat → Fibre → Fibre) : (c.mapMask m g).moving = c.moving := rfl
@[simp] theorem Crew.addFlags_fibres (c : Crew) (e : BitVec 5) : (c.addFlags e).fibres = c.fibres := rfl
@[simp] theorem Crew.addFlags_live (c : Crew) (e : BitVec 5) : (c.addFlags e).live = c.live := rfl
@[simp] theorem Crew.addFlags_filled (c : Crew) (e : BitVec 5) : (c.addFlags e).filled = c.filled := rfl
@[simp] theorem Crew.addFlags_slot (c : Crew) (e : BitVec 5) : (c.addFlags e).slot = c.slot := rfl
@[simp] theorem Crew.addFlags_unitBase (c : Crew) (e : BitVec 5) : (c.addFlags e).unitBase = c.unitBase := rfl
@[simp] theorem Crew.addFlags_units (c : Crew) (e : BitVec 5) : (c.addFlags e).units = c.units := rfl
@[simp] theorem Crew.addFlags_shadowBase (c : Crew) (e : BitVec 5) : (c.addFlags e).shadowBase = c.shadowBase := rfl
@[simp] theorem Crew.addFlags_level (c : Crew) (e : BitVec 5) : (c.addFlags e).level = c.level := rfl
@[simp] theorem Crew.addFlags_credit (c : Crew) (e : BitVec 5) : (c.addFlags e).credit = c.credit := rfl
@[simp] theorem Crew.addFlags_issued (c : Crew) (e : BitVec 5) : (c.addFlags e).issued = c.issued := rfl
@[simp] theorem Crew.addFlags_rot (c : Crew) (e : BitVec 5) : (c.addFlags e).rot = c.rot := rfl
@[simp] theorem Crew.addFlags_rotating (c : Crew) (e : BitVec 5) : (c.addFlags e).rotating = c.rotating := rfl
@[simp] theorem Crew.addFlags_yieldAbove (c : Crew) (e : BitVec 5) : (c.addFlags e).yieldAbove = c.yieldAbove := rfl
@[simp] theorem Crew.addFlags_counters (c : Crew) (e : BitVec 5) : (c.addFlags e).counters = c.counters := rfl
@[simp] theorem Crew.addFlags_stalls (c : Crew) (e : BitVec 5) : (c.addFlags e).stalls = c.stalls := rfl
@[simp] theorem Crew.addFlags_stallClass (c : Crew) (e : BitVec 5) : (c.addFlags e).stallClass = c.stallClass := rfl
@[simp] theorem Crew.addFlags_frame (c : Crew) (e : BitVec 5) : (c.addFlags e).frame = c.frame := rfl
@[simp] theorem Crew.addFlags_replay (c : Crew) (e : BitVec 5) : (c.addFlags e).replay = c.replay := rfl
@[simp] theorem Crew.addFlags_tr (c : Crew) (e : BitVec 5) : (c.addFlags e).tr = c.tr := rfl
@[simp] theorem Crew.addFlags_pend (c : Crew) (e : BitVec 5) : (c.addFlags e).pend = c.pend := rfl
@[simp] theorem Crew.addFlags_pendTraps (c : Crew) (e : BitVec 5) : (c.addFlags e).pendTraps = c.pendTraps := rfl
@[simp] theorem Crew.addFlags_fatals (c : Crew) (e : BitVec 5) : (c.addFlags e).fatals = c.fatals := rfl
@[simp] theorem Crew.addFlags_lastFend (c : Crew) (e : BitVec 5) : (c.addFlags e).lastFend = c.lastFend := rfl
@[simp] theorem Crew.addFlags_rowWait (c : Crew) (e : BitVec 5) : (c.addFlags e).rowWait = c.rowWait := rfl
@[simp] theorem Crew.addFlags_partway (c : Crew) (e : BitVec 5) : (c.addFlags e).partway = c.partway := rfl
@[simp] theorem Crew.addFlags_moving (c : Crew) (e : BitVec 5) : (c.addFlags e).moving = c.moving := rfl
@[simp] theorem Fibre.setReg_st (fb : Fibre) (n : Nat) (v : Word) : (fb.setReg n v).st = fb.st := rfl
@[simp] theorem Fibre.tick_st (fb : Fibre) : fb.tick.st = fb.st := rfl
@[simp] theorem Fibre.next_st (fb : Fibre) : fb.next.st = fb.st := rfl
@[simp] theorem Fibre.goto_st (fb : Fibre) (p : Word) : (fb.goto p).st = fb.st := rfl
@[simp] theorem Fibre.setReg_pc (fb : Fibre) (n : Nat) (v : Word) : (fb.setReg n v).pc = fb.pc := rfl
@[simp] theorem Fibre.tick_pc (fb : Fibre) : fb.tick.pc = fb.pc := rfl
@[simp] theorem Fibre.wake_pc (fb : Fibre) : fb.wake.pc = fb.pc := rfl
@[simp] theorem Fibre.setReg_past (fb : Fibre) (n : Nat) (v : Word) : (fb.setReg n v).past = fb.past := rfl
@[simp] theorem Fibre.tick_past (fb : Fibre) : fb.tick.past = fb.past := rfl
@[simp] theorem Fibre.wake_past (fb : Fibre) : fb.wake.past = fb.past := rfl
@[simp] theorem Fibre.tick_regs (fb : Fibre) : fb.tick.regs = fb.regs := rfl
@[simp] theorem Fibre.next_regs (fb : Fibre) : fb.next.regs = fb.regs := rfl
@[simp] theorem Fibre.goto_regs (fb : Fibre) (p : Word) : (fb.goto p).regs = fb.regs := rfl
@[simp] theorem Fibre.wake_regs (fb : Fibre) : fb.wake.regs = fb.regs := rfl
@[simp] theorem Fibre.setReg_wait (fb : Fibre) (n : Nat) (v : Word) : (fb.setReg n v).wait = fb.wait := rfl
@[simp] theorem Fibre.tick_wait (fb : Fibre) : fb.tick.wait = fb.wait := rfl
@[simp] theorem Fibre.next_wait (fb : Fibre) : fb.next.wait = fb.wait := rfl
@[simp] theorem Fibre.goto_wait (fb : Fibre) (p : Word) : (fb.goto p).wait = fb.wait := rfl
@[simp] theorem Fibre.setReg_waitF (fb : Fibre) (n : Nat) (v : Word) : (fb.setReg n v).waitF = fb.waitF := rfl
@[simp] theorem Fibre.tick_waitF (fb : Fibre) : fb.tick.waitF = fb.waitF := rfl
@[simp] theorem Fibre.next_waitF (fb : Fibre) : fb.next.waitF = fb.waitF := rfl
@[simp] theorem Fibre.goto_waitF (fb : Fibre) (p : Word) : (fb.goto p).waitF = fb.waitF := rfl
@[simp] theorem Fibre.wake_waitF (fb : Fibre) : fb.wake.waitF = fb.waitF := rfl
@[simp] theorem Fibre.setReg_waitFrom (fb : Fibre) (n : Nat) (v : Word) : (fb.setReg n v).waitFrom = fb.waitFrom := rfl
@[simp] theorem Fibre.tick_waitFrom (fb : Fibre) : fb.tick.waitFrom = fb.waitFrom := rfl
@[simp] theorem Fibre.next_waitFrom (fb : Fibre) : fb.next.waitFrom = fb.waitFrom := rfl
@[simp] theorem Fibre.goto_waitFrom (fb : Fibre) (p : Word) : (fb.goto p).waitFrom = fb.waitFrom := rfl
@[simp] theorem Fibre.wake_waitFrom (fb : Fibre) : fb.wake.waitFrom = fb.waitFrom := rfl
@[simp] theorem Fibre.setReg_waitSeq (fb : Fibre) (n : Nat) (v : Word) : (fb.setReg n v).waitSeq = fb.waitSeq := rfl
@[simp] theorem Fibre.tick_waitSeq (fb : Fibre) : fb.tick.waitSeq = fb.waitSeq := rfl
@[simp] theorem Fibre.next_waitSeq (fb : Fibre) : fb.next.waitSeq = fb.waitSeq := rfl
@[simp] theorem Fibre.goto_waitSeq (fb : Fibre) (p : Word) : (fb.goto p).waitSeq = fb.waitSeq := rfl
@[simp] theorem Fibre.setReg_fenceFrom (fb : Fibre) (n : Nat) (v : Word) : (fb.setReg n v).fenceFrom = fb.fenceFrom := rfl
@[simp] theorem Fibre.tick_fenceFrom (fb : Fibre) : fb.tick.fenceFrom = fb.fenceFrom := rfl
@[simp] theorem Fibre.wake_fenceFrom (fb : Fibre) : fb.wake.fenceFrom = fb.fenceFrom := rfl
@[simp] theorem Fibre.setReg_tornAt (fb : Fibre) (n : Nat) (v : Word) : (fb.setReg n v).tornAt = fb.tornAt := rfl
@[simp] theorem Fibre.tick_tornAt (fb : Fibre) : fb.tick.tornAt = fb.tornAt := rfl
@[simp] theorem Fibre.wake_tornAt (fb : Fibre) : fb.wake.tornAt = fb.tornAt := rfl
@[simp] theorem Fibre.setReg_acted (fb : Fibre) (n : Nat) (v : Word) : (fb.setReg n v).acted = fb.acted := rfl
@[simp] theorem Fibre.tick_acted (fb : Fibre) : fb.tick.acted = fb.acted := rfl
@[simp] theorem Fibre.wake_acted (fb : Fibre) : fb.wake.acted = fb.acted := rfl
@[simp] theorem Fibre.setReg_monitor (fb : Fibre) (n : Nat) (v : Word) : (fb.setReg n v).monitor = fb.monitor := rfl
@[simp] theorem Fibre.tick_monitor (fb : Fibre) : fb.tick.monitor = fb.monitor := rfl
@[simp] theorem Fibre.next_monitor (fb : Fibre) : fb.next.monitor = fb.monitor := rfl
@[simp] theorem Fibre.goto_monitor (fb : Fibre) (p : Word) : (fb.goto p).monitor = fb.monitor := rfl
@[simp] theorem Fibre.wake_monitor (fb : Fibre) : fb.wake.monitor = fb.monitor := rfl
@[simp] theorem Fibre.setReg_windows (fb : Fibre) (n : Nat) (v : Word) : (fb.setReg n v).windows = fb.windows := rfl
@[simp] theorem Fibre.wake_windows (fb : Fibre) : fb.wake.windows = fb.windows := rfl
@[simp] theorem Fibre.setReg_parkPage (fb : Fibre) (n : Nat) (v : Word) : (fb.setReg n v).parkPage = fb.parkPage := rfl
@[simp] theorem Fibre.tick_parkPage (fb : Fibre) : fb.tick.parkPage = fb.parkPage := rfl
@[simp] theorem Fibre.next_parkPage (fb : Fibre) : fb.next.parkPage = fb.parkPage := rfl
@[simp] theorem Fibre.goto_parkPage (fb : Fibre) (p : Word) : (fb.goto p).parkPage = fb.parkPage := rfl
@[simp] theorem Fibre.wake_parkPage (fb : Fibre) : fb.wake.parkPage = fb.parkPage := rfl
@[simp] theorem Fibre.setReg_parkLost (fb : Fibre) (n : Nat) (v : Word) : (fb.setReg n v).parkLost = fb.parkLost := rfl
@[simp] theorem Fibre.tick_parkLost (fb : Fibre) : fb.tick.parkLost = fb.parkLost := rfl
@[simp] theorem Fibre.next_parkLost (fb : Fibre) : fb.next.parkLost = fb.parkLost := rfl
@[simp] theorem Fibre.goto_parkLost (fb : Fibre) (p : Word) : (fb.goto p).parkLost = fb.parkLost := rfl
@[simp] theorem Fibre.wake_parkLost (fb : Fibre) : fb.wake.parkLost = fb.parkLost := rfl
@[simp] theorem Fibre.setReg_framePc (fb : Fibre) (n : Nat) (v : Word) : (fb.setReg n v).framePc = fb.framePc := rfl
@[simp] theorem Fibre.tick_framePc (fb : Fibre) : fb.tick.framePc = fb.framePc := rfl
@[simp] theorem Fibre.next_framePc (fb : Fibre) : fb.next.framePc = fb.framePc := rfl
@[simp] theorem Fibre.goto_framePc (fb : Fibre) (p : Word) : (fb.goto p).framePc = fb.framePc := rfl
@[simp] theorem Fibre.wake_framePc (fb : Fibre) : fb.wake.framePc = fb.framePc := rfl
@[simp] theorem Fibre.setReg_frameActed (fb : Fibre) (n : Nat) (v : Word) : (fb.setReg n v).frameActed = fb.frameActed := rfl
@[simp] theorem Fibre.tick_frameActed (fb : Fibre) : fb.tick.frameActed = fb.frameActed := rfl
@[simp] theorem Fibre.next_frameActed (fb : Fibre) : fb.next.frameActed = fb.frameActed := rfl
@[simp] theorem Fibre.goto_frameActed (fb : Fibre) (p : Word) : (fb.goto p).frameActed = fb.frameActed := rfl
@[simp] theorem Fibre.wake_frameActed (fb : Fibre) : fb.wake.frameActed = fb.frameActed := rfl
@[simp] theorem Fibre.next_acted (fb : Fibre) : fb.next.acted = false := rfl
@[simp] theorem Fibre.goto_acted (fb : Fibre) (p : Word) : (fb.goto p).acted = false := rfl
@[simp] theorem Fibre.next_fenceFrom (fb : Fibre) : fb.next.fenceFrom = none := rfl
@[simp] theorem Fibre.goto_fenceFrom (fb : Fibre) (p : Word) : (fb.goto p).fenceFrom = none := rfl
@[simp] theorem Fibre.next_tornAt (fb : Fibre) : fb.next.tornAt = none := rfl
@[simp] theorem Fibre.goto_tornAt (fb : Fibre) (p : Word) : (fb.goto p).tornAt = none := rfl
@[simp] theorem Fibre.next_pc (fb : Fibre) : fb.next.pc = fb.pc + 1 := rfl
@[simp] theorem Fibre.goto_pc (fb : Fibre) (p : Word) : (fb.goto p).pc = p := rfl
@[simp] theorem Fibre.wake_st (fb : Fibre) : fb.wake.st = .runnable := rfl

end Sys2Proof.Machine
end

