-- ==== Sys2Proof/Laws/Traps.lean ====
section
/-! SUPPORT. What leaving a try, entering a handler and returning from one do to a crew, and what an access does besides its bytes:
one lemma for each shared operation. -/

namespace Sys2Proof.Machine
open Bits

/-! ### Tries -/

theorem State.noTry_none {s : State} (f : Fields) (g : Nat) (k : State → Result) (h : s.curCrew.tr = none) : s.noTry f g k = k s := by
  unfold State.noTry; rw [h]
/-- Without an acting member a try is not touched. -/
theorem State.noTry_outside {s : State} {t : Try} (f : Fields) (g : Nat) (k : State → Result) (h : s.curCrew.tr = some t)
    (hm : s.actMask f &&& t.members = 0) : s.noTry f g k = k s := by
  unfold State.noTry; rw [h]; simp [hm]

@[simp] theorem Crew.abortTry_none (c : Crew) (m : Mask) (w : Word) (h : c.tr = none) : c.abortTry m w = c := by
  unfold Crew.abortTry; rw [h]
/-- Fibres that leave their strand are found in no swap's wait. -/
theorem Crew.quit_rowWait (c : Crew) (m : Mask) (w : RowWait) (h : (c.quit m).rowWait = some w) : w.mask &&& m = 0 := by
  obtain ⟨v, -, hv⟩ := Option.bind_eq_some_iff.mp h
  split at hv
  · cases hv
  · cases hv
    exact BitVec.eq_of_getLsbD_eq fun i hi => by simp
/-- An abort leaves everything of the crew but its fibres, its pending results and waiting traps, the swap it awaits and the try itself. -/
theorem Crew.abortTry_frame (c : Crew) (m : Mask) (w : Word) :
    { c.abortTry m w with fibres := c.fibres, pend := c.pend, tr := c.tr, rowWait := c.rowWait, pendTraps := c.pendTraps } = c := by
  unfold Crew.abortTry
  split
  · rfl
  · rename_i t h
    dsimp only
    generalize (if m &&& t.members == 0 then (0 : Mask) else if t.crewMode then t.members else m &&& t.members) = out
    split <;> rfl
@[simp] theorem Crew.abortTry_length (c : Crew) (m : Mask) (w : Word) : (c.abortTry m w).fibres.length = c.fibres.length := by
  unfold Crew.abortTry
  split
  · rfl
  · rename_i t h
    dsimp only
    generalize (if m &&& t.members == 0 then (0 : Mask) else if t.crewMode then t.members else m &&& t.members) = out
    split <;> simp
/-- Aborting every member ends the try. -/
theorem Crew.abortTry_all (c : Crew) {t : Try} (m : Mask) (w : Word) (h : c.tr = some t) (hm : t.members &&& ~~~m = 0) :
    (c.abortTry m w).tr = none := by
  unfold Crew.abortTry; rw [h]; simp only []
  have key : ∀ x y : Mask, x &&& ~~~y = 0 → x &&& ~~~(if y &&& x == 0 then 0 else if t.crewMode then x else y &&& x) = 0 := by
    intro x y hxy
    have hx : x &&& ~~~(y &&& x) = 0 := by
      rw [BitVec.not_and]
      refine BitVec.eq_of_getLsbD_eq fun i hi => ?_
      have := congrArg (·.getLsbD i) hxy
      simp [hi] at this ⊢
      exact fun a => ⟨this a, a⟩
    split
    · rename_i h0
      have h1 : y &&& x = 0 := eq_of_beq h0
      rw [h1] at hx; simpa using hx
    · split
      · exact BitVec.eq_of_getLsbD_eq fun i hi => by simp [hi]
      · exact hx
  rw [if_pos (by rw [key _ _ hm]; rfl)]

/-! ### Handler mode (R395, R420) -/

theorem Crew.addFlags_other (c : Crew) (e : BitVec 5) : { c.addFlags e with mode := c.mode } = c := rfl
/-- Entering the handler fills the frame with what the trap names, and leaves no rotation open. -/
theorem Crew.enterHandler_frame (c : Crew) (m : Mask) (hpc : Word) (e : Event) (f : Option Nat) :
    ∃ fr, (c.enterHandler m hpc e f).frame = some fr ∧ fr.cause = e.cause ∧ fr.src = e.src ∧ fr.slot = e.slot ∧ fr.ref = e.ref ∧
      fr.arg0 = e.arg0 ∧ fr.set = m ∧ (c.enterHandler m hpc e f).rotating = [] ∧ (c.enterHandler m hpc e f).yieldAbove = none :=
  ⟨_, rfl, by and_intros <;> rfl⟩
/-- The return ends handler mode; entries that the handler dropped are gone. -/
theorem Crew.leaveHandler_frame (c : Crew) (r : Return) (fr : Frame) (h : c.frame = some fr) :
    (c.leaveHandler r).frame = none ∧ (c.leaveHandler r).replay = c.replay.filter (fun x => !x.dropped) ∧
      (c.leaveHandler r).mode = c.mode := by
  unfold Crew.leaveHandler; rw [h]; exact ⟨rfl, rfl, rfl⟩

/-! ### What an access does besides its bytes (R228, R230, R237 to R239) -/

/-- A store to a place of this part puts its bytes there; one to a peer's page leaves memory as it is (R442). -/
theorem State.store_mem (s : State) (ag : Agent) (t : Nat) (o : Option Nat) (a : Acc) (str : Bool) (l : List Byte) :
    (s.store ag t o a str l).mem = if a.place.peer = none then Sparse.putN memDefault s.mem a.place.phys l else s.mem := by
  unfold State.store
  split
  · rename_i h; rw [h]; simp only [reduceCtorEq, if_false]; exact State.note_mem s a true str
  · rename_i h; rw [h]; simp only [if_true]; rw [State.storeBytes_mem, State.note_mem]
theorem State.store_wf {s : State} (h : s.memOk) (ag : Agent) (t : Nat) (o : Option Nat) (a : Acc) (str : Bool) (l : List Byte) :
    (s.store ag t o a str l).memOk := by
  unfold State.memOk
  rw [State.store_mem]
  split
  · exact Sparse.putN_wf h _ _
  · exact h

end Sys2Proof.Machine
end

