-- ==== Sys2Proof/Tests/Slice0.lean ====
section
/-! SUPPORT. Tests: the words of the encoding tables, ill-formed terms, one-step tests of the instructions and events, and for each
statement with hypotheses a state that meets them. Expected values come from the manual's examples or from hand calculation by
the rule named. -/

namespace Sys2Proof.Tests
open Machine Safety Claims Bits

-- One theorem at a time: the kernel's evaluations side by side run out of threads.
set_option Elab.async false

/-! ### Words (R79, R93) -/

/-- A word from its fields (R79): OP [95:86], no guard, FORM [78:76], D [75:68], A [67:60], B [59:52], X [51:20], LOOK [19:16], MOD [11:0]. -/
def word (op form d a b x look md : Nat) : IWord :=
  BitVec.ofNat 96 (op * 2 ^ 86 + form * 2 ^ 76 + d * 2 ^ 68 + a * 2 ^ 60 + b * 2 ^ 52 + x * 2 ^ 20 + look * 2 ^ 16 + md)

theorem test_decode_group_00 : ∀ p ∈ ([
    (word 0x000 2 20 6 12 0xfffffffe 0 0x100, .iadd { form := .rri, d := 20, a := 6, b := 12, x := 0xfffffffe, md := 0x100 }),
    (word 0x001 3 20 6 12 0x0 0 0x20, .isub { form := .pair, d := 20, a := 6, b := 12, md := 0x20 }),
    (word 0x002 0 20 6 12 0x11 0 0x11, .iaddc { d := 20, a := 6, b := 12, x := 0x11, md := 0x11 }),
    (word 0x003 0 20 6 0 0x0 0 0x100, .ineg { d := 20, a := 6, md := 0x100 }),
    (word 0x004 3 20 6 0 0x0 0 0x20, .iabs { form := .pair, d := 20, a := 6, md := 0x20 }),
    (word 0x005 1 20 6 0 0x7 0 0x10, .imin { form := .ri, d := 20, a := 6, x := 0x7, md := 0x10 }),
    (word 0x006 0 20 6 12 0x0 0 0x0, .imax { d := 20, a := 6, b := 12 }),
    (word 0x007 3 20 6 12 0x0 0 0x130, .imul { form := .pair, d := 20, a := 6, b := 12, md := 0x130 }),
    (word 0x008 0 20 6 12 0x0 0 0x10, .imulh { d := 20, a := 6, b := 12, md := 0x10 }),
    (word 0x009 0 20 6 12 0x10000000 0 0x100, .imad { d := 20, a := 6, b := 12, x := 0x10000000, md := 0x100 }),
    (word 0x00A 0 20 6 12 0x10000000 0 0x10, .imadw { d := 20, a := 6, b := 12, x := 0x10000000, md := 0x10 }),
    (word 0x00B 0 20 6 12 0x0 3 0x0, .idiv { d := 20, a := 6, b := 12, look := 3 }),
    (word 0x00C 1 20 6 0 0xa 0 0x10, .irem { form := .ri, d := 20, a := 6, x := 0xa, md := 0x10 })] : List (IWord × Instr)), decode p.1 = .ok p.2 ∧ encode p.2 = p.1 := by decide +kernel
theorem test_decode_group_01 : ∀ p ∈ ([
    (word 0x020 3 20 6 12 0x0 0 0x0, .and { form := .pair, d := 20, a := 6, b := 12 }),
    (word 0x021 1 20 6 0 0xf0f0 0 0x0, .or { form := .ri, d := 20, a := 6, x := 0xf0f0 }),
    (word 0x022 0 20 6 12 0x0 0 0x0, .xor { d := 20, a := 6, b := 12 }),
    (word 0x023 0 20 6 12 0x0 0 0x0, .andn { d := 20, a := 6, b := 12 }),
    (word 0x024 2 20 6 12 0xff00ff00 0 0xca, .tern { form := .rri, d := 20, a := 6, b := 12, x := 0xff00ff00, md := 0xca }),
    (word 0x025 1 20 6 0 0x5 0 0x0, .shl { form := .ri, d := 20, a := 6, x := 0x5 }),
    (word 0x026 3 20 6 12 0x0 0 0x0, .shr { form := .pair, d := 20, a := 6, b := 12 }),
    (word 0x027 0 20 6 12 0x0 0 0x0, .sha { d := 20, a := 6, b := 12 }),
    (word 0x028 2 20 6 12 0x9 0 0x1, .fsh { form := .rri, d := 20, a := 6, b := 12, x := 0x9, md := 0x1 })] : List (IWord × Instr)), decode p.1 = .ok p.2 ∧ encode p.2 = p.1 := by decide +kernel
theorem test_decode_group_02 : ∀ p ∈ ([
    (word 0x040 1 20 6 0 0x804 0 0x1, .bfx { form := .ri, d := 20, a := 6, x := 0x804, md := 0x1 }),
    (word 0x041 2 20 6 12 0x1008 0 0x0, .bfi { form := .rri, d := 20, a := 6, b := 12, x := 0x1008 }),
    (word 0x042 0 20 6 0 0x0 0 0x0, .popc { d := 20, a := 6 }),
    (word 0x043 3 20 6 0 0x0 0 0x0, .clz { form := .pair, d := 20, a := 6 }),
    (word 0x044 0 20 6 0 0x0 0 0x0, .ctz { d := 20, a := 6 }),
    (word 0x045 3 20 6 0 0x0 0 0x0, .brev { form := .pair, d := 20, a := 6 }),
    (word 0x046 2 20 6 12 0x3210 0 0x0, .permb { form := .rri, d := 20, a := 6, b := 12, x := 0x3210 }),
    (word 0x047 1 20 0 0 0x408 0 0x0, .bmsk { form := .ri, d := 20, x := 0x408 })] : List (IWord × Instr)), decode p.1 = .ok p.2 ∧ encode p.2 = p.1 := by decide +kernel
theorem test_decode_group_03 : ∀ p ∈ ([
    (word 0x060 0 20 6 12 0x0 0 0x13, .icmp { d := 20, a := 6, b := 12, md := 0x13 }),
    (word 0x061 1 20 6 0 0x3f800000 0 0x86, .fcmp { form := .ri, d := 20, a := 6, x := 0x3f800000, md := 0x86 }),
    (word 0x062 0 0 6 12 0x0 0 0x0, .pset { a := 6, b := 12 }),
    (word 0x063 0 20 6 12 0x100000e8 0 0x0, .plop { d := 20, a := 6, b := 12, x := 0x100000e8 }),
    (word 0x064 1 20 6 0 0x1f 0 0x0, .pmov { form := .ri, d := 20, a := 6, x := 0x1f }),
    (word 0x065 0 20 6 0 0x0 0 0x2, .ptest { d := 20, a := 6, md := 0x2 })] : List (IWord × Instr)), decode p.1 = .ok p.2 ∧ encode p.2 = p.1 := by decide +kernel
theorem test_decode_group_04 : ∀ p ∈ ([
    (word 0x080 1 20 6 0 0x1 0 0x3, .lxch { form := .ri, d := 20, a := 6, x := 0x1, md := 0x3 }),
    (word 0x081 1 20 6 0 0x5 0 0x0, .ballot { form := .ri, d := 20, a := 6, x := 0x5 }),
    (word 0x082 0 20 6 12 0x0 0 0x2, .vote { d := 20, a := 6, b := 12, md := 0x2 }),
    (word 0x083 3 20 6 0 0x0 0 0x0, .matchLanes { form := .pair, d := 20, a := 6 }),
    (word 0x084 0 20 6 0 0x0 0 0x201, .lred { d := 20, a := 6, md := 0x201 }),
    (word 0x085 0 20 6 0 0x0 0 0x20b, .lscan { d := 20, a := 6, md := 0x20b }),
    (word 0x086 0 20 0 0 0x0 0 0x1, .strandm { d := 20, md := 0x1 })] : List (IWord × Instr)), decode p.1 = .ok p.2 ∧ encode p.2 = p.1 := by decide +kernel
theorem test_decode_group_05 : ∀ p ∈ ([
    (word 0x0A0 3 20 6 0 0x0 0 0x0, .mov { form := .pair, d := 20, a := 6 }),
    (word 0x0A1 1 20 0 0 0x80000000 0 0x1, .movi { form := .ri, d := 20, x := 0x80000000, md := 0x1 }),
    (word 0x0A2 0 20 6 12 0x0 0 0x23, .sel { d := 20, a := 6, b := 12, md := 0x23 }),
    (word 0x0A3 1 20 0 0 0x20 0 0x0, .get { form := .ri, d := 20, x := 0x20 }),
    (word 0x0A4 1 0 6 0 0x7c00 0 0x0, .setmode { form := .ri, a := 6, x := 0x7c00 }),
    (word 0x0A5 0 20 0 0 0x0 0 0x0, .getmode { d := 20 }),
    (word 0x0A6 0 20 0 0 0x0 0 0x0, .clk { d := 20 })] : List (IWord × Instr)), decode p.1 = .ok p.2 ∧ encode p.2 = p.1 := by decide +kernel
theorem test_decode_group_06 : ∀ p ∈ ([
    (word 0x0C0 0 20 6 12 0x0 0 0x480, .fadd { d := 20, a := 6, b := 12, md := 0x480 }),
    (word 0x0C1 1 20 6 0 0x40000000 0 0x180, .fsub { form := .ri, d := 20, a := 6, x := 0x40000000, md := 0x180 }),
    (word 0x0C2 0 20 6 12 0x0 0 0x280, .fmul { d := 20, a := 6, b := 12, md := 0x280 }),
    (word 0x0C3 0 20 6 12 0x10000000 0 0x480, .ffma { d := 20, a := 6, b := 12, x := 0x10000000, md := 0x480 }),
    (word 0x0C4 0 20 6 12 0x0 0 0x81, .fmin { d := 20, a := 6, b := 12, md := 0x81 }),
    (word 0x0C5 0 20 6 12 0x0 0 0x80, .fmax { d := 20, a := 6, b := 12, md := 0x80 }),
    (word 0x0C6 0 20 6 12 0x0 2 0x680, .fdiv { d := 20, a := 6, b := 12, look := 2, md := 0x680 }),
    (word 0x0C7 0 20 6 0 0x0 0 0x280, .fsqrt { d := 20, a := 6, md := 0x280 }),
    (word 0x0C8 0 20 6 0 0x0 0 0x80, .frcp { d := 20, a := 6, md := 0x80 }),
    (word 0x0C9 0 20 6 0 0x0 0 0x180, .frsq { d := 20, a := 6, md := 0x180 }),
    (word 0x0CA 0 20 6 12 0x0 0 0x80, .fscale { d := 20, a := 6, b := 12, md := 0x80 }),
    (word 0x0CB 0 20 6 0 0x0 0 0xa81, .frnd { d := 20, a := 6, md := 0xa81 }),
    (word 0x0CC 0 20 6 0 0x0 0 0x80, .fclass { d := 20, a := 6, md := 0x80 })] : List (IWord × Instr)), decode p.1 = .ok p.2 ∧ encode p.2 = p.1 := by decide +kernel
theorem test_decode_group_07 : ∀ p ∈ ([
    (word 0x0E0 0 20 6 12 0x0 0 0x91, .hadd2 { d := 20, a := 6, b := 12, md := 0x91 }),
    (word 0x0E1 0 20 6 12 0x0 0 0x1a0, .hmul2 { d := 20, a := 6, b := 12, md := 0x1a0 }),
    (word 0x0E2 0 20 6 12 0x10000000 0 0xa0, .hfma2 { d := 20, a := 6, b := 12, x := 0x10000000, md := 0xa0 }),
    (word 0x0E3 0 20 6 12 0x0 0 0x93, .hmnx2 { d := 20, a := 6, b := 12, md := 0x93 }),
    (word 0x0E4 0 20 6 12 0x10000000 0 0xcb, .dot4 { d := 20, a := 6, b := 12, x := 0x10000000, md := 0xcb }),
    (word 0x0E5 0 20 6 12 0x10000000 0 0x171, .idot4 { d := 20, a := 6, b := 12, x := 0x10000000, md := 0x171 })] : List (IWord × Instr)), decode p.1 = .ok p.2 ∧ encode p.2 = p.1 := by decide +kernel
theorem test_decode_group_08 : ∀ p ∈ ([
    (word 0x100 0 20 6 0 0x0 15 0x80, .fexp2 { d := 20, a := 6, look := 15, md := 0x80 }),
    (word 0x101 0 20 6 0 0x0 0 0x80, .flog2 { d := 20, a := 6, md := 0x80 }),
    (word 0x102 0 20 6 0 0x0 0 0x80, .fsin { d := 20, a := 6, md := 0x80 }),
    (word 0x103 0 20 6 0 0x0 0 0x80, .fcos { d := 20, a := 6, md := 0x80 }),
    (word 0x104 0 20 6 0 0x0 0 0x80, .ftanh { d := 20, a := 6, md := 0x80 })] : List (IWord × Instr)), decode p.1 = .ok p.2 ∧ encode p.2 = p.1 := by decide +kernel
theorem test_decode_group_09 : ∀ p ∈ ([
    (word 0x120 0 20 6 0 0x0 0 0x1b8, .cvtff { d := 20, a := 6, md := 0x1b8 }),
    (word 0x121 0 20 6 0 0x0 0 0x428, .cvtfi { d := 20, a := 6, md := 0x428 }),
    (word 0x122 0 20 6 0 0x0 0 0x83, .cvtif { d := 20, a := 6, md := 0x83 }),
    (word 0x123 0 20 6 0 0x0 0 0x160, .cvtii { d := 20, a := 6, md := 0x160 }),
    (word 0x124 0 20 6 12 0x0 0 0x2b3, .pack { d := 20, a := 6, b := 12, md := 0x2b3 }),
    (word 0x125 0 20 6 0 0x0 0 0x6e, .unpack { d := 20, a := 6, md := 0x6e }),
    (word 0x126 0 20 6 0 0x0 0 0x2f0, .mxq { d := 20, a := 6, md := 0x2f0 }),
    (word 0x127 0 20 6 0 0x0 0 0x1f0, .mxdq { d := 20, a := 6, md := 0x1f0 })] : List (IWord × Instr)), decode p.1 = .ok p.2 ∧ encode p.2 = p.1 := by decide +kernel
theorem test_decode_group_0A : ∀ p ∈ ([
    (word 0x140 1 0 0 0 0xfffffff0 0 0x0, .bra { form := .ri, x := 0xfffffff0 }),
    (word 0x141 1 0 6 0 0x4 0 0x2c, .brb { form := .ri, a := 6, x := 0x4, md := 0x2c }),
    (word 0x142 1 0 6 0 0x1 0 0x5, .brx { form := .ri, a := 6, x := 0x1, md := 0x5 }),
    (word 0x143 0 0 6 0 0x0 0 0x0, .call { a := 6 }),
    (word 0x144 0 0 6 0 0x0 0 0x0, .ret { a := 6 }),
    (word 0x145 1 20 0 0 0xfffffffc 0 0x0, .loop { form := .ri, d := 20, x := 0xfffffffc }),
    (word 0x146 0 0 0 0 0x0 0 0x0, .nop {})] : List (IWord × Instr)), decode p.1 = .ok p.2 ∧ encode p.2 = p.1 := by decide +kernel
theorem test_decode_group_0B : ∀ p ∈ ([
    (word 0x160 1 20 6 0 0x10 0 0x0, .spawn { form := .ri, d := 20, a := 6, x := 0x10 }),
    (word 0x161 0 0 0 0 0x0 0 0x0, .fend {}),
    (word 0x162 1 0 0 0 0xffff 0 0x0, .converge { form := .ri, x := 0xffff }),
    (word 0x163 0 0 0 0 0x0 0 0x0, .yield {}),
    (word 0x164 1 0 0 0 0x3 0 0x0, .prio { form := .ri, x := 0x3 })] : List (IWord × Instr)), decode p.1 = .ok p.2 ∧ encode p.2 = p.1 := by decide +kernel
theorem test_decode_group_0C : ∀ p ∈ ([
    (word 0x180 2 20 6 12 0x40 2 0x130, .ld { form := .rri, d := 20, a := 6, b := 12, x := 0x40, look := 2, md := 0x130 }),
    (word 0x181 2 20 6 12 0xffffffc0 0 0x8c0, .st { form := .rri, d := 20, a := 6, b := 12, x := 0xffffffc0, md := 0x8c0 }),
    (word 0x182 1 20 6 0 0x10 0 0x461, .ldq { form := .ri, d := 20, a := 6, x := 0x10, md := 0x461 }),
    (word 0x183 1 20 6 0 0x10 0 0x850, .stq { form := .ri, d := 20, a := 6, x := 0x10, md := 0x850 }),
    (word 0x184 1 0 6 0 0x100 0 0x2, .pref { form := .ri, a := 6, x := 0x100, md := 0x2 }),
    (word 0x185 0 20 6 12 0x10000000 0 0x0, .refmk { d := 20, a := 6, b := 12, x := 0x10000000 }),
    (word 0x186 3 20 6 12 0x0 0 0x1, .refadd { form := .pair, d := 20, a := 6, b := 12, md := 0x1 }),
    (word 0x187 0 20 6 0 0x0 1 0x5, .hqry { d := 20, a := 6, look := 1, md := 0x5 })] : List (IWord × Instr)), decode p.1 = .ok p.2 ∧ encode p.2 = p.1 := by decide +kernel
theorem test_decode_group_0D : ∀ p ∈ ([
    (word 0x1A0 2 20 6 12 0x20 0 0x160, .lds { form := .rri, d := 20, a := 6, b := 12, x := 0x20, md := 0x160 }),
    (word 0x1A1 1 20 6 0 0x20 0 0x10, .sts { form := .ri, d := 20, a := 6, x := 0x20, md := 0x10 }),
    (word 0x1A2 2 20 6 12 0x1000 0 0x1, .stash { form := .rri, d := 20, a := 6, b := 12, x := 0x1000, md := 0x1 }),
    (word 0x1A3 0 0 6 0 0x0 0 0x1, .unstash { a := 6, md := 0x1 }),
    (word 0x1A4 0 0 0 0 0x0 0 0x1, .flushs { md := 0x1 })] : List (IWord × Instr)), decode p.1 = .ok p.2 ∧ encode p.2 = p.1 := by decide +kernel
theorem test_decode_group_0E : ∀ p ∈ ([
    (word 0x1C0 2 20 6 12 0x40 0 0xc58, .atom { form := .rri, d := 20, a := 6, b := 12, x := 0x40, md := 0xc58 }),
    (word 0x1C1 0 20 6 12 0x10000010 0 0xc50, .acas { d := 20, a := 6, b := 12, x := 0x10000010, md := 0xc50 }),
    (word 0x1C2 0 20 6 12 0x10000020 0 0x60, .acas2 { d := 20, a := 6, b := 12, x := 0x10000020, md := 0x60 }),
    (word 0x1C3 2 20 6 12 0x4 0 0x41, .afadd { form := .rri, d := 20, a := 6, b := 12, x := 0x4, md := 0x41 }),
    (word 0x1C4 2 20 6 12 0x4 0 0x48, .atoms { form := .rri, d := 20, a := 6, b := 12, x := 0x4, md := 0x48 }),
    (word 0x1C5 0 20 6 12 0x10000008 0 0x50, .acass { d := 20, a := 6, b := 12, x := 0x10000008, md := 0x50 })] : List (IWord × Instr)), decode p.1 = .ok p.2 ∧ encode p.2 = p.1 := by decide +kernel
theorem test_decode_group_0F : ∀ p ∈ ([
    (word 0x1E0 1 20 6 0 0x2400 0 0x1, .rowopen { form := .ri, d := 20, a := 6, x := 0x2400, md := 0x1 }),
    (word 0x1E1 0 0 6 0 0x0 0 0x0, .rowrel { a := 6 }),
    (word 0x1E2 2 20 6 12 0x2440 0 0x40, .rowld { form := .rri, d := 20, a := 6, b := 12, x := 0x2440, md := 0x40 }),
    (word 0x1E3 2 20 6 12 0x8 0 0x60, .rowst { form := .rri, d := 20, a := 6, b := 12, x := 0x8, md := 0x60 }),
    (word 0x1E4 0 20 6 0 0x0 0 0x0, .rowq { d := 20, a := 6 })] : List (IWord × Instr)), decode p.1 = .ok p.2 ∧ encode p.2 = p.1 := by decide +kernel
theorem test_decode_group_10 : ∀ p ∈ ([
    (word 0x200 0 0 0 0 0x0 0 0x3, .fence { md := 0x3 }),
    (word 0x201 1 0 0 0 0x3ff 0 0x0, .bar { form := .ri, x := 0x3ff }),
    (word 0x202 1 0 0 0 0x83 0 0x1, .rbar { form := .ri, x := 0x83, md := 0x1 }),
    (word 0x203 1 20 0 0 0x21 0 0x0, .arrive { form := .ri, d := 20, x := 0x21 }),
    (word 0x204 1 0 6 0 0xf 0 0x0, .bwait { form := .ri, a := 6, x := 0xf }),
    (word 0x205 1 20 0 0 0x13 0 0x0, .barstat { form := .ri, d := 20, x := 0x13 })] : List (IWord × Instr)), decode p.1 = .ok p.2 ∧ encode p.2 = p.1 := by decide +kernel
theorem test_decode_group_11 : ∀ p ∈ ([
    (word 0x220 1 20 6 0 0x40 0 0x50, .monarm { form := .ri, d := 20, a := 6, x := 0x40, md := 0x50 }),
    (word 0x221 0 20 6 0 0x0 0 0x0, .monwait { d := 20, a := 6 }),
    (word 0x222 2 20 6 12 0x4 0 0x1, .semwait { form := .rri, d := 20, a := 6, b := 12, x := 0x4, md := 0x1 }),
    (word 0x223 2 20 6 12 0x4 0 0x0, .sempost { form := .rri, d := 20, a := 6, b := 12, x := 0x4 }),
    (word 0x224 0 20 6 12 0x0 0 0x1, .wqpush { d := 20, a := 6, b := 12, md := 0x1 }),
    (word 0x225 0 20 6 12 0x0 0 0x0, .wqpop { d := 20, a := 6, b := 12 }),
    (word 0x226 3 20 6 12 0x0 0 0x1, .wqnote { form := .pair, d := 20, a := 6, b := 12, md := 0x1 })] : List (IWord × Instr)), decode p.1 = .ok p.2 ∧ encode p.2 = p.1 := by decide +kernel
theorem test_decode_group_12 : ∀ p ∈ ([
    (word 0x240 1 20 0 0 0x7 0 0x1, .tryOpen { form := .ri, d := 20, x := 0x7, md := 0x1 }),
    (word 0x241 0 20 0 0 0x0 0 0x0, .commit { d := 20 }),
    (word 0x242 1 0 0 0 0xab 0 0x0, .abort { form := .ri, x := 0xab }),
    (word 0x243 0 20 0 0 0x0 0 0x1, .tstat { d := 20, md := 0x1 }),
    (word 0x244 1 0 6 0 0x8 0 0x41, .tchk { form := .ri, a := 6, x := 0x8, md := 0x41 })] : List (IWord × Instr)), decode p.1 = .ok p.2 ∧ encode p.2 = p.1 := by decide +kernel
theorem test_decode_group_13 : ∀ p ∈ ([
    (word 0x260 2 20 6 12 0x100 0 0x460, .acp { form := .rri, d := 20, a := 6, b := 12, x := 0x100, md := 0x460 }),
    (word 0x261 0 20 6 12 0x0 0 0x400, .tcp { d := 20, a := 6, b := 12, md := 0x400 }),
    (word 0x262 0 20 6 12 0x10004000 0 0x400, .put { d := 20, a := 6, b := 12, x := 0x10004000, md := 0x400 }),
    (word 0x263 0 20 6 12 0x10000000 0 0x400, .gather { d := 20, a := 6, b := 12, x := 0x10000000, md := 0x400 }),
    (word 0x264 1 20 6 0 0x1000 0 0x401, .pfx { form := .ri, d := 20, a := 6, x := 0x1000, md := 0x401 }),
    (word 0x265 1 0 6 0 0x80 0 0x1, .wbx { form := .ri, a := 6, x := 0x80, md := 0x1 }),
    (word 0x266 1 0 0 0 0xff 0 0x5, .waitc { form := .ri, x := 0xff, md := 0x5 }),
    (word 0x267 1 20 0 0 0x3 0 0x0, .cntr { form := .ri, d := 20, x := 0x3 })] : List (IWord × Instr)), decode p.1 = .ok p.2 ∧ encode p.2 = p.1 := by decide +kernel
theorem test_decode_group_14 : ∀ p ∈ ([
    (word 0x280 3 20 6 0 0x0 0 0x0, .tenq { form := .pair, d := 20, a := 6 }),
    (word 0x281 3 20 6 0 0x0 0 0x1, .tdep { form := .pair, d := 20, a := 6, md := 0x1 }),
    (word 0x282 0 20 6 12 0x0 0 0x0, .svc { d := 20, a := 6, b := 12 }),
    (word 0x283 3 20 6 12 0x10000000 4 0x1, .svcq { form := .pair, d := 20, a := 6, b := 12, x := 0x10000000, look := 4, md := 0x1 })] : List (IWord × Instr)), decode p.1 = .ok p.2 ∧ encode p.2 = p.1 := by decide +kernel
theorem test_decode_group_15 : ∀ p ∈ ([
    (word 0x2A0 3 20 6 0 0x0 0 0x400, .mma { form := .pair, d := 20, a := 6, md := 0x400 }),
    (word 0x2A1 3 0 6 0 0x0 0 0x1, .mmac { form := .pair, a := 6, md := 0x1 }),
    (word 0x2A2 3 20 6 0 0x10000000 0 0x402, .mmas { form := .pair, d := 20, a := 6, x := 0x10000000, md := 0x402 }),
    (word 0x2A3 0 20 6 12 0x1000000f 0 0xd, .rqt { d := 20, a := 6, b := 12, x := 0x1000000f, md := 0xd })] : List (IWord × Instr)), decode p.1 = .ok p.2 ∧ encode p.2 = p.1 := by decide +kernel
theorem test_decode_group_16 : ∀ p ∈ ([
    (word 0x2C0 1 20 6 0 0x40 0 0x400, .accz { form := .ri, d := 20, a := 6, x := 0x40, md := 0x400 }),
    (word 0x2C1 3 20 6 0 0x10000100 0 0x490, .accld { form := .pair, d := 20, a := 6, x := 0x10000100, md := 0x490 }),
    (word 0x2C2 0 0 6 0 0x10040000 0 0x1b5, .accst { a := 6, x := 0x10040000, md := 0x1b5 }),
    (word 0x2C3 0 20 6 12 0x0 1 0x20, .accrow { d := 20, a := 6, b := 12, look := 1, md := 0x20 }),
    (word 0x2C4 0 0 6 12 0x0 0 0x13, .accscl { a := 6, b := 12, md := 0x13 }),
    (word 0x2C5 0 0 6 12 0x10000000 0 0x2, .accexp { a := 6, b := 12, x := 0x10000000, md := 0x2 })] : List (IWord × Instr)), decode p.1 = .ok p.2 ∧ encode p.2 = p.1 := by decide +kernel
theorem test_decode_group_17 : ∀ p ∈ ([
    (word 0x2E0 0 20 6 12 0x10003fff 0 0x481, .skbuild { d := 20, a := 6, b := 12, x := 0x10003fff, md := 0x481 }),
    (word 0x2E1 3 20 6 0 0x1000ffff 0 0x400, .skscore { form := .pair, d := 20, a := 6, x := 0x1000ffff, md := 0x400 }),
    (word 0x2E2 0 20 6 12 0x10123456 0 0x0, .sksel { d := 20, a := 6, b := 12, x := 0x10123456 }),
    (word 0x2E3 0 0 6 12 0x100010ff 0 0x1fe, .skmap { a := 6, b := 12, x := 0x100010ff, md := 0x1fe })] : List (IWord × Instr)), decode p.1 = .ok p.2 ∧ encode p.2 = p.1 := by decide +kernel
theorem test_decode_group_18 : ∀ p ∈ ([
    (word 0x300 3 20 6 12 0x10000000 0 0x85, .coll { form := .pair, d := 20, a := 6, b := 12, x := 0x10000000, md := 0x85 }),
    (word 0x301 0 20 6 0 0x0 0 0x0, .collq { d := 20, a := 6 }),
    (word 0x302 3 20 6 12 0x0 0 0x0, .collx { form := .pair, d := 20, a := 6, b := 12 })] : List (IWord × Instr)), decode p.1 = .ok p.2 ∧ encode p.2 = p.1 := by decide +kernel
theorem test_decode_group_19 : ∀ p ∈ ([
    (word 0x320 1 0 0 0 0xfe 0 0x0, .trap { form := .ri, x := 0xfe }),
    (word 0x321 0 0 6 0 0x0 0 0x2, .tret { a := 6, md := 0x2 }),
    (word 0x322 0 20 6 0 0x0 0 0xe, .rqread { d := 20, a := 6, md := 0xe }),
    (word 0x323 0 0 6 0 0x0 0 0x0, .rqdrop { a := 6 }),
    (word 0x324 1 0 0 0 0x11 0 0x0, .dbg { form := .ri, x := 0x11 }),
    (word 0x325 0 0 6 0 0x0 0 0x0, .prof { a := 6 }),
    (word 0x326 1 20 0 0 0x17 0 0x0, .sysrd { form := .ri, d := 20, x := 0x17 })] : List (IWord × Instr)), decode p.1 = .ok p.2 ∧ encode p.2 = p.1 := by decide +kernel

/-! ### Ill-formed terms and words (R83, R84 to R92) -/

/-- Each check of an entry refuses a term: FORM, an operand that must be 0, a pair from an odd register, a bit above 31, MOD, a TYPE that
does not suit FORM, the extension, LOOK without L, YLD, RA of a field that is not read, and an event, which has no word. -/
theorem test_illformed : ([Instr.clk { form := .ri }, .clk { d := 4, a := 1 }, .imadw { d := 5, a := 6, b := 7 }, .icmp { d := 32, md := 0x10 },
    .and { md := 1 }, .iadd { form := .pair, md := 0x10 }, .iadd { x := 1 }, .iadd { look := 1 }, .nop { yld := true }, .movi { form := .ri, ra := true },
    .iadd { rb := true, form := .ri }, .fadd { md := 0xC80 }, .rbar { form := .ri, x := 0xA0 }, .get { form := .ri, x := 0x1F } , .partReset] : List Instr).all (fun i => !WellFormed i) = true := by decide +kernel

/-- The words of ill-formed terms do not decode, nor do FORM codes from 4, bit 12, and guard fields without GE. -/
theorem test_refused_words : [word 0x0A6 1 4 0 0 0 0 0, word 0x00A 0 5 6 7 0 0 0, word 0x060 0 32 0 0 0 0 0x10, word 0x020 0 0 0 0 0 0 1,
    word 0x000 3 0 0 0 0 0 0x10, word 0x000 0 0 0 0 0 1 0, word 0x146 4 0 0 0 0 0 0, word 0x146 0 0 0 0 0 0 0x1000, word 0x146 8 0 0 0 0 0 0].all
    (fun w => decide (decode w = .error .illegalEncoding)) = true := by decide +kernel

/-- Minors and groups that the opcode map does not list (R92). -/
theorem test_unlisted : [word 0x00D 0 0 0 0 0 0 0, word 0x147 0 0 0 0 0 0 0, word 0x327 0 0 0 0 0 0 0, word 0x340 0 0 0 0 0 0 0,
    word 0x3FF 0 0 0 0 0 0 0].all (fun w => decide (decode w = .error .illegalOpcode)) = true := by decide +kernel

/-- The manual's own words: R85's FFMA, R147's BRX, R359's TRY, R424's SYSRD. -/
theorem test_manual_words : Obligations.DecodeWords := by unfold Obligations.DecodeWords; decide +kernel


/-! ### States to test on -/

/-- Entry 2: a DATA object with every right but X, stashable, 64 KiB at IA 0x10000. -/
def dataEntry : BitVec 512 :=
  at_ 512 0 3 1 ||| at_ 512 3 2 3 ||| at_ 512 6 2 3 ||| at_ 512 34 1 1 ||| at_ 512 64 49 0x10000 ||| at_ 512 128 41 0x10000 ||| at_ 512 192 8 1
/-- Entry 3: the same bytes, row-direct, in grains of 1 KiB. -/
def rowEntry : BitVec 512 := (dataEntry &&& ~~~(1#512 <<< 34)) ||| at_ 512 38 1 1 ||| at_ 512 200 4 2
/-- Entry 4: read alone, 64 bytes. -/
def readEntry : BitVec 512 := at_ 512 0 3 1 ||| at_ 512 3 1 1 ||| at_ 512 64 49 0x10000 ||| at_ 512 128 41 64 ||| at_ 512 192 8 1
/-- A reference to entry `i` at an offset (R26). -/
def refTo (i o : Nat) : DWord := at_ 64 46 18 i ||| at_ 64 0 40 o
/-- A fibre that has started, with the registers listed. -/
def fib (regs : List (Nat × Word)) : Fibre := { st := .runnable, pc := 8, regs := regs }
/-- The registers of a pair (R7). -/
def pr (n : Nat) (v : DWord) : List (Nat × Word) := [(n, loWord v), (n + 1, hiWord v)]
/-- A crew whose first slots hold the fibres listed, the others free. -/
def crewOf (l : List Fibre) : Crew := { fibres := l ++ List.replicate (32 - l.length) {}, filled := true, units := 16, credit := 2 }
/-- The part after a boot, with one task of one block and one crew; the strand of all its fibres is in execution. -/
def lab (l : List (List (Nat × Word))) : State :=
  let s := State.reset.placed []
  { s with
    cur := { blk := 1, crew := 0, mask := BitVec.ofNat 32 (2 ^ l.length - 1), pc := 8 }
    turns := []
    nextId := 100
    blocks := [{ placedBlock with
      crews := [crewOf (l.map fib)]
      scrLen := 8192
      accLen := 8192
      holds := [{}, {}] }]
    tasks := [{ placedTask with rec_ := { wcode := 4, coderef := placedRef, scr := 8, acc := 8, rows := 2, tryBit := true, fpol := 2, hpc := 0x40 } }]
    cores := s.cores.modify 0 fun k => { k with handles :=
      [(handleKey 0 1, placedEntry, none), (handleKey 0 2, dataEntry, none), (handleKey 0 3, rowEntry, none), (handleKey 0 4, readEntry, none)] }
    contexts := s.contexts.modify 0 fun c => { c with htcount := 16, trlog := 8, trbase := 0x40000 } }
/-- `lab` with its crew changed. -/
def labCrew (l : List (List (Nat × Word))) (g : Crew → Crew) : State := (lab l).updCur g
/-- The next state of an instruction; `s` itself where there is none. -/
def after (i : Instr) (s : State) : State := match exec i s with | .next t => t | _ => s
/-- An instruction of the current strand that goes on leaves register `d` of slot 0 so. -/
def res (i : Instr) (rs : List (Nat × Word)) (d : Nat) : Word := ((after i (lab [rs])).curCrew.fibre 0).reg d
/-- The same for a pair. -/
def res2 (i : Instr) (rs : List (Nat × Word)) (d : Nat) : DWord := ((after i (lab [rs])).curCrew.fibre 0).pair d
/-- Flags [14:10] of the mode register after an instruction. -/
def flags (i : Instr) (rs : List (Nat × Word)) : Nat := field (after i (lab [rs])).curCrew.mode 10 5
/-- The first register write of slot 0 that an L form owes. -/
def owed (i : Instr) (rs : List (Nat × Word)) : Option (List (Nat × Word)) :=
  ((after i (lab [rs])).curCrew.pend.head?).bind fun p => (p.writes.head?).map (·.2)

/-- D, A, B of most tests: v20, v6, v12. -/
def fr (md : BitVec 12) (x : Word := 0) : Fields := { d := 20, a := 6, b := 12, x := x, md := md }
def fi (md : BitVec 12) (x : Word) : Fields := { form := .ri, d := 20, a := 6, x := x, md := md }
def ab (a b : Word) : List (Nat × Word) := [(6, a), (12, b)]
def abc (a b c : Word) : List (Nat × Word) := [(6, a), (12, b), (16, c)]
/-- C = v16 in FORM RR. -/
def c16 : Word := 0x10000000

/-! ### Integers and bits (R123 to R129) -/

/-- Wraps and clamps: IADD.sat, ISUB, INEG.sat, IABS, IMIN, IMAX.n32, IMUL.sat, IMULH.n32, IMAD. -/
theorem test_integer : ([(Instr.iadd (fr 0x100), abc 0x7FFFFFFF 1 0, 0x7FFFFFFF), (.iadd (fr 0), abc 0x7FFFFFFF 1 0, 0x80000000),
    (.isub (fr 0x10), abc 0 1 0, 0xFFFFFFFF), (.isub (fr 0x110), abc 0 1 0, 0), (.ineg (fr 0x100), abc 0x80000000 0 0, 0x7FFFFFFF),
    (.iabs (fr 0), abc 0x80000000 0 0, 0x80000000), (.imin (fr 0), abc 0xFFFFFFFF 1 0, 0xFFFFFFFF), (.imax (fr 0x10), abc 0xFFFFFFFF 1 0, 0xFFFFFFFF),
    (.imul (fr 0x100), abc 0x10000 0x10000 0, 0x7FFFFFFF), (.imul (fr 0), abc 0x10001 0x10000 0, 0x10000), (.imulh (fr 0x10), abc 0xFFFFFFFF 0xFFFFFFFF 0, 0xFFFFFFFE),
    (.imulh (fr 0), abc 0xFFFFFFFF 1 0, 0xFFFFFFFF), (.imad (fr 0 c16), abc 3 4 5, 17), (.iadd { form := .rri, d := 20, a := 6, b := 12, x := 0xFFFFFFFE }, abc 1 2 0, 1)] :
    List (Instr × List (Nat × Word) × Word)).all (fun t => res t.1 t.2.1 20 == t.2.2) = true := by decide +kernel
/-- IMADW adds a 64-bit pair; IADDC takes and gives its carry in a bit of v0, and `.sbb` its borrow; a PAIR form (R124, R125). -/
theorem test_wide : res2 (.imadw (fr 0 c16)) ([(6, 0xFFFFFFFF), (12, 2)] ++ pr 16 1) 20 = 0xFFFFFFFFFFFFFFFF ∧
    res (.iaddc (fr 0 3)) ((0, 8) :: ab 0xFFFFFFFF 0) 20 = 0 ∧ res (.iaddc (fr 0 3)) ((0, 8) :: ab 0xFFFFFFFF 0) 0 = 8 ∧
    res (.iaddc (fr 1 3)) ((0, 0x10) :: ab 0 1) 20 = 0xFFFFFFFF ∧ res (.iaddc (fr 1 3)) ((0, 0x10) :: ab 0 1) 0 = 0x18 ∧
    res2 (.iadd { fr 0x20 with form := .pair }) (pr 6 0xFFFFFFFF ++ pr 12 1) 20 = 0x100000000 := by decide +kernel
/-- R126's examples: 7 ÷ −2, −7 ÷ 2, and the divisor 0. -/
theorem test_division : ([(Instr.idiv (fr 0), ab 7 0xFFFFFFFE, 0xFFFFFFFD), (.irem (fr 0), ab 7 0xFFFFFFFE, 1), (.idiv (fr 0), ab 0xFFFFFFF9 2, 0xFFFFFFFD),
    (.irem (fr 0), ab 0xFFFFFFF9 2, 0xFFFFFFFF), (.idiv (fr 0), ab 7 0, 0xFFFFFFFF), (.irem (fr 0), ab 7 0, 7), (.idiv (fr 0x100), ab 7 0, 0x7FFFFFFF),
    (.idiv (fr 0), ab 0x80000000 0xFFFFFFFF, 0x80000000), (.idiv (fr 0x100), ab 0x80000000 0xFFFFFFFF, 0x7FFFFFFF)] :
    List (Instr × List (Nat × Word) × Word)).all (fun t => owed t.1 t.2.1 == some [(20, t.2.2)]) = true := by decide +kernel
/-- Bitwise forms, TERN's map 0xCA (C selects B or A), shifts by 32 and more, and both funnel shifts. -/
theorem test_logic : ([(Instr.and (fr 0), abc 0xF0F0 0xFF00 0, 0xF000), (.or (fr 0), abc 0xF0F0 0xFF00 0, 0xFFF0), (.xor (fr 0), abc 0xF0F0 0xFF00 0, 0x0FF0),
    (.andn (fr 0), abc 0xF0F0 0xFF00 0, 0x00F0), (.tern (fr 0xCA c16), abc 0x0F0F0F0F 0x33333333 0xFFFF0000, 0x33330F0F), (.shl (fr 0), abc 1 32 0, 0),
    (.shl (fr 0), abc 3 31 0, 0x80000000), (.shr (fr 0), abc 0x80000000 31 0, 1), (.sha (fr 0), abc 0x80000000 40 0, 0xFFFFFFFF),
    (.fsh (fr 1 c16), abc 0x12345678 0x9ABCDEF0 8, 0x3456789A), (.fsh (fr 0 c16), abc 0x12345678 0x9ABCDEF0 8, 0xF0123456)] :
    List (Instr × List (Nat × Word) × Word)).all (fun t => res t.1 t.2.1 20 == t.2.2) = true := by decide +kernel
/-- Fields, counts, reversal, byte permutation and masks; a length of 0 and a position past the end. -/
theorem test_bits : ([(Instr.bfx (fi 1 0x804), abc 0x00000F80 0 0, 0xFFFFFFF8), (.bfx (fi 0 0x804), abc 0x00000F80 0 0, 0xF8),
    (.bfi { form := .rri, d := 20, a := 6, b := 12, x := 0x0408 }, abc 0xAB 0xFFFFFFFF 0, 0xFFFFFBFF), (.popc (fr 0), abc 0xF0F0 0 0, 8), (.clz (fr 0), abc 0 0 0, 32),
    (.clz (fr 0), abc 0x00800000 0 0, 8), (.ctz (fr 0), abc 0x00800000 0 0, 23), (.brev (fr 0), abc 1 0 0, 0x80000000),
    (.permb { form := .rri, d := 20, a := 6, b := 12, x := 0x1B4F }, abc 0x80112233 0x44556677 0, 0x22FF7700), (.bmsk { form := .ri, d := 20, x := 0x408 }, [], 0xF00),
    (.bmsk { form := .ri, d := 20, x := 0x20 }, [], 0)] : List (Instr × List (Nat × Word) × Word)).all (fun t => res t.1 t.2.1 20 == t.2.2) = true := by decide +kernel

/-! ### Predicates, lanes, moves and modes (R130 to R144, R161) -/

/-- ICMP, FCMP, PLOP and PMOV set one bit of v0 and keep the rest; PSET takes a mask; PTEST answers any, all and none. -/
theorem test_predicates : ([(Instr.icmp { fr 0x02 with d := 3 }, (0, 0xF0) :: ab 0xFFFFFFFF 1, 0, 0xF8), (.icmp { fr 0x12 with d := 4 }, (0, 0xF0) :: ab 0xFFFFFFFF 1, 0, 0xE0),
    (.fcmp { form := .ri, d := 3, a := 6, x := 0x3F800000, md := 0x80 }, [(6, 0x3F800000)], 0, 8), (.pset { a := 6, b := 12 }, (0, 0xFF) :: ab 0x0A 0x0F, 0, 0xFA),
    (.plop { d := 9, a := 0, b := 1, x := 0x020000E8 }, [(0, 5)], 0, 0x205), (.pmov { form := .ri, d := 1, a := 6, x := 31 }, [(6, 0x80000000)], 0, 2),
    (.ptest { form := .ri, d := 20, x := 6 }, [(0, 4)], 20, 1), (.ptest { form := .ri, d := 20, x := 6, md := 1 }, [(0, 4)], 20, 0),
    (.ptest { form := .ri, d := 20, x := 6, md := 2 }, [(0, 8)], 20, 1)] : List (Instr × List (Nat × Word) × Nat × Word)).all
    (fun t => res t.1 t.2.1 t.2.2.1 == t.2.2.2) = true := by decide +kernel
/-- The four lanes of most lane tests: v6 holds 10, 11, 12 and 13, and bit 5 of v0 is set in slots 1 and 3. -/
def four : State := lab ((List.range 4).map fun k => [(0, BitVec.ofNat 32 (32 * (k % 2))), (6, BitVec.ofNat 32 (10 + k)), (20, 99)])
/-- v20 of the four slots after an instruction. -/
def lanes (i : Instr) : List Word := (List.range 4).map fun k => ((after i four).curCrew.fibre k).reg 20
/-- Exchange by slot, by XOR with a source that is outside the strand, BALLOT, VOTE, MATCH, LRED.add over segments, LSCAN.max and
STRANDM. -/
theorem test_lanes : lanes (.lxch (fi 1 1)) = [11, 12, 13, 13] ∧ lanes (.lxch (fi 2 1)) = [11, 10, 13, 12] ∧ lanes (.lxch (fi 3 4)) = [13, 12, 11, 10] ∧
    lanes (.ballot { form := .ri, d := 20, x := 5 }) = [10, 10, 10, 10] ∧ lanes (.ballot { form := .ri, d := 20, x := 5, md := 1 }) = [5, 5, 5, 5] ∧
    lanes (.vote { form := .ri, d := 20, x := 5, md := 1 }) = [1, 1, 1, 1] ∧ lanes (.vote { form := .ri, d := 20, x := 5, md := 2 }) = [0, 0, 0, 0] ∧
    lanes (.matchLanes { d := 20, a := 6 }) = [1, 2, 4, 8] ∧ lanes (.lred { d := 20, a := 6 }) = [46, 46, 46, 46] ∧
    lanes (.lscan { d := 20, a := 6 }) = [0, 10, 21, 33] ∧ lanes (.strandm { d := 20 }) = [15, 15, 15, 15] := by decide +kernel
/-- MOV, MOVI with both extensions, SEL on a predicate and its complement, GET, SETMODE and GETMODE. -/
theorem test_moves : res2 (.mov { form := .pair, d := 20, a := 6 }) (pr 6 0x123456789) 20 = 0x123456789 ∧ res (.movi { form := .ri, d := 20, x := 7 }) [] 20 = 7 ∧
    res2 (.movi { form := .ri, d := 20, x := 0x80000000, md := 1 }) [] 20 = 0xFFFFFFFF80000000 ∧
    res2 (.movi { form := .ri, d := 20, x := 0x80000000, md := 2 }) [] 20 = 0x80000000 ∧ res (.sel (fr 0x03)) ((0, 8) :: ab 1 2) 20 = 1 ∧
    res (.sel (fr 0x23)) ((0, 8) :: ab 1 2) 20 = 2 ∧ res (.get { form := .ri, d := 20, x := 0 }) [] 20 = 0 ∧
    res2 (.clk { d := 20 }) [(20, 5)] 20 = 0 := by decide +kernel
/-- R161: 111 in RM is written as 000, the enables as given; GETMODE reads the register and stalls while a replay-eligible result is owed. -/
theorem test_modes : (after (.setmode { form := .ri, a := 6, x := 0x3FF }) (lab [[(6, 0x47)]])).curCrew.mode = 0x40 ∧
    (after (.setmode { form := .ri, a := 6, x := 0xFFFFFFFF }) (lab [[(6, 0xFFFFFFFD)]])).curCrew.mode = 0xFFFD ∧
    ((after (.getmode { d := 20 }) (labCrew [[]] fun c => { c with mode := 0x123 })).curCrew.fibre 0).reg 20 = 0x123 ∧
    (after (.getmode { d := 20 }) (labCrew [[]] fun c => { c with pend := [{ replay := true }] })).curCrew.stallClass = 6 ∧
    ((after (.getmode { d := 20 }) (labCrew [[]] fun c => { c with pend := [{ replay := true }] })).curCrew.fibre 0).pc = 8 := by decide +kernel

/-! ### Floating point (R151 to R188) -/

/-- 1 + 2^-24 ties to even and rounds up; overflow with and without SAT; ∞ − ∞; FMA's single rounding; −0 against +0; FSCALE, FRND. -/
theorem test_float : ([(Instr.fadd (fr 0x80), abc 0x3F800000 0x33800000 0, 0x3F800000, 0x10), (.fadd (fr 0x680), abc 0x3F800000 0x33800000 0, 0x3F800001, 0x10),
    (.fsub (fr 0x80), abc 0x7F800000 0x7F800000 0, 0x7FC00000, 1), (.fmul (fr 0x80), abc 0x7F7FFFFF 0x40000000 0, 0x7F800000, 0x14),
    (.fmul (fr 0x180), abc 0x7F7FFFFF 0x40000000 0, 0x7F7FFFFF, 0x14), (.ffma (fr 0x80 c16), abc 0x3F800001 0x3F800001 0xBF800002, 0x28800000, 0),
    (.fmin (fr 0x80), abc 0x80000000 0 0, 0x80000000, 0), (.fmax (fr 0x80), abc 0x7FC00000 0x3F800000 0, 0x3F800000, 0), (.fscale (fr 0x80), abc 0x3F800000 3 0, 0x41000000, 0),
    (.frnd (fr 0x280), abc 0x40200000 0 0, 0x40000000, 0), (.fclass (fr 0x80), abc 0x80000001 0 0, 4, 0)] : List (Instr × List (Nat × Word) × Word × Nat)).all
    (fun t => res t.1 t.2.1 20 == t.2.2.1 && flags t.1 t.2.1 == t.2.2.2) = true := by decide +kernel
/-- Packed and dot forms; IDOT4 of signed, unsigned and mixed lanes. -/
theorem test_packed : ([(Instr.hadd2 (fr 0x90), abc 0x40003C00 0x3C003C00 0, 0x42004000), (.hadd2 (fr 0x91), abc 0x40003C00 0x3C003C00 0, 0x3C000000),
    (.hmul2 (fr 0x90), abc 0x40003C00 0x3C003C00 0, 0x40003C00), (.hfma2 (fr 0x90 c16), abc 0x40003C00 0x3C003C00 0x3C003C00, 0x42004000),
    (.hmnx2 (fr 0x90), abc 0x40003C00 0x3C003C00 0, 0x3C003C00), (.hmnx2 (fr 0x91), abc 0x40003C00 0x3C003C00 0, 0x40003C00),
    (.dot4 (fr 0xB0 c16), abc 0x38383838 0x38383838 0x3F800000, 0x40A00000), (.idot4 (fr 0x60 c16), abc 0xFF01FF01 0x01010101 5, 5),
    (.idot4 (fr 0x70 c16), abc 0xFF01FF01 0x01010101 5, 517), (.idot4 (fr 0x61 c16), abc 0xFFFFFFFF 0xFFFFFFFF 0, 0xFFFFFC04)] :
    List (Instr × List (Nat × Word) × Word)).all (fun t => res t.1 t.2.1 20 == t.2.2) = true := by decide +kernel
/-- Exact results of the L forms, and the special cases their entries name. -/
theorem test_long_float : ([(Instr.fdiv (fr 0x80), ab 0x40C00000 0x40400000, 0x40000000), (.fdiv (fr 0x80), ab 0xBF800000 0, 0xFF800000),
    (.fsqrt (fr 0x80), ab 0x40800000 0, 0x40000000), (.frcp (fr 0x80), ab 0x40000000 0, 0x3F000000), (.frsq (fr 0x80), ab 0x7F800000 0, 0),
    (.fexp2 (fr 0x80), ab 0 0, 0x3F800000), (.flog2 (fr 0x80), ab 0 0, 0xFF800000), (.fsin (fr 0x80), ab 0x80000000 0, 0x80000000),
    (.fcos (fr 0x80), ab 0x7F800000 0, 0x7FC00000), (.ftanh (fr 0x80), ab 0xFF800000 0, 0xBF800000)] :
    List (Instr × List (Nat × Word) × Word)).all (fun t => owed t.1 t.2.1 == some [(20, t.2.2)]) = true := by decide +kernel
/-- R182's overflow to E4M3 with and without SAT, the integer conversions, and lanes packed and unpacked. -/
theorem test_convert : ([(Instr.cvtff (fr 0x1B8), abc 0x43EB0000 0 0, 0x7E, 0x14), (.cvtff (fr 0x0B8), abc 0x43EB0000 0 0, 0x7F, 0x14),
    (.cvtfi (fr 0x008), abc 0x40200000 0 0, 2, 0x10), (.cvtif (fr 0x080), abc 0x01000001 0 0, 0x4B800000, 0x10), (.cvtii (fr 0x160), abc 300 0 0, 127, 0),
    (.unpack (fr 0x061), abc 0x0000FF00 0 0, 0xFFFFFFFF, 0), (.unpack (fr 0x091), abc 0x3C000000 0 0, 0x3F800000, 0), (.pack (fr 0x162), abc 300 0x11223344 0, 0x117F3344, 0),
    (.mxdq (fr 0x0F0), abc 0x7F06 0 0, 0x40800000, 0)] : List (Instr × List (Nat × Word) × Word × Nat)).all
    (fun t => res t.1 t.2.1 20 == t.2.2.1 && flags t.1 t.2.1 == t.2.2.2) = true := by decide +kernel
/-- R188's example: 5.0, 0.3, −1.25 and 2.5 share one scale. -/
theorem test_mxq : (List.range 4).map (fun k => ((after (.mxq (fr 0x0F0)) (lab [[(6, 0x40A00000)], [(6, 0x3E99999A)], [(6, 0xBFA00000)], [(6, 0x40200000)]])).curCrew.fibre k).reg 20) =
    [0x7F06, 0x7F01, 0x7F0A, 0x7F04] := by decide +kernel
/-- With invalid enabled, FCMP.lt of a NaN writes nothing and traps; the handler stands at HPC (R164, R395). -/
def fpTrap : State := (lab [ab 0x7FC00000 0]).updCur fun c => { c with mode := 0x20 }
theorem test_fp_trap : executing fpTrap = true ∧ ((fpTrap.fenv (fr 0x82)).read 8 0x7FC00000).isNan = true ∧
    ((after (.fcmp (fr 0x82)) fpTrap).curCrew.fibre 0).pc = 0x40 ∧ ((after (.fcmp (fr 0x82)) fpTrap).curCrew.fibre 0).framePc = 8 ∧ (after (.fcmp (fr 0x82)) fpTrap).curCrew.mode = 0x20 := by decide +kernel

/-! ### Control, fibres and handler mode (R94, R112 to R119, R145 to R148, R393 to R425) -/

/-- PC of a slot after an instruction. -/
def pcOf (i : Instr) (s : State) (k : Nat) : Word := ((after i s).curCrew.fibre k).pc
/-- State of a slot after an instruction. -/
def stOf (i : Instr) (s : State) (k : Nat) : FibreState := ((after i s).curCrew.fibre k).st
/-- BRA by displacement and by register, BRB taken and not, BRX at the last index of its range, CALL, RET, LOOP to its end and NOP. -/
theorem test_control : pcOf (.bra { form := .ri, x := 0xFFFFFFFE }) (lab [[]]) 0 = 6 ∧ pcOf (.bra { a := 6 }) (lab [[(6, 0xFFFFFFFF)]]) 0 = 0xFFFFFFFF ∧
    pcOf (.brb { form := .ri, a := 6, x := 4, md := 3 }) (lab [[(6, 8)]]) 0 = 12 ∧ pcOf (.brb { form := .ri, a := 6, x := 4, md := 0x23 }) (lab [[(6, 8)]]) 0 = 9 ∧
    pcOf (.brx { form := .ri, a := 6, x := 1, md := 5 }) (lab [[(6, 4)]]) 0 = 13 ∧ pcOf (.call { form := .ri, x := 4 }) (lab [[]]) 0 = 12 ∧
    res (.call { form := .ri, x := 4 }) [] 1 = 9 ∧ pcOf (.ret { a := 1 }) (lab [[(1, 77)]]) 0 = 77 ∧ pcOf (.loop { form := .ri, d := 20, x := 0xFFFFFFF8 }) (lab [[(20, 2)]]) 0 = 0 ∧
    pcOf (.loop { form := .ri, d := 20, x := 0xFFFFFFF8 }) (lab [[(20, 1)]]) 0 = 9 ∧ pcOf (.nop {}) (lab [[]]) 0 = 9 := by decide +kernel
/-- BRX with an index equal to its count: slot 1 alone is out of range, and the strand traps (R147). -/
theorem test_jump_range : executing (lab [[(6, 4)], [(6, 5)]]) = true ∧ acts (lab [[(6, 4)], [(6, 5)]]) { form := .ri, a := 6, x := 1, md := 5 } 1 ∧
    ¬acts (lab [[(6, 4)], [(6, 5)]]) { form := .ri, a := 6, x := 1, md := 5 } 2 ∧ pcOf (.brx { form := .ri, a := 6, x := 1, md := 5 }) (lab [[(6, 4)], [(6, 5)]]) 0 = 0x40 := by
  unfold acts; decide +kernel
/-- SPAWN: slot 0 asks for itself, slot 1 and slot 3, and slot 1 for slots 3 and 4; the lower slot has slot 3. -/
def spawner : State := lab [[(6, 0xB)], [(0, 5), (6, 0x18)]]
theorem test_spawn : executing spawner = true ∧ spawner.curCrew.tr = none ∧ res (.spawn { form := .ri, d := 20, a := 6, x := 4 }) [(6, 0xB)] 20 = 0xA ∧
    ((after (.spawn { form := .ri, d := 20, a := 6, x := 4 }) spawner).curCrew.fibre 0).reg 20 = 8 ∧
    ((after (.spawn { form := .ri, d := 20, a := 6, x := 4 }) spawner).curCrew.fibre 1).reg 20 = 0x10 ∧
    ((after (.spawn { form := .ri, d := 20, a := 6, x := 4 }) spawner).curCrew.fibre 4).regs = [(0, 5), (1, 1)] ∧
    pcOf (.spawn { form := .ri, d := 20, a := 6, x := 4 }) spawner 3 = 12 ∧ stOf (.spawn { form := .ri, d := 20, a := 6, x := 4 }) spawner 2 = .free := by decide +kernel
/-- FEND waits for a result owed to an acting fibre; otherwise, under a guard, one fibre ends and the other goes on. -/
def g0 : Fields := { guard := some ⟨false, 0⟩ }
def owes : State := labCrew [[(0, 1)], []] fun c => { c with pend := [{ id := 7, mask := 1, word := word 0x180 0 0 0 0 0 0 0 }] }
theorem test_fend : owes.curCrew.pend.find? (fun p => p.mask &&& owes.actMask g0 != 0) = some { id := 7, mask := 1, word := word 0x180 0 0 0 0 0 0 0 } ∧
    executing owes = true ∧ pcOf (.fend g0) owes 0 = 8 ∧ (after (.fend g0) owes).curCrew.stallClass = 5 ∧ stOf (.fend g0) (lab [[(0, 1)], []]) 0 = .free ∧
    stOf (.fend g0) (lab [[(0, 1)], []]) 1 = .runnable ∧ pcOf (.fend g0) (lab [[(0, 1)], []]) 1 = 9 ∧ (lab [[(0, 1)], []]).curCrew.pend = [] ∧
    (∀ k, k < 32 → (((lab [[(0, 1)], []]).curCrew.fibre k).st = .free ∨ ((lab [[(0, 1)], []]).curCrew.fibre k).st = .runnable)) := by decide +kernel
/-- CONVERGE of the whole crew goes on; with slot 2 still elsewhere the fibres named wait at their PC and the one not named goes on. -/
def split : State := { lab [[], [], []] with cur := { (lab [[], [], []]).cur with mask := 3 } }
theorem test_converge : (∀ k, k < 32 → ((lab [[], []]).curCrew.fibre k).st ≠ .free → (lab [[], []]).cur.mask.getLsbD k = true) ∧
    pcOf (.converge { form := .ri, x := 3 }) (lab [[], []]) 1 = 9 ∧ split.cur.mask.getLsbD 2 = false ∧ (split.curCrew.fibre 2).st = .runnable ∧ executing split = true ∧
    stOf (.converge { form := .ri, x := 5 }) split 0 = .waiting ∧ pcOf (.converge { form := .ri, x := 5 }) split 0 = 8 ∧
    stOf (.converge { form := .ri, x := 5 }) split 1 = .runnable ∧ pcOf (.converge { form := .ri, x := 5 }) split 1 = 9 := by decide +kernel
/-- YIELD ends the credit, PRIO sets the level, PROF with no ring counts a dropped mark, and with room stores one. -/
def profiled : State := { lab [[]] with contexts := (lab [[]]).contexts.modify 0 fun c => { c with pflog := 8, pfbase := 0x50000 } }
theorem test_hints : (after (.yield {}) (lab [[]])).curCrew.credit = 0 ∧ (after (.prio { form := .ri, x := 3 }) (lab [[]])).curCrew.level = 3 ∧
    ((after (.prof { form := .ri, a := 6 }) (lab [[]])).ctx 0).pfdrop = 1 ∧ ((after (.prof { form := .ri, a := 6 }) profiled).ctx 0).pfprod = 1 ∧
    ((after (.prof { form := .ri, a := 6 }) profiled).ctx 0).pfdrop = 0 ∧ acts (lab [[]]) { form := .ri, a := 6 } 0 ∧ (lab [[]]).curCtx < (lab [[]]).contexts.length ∧
    (lab [[]]).actMask g0 = 0 := by unfold acts; decide +kernel

/-- `Local`, as a test: the lines of a range are in this part's memory, and free. -/
def isLocal (s : State) (ia n : Nat) : Bool := (linesOf ia n).all fun l => !s.lineLocked (64 * l) 64 &&
  match s.place (64 * l) with | .ok p => p.peer.isNone && decide (p.phys < poolBase) | .error _ => false
theorem aux_local {s : State} {ia n : Nat} (h : isLocal s ia n = true) : Local s ia n := by
  intro l hl
  have g := List.all_eq_true.mp h l hl
  cases e : s.place (64 * l) with
  | error c => simp [e] at g
  | ok p => simp [e] at g; exact ⟨g.1, p, rfl, g.2.1, g.2.2⟩
/-- `RecordFits`, as a test. -/
def fits (s : State) (ctx : Nat) : Bool := (s.ctx ctx).trlog == 0 || (!(s.ctx ctx).ringFull && isLocal s (s.ctx ctx).recordAt 64)
theorem aux_fits {s : State} {ctx : Nat} (h : fits s ctx = true) : RecordFits s ctx := by
  intro n
  simp [fits, n] at h
  exact ⟨h.1, aux_local h.2⟩
/-- A trap of `lab` can be delivered at once. -/
theorem test_deliverable (l : List (List (Nat × Word))) (h : l ∈ [[[]], [[(0, 1)], []]]) : Deliverable (lab l) := by
  simp only [List.mem_cons, List.not_mem_nil, or_false] at h
  rcases h with rfl | rfl <;> constructor <;> first | decide +kernel | exact aux_fits (by decide +kernel)
/-- FPOL HANDLER decides a BOUNDS, and TRAP's own trap; the strand stands at HPC with its frame, and one record is written (R395, R418). -/
theorem test_handler : handlerCase (lab [[]]) { cause := causeBounds } ∧ handlerCase (lab [[]]) { cause := causeBkpt } ∧ pcOf (.trap { form := .ri, x := 0x15 }) (lab [[]]) 0 = 0x40 ∧
    ((after (.trap { form := .ri, x := 0x15 }) (lab [[]])).curCrew.frame.map fun fr => (fr.cause, fr.arg0, fr.set)) = some (0x2A, 0x15, 1) ∧
    ((after (.trap { form := .ri, x := 0x15 }) (lab [[]])).ctx 0).trprod = 1 ∧ ((after (.trap { form := .ri, x := 0x15 }) (lab [[]])).bytes 0x40000 64).take 2 = [1, 0x2A] := by
  refine ⟨by unfold handlerCase; decide +kernel, by unfold handlerCase; decide +kernel, by decide +kernel⟩
/-- The dispositions of R393: a retry-class fault parks; FPOL 1, or a fault in handler mode, ends the block; COLL_TIMEOUT leaves a record. -/
def stopBlock : State := { lab [[]] with tasks := (lab [[]]).tasks.map fun t => { t with rec_ := { t.rec_ with fpol := 1 } } }
def inHandler : State := labCrew [[(6, 0x77)], []] fun c => { c with frame := some { set := 3, slot := 4, cause := 0x10 }, fibres := c.fibres.map fun f => { f with framePc := 0x30 } }
def raised (s : State) (e : Event) : State := match s.raise {} none e with | .next t => t | _ => s
theorem test_dispositions : ((raised (lab [[]]) { cause := causeNotPresent, arg1 := 0x20000 }).curCrew.fibre 0).st = .parked ∧
    ((raised (lab [[]]) { cause := causeNotPresent, arg1 := 0x20000 }).curCrew.fibre 0).parkPage = 2 ∧ (raised stopBlock { cause := causeBounds }).curBlock.terminated = true ∧
    stopBlock.curTask.rec_.fpol < 2 ∧ stopBlock.curTask.uid = stopBlock.curBlock.task ∧ (raised inHandler { cause := causeBounds }).curBlock.terminated = true ∧
    inHandler.curCrew.frame.isSome = true ∧ ((raised (lab [[]]) { cause := causeCollTimeout }).curCrew.fibre 0).pc = 8 ∧
    ((raised (lab [[]]) { cause := causeCollTimeout }).ctx 0).trprod = 1 := by decide +kernel
/-- DBG with DBGEN stops the block, with one record and one dump record; without it, it is a NOP. -/
def debugged : State := { lab [[]] with contexts := (lab [[]]).contexts.modify 0 fun c => { c with dbgen := true, dumpbase := 0x60000 } }
theorem test_debug_stop : Deliverable debugged ∧ acts debugged {} 0 ∧ (debugged.ctx debugged.curCtx).dbgen = true ∧ (after (.dbg {}) debugged).curBlock.stopped = true ∧
    ((after (.dbg {}) debugged).ctx 0).dumpcnt = 1 ∧ pcOf (.dbg {}) debugged 0 = 8 ∧ pcOf (.dbg {}) (lab [[]]) 0 = 9 := by
  refine ⟨?_, by unfold acts; decide +kernel⟩
  constructor <;> first | decide +kernel | exact aux_fits (by decide +kernel)
/-- TRET in its three forms; outside handler mode ILLEGAL_OPCODE; another strand than the handler set ILLEGAL_CONVERGENCE (R420). -/
theorem test_tret : inHandler.curCrew.tr = none ∧ inHandler.cur.mask = 3 ∧ pcOf (.tret {}) inHandler 0 = 0x30 ∧ pcOf (.tret { md := 1 }) inHandler 1 = 0x31 ∧
    pcOf (.tret { md := 2, a := 6 }) inHandler 0 = 0x77 ∧ (after (.tret {}) inHandler).curCrew.frame = none ∧ (lab [[]]).curCrew.frame = none ∧
    pcOf (.tret {}) (lab [[]]) 0 = 0x40 ∧ ({ inHandler with cur := { inHandler.cur with mask := 1 } }).cur.mask ≠ 3 := by decide +kernel
/-- SYSRD reads the frame, RQREAD an entry of the replay queue, RQDROP drops it (R421, R422, R425). -/
def queued : State := inHandler.updCur fun c => { c with replay := [{ pc := 0x22, mask := 1 }, { pc := 0x23, mask := 2, handler := false }] }
theorem test_handler_state : untried queued {} ∧ queued.curCrew.frame.isSome = true ∧ (queued.acting { form := .rr, d := 20, a := 6 }).head? = some 0 ∧
    (∀ r ∈ queued.curCrew.replay, r.handler = false) ∧
    ((after (.sysrd { form := .ri, d := 20, x := 7 }) queued).curCrew.pend.map fun p => p.writes) = [[(0, [(20, 3)]), (1, [(20, 3)])]] ∧
    ((after (.sysrd { form := .ri, d := 20, x := 1 }) queued).curCrew.pend.map fun p => p.writes) = [[(0, [(20, 0x30)]), (1, [(20, 0x30)])]] ∧
    ((after (.rqread { d := 20, a := 7, md := 3 }) queued).curCrew.pend.map fun p => p.writes) = [[(0, [(20, 0x22)]), (1, [(20, 0x22)])]] ∧
    (after (.rqdrop { a := 7 }) queued).curCrew.replay.map (·.dropped) = [true, false] := by
  refine ⟨fun t h => (nomatch h), ?_⟩
  and_intros <;> decide +kernel
/-- A member of an open try meets an instruction that may not stand in it: it aborts with MISUSE, and slot 1 goes on alone (R367). -/
def tryState (members : Mask) (crew : Bool) : State := labCrew [[(6, 1)], [(6, 1)]] fun c =>
  { c with tr := some { members := members, crewMode := crew, code := 30, target := 0x70, shadow := List.replicate 32 [] } }
theorem test_misuse : executing (tryState 1 false) = true ∧ (tryState 1 false).actMask {} &&& 1 ≠ 0 ∧ (tryState 1 false).cur.mask &&& ~~~(1#32) ≠ 0 ∧
    pcOf (.fend {}) (tryState 1 false) 0 = 0x70 ∧ ((after (.fend {}) (tryState 1 false)).curCrew.fibre 0).reg 30 = 0x0B09 ∧ stOf (.fend {}) (tryState 1 false) 1 = .free ∧
    (tryState 3 true).cur.mask &&& ~~~(3#32) = 0 ∧ pcOf (.svc {}) (tryState 3 true) 1 = 0x70 ∧ ((after (.svc {}) (tryState 3 true)).curCrew.fibre 1).reg 30 = 0x1409 := by
  decide +kernel

/-! ### Memory (R26 to R36, R189 to R216, R315, R335 to R339) -/

/-- Bytes of memory after an instruction. -/
def mem (i : Instr) (s : State) (a n : Nat) : DWord := ofBytes 64 ((after i s).bytes a n)
/-- What slot 0 is owed after an instruction. -/
def owed' (i : Instr) (s : State) : List (Nat × List (Nat × Word)) := (((after i s).curCrew.pend.getLast?).map (·.writes)).getD []
/-- The cause with which an instruction enters the handler. -/
def trapOf (i : Instr) (s : State) : Option (BitVec 8) := (after i s).curCrew.frame.map (·.cause)
/-- `lab` with 16 known bytes at IA 0x10000. -/
def labMem (l : List (List (Nat × Word))) : State := (lab l).setBytes 0x10000 ((List.range 16).map fun k => BitVec.ofNat 8 (0x81 + k))
def ld (md : BitVec 12) (x : Word) : Fields := { form := .ri, d := 20, a := 6, x := x, md := md }
def at2 (o : Nat) : List (Nat × Word) := pr 6 (refTo 2 o)
/-- A write of 16 bytes and one of the value that an unlisted byte reads as; both read back, and the second leaves no entry. -/
theorem test_memory_bytes : (labMem []).bytes 0x10000 2 = [0x81, 0x82] ∧ ((labMem []).setBytes 0x10000 (List.replicate 16 0)).mem = [] ∧
    Memory.wf ((labMem []).setBytes 0x10004 [0, 7]).mem = true ∧ ((labMem []).setBytes 0x10004 [0, 7]).byte 0x10006 = 0x87 := by decide +kernel
/-- The checks of R189 in their order: an unknown entry, BOUNDS at the last byte, RIGHTS, ALIGN; and an access that passes them all. -/
theorem test_checks : ((lab []).check 0 0 0 (refTo 2 0xFFFC) 0xFFFC 4 (Req.load 4) .load).toOption.map (·.ia) = some 0x1FFFC ∧
    (lab []).checkHandle 0 0 0 (refTo 0 0) 0 4 (Req.load 4) = .error (memFault causeGeneration (refTo 0 0) 0) ∧
    (lab []).checkHandle 0 0 5 (refTo 2 0) 0 4 (Req.load 4) = .error (memFault causeTenant (refTo 2 0) 0) ∧
    (lab []).checkHandle 0 0 0 (refTo 2 0 ||| 0x10000000000) 0 4 (Req.load 4) = .error (memFault causeGeneration (refTo 2 0 ||| 0x10000000000) 0) ∧
    (lab []).checkHandle 0 0 0 (refTo 2 0) 0xFFFD 4 (Req.load 4) = .error (memFault causeBounds (refTo 2 0) 0xFFFD) ∧
    (lab []).checkHandle 0 0 0 (refTo 2 0) (-4) 4 (Req.load 4) = .error (memFault causeBounds (refTo 2 0) (-4)) ∧
    (lab []).checkHandle 0 0 0 (refTo 4 0) 0 4 (Req.store 4) = .error (memFault causeRights (refTo 4 0) 0) ∧
    (lab []).checkHandle 0 0 0 (refTo 2 0) 2 4 (Req.load 4) = .error (memFault causeAlign (refTo 2 0) 2) := by decide +kernel
/-- A load statement's premises: every access granted, or one refused; and the registers owed: S8, B8, W32 at an offset, W64 (R206). -/
theorem test_loads : executing (labMem [at2 0]) = true ∧ ((labMem [at2 0]).checkWants ((labMem [at2 0]).wants (ld 0x40 4)) 4 (Req.load 4) .load).toOption.isSome = true ∧
    ((labMem [at2 0]).checkWants ((labMem [at2 0]).wantsSpan (ld 0x40 4)) 4 (Req.load 4) .load).toOption.isSome = true ∧
    ((labMem [at2 0]).checkWants ((labMem [at2 0]).wants (ld 0x40 2)) 4 (Req.load 4) .load).toOption.isSome = false ∧
    owed' (.ld (ld 0x00 0)) (labMem [at2 0]) = [(0, [(20, 0xFFFFFF81)])] ∧ owed' (.ld (ld 0x10 0)) (labMem [at2 0]) = [(0, [(20, 0x81)])] ∧
    owed' (.ld (ld 0x40 4)) (labMem [at2 4]) = [(0, [(20, 0x8C8B8A89)])] ∧ owed' (.ld (ld 0x50 0)) (labMem [at2 8]) = [(0, pr 20 0x908F8E8D8C8B8A89)] ∧
    trapOf (.ld (ld 0x40 2)) (labMem [at2 0]) = some causeAlign := by decide +kernel
/-- LD with an index scaled by 4, LDQ of three slots with a gap, ROWLD through the row-direct entry. -/
theorem test_loads_more : owed' (.ld { ld 0x240 4 with form := .rri, b := 12 }) (labMem [(12, 1) :: at2 0]) = [(0, [(20, 0x8C8B8A89)])] ∧
    owed' (.ldq { ld 0x40 0 with guard := some ⟨true, 0⟩ }) (labMem [at2 0, [(0, 1)], []]) = [(0, [(20, 0x84838281)]), (2, [(20, 0x8C8B8A89)])] ∧
    owed' (.rowld (ld 0x40 0)) (labMem [pr 6 (refTo 3 0)]) = [(0, [(20, 0x84838281)])] ∧ (labMem [pr 6 (refTo 3 0)]).cur.stale = false := by decide +kernel
/-- ST, STQ and ROWST store the bytes of each acting slot in order, the last writer of an address winning; a refused store writes nothing. -/
theorem test_stores : mem (.st (ld 0x10 1)) (labMem [(20, 0x1AA) :: at2 0]) 0x10000 4 = 0x8483AA81 ∧ mem (.st (ld 0x50 8)) (lab [pr 20 0x1122334455667788 ++ at2 0]) 0x10008 8 = 0x1122334455667788 ∧
    mem (.st (ld 0x40 0)) (lab [(20, 1) :: at2 0, (20, 2) :: at2 0]) 0x10000 4 = 2 ∧ mem (.stq (ld 0x40 0)) (lab [(20, 1) :: at2 0, [(20, 2)]]) 0x10000 8 = 0x200000001 ∧
    mem (.rowst (ld 0x40 0)) (lab [(20, 5) :: pr 6 (refTo 3 0)]) 0x10000 4 = 5 ∧ mem (.st (ld 0x40 0)) (labMem [(20, 1) :: pr 6 (refTo 4 0)]) 0x10000 4 = 0x84838281 ∧
    trapOf (.st (ld 0x40 0)) (labMem [(20, 1) :: pr 6 (refTo 4 0)]) = some causeRights := by decide +kernel
/-- The premises of a store statement: every access granted, no line held, and the release of the lowest slot. -/
theorem test_store_premises : let s := lab [(20, 1) :: at2 0]
    (s.checkWants (s.wants (ld 0x840 0)) 4 (Req.store 4) .store).toOption.isSome = true ∧ (s.release 0).toOption.isSome = true ∧
    ((s.checkWants (s.wants (ld 0x840 0)) 4 (Req.store 4) .store).toOption.map fun as => s.mustHold (as.map fun x => (x.2, 4))) = some false := by decide +kernel
/-- REFMK, REFADD whose sum leaves the offset (0 with `.check`, wrapped without), PREF of a null handle, and HQRY of a live and of a null handle. -/
theorem test_references : res2 (.refmk { form := .ri, d := 20, a := 6, x := 0x10 }) [(6, 0x80)] 20 = refTo 2 0x10 ∧
    res2 (.refadd { form := .ri, d := 20, a := 6, x := 0xFFFFFFF8, md := 1 }) (at2 0) 20 = 0 ∧
    res2 (.refadd { form := .ri, d := 20, a := 6, x := 0xFFFFFFF8 }) (at2 0) 20 = refTo 2 0xFFFFFFFFF8 ∧ pcOf (.pref { form := .ri, a := 6 }) (lab [[]]) 0 = 9 ∧
    owed' (.hqry { d := 20, a := 6, md := 0 }) (lab [pr 6 (refTo 0 0)]) = [(0, [(20, 0)])] ∧ ((lab [at2 0]).hqry 0 (refTo 2 0)).toOption.isSome = true ∧
    ((lab [at2 0]).entry (lab [at2 0]).curCore (lab [at2 0]).curCtx (refTo 2 0) 0).toOption = some dataEntry ∧ Ent.invalid dataEntry = false ∧
    Ent.tenant dataEntry = (lab [at2 0]).curTenant := by decide +kernel
/-- ATOM.add by two slots on one word, ACAS that matches and one that does not, ACAS2, AFADD.f32, and the scratchpad forms. -/
theorem test_atomics : mem (.atom { ld 0x40 0 with form := .rri, b := 12 }) (lab [(12, 1) :: at2 0, (12, 2) :: at2 0]) 0x10000 4 = 3 ∧
    owed' (.atom { ld 0x40 0 with form := .rri, b := 12 }) (lab [(12, 1) :: at2 0, (12, 2) :: at2 0]) = [(0, [(20, 0)]), (1, [(20, 1)])] ∧
    mem (.acas { d := 20, a := 6, b := 12, x := c16, md := 0x40 }) (lab [[(12, 0), (16, 9)] ++ at2 0]) 0x10000 4 = 9 ∧
    mem (.acas { d := 20, a := 6, b := 12, x := c16, md := 0x40 }) (lab [[(12, 1), (16, 9)] ++ at2 0]) 0x10000 4 = 0 ∧
    mem (.acas2 { d := 20, a := 6, b := 12, x := c16, md := 0x60 }) (lab [[(16, 9), (19, 8)] ++ at2 0]) 0x10008 8 = 0x800000000 ∧
    mem (.afadd { ld 0x40 0 with form := .rri, b := 12 }) ((lab [(12, 0x3F800000) :: at2 0]).setBytes 0x10000 [0, 0, 0x80, 0x3F]) 0x10000 4 = 0x40000000 ∧
    (after (.atoms { ld 0x40 0 with form := .rri, b := 12 }) (lab [[(12, 7), (6, 16)]])).curBlock.scrN 16 4 = [7, 0, 0, 0] ∧
    (after (.acass { d := 20, a := 6, b := 12, x := c16, md := 0x40 }) (lab [[(16, 7), (6, 16)]])).curBlock.scrN 16 4 = [7, 0, 0, 0] := by decide +kernel
/-- Premises of the scratchpad atomics' statement: one acting slot, no fault, no lock. -/
theorem test_scr_atomic_premises : (lab [[(12, 7), (6, 16)]]).acting (ld 0x40 0) = [0] ∧ (lab [[]]).scrAtomCheck 16 4 = none ∧ (lab [[]]).scrLocked 1 16 4 = false := by decide +kernel
/-- LDS and STS at the last word of the scratchpad; BOUNDS one byte past it; ALIGN (R200). -/
theorem test_scratchpad : (after (.sts (ld 0x40 0)) (lab [[(6, 8188), (20, 7)]])).curBlock.scrN 8188 4 = [7, 0, 0, 0] ∧
    owed' (.lds (ld 0x40 0)) (after (.sts (ld 0x40 0)) (lab [[(6, 8188), (20, 7)]])) = [(0, [(20, 7)])] ∧ trapOf (.lds (ld 0x40 0)) (lab [[(6, 8192)]]) = some causeBounds ∧
    trapOf (.sts (ld 0x40 0)) (lab [[(6, 2)]]) = some causeAlign ∧ (lab [[]]).scrCheck 8188 4 = none ∧ ((lab [[]]).scrTouch 4 true [(0, 8188)]).toOption.isSome = true ∧
    (lab [[]]).scrTouch 4 false [(0, 8189)] = .error (0, scrFault causeBounds 8189) ∧ ∀ w ∈ (lab [[]]).curBlock.windows, w = none := by decide +kernel
/-- STASH maps window 0 on 0x1000 bytes at 0; all eight taken it answers 0xFFFF_FFFF; UNSTASH.discard unmaps; FLUSHS keeps the mapping. -/
def stashF : Fields := { form := .rri, d := 20, a := 6, b := 12, x := 0x1000, md := 1 }
def stashed : State := after (.stash stashF) (lab [at2 0])
def allTaken : State := (lab [at2 0]).updBlock 1 fun b => { b with windows := List.replicate 8 (some { base := 0x1000, len := 64, ref := 0, writable := false }) }
theorem test_stash : ((stashed.curCrew.fibre 0).reg 20 = 0 ∧ stashed.curBlock.windows[0]? = some (some { base := 0, len := 0x1000, ref := refTo 2 0, writable := true })) ∧
    ((after (.stash stashF) allTaken).curCrew.fibre 0).reg 20 = 0xFFFFFFFF ∧ (∀ w, w < 8 → allTaken.curBlock.windows[w]? ≠ some none) ∧
    stashed.namedWindow { a := 20, md := 1 } 0 = some 0 ∧ (after (.unstash { a := 20, md := 1 }) stashed).curBlock.windows[0]? = some none ∧
    stashed.namedWindow { a := 12, b := 0 } 0 = some 0 ∧ (stashed.writeBacks (stashed.agent 0) 1 [0]).toOption.isSome = true ∧
    (after (.flushs { a := 20 }) stashed).curBlock.windows = stashed.curBlock.windows ∧ (lab [[(20, 3)]]).namedWindow { a := 20 } 0 = none ∧
    trapOf (.unstash { a := 20 }) (lab [[(20, 3)]]) = some causeBounds := by decide +kernel
/-- The premises of STASH's statement. -/
theorem test_stash_premises : let s := lab [at2 0]
    (s.acting stashF).head? = some 0 ∧ s.curBlock.meetsWindow 0 0x1000 = false ∧
    (s.checkHandle s.curCore s.curCtx s.curTenant (refTo 2 0) 0 0x1000 { kinds := [1, 3, 4], r := true, w := true, stash := true, align := 64 }).toOption = some dataEntry ∧
    s.ops.length = 0 ∧ s.curBlock.windows.length = 8 ∧ s.curBlock.windows[0]? = some none ∧ allTaken.curBlock.meetsWindow 0 0x1000 = false := by decide +kernel
/-- A window's line: its one dirty byte reaches the object under the byte mask, and the line's other bytes stand (R202). -/
theorem test_write_back : let s := after (.sts (ld 0x10 0)) { stashed with mem := (labMem []).mem }
    (s.curBlock.windows[0]?.bind id).map (·.dirty) = some [0] ∧ ((s.writeBacks (s.agent 0) 1 [0]).toOption.map fun u => u.bytes 0x10000 2) = some [0, 0x82] ∧
    s.blocks.any (fun b => b.bid == 1) = true ∧ 0 < (s.block 1).windows.length := by decide +kernel

/-! ### Held rows (R241, R246 to R249) -/

def rowF : Fields := { form := .ri, d := 20, a := 6 }
/-- Frame 1, which holds IA page 1, is in the fast slot of its group. -/
def rowLab : State := { lab [pr 6 (refTo 3 0)] with resident := [(0, 1)] }
/-- A row held by entry 0 under epoch 5; the same with both entries held. -/
def rowHeld : State := { (rowLab.updBlock 1 fun b => { b with holds := [{ held := true, row := 64, epoch := 5, slot := 9 }, {}] }) with
  rowSlots := [(9, { blk := 1, h := 0, row := 64 })] }
def rowFull : State := rowHeld.updBlock 1 fun b => { b with holds := [{ held := true, row := 65 }, { held := true, row := 66 }] }
/-- The frame's group has another member in its fast slot; with few pages mapped the group may be swapped, while one is pinned it may not. -/
def rowSlow (pin : Bool) : State := { rowLab with
  mtus := rowLab.mtus.map fun m => { m with mptlen := 2 }
  resident := [(0, 2)]
  mem := Sparse.putN memDefault rowLab.mem (rowLab.pteAddr 0) (toBytes 8 (at_ 64 61 3 1 ||| at_ 64 0 25 3 ||| at_ 64 57 1 (if pin then 1 else 0))) }
/-- ROWOPEN opens the row in entry 0; a row already held is answered with its token; no entry left is a ROW_SLOT; no hold table at all too. -/
theorem test_rowopen : rowLab.rowCheck (refTo 3 0) 0 = .ok { ent := rowEntry, ia := 0x10000, place := { phys := 0x10000 } } ∧
    (after (.rowopen rowF) rowLab).curBlock.holds.map (fun h => (h.held, h.row)) = [(true, 64), (false, 0)] ∧
    owed' (.rowopen rowF) rowLab = [(0, [(20, 0x8000)])] ∧ rowHeld.rowAnswer rowHeld.curBlock 64 { phys := 0x10000 } false = .held 0 ∧
    owed' (.rowopen rowF) rowHeld = [(0, [(20, 0x58000)])] ∧ rowFull.rowAnswer rowFull.curBlock 64 { phys := 0x10000 } false = .slotTrap ∧
    trapOf (.rowopen rowF) rowFull = some causeRowSlot ∧ trapOf (.rowopen rowF) (rowLab.updBlock 1 fun b => { b with holds := [] }) = some causeRowSlot := by decide +kernel
/-- A slow row: pinned it is refused, with `.nowait` refused, otherwise it waits for its swap and no fibre moves. -/
theorem test_rowopen_slow : (rowSlow true).rowAnswer (rowSlow true).curBlock 64 { phys := 0x10000 } false = .refused 3 ∧
    (rowSlow false).rowAnswer (rowSlow false).curBlock 64 { phys := 0x10000 } true = .refused 4 ∧
    (rowSlow false).rowAnswer (rowSlow false).curBlock 64 { phys := 0x10000 } false = .swap 1 ∧ pcOf (.rowopen rowF) (rowSlow false) 0 = 8 ∧
    (after (.rowopen rowF) (rowSlow false)).promotions.map (·.dfn) = [1] ∧ owed' (.rowopen { rowF with md := 1 }) (rowSlow false) = [(0, [(20, 4)])] := by decide +kernel
/-- A token names entry 0 under its epoch; ROWREL drops it and raises the epoch; a stale token is a NOP and reads 0. -/
theorem test_tokens : rowHeld.curBlock.grant 0 = 0x58000 ∧ rowHeld.curBlock.token 0x58000 = some 0 ∧ rowHeld.curBlock.token 0x48000 = none ∧ rowHeld.curBlock.token 0x58020 = none ∧
    (after (.rowrel { a := 20 }) (rowHeld.updCur fun c => c.updFibre 0 (·.setReg 20 0x58000))).curBlock.hold 0 = { held := false, row := 64, epoch := 6, slot := 9 } ∧
    pcOf (.rowrel { a := 20 }) rowHeld 0 = 9 ∧ owed' (.rowq { d := 20, a := 20 }) rowHeld = [(0, [(20, 0)])] := by decide +kernel

/-! ### Engines (R251 to R304) -/

/-- Entry 5: a PARAM object of 4 KiB at IA 0x20000. -/
def paramEntry : BitVec 512 := at_ 512 0 3 3 ||| at_ 512 3 1 1 ||| at_ 512 64 49 0x20000 ||| at_ 512 128 41 4096 ||| at_ 512 192 8 1
/-- A tensor of 8 × 2 words at entry 2, 32 bytes a row: a box of 4 × 2 words from its origin (R262). -/
def tdBoxed : BitVec 512 := 0x3F9FF6CA000000000000000000000000000000000020000000001003000000000000000000000000000000000000000002000008000080000000000000006001
theorem test_td_boxed : tdBoxed = seal64 (at_ 512 0 8 1 ||| at_ 512 12 2 2 ||| at_ 512 14 2 1 ||| at_ 512 32 64 (refTo 2 0).toNat ||| at_ 512 96 24 8 ||| at_ 512 120 24 2 |||
  at_ 512 288 12 3 ||| at_ 512 300 12 1 ||| at_ 512 336 40 32) := by decide +kernel
/-- The same tensor read by a list of two rows of two words. -/
def tdListed : BitVec 512 := 0x182125C4000000000000000000000000000000000020000000001001000000000000000000000000000000000000000004000008000080000000000000006101
theorem test_td_listed : tdListed = seal64 (at_ 512 0 8 1 ||| at_ 512 8 2 1 ||| at_ 512 12 2 2 ||| at_ 512 14 2 1 ||| at_ 512 32 64 (refTo 2 0).toNat ||| at_ 512 96 24 8 |||
  at_ 512 120 24 4 ||| at_ 512 288 12 1 ||| at_ 512 300 12 1 ||| at_ 512 336 40 32) := by decide +kernel
/-- A product of 16 × 16 E4M3 elements over one block of 32: A at 0, B at 512, C at 0 with rows of 64 bytes; `conv` takes A from 4096 of the
accumulator store (R284). -/
def shape (conv : Bool) : BitVec 512 := if conv then 0x24CB01F1000000000000004000000000000000000000000000000000000000000000002000000080000000000000020000000000000010000000000000022201
  else 0x2090c854000000000000004000000000000000000000000000000000000000000000002000000020000000000000020000000000000000000000000000002201
theorem test_shape : shape false = seal64 (at_ 512 0 8 1 ||| at_ 512 8 4 2 ||| at_ 512 12 4 2 ||| at_ 512 16 2 0 |||
  at_ 512 64 64 0 ||| at_ 512 128 64 512 ||| at_ 512 192 32 32 ||| at_ 512 224 32 32 ||| at_ 512 416 32 64) ∧
    shape true = seal64 (at_ 512 0 8 1 ||| at_ 512 8 4 2 ||| at_ 512 12 4 2 ||| at_ 512 16 2 2 |||
  at_ 512 64 64 4096 ||| at_ 512 128 64 512 ||| at_ 512 192 32 128 ||| at_ 512 224 32 32 ||| at_ 512 416 32 64) := by decide +kernel
/-- A ring of two devices of which this one is the first; epoch 3, ring 7, TMO 10 µs; its staging object is entry 2 at 0x8000 (R270). -/
def ringRec (epoch : Nat) : BitVec 1024 := if epoch = 3 then
    0x24968F1200000000000000000000000000000000000000000000000000000000000000000000000000000000000000000000000000000000000000000000000000000000000000000000000000000000000000000000000000000000002200110000000000000000000000000000000A00008000000080000000000700030101
  else 0xA73A6D6C00000000000000000000000000000000000000000000000000000000000000000000000000000000000000000000000000000000000000000000000000000000000000000000000000000000000000000000000000000000002200110000000000000000000000000000000A00008000000080000000000700040101
theorem test_ring_record : Rr.sealed (ringRec 3) = true ∧ Rr.sealed (ringRec 4) = true ∧ ∀ e, e = 3 ∨ e = 4 → (ringRec e).setWidth 992 = BitVec.setWidth 992 (
    at_ 1024 0 8 1 ||| at_ 1024 8 4 1 ||| at_ 1024 16 16 e ||| at_ 1024 32 32 7 ||| at_ 1024 64 64 (refTo 2 0x8000).toNat ||| at_ 1024 128 32 10 |||
    at_ 1024 256 12 0x11 ||| at_ 1024 272 12 0x22) := by
  refine ⟨?_, ?_, ?_⟩
  iterate 2 decide +kernel
  rintro e (rfl | rfl) <;> decide +kernel
/-- `lab` with one of those parameter blocks, that which v6 of slot 0 names under entry 5: they lie every 128 bytes from 0x20000. -/
def engLab (l : List (List (Nat × Word))) : State :=
  let s := lab l
  { s with
    cores := s.cores.modify 0 fun k => { k with handles := (handleKey 0 5, paramEntry, none) :: k.handles }
    latigo := { s.latigo with pbr := 0x11 }
    mem := match l.head? >>= fun r => Sparse.find? r 6 with
      | some 0x000 => Sparse.putN memDefault [] 0x20000 (toBytes 64 tdBoxed)
      | some 0x080 => Sparse.putN memDefault [] 0x20080 (toBytes 64 tdListed)
      | some 0x100 => Sparse.putN memDefault [] 0x20100 (toBytes 64 (shape false))
      | some 0x180 => Sparse.putN memDefault [] 0x20180 (toBytes 64 (shape true))
      | some 0x200 => Sparse.putN memDefault (Sparse.putN memDefault [] 0x20200 (toBytes 128 (ringRec 3))) 0x20280 (toBytes 128 (ringRec 4))
      | _ => [] }
/-- The last operation started, and what a counter then stands at. -/
def started (i : Instr) (s : State) : Option EngineOp := (after i s).ops.getLast?
def counter (i : Instr) (s : State) (cls : Nat) : Nat := (((after i s).curCrew.counters)[cls]?).getD 0
def par (o : Nat) : List (Nat × Word) := pr 6 (refTo 5 o)
/-- The second read of a parameter block that was torn, 256 clk after the first (R263). -/
def readAgain (ref : DWord) (s : State) : State :=
  { s.updCur fun c => { c with fibres := c.fibres.map fun f => { f with tornAt := some (0, ref) } } with
    cores := s.cores.modify 0 fun k => { k with clk := 256 } }
def ready (s : State) (f : Fields) (cls : Nat) : Bool :=
  executing s && s.curCrew.tr.isNone && (s.acting f).head? == some 0 && decide ((s.curCrew.counters[cls]?).getD 0 < 255) && s.converged

/-- ACP of two lanes with a stamp: premises, its moves and its counter; an unaligned lane starts nothing. -/
def acpF : Fields := { form := .ri, d := 10, a := 6, b := 12, x := 0x100, md := 0x440 }
def acpLab : State := engLab [[(12, 64)] ++ pr 10 (refTo 2 0x200) ++ at2 0, [(12, 68)] ++ at2 4]
theorem test_acp : ready acpLab acpF 0 = true ∧ (acpLab.acpLanes acpF (acpLab.acting acpF)).toOption.isSome = true ∧ (acpLab.stampFor acpF 0).toOption.isSome = true ∧
    (started (.acp acpF) acpLab).map (fun o => (o.ranges, o.cls, o.stamp.isSome)) = some ([(64, 4), (68, 4)], 0, true) ∧ counter (.acp acpF) acpLab 0 = 1 ∧
    (acpLab.acpLanes { acpF with a := 12 } [0]).toOption.isSome = false ∧ trapOf (.acp { acpF with x := 2 }) acpLab = some causeAlign ∧
    (after (.acp { acpF with x := 2 }) acpLab).ops.length = 0 := by decide +kernel
/-- TCP copies eight words to 256; GATHER two rows by the list at 512; both start in their own class. -/
theorem test_tensor : ready (engLab [(12, 256) :: par 0]) { a := 6, b := 12 } 0 = true ∧ ((engLab [(12, 256) :: par 0]).tcpPlan { a := 6, b := 12 } 0).toOption.isSome = true ∧
    ((started (.tcp { a := 6, b := 12 }) (engLab [(12, 256) :: par 0])).map fun o => (o.ranges, match o.work with | .copy _ todo _ => todo[4]? | _ => none)) =
      some ([(256, 32)], some ⟨.mem 0 32, .scr 1 272, 4⟩) ∧ ((engLab [(12, 256) :: par 64]).tcpPlan { a := 6, b := 12 } 0).toOption.isSome = false ∧
    trapOf (.tcp { a := 6, b := 12 }) (engLab [(12, 256) :: par 64]) = none ∧
    trapOf (.tcp { a := 6, b := 12 }) (readAgain (refTo 5 64) (engLab [(12, 256) :: par 64])) = some causeParamTorn ∧
    ((engLab [[(12, 256), (16, 512)] ++ par 128]).gatherPlan { a := 6, b := 12, x := c16 } 0).toOption.isSome = true ∧
    (engLab [[(12, 256), (16, 512)] ++ par 128]).curBlock.scrPoisoned 512 8 = false ∧
    ((started (.gather { a := 6, b := 12, x := c16 }) (engLab [[(12, 256), (16, 512)] ++ par 128])).map fun o => (o.cls, o.ranges)) = some (2, [(256, 16)]) := by decide +kernel
/-- PUT to the block itself, PFX and WBX of a region. -/
theorem test_put_region : ready (engLab [[(6, 0), (12, 96), (16, 0)]]) { a := 6, b := 12, x := 0x10000002 } 1 = true ∧ (lab [[]]).blockAt 1 0 0 = some (lab [[]]).curBlock ∧
    ((started (.put { a := 6, b := 12, x := 0x10000002 }) (engLab [[(6, 0), (12, 96), (16, 0)]])).map fun o => (o.cls, o.ranges)) = some (1, [(0, 64), (96, 64)]) ∧
    ((lab [at2 0]).regionOperand { form := .ri, a := 6, x := 64 } 0).toOption.isSome = true ∧
    ((started (.pfx { form := .ri, a := 6, x := 64 }) (lab [at2 0])).map (·.work)) = some (.pfx { ref := refTo 2 0, ent := dataEntry, n := 1, req := regionReq } false 0 64) ∧
    ((started (.wbx { form := .ri, a := 6, x := 64 }) (lab [at2 0])).map (·.work)) = some (.wbx { ref := refTo 2 0, ent := dataEntry, n := 1, req := regionReq } false 0 64 0) := by decide +kernel
/-- A full counter stalls, no acting fibre makes a NOP, a strand that is not converged traps in a form that needs its crew (R252, R256, R280). -/
def fullCounters : State := labCrew [at2 0] fun c => { c with counters := List.replicate 6 255 }
theorem test_engine_issue : executing fullCounters = true ∧ fullCounters.curCrew.tr = none ∧ fullCounters.acting acpF ≠ [] ∧ (after (.acp acpF) fullCounters).curCrew.stallClass = 4 ∧
    pcOf (.acp acpF) fullCounters 0 = 8 ∧ (lab [[]]).acting g0 = [] ∧ pcOf (.mma g0) (lab [[]]) 0 = 9 ∧ split.converged = false ∧ split.curCrew.tr = none ∧
    trapOf (.mma {}) split = some causeIllegalConvergence ∧ fullCounters.converged = true ∧ (after (.mma {}) fullCounters).curCrew.stallClass = 4 := by decide +kernel
/-- WAITC at its counter's value goes on, above it waits; CNTR reads it. -/
def counted : State := labCrew [[]] fun c => { c with counters := [0, 0, 0, 7, 0, 0] }
theorem test_counters : pcOf (.waitc { form := .ri, x := 7, md := 3 }) counted 0 = 9 ∧ stOf (.waitc { form := .ri, x := 6, md := 3 }) counted 0 = .waiting ∧
    ((after (.waitc { form := .ri, x := 6, md := 3 }) counted).curCrew.fibre 0).wait = .counter 3 6 ∧ counted.actMask {} ≠ 0 ∧ counted.actMask g0 = 0 ∧
    ((after (.cntr { form := .ri, d := 20, x := 3 }) counted).curCrew.fibre 0).reg 20 = 7 := by decide +kernel
/-- MMA, MMAC and MMAS start a product of 16 × 16; a torn shape record traps; RQT transposes 32 × 32 bytes. -/
theorem test_matrix : ready (engLab [par 0x100]) { a := 6 } 3 = true ∧ ((engLab [par 0x100]).productPlan { a := 6 } 0 false false).toOption.isSome = true ∧
    ((engLab [par 0x180]).productPlan { a := 6 } 0 true false).toOption.isSome = true ∧ ((engLab [(16, 2048) :: par 0x100]).productPlan { a := 6, x := c16 } 0 false true).toOption.isSome = true ∧
    (engLab [(16, 2048) :: par 0x100]).meUses 2048 1 = false ∧ ((started (.mma { a := 6 }) (engLab [par 0x100])).map fun o => (o.cls, o.locked)) = some (3, [(0, 512), (512, 512)]) ∧
    ((started (.mmac { a := 6 }) (engLab [par 0x180])).map fun o => match o.work with | .product p => (p.a, p.m) | _ => (.none, 0)) = some (.acc 4096, 16) ∧
    ((started (.mmas { a := 6, x := c16 }) (engLab [(16, 2048) :: par 0x100])).map fun o => match o.work with | .product p => p.keepK | _ => []) = some [false] ∧
    ((engLab [par 0x40]).productPlan { a := 6 } 0 false false).toOption.isSome = false ∧ trapOf (.mma { a := 6 }) (readAgain (refTo 5 0x40) (engLab [par 0x40])) = some causeParamTorn ∧
    ((started (.rqt { d := 20, a := 6, b := 12, x := c16, md := 2 }) (engLab [[(20, 1024), (6, 0), (12, 4096), (16, 4100)]])).map (·.locked)) = some [(0, 1024)] ∧
    (engLab [[]]).xuRange 1024 1024 = .ok () ∧ overlap 1024 1024 0 1024 = false := by decide +kernel
/-- ACCZ, ACCLD, ACCST, ACCSCL, ACCEXP and ACCROW start; an unaligned row traps (R297 to R300). -/
def accLab : State := engLab [[(6, 64), (12, 0), (16, 128), (20, 1)], [(6, 192), (12, 0), (16, 128)]]
theorem test_acc : ready accLab { form := .ri, a := 6, x := 64 } 3 = true ∧ (accLab.accPlan { a := 6, x := 0x10000040 } 0 false).toOption.isSome = true ∧
    ((started (.accz { form := .ri, a := 6, x := 64 }) accLab).map (·.work)) = some (.accz 64 64) ∧
    ((started (.accld { a := 6, x := 0x10000040, md := 0x80 }) accLab).map (·.work)) = some (.accld none 64 128 64 8 0 []) ∧
    (accLab.accPlan { a := 6, x := 0x10000040, md := 0x80 } 0 true).toOption.isSome = true ∧
    ((started (.accst { a := 6, x := 0x10000040, md := 0x80 }) accLab).map (·.work)) = some (.accst none 64 128 64 8 0 false 0 []) ∧
    (accLab.accRows { a := 6, b := 12 } (fun a => (a.reg 6).toNat) 64 (accLab.acting { a := 6, b := 12 })).toOption = some [(0, 64), (1, 192)] ∧
    ((started (.accscl { a := 6, b := 12 }) accLab).map (·.work)) = some (.accscl false 16 [(64, 0), (192, 0)]) ∧
    ((started (.accexp { a := 6, b := 12, x := c16 }) accLab).map (·.work)) = some (.accexp 16 [(64, 0, 128), (192, 0, 128)]) ∧
    ((started (.accrow { d := 21, a := 6 }) accLab).map fun o => (o.work, o.counted)) = some (.accrow 0 16 false 21 [(0, 64), (1, 192)], false) ∧
    trapOf (.accrow { d := 21, a := 20 }) accLab = some causeAlign := by decide +kernel
/-- SKBUILD, SKSCORE from the scratchpad and from memory, SKSEL and SKMAP. -/
theorem test_sketch : ready (engLab [[(6, 0), (12, 1024), (16, 0x3F800000)]]) { a := 6, b := 12, x := c16, md := 0x80 } 4 = true ∧
    ((started (.skbuild { a := 6, b := 12, x := c16, md := 0x80 }) (engLab [[(6, 0), (12, 1024), (16, 0x3F800000)]])).map (·.work)) = some (.skbuild 0 1024 8 false 0x3F800000 1 0) ∧
    ((started (.skscore { a := 6, x := c16 }) (engLab [[(6, 0), (16, 128)]])).map (·.work)) = some (.skscore none 0 128 1 0 none) ∧
    ((started (.skscore { form := .pair, a := 6, x := c16 }) (engLab [(16, 128) :: at2 0])).map (·.ranges)) = some [(128, 34)] ∧
    ((engLab [[]]).xuMem (refTo 2 0) 31 1 (engineReq false)).toOption.isSome = true ∧
    ((started (.sksel { d := 20, a := 6, b := 12, x := c16 }) (engLab [[(6, 0), (12, 1024), (16, 5)]])).map (·.work)) = some (.sksel 0 1024 5 1 1 1 20) ∧
    counter (.sksel { d := 20, a := 6, b := 12, x := c16 }) (engLab [[(6, 0), (12, 1024), (16, 5)]]) 4 = 1 ∧
    ((started (.skmap { a := 6, b := 12, x := c16 }) (engLab [[(6, 0), (12, 1024), (16, 5)]])).map (·.work)) = some (.skmap 0 1024 5 1 0 64 false) := by decide +kernel
/-- COLL joins its ring, meets a marker, and is refused one with no elements; COLLX leaves the old ring's marker; COLLQ reads it. -/
def collF : Fields := { d := 10, a := 6, b := 12, x := c16, md := 0x80 }
def collLab : State := engLab [[(16, 8)] ++ pr 10 (refTo 2 0x200) ++ pr 12 (refTo 2 0x1000) ++ par 0x200]
theorem test_coll : ready collLab collF 5 = true ∧ (∀ x ∈ collLab.ops, x.id ≠ collLab.nextId) ∧ (collLab.collPlan collF 0).toOption.isSome = true ∧
    (after (.coll collF) collLab).rings = [{ ring := 7, epoch := 3, ctx := 0 }] ∧ ((started (.coll collF) collLab).map fun o => (o.ring, o.cls)) = some (7, 5) ∧
    ((started (.coll collF) { collLab with rings := [{ ring := 7, epoch := 3, ctx := 0, marker := true }] }).map fun o => (o.phase, o.status)) = some (.ended, 3) ∧
    ((started (.coll collF) { collLab with rings := [{ ring := 7, epoch := 3, ctx := 0, st := .failed }] }).map fun o => (o.phase, o.status)) = some (.ended, 1) ∧
    (collLab.collPlan { collF with x := 0x15000000 } 0).toOption.isSome = false ∧ trapOf (.coll { collF with x := 0x15000000 }) collLab = some causeBounds := by decide +kernel
def collxLab : State := after (.coll collF) (engLab [[(16, 8)] ++ pr 10 (refTo 2 0x200) ++ pr 12 (refTo 2 0x1000) ++ par 0x200])
def collxReady : State := { collxLab with blocks := (engLab [pr 12 (refTo 5 0x280) ++ pr 10 (refTo 2 0x200) ++ par 0x200]).blocks }
theorem test_collx : (collxReady.collxPlan { d := 10, a := 6, b := 12 } 0).toOption.isSome = true ∧ collxReady.latigo.fmValid = false ∧
    (after (.collx { d := 10, a := 6, b := 12 }) collxReady).ringOf 7 3 = some { ring := 7, epoch := 3, ctx := 0, st := .retired, count := 1, marker := true } ∧
    (after (.collx { d := 10, a := 6, b := 12 }) collxReady).ops.map (fun o => (o.phase, o.status)) = [(.ended, 3), (.working, 0)] ∧
    (collxReady.ringRecord (refTo 5 0x200)).toOption.isSome = true ∧ (after (.collq { d := 20, a := 6 }) collxReady).curCrew.pend.length = 1 := by decide +kernel

/-! ### Synchronisation and tries (R340 to R356, R359 to R375) -/

/-- Two crews of the fibres listed, that of crew 0 in execution. -/
def lab2 (l : List (List (Nat × Word))) (g : Block → Block) : State := (lab l).updBlock 1 fun b => g { b with crews := b.crews ++ b.crews }
def bar4 (x : Word) : Fields := { form := .ri, d := 20, a := 6, x := x }
def pairTask (s : State) : State := { s with tasks := s.tasks.map fun t => { t with rec_ := { t.rec_ with crews := 1 } } }
/-- FENCE.acquire: no window line stands as valid and current, and the L1 holds no word of another owner. -/
def fenced : State := { lab [[]] with
  cores := (lab [[]]).cores.modify 0 fun k => { k with l1 := [(5, 1), (9, 2)] }
  owners := [(9, 0)] }
theorem test_fence : executing fenced = true ∧ fenced.curCrew.tr = none ∧ (fenced.acting { md := 3 }).head? = some 0 ∧ (fenced.release 0).toOption.isSome = true ∧
    ((after (.fence { md := 3 }) fenced).core 0).l1 = [(9, 2)] ∧ (after (.fence { md := 3 }) fenced).curBlock.fenceRec.lastPc = 8 ∧
    (lab [[]]).acting g0 = [] ∧ pcOf (.fence g0) (lab [[]]) 0 = 9 := by decide +kernel
/-- BAR of two crews: the first waits with its arrival counted, the last starts phase 1; EXPECT above the crews is BOUNDS; a split crew traps. -/
def barLab (arrived : Nat) : State := pairTask (lab2 [[]] fun b => { b with barriers := b.barriers.set 3 { phase := 0, arrived := arrived } })
theorem test_barrier : executing (barLab 0) = true ∧ (barLab 0).converged = true ∧ (barLab 1).curBlock.barriers.length = 16 ∧ ((barLab 0).release 0).toOption.isSome = true ∧
    (∀ k, k < 32 → (barLab 0).cur.mask.getLsbD k = true → ((barLab 0).curCrew.fibre k).st = .runnable) ∧ (barLab 0).curCrew.tr = none ∧
    (after (.bar (bar4 3)) (barLab 0)).curBlock.barrier 3 = { phase := 0, arrived := 1, expect := 0, mask := 1 } ∧ stOf (.bar (bar4 3)) (barLab 0) 0 = .waiting ∧
    (after (.bar (bar4 3)) (barLab 1)).curBlock.barrier 3 = { phase := 1 } ∧ pcOf (.bar (bar4 3)) (barLab 1) 0 = 9 ∧
    trapOf (.bar (bar4 0x30)) (lab [[]]) = some causeBounds ∧ (lab [[]]).curTask.rec_.crews + 1 < field (0x30 : Word) 4 6 ∧ trapOf (.bar (bar4 3)) split = some causeIllegalConvergence := by decide +kernel
/-- ARRIVE answers the phase and goes on; BWAIT waits on the phase that stands, not on one that is over; BARSTAT reads counts and mask. -/
theorem test_arrive : ((after (.arrive (bar4 0x23)) (barLab 0)).curCrew.fibre 0).reg 20 = 0 ∧ pcOf (.arrive (bar4 0x23)) (barLab 0) 0 = 9 ∧
    ((after (.arrive (bar4 0x23)) (barLab 0)).curBlock.barrier 3).expect = 2 ∧ stOf (.bwait (bar4 3)) (lab [[(6, 0)]]) 0 = .waiting ∧
    pcOf (.bwait (bar4 3)) (lab [[(6, 1)]]) 0 = 9 ∧ ((after (.barstat (bar4 3)) (barLab 1)).curCrew.fibre 0).reg 20 = 0x100 ∧
    ((after (.barstat (bar4 0x23)) (after (.bar (bar4 3)) (barLab 0))).curCrew.fibre 0).reg 20 = 1 ∧ (bar4 0x23).x.getLsbD 4 = false ∧ acts (lab [[]]) (bar4 3) 0 := by
  unfold acts; decide +kernel
/-- RBAR of a 1 × 1 subgroup: with another live crew it waits, alone it goes on; a subgroup outside the task's rectangle is BOUNDS (R344). -/
theorem test_rbar : (∃ t ∈ (barLab 0).tasks, t.uid = (barLab 0).curBlock.task) ∧ stOf (.rbar (bar4 1)) (barLab 0) 0 = .waiting ∧
    ((after (.rbar (bar4 1)) (barLab 0)).rectBar 1 1).arrived = 1 ∧ pcOf (.rbar (bar4 1)) (lab [[]]) 0 = 9 ∧ ((after (.rbar (bar4 1)) (lab [[]])).rectBar 1 1).phase = 1 ∧
    trapOf (.rbar (bar4 5)) (lab [[]]) = some causeBounds ∧ trapOf (.rbar (bar4 1)) split = some causeIllegalConvergence := by
  refine ⟨⟨_, List.mem_cons_self, by decide +kernel⟩, by decide +kernel⟩

/-- Entry 6: queue 3; entry 7: service queue 4. -/
def queueEntry (q : Nat) : BitVec 512 := at_ 512 0 3 5 ||| at_ 512 3 2 3 ||| at_ 512 192 8 1 ||| at_ 512 256 52 q
/-- `lab` with those entries and two queues of 16 slots: queue 3 at 0x30000 as `d` changes it, queue 4 at 0x31000 with its journal at 0x38000. -/
def qLab (l : List (List (Nat × Word))) (g : QueueDesc → QueueDesc) : State :=
  let s := lab l
  { s with
    cores := s.cores.modify 0 fun k => { k with handles := (handleKey 0 6, queueEntry 3, none) :: (handleKey 0 7, queueEntry 4, none) :: k.handles }
    queues := [(3, g { ring := 0x30000, log := 4, en := true }), (4, g { ring := 0x31000, log := 4, en := true })]
    services := [(4, { jbase := 0x38000, jlog := 0, serv := true })] }
def qf (m : BitVec 12) : Fields := { d := 20, a := 6, b := 12, x := c16, md := m }
def qr (i : Nat) (a : Word) : List (Nat × Word) := (12, a) :: (16, 0x1000) :: pr 6 (refTo i 0)
/-- A fibre alone, as the statements of groups 0x11 and 0x14 have it. -/
theorem test_alone : Alone (qLab [qr 6 0x200] id) (qf 0) 0 ∧ Alone (qLab [qr 7 0x200] id) (qf 0) 0 ∧ Alone (lab [at2 0x100]) (qf 0) 0 := by
  and_intros <;> constructor <;> decide +kernel
/-- MONARM arms on its line; MONWAIT waits, with its deadline, then answers 0 once fired and 2 when clear. -/
def monLab (m : Monitor) : State := labCrew [[(6, 7)]] fun c => c.updFibre 0 fun f => { f with monitor := m }
theorem test_monitors : ((after (.monarm (ld 0x40 4)) (labMem [at2 0])).curCrew.fibre 0).monitor = .armed 0x400 ∧
    ((after (.monarm (ld 0x40 4)) (labMem [at2 0])).curCrew.fibre 0).reg 20 = 0x88878685 ∧ trapOf (.monarm (ld 0x40 2)) (labMem [at2 0]) = some causeAlign ∧
    ((after (.monwait (qf 0)) (monLab (.armed 9))).curCrew.fibre 0).wait = .mon 9 (some ((monLab .clear).devTime.toNat + 7)) ∧
    ((after (.monwait (qf 0)) (monLab .fired)).curCrew.fibre 0).reg 20 = 0 ∧ pcOf (.monwait (qf 0)) (monLab .fired) 0 = 9 ∧
    ((after (.monwait (qf 0)) (monLab .clear)).curCrew.fibre 0).reg 20 = 2 := by decide +kernel
/-- SEMWAIT by two fibres of a count of 2: the first takes it, the second waits; SEMPOST saturates (R347). -/
def sf : Fields := { form := .rri, d := 20, a := 6, b := 12 }
def semLab (n : Word) : State := ((lab [(12, n) :: at2 0, (12, n) :: at2 0]).setBytes 0x10000 [2])
theorem test_semaphores : executing (semLab 2) = true ∧ (semLab 2).curCrew.tr = none ∧ ((semLab 2).checkWants ((semLab 2).semWants sf) 4 (Req.atom 4) .load).toOption.isSome = true ∧
    (((semLab 2).checkWants ((semLab 2).semWants sf) 4 (Req.atom 4) .load).toOption.map fun as => !(semLab 2).mustHold (as.map fun p => (p.2, 4)) &&
      (readied (semLab 2) true as).toOption.isSome) = some true ∧
    mem (.semwait sf) (semLab 2) 0x10000 4 = 0 ∧ pcOf (.semwait sf) (semLab 2) 0 = 9 ∧
    stOf (.semwait sf) (semLab 2) 1 = .waiting ∧ stOf (.semwait { sf with md := 1 }) (semLab 2) 1 = .runnable ∧
    mem (.sempost sf) (semLab 0xFFFFFFFD) 0x10000 4 = 0xFFFFFFFF ∧ ((after (.sempost sf) (semLab 2)).curCrew.fibre 1).reg 20 = 4 := by decide +kernel
/-- WQPUSH: the premises of its first statement, an entry with its SEQ, a queue that is full, closed or off. -/
theorem test_wqpush : let s := qLab [qr 6 0x200] id
    [(0, 3)].map (·.1) = s.acting (qf 0) ∧ (s.queueFor (refTo 6 0) true false).toOption = some 3 ∧ (s.entryAddr 0x200).isNone = true ∧ (s.queue 3).mode = false ∧ (s.release 0).toOption.isSome = true ∧
    (after (.wqpush (qf 0)) s).bytes 0x30038 8 = List.replicate 8 0 ∧ ((after (.wqpush (qf 0)) s).queue 3).tail = 1 ∧ ((after (.wqpush (qf 0)) s).queue 3).pub = 1 ∧
    ((after (.wqpush (qf 0)) (qLab [qr 6 0x200] fun d => { d with tail := 16 })).curCrew.stallClass = 4) ∧
    ((after (.wqpush (qf 1)) (qLab [qr 6 0x200] fun d => { d with tail := 16 })).curCrew.fibre 0).reg 20 = 1 ∧
    ((after (.wqpush (qf 0)) (qLab [qr 6 0x200] fun d => { d with closed := true })).curCrew.fibre 0).reg 20 = 2 := by decide +kernel
/-- One push at position 17 of a ring of 16: the second slot, its SEQ behind its 56 bytes. -/
theorem test_push : let s := qLab [] fun d => { d with head := 16, tail := 17 }
    (s.place 0x30040).toOption.isSome = true ∧ ((s.iaWrite 0x30040 (List.replicate 56 7)).place 0x30078).toOption.map (·.phys) = (s.place 0x30040).toOption.map (·.phys + 56) ∧
    (s.push 3 (List.replicate 56 7)).bytes 0x30070 16 = List.replicate 8 7 ++ [17, 0, 0, 0, 0, 0, 0, 0] ∧ ((s.push 3 (List.replicate 56 7)).queue 3).pub = 18 := by decide +kernel
/-- WQNOTE on a queue in mode 1 moves PUB within the ring, and traps past it; with `.close` it closes a queue of either mode. -/
def noteLab (v : DWord) : State := qLab [pr 12 v ++ pr 6 (refTo 6 0)] fun d => { d with mode := true, head := 4, tail := 9, pub := 5 }
theorem test_wqnote : ((after (.wqnote (qf 0)) (noteLab 20)).queue 3).pub = 20 ∧ ((after (.wqnote (qf 0)) (noteLab 20)).curCrew.fibre 0).pair 20 = 4 ∧
    trapOf (.wqnote (qf 0)) (noteLab 21) = some causeBounds ∧ ((after (.wqnote (qf 0)) (noteLab 3)).queue 3).pub = 5 ∧
    ((after (.wqnote (qf 1)) (noteLab 3)).queue 3).closed = true ∧ ((noteLab 20).queueFor (refTo 6 0) true false).toOption = some 3 := by decide +kernel
/-- WQPOP takes the entry at HEAD; an empty queue makes it wait, or answer 1, and 2 once it is closed. -/
def popLab : State := (qLab [qr 6 0x200] id).push 3 (List.replicate 56 9)
theorem test_wqpop : (popLab.queueFor (refTo 6 0) false false).toOption = some 3 ∧ popLab.scrLocked 1 0x200 64 = false ∧
    (after (.wqpop (qf 0)) popLab).curBlock.scrN 0x230 16 = List.replicate 8 9 ++ List.replicate 8 0 ∧ ((after (.wqpop (qf 0)) popLab).queue 3).head = 1 ∧
    ((after (.wqpop (qf 0)) (qLab [qr 6 0x200] id)).curCrew.fibre 0).wait = .queue 3 ∧ ((after (.wqpop (qf 1)) (qLab [qr 6 0x200] id)).curCrew.fibre 0).reg 20 = 1 ∧
    ((after (.wqpop (qf 0)) (qLab [qr 6 0x200] fun d => { d with closed := true })).curCrew.fibre 0).reg 20 = 2 := by decide +kernel
/-- TENQ with PREDREM 0 and above, a full pool, and a record at no multiple of 256. -/
def predLab (p : Byte) (full : Bool) : State := { (lab [at2 0x100]).setBytes 0x101F0 [p] with eligible := if full then List.replicate 16384 { ctx := 0, ref := 0 } else [] }
theorem test_tenq : ((predLab 0 false).predrem (refTo 2 0x100) false).toOption.map (·.place.phys) = some 0x101F0 ∧ ((predLab 0 false).release 0).toOption.isSome = true ∧
    (after (.tenq (qf 0)) (predLab 0 false)).eligible = [{ ctx := 0, ref := refTo 2 0x100 }] ∧ ((after (.tenq (qf 0)) (predLab 3 false)).curCrew.fibre 0).reg 20 = 1 ∧
    (after (.tenq (qf 0)) (predLab 0 true)).curCrew.stallClass = 4 ∧ ((lab []).predrem (refTo 2 0x180) false).toOption.isSome = false ∧
    trapOf (.tenq (qf 0)) (lab [at2 0x180]) = some causeAlign := by decide +kernel
/-- TDEP up and down: from 1 the record becomes eligible, at 0 nothing moves. -/
theorem test_tdep : (after (.tdep (qf 0)) (predLab 1 false)).eligible.length = 1 ∧ mem (.tdep (qf 0)) (predLab 1 false) 0x101F0 2 = 0 ∧ mem (.tdep (qf 1)) (predLab 1 false) 0x101F0 2 = 2 ∧
    mem (.tdep (qf 0)) (predLab 3 false) 0x101F0 2 = 2 ∧ (after (.tdep (qf 0)) (predLab 0 false)).eligible = [] ∧ mem (.tdep (qf 1)) (predLab 0 false) 0x101F0 2 = 0 ∧
    (after (.tdep (qf 0)) (predLab 1 true)).curCrew.stallClass = 4 ∧ ((predLab 1 false).predrem (refTo 2 0x100) true).toOption.map (·.place.phys) = some 0x101F0 ∧
    (((predLab 1 false).predrem (refTo 2 0x100) true).toOption.map fun a => (predLab 1 false).mustHold [(a, 2)]) = some false := by decide +kernel

/-! ### Services and tries (R49 to R57, R355, R356, R359 to R375) -/

/-- A request of call 5 (R50), and journal entries of it, CLAIMED and DONE with status 3 and a result (R53). -/
def request : BitVec 512 := 0x11bd6a8a000000000000000000000000000000000000000000000000000000000000000000000000000000000000000000000000000000050000000000000001
def claimed : BitVec 512 := 0x25fce73e000000000000000000000000000000000000000000000000000000000000000000000000000000000000000000000000000000050000000000000101
def done : BitVec 512 := 0x27a29cc600000000000000000000000000000000000000000000000000000000000000000000000000000abc0000000300000000000000050000000000000201
theorem test_service_records : request = seal64 (at_ 512 0 8 1 ||| at_ 512 64 64 5) ∧ claimed = journalEntry 1 0 0 5 0 0 ∧ done = journalEntry 2 0 0 5 3 0xABC := by decide +kernel
/-- `qLab` with that request at 0x200 of the scratchpad, and one entry of the journal of queue 4. -/
def svcLab (l : List (List (Nat × Word))) (g : QueueDesc → QueueDesc) (j : Option (BitVec 512)) : State :=
  let s := (qLab l id).updBlock 1 fun b => b.setScr 0x200 (toBytes 64 request)
  { s.updQueue 4 g with mem := match j with | some v => Sparse.putN memDefault [] 0x38000 (toBytes 64 v) | none => [] }
/-- With no page table every journal entry reads 0, so no call has one. -/
theorem aux_no_journal (s : State) (h : s.mtus = []) (q i : Nat) : s.journal q i = 0 := by
  have e (a : Nat) : s.place a = .error causeNotPresent := by simp [State.place, State.mtu, h]
  simp only [State.journal, State.iaBytes, State.ownPlace, e]
  decide +kernel
theorem test_no_journal (s : State) (h : s.mtus = []) (q c : Nat) (t : BitVec 16) (v : DWord) : s.journalOf q c t v = none := by
  simp only [State.journalOf, aux_no_journal s h, List.find?_eq_none]
  intro i _
  simp [field]
def pageless (g : QueueDesc → QueueDesc) : State := { svcLab [qr 7 0x200] g none with mtus := [] }
/-- SVC: a new call's checks; a call with a journal entry, a closed queue, and a request with a wrong CHECK. -/
theorem test_svc : ((pageless id).svcCheck (qf 0) ((pageless id).curCrew.fibre 0)).toOption = some 4 ∧ (pageless id).mtus = [] ∧ ((pageless id).release 0).toOption.isSome = true ∧
    ((pageless fun d => { d with tail := 16 }).queue 4).full = true ∧ ((pageless id).queue 4).full = false ∧ ((pageless id).queue 4).en = true ∧
    executing (pageless id) = true ∧ (pageless id).acting (qf 0) = [0] ∧ (pageless id).curCrew.tr = none ∧ ∀ k ∈ (pageless id).acting (qf 0), ((pageless id).curCrew.fibre k).acted = false := by decide +kernel
theorem test_svc_answers : ((after (.svc (qf 0)) (svcLab [qr 7 0x200] id (some claimed))).curCrew.fibre 0).reg 20 = 1 ∧ trapOf (.svc (qf 0)) (qLab [qr 7 0x200] id) = some causeParamTorn ∧
    ((after (.svc (qf 0)) (svcLab [qr 7 0x200] (fun d => { d with closed := true }) none)).curCrew.fibre 0).reg 20 = 2 ∧
    ((svcLab [qr 7 0x200] id (some claimed)).journalOf 4 0 0 5) = some 0 := by decide +kernel
/-- SVCQ waits on a call that is CLAIMED, delivers one that is DONE and frees its entry, and answers 2 for one that it withdraws. -/
def sq (m : BitVec 12) : Fields := { qf m with b := 24 }
def callOf (n : DWord) : List (Nat × Word) := [(12, 0x200), (16, 0x1000)] ++ pr 6 (refTo 7 0) ++ pr 24 n
theorem test_svcq : ((svcLab [callOf 5] id (some done)).queueFor (refTo 7 0) false true).toOption = some 4 ∧ (svcLab [callOf 5] id (some done)).scrLocked 1 0x1000 40 = false ∧
    ((after (.svcq (sq 0)) (svcLab [callOf 5] id (some claimed))).curCrew.fibre 0).wait = .svcq 4 ∧
    owed' (.svcq (sq 0)) (svcLab [callOf 5] id (some done)) = [(0, [(20, 0x301)])] ∧
    (after (.svcq (sq 0)) (svcLab [callOf 5] id (some done))).curBlock.scrN 0x1000 3 = [0xBC, 0x0A, 0] := by decide +kernel
theorem test_svcq_free : ((after (.svcq (sq 1)) (svcLab [callOf 5] id (some done))).bytes 0x38001 1) = [0] ∧
    field ((svcLab [] id (some claimed)).journal 4 0) 8 2 = 1 ∧ field ((svcLab [] id (some done)).journal 4 0) 8 2 = 2 := by decide +kernel

/-- TRY shadows the registers; with a result outstanding it stalls, with no right or inside a try it traps (R359). -/
def tryF : Fields := { form := .ri, d := 30, x := 0x20 }
def noTry_ : State := { lab [[]] with tasks := (lab [[]]).tasks.map fun t => { t with rec_ := { t.rec_ with tryBit := false } } }
theorem test_try : (lab [[(30, 5)]]).converged = true ∧ (lab [[]]).curTask.rec_.tryBit = true ∧ ((lab [[]]).actMask tryF == 0) = false ∧
    ((after (.tryOpen tryF) (lab [[(30, 5)]])).curCrew.tr.map fun y => (y.members, y.code, y.target)) = some (1, 30, 0x28) ∧
    ((after (.tryOpen tryF) (lab [[(30, 5)]])).curCrew.fibre 0).reg 30 = 0 ∧ trapOf (.tryOpen tryF) noTry_ = some causeTryMisuse ∧ noTry_.curTask.rec_.tryBit = false ∧
    owes.curCrew.pend.isEmpty = false ∧ (after (.tryOpen tryF) owes).curCrew.stallClass = 6 ∧ trapOf (.tryOpen tryF) split = some causeIllegalConvergence ∧
    pcOf (.tryOpen { tryF with guard := some ⟨false, 0⟩ }) (lab [[]]) 0 = 9 := by decide +kernel
/-- COMMIT waits, ABORT puts the shadow back with the code, TCHK aborts the later of two fibres of one line, TSTAT reads the try. -/
theorem test_try_forms : (tryState 3 false).actMask {} &&& ~~~3 = 0 ∧ stOf (.commit {}) (tryState 3 false) 0 = .waiting ∧ trapOf (.commit {}) (tryState 1 false) = some causeTryMisuse ∧
    pcOf (.abort { form := .ri, x := 0x42 }) (tryState 3 false) 1 = 0x70 ∧ ((after (.abort { form := .ri, x := 0x42 }) (tryState 3 false)).curCrew.fibre 1).reg 30 = abortWord 7 0x42 ∧
    ((after (.abort { form := .ri, x := 0x42 }) (tryState 3 false)).curCrew.fibre 1).reg 6 = 0 ∧ pcOf (.tchk { a := 6 }) (tryState 3 false) 0 = 9 ∧
    pcOf (.tchk { a := 6 }) (tryState 3 false) 1 = 0x70 ∧ ((after (.tstat { d := 20, md := 1 }) (tryState 3 false)).curCrew.fibre 0).reg 20 = 3 ∧
    ((after (.tstat { d := 20 }) (tryState 3 true)).curCrew.fibre 0).reg 20 = 0xE0000000 ∧ ((after (.tstat { d := 20 }) (lab [[]])).curCrew.fibre 0).reg 20 = 0 := by decide +kernel
/-- A fibre that is no member: COMMIT, ABORT and TCHK trap with TRY_MISUSE (R373). -/
theorem test_non_member : (tryState 1 false).actMask {} &&& ~~~(1#32) ≠ 0 ∧ (lab [[]]).actMask {} &&& ~~~(0#32) ≠ 0 ∧ trapOf (.commit {}) (lab [[]]) = some causeTryMisuse := by decide +kernel
/-- A member's store is buffered, its own load sees it with the memory around it, and memory stands (R362, R363). -/
def member : State := (labMem [(20, 0x55) :: at2 0]).updCur fun c => { c with tr := some { members := 1, code := 30, target := 0x70, shadow := [[]] } }
theorem test_try_buffer : member.acting (ld 0x10 1) = [0] ∧ member.tryRowDirect (member.wants (ld 0x10 1)) = false ∧ mem (.st (ld 0x10 1)) member 0x10001 1 = 0x82 ∧
    ((member.checkWants (member.wants (ld 0x10 1)) 1 (Req.store 1) .store).toOption.map (·.length)) = some 1 ∧
    ((member.checkWants (member.wants (ld 0x10 1)) 1 (Req.load 1) .load).toOption.map (·.length)) = some 1 ∧
    ((after (.st (ld 0x10 1)) member).curCrew.tr.bind fun y => y.seen 0 0x10001) = some 0x55 ∧
    owed' (.ld { ld 0x40 0 with d := 21 }) (after (.st (ld 0x10 1)) member) = [(0, [(21, 0x84835581)])] ∧
    ((after (.ld { ld 0x40 0 with d := 21 }) member).curCrew.tr.map fun y => y.reads.map (·.line)) = some [0x400] := by decide +kernel
theorem test_try_add : (({} : Try).addStore 0 0x1000E 7 [1, 2]).isSome = true ∧ ((({} : Try).addStore 0 0x1000E 7 [1, 2]).bind fun u => u.seen 0 0x1000F) = some 2 ∧
    ((({} : Try).addStore 0 0x1000E 7 [1, 2]).bind fun u => u.seen 1 0x1000F) = none ∧ (({} : Try).addRead 31 5 7).isSome = true := by decide +kernel
/-- The commit step performs the buffered byte and closes the try; it does nothing before its member waits; a try of 2^20 clk aborts (R366, R370). -/
def committing : State := let s := after (.st (ld 0x10 1)) member
  s.updCur fun c => c.updFibre 0 fun f => { f with st := .waiting, wait := .commit, waitF := { d := 25 } }
def longTry : State := { member with cores := member.cores.modify 0 fun k => { k with clk := 0x100000 } }
theorem test_commit_step : (committing.crew 1 0).commitDue = true ∧ (committing.writeBacks (.commit 1 0 (committing.block 1).core) 1 (List.range 8)).toOption.isSome = true ∧
    ((after (.commitStep 1 0) committing).byte 0x10001) = 0x55 ∧ (after (.commitStep 1 0) committing).curCrew.tr = none ∧
    ((after (.commitStep 1 0) committing).curCrew.fibre 0).reg 25 = 1 ∧ ((after (.commitStep 1 0) committing).curCrew.fibre 0).pc = 10 ∧
    (member.crew 1 0).commitDue = false ∧ (after (.tryLongTimeout 1 0) longTry).curCrew.tr = none ∧ ((after (.tryLongTimeout 1 0) longTry).curCrew.fibre 0).reg 30 = abortWord 10 0 ∧
    (after (.tryLongTimeout 1 0) member).curCrew.tr.isSome = true := by decide +kernel

/-! ### Events of the cores and the engines (R81, R87, R106, R108, R253 to R260, R271 to R276, R290, R335, R349) -/

/-- A crew with one result that is due, which raises flag 2, and one that an engine owes. -/
def dueLab : State := labCrew [[], []] fun c => { c with pend := [{ id := 7, mask := 3, strand := 3, writes := [(0, [(20, 5)]), (1, [(20, 6)])], excs := [(1, 4)] }, { id := 8, op := some 3 }] }
theorem test_writeback : dueLab.crewMoves 1 0 = true ∧ (dueLab.crew 1 0).pendTraps = [] ∧ ((after (.resultWriteback 1 0 7) dueLab).curCrew.fibre 1).reg 20 = 6 ∧
    ((after (.resultWriteback 1 0 7) dueLab).curCrew.pend.map (·.id)) = [8] ∧ field (after (.resultWriteback 1 0 7) dueLab).curCrew.mode 10 5 = 4 ∧
    (after (.resultWriteback 1 0 8) dueLab).curCrew.pend.length = 2 := by decide +kernel
/-- Credits are reloaded once no ready crew has any; a count of 4096 owes the strand at PC 20 an issue (R106, R108). -/
def parted : State := labCrew [[], []] fun c => { (c.updFibre 1 fun f => { f with pc := 20 }) with rot := 4096, credit := 0, level := 3 }
theorem test_credit : (∀ x ∈ parted.crewsOn 0, parted.ready x.1 x.2.1 = true → (parted.crew x.1 x.2.1).credit = 0) ∧ (parted.blocks.any fun k => k.bid == 1) = true ∧
    (after (.creditReload 0) parted).curCrew.credit = 8 ∧ (∃ x ∈ (lab [[]]).crewsOn 0, (lab [[]]).ready x.1 x.2.1 = true ∧ 0 < ((lab [[]]).crew x.1 x.2.1).credit) ∧
    (after (.crewRotation 1 0) parted).curCrew.rotating = [20] ∧ (after (.crewRotation 1 0) parted).curCrew.rot = 0 ∧ (lab [[]]).curCrew.rot < 4096 := by decide +kernel
/-- The word at PC 8 is fetched from IA 96; PC 400 lies outside the code object, and its strand is trapped there (R81). -/
def fetchLab (pc : Word) : State := labCrew [[]] fun c => { (c.updFibre 0 fun f => { f with pc := pc }) with frame := none }
theorem test_fetch : (fetchLab 8).hasStrand 1 0 = true ∧ ((fetchLab 8).crew 1 0).nextPlace = some 8 ∧ ((fetchLab 8).fetch 1 8 false).toOption.isSome = true ∧
    (((after (.instructionFetch 1 0) ((fetchLab 8).setBytes 96 (toBytes 12 (word 0x180 0 0 0 0 0 0 0)))).core 0).icache.map fun e => (e.2.1, e.2.2)) = [(96, word 0x180 0 0 0 0 0 0 0)] ∧
    ((fetchLab 400).fetch 1 400 false).toOption.isSome = false ∧ (after (.instructionFetch 1 0) (fetchLab 400)).curCrew.frame.map (·.cause) = some causeBounds := by decide +kernel
/-- A fetch from a page that is not present parks the strand (R405). -/
def absent : State := { fetchLab 8 with mem := Sparse.putN memDefault [] ((lab []).pteAddr 0) (List.replicate 8 0) }
theorem test_fetch_parks : ((absent.fetch 1 8 false).toOption.isSome = false) ∧ absent.hasStrand 1 0 = true ∧ (absent.crew 1 0).tr = none ∧ (absent.crew 1 0).pend = [] ∧
    fits absent (absent.task (absent.block 1).task).ctx = true ∧ ((after (.instructionFetch 1 0) absent).curCrew.fibre 0).st = .parked := by decide +kernel
/-- A WAITC's fibre and a MONWAIT's fibre, tried again; a time-out that has passed. -/
def waiting (w : Wait) (m : Monitor) (f : Fields) : State := labCrew [[]] fun c => { (c.updFibre 0 fun fb => { fb with st := .waiting, wait := w, monitor := m, waitF := f }) with counters := [0, 0, 0, 7, 0, 0] }
def waitcF (n : Word) : Fields := { form := .ri, x := n, md := 3 }
theorem test_retry : (waiting (.counter 3 7) .clear (waitcF 7)).crewMoves 1 0 = true ∧ (waiting (.counter 3 7) .clear (waitcF 7)).fatalDue 1 0 = false ∧ (waitcF 7).mdv = 3 ∧ (waitcF 7).xv = 7 ∧
    pcOf (.waiterRetry 1 0 0) (waiting (.counter 3 7) .clear (waitcF 7)) 0 = 9 ∧ stOf (.waiterRetry 1 0 0) (waiting (.counter 3 6) .clear (waitcF 6)) 0 = .waiting ∧
    ((after (.waiterRetry 1 0 0) (waiting (.mon 5 none) .fired (qf 0))).curCrew.fibre 0).monitor = .clear ∧ pcOf (.waiterRetry 1 0 0) (waiting (.mon 5 none) .fired (qf 0)) 0 = 9 ∧
    stOf (.waiterRetry 1 0 0) (waiting (.mon 5 none) (.armed 5) (qf 0)) 0 = .waiting ∧ (waiting (.mon 5 none) .fired (qf 0)).curCrew.fibres.length = 32 := by decide +kernel
theorem test_monwait_timeout : ((after (.monwaitTimeout 1 0 0) (waiting (.mon 5 (some 0)) (.armed 5) (qf 0))).curCrew.fibre 0).reg 20 = 1 ∧
    pcOf (.monwaitTimeout 1 0 0) (waiting (.mon 5 (some 0)) (.armed 5) (qf 0)) 0 = 9 ∧ pcOf (.monwaitTimeout 1 0 0) (waiting (.mon 5 (some 9)) (.armed 5) (qf 0)) 0 = 8 ∧
    (waiting (.mon 5 (some 9)) (.armed 5) (qf 0)).devTime.toNat < 9 := by decide +kernel

/-- A copy of one move, in the scratchpad or in memory, and its end. -/
def opLab (w : Work) (cls : Nat) (ph : EngineOp → EngineOp) : State :=
  let s := labCrew [[]] fun c => { c with counters := [1, 1, 1, 1, 1, 1] }
  { s with ops := [ph { id := 50, blk := 1, crew := 0, core := 0, task := 1, ctx := 0, cls := cls, work := w, locked := [(0, 64)] }] }
def scrMove : Move := ⟨.scr 0x200, .scr 1 0x300, 8⟩
def memMove : Move := ⟨.mem 0 0, .mem 0 64, 8⟩
def copyOf (l : List Move) : Work := .copy [{ ref := refTo 2 0, ent := dataEntry }] l []
theorem test_copy : ((opLab (copyOf [scrMove]) 0 id).resident_ 1 = true ∧ ((opLab (copyOf [scrMove]) 0 id).block 1).scrPoisoned 0x200 8 = false ∧
    (opLab (copyOf [scrMove]) 0 id).scrLocked 1 0x300 8 = false) ∧
    ((after (.engineOperationWork 50 1) ((opLab (copyOf [scrMove]) 0 id).updBlock 1 fun b => b.setScr 0x200 [1, 2, 3])).block 1).scrN 0x300 4 = [1, 2, 3, 0] ∧
    (after (.engineOperationWork 50 1) ((opLab (copyOf [memMove]) 0 id).setBytes 0x10000 [9, 8])).bytes 0x10040 3 = [9, 8, 0] ∧
    ((after (.engineOperationWork 50 1) (opLab (copyOf []) 0 id)).op 50).map (·.phase) = some .ended := by decide +kernel
theorem test_copy_premises : (((opLab (copyOf [memMove]) 0 id).op 50).map fun o => (o.id == 50, o.recheck, o.phase)) = some (true, false, .queued) ∧
    (((opLab (copyOf [memMove]) 0 id).op 50).bind fun o => ((opLab (copyOf [memMove]) 0 id).opAccess o { ref := refTo 2 0, ent := dataEntry } 64 8 .store memMove.dst.sector).toOption.map fun a =>
      (a.place.peer, isLocal (opLab (copyOf [memMove]) 0 id) a.ia 8)) = some (none, true) ∧
    (((opLab (copyOf [memMove]) 0 id).op 50).bind fun o => ((opLab (copyOf [memMove]) 0 id).opAccess o { ref := refTo 2 0, ent := dataEntry } 0 8 .load memMove.dst.sector).toOption).isSome = true := by decide +kernel
/-- The matrix phases: ACCZ locks, multiplies and clears; a product reads its operands, and writes its words. -/
def me (ph : OpPhase) : State := (opLab (.accz 64 64) 3 fun o => { o with phase := ph }).updBlock 1 fun b => { b with acc := [(16, 7), (32, 9)] }
def prodLab (ph : OpPhase) : State := opLab (.product { m := 1, n := 1, kblk := 1, fa := 11, fb := 11, a := .scr 0, b := .scr 512, cadd := 64, ldc := 64, keepK := [true], keepN := [true] }) 3 fun o => { o with phase := ph }
theorem test_matrix_phases : ((me .queued).op 50).map (fun o => ((me .queued).engineFirst o, o.cls)) = some (true, 3) ∧
    ((after (.meLockPhase 50) (me .queued)).op 50).map (·.phase) = some .locked ∧ ((after (.meMultiply 50) (me .locked)).op 50).map (·.phase) = some .multiplied ∧
    ((after (.meOperandConsumed 50) (me .multiplied)).block 1).accWord 64 = 0 ∧ ((after (.meOperandConsumed 50) (me .multiplied)).block 1).accWord 128 = 9 ∧
    ((after (.meOperandConsumed 50) (me .multiplied)).op 50).map (fun o => (o.phase, o.count)) = some (.ended, 2) := by decide +kernel
theorem test_engine_order : let s : State := { me .queued with ops := ((me .queued).ops.map fun o => { o with id := 49, phase := .working }) ++ (me .queued).ops }
    (s.op 50).map s.engineFirst = some false ∧ ((after (.meLockPhase 50) s).op 50).map (·.phase) = some .queued := by decide +kernel
/-- Retirement: the counter falls and a stamp's SEQ rises by the count; out of class order nothing moves; a fatal fault enters the handler. -/
def ended (st : Option MemOperand) : State := opLab (.pfx {} false 0 0) 0 fun o => { o with phase := .ended, count := 3, status := 1, stamp := st }
theorem test_retire : ((ended none).op 50).map (fun o => ((ended none).inClassOrder o, (ended none).fatalFirst o.blk o.crew, (ended none).resident_ o.blk)) = some (true, false, true) ∧
    (after (.engineOpRetire 50) (ended none)).curCrew.counters = [0, 1, 1, 1, 1, 1] ∧ (after (.engineOpRetire 50) (ended none)).ops.length = 0 ∧
    (after (.engineOpRetire 50) ((ended (some { ref := refTo 2 0x80, ent := dataEntry })).setBytes 0x10080 [254])).bytes 0x10080 8 = [1, 1, 0, 0, 0, 0, 0, 1] ∧
    (((ended (some { ref := refTo 2 0x80, ent := dataEntry })).op 50).bind fun o => ((ended none).opAccess o { ref := refTo 2 0x80, ent := dataEntry } 0x80 8 .load 0x80).toOption.map fun a =>
      isLocal (ended none) a.ia 8) = some true ∧ (after (.engineOpRetire 50) (me .queued)).ops.length = 1 := by decide +kernel
def fatalLab : State := labCrew [[], []] fun c => { c with fatals := [{ cause := causeEngineFatal, slot := 1, arg0 := 9 }] }
theorem test_fatal : fatalLab.fatalDue 1 0 = true ∧ fatalLab.curCrew.tr = none ∧ fatalLab.curCrew.pend = [] ∧ fatalLab.curCrew.nextPlace = some 8 ∧ fatalLab.curCrew.strandAt 8 = 3 ∧
    fits fatalLab 0 = true ∧ pcOf (.engineFatalDelivery 1 0) fatalLab 1 = 0x40 ∧
    (after (.engineFatalDelivery 1 0) fatalLab).curCrew.frame = some { cause := causeEngineFatal, src := 1, slot := 1, arg0 := 9, set := 3 } := by decide +kernel
theorem test_product : let s := prodLab .queued
    ((s.op 50).bind fun o => (s.readProduct o { m := 1, n := 1, kblk := 1, fa := 11, fb := 11, a := .scr 0, b := .scr 512, cadd := 64, ldc := 64, keepK := [true], keepN := [true] }).toOption).isSome = true ∧
    ((after (.meLockPhase 50) s).op 50).map (·.phase) = some .locked ∧
    (match ((after (.meLockPhase 50) s).op 50).map (·.work) with | some (.product p) => decide ((p.writes (s.block 1)).map (·.1) = [64]) | _ => false) = true ∧
    ((after (.meOperandConsumed 50) (after (.meMultiply 50) (after (.meLockPhase 50) s))).op 50).map (·.phase) = some .ended := by decide +kernel
/-- A chunk of a live ring, of no ring, and a step that has waited for TMO (R271, R274). -/
def ring7 (st : RingState) (marker : Bool) : CollRing := { ring := 7, epoch := 3, ctx := 0, st := st, marker := marker }
def collWait (now : DWord) : State := { opLab (.coll 0 0 8 {} {} 1 (some 0) []) 5 fun o => { o with phase := .working, ring := 7, epoch := 3, pos := 0, members := [0x11, 0x22], tmo := 10 } with
  devTime := now
  rings := [ring7 .running false] }
def chunk7 : Chunk := { ringId := 7, epoch := 3, seq := 0, step := 1, kind := 0, type := 0, count := 0, data := [] }
theorem test_chunk : (collWait 0).ringOf chunk7.ringId chunk7.epoch = some (ring7 .running false) ∧ (after (.collChunkArrival chunk7) (collWait 0)).chunks = [chunk7] ∧
    (after (.collChunkArrival chunk7) { collWait 0 with rings := [ring7 .retired true] }).chunks = [] ∧
    ({ collWait 0 with chunks := List.replicate 64 { chunk7 with ringId := 8 } } : State).ringOf 8 3 = none ∧
    64 ≤ ({ collWait 0 with chunks := List.replicate 64 { chunk7 with ringId := 8 } } : State).chunks.countP (fun x => ((collWait 0).ringOf x.ringId x.epoch).isNone) := by decide +kernel
theorem test_coll_timeout : ((after (.collTimeout 50) (collWait 9999)).op 50).map (·.phase) = some .working ∧ (collWait 10000).chunks = [] ∧
    ((after (.collTimeout 50) (collWait 10000)).op 50).map (fun o => (o.phase, o.status)) = some (.ended, 1) ∧
    ((after (.collTimeout 50) (collWait 10000)).ringOf 7 3).map (fun r => (r.st, r.silent)) = some (.failed, 1) ∧ ((after (.collTimeout 50) (collWait 10000)).ctx 0).trprod = 1 := by decide +kernel
/-- A COLLX in round r that times out, and one whose final RINGLIST comes. -/
def collxWait (r : Nat) (now : DWord) : State := { opLab (.collx (ringRec 3) r 10000) 5 fun o => { o with phase := .working } with
  devTime := now
  latigo := { pbr := 0x11, fmValid := true, fmPbr := 0x22 }
  rings := [ring7 .idle false] }
theorem test_collx_timeout : ((after (.collxTimeout 50) (collxWait 0 9999)).op 50).map (·.phase) = some .working ∧
    ((after (.collxTimeout 50) (collxWait 0 10000)).op 50).map (fun o => (o.phase, o.count)) = some (.ended, 0) ∧
    ((after (.collxTimeout 50) (collxWait 0 10000)).ringOf 7 3).map (·.marker) = some true ∧ ∀ x ∈ (collxWait 0 0).ops, x.id = 50 := by decide +kernel
theorem test_ringlist : (collxWait 1 0).collxOf (ringRec 3) 0 = none ∧ ((collxWait 1 0).collxOf (ringRec 3) 1).map (·.id) = some 50 ∧ (0x22 : BitVec 12) ≠ (collxWait 1 0).latigo.pbr ∧
    ((after (.ringlist 0x22 (ringRec 3)) (collxWait 1 0)).op 50).map (fun o => (o.phase, o.count)) = some (.ended, 1) ∧ (after (.ringlist 0x11 (ringRec 3)) (collxWait 1 0)).op 50 = (collxWait 1 0).op 50 := by
  decide +kernel
/-- A crew that waited for a swap executes its ROWOPEN again (R246). -/
def swapWait : State := rowLab.updCur fun c => { c with rowWait := some ⟨1, 8, encode (.rowopen rowF), rowF⟩ }
theorem test_swap_done : maskOf 32 ((ones (1#32)).filter fun i => ((swapWait.crew 1 0).fibre i).st == .runnable) = 1 ∧ swapWait.acting rowF = [0] ∧
    (match swapWait.rowAnswer swapWait.curBlock 64 { phys := 0x10000 } false with | .opens h _ => h | _ => 9) = 0 ∧
    (after (.rowopenSwapDone 1 0) swapWait).curCrew.rowWait = none ∧ ((after (.rowopenSwapDone 1 0) swapWait).curBlock.hold 0).held = true ∧ pcOf (.rowopenSwapDone 1 0) swapWait 0 = 9 := by decide +kernel

/-! ### The hub, from a submission to a placed task (R16 to R25, R38 to R48, R58 to R73) -/

/-- A NOP, a LAUNCH of the record at offset 0x100 of entry 2, and a DRAIN, each with SEQ 4, a completion record at 0x1000 and a notification. -/
def subRec (opc : Nat) : BitVec 1024 := match opc with
  | 0 => 0xcf7064ab0000000000000000000010000000000000000000000000000000000000000000000000000000000000000000000000000000000000000000000000000000000000000000000000000000000000000000000000000000000000000000000000000000000000000000000000000000000000c00c1e0000000400030001
  | 1 => 0x40f4589c0000000000000000000010000000000000000000000000000000000000000000000000000000000000000000000000000000000000000000000000000000000000000000000000000000000000000000000000000000000000000000000000000000000000008000000001000000000000c00c1e0000000400031101
  | _ => 0xf0a52cd00000000000000000000010000000000000000000000000000000000000000000000000000000000000000000000000000000000000000000000000000000000000000000000000000000000000000000000000000000000000000000000000000000000000000000000000000000000000c00c1e0000000400030201
/-- A task of one crew: CODEREF entry 1, IMGREF 0x1000, STAMPREF 0x2000 and SUCCREF 0x3000 of entry 2; SUCCN 1, ENTRY 3 (R16). -/
def nodeRec : BitVec 2048 :=
  0xe9be7bdc72106920000000000000000000000000000000000000000000000000000000000000000000000000000000000000000000000000000000000000000000000000000000000000000000000000000000000000000000000000000000000000000000000000000000000000000000000000000000000000000000000000000000000000000000000000000000000000000000000000000000000000000000000000000000000000000000000000000000000000000000000000000000000000000000000180000800000002000000080000000300000008000000010000000000000000003000040000000000000010000000000000000000000000001
/-- A SERVICE node of priority 5 with CODEREF entry 1, STAMPREF 0x2000 of entry 2 and ENTRY 6 (R18). -/
def serviceRec : BitVec 2048 :=
  0xf660e6826a0813710000000000000000000000000000000000000000000000000000000000000000000000000000000000000000000000000000000000000000000000000000000000000000000000000000000000000000000000000000000000000000000000000000000000000000000000000000000000000000000000000000000000000000000000000000000000000000000000000000000000000000000000000000000000000000000000000000000000000000000000000000000000000000000000000000800000002000000000000000000000000000000000000000000000000006000040000000000000000000000000000000000000000b01
/-- Entries 2 and 1 with their CHECKs. -/
def sealedData : BitVec 512 := 0x8a42e9160000000000000000000000000000000000000000000000000000000000000000000000010000000000010000000000000001000000000004000000d9
def sealedCode : BitVec 512 := 0x9f3849c000000000000000000000000000000000000000000000000000000000000000000000001000000000000100000000000000000000000000000000022
theorem test_records : (subRec 1).setWidth 992 = BitVec.setWidth 992 (at_ 1024 0 8 1 ||| at_ 1024 8 4 1 ||| at_ 1024 12 4 1 ||| at_ 1024 16 2 3 ||| at_ 1024 32 32 4 |||
      at_ 1024 64 64 0xC00C1E ||| at_ 1024 128 64 (refTo 2 0x100).toNat ||| at_ 1024 896 64 0x1000) ∧ Sm.sealed (subRec 1) = true ∧ sealedData = seal64 dataEntry ∧ sealedCode = seal64 placedEntry ∧
    nodeRec.setWidth 1984 = BitVec.setWidth 1984 (at_ 2048 0 8 1 ||| at_ 2048 112 16 1 ||| at_ 2048 128 64 (refTo 1 0).toNat ||| at_ 2048 192 32 3 ||| at_ 2048 256 64 (refTo 2 0x1000).toNat |||
      at_ 2048 320 64 (refTo 2 0x3000).toNat ||| at_ 2048 384 64 (refTo 2 0x2000).toNat ||| at_ 2048 448 24 24) ∧ recSealed nodeRec = true := by
  and_intros <;> decide +kernel
/-- `lab` whose context has its handle table at 0x70000, with the bytes listed. -/
def hubLab (l : List (Nat × List Byte)) : State :=
  let s := lab [[]]
  { s with
    contexts := s.contexts.modify 0 fun c => { c with htbase := 0x70000 }
    mem := (l ++ [(0x70040, toBytes 64 sealedCode), (0x70080, toBytes 64 sealedData)]).foldl (fun m (x : Nat × List Byte) => Sparse.putN memDefault m x.1 x.2) [] }
/-- Page 5, bound to context 0, at SEQ `n` with one submission outstanding. -/
def boundPage (n : Word) : Page := { naddr := 0x2000, ndata := 7, crbase := 0x1000, crpages := 1, en := true, outn := 1, nextseq := n }
def subLab (n : Word) (opc : Nat) (ph : SubPhase) (l : List (Nat × List Byte)) : State :=
  { hubLab l with
    pages := [(5, boundPage n)]
    subs := [{ id := 60, page := 5, rec_ := subRec opc, bind := boundPage n, phase := ph, rs := [none] }] }
/-- SUBMIT_DMWR: accepted, told to retry with OUT at 64, unsupported at another offset; ERR set and cleared; a binding enabled (R38 to R40, R43). -/
theorem test_submit : ((after (.submitDmwr ⟨5, 0x33⟩ 0 (List.replicate 128 0)) (subLab 4 0 .running [])).page 5).outn = 2 ∧ (after (.submitDmwr ⟨5, 0x33⟩ 0 (List.replicate 128 0)) (subLab 4 0 .running [])).subs.length = 2 ∧
    (subLab 4 0 .intake []).intake = 1 ∧ (subLab 4 0 .intake []).ctxBusy 0 = false ∧
    (after (.submitDmwr ⟨5, 0x33⟩ 0 (List.replicate 128 0)) ((subLab 4 0 .intake []).updPage 5 fun p => { p with outn := 64 })).outbox = [.retry 5] ∧
    (after (.submitDmwr ⟨5, 0x33⟩ 64 (List.replicate 128 0)) (subLab 4 0 .intake [])).outbox = [.unsupported 5] ∧ ((after (.winPlainWrite 5) (subLab 4 0 .intake [])).page 5).err = true ∧
    ((after (.stateErrClear 5) (after (.winPlainWrite 5) (subLab 4 0 .intake []))).page 5).err = false := by decide +kernel
theorem test_binding : ((after (.bindingWrite 6 (at_ 256 0 1 1 ||| at_ 256 32 6 9 ||| at_ 256 16 16 3)) (subLab 4 0 .intake [])).page 6) = { ctx := 9, tenant := 3, en := true } := by decide +kernel
/-- The checks of a record: its place in the sequence, CHECK, and what it then becomes (R42, R45). -/
theorem test_process : ((subLab 4 0 .intake []).headSub 5).map (fun x => (x.id, x.page, Sm.opc x.rec_, Sm.seq x.rec_)) = some (60, 5, 0, 4) ∧
    ((after (.submitNop 5) (subLab 4 0 .intake [])).subs.map (·.phase)) = [.finished 0] ∧ ((after (.submitNop 5) (subLab 4 0 .intake [])).page 5).nextseq = 5 ∧
    (after (.submitNop 5) (subLab 5 0 .intake [])).subs.length = 0 ∧ ((after (.submitNop 5) (subLab 9 0 .intake [])).subs.map (·.phase)) = [.finished 3] ∧
    ((after (.drain 5) (subLab 4 2 .intake [])).subs.map (·.phase)) = [.running] := by decide +kernel
theorem test_process_check : Sm.sealed (subRec 0) = true ∧ Sm.ok (subRec 0) = true ∧
    let s := { subLab 4 0 .intake [] with subs := (subLab 4 0 .intake []).subs.map fun x => { x with rec_ := x.rec_ ^^^ (1#1024 <<< 70) } }
    ((after (.submitNop 5) s).subs.map (·.phase)) = [.finished 2] ∧ ((after (.submitNop 5) s).page 5).err = true := by decide +kernel
/-- A LAUNCH's reference: PREDREM 0 makes it eligible, another value gives it status 6 (R44). -/
theorem test_launch : ((subLab 5 1 (.launching 0) []).checkHandle hubCore 0 0 (refTo 2 0x100) 0x100 256 { r := true, align := 256 }).toOption = some sealedData ∧
    ((subLab 5 1 (.launching 0) []).hubCheck 0 0 (refTo 2 0x100) 0x1F0 2 { r := true } .load).toOption.map (·.place.phys) = some 0x101F0 ∧
    (after (.launch 5) (subLab 5 1 (.launching 0) [])).eligible = [{ ctx := 0, ref := refTo 2 0x100, sub := some (60, 0) }] ∧
    (after (.launch 5) (subLab 5 1 (.launching 0) [(0x101F0, [2])])).eligible = [] ∧
    ((after (.launch 5) (subLab 5 1 (.launching 0) [(0x101F0, [2])])).subs.map fun x => (x.phase, x.rs)) = [(.running, [some 6])] := by decide +kernel
/-- A finished submission writes its record, then its notification, and lowers OUT; a running one with a reference open does not (R46, R47). -/
def finishedSub : State := { subLab 5 0 (.finished 0) [] with subs := (subLab 5 0 (.finished 0) []).subs.map fun x => { x with notify := true } }
theorem test_complete : (finishedSub.subs.map finishedSub.subComplete) = [some 0] ∧ (after (.submissionComplete 60) finishedSub).subs.length = 0 ∧ ((after (.submissionComplete 60) finishedSub).page 5).outn = 0 ∧
    ((after (.submissionComplete 60) finishedSub).outbox.map fun o => match o with | .hostWrite a d => (a, d.length) | _ => (0, 0)) = [(0x1000, 64), (0x2000, 4)] ∧
    ((subLab 5 1 .running []).subs.map (subLab 5 1 .running []).subComplete) = [none] := by decide +kernel

/-- The record at 0x10100, its image header and two words of image, eligible (R16, R23). -/
def header : BitVec 128 := at_ 128 96 32 1 ||| at_ 128 64 32 0x77 ||| at_ 128 48 8 1 ||| at_ 128 24 8 2 ||| at_ 128 0 16 2
def ready_ (r : BitVec 2048) : State :=
  { hubLab [(0x10100, toBytes 256 r), (0x11000, toBytes 16 header), (0x11010, [1, 0, 0, 0, 2])] with
    eligible := [{ ctx := 0, ref := refTo 2 0x100 }] }
/-- The same record once it has been read (R21). -/
def readElig (r : BitVec 2048) : Elig := { ctx := 0, ref := refTo 2 0x100, rec_ := some (NodeRec.ofBits r) }
def front (s : State) (e : Elig) : State := { s with eligible := [e] }
theorem test_record_check : serviceRec.setWidth 1984 = BitVec.setWidth 1984 (at_ 2048 0 8 1 ||| at_ 2048 8 1 1 ||| at_ 2048 9 3 5 ||| at_ 2048 128 64 (refTo 1 0).toNat |||
      at_ 2048 192 32 6 ||| at_ 2048 384 64 (refTo 2 0x2000).toNat) ∧
    ((ready_ serviceRec).hubCheck 0 0 (refTo 2 0x100) 0x100 256 { r := true, align := 256 } .load).toOption.map (·.place.phys) = some 0x10100 ∧
    recSealed serviceRec = true ∧ recLegal serviceRec = true ∧ (NodeRec.ofBits serviceRec).fits = true ∧ (NodeRec.ofBits serviceRec).service = true ∧
    ((ready_ serviceRec).refsFrom (NodeRec.ofBits serviceRec) (NodeRec.ofBits serviceRec).refSteps (readElig serviceRec)).2.2 = none ∧
    (after .recordCheck (ready_ serviceRec)).pool.map (fun p => (p.seq, p.eff, p.rec_.service)) = [(100, 5, true)] := by
  and_intros <;> decide +kernel
theorem test_known : Known { front (ready_ serviceRec) (readElig serviceRec) with eligible := [] } (readElig serviceRec) (NodeRec.ofBits serviceRec)
    { front (ready_ serviceRec) (readElig serviceRec) with eligible := [] } (readElig serviceRec) := ⟨rfl, .inl ⟨rfl, rfl, rfl⟩⟩
theorem test_record_image : ((ready_ nodeRec).hubRead 0 0 (refTo 2 0x1000) 0x1000 16).toOption = some (toBytes 16 header) ∧ imgReserved header = true ∧
    (ImgHeader.ofBits header).fits (NodeRec.ofBits nodeRec) = true ∧ (after .recordCheck (ready_ nodeRec)).pool.map (fun p => (p.rec_.succn, p.img.live)) = [(1, 1)] := by
  and_intros <;> decide +kernel
/-- A CHECK that fails is read once more, and then refused; a reference that is refused; one that cannot be checked now; a refusal whose stamp
cannot be named (R20, R477). -/
theorem test_record_refused : (after .recordCheck (ready_ 0)).eligible = [{ ctx := 0, ref := refTo 2 0x100, torn := true }] ∧ (after .recordCheck (ready_ 0)).pool = [] ∧
    ((after .recordCheck (front (ready_ 0) { ctx := 0, ref := refTo 2 0x100, torn := true })).ctx 0).trprod = 1 ∧ (ready_ 0).records = [] ∧ fits (ready_ 0) 0 = true ∧
    (((ready_ 0).refsFrom (NodeRec.ofBits 0) 1 (readElig 0)).2.2.map (·.cause)) = some causeGeneration ∧
    (((front { ready_ 0 with mtus := [] } (readElig 0)).refsFrom (NodeRec.ofBits serviceRec) 1 (readElig serviceRec)).2.2.map (·.cause)) = some causeNotPresent ∧
    (after .recordCheck (front { ready_ 0 with mtus := [] } (readElig serviceRec))).held = [.check (readElig serviceRec)] ∧
    (match (ready_ 0).checkHandle hubCore 0 0 0 0 8 { w := true, align := 8 } with | .error e => e.cause | _ => 0) = causeGeneration ∧
    ((after .recordCheck (front (ready_ 0) { ctx := 0, ref := refTo 2 0x100, refused := some causeBounds })).ctx 0).trprod = 1 := by
  and_intros <;> decide +kernel
/-- One entry of the pool: it ages, reserves after 1 ms, and is placed at the first origin; a SERVICE node starts at its ENTRY (R60 to R66). -/
def entry_ (r : NodeRec) : PoolEntry := { seq := 70, ctx := 0, ref := refTo 2 0x100, time := 0, rec_ := r, code := placedEntry }
def pooled (r : NodeRec) (now : DWord) : State := { lab [[]] with pool := [entry_ r], devTime := now }
theorem test_aging : (after .priorityAging (pooled {} 250000)).pool.map (·.eff) = [2] ∧ (pooled {} 0).reserve = none ∧ (pooled {} 0).halted = false ∧
    (∃ p ∈ (pooled {} 1000000).pool, p.rec_.service = false ∧ p.time + 1000000 ≤ (pooled {} 1000000).devTime.toNat) ∧ ∀ p ∈ (pooled {} 1000000).pool, p.seq < 2 ^ 64 ∧ p.rec_.origins ≠ [] := by
  decide +kernel
/-- Every core but core 1 has its compactor at work. -/
def oneFree : State := { pooled { wcode := 4 } 0 with cores := (List.range 192).map fun i => if i = 1 then {} else { compact := [⟨9, 0, false, 0, 1, 0⟩] } }
theorem test_place : (oneFree.poolOrder.head?.map (·.seq)) = some 70 ∧ oneFree.originFor (entry_ { wcode := 4 }) [] = some (1, 0) ∧
    ((after .taskPlace oneFree).tasks.map fun k => (k.uid, k.phase)) = [(1, .placed), (70, .placed)] ∧
    ((after .taskPlace oneFree).blocks.map fun b => (b.task, b.core, b.crews.length)) = [(1, 0, 1), (70, 1, 1)] := by decide +kernel
theorem test_place_service : (pooled { service := true, entry := 8 } 0).serviceCore { service := true, entry := 8 } = some 0 ∧ 0 < (pooled {} 0).qcores.length ∧
    ((after .taskPlace (pooled { service := true, entry := 8 } 0)).qcore 0).node = some 70 ∧ ((after .taskPlace (pooled { service := true, entry := 8 } 0)).qcore 0).pc = 8 := by decide +kernel
/-- Sets 2 and 9 exchange their cores, unless core 2 holds a request of set 2 (R48). -/
def busySet : State := { lab [[]] with
  requests := [{ id := 80, q := 130, bytes := 0, heldBy := some 2 }]
  qcores := (lab [[]]).qcores.modify 2 fun c => { c with held := some 80, heldQ := 130 } }
theorem test_qsb : (after (.qsbWrite 2 9) (lab [[]])).qsb[2]? = some 9 ∧ (after (.qsbWrite 2 9) (lab [[]])).qsb[9]? = some 2 ∧ (lab [[]]).qsb.findIdx? (· == 9) = some 9 ∧
    busySet.setBusy 2 = true ∧ (after (.qsbWrite 2 9) busySet).qsb[2]? = some 2 ∧ (lab [[]]).setBusy 2 = false := by decide +kernel

/-! ### Blocks, tasks and service cores (R24, R51 to R57, R67, R70, R444 to R447) -/

/-- The compactor stops a crew, then gives it its new units (R70, R71). -/
def compacting (m : Bool) : State := { (labCrew [[]] fun c => { c with moving := m, unitBase := 32 }) with
  cores := (lab [[]]).cores.modify 0 fun k => { k with compact := [⟨1, 0, false, 32, 16, 16⟩] } }
theorem test_compactor : (compacting false).resident_ 1 = true ∧ ((compacting false).crew 1 0).live = true ∧ (after (.compactorMove 0) (compacting false)).curCrew.moving = true ∧
    (after (.compactorMove 0) (compacting true)).curCrew.unitBase = 16 ∧ (after (.compactorMove 0) (compacting true)).curCrew.moving = false ∧
    ((after (.compactorMove 0) (compacting true)).core 0).compact = [] ∧ (compacting true).curCrew.pend = [] := by decide +kernel
/-- A block is filled from an image of one shared word at v2 and one word for each fibre at v1; slot 3 is live (R24, R73). -/
def unfilled : State := let s := hubLab [(0x11010, [9, 0, 0, 0]), (0x11020, [5])]
  { s with
    blocks := s.blocks.map fun b => { b with crews := [{ fibres := List.replicate 32 {}, units := 1 }] }
    tasks := s.tasks.map fun t => { t with
      img := { live := 8, initv0 := 0x77, fq := 1, fp := 1, uq := 2, un := 1 }
      rec_ := { t.rec_ with imgref := refTo 2 0x1000, entry := 3 } } }
theorem test_block_fill : ((after (.blockFill 1) unfilled).curCrew.fibre 3).regs.length = 3 ∧ ((after (.blockFill 1) unfilled).curCrew.fibre 3).reg 1 = 5 ∧
    ((after (.blockFill 1) unfilled).curCrew.fibre 3).reg 2 = 9 ∧ ((after (.blockFill 1) unfilled).curCrew.fibre 3).st = .runnable ∧ ((after (.blockFill 1) unfilled).curCrew.fibre 4).st = .free := by decide +kernel
/-- A crew whose fibres have all ended retires, and its block after it (R444, R445). -/
def ended_ : State := labCrew [[]] fun c => { c with fibres := List.replicate 32 {} }
def emptied : State := after (.crewRetire 1 0) ended_
theorem test_block_retire : ended_.crewDone 1 0 = true ∧ (lab [[]]).crewDone 1 0 = false ∧ emptied.curCrew.live = false ∧ emptied.curCrew.units = 0 ∧
    (emptied.writeBacks .other 1 (List.range 8)).toOption.isSome = true ∧ emptied.resident_ 1 = true ∧ (emptied.block 1).retired = false ∧
    ((after (.blockRetire 1) emptied).block 1).retired = true ∧ (∃ c ∈ ((lab [[]]).block 1).crews, c.live = true) ∧ ((after (.blockRetire 1) (lab [[]])).block 1).retired = false := by decide +kernel
/-- A task's ends: blocks, peers, stamp at 0x12000, successor at 0x13000 with PREDREM 1 or 0 at 0x101F0, and the last (R446, R447). -/
def taskLab (ph : TaskPhase) (l : List (Nat × List Byte)) (g : Block → Block) : State := let s := hubLab l
  { s with
    blocks := s.blocks.map g
    tasks := s.tasks.map fun t => { t with
      phase := ph
      rec_ := { t.rec_ with stampref := refTo 2 0x2000, succref := refTo 2 0x3000, succn := 1 } } }
def succ (n : Byte) : List (Nat × List Byte) := [(0x13000, toBytes 8 (refTo 2 0x100)), (0x101F0, [n])]
theorem test_task_blocks : (taskLab .placed [] id).tasks.map (·.uid) = [1] ∧ (taskLab .placed [] id).held.contains (.retire 1) = false ∧
    (∃ b ∈ (taskLab .placed [] id).blocks, b.task = 1 ∧ b.retired = false) ∧ (after (.taskRetire 1) (taskLab .placed [] id)).blocks.length = 1 ∧
    (after (.taskRetire 1) (taskLab .placed [] fun b => { b with retired := true })).blocks.length = 0 ∧
    (after (.taskRetire 1) (taskLab .placed [] fun b => { b with retired := true })).tasks.map (·.phase) = [.waitPeer] ∧
    (after (.taskRetire 1) (taskLab .waitPeer [] id)).tasks.map (·.phase) = [.stamping] ∧
    (after (.taskRetire 1) { taskLab .waitPeer [] id with ops := (opLab (.accz 0 0) 3 id).ops }).tasks.map (·.phase) = [.waitPeer] ∧
    (after (.taskRetire 1) (taskLab .done [] id)).tasks.length = 0 := by decide +kernel
theorem test_task_stamp : ((taskLab .stamping [] id).hubCheck 0 0 (refTo 2 0x2000) 0x2000 8 { w := true, align := 8 } .load).toOption.map (fun a =>
      (a.place.phys, isLocal (taskLab .stamping [] id) a.ia 8)) = some (0x12000, true) ∧
    (after (.taskRetire 1) (taskLab .stamping [(0x12000, [255])] id)).bytes 0x12000 8 = [0, 1, 0, 0, 0, 0, 0, 0] ∧
    (after (.taskRetire 1) (taskLab .stamping [] id)).tasks.map (·.phase) = [.releasing 0] ∧ ((taskLab .stamping [] id).tasks.map (·.final)) = [0] := by decide +kernel
theorem test_task_release : ((taskLab (.releasing 0) (succ 1) id).hubCheck 0 0 (refTo 2 0x3000) 0x3000 8 { r := true } .load).toOption.map (·.place.phys) = some 0x13000 ∧
    ((taskLab (.releasing 0) (succ 1) id).checkHandle hubCore 0 0 (refTo 2 0x100) 0x100 256 { r := true, w := true, align := 256 }).toOption.isSome = true ∧
    (after (.taskRetire 1) (taskLab (.releasing 0) (succ 1) id)).eligible = [{ ctx := 0, ref := refTo 2 0x100 }] ∧ (taskLab (.releasing 0) (succ 1) id).poolFull = false ∧
    ((after (.poolStallResume) (taskLab (.releasing 0) (succ 2) id)).bytes 0x101F0 2) = [1, 0] := by decide +kernel
theorem test_task_release_end : (after (.taskRetire 1) (taskLab (.releasing 0) (succ 0) id)).tasks.map (·.phase) = [.releasing 1] ∧ (after (.taskRetire 1) (taskLab (.releasing 1) [] id)).tasks.length = 0 ∧
    (after (.taskRetire 1) (taskLab (.releasing 0) (succ 0) id)).eligible = [] := by decide +kernel

/-- Queue core 3 serves queue 200, which set 3 names; a request of call 5 waits in it, as `r` has it, and the journal at 0x38000 is as given. -/
def svcCore (r : Request → Request) (g : QueueCore → QueueCore) (j : List (Nat × BitVec 512)) : State :=
  let s := lab [[]]
  { s with
    services := [(200, { jbase := 0x38000, jlog := 0, serv := true })]
    requests := [r { id := 90, q := 200, bytes := request }]
    qcores := s.qcores.modify 3 fun c => g { c with qsel := 200, node := some 1, pc := 0x44, mtvec := 0xFFFF0000 }
    tasks := s.tasks.map fun t => { t with rec_ := { t.rec_ with service := true, entry := 8 } }
    mem := j.foldl (fun m (x : Nat × BitVec 512) => Sparse.putN memDefault m (0x38000 + 64 * x.1) (toBytes 64 x.2)) [] }
def holding : State := svcCore (fun r => { r with heldBy := some 3 }) (fun c => { c with held := some 90, buf := 3#512 <<< 128 }) []
/-- POP takes a request whose call's entry is not CLAIMED, or with RECOVER one whose entry is, held by no core; with none it answers 1, and for
another core's queue 4. -/
theorem test_pop : (svcCore id id []).coreOfQueue 200 = 3 ∧ ((svcCore id id []).qcore 3).held = none ∧ (after (.svcPop 3) (svcCore id id [(0, done)])).requests.map (·.heldBy) = [some 3] ∧
    ((after (.svcPop 3) (svcCore id id [(0, done)])).qcore 3).buf = request ∧ ((after (.svcPop 3) (svcCore id id [(0, claimed)])).qcore 3).recover = true ∧ ((after (.svcPop 3) (svcCore id id [(0, done)])).qcore 3).recover = false ∧
    ((after (.svcPop 3) { svcCore id id [] with requests := [] }).qcore 3).stat = 1 ∧ (svcCore id (fun c => { c with qsel := 70 }) []).coreOfQueue 70 ≠ 3 ∧
    ((after (.svcPop 3) (svcCore id (fun c => { c with qsel := 70 }) [])).qcore 3).stat = 4 := by decide +kernel
/-- CLAIM, DONE and NOTTAKEN of a held request whose call has the entry 0 of the journal (R53, R56). -/
def heldWith (j : BitVec 512) : State := { holding with mem := Sparse.putN memDefault [] 0x38000 (toBytes 64 j) }
theorem test_done : ((heldWith claimed).heldRequest 3).map (·.id) = some 90 ∧ (heldWith claimed).journalOf 200 0 0 5 = some 0 ∧ ((after (.svcDone 3) (heldWith claimed)).qcore 3).held = none ∧
    (after (.svcDone 3) (heldWith claimed)).requests.length = 0 := by decide +kernel
theorem test_nottaken : field ((after (.svcNottaken 3) (heldWith claimed)).journal 200 0) 8 2 = 3 ∧ ((after (.svcNottaken 3) (heldWith claimed)).qcore 3).stat = 0 := by decide +kernel
/-- With no page table every entry reads 0: no call has one, and entry 0 is FREE. -/
theorem test_journal_free (s : State) (h : s.mtus = []) (q : Nat) : s.journalFree q = some 0 := by
  have e : ((fun i => field (s.journal q i) 8 2 == 0) : Nat → Bool) = fun _ => true := by
    funext i
    rw [aux_no_journal s h]
    simp [field]
  have n : 0 < 2 ^ ((s.service q).jlog + 8) := Nat.two_pow_pos _
  simp only [State.journalFree, SvcDesc.entries, e]
  rw [List.range_eq_range']
  match 2 ^ ((s.service q).jlog + 8), n with
  | k + 1, _ => rfl
theorem test_claim_premises : ({ holding with mtus := [] } : State).mtus = [] ∧ (({ holding with mtus := [] } : State).heldRequest 3).map (fun r => (r.q, r.id)) = some (200, 90) ∧
    ({ holding with mtus := [] } : State).coreOfQueue 200 = 3 := by decide +kernel
/-- EXIT and FAIL end the node; an unknown CMD answers 4; a restart; an exception under the default mtvec and under another (R51, R57, R67). -/
theorem test_service_node : ((after (.svcExit 3) holding).qcore 3).node = none ∧ (after (.svcFail 3) holding).tasks.map (fun t => (t.phase, t.status)) = [(.waitPeer, 2)] ∧
    ((after (.svcBadCommand 3 7) holding).qcore 3).stat = 4 ∧ ((after (.serviceRestart 3) holding).qcore 3).pc = 8 ∧ ((after (.serviceNodeException 3 5 6) holding).qcore 3).node = none ∧
    ((after (.serviceNodeException 3 5 6) (svcCore id (fun c => { c with mtvec := 0x100 }) [])).qcore 3).pc = 0x100 ∧
    ((after (.serviceNodeException 3 5 6) (svcCore id (fun c => { c with mtvec := 0x100 }) [])).qcore 3).mepc = 0x44 := by decide +kernel

/-! ### The tiers between accesses (R225 to R239, R242, R244, R472) -/

/-- Group 5 of stack 0: member 2 comes to the fast slot; held rows keep it; members that do not exist (R226, R227). -/
def swapLab : State := { lab [[]] with mtus := (lab [[]]).mtus.map fun m => { m with mptlen := 2 } }
theorem test_group_swap : swapLab.residentOf 5 = 0 ∧ swapLab.maySwap 5 = true ∧ (after (.groupSwap 0 5 2) swapLab).residentOf 5 = 2 ∧ (after (.groupSwap 0 5 0) swapLab).resident = [] ∧
    (after (.groupSwap 0 5 4) swapLab).resident = [] ∧ 5 < Config.groupsPerStack := by decide +kernel
/-- An L2 line leaves: bypassed from a fast page; a Bloom filter turns at 2^18 insertions (R237 to R239). -/
def lineLab : State := { lab [[]] with
  l2 := [(0x400, { mvca := true, sto := true })]
  blooms := (lab [[]]).blooms.set 3 { active := [1], inserted := 262144 } }
theorem test_eviction : Sparse.find? lineLab.l2 0x400 = some { mvca := true, sto := true } ∧ (after (.l2Eviction 0x400) lineLab).l2 = [] ∧ Sparse.find? lineLab.l2 0x401 = none ∧
    (((after (.bloomRotate 3) lineLab).blooms[3]?).map fun b => (b.active, b.previous, b.inserted)) = some ([], [1], 0) ∧
    (((after (.bloomRotate 2) lineLab).blooms[2]?).map (·.active)) = some [] := by decide +kernel
/-- `lab` with one command for the unit of stack 0 at IA 0x40000, about page 3 (R232). -/
def mstLab (opc page : Nat) (entry : DWord) (e : DWord) : State := let s := lab [[]]
  let s : State := { s with
    mtus := s.mtus.modify 0 fun m => { m with
      cmd := { base := 0x40000, log := 4, prod := 1 }
      free := { base := 0x50000, log := 4, prod := 1 } }
    mem := Sparse.putN memDefault (Sparse.putN memDefault [] 0x40000 (toBytes 32 (at_ 256 0 8 opc ||| at_ 256 64 36 page ||| at_ 256 128 64 entry.toNat))) (s.pteAddr 0x30000) (toBytes 8 e) }
  s
def pageLocal : DWord := at_ 64 61 3 1 ||| at_ 64 0 25 3
def pageZone : DWord := at_ 64 61 3 2 ||| at_ 64 0 24 7
theorem test_mst_head : ((mstLab 1 3 0 pageLocal).mstHead 0).map (fun c => (field c 0 8, mstPage c)) = some (1, 3) ∧ (mstLab 1 3 0 pageLocal).pte 0x30000 = pageLocal ∧
    (mstLab 1 3 0 pageLocal).inTable 3 = true ∧ (mstLab 1 (2 ^ 33 + 3) 0 pageLocal).mstHead 0 ≠ none ∧ (2 ^ 33 + 3) / 2 ^ 33 ≠ 0 ∧ (lab []).pteLegal (at_ 64 61 3 5) = false := by decide +kernel
/-- SET answers the old entry, STATUS and CONS; an illegal entry is REFUSED; a command of another stack has STATUS 5 (R232, R233). -/
theorem test_mst_set : (after (.mstSet 0) (mstLab 1 3 (at_ 64 61 3 1 ||| 9) pageLocal)).pte 0x30000 = (at_ 64 61 3 1 ||| 9) ∧
    (after (.mstSet 0) (mstLab 1 3 (at_ 64 61 3 1 ||| 9) pageLocal)).bytes 0x40018 8 = toBytes 8 pageLocal ∧ ((after (.mstSet 0) (mstLab 1 3 (at_ 64 61 3 1 ||| 9) pageLocal)).mtu 0).cmd.cons = 1 ∧
    (after (.mstSet 0) (mstLab 1 3 (at_ 64 61 3 5) pageLocal)).bytes 0x40001 1 = [2] ∧ (after (.mstSet 0) (mstLab 1 (2 ^ 33 + 3) 0 pageLocal)).bytes 0x40001 1 = [5] ∧
    (mstLab 1 3 0 pageLocal).pteLegal (at_ 64 61 3 1 ||| 9) = true := by decide +kernel
/-- COMPRESS of a page that is not LOCAL and EXPAND of one that is not COMPRESSED are REFUSED; EXPAND with a free frame; PROMOTE, QUERY and an unknown OPC. -/
theorem test_mst_others : (after (.mstCompress 0) (mstLab 2 3 0 pageZone)).bytes 0x40001 1 = [2] ∧ (after (.mstExpand 0) (mstLab 3 3 0 pageLocal)).bytes 0x40001 1 = [2] ∧
    ((mstLab 3 3 0 pageZone).expandPage 3).isSome = true ∧ ((mstLab 3 3 0 pageZone).mtu 0).free.pending = true ∧
    (after (.mstBadCommand 0) (mstLab 9 3 0 pageLocal)).bytes 0x40001 1 = [2] ∧ (after (.mstQuery 0) (mstLab 5 3 0 pageZone)).bytes 0x40018 8 = toBytes 8 pageZone := by decide +kernel
theorem test_mst_promote : (mstLab 4 3 0 pageLocal).inFast 3 = false ∧ (after (.mstPromote 0) (mstLab 4 3 0 pageLocal)).promotions.map (·.dfn) = [3] := by decide +kernel
/-- With no free frame an expansion waits. -/
def noFrame : State := let s := mstLab 3 3 0 pageZone; { s with mtus := s.mtus.modify 0 fun m => { m with free := {} } }
theorem test_no_frame : (noFrame.mtu 0).free.pending = false ∧ ((after (.mstExpand 0) noFrame).mtu 0).cmd.cons = 0 := by decide +kernel
/-- An expansion of a page that is LOCAL again leaves the list; one of a page still in the zone takes a frame once no command waits (R234). -/
def expandingLab (e : DWord) : State := let s := mstLab 0 3 0 e; { s with mtus := s.mtus.modify 0 fun m => { m with expanding := [(3, false)], cmd := {} } }
theorem test_expansion : (expandingLab pageZone).quiescing = false ∧ ((after (.expansion 0 3) (expandingLab pageLocal)).mtu 0).expanding = [] ∧ ((expandingLab pageZone).expandPage 3).isSome = true ∧
    (expandingLab pageZone).mstHead 0 = none ∧ field ((expandingLab pageZone).pte 0x30000) 61 3 = 2 ∧ ((after (.expansion 0 4) (expandingLab pageZone)).mtu 0).expanding = [(3, false)] := by decide +kernel
/-- AGING_TICK of a table of two pages, page 1 with REF set: REF moves to ACT once AGEPER has passed (R235). -/
def agingLab (now : DWord) : State := { lab [[]] with
  devTime := now
  mtus := (lab [[]]).mtus.modify 0 fun m => { m with mptlen := 2, ageper := 10 }
  mem := Sparse.putN memDefault [] ((lab [[]]).pteAddr 0x10000) (toBytes 8 (at_ 64 61 3 1 ||| at_ 64 60 1 1 ||| 1)) }
theorem test_aging_tick : ((agingLab 10000).mtu 0).active.roomy = false ∧ ((agingLab 10000).mtu 0).inactive.roomy = false ∧ ((after (.agingTick 0) (agingLab 10000)).mtu 0).lastTick = 10000 ∧
    ((after (.agingTick 0) (agingLab 9999)).mtu 0).lastTick = 0 ∧ field ((agingLab 0).pte 0x10000) 58 3 = 4 ∧ field (((agingLab 0).agePage 0 1).pte 0x10000) 58 3 = 1 := by decide +kernel
/-- A row open for 2 µs is closed by force; one open for 64 µs in all has its neighbours refreshed; one not reopened is dropped (R242, R244). -/
def slotLab (now : DWord) (press : Nat) : State := { rowHeld with
  devTime := now
  rowSlots := [(9, { blk := 1, h := 0, row := 64, key := 77, openFrom := 0 })]
  rowPress := [(77, press)] }
theorem test_rows_in_time : (after (.rowForcedClose 9) (slotLab 2000 0)).rowSlots.map (fun x => x.2.opened) = [false] ∧ (after (.rowForcedClose 9) (slotLab 2000 0)).rowPress = [(77, 2000)] ∧
    (after (.rowForcedClose 9) (slotLab 1999 0)).rowSlots.map (fun x => x.2.opened) = [true] ∧ (after (.neighbourRefresh 9) (slotLab 2000 62000)).rowPress = [] ∧
    (after (.neighbourRefresh 9) (slotLab 1999 62000)).rowPress = [(77, 62000)] := by decide +kernel
def lostRow (now : DWord) : State := { (lab [[]]).updBlock 1 fun b => { b with holds := [{ row := 64, epoch := 5, reopenBy := some 100 }] } with
  devTime := now
  mtus := [] }
theorem test_row_timeout : (lostRow 100).place (64 * 1024) = .error causeNotPresent ∧ (lostRow 100).resident_ 1 = true ∧ ((after (.rowRestoreTimeout 1 0) (lostRow 100)).block 1).hold 0 = { row := 64, epoch := 6 } ∧
    ((after (.rowRestoreTimeout 1 0) (lostRow 99)).block 1).hold 0 = { row := 64, epoch := 5, reopenBy := some 100 } := by decide +kernel
/-- A corrected error is counted; an uncorrected one poisons its line of memory, scratchpad or accumulator store (R472). -/
theorem test_line_error : (after (.lineError (.memory 0x10000) true) (lab [[]])).sec.corrected = 1 ∧ (after (.lineError (.memory 0x10004) false) (lab [[]])).poisonedAt 0x10000 4 = true ∧
    ((lab [[]]).place 0x10004).toOption.map (·.phys) = some 0x10004 ∧ ((after (.lineError (.scratch 1 70) false) (lab [[]])).block 1).scrPoisoned 64 1 = true ∧
    ((after (.lineError (.acc 1 70) false) (lab [[]])).block 1).accBad 64 1 = true := by decide +kernel

/-! ### Records, retries, context commands and invalidation (R396 to R415) -/

/-- A trap that waits, as `g` has the context; a retry-class one parks its strand and writes its record (R396). -/
def trapLab (cause : BitVec 8) (g : Context → Context) : State :=
  { labCrew [[], []] fun c => { c with pendTraps := [{ ev := { cause := cause, arg1 := 0x20000 }, mask := 3 }] } with
    contexts := (lab []).contexts.modify 0 g }
theorem test_trap_delivery : (trapLab causeNotPresent id).mustWait 1 0 { cause := causeNotPresent, arg1 := 0x20000 } = false ∧
    (after (.trapDelivery 1 0) (trapLab causeNotPresent id)).curCrew.pendTraps = [] ∧ stOf (.trapDelivery 1 0) (trapLab causeNotPresent id) 1 = .parked ∧
    ((after (.trapDelivery 1 0) (trapLab causeNotPresent id)).ctx 0).trprod = 1 ∧ (after (.trapDelivery 1 0) (trapLab causeBounds id)).curCrew.frame.map (·.cause) = some causeBounds ∧
    (trapLab causeBounds fun c => { c with trprod := 256 }).mustWait 1 0 { cause := causeBounds, arg1 := 0x20000 } = true ∧ (lab [[]]).curCrew.nextTrap = none ∧ (trapLab causeNotPresent id).curCrew.nextTrap.isSome = true := by decide +kernel
/-- A held record takes its place unless the ring is full; with none held STALLED falls; LOST is cleared alone (R400, R402). -/
def recordLab (g : Context → Context) : State := { lab [[]] with
  contexts := (lab []).contexts.modify 0 fun c => g { c with stalled := true, lost := true }
  records := [{ ctx := 0, ev := { cause := causeBounds }, tid := 5, tag := 6 }] }
theorem test_trap_record : ((after (.trapRecordWrite 0) (recordLab id)).ctx 0).trprod = 1 ∧ (after (.trapRecordWrite 0) (recordLab id)).records = [] ∧
    ((recordLab fun c => { c with trprod := 256 }).ctx 0).ringFull = true ∧ (after (.trapRecordWrite 0) (recordLab fun c => { c with trprod := 256 })).records.length = 1 ∧
    ((after (.trapRecordWrite 0) { recordLab id with records := [] }).ctx 0).stalled = false ∧ ((after (.trstatClear 0) (recordLab id)).ctx 0).lost = false ∧
    ((after (.trstatClear 0) (recordLab id)).ctx 0).stalled = true := by decide +kernel
/-- Parked work that is owed a retry: a strand, an operation, a record of the hub, a retiring task (R405, R477). -/
def parkedLab : State := { labCrew [[]] fun c => c.updFibre 0 fun f => { f with st := .parked } with
  ops := (opLab (.accz 0 0) 3 fun o => { o with phase := .parked, back := .locked }).ops
  retry := [.strand 1 0 8, .op 50]
  held := [.check { ctx := 0, ref := 7 }, .retire 9]
  heldDue := [.check { ctx := 0, ref := 7 }, .retire 9] }
theorem test_parked_retry : stOf (.parkedRetry (.strand 1 0 8)) parkedLab 0 = .runnable ∧ ((after (.parkedRetry (.op 50)) parkedLab).op 50).map (·.phase) = some .locked ∧
    (after (.parkedRetry (.record 0)) parkedLab).eligible = [{ ctx := 0, ref := 7 }] ∧ (after (.parkedRetry (.retiring 9)) parkedLab).held = [.check { ctx := 0, ref := 7 }] ∧
    (after (.parkedRetry (.strand 1 0 9)) parkedLab).retry.length = 2 ∧ (∀ x ∈ parkedLab.ops, x.id = 50 → x.pendRec = none) := by decide +kernel
/-- A context with a command about task 5, which is its only one. -/
def cmdLab (opc : BitVec 8) (ph : TaskPhase) (len : DWord) : State := { lab [[]] with
  contexts := (lab []).contexts.modify 0 fun c => { c with cmdOpc := opc, cmdstat := 1, cmdTask := 5, cmdlen := len, cmdarg := 0x80000 }
  tasks := (lab []).tasks.map fun t => { t with tid := 5, phase := ph } }
/-- PREEMPT needs room for its image; RESUME, DBGSTOP, DBGRUN and KILL end DONE; a command for no task, and an unknown one, is REFUSED (R406). -/
theorem test_context_commands : ((after (.preempt 0) (cmdLab 1 .placed 0)).ctx 0).cmdstat = 3 ∧ (cmdLab 1 .placed 0).liveFor placedTask = true ∧
    ((cmdLab 1 .placed 0xFFFFFF).saveTask 1 0 0x80000).1 = true ∧ (cmdLab 1 .placed 0xFFFFFF).curTask.rec_.imageSize ≤ 0xFFFFFF ∧
    ((after (.kill 0) { cmdLab 6 .placed 0 with tasks := [] }).ctx 0).cmdstat = 3 ∧ ((after (.ctxBadCommand 0) (cmdLab 9 .placed 0)).ctx 0).cmdstat = 3 ∧
    ((after (.resume 0) (cmdLab 4 .placed 0)).ctx 0).cmdstat = 1 := by decide +kernel
theorem test_stop_and_kill : ((after (.dbgstop 0) (cmdLab 4 .placed 0)).block 1).stopped = true ∧ ((after (.dbgstop 0) (cmdLab 4 .placed 0)).ctx 0).cmdstat = 2 ∧
    ((after (.dbgrun 0) ((cmdLab 5 .placed 0).updBlock 1 fun b => { b with stopped := true })).block 1).stopped = false ∧ ((after (.kill 0) (cmdLab 6 .placed 0)).block 1).terminated = true ∧
    (after (.kill 0) (cmdLab 6 .saved 0)).tasks.map (fun t => (t.phase, t.status, t.killed)) = [(.waitPeer, 3, true)] ∧
    (after (.resume 0) { cmdLab 3 .placed 0 with blocks := parkedLab.blocks }).retry = [.strand 1 0 8] ∧
    (cmdLab 4 .placed 0).blocks.any (fun b => b.crews.any fun y => y.unsettled || y.owed) = false ∧ (poisonedCrew (cmdLab 4 .placed 0).blocks).isNone = true := by decide +kernel
/-- RESTORE of a saved task: an image that is good puts it into the pool at its PRIO; empty memory is REFUSED (R411). -/
def imageHeader : BitVec 512 := 11431071413850063129824013508745842166318261395514705864288490480209610965404480245505361086622273358032289009962603122692463827566949056048177558373531649
def savedLab (l : List Byte) : State := { cmdLab 2 .saved 64 with
  blocks := []
  tasks := (cmdLab 2 .saved 64).tasks.map fun t => { t with rec_ := {} }
  contexts := (cmdLab 2 .saved 64).contexts.modify 0 fun c => { c with cmdarg := 0x8FFC0 }
  mtus := (lab []).mtus.map fun m => { m with mptlen := 9 }
  mem := Sparse.putN memDefault [] 0x8FFC0 l }
theorem test_restore : imageHeader = seal64 (at_ 512 0 8 1 ||| at_ 512 64 32 5 ||| at_ 512 192 64 64 ||| at_ 512 256 64 (crc64 []).toNat) ∧
    ((savedLab (toBytes 64 imageHeader)).tasks.map fun t => (savedLab (toBytes 64 imageHeader)).imageOk 0x8FFC0 t 64) = [true] ∧
    (after (.restore 0) (savedLab (toBytes 64 imageHeader))).pool.map (fun e => (e.restore, e.eff)) = [(some 1, 0)] ∧ ((after (.restore 0) (savedLab [])).ctx 0).cmdstat = 3 := by decide +kernel
/-- An invalidation at 0x90000: HANDLES from 2, four of them; CONTEXT of a context not in use; an unknown OPC; and its end (R412 to R414). -/
def invalLab (c : BitVec 256) : State := { lab [[]] with
  inval := { base := 0x90000, log := 4, prod := 1 }
  mem := Sparse.putN memDefault [] 0x90000 (toBytes 32 c) }
def invHandles : BitVec 256 := at_ 256 0 8 1 ||| at_ 256 64 18 2 ||| at_ 256 96 32 4
theorem test_inval_head : (invalLab invHandles).invalHead = some invHandles ∧ (lab []).invalHead = none ∧ invalHandlesOk invHandles = true ∧ invalHandlesOk (at_ 256 0 8 1) = false ∧
    invalContextOk (at_ 256 0 8 2 ||| at_ 256 16 6 7) = true ∧ invalContextOk (at_ 256 0 8 2 ||| at_ 256 64 18 1) = false := by decide +kernel
theorem test_inval : ((after .invalHandles (invalLab invHandles)).core 0).handles.map (·.1) = [handleKey 0 1] ∧ (after .invalHandles (invalLab invHandles)).invalWait = some [] ∧
    (after .invalContext (invalLab (at_ 256 0 8 2))).cores.all (fun k => k.handles.isEmpty) = true ∧ (after .invalBadCommand (invalLab (at_ 256 0 8 9))).bytes 0x90001 1 = [2] ∧
    (after .invalidationDone (after .invalHandles (invalLab invHandles))).inval.cons = 1 ∧ (after .invalidationDone (lab [[]])).inval.cons = 0 := by decide +kernel
theorem test_inval_context : let s : State := { invalLab (at_ 256 0 8 2 ||| at_ 256 16 6 7) with rings := [{ ring := 7, epoch := 3, ctx := 7 }] }
    s.inUse 7 = false ∧ (s.ctx 7).htcount = 0 ∧ (after .invalContext s).rings = [] ∧ s.inUse 0 = true := by decide +kernel
/-- A core without a block is gated, one with a block is not (R415). -/
theorem test_gate : ((after (.corePowerGate 1) (lab [[]])).core 1).gated = true ∧ ((after (.corePowerGate 0) (lab [[]])).core 0).gated = false ∧ (∃ b ∈ (lab [[]]).blocks, b.core = 0 ∧ b.retired = false) ∧
    ∀ b ∈ (lab [[]]).blocks, b.core = 1 → b.retired = true := by decide +kernel

/-! ### Requests from outside, and leases (R331 to R334, R428 to R443, R478) -/

/-- A host reads and writes mapped bytes; an address of no page is answered with poisoned zeros, or with an error (R478). -/
theorem test_host : (after (.incomingMemRead ⟨0x33, .cxlMem, false⟩ 0x10000 2) (labMem [])).outbox = [.readData [0x81, 0x82] false] ∧ ((labMem []).place 0x10000).toOption.map (fun p => (p.phys, p.peer)) = some (0x10000, none) ∧
    (after (.incomingMemWrite ⟨0x33, .cxlIo, false⟩ true 0x10000 [5]) (labMem [])).bytes 0x10000 2 = [5, 0x82] ∧ isLocal (labMem []) 0x10000 1 = true ∧
    (after (.incomingMemRead ⟨0x33, .cxlMem, false⟩ 0 1) { lab [] with mtus := [] }).outbox = [.readData [0] true] ∧ (after (.incomingMemWrite ⟨0x33, .cxlIo, false⟩ false 0 [1]) { lab [] with mtus := [] }).outbox = [.completerAbort] ∧
    ({ lab [] with mtus := [] } : State).place 0 = .error causeNotPresent := by decide +kernel
/-- A write to a line that a matrix lock holds waits; an access to a compressed page starts its expansion. -/
theorem test_host_waits : let s := opLab (.accz 0 0) 3 fun o => { o with memLocks := [0x400] }
    s.lineLocked 0x10000 1 = true ∧ (after (.incomingMemWrite ⟨0x33, .cxlMem, false⟩ false 0x10000 [5]) s).bytes 0x10000 1 = [0] ∧
    (mstLab 0 3 0 pageZone).place 0x30000 = .error causeCompressed ∧ ((after (.incomingMemRead ⟨0x33, .cxlMem, false⟩ 0x30000 1) (mstLab 0 3 0 pageZone)).mtu 0).expanding.map (·.1) = [3] := by decide +kernel
/-- A part 0x11 that permits part 0x22, with one lease of identifier 9 with it in entry 4. -/
def lent (l : Lease) : State := { lab [[]] with
  latigo := { pbr := 0x11, permit := [(0, 0x400000000)] }
  leases := [(4, { l with id := 9, peer := 0x22, ngran := 1, expiry := if l.expiry = 0 then 2000000000 else l.expiry })] }
/-- The borrower's accesses: served while the lease is ACTIVE, an error beyond the extent; its line is then one it may cache (R333, R434). -/
theorem test_borrower : (match (lent { st := .active }).lentAccess 0x22 9 64 4 with | .serve i l _ => (i, l.peer) | _ => (0, 0)) = (4, 0x22) ∧
    (match (lent { st := .active }).lentAccess 0x22 9 0x10000000 4 with | .refuse => true | _ => false) = true ∧
    (after (.incomingMemRead ⟨0x22, .lent 9, false⟩ 64 4) (lent { st := .active })).leases.map (fun x => x.2.cached) = [[1]] ∧
    (after (.uioWriteReceived 9 64 [7]) (lent { st := .active })).byte (poolBase + 64) = 7 ∧ (after (.incomingMemRead ⟨0x22, .lent 9, false⟩ 0x10000000 4) (lent { st := .active })).sec.unserved = 1 := by decide +kernel
/-- A response to a snoop brings its dirty bytes; the last of a recall ends it with RELEASED; without one the line is given up after 1 ms. -/
def snooped (l : List Nat) (now : DWord) : State := { lent { st := .recalling, cached := l, snoops := l.map fun k => (k, 0) } with devTime := now }
theorem test_snoop : (after (.bisnpResponse 9 1 [7]) (snooped [1, 2] 0)).byte (poolBase + 64) = 7 ∧ (after (.bisnpResponse 9 1 [7]) (snooped [1, 2] 0)).leases.map (fun x => x.2.cached) = [[2]] ∧
    (after (.bisnpResponse 9 1 []) (snooped [1] 0)).leases.map (fun x => x.2.st) = [.released] ∧ (after (.bisnpResponse 9 1 []) (snooped [1] 0)).outbox.length = 1 ∧
    (after (.bisnpTimeout 9 1) (snooped [1] 1000000)).leases.map (fun x => x.2.st) = [.released] ∧ (after (.bisnpTimeout 9 1) (snooped [1] 999999)).leases.map (fun x => x.2.st) = [.recalling] ∧
    (snooped [1] 0).leaseAt 9 = (snooped [1] 0).leases.head? := by decide +kernel
/-- A back-invalidate snoop for a lease borrowed, and for one that is not; a peer store acknowledged, and one with no answer in 50 ms (R333, R443). -/
def storing (now : DWord) : State := { lab [[]] with
  devTime := now
  peerStores := [{ id := 70, task := 1, lease := 9, ia := 0 }] }
theorem test_peer : (after (.backInvalidateSnoop 9 0) (lent { st := .active })).outbox = [.snoopAnswer 9 0 []] ∧ (after (.backInvalidateSnoop 9 0) (lent { st := .active, borrowed := true })).outbox = [.snoopAnswer 9 0 []] ∧
    (after (.uioAck 70 .ok) (storing 0)).peerStores.length = 0 ∧ (after (.uioAck 70 .error) (storing 0)).tasks.map (·.status) = [2] ∧ (after (.peerStoreTimeout 70) (storing 50000000)).tasks.map (·.status) = [2] ∧
    (after (.peerStoreTimeout 70) (storing 49999999)).peerStores.length = 1 ∧ ((after (.uioAck 70 .error) (storing 0)).ctx 0).trprod = 1 := by decide +kernel

/-- A message from part 0x22 to part 0x11 (R431). -/
def msg (k lease term ngran arg epoch : Nat) : BitVec 256 :=
  let v : BitVec 256 := at_ 256 0 8 k ||| at_ 256 40 16 epoch ||| at_ 256 56 12 0x11 ||| at_ 256 68 12 0x22 ||| at_ 256 80 16 ngran ||| at_ 256 96 32 term ||| at_ 256 128 32 lease ||| at_ 256 160 64 arg
  v ||| at_ 256 224 32 (crc32c (toBytes 28 v)).toNat
def noLease : State := { lent {} with leases := [] }
/-- The messages that were sent: kind, lease, term and argument of each. -/
def sentOf (s : State) : List (Nat × Word × Nat × Nat) := s.outbox.filterMap fun o => match o with | .message m => some (Lm.kind m, Lm.lease m, Lm.term m, Lm.arg m) | _ => none
theorem test_taken_up : TakenUp noLease 1 (msg 1 0 500 2 0 0) ∧ ¬TakenUp noLease 1 (msg 1 0 500 2 0 7) ∧ TakenUp noLease 0x11 (msg 0x11 0 0 0 5 7) ∧ ¬TakenUp (lab []) 1 (msg 1 0 500 2 0 0) := by
  unfold TakenUp; decide +kernel
/-- REQ: granted from the lowest granules, refused without a permit and without granules (R433). -/
theorem test_req : noLease.flushEvents.poolRun 2 = some 0 ∧ noLease.flushEvents.freeLease = some 0 ∧ sentOf (after (.req (msg 1 0 500 2 0 0)) noLease) = [(2, 0x1101000, 500, 0)] ∧
    (after (.req (msg 1 0 500 2 0 0)) noLease).leases.map (fun x => (x.2.st, x.2.ngran, x.2.expiry)) = [(.offered, 2, 500000)] ∧
    sentOf (after (.req (msg 1 0 500 2 0 0)) { noLease with latigo := { pbr := 0x11 } }) = [(4, 0, 0, 1)] ∧
    sentOf (after (.req (msg 1 0 500 2 0 0)) { noLease with pers := { poolgr := 0 } }) = [(4, 0, 0, 2)] ∧ ({ noLease with pers := { poolgr := 0 } } : State).flushEvents.poolRun 2 = none := by decide +kernel
/-- A table whose 4,096 entries are all in use has no free one. -/
theorem aux_all_used (n i : Nat) (h : i < n) : Sparse.find? ((List.range' 0 n).map fun k => (k, ({ st := .active, borrowed := true } : Lease))) i = some { st := .active, borrowed := true } := by
  suffices g : ∀ m b, b ≤ i → i < b + m → Sparse.find? ((List.range' b m).map fun k => (k, ({ st := .active, borrowed := true } : Lease))) i = some { st := .active, borrowed := true } from
    g n 0 (Nat.zero_le i) (by omega)
  intro m
  induction m with
  | zero => intro b _ _; omega
  | succ m ih =>
    intro b h1 h2
    rw [List.range'_succ, List.map_cons, Sparse.find?]
    split
    · rfl
    · exact ih (b + 1) (by omega) (by omega)
def allUsed : State := { noLease with leases := (List.range' 0 4096).map fun k => (k, { st := .active, borrowed := true }) }
theorem test_all_used : allUsed.freeLease = none := by
  rw [State.freeLease, List.find?_eq_none]
  intro i h
  have : (allUsed.lease i) = { st := .active, borrowed := true } := by
    unfold State.lease
    show (Sparse.find? ((List.range' 0 4096).map fun k => (k, ({ st := .active, borrowed := true } : Lease))) i).getD {} = _
    rw [aux_all_used 4096 i (List.mem_range.mp h)]
    rfl
  rw [this]
  decide
/-- OFFER of what was asked for is accepted, of anything else released; REFUSE ends the REQUEST (R432, R433). -/
def asked : State := { noLease with latigo := { noLease.latigo with request := some (0x22, 0, false), busy := true } }
theorem test_offer : sentOf (after (.offer (msg 2 9 1024 1 0 0)) asked) = [(3, 9, 0, 0)] ∧ (after (.offer (msg 2 9 1024 1 0 0)) asked).leases.map (fun x => (x.2.st, x.2.borrowed, x.2.expiry)) = [(.active, true, 1023000)] ∧
    sentOf (after (.offer (msg 2 9 1024 1 0 0)) noLease) = [(8, 9, 0, 0)] ∧ (after (.refuse (msg 4 0 0 0 3 0)) asked).latigo.request = none ∧ (after (.refuse (msg 4 0 0 0 3 0)) noLease).outbox = [] := by decide +kernel
/-- ACCEPT, RENEW, RENEWED, NOTICE, RELEASE and RELEASED move the entry they name (R433 to R435). -/
theorem test_lease_messages : (after (.accept (msg 3 9 0 0 0 0)) (lent { st := .offered })).leases.map (fun x => x.2.st) = [.active] ∧ sentOf (after (.renew (msg 5 9 500 0 0 0)) (lent { st := .active })) = [(6, 9, 500, 0)] ∧
    sentOf (after (.renew (msg 5 9 500 0 0 0)) (lent { st := .active, notice := true, graceEnd := 90000 })) = [(6, 9, 90, 0)] ∧
    (after (.renewed (msg 6 9 1024 0 0 0)) (lent { st := .active, borrowed := true, renewals := [1000] })).leases.map (fun x => (x.2.expiry, x.2.renewals)) = [(1024000, [])] ∧
    (after (.notice (msg 7 9 50 0 0 0)) (lent { st := .active, borrowed := true })).leases.map (fun x => (x.2.notice, x.2.graceEnd)) = [(true, 50000)] ∧
    (after (.released (msg 9 9 0 0 0 0)) (lent { st := .recalling, borrowed := true })).leases.map (fun x => x.2.st) = [.released] := by decide +kernel
theorem test_release : sentOf (after (.release (msg 8 9 0 0 0 0)) (lent { st := .active })) = [(9, 9, 0, 0)] ∧ (after (.release (msg 8 9 0 0 0 0)) (lent { st := .active })).leases.map (fun x => x.2.st) = [.released] ∧
    (after (.release (msg 8 9 0 0 0 0)) (lent { st := .active, cached := [3] })).outbox = [.snoop 9 3] ∧ (lent { st := .active }).flushEvents.leaseAt 9 = (lent { st := .active }).leases.head? ∧
    (lent { st := .active }).flushEvents.leaseAt 8 = none ∧ ({ lent { st := .active } with leases := (lent { st := .active }).leases.map fun x => (x.1, { x.2 with peer := 0x33 }) } : State).leaseAt 9 ≠ none := by decide +kernel
/-- A command at 0x90000 of the ring (R432). -/
def commanded (c : BitVec 256) (s : State) : State := { s with
  latigo := { s.latigo with cmd := { base := 0x90000, log := 4, prod := 1 } }
  mem := Sparse.putN memDefault [] 0x90000 (toBytes 32 c) }
theorem test_lease_request : (commanded (at_ 256 0 8 1 ||| at_ 256 100 12 0x22 ||| at_ 256 112 16 2 ||| at_ 256 128 32 500) noLease).latigoHead = some (at_ 256 0 8 1 ||| at_ 256 100 12 0x22 ||| at_ 256 112 16 2 ||| at_ 256 128 32 500) ∧
    sentOf (after .leaseRequest (commanded (at_ 256 0 8 1 ||| at_ 256 100 12 0x22 ||| at_ 256 112 16 2 ||| at_ 256 128 32 500) noLease)) = [(1, 0, 500, 0)] ∧
    (after .leaseRequest (commanded (at_ 256 0 8 1) noLease)).bytes 0x90001 1 = [2] ∧ (after .leaseBadCommand (commanded (at_ 256 0 8 5) noLease)).bytes 0x90001 1 = [2] ∧ noLease.latigoHead = none ∧
    (after .leaseRequest (commanded (at_ 256 0 8 1 ||| at_ 256 20 1 1) noLease)).bytes 0x90001 1 = [2] := by decide +kernel
theorem test_lease_commands : sentOf (after .leaseRenew (commanded (at_ 256 0 8 2 ||| at_ 256 160 32 9) (lent { st := .active, borrowed := true, term := 7 }))) = [(5, 9, 7, 0)] ∧
    sentOf (after .leaseRelease (commanded (at_ 256 0 8 3 ||| at_ 256 160 32 9) (lent { st := .active, borrowed := true }))) = [(8, 9, 0, 0)] ∧
    sentOf (after .leaseRecall (commanded (at_ 256 0 8 4 ||| at_ 256 160 32 9 ||| at_ 256 128 32 60) (lent { st := .active }))) = [(7, 9, 60, 0)] ∧
    (after .leaseRecall (commanded (at_ 256 0 8 4 ||| at_ 256 160 32 9 ||| at_ 256 128 32 10001) (lent { st := .active }))).bytes 0x90001 1 = [2] ∧
    (after .leaseRenew (commanded (at_ 256 0 8 2 ||| at_ 256 160 32 9) (lent { st := .active }))).bytes 0x90001 1 = [2] := by decide +kernel
theorem test_no_answer : (after .requestNoAnswer { commanded (at_ 256 0 8 1) asked with devTime := 100000 }).bytes 0x90018 1 = [5] ∧ (after .requestNoAnswer { commanded (at_ 256 0 8 1) asked with devTime := 99999 }).latigo.busy = true := by
  decide +kernel
/-- The timers: a lapsed OFFER, an expired lease at its borrower and its lender, a grace period that ends, and a RENEW that is due (R433, R435, R438). -/
def timed (l : Lease) (now : DWord) : State := { lent l with devTime := now }
theorem test_lease_timers : (after (.offerTimeout 4) (timed { st := .offered } 100000)).leases.map (fun x => x.2.st) = [.released] ∧ (after (.offerTimeout 4) (timed { st := .offered } 99999)).leases.map (fun x => x.2.st) = [.offered] ∧
    (after (.leaseExpiry 4) (timed { st := .active, borrowed := true, expiry := 50 } 50)).leases.map (fun x => x.2.st) = [.released] ∧
    (after (.leaseExpiry 4) (timed { st := .active, cached := [1], expiry := 50 } 50)).leases.map (fun x => x.2.st) = [.recalling] ∧ (after (.leaseExpiry 4) (timed { st := .active, expiry := 50 } 49)).leases.map (fun x => x.2.st) = [.active] ∧
    sentOf (after (.gracePeriodEnd 4) (timed { st := .active, borrowed := true, notice := true, graceEnd := 50 } 50)) = [(8, 9, 0, 0)] ∧
    sentOf (after (.renewTimer 4) (timed { st := .active, borrowed := true, term := 1000, expiry := 1000000 } 750001)) = [(5, 9, 1000, 0)] ∧
    (after (.renewTimer 4) (timed { st := .active, borrowed := true, term := 1000, expiry := 1000000 } 750000)).outbox = [] := by decide +kernel
/-- The fabric manager: ALIVE is noted, and answered with DEPART for a part declared gone; ANNOUNCE, CLAIM and DEPART; the timers of R439 to R441. -/
def managed (isFm : Bool) (now : DWord) : State := { lent { st := .active } with
  devTime := now
  pers := { cand := true, candPri := 5 }
  latigo := { pbr := 0x11, isFm := isFm, fmValid := isFm, fmPbr := 0x11, fmPri := 5, routes := [(0x22, 0), (0x33, 1)], heard := [(0x22, 0)], departed := [0x33] } }
theorem test_alive : Sparse.find? (after (.alive (msg 0x10 0 0 0 0 0)) (managed true 9)).latigo.heard 0x22 = some 9 ∧ (after (.alive (msg 0x10 0 0 0 0 0)) (managed false 9)).latigo.heard = [(0x22, 0)] ∧
    (after (.announce (msg 0x11 0 0 0 6 1)) (managed true 9)).latigo.fmPbr = 0x22 ∧ (after (.announce (msg 0x11 0 0 0 6 1)) (managed true 9)).latigo.isFm = false ∧
    (after (.announce (msg 0x11 0 0 0 4 0)) (managed true 9)).latigo.fmPbr = 0x11 ∧ (after (.depart (msg 0x13 0 0 0 0x22 0)) (managed false 9)).leases.map (fun x => x.2.st) = [.released] := by decide +kernel
def claiming (now : DWord) : State := { managed false now with latigo := { (managed false now).latigo with claim := some (1, 0) } }
theorem test_election : (after (.claim (msg 0x12 0 0 0 6 1)) (claiming 0)).latigo.claim = none ∧ (after (.claim (msg 0x12 0 0 0 4 1)) (claiming 0)).latigo.claim = some (1, 0) ∧
    sentOf (after .announceAbsence (managed false 1000000)) = [(0x12, 0, 0, 5), (0x12, 0, 0, 5)] ∧ (after .announceAbsence (managed false 999999)).outbox = [] ∧
    (after .electionWin (claiming 200000)).latigo.isFm = true ∧ (after .electionWin (claiming 199999)).latigo.isFm = false ∧ sentOf (after .announceTimer (managed true 100000)) = [(0x11, 0, 0, 5), (0x11, 0, 0, 5)] ∧
    (after .announceTimer (managed true 99999)).outbox = [] := by decide +kernel
theorem test_alive_timers : sentOf (after .aliveTimer { managed false 100000 with latigo := { (managed false 0).latigo with fmValid := true, fmPbr := 0x22 } }) = [(0x10, 0, 0, 0)] ∧ (after .aliveTimer (managed true 100000)).outbox = [] ∧
    (sentOf (after (.aliveTimeout 0x22) (managed true 1000000))).countP (fun m => m == (0x13, 0, 0, 0x22)) = 2 ∧ (after (.aliveTimeout 0x22) (managed true 999999)).outbox = [] ∧ (managed true 0).latigoWait.isNone = true := by decide +kernel

/-! ### Checkpoints, reset, registers and the other cores (R451 to R459, R467 to R476) -/

/-- The checkpoint engine in a state, with a command, on a part with no task and no page table. -/
def ckLab (st : CkState) (cmd : BitVec 8) : State := { lab [[]] with
  mtus := []
  tasks := []
  blocks := []
  ck := { st := st, cmd := cmd, arealen := 0x1000 } }
/-- QUIESCE with room and without, its end, SNAP, and a command that the state does not allow (R451 to R454). -/
theorem test_quiesce : (after .quiesce (ckLab .running 1)).ck.st = .quiescing ∧ (after (.registerWrite 0xF000600000 1) (ckLab .quiesced 0)).ck.cmd = 0 ∧
    (after .quiesce { cmdLab 0 .placed 0 with ck := { cmd := 1, arealen := 0x1000 } }).ck.err = 7 ∧ (after .quiesceComplete (ckLab .quiescing 0)).ck.st = .quiesced ∧
    (after .quiesceComplete { ckLab .quiescing 0 with rings := [{ ring := 7, epoch := 3, ctx := 0, st := .running }] }).ck.st = .quiescing ∧ (after .snap (ckLab .quiesced 2)).ck.st = .writing ∧
    (after .clear (ckLab .failed 5)).ck.st = .running ∧ (after (.registerWrite 0xF000600000 2) (ckLab .running 0)).ck.cmd = 0 ∧ (after (.registerWrite 0xF000600000 0x102) (ckLab .written 0)).ck.incr = true := by decide +kernel
theorem test_snap : (after (.snapComplete none) (ckLab .running 0)).ck.st = .running ∧ shardAt 0x1000 2 = 0x1000 + 0x400000 + 2 * 0x4001000 ∧
    (cutShards .pool (List.range 1030)).map (fun p => (p.kind, p.frames.length)) = [(.pool, 1024), (.pool, 6)] ∧
    ({ step := 5, job := 6, dev := 7 } : Checkpoint).shardHead 8 0x1000 2 3 = at_ 512 0 8 1 ||| at_ 512 8 8 3 ||| at_ 512 64 32 2 ||| at_ 512 96 32 0x1000 |||
      at_ 512 152 8 7 ||| at_ 512 160 32 6 ||| at_ 512 192 64 5 ||| at_ 512 256 256 8 := by
  and_intros <;> decide +kernel
/-- LOAD starts from RUNNING; with no manifest it ends with MANIFEST; in another state it does nothing (R457). -/
theorem test_load : (after .load (ckLab .running 4)).ck.st = .loading ∧ (after (.loadComplete 0 0) (ckLab .loading 0)).ck.err = 2 ∧
    (after (.loadComplete 0 0) (ckLab .running 0)).ck.st = .running := by
  and_intros <;> decide +kernel
theorem test_ck_resume : (after .ckResume { ckLab .loaded 3 with tasks := [{ uid := 1, ctx := 0, phase := .saved }] }).pool.map (·.restore) = [some 1] ∧ (after .ckResume (ckLab .written 3)).ck.st = .running := by decide +kernel

/-- Cinch stops and restarts the clocks; the thermal limits; ports with their halves shared or not (R12, R427, R473 to R476). -/
def ported (b : BitVec 12) : State := { lab [[]] with
  ports := (List.replicate 24 false).set 4 true |>.set 5 true
  pers := { bifurcated := b } }
theorem test_platform : (after .cinch (lab [[]])).frozen = true ∧ (after .cinchgo (after .cinch (lab [[]]))).frozen = false ∧ (after (.cinchadr (.address 8)) (lab [[]])).cinchAddr = 0 ∧
    (after (.cinchadr (.address 8)) (after .cinch (lab [[]]))).cinchAddr = 8 ∧ (after .cinchrd (after .cinch (lab [[]]))).cinchAddr = 8 ∧ (after (.thermalThrottle 2) (lab [[]])).mhz = 2300 ∧
    (after (.thermalTrip 1) (lab [[]])).boot = .tripped ∧ (after (.spdmRequest [1]) (lab [[]])).outbox.length = 1 ∧ (after (.fmApiCommand 7 []) (lab [[]])).latigo.pbr = 7 := by decide +kernel
theorem test_ports : ((after (.portLinkDown 2 0) (ported 0)).ports.drop 4).take 2 = [false, false] ∧ ((after (.portLinkDown 2 0) (ported 4)).ports.drop 4).take 2 = [false, true] ∧
    ((after (.portLinkReset 3 1 true) (ported 8)).ports.drop 6).take 2 = [false, true] ∧ (ported 0).ports[4]? = some true ∧ (lab [[]]).boot = .up ∧ (ported 0).ports[7]? ≠ some true := by decide +kernel
/-- A lease with a part that only the fallen port reaches is lost (R433). -/
def routed : State := { ported 0 with
  latigo := { pbr := 0x11, routes := [(0x22, 4)] }
  leases := [(4, { id := 9, peer := 0x22, st := .active, borrowed := true })] }
theorem test_port_lease : (routed.setPort 2 0 false).cutOff 0x22 = true ∧ (after (.portLinkDown 2 0) routed).leases.map (fun x => x.2.st) = [.released] := by decide +kernel
/-- Writes of registers: values in and out of range, a CMD taken and one ignored while BUSY (R6, R229, R400, R406, R429). -/
theorem test_registers : (after (.registerWrite 0xF000100010 9) (lab [[]])).mtus.map (·.ageper) = [9, 0, 0, 0, 0, 0, 0, 0] ∧ ((after (.registerWrite 0xF000100010 0x10000) (lab [[]])).mtu 0).ageper = 0 ∧
    ((after (.registerWrite 0xF000400040 0x700000006) (lab [[]])).ctx 0).cmdstat = 1 ∧ ((after (.registerWrite 0xF000400040 0x700000006) (lab [[]])).ctx 0).cmdTask = 7 ∧
    ((after (.registerWrite 0xF000400040 0x700000006) (cmdLab 1 .placed 0)).ctx 0).cmdTask = 5 ∧ (after (.registerWrite 0xF000500010 99) (lab [[]])).latigo.maxterm = 10000 ∧
    (after (.registerWrite 0xF000600000 1) (lab [[]])).ck.cmd = 1 ∧ ((after (.registerWrite 0xF000200068 5) (lab [[]])).queue 3).tail = 5 ∧ 0 < (lab [[]]).mtus.length := by decide +kernel

/-- What words of the RISC-V standard ask for: 32-bit ones. x1 = 0x40, x2 = 0x100, x5 = 0x1FF, x7 = 4, x9 = 8, x11 = 3. -/
def rvLab : QueueCore := { pc := 0x20, x := (((((((List.replicate 32 0).set 1 0x40).set 2 0x100).set 5 0x1FF).set 7 4).set 9 8).set 11 3) }
theorem test_rv_words : ∀ p ∈ ([(0xFFF28313, .compute 6 0x1FE), (0x12345337, .compute 6 0x12345000), (0x00001317, .compute 6 0x1020),
    (0x40500333, .compute 6 0xFFFFFE01), (0x008000EF, .jump 1 0x28), (0x00008067, .jump 0 0x40), (0xFE029EE3, .jump 0 0x1C), (0xFE028EE3, .compute 0 0),
    (0x00400303, .load 6 4 1 true), (0x00501323, .store 5 6 2), (0x0053A32F, .amo 6 5 4 0), (0x30529373, .csr 6 0x305 1 0x1FF true),
    (0x34002373, .csr 6 0x340 2 0 false), (0x02528333, .compute 6 0x3FC01), (0x0202C333, .compute 6 0xFFFFFFFF), (0x0202E333, .compute 6 0x1FF),
    (0x00000073, .trap 11 0), (0x30200073, .mret), (0x0000100F, .trap 2 0x100F), (0xFFFFFFFF, .trap 2 0xFFFFFFFF), (0xC0002373, .trap 2 0xC0002373),
    (0xF1129373, .trap 2 0xF1129373)] : List (Word × QcAct)), rvLab.legalAct p.1 = p.2 := by decide +kernel
theorem test_rv_compressed : ∀ p ∈ ([(0x12FD, .compute 5 0x1FE), (0x4080, .load 8 8 4 true), (0x8082, .jump 0 0x40), (0x557D, .compute 10 0xFFFFFFFF),
    (0x6505, .compute 10 0x1000), (0x6141, .compute 2 0x110), (0x0800, .compute 8 0x110), (0xC606, .store 1 0x10C 4), (0x40B2, .load 1 0x10C 4 true),
    (0x852E, .compute 10 3), (0x952E, .compute 10 3), (0xA001, .jump 0 0x20), (0xC111, .jump 0 0x24), (0xE111, .compute 0 0), (0x9002, .trap 3 0x20),
    (0x0000, .trap 2 0), (0x050E, .compute 10 0)] : List (Word × QcAct)), rvLab.legalAct p.1 = p.2 := by decide +kernel
/-- Queue core 3 with one range: 0x1000 bytes at 0 are IA 0x10000; at its pc stands the instruction `w` (R468). -/
def qcLab (rights : Nat) (w : Word) : State := { (lab [[]]).setBytes 0x10000 (toBytes 4 w ++ [0x85]) with
  qcores := (lab [[]]).qcores.modify 3 fun c => { c with
    x := (c.x.set 5 0x1FF).set 7 4
    ranges := c.ranges.set 0 (at_ 128 0 3 rights ||| at_ 128 12 32 0x1000 ||| at_ 128 44 52 0x10000) } }
theorem test_qc_fetched : ((qcLab 7 0x00400303).qcPlaces 3 ((qcLab 7 0x00400303).qcore 3).pc.toNat 2 rangeX .load).toOption = some [(0x10000, 0x10000), (0x10001, 0x10001)] ∧
    (((qcLab 7 0x00400303).qcNote [(0x10000, 0x10000), (0x10001, 0x10001)] false).qcPlaces 3 (((qcLab 7 0x00400303).qcore 3).pc.toNat + 2) 2 rangeX .load).toOption = some [(0x10002, 0x10002), (0x10003, 0x10003)] ∧ field ((qcLab 7 0x00400303).qcRead [(0x10000, 0x10000), (0x10001, 0x10001)]) 0 2 = 3 ∧
    3 < (qcLab 7 0).qcores.length ∧ ((qcLab 3 0).qcore 3).reach 0 rangeX = none ∧ ((qcLab 7 0).qcPlaces 3 4 1 rangeR .load).toOption.isSome = true ∧
    inPort 4 = false ∧ ((qcLab 4 0).qcore 3).reach 4 rangeR = none ∧ ((qcLab 5 0).qcore 3).reach 4 rangeW = none ∧ isLocal (qcLab 7 0) 0x10004 1 = true := by decide +kernel
theorem aux_ok {α β : Type} {x : Except α β} {l : β} (h : x.toOption = some l) : x = .ok l := by
  cases x with
  | ok y => exact congrArg Except.ok (Option.some.inj h)
  | error y => cases h
theorem test_qc_does : ∃ u, QcDoes (qcLab 7 0x00400303) 3 4 (.load 6 4 1 true) u :=
  ⟨_, by decide +kernel, by decide +kernel, [(0x10000, 0x10000), (0x10001, 0x10001)], 0x00400303, aux_ok test_qc_fetched.1, by decide +kernel,
    .inr ⟨by decide +kernel, rfl, [(0x10002, 0x10002), (0x10003, 0x10003)], aux_ok test_qc_fetched.2.1, by decide +kernel, rfl⟩⟩
/-- A queue core's own step: ADDI, JAL, LB with its sign, SH, AMOADD, CSRRW, C.LI, and the exceptions. -/
def qc (i : Instr) (r : Nat) (w : Word) : QueueCore := (after i (qcLab r w)).qcore 3
theorem test_queue_core : (qc (.queueCoreInstruction (.instruction 3)) 7 0xFFF28313).reg 6 = 0x1FE ∧ (qc (.queueCoreInstruction (.instruction 3)) 7 0xFFF28313).pc = 4 ∧ (qc (.queueCoreInstruction (.instruction 3)) 7 0x008000EF).pc = 8 ∧ (qc (.queueCoreInstruction (.instruction 3)) 7 0x008000EF).reg 1 = 4 ∧ (qc (.queueCoreInstruction (.instruction 3)) 7 0x00400303).reg 6 = 0xFFFFFF85 ∧
    (after (.queueCoreInstruction (.instruction 3)) (qcLab 7 0x00501323)).bytes 0x10006 2 = [0xFF, 1] ∧ (after (.queueCoreInstruction (.instruction 3)) (qcLab 7 0x0053A32F)).bytes 0x10004 2 = [0x84, 2] := by decide +kernel
theorem test_queue_core_traps : (qc (.queueCoreInstruction (.instruction 3)) 7 0x30529373).mtvec = 0x1FF ∧ (qc (.queueCoreInstruction (.instruction 3)) 7 0x00301303).mcause = 4 ∧ (qc (.queueCoreInstruction (.instruction 3)) 4 0x00400303).mcause = 5 ∧ (qc (.queueCoreInstruction (.instruction 3)) 3 0x00400303).mcause = 1 ∧ (qc (.queueCoreInstruction (.instruction 3)) 7 0x00000073).mcause = 11 ∧
    (qc (.queueCoreInstruction (.instruction 3)) 7 0xFFFFFFFF).mcause = 2 ∧ (qc (.queueCoreInstruction (.instruction 3)) 7 0x30200073).mpie = true ∧ (qc (.queueCoreInstruction (.instruction 3)) 7 0x557D).pc = 2 ∧ (qc (.queueCoreInstruction (.instruction 3)) 7 0x557D).reg 10 = 0xFFFFFFFF := by decide +kernel
/-- A system core's load, store and register read (R467). -/
theorem test_system_core : (after (.systemCoreInstruction 2 (.load 0x10000 2 false)) (labMem [])).outbox = [.readData [0x81, 0x82] false] ∧
    (after (.systemCoreInstruction 2 (.store 0x10000 [9] false)) (labMem [])).bytes 0x10000 2 = [9, 0x82] ∧ ((labMem []).checkPlace 0x10000 2 .load).toOption.isSome = true ∧
    (after (.systemCoreInstruction 2 (.registerRead 0xF000500010)) (lab [[]])).outbox = [.readData [0x10, 0x27, 0, 0, 0, 0, 0, 0] false] := by decide +kernel

/-! ### Premises of statements that the tests above leave open -/

/-- A matrix operation locks the line at an address (R290, R291). -/
def lockAt (ia : Nat) (s : State) : State :=
  { s with ops := [{ id := 50, blk := 1, crew := 0, core := 0, task := 1, ctx := 0, cls := 3, work := .accz 0 0, memLocks := [ia / 64] }] }
theorem test_premise_debug : isLocal debugged (debugged.ctx debugged.curCtx).dumpAt 256 = true ∧
    ∀ c ∈ debugged.curBlock.crews, c.owed = false ∧ c.unsettled = false ∧ c.poisoned = none := by decide +kernel
/-- An object that the L1 may serve, and a turn that may read an older copy (R195, R310). -/
def l1Lab : State := let s := labMem [at2 0]
  { s with
    cur := { s.cur with stale := true }
    cores := s.cores.modify 0 fun k => { k with handles := (handleKey 0 2, dataEntry ||| at_ 512 33 1 1, none) :: k.handles } }
theorem test_premise_older : l1Lab.cur.stale = true ∧
    ((l1Lab.checkWants (l1Lab.wants (ld 0x40 4)) 4 (Req.load 4) .load).toOption.map fun as => as.all fun x => cachedLoad (ld 0x40 4) x.2) = some true ∧
    (labMem [at2 0]).cur.stale = false := by decide +kernel
theorem test_premise_atomics : WellFormed (.atom { ld 0x40 0 with form := .rri, b := 12 }) = true ∧ WellFormed (.acas { d := 20, a := 6, b := 12, x := c16, md := 0x40 }) = true ∧
    WellFormed (.acas2 { d := 20, a := 6, b := 12, x := c16, md := 0x60 }) = true ∧ WellFormed (.afadd { ld 0x40 0 with form := .rri, b := 12 }) = true := by decide +kernel
theorem test_premise_collq : executing collxReady = true ∧ collxReady.curCrew.tr = none ∧ collxReady.cur.replay = none ∧ (collxReady.acting { d := 20, a := 6 }).head? = some 0 ∧
    (collxReady.ringRecord (refTo 5 0x240)).toOption.isSome = false ∧ (collxReady.curCrew.pend.filter (·.replay)).length < 16 := by decide +kernel
theorem test_premise_queues : let s := qLab [qr 6 0x200] id
    s.ownWait ((s.queue 3).slot (s.queue 3).tail) 64 true = none ∧ s.ownWait ((s.queue 3).slot (s.queue 3).head) 64 false = none ∧ s.scrLocked s.cur.blk 0x200 64 = false ∧
    (∀ k ∈ s.acting (qf 0), (s.curCrew.fibre k).acted = false) := by decide +kernel
theorem test_premise_pool : 16384 ≤ (predLab 0 true).pool.length + (predLab 0 true).arriving ∧ (predLab 0 false).pool.length + (predLab 0 false).arriving < 16384 := by decide +kernel
theorem test_premise_services : (pageless id).journalWait 4 false = none ∧ (pageless id).journalWait 4 true = none ∧
    (pageless id).ownWait (((pageless id).queue 4).slot ((pageless id).queue 4).tail) 64 true = none := by decide +kernel
/-- A member waits at COMMIT while the other fibre of its crew stands elsewhere: a commit step is due (R371). -/
def dueCommit : State := { (tryState 1 false).updCur fun c => c.updFibre 0 fun f => { f with st := .waiting, wait := .commit } with
  cur := { (tryState 1 false).cur with mask := 2 } }
theorem test_premise_try : executing dueCommit = true ∧ dueCommit.converged = false ∧ dueCommit.curCrew.commitDue = true ∧ split.curCrew.commitDue = false := by decide +kernel
theorem test_premise_commit : (match committing.writeBacks (.commit 1 0 (committing.block 1).core) 1 (List.range 8), (committing.crew 1 0).tr with
    | .ok s1, some y => (y.buf.all fun e => (s1.checkPlace (16 * e.block) 1 .store).toOption.isSome) &&
        ((byteRuns y.commitBytes).all fun r => !s1.lineLocked r.1 r.2.length && (s1.checkPlace r.1 r.2.length .store).toOption.isSome)
    | _, _ => false) = true := by decide +kernel
theorem test_premise_core_events : dueLab.crewLands 1 0 = true ∧ ((waiting (.counter 3 7) .clear (waitcF 7)).crew 1 0).goes 0 = true ∧
    ((after (.waiterRetry 1 0 0) (waiting (.mon 5 none) .clear (qf 0))).curCrew.fibre 0).reg 20 = 2 := by decide +kernel
theorem test_premise_copy : ((opLab (copyOf [memMove]) 0 id).ctx 0).compat = false ∧
    (((opLab (copyOf [memMove]) 0 id).op 50).bind fun o => ((opLab (copyOf [memMove]) 0 id).opAccess o { ref := refTo 2 0, ent := dataEntry } 0 8 .load memMove.dst.sector).toOption.bind fun a =>
      (((opLab (copyOf [memMove]) 0 id).note a false o.stream).opAccess o { ref := refTo 2 0, ent := dataEntry } 64 8 .store memMove.dst.sector).toOption.map fun a' =>
        a'.place.peer.isNone && !(opLab (copyOf [memMove]) 0 id).lineLocked a'.ia 8) = some true := by decide +kernel
theorem test_premise_collective : (collWait 10000).records = [] ∧ fits (collWait 10000) 0 = true ∧ ((collWait 10000).ctx 0).trlog ≠ 0 ∧ fits (storing 0) 0 = true := by decide +kernel
theorem test_premise_launch : ((subLab 5 1 (.launching 0) []).hubCheck 0 0 (refTo 2 0x100) 0x100 256 { r := true, align := 256 } .load).toOption.map (·.place.phys) = some 0x10100 ∧
    (subLab 5 1 (.launching 0) []).held.contains (.launch 60) = false ∧ (after (.bindingWrite 5000 1) (subLab 4 0 .intake [])).pages = (subLab 4 0 .intake []).pages := by decide +kernel
/-- What a core's compactor does next. -/
def nextUnit (s : State) : Nat := match (s.core 0).unitStep fun u => (s.crew u.blk u.crew).drained with | some (.move _) => 1 | some (.hold _) => 2 | none => 0
/-- Two crews whose units change places (R71). -/
def swapping : State := { (lab2 [[]] fun b => { b with crews := b.crews.map fun c => { c with moving := true } }) with
  cores := (lab [[]]).cores.modify 0 fun k => { k with compact := [⟨1, 0, false, 32, 16, 16⟩, ⟨1, 1, false, 16, 32, 32⟩] } }
theorem test_premise_compactor : nextUnit (compacting true) = 1 ∧ nextUnit swapping = 2 ∧ nextUnit (compacting false) = 0 ∧ ((compacting true).core 0).compacting = true ∧
    (∀ u ∈ (swapping.core 0).compact, swapping.resident_ u.blk = true ∧ (swapping.crew u.blk u.crew).live = true ∧ (swapping.crew u.blk u.crew).units ≠ 0 ∧
      u.crew < (swapping.block u.blk).crews.length) ∧ ((after (.compactorMove 0) swapping).core 0).unitHeld = some ⟨1, 0, false, 32, 16, 16⟩ := by decide +kernel
/-- An image with shared words alone: a crew's own words are none, whatever the caches hold. -/
def shared : State := { unfilled with tasks := unfilled.tasks.map fun t => { t with img := { t.img with fp := 0 } } }
theorem test_premise_fill : shared.resident_ 1 = true ∧ (shared.block 1).terminated = false ∧ (shared.core 0).compacting = false ∧ (shared.block 1).restoring = false ∧
    (shared.block 1).crews.all (fun c => c.filled || !c.live) = false ∧ ((shared.acquire 0 1).imageWords (shared.task 1) 0 shared.free 1).toOption = some [9] ∧
    (shared.crew 1 0).filled = false ∧ (shared.crew 1 0).live = true ∧ 1 ≤ (shared.task 1).img.uq ∧ 1 ≤ (shared.task 1).img.fq := by decide +kernel
theorem test_premise_own_words (v : State) (n f : Nat) : v.imageWords (shared.task 1) n f (32 * (shared.task 1).img.fp) = .ok [] := rfl
theorem test_premise_retire : (∀ c ∈ (emptied.block 1).crews, c.live = false) ∧
    (taskLab .waitPeer [] id).peerStores = [] ∧ (taskLab .waitPeer [] id).ops = [] ∧ (taskLab .stamping [] id).ops = [] := by decide +kernel
theorem test_premise_services_wait : (heldWith claimed).svcWait 3 3 = none ∧ ((lockAt 0x38000 (heldWith claimed)).svcWait 3 2).isSome = true := by decide +kernel
theorem test_premise_tiers : (lineLab.victims (sliceOf (64 * 0x400))).contains 0x400 = true ∧ (lineLab.victims (sliceOf (64 * 0x401))).contains 0x401 = false ∧ 5 < swapLab.groups ∧
    (mstLab 1 3 0 pageLocal).mstWait 0 = none ∧ (mstLab 3 3 0 pageZone).freeWait 0 = none ∧ (expandingLab pageZone).mstWait 0 = none ∧ (expandingLab pageZone).freeWait 0 = none ∧
    (agingLab 10000).agingWait 0 = none := by decide +kernel
theorem test_premise_traps : (trapLab causeNotPresent id).resident_ 1 = true ∧ ((trapLab causeNotPresent id).crew 1 0).filled = true ∧ (recordLab id).recordWait 0 = none ∧
    ((recordLab fun c => { c with trprod := 256 }).recordWait 0).isSome = true ∧ (∀ o ∈ (recordLab id).ops, o.ctx = 0 → o.pendRec = none) := by decide +kernel
theorem test_premise_restore : (savedLab (toBytes 64 imageHeader)).ownWait 0x8FFC0 (NodeRec.imageSize {}) false = none ∧ (savedLab []).pool = [] ∧ (savedLab []).poolFull = false ∧
    ((lockAt 0x8FFC0 (savedLab [])).ownWait 0x8FFC0 64 true).isSome = true := by decide +kernel
theorem test_premise_stop : ((cmdLab 4 .placed 0).liveBlocks 1).map (fun b => (b.unready, (poisonedCrew [b]).isNone)) = [(false, true)] ∧ (cmdLab 4 .placed 0).recordWait 0 = none ∧
    (cmdLab 4 .placed 0).ownWait ((cmdLab 4 .placed 0).ctx 0).dumpAt 256 true = none := by decide +kernel
/-- KILL of a task whose blocks have all retired: it goes on to its stamp (R406, R447). -/
def retiredLab : State := { cmdLab 6 .placed 0 with blocks := (cmdLab 6 .placed 0).blocks.map fun b => { b with retired := true } }
theorem test_premise_kill : (∀ b ∈ retiredLab.blocks, b.retired = true) ∧ (after (.kill 0) retiredLab).tasks.map (·.phase) = [.stamping] := by decide +kernel
theorem test_premise_inval : (invalLab invHandles).inval.wait (invalLab invHandles) = none ∧ ((lockAt 0x90000 (invalLab invHandles)).inval.wait (lockAt 0x90000 (invalLab invHandles))).isSome = true ∧
    (after .invalHandles (lockAt 0x90000 (invalLab invHandles))).invalWait = none ∧ (invalLab invHandles).recheckAll.1 = false := by decide +kernel
theorem test_premise_host : (labMem []).ownWait 0x10000 2 false = none ∧ ((labMem []).place 0x10000).toOption.map (fun p => ((labMem []).reach 0x10000 2 p).isNone) = some true ∧
    (lockAt 0x10000 (labMem [])).ownWait 0x10000 1 true = some (lockAt 0x10000 (labMem [])) ∧
    (after (.incomingMemWrite ⟨0x33, .cxlMem, false⟩ false 0x10000 [5]) (lockAt 0x10000 (labMem []))).incoming.map (·.addr) = [0x10000] ∧
    (after (.incomingMemWrite ⟨0x33, .cxlMem, false⟩ false 0x20000 [5]) (after (.incomingMemWrite ⟨0x33, .cxlMem, false⟩ false 0x10000 [5]) (lockAt 0x10000 (labMem [])))).incoming.map (·.addr) = [0x10000, 0x20000] := by
  decide +kernel
/-- An OFFERED extent while the event ring stalls the Latigo logic; a write to a line of an extent that a matrix operation locks. -/
def stalledRing (s : State) : State := { s with latigo := { s.latigo with event := { base := 0x98000, log := 4, prod := 16 } } }
theorem test_premise_borrower : (match (stalledRing (lent { st := .offered })).lentAccess 0x22 9 64 4 with | .wait _ => true | _ => false) = true ∧
    (after (.incomingMemRead ⟨0x22, .lent 9, false⟩ 64 4) (stalledRing (lent { st := .offered }))).incoming.map (·.addr) = [64] ∧
    (lent { st := .active }).physLocked (poolBase + 64) 1 = false ∧ (lent { st := .active }).incoming = [] ∧ (snooped [1] 0).latigoWait = none ∧ (snooped [1] 0).latigo.busy = false ∧
    (snooped [1] 0).latigo.event.on = false := by decide +kernel
theorem test_premise_latigo : ((stalledRing noLease).latigoSettle.latigoWait).isSome = true ∧ noLease.latigoSettle.latigoWait = none ∧
    (commanded (at_ 256 0 8 1) noLease).headIs 1 ≠ none ∧ (commanded (at_ 256 0 8 1) noLease).latigoSettle.headIs 1 = some (at_ 256 0 8 1) ∧ noLease.headIs 1 = none ∧
    (after (.req (msg 1 0 500 2 0 0)) (stalledRing noLease)).latigo.inbox.map (·.2) = [msg 1 0 500 2 0 0] := by decide +kernel
theorem test_premise_taken_up : TakenUp noLease.latigoSettle 1 (msg 1 0 500 2 0 0) ∧ TakenUp (lent { st := .offered }).latigoSettle 3 (msg 3 9 0 0 0 0) ∧
    TakenUp (managed true 9).latigoSettle 0x10 (msg 0x10 0 0 0 0 0) := by unfold TakenUp; decide +kernel
/-- A lease that ends at its expiry, with nothing else owed (R433). -/
theorem test_premise_expiry : (match Sparse.find? (timed { st := .active, borrowed := true, expiry := 50 } 50).flushEvents.leases 4 with
      | some l => decide (l.expiry ≤ 50) && l.st == .active && l.due.isNone | none => false) = true ∧
    ((timed { st := .active, borrowed := true, expiry := 50 } 50).flushEvents.loseLease 4 causeExpired).latigoWait = none ∧
    ((stalledRing (timed { st := .active, borrowed := true, expiry := 50 } 50)).flushEvents.loseLease 4 causeExpired).latigoWait.isSome = true := by decide +kernel
theorem test_premise_checkpoint : (∀ k ∈ (ckLab .quiescing 0).cores, k.compacting = false) ∧ (ckLab .loaded 3).tasks.length + (ckLab .loaded 3).pool.length + (ckLab .loaded 3).arriving ≤ 16384 := by
  decide +kernel
theorem test_premise_store : (∀ x ∈ [((0x10004, 0x10004) : Nat × Nat)], (qcLab 7 0).lineLocked x.1 1 = false) ∧ (labMem []).lineLocked 0x10000 1 = false := by decide +kernel

/-- LDS and STS: the forms that complete with no window mapped; the first access that fails in slot order (R200, R213). -/
theorem test_premise_scratchpad : let s := lab [[(6, 8188), (20, 7)]]
    executing s = true ∧ s.scrWants (ld 0x40 0) = [(0, 8188)] ∧ s.curBlock.scrPoisoned 8188 4 = false ∧ s.scrLocked 1 8188 4 = false ∧
    (lab [[(6, 8)], [(6, 8190)]]).scrWants (ld 0x40 0) = [(0, 8), (1, 8190)] ∧ ((lab [[(6, 8)], [(6, 8190)]]).scrTouch 4 true [(0, 8)]).toOption.isSome = true ∧
    ((lab [[(6, 8)], [(6, 8190)]]).scrTouch 4 false [(0, 8)]).toOption.isSome = true ∧ trapOf (.lds (ld 0x40 0)) (lab [[(6, 8)], [(6, 8190)]]) = some causeBounds := by decide +kernel
/-- Accesses that may not stand in a try: `.acq` and `.rel`, an object with RD = 1, an LDS that reaches a window (R367). -/
def tryOn (r : List (Nat × Word)) : State := (lab [r]).updCur fun c => { c with tr := some { members := 1, code := 30, target := 0x70, shadow := [[]] } }
theorem test_premise_misuse : (ld 0x440 0).mb 10 2 = 1 ∧ (ld 0x840 0).mb 10 2 = 2 ∧ (tryOn (pr 6 (refTo 3 0))).tryRowDirect ((tryOn (pr 6 (refTo 3 0))).wants (ld 0x40 0)) = true ∧
    (tryOn (pr 6 (refTo 3 0))).tryRowDirect ((tryOn (pr 6 (refTo 3 0))).wantsSpan (ld 0x40 0)) = true ∧
    ((tryOn [(6, 16)]).updBlock 1 fun b => { b with windows := b.windows.set 0 (some { base := 0, len := 64, ref := 0, writable := false }) }).curBlock.windowAt 16 ≠ none ∧
    (tryOn [(6, 16)]).scrWants (ld 0x40 0) = [(0, 16)] ∧ pcOf (.ld (ld 0x440 0)) (tryOn (at2 0)) 0 = 0x70 ∧ pcOf (.st (ld 0x40 0)) (tryOn (pr 6 (refTo 3 0))) 0 = 0x70 := by decide +kernel
/-- A store of slot 0 to the line on which slot 1 is armed (R348). -/
def armedLab : State := (labMem [at2 0, []]).updCur fun c => c.updFibre 1 fun f => { f with monitor := .armed 0x400 }
theorem test_premise_fires : (armedLab.checkWants (armedLab.wants { ld 0x40 0 with guard := some ⟨false, 1⟩ }) 4 (Req.store 4) .store).toOption.map (fun l => l.map fun x => (x.1.slot, x.2.ia)) = some [] ∧
    ((armedLab.updCur fun c => c.updFibre 0 (·.setReg 0 2)).checkWants ((armedLab.updCur fun c => c.updFibre 0 (·.setReg 0 2)).wants { ld 0x40 0 with guard := some ⟨false, 1⟩ }) 4 (Req.store 4) .store).toOption.map (fun l => l.map fun x => (x.1.slot, x.2.ia, x.2.place.peer)) = some [(0, 0x10000, none)] ∧
    ((after (.st { ld 0x40 0 with guard := some ⟨false, 1⟩ }) (armedLab.updCur fun c => c.updFibre 0 (·.setReg 0 2))).curCrew.fibre 1).monitor = .fired := by decide +kernel
/-- Two members of a try load and store; the buffer is full for one alone (R363, R365). -/
def members : State := (labMem [(20, 0x55) :: at2 0, (20, 0x66) :: at2 4]).updCur fun c => { c with tr := some { members := 3, code := 30, target := 0x70, shadow := [[], []] } }
def readFull : Try := { members := 1, code := 30, target := 0x70, shadow := [[]], reads := (List.range 128).map fun k => { line := k, members := 1, handles := [] } }
def writeFull : Try := { members := 1, code := 30, target := 0x70, shadow := [[]], buf := (List.range 256).map fun k => { block := k, slot := 0 } }
def lone (y : Try) : State := (labMem [(20, 0x55) :: at2 0]).updCur fun c => { c with tr := some y }
def accesses (s : State) (a : Access) : List (Want × Acc) := ((s.checkWants (s.wants (ld 0x40 0)) 4 (if a == .load then Req.load 4 else Req.store 4) a).toOption).getD []
theorem test_premise_members : executing members = true ∧ members.acting (ld 0x40 0) = [0, 1] ∧ (accesses members .load).length = 2 ∧ (accesses members .store).length = 2 ∧
    ((members.curCrew.tr.bind fun y => tracked members y (accesses members .load)).map fun u => u.reads.length) = some 1 ∧
    ((members.curCrew.tr.bind fun y => buffered members (ld 0x40 0) y (accesses members .store)).map fun u => u.buf.length) = some 2 ∧
    (accesses (lone readFull) .load).length = 1 ∧ (tracked (lone readFull) readFull (accesses (lone readFull) .load)).isNone = true ∧
    (accesses (lone writeFull) .store).length = 1 ∧ (buffered (lone writeFull) (ld 0x40 0) writeFull (accesses (lone writeFull) .store)).isNone = true ∧
    ((after (.ld (ld 0x40 0)) (lone readFull)).curCrew.fibre 0).reg 30 = abortWord 3 0 ∧ ((after (.st (ld 0x40 0)) (lone writeFull)).curCrew.fibre 0).reg 30 = abortWord 2 0 := by decide +kernel

def poisonedList : State := (engLab [[(12, 256), (16, 512)] ++ par 128]).updBlock 1 fun b => { b with scratchPoison := [8] }
/-- A check that fails after one that passes: PUT to a place at no multiple of 32, SKBUILD beyond the scratchpad; a GATHER by a poisoned list. -/
theorem test_premise_refused : FirstFails [need (0 % 32 == 0) (scrFault causeAlign 0), need (97 % 32 == 0) (scrFault causeAlign 97)] (scrFault causeAlign 97) ∧
    trapOf (.put { a := 6, b := 12, x := 0x10000002 }) (engLab [[(6, 0), (12, 97), (16, 0)]]) = some causeAlign ∧
    (engLab [[]]).xuRange 8176 32 = .error (scrFault causeBounds 8176) ∧
    trapOf (.skbuild { a := 6, b := 12, x := c16, md := 0x80 }) (engLab [[(6, 8192), (12, 1024), (16, 0)]]) = some causeBounds ∧
    ((lab [pr 6 (refTo 9 0)]).regionOperand { form := .ri, a := 6, x := 64 } 0).toOption.isSome = false ∧
    (poisonedList.gatherPlan { a := 6, b := 12, x := c16 } 0).toOption.isSome = true ∧ poisonedList.curBlock.scrPoisoned 512 8 = true ∧
    (after (.gather { a := 6, b := 12, x := c16 }) poisonedList).curCrew.fatals.map (·.cause) = [causeEngineFatal] := by
  refine ⟨⟨[.ok ()], [], by rfl, by decide⟩, ?_⟩
  decide +kernel
/-- Operands of the clauses on finite floats: 2^80 has the root 2^40, and 3 the root 1 with a remainder (R163). -/
theorem test_premise_floats : (1 ≠ 0 ∧ (0 - (80 : Nat) : Int) % 2 = 0 ∧ 2 ^ 40 * 2 ^ 40 ≤ 1 * 2 ^ 80 ∧ 1 * 2 ^ 80 < (2 ^ 40 + 1) * (2 ^ 40 + 1)) ∧
    ((FEnv.plain.sqrt 8 false (.fin false 1 0)).bits = 0x3F800000 ∧ (FEnv.plain.div 8 false (.fin false 1 0) (.fin false 3 0)).bits = 0x3EAAAAAB) ∧
    (2 ^ (fmtM 8 + 1) ≤ 2 ^ 25 ∧ roundF 8 1 false false (2 ^ 25) 0 true = roundF 8 1 false false (2 ^ 27 + 1) (-2)) ∧
    ((FEnv.plain.add 8 false (.fin false 1 0) (.fin true 1 0)).bits = 0 ∧ (FEnv.plain.fma 8 false (.fin false 3 0) (.fin false 5 0) (.fin true 1 0)).bits = 0x41600000) := by
  decide +kernel
/-- One element of a product: in E4M3 1 × 1 summed over a block of two, onto 2.0; in INT8 3 × 5 onto 1; a skipped group of columns (R286, R288, R294). -/
def tile (fa : Nat) (x y : Nat) : Product :=
  { m := 1, n := 1, kblk := 1, fa := fa, fb := fa, cadd := 64, ldc := 64, keepK := [true], keepN := [true], rowsA := [[x, x]], rowsB := [[y, y]] }
theorem test_premise_product : (tile 2 0x38 0x38).element 0x40000000 0 0 = some 0x40800000 ∧ (tile 7 3 5).element 1 0 0 = some 31 ∧ mtInt 7 = true ∧ mtInt 2 = false ∧
    mtMx 2 = false ∧ ((chunk [0x38, 0x38] (mtKb 2) 0).zip (chunk [0x38, 0x38] (mtKb 2) 0)).map (fun q => mulF (decodeF (mtType 2) q.1) (decodeF (mtType 2) q.2)) =
      [some (.fin false 64 (-6)), some (.fin false 64 (-6))] ∧
    ({ tile 2 0x38 0x38 with keepN := [] } : Product).element 5 0 0 = none ∧ ((tile 7 3 5).writes (lab [[]]).curBlock).map (fun x => (x.1, x.2.1)) = [(64, 30)] := by decide +kernel
/-- PROF behind a mark that waits, and into a full buffer (R291, R449). -/
def marked (n : Nat) (c : Context → Context) : State := { profiled with
  profQueue := List.replicate n (0, 0)
  contexts := profiled.contexts.modify 0 c }
theorem test_premise_prof : isLocal (marked 0 id) 0x50000 64 = true ∧ ((after (.prof {}) (marked 0 id)).ctx 0).pfprod = 1 ∧ (after (.prof {}) (marked 1 id)).profQueue.map (·.1) = [0, 0] ∧
    ((after (.prof {}) (marked 1 id)).ctx 0).pfprod = 0 ∧ ((after (.prof {}) (marked 0 fun c => { c with pfprod := 256 })).ctx 0).pfdrop = 1 ∧
    ((after (.prof {}) (lab [[]])).ctx 0).pfdrop = 1 := by decide +kernel
/-- The wait of ROWOPEN ends: at its place, when its fibre has left it, and when another strand comes first (R246). -/
theorem test_premise_swap_done : swapWait.crewMoves 1 0 = true ∧ swapWait.fatalDue 1 0 = false ∧ swapWait.curCrew.nextEntry = none ∧ swapWait.curCrew.trapWaits 1 = false ∧
    swapWait.curCrew.strandAt 8 = 1 ∧ swapWait.curCrew.nextPlace = some 8 ∧ swapWait.curCrew.tr = none ∧
    (let s := swapWait.updCur fun c => c.updFibre 0 fun f => { f with pc := 20 }
     s.curCrew.strandAt 8 = 0 ∧ (after (.rowopenSwapDone 1 0) s).curCrew.rowWait = none) ∧
    (let s := swapWait.updCur fun c => { c with fibres := c.fibres.set 1 (fib []) |>.map fun f => { f with pc := if f.regs = [] then 4 else 8 } }
     s.curCrew.nextPlace = some 4 ∧ s.curCrew.strandAt 8 &&& 1 ≠ 0) := by decide +kernel
/-- LAUNCH: behind an earlier write of its requester; of a record whose page is not present, of a poisoned one, and of one that it may not name (R329, R477). -/
def launchLab (g : State → State) : State := g (subLab 5 1 (.launching 0) [])
theorem test_premise_launches : ((launchLab id).subs.map (launchLab id).writesBefore) = [false] ∧
    (let s := launchLab fun s => { s with incoming := [{ id := 3, src := 0, path := .cxlMem, addr := 0x10000, len := 1, write := some [1] }] }
     s.subs.map s.writesBefore = [true] ∧ after (.launch 5) s = s) ∧
    (let s := launchLab fun s => { s with mtus := [] }
     (match s.hubCheck 0 0 (refTo 2 0x100) 0x100 256 { r := true, align := 256 } .load with | .error e => e.cause | _ => 0) = causeNotPresent) ∧
    (let s := launchLab fun s => { s with poison := [0x10100 / 64] }
     (match s.hubCheck 0 0 (refTo 2 0x100) 0x100 256 { r := true, align := 256 } .load with | .error e => e.cause | _ => 0) = causePoison ∧
       (s.checkHandle hubCore 0 0 (refTo 2 0x100) 0x100 256 { r := true, align := 256 }).isOk = true ∧ (after (.launch 5) s).eligible.map (·.refused) = [some causePoison]) := by
  and_intros <;> decide +kernel

/-- A held request that a checkpoint has cancelled, and one that another core holds (R52, R56). -/
theorem test_premise_pop : (({ holding with requests := [] } : State).heldRequest 3).isNone = true ∧ (holding.qcore 3).held ≠ none ∧
    (let s := svcCore (fun r => { r with heldBy := some 9 }) id [(0, claimed)]
     (s.requests.map s.claimed = [true] ∧ s.svcWait 3 1 = none) ∧ ((after (.svcPop 3) s).qcore 3).stat = 1) := by
  and_intros <;> decide +kernel
/-- A SERVICE node is preempted from its queue core, and placed again where it stood (R406, R410). -/
def nodeLab : State := { svcCore id id [] with
  requests := []
  contexts := (lab []).contexts.modify 0 fun c => { c with cmdOpc := 1, cmdstat := 1, cmdTask := 5, cmdlen := 0xFFFFFF, cmdarg := 0x80000 }
  blocks := []
  tasks := [{ placedTask with tid := 5, qcore := 3, rec_ := { service := true, entry := 8 } }] }
theorem test_premise_preempt : nodeLab.tasks.map (fun k => (nodeLab.liveFor k && k.phase == .placed, decide (k.rec_.imageSize ≤ 0xFFFFFF))) = [(true, true)] ∧
    nodeLab.ownWait 0x80000 (NodeRec.imageSize { service := true, entry := 8 }) true = none ∧ (nodeLab.qcore 3).node = some 1 ∧
    (nodeLab.qcore 3).pc = 0x44 := by
  and_intros <;> decide +kernel
def savedNode : State := { nodeLab with
  pool := [{ entry_ { service := true, entry := 8 } with restore := some 1 }]
  qcores := (lab []).qcores
  tasks := nodeLab.tasks.map fun k => { k with phase := .saved, saves := [{ chk := 0, blocks := [], ops := [], core := some { pc := 0x44 } }] } }
theorem test_premise_place : savedNode.poolOrder.head?.map (·.restore) = some (some 1) ∧ savedNode.reserve = none ∧ savedNode.halted = false ∧
    (savedNode.task 1).kept.core = some { pc := 0x44 } ∧ savedNode.serviceCore { service := true, entry := 8 } = some 0 ∧
    ((after .taskPlace savedNode).qcore 0).pc = 0x44 ∧ ((after .taskPlace savedNode).qcore 0).node = some 1 := by
  and_intros <;> decide +kernel
/-- A full pool: no record is checked (R59). -/
def crowded : State := { ready_ serviceRec with pool := List.replicate 16384 (entry_ {}) }
theorem test_premise_room : ¬crowded.pool.length < 16384 ∧ crowded.eligible.map (·.refused) = [none] ∧ (ready_ serviceRec).pool.length < 16384 := by
  and_intros <;> decide +kernel
/-- The aging tick: due, with room in both rings, in one page's visit; and waiting for a line of a ring (R235). -/
def ringed (now : DWord) : State := { agingLab now with
  mtus := (agingLab now).mtus.modify 0 fun m => { m with active := { base := 0x4000, log := 4 }, inactive := { base := 0x8000, log := 4 } } }
theorem test_premise_tick : ((agingLab 10000).mtu 0).ageper ≠ 0 ∧ ((agingLab 10000).mtu 0).lastTick + 1000 * ((agingLab 10000).mtu 0).ageper ≤ 10000 ∧
    (ringed 10000).agingWait 0 = none ∧ ((ringed 10000).mtu 0).active.roomy = true ∧ (bit ((ringed 0).pte 0x10000) 60 ≠ bit ((ringed 0).pte 0x10000) 58) ∧
    ((ringed 10000).place 0x4000).toOption.map (fun p => (p.phys, p.peer)) = some (0x4000, none) ∧ ((after (.agingTick 0) (ringed 10000)).mtu 0).active.prod = 1 ∧
    (after (.agingTick 0) (ringed 10000)).bytes 0x4000 8 = toBytes 8 (1 : DWord) ∧ bit ((after (.agingTick 0) (ringed 10000)).pte 0x10000) 58 = true ∧
    ((lockAt 0x4000 (ringed 10000)).agingWait 0).isSome = true ∧ ((after (.agingTick 0) (agingLab 10000)).mtu 0).counters[5]? = some 1 := by decide +kernel
/-- EXPANSION of page 3 takes the frame that the FREE ring names, or waits for one (R234). -/
def framed (n : DWord) : State := { expandingLab pageZone with
  mtus := (expandingLab pageZone).mtus.modify 0 fun m => { m with free := { base := 0x50000, log := 4, prod := n } }
  mem := Sparse.putN memDefault (expandingLab pageZone).mem 0x50000 (toBytes 8 (9 : DWord))
  zone := [7] }
theorem test_premise_expansion : (framed 1).inTable 3 = true ∧ ((framed 1).mtu 0).free.pending = true ∧ ((framed 0).mtu 0).free.pending = false ∧ (framed 1).freeWait 0 = none ∧
    (framed 1).mstWait 0 = none ∧ (framed 1).mstHead 0 = none ∧ field ((framed 1).pte 0x30000) 61 3 = 2 ∧
    ((after (.expansion 0 3) (framed 0)).mtu 0).expanding = [(3, true)] ∧ (framed 1).zone.contains 7 = true := by decide +kernel
/-- A saved row that can be held again (R244). -/
def reopening : State := rowLab.updBlock 1 fun b => { b with holds := [{ row := 64, epoch := 5, reopenBy := some 100 }] }
theorem test_premise_reopen : (reopening.place 0x10000).toOption.map (·.phys) = some 0x10000 ∧ reopening.inFast 1 = true ∧ (reopening.freeSlot 0x10000).isSome = true ∧
    reopening.resident_ 1 = true ∧ (∀ x ∈ reopening.blocks, ∀ y ∈ x.holds, y.held = false) ∧ ((after (.rowRestoreTimeout 1 0) reopening).curBlock.hold 0).held = true ∧
    ((after (.rowRestoreTimeout 1 0) reopening).curBlock.hold 0).epoch = 5 := by decide +kernel
/-- An OFFER that nothing has taken up in time, one that an ACCEPT in the inbox has, and a notice whose grace period is over (R433). -/
theorem test_premise_timers : OfferOver (timed { st := .offered } 100000) { st := .offered, id := 9 } ∧ ¬OfferOver (timed { st := .offered } 99999) { st := .offered, id := 9 } ∧
    ¬OfferOver { timed { st := .offered } 100000 with latigo := { inbox := [(99999, msg 3 9 0 0 0 0)] } } { st := .offered, id := 9 } ∧
    GraceOver (timed {} 50) { st := .active, notice := true, graceEnd := 50 } ∧ ¬GraceOver (timed {} 49) { st := .active, notice := true, graceEnd := 50 } := by
  unfold OfferOver GraceOver; decide +kernel
theorem test_premise_over : (timed { st := .offered } 100000).leases.map (·.1) = [4] ∧ ((timed { st := .offered } 100000).flushEvents.lease 4).st = .offered ∧
    (timed { st := .offered } 100000).flushEvents.latigoWait = none ∧ ((timed { st := .offered } 100000).latigoSettle.lease 4).st = .released ∧
    (after (.accept (msg 3 9 0 0 0 0)) (timed { st := .offered } 100000)).leases.map (fun x => x.2.st) = [.released] ∧
    (after (.gracePeriodEnd 4) (timed { st := .active, notice := true, graceEnd := 50 } 50)).leases.map (fun x => x.2.st) = [.released] ∧
    (after (.leaseExpiry 4) (timed { st := .active, notice := true, graceEnd := 50 } 50)).leases.map (fun x => x.2.st) = [.released] := by decide +kernel
/-- A REQUEST whose time is over: nothing waits that came before, and the ring lets the logic go on. -/
theorem test_premise_no_answer : let s : State := { commanded (at_ 256 0 8 1) asked with devTime := 100000 }
    let w := (s.leases.map (·.1)).foldl State.settleLease s.flushEvents
    w.latigo.request = s.latigo.request ∧ w.latigoWait = none ∧ w.latigo.inbox = [] ∧ ((stalledRing s).flushEvents.latigoWait).isSome = true ∧
      sentOf (after (.offer (msg 2 9 1024 1 0 0)) s) = [(8, 9, 0, 0)] := by decide +kernel
/-- A lent line that this part has mapped in its page 2 and a matrix operation locks: dirty data of a snoop's answer waits for it (R291, R434). -/
def lentLocked : State :=
  let s := lent { st := .active, cached := [1], snoops := [(1, 0)] }
  lockAt 0x20040 { s with mem := Sparse.putN memDefault s.mem (s.pteAddr 0x20000) (toBytes 8 (at_ 64 61 3 3 ||| at_ 64 24 32 9)) }
theorem test_premise_snoops : lentLocked.physLocked (poolBase + 64) 64 = true ∧ lentLocked.leaseAt 9 = lentLocked.leases.head? ∧
    (after (.bisnpResponse 9 1 [7]) lentLocked).leases.map (fun x => (x.2.snoops, x.2.answers)) = [([(1, 0)], [(1, [7])])] ∧
    (after (.bisnpResponse 9 1 [8]) (after (.bisnpResponse 9 1 [7]) lentLocked)).leases.map (fun x => x.2.answers) = [[(1, [7])]] ∧
    (after (.uioWriteReceived 9 64 [7]) lentLocked).incoming.map (·.addr) = [64] := by decide +kernel

/-- A push by queue core 3 for its node (R50): the premises, and a request whose CHECK fails. -/
def pusher : State := let s := pageless id; { s with qcores := s.qcores.modify 3 fun c => { c with node := some 1 } }
theorem test_premise_push : (pusher.qcore 3).node = some 1 ∧ (pusher.service 4).serv = true ∧ (pusher.queue 4).en = true ∧ (pusher.queue 4).closed = false ∧
    Rq.sealed request = true ∧ Rq.ok request = true ∧ Rq.sealed (request ^^^ 1) = false ∧ pusher.mtus = [] ∧ pusher.journalWait 4 false = none ∧ (pusher.queue 4).full = false ∧
    pusher.ownWait ((pusher.queue 4).slot (pusher.queue 4).tail) 64 true = none := by decide +kernel
/-- System core 0 runs at 0x10000, where the instruction `w` stands; x5 = 0x10010, x6 = 0x80 (R467). -/
def scLab (w : Word) : State := { (labMem []).setBytes 0x10000 (toBytes 4 w) with
  scores := (lab []).scores.modify 0 fun c => { c with running := true, pc := 0x10000, x := (c.x.set 5 0x10010).set 6 0x80 } }
def sc (i : Instr) (w : Word) : SysCore := (after i (scLab w)).score 0
theorem test_sc_fetched : 0 < (scLab 0).scores.length ∧ ((scLab 0).score 0).running = true ∧ (scLab 0).scIrq ((scLab 0).score 0) = none ∧
    ((scLab 0xFFF28313).scPlaces ((scLab 0xFFF28313).score 0) (((scLab 0xFFF28313).score 0).mode .load true) 0x10000 2).toOption = some [(0x10000, 0x10000), (0x10001, 0x10001)] ∧
    (((scLab 0xFFF28313).qcNote [(0x10000, 0x10000), (0x10001, 0x10001)] false).scPlaces ((scLab 0xFFF28313).score 0) (((scLab 0xFFF28313).score 0).mode .load true) (0x10000 + 2) 2).toOption =
      some [(0x10002, 0x10002), (0x10003, 0x10003)] ∧ ((lab []).score 1).running = false := by decide +kernel
theorem test_sc_fetches : ∃ u, ScFetches (scLab 0xFFF28313) 0 0xFFF28313 u :=
  ⟨_, test_sc_fetched.1, by decide +kernel, by decide +kernel, [(0x10000, 0x10000), (0x10001, 0x10001)], [(0x10002, 0x10002), (0x10003, 0x10003)],
    aux_ok test_sc_fetched.2.2.2.1, by decide +kernel, aux_ok test_sc_fetched.2.2.2.2.1, by decide +kernel, rfl⟩
/-- ADDI, JAL, LD, SD, EBREAK, an illegal word and C.LI; SH1ADD and CZERO.EQZ (of Zba and Zicond), and the words' meanings. -/
theorem test_sc_runs : let scI : Instr := .systemCoreInstruction 0 (.instruction {})
    (sc scI 0xFFF28313).reg 6 = 0x1000F ∧ (sc scI 0xFFF28313).pc = 0x10004 ∧ (sc scI 0xFFF28313).instret = 1 ∧ (sc scI 0x008000EF).pc = 0x10008 ∧ (sc scI 0x008000EF).reg 1 = 0x10004 ∧
    (sc scI 0xFF82B303).reg 6 = 0x908F8E8D8C8B8A89 ∧ (sc scI 0xFF829303).reg 6 = 0xFFFFFFFFFFFF8A89 ∧ (after scI (scLab 0x0062B423)).bytes 0x10018 2 = [0x80, 0] ∧
    (sc scI 0x00100073).csr 0x142 = 3 ∧ (sc scI 0x00100073).csr 0x141 = 0x10000 ∧ (sc scI 0xFFFFFFFF).csr 0x142 = 2 ∧ (sc scI 0xFFFFFFFF).csr 0x143 = 0xFFFFFFFF ∧
    (sc scI 0x4315).reg 6 = 5 ∧ (sc scI 0x4315).pc = 0x10002 ∧ (sc scI 0x20532333).reg 6 = 0x10110 ∧ (sc scI 0x0E605333).reg 6 = 0 ∧ (sc scI 0x14029373).csr 0x140 = 0x10010 := by decide +kernel
theorem test_sc_words : ∀ p ∈ ([(0x0062B423, .store (((scLab 0).score 0).mode .write) 0x10018 (toBytes 8 (0x80 : DWord))), (0xFF82B303, .load 6 (((scLab 0).score 0).mode .load) 0x10008 8 true),
    (0xFF829303, .load 6 (((scLab 0).score 0).mode .load) 0x10008 2 true), (0x008000EF, .jump 1 0x10008), (0x00100073, .stop (.trap 3 0x10000)), (0xFFF28313, .set 6 0x1000F)] : List (Word × ScDo)),
    ((scLab 0).score 0).word p.1 = p.2 := by decide +kernel
/-- A start by another core, and a store to a register by its address (R6, R467). -/
theorem test_sc_start : ((after (.systemCoreInstruction 1 (.start 0x20000 7 8)) (lab [])).score 1).pc = 0x20000 ∧ ((after (.systemCoreInstruction 1 (.start 0x20000 7 8)) (lab [])).score 1).reg 11 = 8 ∧
    ((after (.systemCoreInstruction 0 (.start 0x20000 7 8)) (scLab 0)).score 0).pc = 0x10000 := by decide +kernel

/-- A field written is read back, and one beside it is not touched by it. -/
theorem aux_same (n lo len x : Nat) (h : lo + len ≤ n) : (at_ n lo len x).extractLsb' lo len = BitVec.ofNat len x := by
  refine BitVec.eq_of_getLsbD_eq fun i hi => ?_
  simp only [at_, BitVec.getLsbD_extractLsb', BitVec.getLsbD_ofNat, Nat.testBit_shiftLeft, Nat.testBit_mod_two_pow, hi, decide_true, Bool.true_and]
  simp [show lo + i < n by omega, hi]
theorem aux_apart (n lo len x lo' len' : Nat) (d : lo' + len' ≤ lo ∨ lo + len ≤ lo') : (at_ n lo len x).extractLsb' lo' len' = 0 := by
  refine BitVec.eq_of_getLsbD_eq fun i hi => ?_
  simp only [at_, BitVec.getLsbD_extractLsb', BitVec.getLsbD_ofNat, Nat.testBit_shiftLeft, Nat.testBit_mod_two_pow, hi, decide_true, Bool.true_and]
  rcases d with d | d
  · simp [show ¬lo ≤ lo' + i by omega]
  · simp [show ¬lo' + i - lo < len by omega]
/-- A manifest of one shard, that of the state, and the shard, of a part that has no data to speak of (R455, R456). -/
def loadEntry : BitVec 512 := at_ 512 0 8 1 ||| at_ 512 256 256 (Config.shake256 []).toNat
def loadShard : Shard := { head := loadEntry, data := [], hub := some (lab []).saveStep }
def loadBase : BitVec 512 := at_ 512 0 8 1 ||| at_ 512 80 8 Config.impRev.toNat ||| at_ 512 92 12 (lab []).pers.poolgr ||| at_ 512 104 8 (lab []).pers.zc
def loadHead : BitVec 512 := loadBase ||| at_ 512 256 256 (manifestDigest loadBase [loadEntry]).toNat
def loadable : State := { ckLab .loading 0 with safeTier := [(0, .manifest loadHead [loadEntry]), (0x400000, .shard loadShard)] }
theorem aux_load_head : toBytes 32 loadHead = toBytes 32 loadBase := by
  refine List.map_congr_left fun i hi => ?_
  have := List.mem_range.mp hi
  rw [loadHead, BitVec.extractLsb'_or, aux_apart 512 256 256 _ (8 * i) 8 (.inl (by omega))]
  simp
/-- The premises of a LOAD that succeeds (R457). -/
theorem test_premise_load : loadable.manifestAt 0 = some (loadHead, [loadEntry]) ∧ loadHead.extractLsb' 256 256 = manifestDigest loadHead [loadEntry] ∧
    (loadHead.extractLsb' 192 64 = 0 ∧ loadHead.extractLsb' 160 32 = 0 ∧ loadHead.extractLsb' 120 8 = 0 ∧ loadHead.extractLsb' 112 8 = 0 ∧
      field loadHead 104 8 = loadable.pers.zc ∧ field loadHead 92 12 = loadable.pers.poolgr ∧ loadHead.extractLsb' 80 8 = Config.impRev) ∧
    loadable.shardOf loadHead loadEntry none = some loadShard ∧ Config.shake256 loadShard.data = loadEntry.extractLsb' 256 256 ∧ loadShard.hub.isSome = true := by
  refine ⟨rfl, ?_, ?_, ?_, ?_, rfl⟩
  · rw [manifestDigest, aux_load_head, ← manifestDigest, loadHead, BitVec.extractLsb'_or, aux_same _ _ _ _ (by omega)]
    simp (disch := omega) [loadBase, BitVec.extractLsb'_or, aux_apart]
  · simp (disch := omega) [loadHead, loadBase, field, BitVec.extractLsb'_or, aux_apart, aux_same]
    decide +kernel
  · have k : field loadEntry 64 32 = 0 := by simp (disch := omega) [loadEntry, field, BitVec.extractLsb'_or, aux_apart]
    have h : loadEntry.extractLsb' 192 64 = loadHead.extractLsb' 192 64 := by
      simp (disch := omega) [loadHead, loadBase, loadEntry, BitVec.extractLsb'_or, aux_apart]
    have p : loadable.shardPlace loadHead loadEntry = some 0x400000 := by
      rw [State.shardPlace, h]
      simp only [k, beq_self_eq_true, if_true]
      rfl
    rw [State.shardOf, p]
    rfl
  · simp (disch := omega) [loadShard, loadEntry, BitVec.extractLsb'_or, aux_apart, aux_same]

/-- A step that SNAP writes stands apart from its base; a QUIESCE that waits for an expansion; measurements (R453, R455, R471). -/
theorem test_premise_snap : (ckLab .writing 0).ck.st = .writing ∧ ∀ k, (ckLab .writing 0).ck.base.toNat ≠ shardAt (ckLab .writing 0).ck.target k := by
  refine ⟨rfl, fun k h => ?_⟩
  have : (0 : Nat) = 0 + 2 ^ 22 + k * (2 ^ 26 + 4096) := h
  omega
def measured : Security := { measures := [1, 2] }
theorem test_premise_quiesce : (State.quiesceTasks [] 0 (ckLab .quiescing 0)).1 = true ∧ (ckLab .quiescing 0).imaged = [] ∧ (ckLab .quiescing 0).ckBusy = false ∧
    (after .quiesceComplete { ckLab .quiescing 0 with mtus := [{ expanding := [(3, false)] }] }).ck.still = true ∧
    (after .quiesceComplete { ckLab .quiescing 0 with mtus := [{ expanding := [(3, false)] }] }).ck.st = .quiescing := by decide +kernel
theorem test_premise_measured : ((measured.answer [0x13, 0xE0, 0, 0xFF]).drop 54).take 4 = [2, 0, 0, 0] ∧ ((measured.answer [0x13, 0xE0, 0, 2]).drop 15).take 4 = [2, 0, 0, 0] ∧
    measured.answer [0x13, 0xE0, 0, 3] = [0x13, 0x7F, 1, 0] ∧ (roundF 8 2 false false 1 0).bits ≠ maxF 8 false := by decide +kernel
/-- A trap that waits in an open try, while its crew moves and after that (R71, R368). -/
def tryTrap (moving : Bool) : State := (tryState 1 false).updCur fun c => { c with moving := moving, pendTraps := [{ ev := { cause := causeBounds }, mask := 1, act := 1 }] }
theorem test_premise_try_trap : (tryTrap true).curCrew.inTry 1 1 { cause := causeBounds } = true ∧ (after (.trapDelivery 1 0) (tryTrap true)).curCrew.pendTraps.length = 1 ∧
    (after (.trapDelivery 1 0) (tryTrap false)).curCrew.pendTraps = [] ∧ ((after (.trapDelivery 1 0) (tryTrap false)).curCrew.fibre 0).reg 30 = abortWord 4 causeBounds.toNat ∧
    pcOf (.trapDelivery 1 0) (tryTrap false) 0 = 0x70 := by decide +kernel
/-- The JTAG port with another instruction, and Cinch's answers while the clocks run (R473). -/
theorem test_premise_jtag : (after (.cinchadr (.other 0x10 [true, false])) (lab [[]])).outbox = [.jtagBits [false, true]] ∧ (after (.cinchadr (.other 0x10 [true])) (lab [[]])).jtagIr = 0x10 ∧
    (after .cinchrd (lab [[]])).outbox = [.jtag 0] ∧ (after .cinch (lab [[]])).jtagIr = 0x2C := by decide +kernel

/-! ### The machine as a whole -/

/-- A crew whose turn comes, with a NOP at its PC: the premises of the step statement, and the step. -/
def turnLab (g : Go) : State := { (lab [[]]).setBytes 96 (wordBytes 0x518000000000000000000000) with turns := [{ go := g }] }
def awake : State := ({ turnLab (.slot 0) with turns := [] } : State).pass 5 12
def taken : State := (awake.take 0 false).2
theorem test_take : (awake.take 0 false).1 = some (1, 0) := by decide +kernel
theorem test_may_fetch : MayFetch taken 1 0 8 := by
  constructor <;> decide +kernel
theorem test_fetched : ((taken.fetch 1 8 false).toOption.map (·.1)) = some 0x518000000000000000000000 ∧
    ((lab [[]]).checkHandle 0 0 0 placedRef 96 12 { kinds := [2], x := true }).toOption = some placedEntry ∧ ((lab [[]]).iaOf 0 0 placedEntry placedRef 96).toOption = some 96 ∧
    ((lab [[]]).checkPlace 96 12 .load).toOption.isSome = true := by decide +kernel
/-- In a crew that has nothing pending and no open lookahead window any instruction within its register window may issue. -/
theorem test_may_issue : (Encoding.row (.nop {})).map (fun r => (Encoding.rowInWindow (fieldsOf (.nop {})) r (lab [[]]).curTask.win,
    (lab [[]]).curCrew.breaker 1 (Encoding.namedRegs (fieldsOf (.nop {})) r) false == none, (lab [[]]).curCrew.awaited 1 (Encoding.namedRegs (fieldsOf (.nop {})) r) == none)) = some (true, true, true) := by
  decide +kernel
def stepped (s : State) : State := match step s with | .next t => t | _ => s
theorem test_step : ((stepped (turnLab (.slot 0))).curCrew.fibre 0).pc = 9 ∧
    (stepped (turnLab (.event .cinch))).frozen = true ∧ (opOf .cinch).isSome = false ∧ (opOf (.nop {})).isSome = true := by decide +kernel
/-- Before its reset, in recovery, after a trip and while every clock is stopped (R469, R473, R476). -/
def stoppedPart (b : Boot) (frozen : Bool) (l : List Turn) : State := { lab [[]] with boot := b, frozen := frozen, turns := l }
def faultOf (s : State) : Option Fault := match step s with | .fault e => some e | _ => none
theorem test_machine_stops : State.reset.boot = .atReset ∧ faultOf (stoppedPart .recovery false []) = some .recovery ∧ faultOf (stoppedPart .tripped false []) = some .thermalTrip ∧
    (stepped (stoppedPart .tripped false [{ go := .idle }])).turns = [] ∧ (stepped (stoppedPart .recovery false [{ go := .event (.spdmRequest []) }])).outbox.length = 1 ∧
    (stepped (stoppedPart .up true [{ go := .event .cinchgo }])).frozen = false ∧ (stepped (stoppedPart .up true [{ go := .slot 0 }])).frozen = true := by decide +kernel
theorem test_reset_answers : (∃ t, step State.reset = .next t) ∧ ∃ t, step (stoppedPart .tripped false [{ go := .event .partReset }]) = .next t := ⟨⟨_, rfl⟩, ⟨_, rfl⟩⟩
/-- Reset is canonical, and so is a memory with a byte written; the boot's tables have a place for the last byte of the last page of a stack. -/
theorem test_canonical : Canonical State.reset ∧ Memory.wf ((lab [[]]).setBytes 96 [1, 0, 2]).mem = true ∧ (State.reset.placed []).mem = [] ∧ (State.reset.placed []).pageBits = [] ∧
    (State.reset.placed []).mtus = (List.range 8).map (bootMtu Config.poolgr) ∧ ((State.reset.placed []).place (7 * 2 ^ 49 + (Config.mappedPages - 1) * 65536 + 65535)).toOption.map (·.phys) = some (7 * 2 ^ 38 + Config.mappedPages * 65536 - 1) := by
  refine ⟨⟨by decide +kernel, .nil⟩, ?_⟩
  decide +kernel
/-- Well-formed instructions, their words and a word of no instruction. -/
theorem test_encode : WellFormed (.iadd (fr 0)) = true ∧ decode (encode (.iadd (fr 0))) = .ok (.iadd (fr 0)) ∧ decode (word 0x0D 0 0 0 0 0 0 0) = .error .illegalOpcode := by decide +kernel

end Sys2Proof.Tests
end

section
/-! The opcode map against the table of groups and minors, and the trap of a word that it does not list (R83, R92, R93). -/

namespace Sys2Proof.Proofs
open Sys2Proof.Machine Sys2Proof.Claims

/-- An OP is ten bits: a group below 32 and a minor below 32. -/
theorem op_lt (w : IWord) : Word.op w < 32 * 32 := (w.extractLsb' 86 10).isLt

/-- The opcode map read group by group: of the 32 minors of each group, those below the group's count, and no others, have an
instruction, whatever the fields. -/
theorem instrOfOp_isSome_of_group (f : Fields) (g : Nat) (hg : g < 32) :
    ((List.range 32).all fun m => (instrOfOp (32 * g + m) f).isSome == decide (m < (minors[g]?).getD 0)) = true := by
  interval_cases g <;> rfl

/-- An OP has an instruction exactly when its minor is listed in its group (R92, R93). -/
theorem instrOfOp_isSome_iff {op : Nat} (f : Fields) (hop : op < 32 * 32) :
    (instrOfOp op f).isSome ↔ op % 32 < (minors[op / 32]?).getD 0 := by
  have hgroup := instrOfOp_isSome_of_group f (op / 32) (Nat.div_lt_of_lt_mul hop)
  have hminor := List.all_eq_true.mp hgroup (op % 32) (List.mem_range.mpr (Nat.mod_lt _ (by decide)))
  rw [Nat.div_add_mod] at hminor
  rw [eq_of_beq hminor, decide_eq_true_iff]

/-- Check 1 of R83 is the only one that refuses a word for its OP: decoding answers ILLEGAL_OPCODE exactly when the map has no
instruction. -/
theorem decode_eq_illegalOpcode_iff (w : IWord) :
    decode w = .error .illegalOpcode ↔ instrOfOp (Word.op w) (Word.fields w) = none := by
  unfold decode
  cases instrOfOp (Word.op w) (Word.fields w) with
  | none => simp
  | some i => by_cases hok : (Word.plainOk w && WellFormed i) = true <;> simp [hok]

/-- Decoding answers ILLEGAL_OPCODE exactly when the word's minor is not listed in its group. -/
theorem decode_eq_illegalOpcode_iff_unlisted (w : IWord) :
    decode w = .error .illegalOpcode ↔ ¬ Word.op w % 32 < (minors[Word.op w / 32]?).getD 0 := by
  rw [decode_eq_illegalOpcode_iff, ← instrOfOp_isSome_iff (Word.fields w) (op_lt w), Option.not_isSome_iff_eq_none]

/-- A strand whose word decodes to ILLEGAL_OPCODE traps with that cause at its PC, before any effect (R83). -/
theorem decodeCur_of_illegalOpcode {s : State} (h : decode s.cur.word = .error .illegalOpcode) :
    s.decodeCur = .trap (s.early s.wordActs { cause := causeIllegalOpcode, pc := s.cur.pc }) := by
  simp only [State.decodeCur, h]

/-- Settles O54: the opcode map, group by group, lists the minors of R93's table and no others. -/
theorem unlistedOpcodes : Obligations.UnlistedOpcodes := by
  intro w
  refine ⟨fun hunlisted => ?_, fun hlisted hrefused => (decode_eq_illegalOpcode_iff_unlisted w).mp hrefused hlisted⟩
  have hrefused := (decode_eq_illegalOpcode_iff_unlisted w).mpr hunlisted
  refine ⟨hrefused, fun s hword => ?_⟩
  subst hword
  exact decodeCur_of_illegalOpcode hrefused

end Sys2Proof.Proofs
end

section
/-! What a register form gives, once for every register form: the frame from `State.perFibre_spec`, and what each acting fibre then reads in
its destination (R84). Bit patterns through masks, pairs and shifts (R7, R128). -/

namespace Sys2Proof.Proofs
open Sys2Proof.Machine Sys2Proof.Bits Sys2Proof.Safety Sys2Proof.Claims

/-! ### Masks and pairs -/

theorem getLsbD_foldl_or_bits {n : Nat} (l : List Nat) (m : BitVec n) (i : Nat) :
    (l.foldl (fun m j => m ||| (1#n <<< j)) m).getLsbD i = (m.getLsbD i || decide (i < n ∧ i ∈ l)) := by
  induction l generalizing m with
  | nil => simp
  | cons j l ih =>
    have hbit : (1#n <<< j).getLsbD i = decide (i < n ∧ i = j) := by
      rw [← BitVec.twoPow_eq, BitVec.getLsbD_twoPow]
      by_cases hij : i = j <;> simp [hij, eq_comm]
    rw [List.foldl_cons, ih, BitVec.getLsbD_or, hbit, Bool.or_assoc, ← Bool.decide_or]
    simp only [List.mem_cons, and_or_left]

/-- A mask has the bits that its list names. -/
@[simp] theorem getLsbD_maskOf (n : Nat) (l : List Nat) (i : Nat) : (maskOf n l).getLsbD i = decide (i < n ∧ i ∈ l) := by
  simp [maskOf, getLsbD_foldl_or_bits]

@[simp] theorem getElem_maskOf (n : Nat) (l : List Nat) (i : Nat) (hi : i < n) : (maskOf n l)[i] = decide (i ∈ l) := by
  rw [← BitVec.getLsbD_eq_getElem, getLsbD_maskOf]
  simp [hi]

/-- The positions of a mask, lowest first, are the list it was made of when that list is in order. -/
theorem ones_maskOf_filter_range (n : Nat) (p : Nat → Bool) :
    ones (maskOf n ((List.range n).filter p)) = (List.range n).filter p := by
  refine List.filter_congr fun i hi => ?_
  simp [List.mem_range.mp hi]

@[simp] theorem hiWord_append_loWord (v : DWord) : hiWord v ++ loWord v = v := by
  unfold hiWord loWord
  exact (BitVec.extractLsb'_append_extractLsb'_eq_extractLsb' (start₂ := 32) (len₂ := 32) rfl).trans BitVec.extractLsb'_eq_self

/-- A fibre that has taken the writes of a pair reads the pair back. -/
theorem pair_of_pairWrites {a b : Fibre} {d : Nat} {v : DWord} (h : ∀ r, b.reg r = lastWrite (pairWrites d v) r (a.reg r)) :
    b.pair d = v := by
  simp [Fibre.pair, h, pairWrites, lastWrite]

/-! ### Register forms -/

/-- A form that writes registers alone gives whatever holds of every fibre that has taken its writes. -/
theorem gives_of_perFibre {i : Instr} {f : Fields} {dests : List Nat} {w : State → Nat → Fibre → List (Nat × Word)}
    {P : State → Nat → Fibre → Fibre → Prop} (hexec : ∀ s, exec i s = .next (s.perFibre f (w s)))
    (hdests : ∀ s k a, ∀ p ∈ w s k a, p.1 ∈ dests)
    (hP : ∀ s k a b, (∀ r, b.reg r = lastWrite (w s k a) r (a.reg r)) → P s k a b) : Gives i f dests P := by
  intro s hs
  obtain ⟨hframe, hregs⟩ := State.perFibre_spec hs f (w s) dests (hdests s)
  exact ⟨_, hexec s, hframe, fun k hk => hP _ _ _ _ (hregs k hk)⟩

/-- A form of one word gives what holds of every fibre with that word in D. -/
theorem gives_of_wordForm {i : Instr} {f : Fields} {g : State → Fibre → Word} {P : State → Nat → Fibre → Fibre → Prop}
    (hexec : ∀ s, exec i s = s.wordForm f (g s)) (hP : ∀ s k a b, b.reg f.d.toNat = g s a → P s k a b) :
    Gives i f [f.d.toNat] P := by
  refine gives_of_perFibre hexec (fun s k a p hp => ?_) fun s k a b hb => hP s k a b ?_
  · rw [List.mem_singleton.mp hp]; exact List.mem_singleton_self _
  · rw [hb, lastWrite_one, if_pos rfl]

/-- The writes of a form with a PAIR variant: `x64` to the pair of D in PAIR, `x32` to D otherwise. -/
def widthWrites (f : Fields) (x64 : Fibre → DWord) (x32 : Fibre → Word) (a : Fibre) : List (Nat × Word) :=
  if f.form = .pair then pairWrites f.d.toNat (x64 a) else [(f.d.toNat, x32 a)]

theorem mem_pairDests_of_widthWrites {f : Fields} {x64 : Fibre → DWord} {x32 : Fibre → Word} {a : Fibre} {p : Nat × Word}
    (hp : p ∈ widthWrites f x64 x32 a) : p.1 ∈ pairDests f := by
  unfold widthWrites at hp
  unfold pairDests
  by_cases hpair : f.form = .pair
  · rw [if_pos hpair] at hp ⊢
    exact (List.mem_map_of_mem hp : p.1 ∈ (pairWrites f.d.toNat (x64 a)).map (·.1))
  · rw [if_neg hpair] at hp ⊢
    rw [List.mem_singleton.mp hp]; exact List.mem_singleton_self _

/-- A form with a PAIR variant gives what holds of every fibre with `x64` in the pair of D in PAIR, and `x32` in D otherwise. -/
theorem gives_of_widthWrites {i : Instr} {f : Fields} {x64 : Fibre → DWord} {x32 : Fibre → Word}
    {P : State → Nat → Fibre → Fibre → Prop} (hexec : ∀ s, exec i s = .next (s.perFibre f fun _ => widthWrites f x64 x32))
    (hP : ∀ s k a b, (if f.form = .pair then b.pair f.d.toNat = x64 a else b.reg f.d.toNat = x32 a) → P s k a b) :
    Gives i f (pairDests f) P := by
  refine gives_of_perFibre hexec (fun s k a p => mem_pairDests_of_widthWrites) fun s k a b hb => hP s k a b ?_
  unfold widthWrites at hb
  by_cases hpair : f.form = .pair
  · simp only [if_pos hpair] at hb ⊢
    exact pair_of_pairWrites hb
  · simp only [if_neg hpair] at hb ⊢
    rw [hb, lastWrite_one, if_pos rfl]

theorem givesBits_of_bitForm {i : Instr} {f : Fields} {g32 : Word → Word → Word} {g64 : DWord → DWord → DWord}
    (hexec : ∀ s, exec i s = s.bitForm f g32 g64) : GivesBits i f g32 g64 :=
  gives_of_widthWrites hexec fun _ _ _ _ hb => hb

/-- A shift leaves in its destination what `P` says of A shifted by B: over 64 bits and the pairs in PAIR, over 32 otherwise. -/
theorem gives_of_shiftForm {i : Instr} {f : Fields} {g : (w : Nat) → BitVec w → Nat → BitVec w}
    {P : (w : Nat) → BitVec w → BitVec w → Nat → Prop} (hexec : ∀ s, exec i s = s.shiftForm f g) (hg : ∀ w v n, P w (g w v n) v n) :
    Gives i f (pairDests f) fun _ _ a b =>
      if f.form = .pair then P 64 (b.pair f.d.toNat) (a.pair f.a.toNat) (a.reg f.b.toNat).toNat
      else P 32 (b.reg f.d.toNat) (a.reg f.a.toNat) (bitsB f a).toNat := by
  refine gives_of_widthWrites hexec fun s k a b hb => ?_
  by_cases hpair : f.form = .pair
  · rw [if_pos hpair] at hb ⊢
    rw [hb]; exact hg ..
  · rw [if_neg hpair] at hb ⊢
    rw [hb]; exact hg ..

end Sys2Proof.Proofs
end

section
/-! Group 0x01, logic and shifts (R127, R128): what the model's bit operations come to as numbers, with counts that are not reduced. -/

namespace Sys2Proof.Proofs
open Sys2Proof.Machine Sys2Proof.Bits Sys2Proof.Safety Sys2Proof.Claims

/-! ### Shifts by a count that is not reduced -/

section
variable {w : Nat} (v : BitVec w) (n : Nat)

/-- From the width up SHL gives 0, and this is the product modulo 2^w all the same. -/
theorem toNat_shl_or_zero : (if n < w then v <<< n else 0).toNat = v.toNat * 2 ^ n % 2 ^ w := by
  have hzero : (if n < w then v <<< n else 0) = v <<< n := by
    split
    · rfl
    · exact (BitVec.shiftLeft_eq_zero (by omega)).symm
  rw [hzero, BitVec.toNat_shiftLeft, Nat.shiftLeft_eq]

/-- From the width up SHR gives 0, and this is the quotient all the same. -/
theorem toNat_shr_or_zero : (if n < w then v >>> n else 0).toNat = v.toNat / 2 ^ n := by
  have hzero : (if n < w then v >>> n else 0) = v >>> n := by
    split
    · rfl
    · exact (BitVec.ushiftRight_eq_zero (by omega)).symm
  rw [hzero, BitVec.toNat_ushiftRight, Nat.shiftRight_eq_div_pow]

/-- A sign shift by the width has copies of the sign alone, and further ones leave them. -/
theorem sshiftRight_min_width : v.sshiftRight (min n w) = v.sshiftRight n := by
  refine BitVec.eq_of_getLsbD_eq fun i hi => ?_
  simp only [BitVec.getLsbD_sshiftRight]
  by_cases hn : n ≤ w
  · rw [Nat.min_eq_left hn]
  · rw [if_neg (by omega : ¬min n w + i < w), if_neg (by omega : ¬n + i < w)]

theorem toInt_sshiftRight_min_width : (v.sshiftRight (min n w)).toInt = v.toInt / 2 ^ n := by
  rw [sshiftRight_min_width, BitVec.toInt_sshiftRight, Int.shiftRight_eq_div_pow, Nat.cast_pow, Nat.cast_ofNat]

end

/-! ### The ternary map and the funnel shift -/

theorem getLsbD_ternary (map : Nat) (a b c : Word) {j : Nat} (hj : j < 32) : (ternary map a b c).getLsbD j =
    map.testBit ((a.getLsbD j).toNat + 2 * (b.getLsbD j).toNat + 4 * (c.getLsbD j).toNat) := by
  simp [ternary, hj]

theorem toNat_word_append (a b : Word) : (a ++ b : BitVec 64).toNat = a.toNat * 2 ^ 32 + b.toNat := by
  rw [BitVec.toNat_append, Nat.shiftLeft_eq, Nat.mul_comm, Nat.two_pow_add_eq_or_of_lt b.isLt]

/-- The funnel shift takes its word from the 64 bits of its two sources: the high one of A:B shifted left, the low one of B:A shifted
right. -/
theorem toNat_funnel (left : Bool) (a b : Word) (n : Nat) : (funnel left a b n).toNat =
    if left then (a.toNat * 2 ^ 32 + b.toNat) * 2 ^ min n 32 / 2 ^ 32 % 2 ^ 32
    else (b.toNat * 2 ^ 32 + a.toNat) / 2 ^ min n 32 % 2 ^ 32 := by
  unfold funnel
  cases left
  · simp only [Bool.false_eq_true, if_false]
    rw [BitVec.extractLsb'_toNat, BitVec.toNat_ushiftRight, Nat.shiftRight_zero, Nat.shiftRight_eq_div_pow, toNat_word_append]
  · simp only [if_true]
    rw [BitVec.extractLsb'_toNat, BitVec.toNat_shiftLeft, Nat.shiftRight_eq_div_pow, Nat.shiftLeft_eq, toNat_word_append,
      show (2 ^ 64 : Nat) = 2 ^ 32 * 2 ^ 32 from rfl, Nat.mod_mul_right_div_self, Nat.mod_mod]

/-! ### The instructions -/

/-- Settles O3: each form is one of three shapes, a bitwise form, a shift or a word form, and the arithmetic of its result is a lemma about
the operation alone. -/
theorem logicAndShifts : Obligations.LogicAndShifts := by
  intro f
  refine ⟨givesBits_of_bitForm fun _ => rfl, givesBits_of_bitForm fun _ => rfl, givesBits_of_bitForm fun _ => rfl,
    givesBits_of_bitForm fun _ => rfl, ?tern, ?shl, ?shr, ?sha, ?fsh⟩
  case tern =>
    refine gives_of_wordForm (fun s => show execTern f s = _ from rfl) fun s k a b hb j hj => ?_
    rw [hb, getLsbD_ternary _ _ _ _ hj]
  case shl =>
    exact gives_of_shiftForm (P := fun w r v n => r.toNat = v.toNat * 2 ^ n % 2 ^ w) (fun s => show execShl f s = _ from rfl)
      fun _ => toNat_shl_or_zero
  case shr =>
    exact gives_of_shiftForm (P := fun _ r v n => r.toNat = v.toNat / 2 ^ n) (fun s => show execShr f s = _ from rfl)
      fun _ => toNat_shr_or_zero
  case sha =>
    exact gives_of_shiftForm (P := fun _ r v n => r.toInt = v.toInt / 2 ^ n) (fun s => show execSha f s = _ from rfl)
      fun _ => toInt_sshiftRight_min_width
  case fsh =>
    refine gives_of_wordForm (fun s => show execFsh f s = _ from rfl) fun s k a b hb => ?_
    rw [hb, toNat_funnel]

end Sys2Proof.Proofs
end

section
/-! IDIV and IREM (R126): what every replay-eligible form gives when it is first issued (R397, R399), and the arithmetic of the quotient and
the remainder. -/

namespace Sys2Proof.Proofs
open Sys2Proof.Machine Sys2Proof.Bits Sys2Proof.Safety Sys2Proof.Claims

/-! ### Replay-eligible forms, first issued -/

/-- A list that pairs keys with values gives each key its own value. -/
theorem find?_map_pair {α : Type} (g : Nat → α) {l : List Nat} {k : Nat} (hk : k ∈ l) :
    Sparse.find? (l.map fun j => (j, g j)) k = some (g k) := by
  induction l with
  | nil => exact absurd hk List.not_mem_nil
  | cons j l ih =>
    rw [List.map_cons, Sparse.find?]
    split
    · next hkj => rw [hkj]
    · next hkj => exact ih ((List.mem_cons.mp hk).resolve_left hkj)

theorem ones_actMask (s : State) (f : Fields) : ones (s.actMask f) = s.acting f := ones_maskOf_filter_range 32 _

/-- The results of the acting slots computed from operands captured by slot are those computed from the fibres themselves. -/
theorem map_acting_captured (s : State) (f : Fields) (srcA srcB : Fibre → DWord) {β : Type} (val : DWord → DWord → β) :
    ((ones (s.actMask f)).map fun k => (k, val
      ((Sparse.find? ((s.acting f).map fun j => (j, srcA (s.curCrew.fibre j))) k).getD 0)
      ((Sparse.find? ((s.acting f).map fun j => (j, srcB (s.curCrew.fibre j))) k).getD 0))) =
    (s.acting f).map fun k => (k, val (srcA (s.curCrew.fibre k)) (srcB (s.curCrew.fibre k))) := by
  rw [ones_actMask]
  refine List.map_congr_left fun k hk => ?_
  rw [find?_map_pair (fun j => srcA (s.curCrew.fibre j)) hk, find?_map_pair (fun j => srcB (s.curCrew.fibre j)) hk]
  rfl

/-- The issue of a long-latency form leaves its result waiting (R87). -/
theorem issueLong_awaits {s : State} (hs : executing s = true) (f : Fields) (p : Pending) (dests : List Nat) :
    Awaits s (s.issueLong f p dests) f
      { p with id := s.nextId, pc := s.cur.pc, word := s.cur.word, mask := s.actMask f, strand := s.cur.mask } := by
  obtain ⟨hrest, -, hcrew, hpend, -⟩ := State.issueLong_spec hs f p dests
  exact ⟨hrest, State.issueLong_moved hs f p dests, hcrew, hpend, rfl, rfl, rfl, rfl, rfl⟩

/-- A replay-eligible form that is first issued leaves the results of its acting fibres waiting, computed from their operands at issue, with
the exceptions that are not empty. -/
theorem givesLater_of_replayForm {i : Instr} {f : Fields} {dests : List Nat} {srcA srcB : Fibre → DWord}
    {val : State → DWord → DWord → List (Nat × Word) × BitVec 5} {res : State → Fibre → List (Nat × Word) × BitVec 5}
    (hexec : ∀ s, exec i s = s.replayForm f dests srcA srcB (val s)) (hres : ∀ s a, val s (srcA a) (srcB a) = res s a) :
    GivesLater i f res := by
  intro s hs hfirst hroom
  have hissue := hexec s
  unfold State.replayForm at hissue
  simp only [hfirst, if_neg (Nat.not_le.mpr hroom), map_acting_captured, hres, List.map_map] at hissue
  refine ⟨_, _, hissue, issueLong_awaits hs f _ dests, rfl, rfl, rfl, rfl, fun k e => ?_⟩
  simp only [List.mem_filter, List.mem_map, Function.comp, Prod.mk.injEq, bne_iff_ne, acts]
  constructor
  · rintro ⟨⟨j, hj, rfl, rfl⟩, hne⟩
    exact ⟨hj, rfl, hne⟩
  · rintro ⟨hk, rfl, hne⟩
    exact ⟨⟨k, hk, rfl, rfl⟩, hne⟩

/-! ### Quotient and remainder -/

theorem divExact_of_ne_zero (ty : Nat) (sat : Bool) (a : Int) {b : Int} (hb : b ≠ 0) : divExact ty sat a b = a.tdiv b := by
  simp [divExact, hb]

theorem remExact_of_ne_zero (a : Int) {b : Int} (hb : b ≠ 0) : remExact a b = a.tmod b := by simp [remExact, hb]

theorem abs_tmod_lt (a : Int) {b : Int} (hb : b ≠ 0) : |a.tmod b| < |b| := by
  rw [Int.abs_eq_natAbs, Int.abs_eq_natAbs, Int.natAbs_tmod]
  exact_mod_cast Nat.mod_lt _ (Int.natAbs_pos.mpr hb)

theorem tmod_nonpos_of_nonpos {a : Int} (b : Int) (ha : a ≤ 0) : a.tmod b ≤ 0 := by
  have h := Int.tmod_nonneg b (neg_nonneg.mpr ha)
  rw [Int.neg_tmod] at h
  exact neg_nonneg.mp h

/-- The second operand of a division as it is captured reads as TYPE to the operand of R124, immediate or not. -/
theorem intOf_divB (f : Fields) (a : Fibre) : intOf f.ty (divB f a) = opB f a := by
  unfold divB opB
  split <;> rfl

/-- Settles O2: both forms are issues of the one replay-eligible shape; their values are truncating division, and by zero the values of
R126's table. -/
theorem integerDivision : Obligations.IntegerDivision := by
  refine ⟨fun f => ⟨?idiv, ?irem⟩, fun ty sat a b hb => ?nonzero, fun ty a => ?zero⟩
  case idiv =>
    refine givesLater_of_replayForm (fun s => show execIdiv f s = _ from rfl) fun s a => ?_
    rw [intOf_divB, Fibre.int]
  case irem =>
    refine givesLater_of_replayForm (fun s => show execIrem f s = _ from rfl) fun s a => ?_
    rw [intOf_divB, Fibre.int]
  case nonzero =>
    rw [divExact_of_ne_zero ty sat a hb, remExact_of_ne_zero a hb]
    exact ⟨(Int.tdiv_mul_add_tmod a b).symm, abs_tmod_lt a hb, Int.tmod_nonneg b, tmod_nonpos_of_nonpos b⟩
  case zero =>
    refine ⟨rfl, fun hsigned => ?_, fun hsigned => ?_, fun hunsigned sat => ?_⟩
    · simp [divExact, hsigned]
    · simp [divExact, hsigned]
    · simp [divExact, hunsigned]

end Sys2Proof.Proofs
end

section
/-! SETMODE (R142, R160, R161): what `modeFix` leaves of a value of the mode register, and the masked writes that the acting fibres make to
it one after the other. -/

namespace Sys2Proof.Proofs
open Sys2Proof.Machine Sys2Proof.Bits Sys2Proof.Safety

/-! ### The legal rounding modes and the reserved bits -/

/-- The values that R161 does not let stand in RM. -/
theorem six_le_toNat_iff (r : BitVec 3) : 6 ≤ r.toNat ↔ r = 6#3 ∨ r = 7#3 := by
  revert r
  decide

/-- Dropping the reserved bits leaves RM as it is. -/
theorem extractLsb'_and_layout (w : Word) : (w &&& 0xFFFF).extractLsb' 0 3 = w.extractLsb' 0 3 := by
  rw [BitVec.extractLsb'_and, show (0xFFFF : Word).extractLsb' 0 3 = BitVec.allOnes 3 from rfl, BitVec.and_allOnes]

/-- The two outcomes of `modeFix`: without its reserved bits, a value keeps an RM that is a rounding mode and loses any other. -/
theorem modeFix_eq (w : Word) : modeFix w =
    if w.extractLsb' 0 3 = 6#3 ∨ w.extractLsb' 0 3 = 7#3 then w &&& 0xFFFF &&& ~~~7#32 else w &&& 0xFFFF := by
  show (if 6 ≤ ((w &&& 0xFFFF).extractLsb' 0 3).toNat then _ else _) = _
  simp only [six_le_toNat_iff, extractLsb'_and_layout]

theorem getLsbD_lowOnes {n : Nat} (hn : n ≤ 32) (b : Nat) : ((BitVec.allOnes n).setWidth 32).getLsbD b = decide (b < n) := by
  rw [BitVec.getLsbD_setWidth, BitVec.getLsbD_allOnes, ← Bool.decide_and]
  exact decide_eq_decide.mpr ⟨And.right, fun h => ⟨h.trans_le hn, h⟩⟩

theorem getLsbD_layout (b : Nat) : (0xFFFF : Word).getLsbD b = decide (b < 16) :=
  getLsbD_lowOnes (n := 16) (by decide) b

theorem getLsbD_seven (b : Nat) : (7#32).getLsbD b = decide (b < 3) := getLsbD_lowOnes (n := 3) (by decide) b

/-- RM of a register that SETMODE leaves (R161). -/
theorem extractLsb'_modeFix (w : Word) : (modeFix w).extractLsb' 0 3 =
    if w.extractLsb' 0 3 = 6#3 ∨ w.extractLsb' 0 3 = 7#3 then 0#3 else w.extractLsb' 0 3 := by
  rw [modeFix_eq]
  split
  · rw [BitVec.extractLsb'_and, show (~~~7#32).extractLsb' 0 3 = 0#3 from rfl, BitVec.and_zero]
  · exact extractLsb'_and_layout w

/-- Above RM, `modeFix` keeps the bits of the layout and drops the reserved ones. -/
theorem getLsbD_modeFix {w : Word} {b : Nat} (hb : 3 ≤ b) : (modeFix w).getLsbD b = (w.getLsbD b && decide (b < 16)) := by
  rw [modeFix_eq]
  split
  · rw [BitVec.getLsbD_and, BitVec.getLsbD_and, BitVec.getLsbD_not, getLsbD_layout, getLsbD_seven]
    grind
  · rw [BitVec.getLsbD_and, getLsbD_layout]

/-! ### One fibre after the other -/

/-- What the fibre in slot k of a crew makes of a mode register: its masked bits of A stand in it (R142). -/
def maskedMode (f : Fields) (c : Crew) (m : Word) (k : Nat) : Word :=
  (m &&& ~~~bitsB f (c.fibre k)) ||| ((c.fibre k).reg f.a.toNat &&& bitsB f (c.fibre k))

/-- The mode register before the first acting fibre writes it and after each of them. -/
def modeTrail (f : Fields) (s : State) : List Word := (s.acting f).scanl (maskedMode f s.curCrew) s.curCrew.mode

theorem length_modeTrail (f : Fields) (s : State) : (modeTrail f s).length = (s.acting f).length + 1 := List.length_scanl

theorem modeTrail_zero (f : Fields) (s : State) : (modeTrail f s)[0]? = some s.curCrew.mode := List.getElem?_scanl_zero

/-- Each acting fibre writes what the one before it left. -/
theorem modeTrail_succ {f : Fields} {s : State} {j k : Nat} {before : Word} (hk : (s.acting f)[j]? = some k)
    (hbefore : (modeTrail f s)[j]? = some before) : (modeTrail f s)[j + 1]? = some (maskedMode f s.curCrew before k) := by
  rw [modeTrail] at hbefore ⊢
  rw [List.getElem?_succ_scanl, hbefore, hk]
  rfl

/-- The last of them is the fold of the writes over the acting fibres. -/
theorem modeTrail_length (f : Fields) (s : State) : (modeTrail f s)[(s.acting f).length]? =
    some ((s.acting f).foldl (maskedMode f s.curCrew) s.curCrew.mode) := by
  rw [modeTrail, List.getElem?_scanl, if_pos le_rfl, List.take_length]

theorem goOn_mode {s : State} (hs : executing s = true) : s.goOn.curCrew.mode = s.curCrew.mode := by
  rw [show s.goOn.curCrew = _ from State.updCur_curCrew hs _]
  rfl

/-- The mode register that SETMODE leaves outside a try: as it was when no fibre acts, else the last write as R161 lets it stand. -/
theorem setmode_mode {f : Fields} {s : State} (hs : executing s = true) (htry : s.curCrew.tr = none) :
    ∃ t, exec (.setmode f) s = .next t ∧ t.curCrew.mode =
      if (s.acting f).isEmpty then s.curCrew.mode
      else modeFix ((s.acting f).foldl (maskedMode f s.curCrew) s.curCrew.mode) := by
  have hgoes : executing s.goOn = true := executing_updCur hs (by simp [(executing_parts hs).2.2])
  refine ⟨_, (State.noTry_none f 0x05 _ htry : execSetmode f s = _), ?_⟩
  rw [State.updCur_curCrew hgoes]
  simp only [goOn_mode hs]
  congr 2
  exact (List.foldl_hom Prod.fst fun _ _ => rfl).symm

/-- Settles O53: the trail of writes is the list of the statement, and `modeFix` of its last entry stands in the register. -/
theorem setModeRounding : Obligations.SetModeRounding := by
  intro f s hs htry
  obtain ⟨t, hexec, hmode⟩ := setmode_mode (f := f) hs htry
  refine ⟨t, hexec, fun hnone => ?_, modeTrail f s, length_modeTrail f s, modeTrail_zero f s, fun j k before after hk hbefore hafter => ?_,
    fun w hsome hw => ?_⟩
  · simpa [hnone] using hmode
  · exact Option.some.inj (hafter.symm.trans (modeTrail_succ hk hbefore))
  · rw [modeTrail_length, Option.some.injEq] at hw
    rw [if_neg (by simpa using hsome), hw] at hmode
    rw [hmode]
    refine ⟨extractLsb'_modeFix w, fun b hlow hhigh => ?_, fun b hreserved => ?_⟩
    · simp [getLsbD_modeFix hlow, hhigh]
    · simp [getLsbD_modeFix (show 3 ≤ b by omega), Nat.not_lt.mpr hreserved]

end Sys2Proof.Proofs
end
